-- ==== Sys2Proof/Word.lean ====
section
/-!
DEFINITION. The word types of the Stapaxo S8 and the names for them.
-/
namespace Sys2Proof

/-- One byte of memory (00 R5). -/
abbrev Byte := BitVec 8
/-- A 32-bit register value: one lane of a vector register, or a uniform register (01 R12). -/
abbrev Word := BitVec 32
/-- A 64-bit value: a uniform pair, mpc, or a slot of a bundle (00 R5). -/
abbrev DWord := BitVec 64
/-- A lane mask: bit n is lane n (01 R12). -/
abbrev Mask := BitVec 128
/-- The 256 bits of a bundle (05 R88). -/
abbrev BundleWord := BitVec 256

end Sys2Proof
end

