-- ==== Sys2Proof/Syntax.lean ====
section
/-!
DEFINITION. The steps of the module as syntax: one constructor of Instr for each row of the opcode table. The first 171 are
instructions of the four slots of a bundle (05 R96, R99, R101, R104); the others are the steps that the device or its
surroundings take (spec/95_what_each_step_holds.md), named with what distinguishes one such step from another.
-/
namespace Sys2Proof

/-- An operand field of the vector, memory and copy/matrix slots (05 R92). -/
inductive Opd
  /-- Vector register, with its index flag. -/
  | v (idx : Bool) (n : BitVec 6)
  /-- Uniform register. -/
  | s (n : BitVec 9)
  /-- Special 0x000: no destination. -/
  | nil
  /-- Specials 0x001 to 0x004: dv1 to dv4, `k` = 0 for dv1. -/
  | dv (k : BitVec 2)
  /-- Specials 0x005 and 0x006: dc1 and dc2, `k` = 0 for dc1. -/
  | dc (k : BitVec 1)
  /-- Specials 0x008 to 0x00F: mask registers. -/
  | m (n : BitVec 3)
  /-- Signed short immediate. -/
  | imm (i : BitVec 9)
deriving DecidableEq, Repr, Inhabited

/-- Rounding modes (04 R74). -/
inductive RMode | rn | rz | rd | ru
deriving DecidableEq, Repr, Inhabited

/-- Number formats (04 R68). -/
inductive Fmt | f32 | f16 | bf16 | e4m3 | e5m2 | e2m1 | s8 | s32 | cb2 | e8m0
deriving DecidableEq, Repr, Inhabited

/-- Comparison conditions (06 R114, R120). -/
inductive Cond | eq | ne | lt | le | gt | ge | ord | uno
deriving DecidableEq, Repr, Inhabited

/-- Keys of SORT2 (06 R132). -/
inductive SortKey | u32 | s32 | f32
deriving DecidableEq, Repr, Inhabited

/-- Operations of SCAN and REDUCE (06 R133). -/
inductive ScanOp | iadd | fadd | smin | smax | umin | umax | fmin | fmax | and | or | xor
deriving DecidableEq, Repr, Inhabited

/-- Operations of VOTE (06 R134). -/
inductive VoteOp
  | any | all
  /-- Quarter `q` of the mask. -/
  | bal (q : BitVec 2)
  | count | first
deriving DecidableEq, Repr, Inhabited

/-- Access widths of the memory slot (05 R98). -/
inductive Width | w8 | w8sx | w16 | w16sx | w32 | w64 | w128
deriving DecidableEq, Repr, Inhabited

/-- Scopes (10 R226), from the narrowest to the widest. -/
inductive Scope | lane | board | bent | core | bay | frame | package | node | pod | system
deriving DecidableEq, Repr, Inhabited

/-- Orders of a fence (07 R156). -/
inductive Order | acq | rel | ar | sc
deriving DecidableEq, Repr, Inhabited

/-- Paths (10 R235). -/
inductive PathK | board | copy | matrix | route
deriving DecidableEq, Repr, Inhabited

/-- Atomic operations (07 R151). -/
inductive AtomOp | add | smin | smax | umin | umax | and | or | xor | exch | cas | fadd | fmax
deriving DecidableEq, Repr, Inhabited

/-- Widths of CPA (08 R167). -/
inductive CpaWidth | w4 | w8 | w16
deriving DecidableEq, Repr, Inhabited

/-- Selectors of ROUTE.STAT (11 R253). -/
inductive StatSel | lkept | ldrop | lnone | dwrit | dlovf | total | kept | edrop | ovf | offset
deriving DecidableEq, Repr, Inhabited

/-- Gate kinds (02 R34, 09 R201). -/
inductive GateKind | bent | bay | remote
deriving DecidableEq, Repr, Inhabited

/-- The engines that take commands (08 R163): the matrix and copy engine of a core, a routing engine of a frame. -/
inductive EngineId | matrix (core : Nat) | copy (core : Nat) | route (frame eng : Nat)
deriving DecidableEq, Repr, Inhabited

/-- A line in flight: line `line` of operation `op` of a board's memory path, or a request sent to a peer or to the host. -/
inductive LineRef | acc (board op line : Nat) | out (id : Nat)
deriving DecidableEq, Repr, Inhabited

/-- What comes back for a request: data (empty for a write, and for a line of local memory, whose data the module itself
reads), a fault with its cause (23 R411), or stopped (23 R412). -/
inductive LineResp | ok (data : List Byte) | fault (cause : BitVec 8) | stopped
deriving DecidableEq, Repr, Inhabited

/-- A variable-latency operation: of a board's memory path, of a core's copy or matrix engine, of a frame's routing engines,
or a LAUNCH in acceptance. -/
inductive OpRef | acc (board op : Nat) | copy (core cmd : Nat) | matrix (core cmd : Nat) | route (frame cmd : Nat) | launch (id : Nat)
deriving DecidableEq, Repr, Inhabited

/-- Where a bent is placed (02 R25): its core, the second core of a split bent, and the board slot of each board. -/
structure Place where
  core : Nat
  core2 : Option Nat
  slots : List Nat
  /-- Physical bases of the scratchpad allocation, one for each core (10 R218). -/
  bases : List Nat
deriving DecidableEq, Repr, Inhabited

/-- One lane operation of an atomic request (15 R325): byte offset in the line, operation, width, operand, compare value. -/
structure PeerAtom where
  off : Nat
  op : AtomOp
  wd : Bool
  arg : DWord
  cmp : DWord
deriving DecidableEq, Repr, Inhabited

/-- What a peer asks for (15 R319, R324, R326 to R329). -/
inductive PeerKind
  | read (len : Nat)
  | write (bytes : List (Nat × Byte))
  | atomic (ops : List PeerAtom)
  | arrive
  | gateInit (target : Word)
  /-- PHASE read by a waiting board of the peer; it is registered when the phase still equals `phase`. -/
  | phaseRead (phase : Bool) (waiter : Nat)
deriving DecidableEq, Repr, Inhabited

/-- A request of a peer module: sender, its agent, the plane it came on (15 R321), pod group, ordered or relaxed, peer address, storer depth
(12 R265). -/
structure PeerReq where
  mod : Nat
  agent : Nat
  plane : Nat
  group : BitVec 16
  ordered : Bool
  replay : Bool
  addr : DWord
  depth : Nat
  kind : PeerKind
deriving DecidableEq, Repr, Inhabited

/-- A wake for a waiter of a remote gate (15 R327, R328): the board or the COMBINE, whether PHASE is read again, as after a `.init` (25 R432), the
gate's address at its home, and the module of that home when it is a peer. -/
structure Wake where
  board : Nat
  again : Bool
  gate : Nat
  peer : Option Nat := none
deriving DecidableEq, Repr, Inhabited

/-- What a slot holds (15 R312): a request of this module or an arrival at a gate, by its number; what a peer has answered to one, data
or an acknowledgement; a wake for a board; a request of a peer on its way to its home, by its number; what the home has answered to it; or a wake for
a waiter of a peer, on its way to its plane's station (R321). -/
inductive SlotLoad
  | request (id : Nat)
  | arrival (id : Nat)
  | response (id : Nat) (resp : LineResp)
  | ack (id : Nat) (resp : LineResp)
  | wake (wake : Wake)
  | inbound (id : Nat)
  | served (mod agent plane : Nat) (resp : LineResp)
  | wakeOut (mod agent gate : Nat) (again : Bool)
deriving DecidableEq, Repr, Inhabited

/-- A slot on a package ring (15 R312 to R314): what it holds, its lane's sequence number when it is ordered, and its refusals: after a
second one, or a corruption, it is back in its sender's retry buffer. -/
structure RingSlot where
  load : SlotLoad
  seq : Option Nat
  refusals : Nat
deriving DecidableEq, Repr, Inhabited

/-- The slot a trap names (21 R375): 0 to 3 of the bundle, 7 for none or the header. -/
inductive TrapSlot | vec | mem | cmx | ctl | none
deriving DecidableEq, Repr, Inhabited

/-- What a service core finds for a bind symbol (14 R309, 25 R433). -/
inductive BindResult | found (target : BitVec 48) (vbud : BitVec 8) | failed (cause : BitVec 8)
deriving DecidableEq, Repr, Inhabited

/-- A method of a bring-up step for a unit that fails at this start (17 R359, R361), or whose record cannot be written. -/
structure StepFail where
  step : Nat
  unit : BitVec 8
  alternate : Bool
  code : DWord
  /-- It passes: its record alone fails. -/
  passes : Bool := false
  /-- Its record cannot be written to flash (26 R457). -/
  unwritten : Bool := false
deriving DecidableEq, Repr, Inhabited

/-- A start (17 R359, R360): the methods that fail in it, and the frames that finish their steps later. -/
structure Start where
  fails : List StepFail := []
  late : List Nat := []
deriving DecidableEq, Repr, Inhabited

/-- What the host does at an address of a BAR (17 R350): a write of a value of 1 to 8 bytes, or an AtomicOp of 32 or 64 bits. -/
inductive HostOp
  | write (bytes : Nat) (value : DWord)
  | fetchAdd (wd : Bool) (value : DWord)
  | swap (wd : Bool) (value : DWord)
  | cas (wd : Bool) (value cmp : DWord)
deriving DecidableEq, Repr, Inhabited

/-- The steps of the module, one constructor for each row of the opcode table: the table's order, but for steps that only the surroundings
take, which stand last (Lean's runtime builds no constructor with fields beyond the 245th, and the module itself never builds those). -/
inductive Instr
  /-- MOV: Copies A into D per active lane (06 R117). -/
  | mov (d a : Opd)
  /-- MOVI: Writes the VI immediate per active lane (06 R117). -/
  | movi (d : Opd) (imm : BitVec 32)
  /-- SEL: Selects A or B by mask C (06 R117). -/
  | sel (d a b : Opd) (c : BitVec 3)
  /-- FADD: binary32 add (06 R118). -/
  | fadd (d a b : Opd) (rm : RMode)
  /-- FSUB: binary32 subtract (06 R118). -/
  | fsub (d a b : Opd) (rm : RMode)
  /-- FMUL: binary32 multiply (06 R118). -/
  | fmul (d a b : Opd) (rm : RMode)
  /-- FFMA: binary32 fused multiply-add (06 R118). -/
  | ffma (d a b c : Opd) (rm : RMode)
  /-- FMIN: binary32 minimum (06 R119). -/
  | fmin (d a b : Opd)
  /-- FMAX: binary32 maximum (06 R119). -/
  | fmax (d a b : Opd)
  /-- FABS: Clears the sign bit (06 R119). -/
  | fabs (d a : Opd)
  /-- FNEG: Inverts the sign bit (06 R119). -/
  | fneg (d a : Opd)
  /-- FCMP: binary32 compare into a mask (06 R120). -/
  | fcmp (d : BitVec 3) (a b : Opd) (cond : Cond)
  /-- FCLASS: One-hot class word (06 R121). -/
  | fclass (d a : Opd)
  /-- FRCP: Reciprocal (06 R122). -/
  | frcp (d a : Opd)
  /-- FRSQ: Reciprocal square root (06 R122). -/
  | frsq (d a : Opd)
  /-- FSQRT: Square root, correctly rounded (06 R122). -/
  | fsqrt (d a : Opd) (rm : RMode)
  /-- FEXP2: Power of two (06 R122). -/
  | fexp2 (d a : Opd)
  /-- FLOG2: Base-2 logarithm (06 R122). -/
  | flog2 (d a : Opd)
  /-- FSIN: Sine (06 R122). -/
  | fsin (d a : Opd)
  /-- FCOS: Cosine (06 R122). -/
  | fcos (d a : Opd)
  /-- FTANH: Hyperbolic tangent (06 R122). -/
  | ftanh (d a : Opd)
  /-- HADD2: Packed 16-bit add (06 R123). -/
  | hadd2 (d a b : Opd) (rm : RMode) (fmt : Fmt)
  /-- HSUB2: Packed 16-bit subtract (06 R123). -/
  | hsub2 (d a b : Opd) (rm : RMode) (fmt : Fmt)
  /-- HMUL2: Packed 16-bit multiply (06 R123). -/
  | hmul2 (d a b : Opd) (rm : RMode) (fmt : Fmt)
  /-- HFMA2: Packed 16-bit fused multiply-add (06 R123). -/
  | hfma2 (d a b c : Opd) (rm : RMode) (fmt : Fmt)
  /-- HMIN2: Packed 16-bit minimum (06 R123). -/
  | hmin2 (d a b : Opd) (fmt : Fmt)
  /-- HMAX2: Packed 16-bit maximum (06 R123). -/
  | hmax2 (d a b : Opd) (fmt : Fmt)
  /-- IADD: Integer add, wrapping or saturating (06 R124). -/
  | iadd (d a b : Opd) (sat uns : Bool)
  /-- ISUB: Integer subtract, wrapping or saturating (06 R124). -/
  | isub (d a b : Opd) (sat uns : Bool)
  /-- IMUL: Low product (06 R124). -/
  | imul (d a b : Opd)
  /-- IMAD: Low product plus C (06 R124). -/
  | imad (d a b c : Opd)
  /-- IMULH: High product (06 R124). -/
  | imulh (d a b : Opd) (uns : Bool)
  /-- IMIN: Integer minimum (06 R125). -/
  | imin (d a b : Opd) (uns : Bool)
  /-- IMAX: Integer maximum (06 R125). -/
  | imax (d a b : Opd) (uns : Bool)
  /-- ICMP: Integer compare into a mask (06 R125). -/
  | icmp (d : BitVec 3) (a b : Opd) (cond : Cond) (uns : Bool)
  /-- AND: Bitwise and (06 R126). -/
  | and (d a b : Opd)
  /-- OR: Bitwise or (06 R126). -/
  | or (d a b : Opd)
  /-- XOR: Bitwise exclusive or (06 R126). -/
  | xor (d a b : Opd)
  /-- NOT: Bitwise complement (06 R126). -/
  | not (d a : Opd)
  /-- SHL: Shift left (06 R126). -/
  | shl (d a b : Opd)
  /-- SHR: Logical shift right (06 R126). -/
  | shr (d a b : Opd)
  /-- SAR: Arithmetic shift right (06 R126). -/
  | sar (d a b : Opd)
  /-- POPC: Count of one bits (06 R127). -/
  | popc (d a : Opd)
  /-- CLZ: Count of leading zero bits (06 R127). -/
  | clz (d a : Opd)
  /-- BFE: Bit-field extract (06 R127). -/
  | bfe (d a b c : Opd) (uns : Bool)
  /-- BFI: Bit-field insert (06 R127). -/
  | bfi (d a b c : Opd)
  /-- BREV: Bit reversal (06 R127). -/
  | brev (d a : Opd)
  /-- CVT: Conversion between formats (06 R128). -/
  | cvt (d a : Opd) (rm : RMode) (sat : Bool) (target source : Fmt)
  /-- NARROW: Block narrowing with scales (06 R129). -/
  | narrow (d a : Opd) (c : BitVec 9) (rm : RMode) (sat : Bool) (fmt : Fmt) (fb : Bool)
  /-- QSCALE: Block scales (06 R129). -/
  | qscale (d : BitVec 9) (a : Opd) (fmt : Fmt)
  /-- SHFL_IDX: Shuffle by index (06 R130). -/
  | shflIdx (d a b : Opd)
  /-- SHFL_UP: Shuffle up (06 R130). -/
  | shflUp (d a b : Opd)
  /-- SHFL_DOWN: Shuffle down (06 R130). -/
  | shflDown (d a b : Opd)
  /-- SHFL_XOR: Shuffle by exclusive or (06 R130). -/
  | shflXor (d a b : Opd)
  /-- BCAST: Broadcast of one lane (06 R131). -/
  | bcast (d a b : Opd)
  /-- ROT: Rotation of the lanes (06 R131). -/
  | rot (d a b : Opd)
  /-- SORT2: One compare-exchange stage (06 R132). -/
  | sort2 (d a b : Opd) (key : SortKey) (desc : Bool)
  /-- SCAN: Board-wide scan (06 R133). -/
  | scan (d a : Opd) (op : ScanOp) (excl : Bool)
  /-- REDUCE: Board-wide reduction (06 R133). -/
  | reduce (d a : Opd) (op : ScanOp)
  /-- VOTE: Reduces a mask to a uniform value (06 R134). -/
  | vote (d : BitVec 9) (a : BitVec 3) (op : VoteOp)
  /-- HASH: Counter-based hash (06 R135). -/
  | hash (d a b : Opd)
  /-- MAND: Mask and (06 R136). -/
  | mand (d a b : BitVec 3)
  /-- MOR: Mask or (06 R136). -/
  | mor (d a b : BitVec 3)
  /-- MXOR: Mask exclusive or (06 R136). -/
  | mxor (d a b : BitVec 3)
  /-- MANDN: Mask and-not (06 R136). -/
  | mandn (d a b : BitVec 3)
  /-- MNOT: Mask complement (06 R136). -/
  | mnot (d a : BitVec 3)
  /-- MMOV: Mask copy (06 R136). -/
  | mmov (d a : BitVec 3)
  /-- MLANE: Mask of a lane interval (06 R136). -/
  | mlane (d : BitVec 3) (a b : Opd)
  /-- MBAL: Mask of nonzero lanes (06 R136). -/
  | mbal (d : BitVec 3) (a : Opd)
  /-- LD: Per-lane load through a buffer record (07 R147). -/
  | ld (d : Opd) (br : BitVec 5) (x : Opd) (off : BitVec 18) (peg : Option (BitVec 3)) (w : Width) (sc : Option Scope)
  /-- ST: Per-lane store through a buffer record (07 R147). -/
  | st (d : Opd) (br : BitVec 5) (x : Opd) (off : BitVec 18) (peg : Option (BitVec 3)) (w : Width) (sc : Option Scope)
  /-- LDU: Uniform load (07 R148). -/
  | ldu (d : BitVec 9) (br : BitVec 5) (x : Opd) (off : BitVec 18) (peg : Option (BitVec 3)) (w : Width) (sc : Option Scope)
  /-- STU: Uniform store (07 R148). -/
  | stu (d : Opd) (br : BitVec 5) (x : Opd) (off : BitVec 18) (peg : Option (BitVec 3)) (w : Width) (sc : Option Scope)
  /-- LDS: Scratchpad load (07 R149). -/
  | lds (d x : Opd) (off : BitVec 18) (peg : Option (BitVec 3)) (w : Width)
  /-- STS: Scratchpad store (07 R149). -/
  | sts (d x : Opd) (off : BitVec 18) (peg : Option (BitVec 3)) (w : Width)
  /-- PREF: Prefetch (07 R158). -/
  | pref (br : BitVec 5) (x : Opd) (off : BitVec 18) (l2 : Bool)
  /-- ATOM: Global atomic per lane (07 R152). -/
  | atom (d a : Opd) (br : BitVec 5) (x : Opd) (off : BitVec 6) (peg : Option (BitVec 3)) (op : AtomOp) (sc : Option Scope) (wd : Bool)
  /-- RED: Global reduction per lane (07 R152). -/
  | red (a : Opd) (br : BitVec 5) (x : Opd) (off : BitVec 6) (peg : Option (BitVec 3)) (op : AtomOp) (sc : Option Scope) (wd : Bool)
  /-- ATOMS: Scratchpad atomic per lane (07 R152). -/
  | atoms (d a x : Opd) (off : BitVec 6) (peg : Option (BitVec 3)) (op : AtomOp) (sc : Scope) (wd : Bool)
  /-- REDS: Scratchpad reduction per lane (07 R152). -/
  | reds (a x : Opd) (off : BitVec 6) (peg : Option (BitVec 3)) (op : AtomOp) (sc : Scope) (wd : Bool)
  /-- ATOMU: Uniform atomic (07 R152). -/
  | atomu (d : BitVec 9) (a : Opd) (br : BitVec 5) (x : Opd) (off : BitVec 6) (peg : Option (BitVec 3)) (op : AtomOp) (sc : Option Scope) (wd : Bool)
  /-- REDU: Uniform reduction (07 R152). -/
  | redu (a : Opd) (br : BitVec 5) (x : Opd) (off : BitVec 6) (peg : Option (BitVec 3)) (op : AtomOp) (sc : Option Scope) (wd : Bool)
  /-- FENCE: Board-path fence (07 R156). -/
  | fence (ord : Order) (sc : Scope)
  /-- FENCE_X: Cross-path fence (07 R157). -/
  | fenceX (pa pb : PathK) (ord : Order) (sc : Scope)
  /-- BRSET: Writes a buffer record (07 R141). -/
  | brset (br : BitVec 5) (x : BitVec 9)
  /-- BRGET: Reads a buffer record (07 R141). -/
  | brget (br : BitVec 5) (d : BitVec 9)
  /-- WATCH_ARM: Arms a watched range (12 R269, R270). -/
  | watchArm (d x : BitVec 9) (peg : Option (BitVec 3))
  /-- WATCH_DISARM: Disarms a watched range (12 R271). -/
  | watchDisarm (x : BitVec 9) (peg : Option (BitVec 3))
  /-- LDTR: Loads the trigger record (12 R272). -/
  | ldtr (d : BitVec 9) (peg : Option (BitVec 3))
  /-- CPA: Per-lane copy into scratchpad (08 R167). -/
  | cpa (f g : Opd) (br : BitVec 5) (w : CpaWidth) (peg : Option (BitVec 3))
  /-- CPB: Bulk copy (08 R169). -/
  | cpb (u : BitVec 9) (dims : BitVec 2) (fl : BitVec 5) (peg : Option (BitVec 3))
  /-- CPR: Reduce-copy (08 R173). -/
  | cpr (u : BitVec 9) (fmt : Fmt) (fl : BitVec 7) (peg : Option (BitVec 3))
  /-- MMA: Dense matrix step (08 R175). -/
  | mma (f : Opd) (u : BitVec 9) (t : BitVec 5) (peg : Option (BitVec 3))
  /-- MMAS: 2:4-sparse matrix step (08 R175). -/
  | mmas (f : Opd) (u : BitVec 9) (t : BitVec 5) (peg : Option (BitVec 3))
  /-- ACC_CLR: Clears a tile (08 R181). -/
  | accClr (t : BitVec 5) (peg : Option (BitVec 3))
  /-- ACC_LD: Loads a tile (08 R182). -/
  | accLd (u : BitVec 9) (t : BitVec 5) (peg : Option (BitVec 3))
  /-- ACC_ST: Stores a tile (08 R182). -/
  | accSt (u : BitVec 9) (t : BitVec 5) (peg : Option (BitVec 3))
  /-- ACC_RDV: Reads a tile row into a vector register (08 R181). -/
  | accRdv (g f : Opd) (t : BitVec 5) (peg : Option (BitVec 3))
  /-- ACC_WRV: Writes a tile row from a vector register (08 R181). -/
  | accWrv (f g : Opd) (t : BitVec 5) (peg : Option (BitVec 3))
  /-- SETMPC: Sets the metadata pointer (08 R183). -/
  | setmpc (u : BitVec 9)
  /-- CBT_LD: Loads a shape table (08 R184). -/
  | cbtLd (u : BitVec 9) (tblB : Bool) (peg : Option (BitVec 3))
  /-- ROUTE_COUNT: Counts the choices of each expert (11 R244). -/
  | routeCount (u : BitVec 9) (peg : Option (BitVec 3))
  /-- ROUTE_XCHG: Exchanges counts with every device (11 R245). -/
  | routeXchg (u : BitVec 9) (peg : Option (BitVec 3))
  /-- ROUTE_PLACE: Assigns slots to choices (11 R247). -/
  | routePlace (u : BitVec 9) (peg : Option (BitVec 3))
  /-- ROUTE_SCATTER: Moves rows to the experts (11 R250). -/
  | routeScatter (u : BitVec 9) (peg : Option (BitVec 3))
  /-- ROUTE_COMBINE: Sums the experts' rows (11 R252). -/
  | routeCombine (u : BitVec 9) (peg : Option (BitVec 3))
  /-- ROUTE_STAT: Reads one statistic (11 R253). -/
  | routeStat (g : BitVec 9) (u : BitVec 9) (sel : StatSel) (peg : Option (BitVec 3))
  /-- SADD: Uniform SADD, register form (09 R192). -/
  | sadd (d a b : BitVec 9)
  /-- SSUB: Uniform SSUB, register form (09 R192). -/
  | ssub (d a b : BitVec 9)
  /-- SMUL: Uniform SMUL, register form (09 R192). -/
  | smul (d a b : BitVec 9)
  /-- SMULH: Uniform SMULH, register form (09 R192). -/
  | smulh (d a b : BitVec 9)
  /-- SAND: Uniform SAND, register form (09 R192). -/
  | sand (d a b : BitVec 9)
  /-- SOR: Uniform SOR, register form (09 R192). -/
  | sor (d a b : BitVec 9)
  /-- SXOR: Uniform SXOR, register form (09 R192). -/
  | sxor (d a b : BitVec 9)
  /-- SSHL: Uniform SSHL, register form (09 R192). -/
  | sshl (d a b : BitVec 9)
  /-- SSHR: Uniform SSHR, register form (09 R192). -/
  | sshr (d a b : BitVec 9)
  /-- SSAR: Uniform SSAR, register form (09 R192). -/
  | ssar (d a b : BitVec 9)
  /-- SMIN: Uniform SMIN, register form (09 R192). -/
  | smin (d a b : BitVec 9)
  /-- SMAX: Uniform SMAX, register form (09 R192). -/
  | smax (d a b : BitVec 9)
  /-- SMINU: Uniform SMINU, register form (09 R192). -/
  | sminu (d a b : BitVec 9)
  /-- SMAXU: Uniform SMAXU, register form (09 R192). -/
  | smaxu (d a b : BitVec 9)
  /-- SSLT: Uniform SSLT, register form (09 R192). -/
  | sslt (d a b : BitVec 9)
  /-- SSLTU: Uniform SSLTU, register form (09 R192). -/
  | ssltu (d a b : BitVec 9)
  /-- SADD_IMM: Uniform SADD, immediate form (09 R192). -/
  | saddImm (d a : BitVec 9) (i : BitVec 7)
  /-- SSUB_IMM: Uniform SSUB, immediate form (09 R192). -/
  | ssubImm (d a : BitVec 9) (i : BitVec 7)
  /-- SMUL_IMM: Uniform SMUL, immediate form (09 R192). -/
  | smulImm (d a : BitVec 9) (i : BitVec 7)
  /-- SMULH_IMM: Uniform SMULH, immediate form (09 R192). -/
  | smulhImm (d a : BitVec 9) (i : BitVec 7)
  /-- SAND_IMM: Uniform SAND, immediate form (09 R192). -/
  | sandImm (d a : BitVec 9) (i : BitVec 7)
  /-- SOR_IMM: Uniform SOR, immediate form (09 R192). -/
  | sorImm (d a : BitVec 9) (i : BitVec 7)
  /-- SXOR_IMM: Uniform SXOR, immediate form (09 R192). -/
  | sxorImm (d a : BitVec 9) (i : BitVec 7)
  /-- SSHL_IMM: Uniform SSHL, immediate form (09 R192). -/
  | sshlImm (d a : BitVec 9) (i : BitVec 7)
  /-- SSHR_IMM: Uniform SSHR, immediate form (09 R192). -/
  | sshrImm (d a : BitVec 9) (i : BitVec 7)
  /-- SSAR_IMM: Uniform SSAR, immediate form (09 R192). -/
  | ssarImm (d a : BitVec 9) (i : BitVec 7)
  /-- SMIN_IMM: Uniform SMIN, immediate form (09 R192). -/
  | sminImm (d a : BitVec 9) (i : BitVec 7)
  /-- SMAX_IMM: Uniform SMAX, immediate form (09 R192). -/
  | smaxImm (d a : BitVec 9) (i : BitVec 7)
  /-- SMINU_IMM: Uniform SMINU, immediate form (09 R192). -/
  | sminuImm (d a : BitVec 9) (i : BitVec 7)
  /-- SMAXU_IMM: Uniform SMAXU, immediate form (09 R192). -/
  | smaxuImm (d a : BitVec 9) (i : BitVec 7)
  /-- SSLT_IMM: Uniform SSLT, immediate form (09 R192). -/
  | ssltImm (d a : BitVec 9) (i : BitVec 7)
  /-- SSLTU_IMM: Uniform SSLTU, immediate form (09 R192). -/
  | ssltuImm (d a : BitVec 9) (i : BitVec 7)
  /-- SMOVL: Writes a zero-extended constant (09 R193). -/
  | smovl (d : BitVec 9) (i : BitVec 16)
  /-- SMOVH: Writes the upper half (09 R193). -/
  | smovh (d : BitVec 9) (i : BitVec 16)
  /-- DADD: Adds two pairs (09 R194). -/
  | dadd (d a b : BitVec 8)
  /-- DSUB: Subtracts two pairs (09 R194). -/
  | dsub (d a b : BitVec 8)
  /-- DADDI: Adds an immediate to a pair (09 R194). -/
  | daddi (d a : BitVec 8) (i : BitVec 9)
  /-- BRA: Branch (09 R195). -/
  | bra (off : BitVec 25)
  /-- BRC_NZ: Branch when nonzero (09 R195). -/
  | brcNz (s : BitVec 9) (off : BitVec 16)
  /-- BRC_Z: Branch when zero (09 R195). -/
  | brcZ (s : BitVec 9) (off : BitVec 16)
  /-- BRX: Branch to a bundle index held in a pair (09 R195). -/
  | brx (a : BitVec 8)
  /-- CALL: Call (09 R197). -/
  | call (off : BitVec 25)
  /-- CALLI: Per-lane call (09 R198). -/
  | calli (f : Opd)
  /-- RET: Return (09 R199). -/
  | ret
  /-- DIV: Divergence (02 R30, 09 R196). -/
  | div (mk : BitVec 3) (ng : Bool) (toff : BitVec 10) (joff : BitVec 11)
  /-- JOIN: Arrival at a join (02 R31). -/
  | join
  /-- LOOP: Counted loop branch (09 R195). -/
  | loop (s : BitVec 9) (off : BitVec 16)
  /-- EXIT: Retires the lanes (02 R32). -/
  | exit
  /-- BAR_AW: Arrive and wait (09 R202). -/
  | barAw (k : GateKind) (g : BitVec 6) (a : BitVec 9)
  /-- BAR_ARR: Arrive (09 R202). -/
  | barArr (k : GateKind) (g : BitVec 6) (a : BitVec 9)
  /-- BAR_WAIT: Wait (09 R202). -/
  | barWait (k : GateKind) (g : BitVec 6) (a : BitVec 9)
  /-- BAR_INIT: Initialise a gate (09 R202). -/
  | barInit (k : GateKind) (g : BitVec 6) (a : BitVec 9)
  /-- LAUNCH: Submits a launch block (09 R203). -/
  | launch (a : BitVec 9) (peg : Option (BitVec 3))
  /-- LAUNCH_G: Submits a graph (09 R203). -/
  | launchG (a : BitVec 9) (peg : Option (BitVec 3))
  /-- TRIGGER: Marks the bent triggered (09 R204). -/
  | trigger
  /-- YIELD: States a run (09 R206). -/
  | yield (n : BitVec 25)
  /-- SETIX: Sets an index base (09 R207). -/
  | setix (x : BitVec 2) (v : BitVec 4)
  /-- GETSYS: Reads a system register (09 R208). -/
  | getsys (y : BitVec 12) (d : BitVec 9)
  /-- SETSYS: Writes a system register (09 R208). -/
  | setsys (y : BitVec 12) (d : BitVec 9)
  /-- TIME: Reads the time reference (09 R211). -/
  | time (d : BitVec 9)
  /-- TICK: Reads the board's tick count (09 R211). -/
  | tick (d : BitVec 9)
  /-- TRAP: Software trap (09 R212). -/
  | trap (code : BitVec 16)
  /-- ERET: Returns from a trap handler (09 R213). -/
  | eret
  /-- NOP: No operation (09 R214). -/
  | nop
  /-- BIND_BUNDLE: The bundle of a bind entry issues (14 R308). -/
  | bindBundle
  /-- SWITCH_POINT: The switch of a bundle with W set (16 R335). -/
  | switchPoint
  /-- FIXED_LATENCY_LANDING: Result k of a board lands (03 R48). -/
  | fixedLatencyLanding (board k : Nat)
  /-- ENGINE_COMMAND_ACCEPT: An engine accepts the command first in its order (01 R11). -/
  | engineCommandAccept (eng : EngineId)
  /-- MEMORY_LINE_RETURN: A line's data or acknowledgement returns (07 R143). -/
  | memoryLineReturn (ref : LineRef) (resp : LineResp)
  /-- COPY_COMMAND_COMPLETE: A copy command completes (08 R165). -/
  | copyCommandComplete (core cmd : Nat)
  /-- CPB_GATE_ARRIVAL: The arrival behind one destination's data (08 R172). -/
  | cpbGateArrival (core cmd dest : Nat)
  /-- MATRIX_COMMAND_COMPLETE: The command at the head of the matrix engine completes (08 R179). -/
  | matrixCommandComplete (core : Nat)
  /-- ROUTE_COMMAND_COMPLETE: A route command completes (11 R238). -/
  | routeCommandComplete (frame cmd : Nat)
  /-- XCHG_WAIT_END: The wait of an XCHG ends (11 R245). -/
  | xchgWaitEnd (frame cmd : Nat)
  /-- COMBINE_GATE_WAIT_END: The gate wait of a COMBINE ends (11 R252). -/
  | combineGateWaitEnd (frame cmd : Nat)
  /-- SCATTER_ARRIVAL: The arrival of a SCATTER at one device (11 R250). -/
  | scatterArrival (frame cmd dev : Nat)
  /-- OPERATION_FAIL: A variable-latency operation fails (21 R374). -/
  | operationFail (ref : OpRef) (cause : BitVec 8) (addr : BitVec 64)
  /-- HOME_WRITE_PERFORMED: A write or atomic is performed at its home (10 R225). -/
  | homeWritePerformed (board op line : Nat)
  /-- RECORD_ELIGIBLE: A pending record becomes eligible (12 R266). -/
  | recordEligible (frame entry : Nat)
  /-- HANDLER_START: An eligible record starts its handler (12 R266, R267). -/
  | handlerStart (frame entry : Nat) (place : Place)
  /-- WATCH_ARM_COMPLETE: A watch entry becomes active (12 R270). -/
  | watchArmComplete (board op : Nat)
  /-- REMOTE_GATE_ARRIVAL: An arrival is performed at a remote gate's home (15 R327). -/
  | remoteGateArrival (id : Nat)
  /-- GATE_WAKE: A wake reaches the frame of a waiting board, or of a waiting COMBINE by its number; after a `.init` PHASE is read again
  (15 R328, 25 R432). -/
  | gateWake (wake : Wake)
  /-- GATE_WAITER_POLL: A frame reads PHASE for an unregistered waiter (15 R328). -/
  | gateWaiterPoll (waiter : Nat)
  /-- RING_SLOT_ARRIVAL: A ring slot reaches its destination station, whose input buffer may be full (15 R313, R314, 26 R438). -/
  | ringSlotArrival (ring src dst : Nat) (slot : RingSlot) (full corrupt : Bool)
  /-- RING_SLOT_RESEND: A sender resends a returned slot (15 R313). -/
  | ringSlotResend (ring src dst : Nat) (slot : RingSlot)
  /-- QUEUE_SLOT_FILL: A free active slot takes a pending queue (13 R278). -/
  | queueSlotFill (slot : Nat)
  /-- QUEUE_BLOCK_ACCEPT: A mapped queue's next block is accepted (13 R279). -/
  | queueBlockAccept (queue : Nat)
  /-- LAUNCH_ACCEPT: The block of a LAUNCH is accepted (09 R203). -/
  | launchAccept (id : Nat)
  /-- GRAPH_INSTANCE_ACCEPT: A graph descriptor is accepted (13 R285). -/
  | graphInstanceAccept (id : Nat)
  /-- GRAPH_NODE_READY: A ready node's block is accepted (13 R286). -/
  | graphNodeReady (inst node : Nat)
  /-- DEPENDENCE_SATISFIED: A grid's last dependence is satisfied (13 R284). -/
  | dependenceSatisfied (grid : Nat)
  /-- DEPENDENCE_WATCH_TIMEOUT: No watch entry freed within 1 ms (25 R425). -/
  | dependenceWatchTimeout (id : Nat)
  /-- BENT_CREATE: The scheduler admits a bent, or a co-placed group (02 R24, R27). -/
  | bentCreate (grid : Nat) (places : List Place)
  /-- BOARD_RETIRE: A board retires (02 R36). -/
  | boardRetire (board : Nat)
  /-- SLICE_BOUNDARY: A slice boundary is reached (13 R287). -/
  | sliceBoundary (bay : Nat)
  /-- FORCED_PREEMPTION: A resident bent is forced out (13 R290). -/
  | forcedPreemption (bent : Nat)
  /-- BENT_SWITCH_OUT: A bent is saved (13 R291). -/
  | bentSwitchOut (bent : Nat)
  /-- BENT_RESTORE: A switched-out bent is restored (13 R291). -/
  | bentRestore (bent : Nat) (places : List Place)
  /-- THERMAL_MIGRATION: A bent moves to a cooler bay (16 R345). -/
  | thermalMigration (bent : Nat) (places : List Place)
  /-- MIGRATION_ABANDON: A migration is abandoned (25 R436). -/
  | migrationAbandon (bent : Nat)
  /-- GRANT_CHANGE: A bay's granted level changes (16 R333). -/
  | grantChange (bay : Nat)
  /-- CLOCK_SWITCH: A bay's clock switches up (16 R333). -/
  | clockSwitch (bay : Nat)
  /-- DROOP_STRETCH_END: The halved-issue window begins (16 R338). -/
  | droopStretchEnd (bay : Nat)
  /-- DROOP_WINDOW_END: The halved-issue window ends (16 R338). -/
  | droopWindowEnd (bay : Nat)
  /-- CAP_LEASE_EXPIRY: A cap lease expires (16 R346). -/
  | capLeaseExpiry
  /-- PACE_WINDOW_END: A pacing window ends (16 R348). -/
  | paceWindowEnd (group : Nat)
  /-- CORRECTION_FREEZE_END: The correction freeze ends (23 R414). -/
  | correctionFreezeEnd (core : Nat)
  /-- L1_STORAGE_TIMEOUT: A load waited too long for L1 storage (10 R222). -/
  | l1StorageTimeout (board op : Nat)
  /-- WINDOW: WINDOW trap (22 R397). -/
  | window (slot : TrapSlot) (code : BitVec 32) (addr : BitVec 64)
  /-- ILLEGAL: ILLEGAL trap (22 R385). -/
  | illegal (slot : TrapSlot) (code : BitVec 32) (addr : BitVec 64)
  /-- PRIV: PRIV trap (22 R396). -/
  | priv (slot : TrapSlot) (code : BitVec 32) (addr : BitVec 64)
  /-- BUDGET: BUDGET trap (22 R393). -/
  | budget (slot : TrapSlot) (code : BitVec 32) (addr : BitVec 64)
  /-- STACK: STACK trap (22 R394). -/
  | stack (slot : TrapSlot) (code : BitVec 32) (addr : BitVec 64)
  /-- MACHINE: MACHINE trap (23 R415). -/
  | machine (slot : TrapSlot) (store : BitVec 8) (lane : BitVec 8) (num : BitVec 16)
  /-- BROKEN: BROKEN trap of a board that is ready but for its pegs (21 R374). -/
  | broken (board : Nat)
  /-- RETIRE: RETIRE trap (21 R374). -/
  | retire (board : Nat)
  /-- OVERRUN: OVERRUN trap (25 R434). -/
  | overrun (board : Nat)
  /-- PAGING_SERVICE: Service cores serve absent pages (23 R413). -/
  | pagingService (board : Nat)
  /-- TLB_INVALIDATE_COMPLETE: The invalidation completes (14 R298). -/
  | tlbInvalidateComplete (fn : Nat)
  /-- LINK_LOSS_TIMEOUT: 10 ms after the loss (26 R455). -/
  | linkLossTimeout
  /-- CTX_CREATE: CTX.CREATE, with the CTXID the module picks (17 R355). -/
  | ctxCreate (fn : Nat) (ctxid : BitVec 16)
  /-- CTX_DESTROY: CTX.DESTROY (17 R352). -/
  | ctxDestroy (fn : Nat)
  /-- CAP_SET: CAP.SET (16 R346). -/
  | capSet (fn : Nat)
  /-- STEP_READ: STEP.READ (17 R355). -/
  | stepRead (fn : Nat)
  /-- CTX_MOVE: CTX.MOVE, with the target's features where it holds the target context (14 R311). -/
  | ctxMove (fn : Nat) (target : Option (BitVec 64))
  /-- MAILBOX_UNASSIGNED_CODE: MBGO with an unassigned CODE (17 R355). -/
  | mailboxUnassignedCode (fn : Nat)
  /-- POWER_ON: Bring-up runs, with the methods that fail and the frames that finish later (17 R359, R360). -/
  | powerOn (start : Start)
  /-- CORE_CLOCK_PERIOD: One core clock period of a bay (03 R42). -/
  | coreClockPeriod (bay : Nat)
  /-- BUNDLE_FETCH: The fetch of a slot's target completes (03 R43). -/
  | bundleFetch (board : Nat) (b : Bool)
  /-- SCRATCHPAD_WAVE: The last wave of a scratchpad access (10 R219). -/
  | scratchpadWave (board op : Nat)
  /-- BIND_PARK_POLL: A parked slot reads STATE again (25 R433). -/
  | bindParkPoll (board : Nat) (b : Bool)
  /-- BAY_RESTART: A bay restarts after a brownout (26 R449). -/
  | bayRestart (bay : Nat)
  /-- RING_LINK_FAIL: A link fails and its ring is retired (26 R439). -/
  | ringLinkFail (ring frame : Nat)
  /-- RING_SECOND_LINK_FAIL: A link of the surviving ring fails (26 R440). -/
  | ringSecondLinkFail (ring frame : Nat)
  /-- PEER_LOST: A peer module is lost (26 R445). -/
  | peerLost (mod : Nat)
  /-- MAIN_RAILS_OFF: The main power input is lost (17 R358). -/
  | mainRailsOff
  /-- PF_FUNCTION_LEVEL_RESET: Reset of the physical function (26 R454). -/
  | pfFunctionLevelReset
  /-- SURPRISE_LINK_LOSS: The host link goes down (26 R455). -/
  | surpriseLinkLoss
  /-- LINK_RETRAIN: The link is up again (26 R455). -/
  | linkRetrain
  /-- SIDEBAND_STATUS: STATUS (26 R456). -/
  | sidebandStatus
  /-- FUNC_RESET: FUNC.RESET (26 R456). -/
  | funcReset
  /-- MODULE_RESET: MODULE.RESET (26 R456). -/
  | moduleReset
  /-- CAPSEQ_CLEAR: CAPSEQ.CLEAR (26 R456). -/
  | capseqClear
  /-- FIRMWARE_UPDATE: A firmware update clears the step records (17 R361); it may bring other limits TMIG and TCAP, in 0.1 degree (16 R344). -/
  | firmwareUpdate
  /-- REMOTE_REQUEST: A request of a peer module arrives (15 R319). -/
  | remoteRequest (req : PeerReq)
  /-- UALINK_PLANE_DOWN: A plane is declared down (26 R441). -/
  | ualinkPlaneDown (plane : Nat)
  /-- PEER_ANSWERING_AGAIN: A lost peer answers again (26 R445). -/
  | peerAnsweringAgain (mod : Nat)
  /-- NOTIFY_WRITE: A notify register is written (13 R277). -/
  | notifyWrite (fn queue : Nat) (value : BitVec 32)
  /-- THERMAL_SAMPLE: A bay's temperature is read, in units of 0.1 degree (16 R344). -/
  | thermalSample (bay : Nat) (temp : Nat)
  /-- DROOP_ALARM: The rail reads mv and the detector compares it (16 R337). -/
  | droopAlarm (bay : Nat) (mv : Nat)
  /-- BROWNOUT: A bay's rail reads below 0.57 V (26 R449). -/
  | brownout (bay : Nat) (mv : Nat)
  /-- POWER_MEASUREMENT: Module power is measured (16 R347). -/
  | powerMeasurement (watts : Nat)
  /-- PACE_REPORT: A pace report arrives (16 R348). -/
  | paceReport (group mod window slack : Nat)
  /-- PTM_EXCHANGE: A time exchange succeeds (16 R339). -/
  | ptmExchange (master : Nat)
  /-- ECC_CORRECTION: A correctable error freezes the core (23 R414). -/
  | eccCorrection (core : Nat)
  /-- BIND_REQUEST_SERVICE: A service core serves a bind request (14 R309). -/
  | bindRequestService (frame idx : Nat) (res : BindResult)
  /-- FRESUME: A host write of FRESUME (21 R380). -/
  | fresume (fn window : Nat) (value : BitVec 64)
  /-- TLB_INVALIDATE: A write of TICTL (17 R356). -/
  | tlbInvalidate (fn : Nat) (value : BitVec 64)
  /-- QCFG_WRITE: A write of QCFG (26 R458). -/
  | qcfgWrite (fn queue : Nat) (value : BitVec 32)
  /-- FQCFG_WRITE: A write of FQCFG (26 R458). -/
  | fqcfgWrite (fn : Nat) (value : BitVec 32)
  /-- QOWN_WRITE: A write of QOWN (26 R458). -/
  | qownWrite (fn queue : Nat) (value : BitVec 8)
  /-- MODSET_WRITE: A write of MODSET (17 R357). -/
  | modsetWrite (fn : Nat) (value : BitVec 32)
  /-- EST_WRITE: A write of EST (16 R343). -/
  | estWrite (fn window : Nat) (value : BitVec 32)
  /-- DRPTH_READ: A read of DRPTH (16 R337). -/
  | drpthRead (fn bay : Nat)
  /-- FQLOST_READ: A read of FQLOST (21 R373). -/
  | fqlostRead (fn : Nat)
  /-- REGISTER_WRITE: A write of a register with no behaviour of its own (26 R458). -/
  | registerWrite (fn : Nat) (off : Nat) (op : HostOp)
  /-- FUNCTION_LEVEL_RESET: Reset of a virtual function (26 R453). -/
  | functionLevelReset (fn : Nat)
  /-- SIDEBAND_CAP: CAP (26 R450, R456). -/
  | sidebandCap (msg : BitVec 128)
  /-- SIDEBAND_STEP_READ: STEP.READ of the sideband (26 R456). -/
  | sidebandStepRead (idx : Nat)
  /-- LOG_READ: LOG.READ (26 R456). -/
  | logRead (idx : Nat)
  /-- FRAME_HUNG: A frame misses its heartbeats (26 R456). -/
  | frameHung (frame : Nat)
deriving DecidableEq, Repr

end Sys2Proof
end

