-- ==== Sys2Proof/Config.lean ====
section
/-!
DEFINITION. What the spec leaves open and one machine fixes: free values, which nothing in Lean can evaluate. The counter a free
value is applied to stands in the state (freeCtr) and each use advances it.
-/
namespace Sys2Proof.Config

/-- Which of several candidates the machine takes next: completion times and the order of independent agents are not stated
(07 R160, 08 R187, 11 R256, 02 R25). Argument: the counter, then how many candidates there are. -/
opaque choose : Nat → Nat → Nat

/-- A one-bit choice the spec leaves open, by the counter. -/
opaque chooseBit : Nat → Bool

/-- Result bits of FRCP, FRSQ, FEXP2, FLOG2, FSIN, FCOS and FTANH where 06 R122 states bounds only. Arguments: 0 to 7 in opcode
order from 0x18, and the operand. A given input gives the same bits everywhere (06 R122), so no counter enters. -/
opaque transcendental : Nat → BitVec 32 → BitVec 32

/-- Energy weights EWT of the dynamic energy model (16 R341), set by firmware. Arguments: bay, weight number. -/
opaque energyWeight : Nat → Nat → Nat

/-- Static power PSTAT of a bay (16 R342), set by firmware. Arguments: bay, level. -/
opaque staticPower : Nat → Nat → Nat

/-- Temperature limits TMIG and TCAP of a new firmware, in units of 0.1 degree (16 R344). Argument: the counter. -/
opaque thermalLimits : Nat → Nat × Nat

/-- Which bring-up methods fail at power-on (17 R359): the outcome belongs to the part. Argument: the counter. -/
opaque bringUp : Nat → List StepFail

/-- A free word, by the counter: a value the spec does not state. -/
opaque freeWord : Nat → BitVec 64

/-- A byte of a peer module that the module itself reads for a control block (10 R237): the peer's, which nothing here states.
Arguments: the counter, the module, the address. -/
opaque peerByte : Nat → Nat → Nat → Byte

/-- A choice of placement (02 R25): the device states no policy. Arguments: the counter, how many places. -/
opaque place : Nat → Nat → Nat

end Sys2Proof.Config
end

