-- ==== Sys2Proof/WellFormed.lean ====
section
/-!
DEFINITION. Which operands an instruction of the four slots may hold (05 R92 to R105, 06 R113, 07, 08, 09): what an encoding
can name without raising ILLEGAL on its own bits (22 R386 to R391). The steps of the device have no operand rules.
-/
namespace Sys2Proof

/-- What an operand field of the vector, memory or copy/matrix slot accepts (06 R113, 07 R147, R152, 08 R167). -/
inductive FUse
  /-- Not used: the field holds zero. -/
  | off
  /-- Vector destination: vector register or none. -/
  | vdst
  /-- Vector register only. -/
  | vreg
  /-- Source: vector register, uniform register, latch or immediate. -/
  | src
  /-- Vector or uniform register (wide store data and 64-bit atomic operands). -/
  | vs
  /-- Uniform-kind: uniform register, dc latch or immediate. -/
  | ukind
  /-- Uniform register or dc latch (STU data). -/
  | udc
  /-- Uniform register. -/
  | uni
  /-- Mask register. -/
  | mask
deriving DecidableEq, Repr

/-- The kinds a field accepts (06 R113). -/
def FUse.ok : FUse → Opd → Bool
  | .off, .nil => true
  | .vdst, .v _ _ => true
  | .vdst, .nil => true
  | .vreg, .v _ _ => true
  | .src, .v _ _ => true
  | .src, .s _ => true
  | .src, .dv _ => true
  | .src, .dc _ => true
  | .src, .imm _ => true
  | .vs, .v _ _ => true
  | .vs, .s _ => true
  | .ukind, .s _ => true
  | .ukind, .dc _ => true
  | .ukind, .imm _ => true
  | .udc, .s _ => true
  | .udc, .dc _ => true
  | .uni, .s _ => true
  | .mask, .m _ => true
  | _, _ => false

/-- The register number an operand names, 0 when it names none. -/
def Opd.num : Opd → Nat
  | .v _ n => n.toNat
  | .s n => n.toNat
  | _ => 0

/-- The register of the operand is a multiple of `k` (22 R388). -/
def Opd.aligned (o : Opd) (k : Nat) : Bool := o.num % k == 0

/-- Registers a memory-slot data operand of this width takes (05 R98). -/
def Width.regs : Width → Nat
  | .w64 => 2
  | .w128 => 4
  | _ => 1

/-- Bytes of an access of this width (05 R98). -/
def Width.bytes : Width → Nat
  | .w8 | .w8sx => 1
  | .w16 | .w16sx => 2
  | .w32 => 4
  | .w64 => 8
  | .w128 => 16

/-- Widths a store takes: the sign-extending codes are reserved for stores (07 R147). -/
def Width.store : Width → Bool
  | .w8sx | .w16sx => false
  | _ => true

/-- The data kinds of ST and STS by width (07 R147). -/
def Width.dataUse (w : Width) : FUse := if w.regs == 1 then .src else .vs

/-- The data kinds of STU by width (07 R147). -/
def Width.udataUse (w : Width) : FUse := if w.regs == 1 then .udc else .uni

/-- Formats of the packed instructions (06 R123). -/
def Fmt.packed : Fmt → Bool
  | .f16 | .bf16 => true
  | _ => false

/-- Target formats of NARROW and QSCALE (06 R129). -/
def Fmt.narrow : Fmt → Bool
  | .e4m3 | .e5m2 | .e2m1 => true
  | _ => false

/-- Pairs of CVT, target first (06 R128). -/
def Fmt.cvt : Fmt → Fmt → Bool
  | .f32, .e8m0 => true
  | _, .e8m0 => false
  | .e8m0, _ => false
  | .cb2, _ => false
  | _, .cb2 => false
  | _, _ => true

/-- Element formats of CPR (08 R173). -/
def Fmt.cpr : Fmt → Bool
  | .f32 | .f16 | .bf16 | .e4m3 | .e5m2 | .s32 => true
  | _ => false

/-- Conditions of ICMP (06 R125). -/
def Cond.int : Cond → Bool
  | .ord | .uno => false
  | _ => true

/-- Atomic operations that WD = 1 takes (07 R151). -/
def AtomOp.wide : AtomOp → Bool
  | .fadd | .fmax => false
  | _ => true

/-- Scopes of the scratchpad atomics (07 R152). -/
def Scope.scratch : Scope → Bool
  | .lane | .board | .bent => true
  | _ => false

/-- The operand rules of the global and scratchpad atomics (07 R152): width, and data register pairs under WD = 1. -/
def wfAtom (op : AtomOp) (wd : Bool) (a : Opd) (use : FUse) : Bool :=
  (!wd || op.wide) && (if wd then (if use == .ukind then FUse.uni else .vs).ok a && a.aligned 2 else use.ok a)

/-- The system registers (09 R209). -/
inductive SysReg
  | laneid | boardid | boards | bentid | gridext | gridid | ctxid | features | frameid | bayid | coreid | slotid | modid
  | dsp | dsbase | codebase | cbud | grant | variant | window | fstat | priv | edyn | estat
deriving DecidableEq, Repr

/-- The numbers of the system registers (09 R209). -/
def SysReg.ofNum (n : BitVec 12) : Option SysReg :=
  match n.toNat with
  | 0x000 => some .laneid
  | 0x001 => some .boardid
  | 0x002 => some .boards
  | 0x003 => some .bentid
  | 0x004 => some .gridext
  | 0x005 => some .gridid
  | 0x006 => some .ctxid
  | 0x007 => some .features
  | 0x008 => some .frameid
  | 0x009 => some .bayid
  | 0x00A => some .coreid
  | 0x00B => some .slotid
  | 0x00C => some .modid
  | 0x010 => some .dsp
  | 0x011 => some .dsbase
  | 0x012 => some .codebase
  | 0x013 => some .cbud
  | 0x018 => some .grant
  | 0x019 => some .variant
  | 0x020 => some .window
  | 0x021 => some .fstat
  | 0x022 => some .priv
  | 0x030 => some .edyn
  | 0x031 => some .estat
  | _ => none

/-- The registers read into a uniform pair (09 R209). -/
def SysReg.pair : SysReg → Bool
  | .bentid | .gridext | .features | .dsbase | .codebase | .edyn | .estat => true
  | _ => false

/-- The registers that SETSYS writes; every other one is RO (09 R209). -/
def SysReg.rw : SysReg → Bool
  | .window | .fstat => true
  | _ => false

/-- The register field of GETSYS and SETSYS: LANEID takes a vector register, a 64-bit register an even one (09 R208). -/
def SysReg.fieldOk (r : SysReg) (d : BitVec 9) : Bool :=
  if r == .laneid then d.toNat < 64 else !r.pair || d.toNat % 2 == 0

/-- Gate number and operand register of BAR (09 R201, 22 R391). `opd`: the form reads an operand. -/
def wfBar (k : GateKind) (g : BitVec 6) (a : BitVec 9) (opd : Bool) : Bool :=
  match k with
  | .bent => g.toNat < 16 && (opd || a == 0)
  | .bay => opd || a == 0
  | .remote => g == 0 && a.toNat % 2 == 0

/-- Operands that the encodings of an instruction of the slots take. -/
def Instr.wf : Instr → Bool
  | .mov d a | .fabs d a | .fneg d a | .fclass d a | .frcp d a | .frsq d a | .fexp2 d a | .flog2 d a | .fsin d a
  | .fcos d a | .ftanh d a | .not d a | .popc d a | .clz d a | .brev d a => FUse.vdst.ok d && FUse.src.ok a
  | .movi d _ => FUse.vdst.ok d
  | .sel d a b _ | .fmin d a b | .fmax d a b | .imul d a b | .and d a b | .or d a b | .xor d a b | .shl d a b
  | .shr d a b | .sar d a b | .shflIdx d a b | .shflUp d a b | .shflDown d a b | .shflXor d a b | .hash d a b =>
    FUse.vdst.ok d && FUse.src.ok a && FUse.src.ok b
  | .fadd d a b _ | .fsub d a b _ | .fmul d a b _ => FUse.vdst.ok d && FUse.src.ok a && FUse.src.ok b
  | .ffma d a b c _ => FUse.vdst.ok d && FUse.src.ok a && FUse.src.ok b && FUse.src.ok c
  | .fcmp _ a b _ => FUse.src.ok a && FUse.src.ok b
  | .fsqrt d a _ => FUse.vdst.ok d && FUse.src.ok a
  | .hadd2 d a b _ f | .hsub2 d a b _ f | .hmul2 d a b _ f =>
    FUse.vdst.ok d && FUse.src.ok a && FUse.src.ok b && f.packed
  | .hfma2 d a b c _ f => FUse.vdst.ok d && FUse.src.ok a && FUse.src.ok b && FUse.src.ok c && f.packed
  | .hmin2 d a b f | .hmax2 d a b f => FUse.vdst.ok d && FUse.src.ok a && FUse.src.ok b && f.packed
  | .iadd d a b sat uns | .isub d a b sat uns =>
    FUse.vdst.ok d && FUse.src.ok a && FUse.src.ok b && (sat || !uns)
  | .imad d a b c => FUse.vdst.ok d && FUse.src.ok a && FUse.src.ok b && FUse.src.ok c
  | .imulh d a b _ | .imin d a b _ | .imax d a b _ => FUse.vdst.ok d && FUse.src.ok a && FUse.src.ok b
  | .icmp _ a b c _ => FUse.src.ok a && FUse.src.ok b && c.int
  | .bfe d a b c _ | .bfi d a b c => FUse.vdst.ok d && FUse.src.ok a && FUse.src.ok b && FUse.src.ok c
  | .cvt d a _ _ t s => FUse.vdst.ok d && FUse.src.ok a && t.cvt s
  | .narrow d a _ _ _ f _ => FUse.vdst.ok d && FUse.src.ok a && f.narrow
  | .qscale _ a f => FUse.src.ok a && f.narrow
  | .bcast d a b | .rot d a b => FUse.vdst.ok d && FUse.src.ok a && FUse.ukind.ok b
  | .sort2 d a b _ _ => FUse.vdst.ok d && FUse.src.ok a && FUse.ukind.ok b
  | .scan d a _ _ | .reduce d a _ => FUse.vdst.ok d && FUse.src.ok a
  | .mlane _ a b => FUse.ukind.ok a && FUse.ukind.ok b
  | .mbal _ a => FUse.src.ok a
  | .ld d _ x _ p w _ => FUse.vreg.ok d && d.aligned w.regs && FUse.src.ok x && p.isSome
  | .st d _ x _ _ w _ => w.store && w.dataUse.ok d && d.aligned w.regs && FUse.src.ok x
  | .ldu d _ x _ p w _ => d.toNat % w.regs == 0 && FUse.ukind.ok x && p.isSome
  | .stu d _ x _ _ w _ => w.store && w.udataUse.ok d && d.aligned w.regs && FUse.ukind.ok x
  | .lds d x _ p w => FUse.vreg.ok d && d.aligned w.regs && FUse.src.ok x && p.isSome
  | .sts d x _ _ w => w.store && w.dataUse.ok d && d.aligned w.regs && FUse.src.ok x
  | .pref _ x _ _ => FUse.src.ok x
  | .atom d a _ x _ p op _ wd =>
    FUse.vreg.ok d && (!wd || d.aligned 2) && wfAtom op wd a .src && FUse.src.ok x && p.isSome
  | .red a _ x _ _ op _ wd => wfAtom op wd a .src && op != .cas && FUse.src.ok x
  | .atoms d a x _ p op sc wd =>
    FUse.vreg.ok d && (!wd || d.aligned 2) && wfAtom op wd a .src && FUse.src.ok x && p.isSome && sc.scratch
  | .reds a x _ _ op sc wd => wfAtom op wd a .src && op != .cas && FUse.src.ok x && sc.scratch
  | .atomu d a _ x _ p op _ wd =>
    (!wd || d.toNat % 2 == 0) && wfAtom op wd a .ukind && FUse.ukind.ok x && p.isSome
  | .redu a _ x _ _ op _ wd => wfAtom op wd a .ukind && op != .cas && FUse.ukind.ok x
  | .brset _ x => x.toNat % 4 == 0
  | .brget _ d => d.toNat % 4 == 0
  | .watchArm _ x p => x.toNat % 2 == 0 && p.isSome
  | .ldtr d p => d.toNat % 8 == 0 && p.isSome
  | .cpa f g _ _ _ => FUse.src.ok f && FUse.src.ok g
  | .cpb u n fl _ => u.toNat % 2 == 0 && n != 0 && !(fl.getLsbD 3 && fl.getLsbD 1)
  | .cpr u f _ _ => u.toNat % 2 == 0 && f.cpr
  | .mma f u _ _ | .mmas f u _ _ => FUse.vreg.ok f && u.toNat % 2 == 0
  | .accLd u _ _ | .accSt u _ _ => u.toNat % 2 == 0
  | .accRdv g f _ p => FUse.vreg.ok g && FUse.ukind.ok f && p.isSome
  | .accWrv f g _ _ => FUse.src.ok f && FUse.ukind.ok g
  | .setmpc u | .cbtLd u _ _ | .routeCount u _ | .routeXchg u _ | .routePlace u _ | .routeScatter u _
  | .routeCombine u _ => u.toNat % 2 == 0
  | .routeStat _ u _ p => u.toNat % 2 == 0 && p.isSome
  | .calli f => FUse.vreg.ok f
  | .barAw k g a | .barArr k g a => wfBar k g a false
  | .barWait k g a | .barInit k g a => wfBar k g a true
  | .launch a _ | .launchG a _ => a.toNat % 2 == 0
  | .getsys y d => (SysReg.ofNum y).any (·.fieldOk d)
  | .setsys y d => (SysReg.ofNum y).any (fun r => r.rw && r.fieldOk d)
  | .time d | .tick d => d.toNat % 2 == 0
  | _ => true

end Sys2Proof
end

