-- ==== Sys2Proof/Machine/State.lean ====
section
/-!
DEFINITION. The state of the module as plain data: boards with their pipelines, bents, grids, contexts, functions and queues, cores,
bays, frames, memory and the module's own registers. INVENTORY.md lists each field with its rule.
-/
namespace Sys2Proof.Machine

/-- Memory: (address, byte) pairs, addresses strictly rising, no entry equal to what an unlisted address reads as. -/
abbrev Mem := List Host.Cell

/-- One word for each of the 128 lanes (01 R12). -/
abbrev Lanes := List Word

/-! ### Boards -/

/-- A buffer record with the verdict BRSET gave it (07 R138, R141). -/
structure BufRec where
  img : BitVec 128 := 0
  wf : Bool := true
deriving DecidableEq, Repr

/-- A peg: count 0 to 63 and the broken bit (01 R12, 03 R62). -/
structure Peg where
  cnt : Nat := 0
  broken : Bool := false
deriving DecidableEq, Repr

/-- A path: next bundle and lanes (02 R29). -/
structure Path where
  pc : BitVec 48
  mask : Mask
deriving DecidableEq, Repr

/-- A location of a PC slot's window map (03 R54, 21 R376). -/
inductive SLoc
  | s (n : Nat)
  | m (n : Nat)
  | b (n : Nat)
  | mpc
  /-- dc1 (0) or dc2 (1) of the slot. -/
  | dc (k : Nat)
deriving DecidableEq, Repr

/-- An open window of a slot location: encoded ticks to the landing (21 R376). -/
structure SlotWin where
  loc : SLoc
  rem : Nat
  /-- Opened by the bundle in issue: not yet seen by a read. -/
  fresh : Bool := false
deriving DecidableEq, Repr

/-- A location of the lanes' window map: a vector register or dv1 to dv4 (21 R376). -/
inductive VLoc
  | v (n : Nat)
  | dv (k : Nat)
deriving DecidableEq, Repr

/-- An open window of a lane location. -/
structure LaneWin where
  loc : VLoc
  lanes : Mask
  rem : Nat
  fresh : Bool := false
deriving DecidableEq, Repr

/-- A slot parked on a bind entry (14 R308): its address, and its local physical address when an internal watch keeps it; without one it
reads STATE again from time to time (25 R433). -/
structure BindPark where
  entry : BitVec 64
  watch : Option Nat := none
  /-- TIME at which STATE was last read. -/
  since : Nat := 0
  /-- The entry lies at a peer, which has been asked for it and has not answered (15 R319). -/
  asked : Bool := false
deriving DecidableEq, Repr

/-- A PC slot: its path and what R54 and R55 keep for it (02 R29, 03 R54, R55). -/
structure PcSlot where
  path : Option Path := none
  clk : Word := 0
  wins : List SlotWin := []
  /-- Uniform registers that the path's own variable-latency operations have made pending (03 R50, R54). -/
  mine : List Nat := []
  dc1 : Word := 0
  dc2 : Word := 0
  /-- Parked on a bind entry (14 R308). -/
  park : Option BindPark := none
  /-- The target of a taken branch is not yet fetched (03 R43). -/
  fetching : Bool := false
  /-- Bundles left of the first two of a path that has a sibling and was formed while a SETIX was pending (22 R398). -/
  ixTrap : Nat := 0
deriving DecidableEq, Repr

/-- An entry of the divergence stack (02 R33). KIND 1 is PATH, 2 is JOIN; a byte read back from memory may hold anything. -/
structure StackEntry where
  mask : Mask
  arrived : Mask
  pc : BitVec 48
  kind : BitVec 8
  /-- Pushed by the instruction that opened a span of siblings (22 R398). -/
  span : Bool := false
  /-- Largest encoded clock of the paths that have arrived, and the union of their window records, each with the encoded tick of
  its landing (03 R54). -/
  clk : Word := 0
  recs : List (SLoc × Nat) := []
  /-- Uniform registers that they have made pending. -/
  mine : List Nat := []
deriving DecidableEq, Repr

/-- A pending SETIX: it applies at the start of the `left`-th bundle from now (03 R59). -/
structure PendIx where
  left : Nat
  ix : BitVec 2
  val : BitVec 4
deriving DecidableEq, Repr

/-- Where a fixed-latency result lands (03 R48, 21 R376). -/
inductive Dest
  /-- A latch only, or nothing. -/
  | none
  | v (n : Nat)
  | m (n : Nat)
  | s (n : Nat)
  | pair (n : Nat)
  | b (n : Nat)
  /-- The four registers of a BRGET image. -/
  | quad (n : Nat)
  | mpc
  /-- A system register of the context: WINDOW (false) or FSTAT (true) (09 R208). -/
  | sys (fstat : Bool)
deriving DecidableEq, Repr

/-- A fixed-latency result in flight (21 R376). -/
structure PipeEntry where
  dest : Dest
  slotB : Bool
  lanes : Mask
  /-- Ticks to the landing. -/
  rem : Nat
  /-- Value for each lane, for vector results. -/
  vals : Lanes := []
  /-- Value of the other kinds; the scale word of NARROW. -/
  sval : BitVec 128 := 0
  /-- Scale destination of NARROW. -/
  dest2 : Option Nat := none
  /-- Lanes and the dv entry (1 for dv1; 0 while its bundle issues) the result stands at in them. -/
  dv : List (Mask × Nat) := []
  /-- Slot (true for B) and dc entry (1 for dc1; 0 while its bundle issues) the result stands at. -/
  dc : List (Bool × Nat) := []
  /-- FSTAT flags of the result (22 R401, R402). -/
  flags : BitVec 32 := 0
  /-- A result of the control slot (21 R376, KIND 4). -/
  ctl : Bool := false
  /-- Ticks by which the register lands after the latch entry (03 R52); 0 once the entry has landed. -/
  late : Nat := 0
  /-- The latch entry has landed before the register. -/
  latched : Bool := false
  /-- It has an uncorrectable error, in this lane: the locations it lands in are in error (23 R415). -/
  bad : Option (BitVec 8) := Option.none
deriving DecidableEq, Repr

/-- A location of R50: pending until a wait on its peg. -/
inductive PLoc
  | v (n : Nat)
  | s (n : Nat)
deriving DecidableEq, Repr

/-- A pending destination of a variable-latency operation (03 R50). -/
structure Pend where
  loc : PLoc
  lanes : Mask
  peg : Nat
  fresh : Bool := false
deriving DecidableEq, Repr

/-- An address window: local memory, a peer module, or the host (10 R224, 15 R317, R318). -/
inductive Target
  | loc (pa : Nat)
  | peer (mod : Nat) (addr : Nat)
  | host (addr : Nat)
deriving DecidableEq, Repr

/-- One lane of a memory access: lane number, address, data words, compare words (07 R142, R151). -/
structure LaneAcc where
  lane : Nat
  va : Nat
  data : List Word := []
  cmp : List Word := []
deriving DecidableEq, Repr

/-- How far a line of an operation has come (07 R143, 21 R374). -/
inductive LineSt
  /-- Not yet performed or returned. -/
  | idle
  /-- Sent to a peer, as this request (15 R319). -/
  | sent (id : Nat)
  /-- A write or atomic has been performed at the home; the acknowledgement is on its way. -/
  | performed
  /-- Returned. -/
  | done
  /-- Failed with a cause (23 R404). -/
  | failed (cause : BitVec 8)
deriving DecidableEq, Repr

/-- A 128-byte line of an operation (07 R143). -/
structure Line where
  va : Nat
  tgt : Target
  st : LineSt := .idle
  /-- Old values an atomic has read, in the order of its lanes. -/
  old : List (Nat × List Word) := []
  /-- The target has faulted its request: what is sent next is the replay of a faulted request (23 R407, R412). -/
  again : Bool := false
  /-- Bytes of the line, by offset, that the board has stored or loaded at a wider scope since the request was sent (10 R221, R222). -/
  newer : List (Nat × Byte) := []
  /-- The cause with which its translation failed (07 R143, 23 R406). -/
  bad : Option (BitVec 8) := none
  /-- To be requested again: it holds no entry of its core's outstanding requests until it goes out (01 R9, 23 R407). -/
  queued : Bool := false
  /-- The board has read the line at its home since the request was sent: of what it brings, only the bytes asked for are kept (10 R229). -/
  part : Bool := false
deriving DecidableEq, Repr

/-- An arrival counted at a gate whose release is still to be performed: the board, the operations that the release covers, and whether the
phase it was counted in has ended (09 R202, 10 R228). -/
structure Unreleased where
  board : Nat
  after : List Nat
  ended : Bool := false
deriving DecidableEq, Repr

/-- What a memory-path operation does. -/
inductive MemKind
  /-- A load; `sx` sign-extends. -/
  | load (bytes : Nat) (sx : Bool)
  | store (bytes : Nat)
  /-- An atomic; `ret`: it returns the old values. -/
  | atomic (op : AtomOp) (wd : Bool) (ret : Bool)
  | fence (pa pb : PathK) (ord : Order)
  | arm (x : BitVec 64)
  | disarm (id : Word)
  | ldtr
deriving DecidableEq, Repr

/-- The space of a memory-path operation (10 R217). -/
inductive Space | glob | scr
deriving DecidableEq, Repr

/-- Where a memory-path operation writes what comes back: the first of a group of registers. -/
inductive FillDest
  | none
  | v (n : Nat)
  | s (n : Nat)
deriving DecidableEq, Repr

/-- An operation of the board's memory path, in issue order (07 R142 to R160, 21 R374). -/
structure MemOp where
  id : Nat
  insn : DWord
  kind : MemKind
  space : Space
  scope : Scope
  relaxed : Bool := false
  peg : Option (BitVec 3)
  dest : FillDest := .none
  lanes : List LaneAcc := []
  lines : List Line := []
  /-- Acquires the board had issued when this operation issued (10 R221). -/
  epoch : Nat := 0
  /-- The operation failed: cause and address (21 R374). -/
  fail : Option (BitVec 8 × BitVec 64) := Option.none
  /-- The failure is in the parked list. -/
  parked : Bool := false
  /-- Its peg is broken by a stop behind a failure (21 R374). -/
  stopped : Bool := false
  /-- Lanes out of bounds under CLAMP whose zeros are still to be written (07 R142, R155). -/
  zero : Mask := 0
  /-- It has failed or stood stopped behind a failure: among such operations it proceeds in issue order (21 R379, 23 R407). -/
  inTurn : Bool := false
  /-- TICK of the board at issue (10 R222). -/
  t0 : Nat := 0
  /-- Of the acquire at the end of a gate wait: the releases of other boards that it has synchronised with and that are still to be performed, behind
  which the board's accesses wait (10 R230). -/
  foreign : List Unreleased := []
  /-- Of a release whose scope holds no other board: it orders nothing, and nothing enters its scope while it stands (10 R230). -/
  lax : Bool := false
deriving DecidableEq, Repr

/-- A parked operation of the board (21 R377). DEDUCED: log 82. -/
structure Parked where
  /-- The operation's number in the model, which follows the board's issue order. -/
  id : Nat
  path : Nat
  peg : Option (BitVec 3)
  cause : BitVec 8
  /-- Identifier in its unit: the board's parked operations of one path are numbered from 1 as they fail. -/
  pid : Nat := 0
  insn : DWord
  addr : BitVec 64
  prog : Nat
  /-- Lines whose outcome is indeterminate (26 R442). -/
  nind : Nat := 0
deriving DecidableEq, Repr

/-- A stated run (09 R206): N and TICK at the yield bundle. One that has been overrun counts no more, and its N stays that of the board's last
YIELD (25 R434). `fallen`: the overrun fell in the tick of a trap, and comes in the board's first tick back. -/
structure Run where
  n : Nat
  start : Nat
  spent : Bool := false
  fallen : Bool := false
deriving DecidableEq, Repr

/-- A wait at a gate (02 R34, 21 R375 word 12): for a remote gate, its address. -/
structure GateWait where
  kind : GateKind
  num : Nat
  addr : Nat := 0
  phase : Bool
deriving DecidableEq, Repr

/-- Where an operation on a remote gate stands (15 R327 to R329). -/
inductive RStage
  /-- The arrival, the initialisation or the first read of PHASE is still to be performed. -/
  | start
  /-- Waiting for the phase to end; `registered` in the home frame's list of gate waiters. -/
  | wait (registered : Bool)
deriving DecidableEq, Repr

/-- An operation of the board on a remote gate, in progress: operation 0 `.aw`, 1 `.arr`, 2 `.wait`, 3 `.init` (09 R201). -/
structure RGate where
  id : Nat
  insn : DWord
  va : DWord
  opr : Nat
  val : Word := 0
  stage : RStage := .start
  /-- The phase waited on. -/
  phase : Bool := false
  /-- Memory-path operations that the release of 09 R202 covers. -/
  after : List Nat := []
  /-- Its request to a peer. -/
  req : Option Nat := none
  /-- A wake has come before the answer that registers it: whether PHASE is to be read again (15 R328). -/
  woken : Option Bool := none
  /-- TIME at which PHASE was last read (15 R328). -/
  polled : Nat := 0
  /-- Its arrival or initialisation has been performed, or its outcome is indeterminate: it is made no more (26 R442). -/
  made : Bool := false
  /-- What is sent next is the replay of a faulted request (23 R412). -/
  again : Bool := false
  /-- It has failed and is parked (26 R446). -/
  parked : Bool := false
deriving DecidableEq, Repr

/-- What follows a release of the board once the writes that the release covers have been performed. -/
inductive OwedAct
  /-- The bent's mark (09 R204). -/
  | trigger
  /-- The restore of the board that an ERET serves (09 R213, 21 R379). -/
  | restore
deriving DecidableEq, Repr

/-- An effect that waits for memory-path operations of its board (09 R204, R213, 10 R228). -/
structure Owed where
  act : OwedAct
  after : List Nat
deriving DecidableEq, Repr

/-- A freeze of the board (21 R375): class, code, what the fault queue entry and the record name, and who may restore it. -/
structure Freeze where
  cls : BitVec 8
  slot : BitVec 8
  slotB : Bool
  code : BitVec 32
  frid : Word
  tpc : BitVec 48
  addr : BitVec 64
  time : BitVec 64
  tick : BitVec 64
  /-- Not delivered: the service cores have it first (23 R413). -/
  held : Bool := false
  /-- Not delivered: the handler's block is being read from a peer (21 R372). -/
  due : Bool := false
deriving DecidableEq, Repr

/-- A location of the board's own state with an uncorrectable error (23 R415). -/
structure BadLoc where
  store : BitVec 8
  lane : BitVec 8
  num : BitVec 16
deriving DecidableEq, Repr

/-- What a board has for life from its grid and bent (02 R23, R28, 14 R304). -/
structure Env where
  ctx : BitVec 16 := 0
  grid : Nat := 0
  bent : Nat := 0
  index : Nat := 0
  boards : Nat := 1
  bentIdx : BitVec 40 := 0
  extent : BitVec 40 := 1
  gridid : Word := 0
  /-- Register, uniform, callee, tile and scratchpad budgets (14 R304, 13 R280). -/
  vbud : Nat := 64
  sbud : Nat := 512
  cbud : Nat := 0
  acc : Nat := 0
  scr : Nat := 0
  /-- Code object (14 R304). -/
  codebase : BitVec 48 := 0
  nbun : Nat := 0
  place : Nat := 0
  split : Bool := false
deriving DecidableEq, Repr

/-- A board (01 R12, 02 R21, R28). -/
structure Board where
  id : Nat
  env : Env := {}
  core : Nat := 0
  slot : Nat := 0
  v : List Lanes := []
  s : List Word := []
  m : List Mask := []
  b : List BufRec := []
  pegs : List Peg := []
  ix : List (BitVec 4) := []
  pendIx : List PendIx := []
  dv : List Lanes := []
  mpc : DWord := 0
  tick : BitVec 64 := 0
  slotA : PcSlot := {}
  slotB : PcSlot := {}
  /-- The divergence stack, top first (02 R33). -/
  stack : List StackEntry := []
  /-- Entries from the bottom that the board does not hold: a pop reads them from the area (22 R394). -/
  spilled : Nat := 0
  /-- The bytes of its stack area that are not zero, while it is on its way to another slot (02 R33). -/
  areaBytes : List (Nat × Byte) := []
  lanesLeft : Mask := 0
  gapRem : Nat := 0
  /-- The slot next in turn is B (02 R40). -/
  turnB : Bool := false
  /-- The end, in wall time, of the period in which the board last issued, counting its creation; the wall time of its creation; and ticks it has been
  ready (13 R293). -/
  lastIssue : Nat := 0
  born : Nat := 0
  readyTicks : Nat := 0
  laneClk : List Word := []
  vwins : List LaneWin := []
  pending : List Pend := []
  pipe : List PipeEntry := []
  path : List MemOp := []
  /-- The memory path stands stopped behind a failure (21 R374). -/
  stopped : Bool := false
  epoch : Nat := 0
  /-- Acquires by which its own path has come to see what engines have written: ends of gate waits, and FENCE.X to the board path (10 R228, R230). -/
  copyAcqs : Nat := 0
  /-- Commands and launches issued and not completed (08 R164). -/
  cmdsOut : Nat := 0
  parked : List Parked := []
  povf : Bool := false
  noPeg : Bool := false
  variant : BitVec 2 := 0
  priv : Bool := false
  run : Option Run := none
  /-- Parked at a yield bundle (13 R289). -/
  parkedY : Bool := false
  gateWait : Option GateWait := none
  rgates : List RGate := []
  /-- Effects that wait for the writes of their releases, oldest first. -/
  owed : List Owed := []
  /-- Its lanes have ended and what it had outstanding has drained by this tick: its turn to retire comes (02 R35, R36). -/
  leaves : Bool := false
  /-- Gates of the bent and group at which the board has arrived in the current phase (02 R35). -/
  arrived : List (GateKind × Nat) := []
  frozen : Option Freeze := none
  bad : List BadLoc := []
  /-- Memory-path operations that engine commands must follow, by covered path (07 R157, 10 R237). -/
  covers : List (PathK × List Nat) := []
  /-- Reads among them that must have returned. -/
  coverReads : List (PathK × List Nat) := []
  /-- The bundle being presented to an engine and refused (01 R11). -/
  presenting : Bool := false
deriving DecidableEq, Repr

/-! ### Bents, grids, graphs -/

/-- A gate held in the device (02 R34). A bay gate has no target until its first init (09 R202). -/
structure Gate where
  phase : Bool := false
  count : Nat := 0
  target : Option Nat := none
  /-- Arrivals whose releases are still to be performed. -/
  late : List Unreleased := []
deriving DecidableEq, Repr

/-- A trigger record (12 R264). -/
structure TrigRec where
  words : List Word
deriving DecidableEq, Repr

/-- A byte of the scratchpad that a copy of a board has written, which the board's matrix commands may read as it was before, until fences of the board
show it to them (07 R157, 08 R186). `epoch`: acquires of what engines write that the board had made by then. -/
structure Unseen where
  board : Nat
  epoch : Nat
  addr : Nat
  old : Byte
deriving DecidableEq, Repr

/-- A bent (02 R21, R24, R36). -/
structure Bent where
  uid : Nat
  grid : Nat
  idx : BitVec 40
  cores : List Nat
  /-- Board slot of each board, by index; held until the bent retires (02 R24). -/
  slots : List Nat := []
  /-- Physical bases of its scratchpad allocation, one for each core (10 R218). -/
  bases : List Nat := []
  boards : List Nat
  /-- Boards of the bent that have retired, by index. -/
  retired : List Nat := []
  group : Nat := 0
  /-- Switched out: not resident (13 R291). -/
  away : Bool := false
  /-- Where the image of a switched-out bent stands: pieces of memory, and its bytes that were not zero when it was written (13 R291, R292). -/
  image : List (Nat × Nat) := []
  saved : List (Nat × Byte) := []
  triggered : Bool := false
  /-- Scratchpad allocation, 0 to S - 1 (10 R217). -/
  scratch : Mem := []
  /-- Accumulator tiles: byte t*65536 + i*512 + j*4 (01 R9). -/
  tiles : Mem := []
  /-- Words of the scratchpad and of the tiles, by number of 4 bytes, with an uncorrectable error (23 R414, R415). -/
  badScr : List Nat := []
  badTiles : List Nat := []
  /-- Bytes that the matrix engine still reads as they were. -/
  unseen : List Unseen := []
  /-- A stack area that was saved had an uncorrectable error (25 R436). -/
  spoilt : Bool := false
  gates : List Gate := []
  record : Option TrigRec := none
  /-- TIME since which the bent has been resident (13 R290). -/
  since : Nat := 0
  /-- Forced out: its boards are frozen until it has been switched out (13 R290). -/
  forced : Bool := false
  /-- It has left while its grid's own next bent waited in its bay (25 R435). -/
  madeWay : Bool := false
  /-- Where a migration under way takes it (16 R345). -/
  moving : Option Place := none
  /-- No migration is tried before this TIME (25 R436). -/
  noMove : Nat := 0
  /-- The ms of TIME of the last entry for an abandoned migration. -/
  lastAbandon : Option Nat := none
deriving DecidableEq, Repr

/-- Who asked for a grid (13 R279, R286, 09 R203, 12 R266, 21 R372). -/
inductive Origin
  | queue (fn q : Nat)
  | board (id : Nat)
  | node (inst idx : Nat)
  | watch (frame entry depth : Nat)
  | trap (board : Nat) (frid : Word)
deriving DecidableEq, Repr

/-- The fields of a launch block (13 R280). -/
structure Block where
  code : BitVec 48 := 0
  kidx : Nat := 0
  extent : Nat := 0
  boards : Nat := 1
  bud : Nat := 0
  acc : Nat := 0
  rank : Nat := 0
  fuse : Bool := false
  place : Nat := 0
  sbud : Nat := 0
  scr : Nat := 0
  cbud : Nat := 0
  ndep : Nat := 0
  param : DWord := 0
  comp : DWord := 0
  /-- COMP was given relative to an instance area (13 R286). -/
  compRel : Bool := false
  deps : List DWord := []
deriving DecidableEq, Repr

/-- A dependence of a grid (13 R282 to R284): counter address and the value waited for, or a grid; met or not. -/
structure Dep where
  addr : Nat
  value : DWord
  met : Bool := false
deriving DecidableEq, Repr

/-- A grid (13 R280 to R286). -/
structure Grid where
  uid : Nat
  gridid : Word
  ctx : BitVec 16
  block : Block
  /-- Code object: CODEBASE, NBUN, kernel table and the entry bundle of the kernel (14 R304). -/
  codebase : BitVec 48 := 0
  nbun : Nat := 0
  ktab : Nat := 0
  nkern : Nat := 0
  entry : BitVec 48 := 0
  rank : Nat := 0
  deps : List Dep := []
  origin : Origin
  /-- Position in the order of becoming runnable (13 R288). -/
  order : Nat := 0
  runnable : Bool := false
  nextBent : Nat := 0
  retired : Nat := 0
  triggered : Nat := 0
  released : Bool := false
  aborted : Bool := false
  /-- Its context has moved, and its bents at the target have all triggered; and all retired (14 R311). -/
  farRel : Bool := false
  far : Bool := false
deriving DecidableEq, Repr

/-- A node of a live graph instance (13 R286). -/
structure Node where
  deps : List Dep
  grid : Option Nat := none
  read : Bool := false
  released : Bool := false
  retired : Bool := false
deriving DecidableEq, Repr

/-- A live graph instance (13 R285, R286, 25 R426). -/
structure GraphInst where
  id : Nat
  ctx : BitVec 16
  desc : Nat
  nodesAt : Nat
  area : Nat
  gcomp : Nat
  rank : Nat
  origin : Origin
  nodes : List Node
  relDone : Bool := false
  aborted : Bool := false
deriving DecidableEq, Repr

/-- A LAUNCH or LAUNCH.G in acceptance (09 R203), or a queue's block waiting for watch entries (25 R425). -/
structure LaunchReq where
  id : Nat
  board : Nat
  addr : Nat
  graph : Bool
  peg : Option (BitVec 3)
  insn : DWord
  cap : Nat
  ctx : BitVec 16
  failed : Bool := false
  /-- TIME at which a dependence first found no watch entry. -/
  waiting : Option Nat := none
  /-- Memory-path operations of the board that the release of 09 R203 covers. -/
  after : List Nat := []
  /-- The queue whose block this is, for a graph reference or a block that waits (13 R279, 25 R425). -/
  queue : Option Nat := none
  /-- The block or descriptor as it was read, while it waits. -/
  bytes : List Byte := []
  /-- Of a graph: the dependence array as it was read, and the instance area that has been taken and zeroed (13 R285). -/
  arr : List Byte := []
  area : Option Nat := none
  /-- The queue has been enabled anew since: its QHEAD, zeroed then, does not pass this entry (26 R458). -/
  stale : Bool := false
  /-- Home frames of the watch entries that it has taken while it waits for others (25 R425). -/
  taken : List Nat := []
deriving DecidableEq, Repr

/-! ### Engines -/

/-- A pinned page of a page-lock table (14 R299). -/
structure Pin where
  ctx : BitVec 16
  base : Nat
  size : Nat
  count : Nat
deriving DecidableEq, Repr

/-- A page of a command as it was translated at acceptance (14 R297): base, size, and where it lies. -/
structure PageAt where
  base : Nat
  size : Nat
  tgt : Target
deriving DecidableEq, Repr

/-- How far a command's reading of its list or table has come (10 R237). -/
inductive Reading
  /-- Not yet begun. -/
  | no
  /-- Asked of peers: a list, or the header of a table. -/
  | asked
  /-- The rest of a table asked of peers. -/
  | rest
  /-- A table read and judged: arrays and pins come next. -/
  | read
  | done
deriving DecidableEq, Repr

/-- A command of a copy, matrix or routing engine with the operands it read at issue (08 R162, 11 R239). -/
structure Cmd where
  id : Nat
  board : Nat
  core : Nat
  ctx : BitVec 16
  bent : Nat
  instr : Instr
  peg : Option (BitVec 3)
  /-- Registers of the operand group. -/
  grp : List Word := []
  /-- Values of the F and G operand fields. -/
  fv : Lanes := []
  gv : Lanes := []
  mask : Mask := 0
  dest : FillDest := .none
  mpc : DWord := 0
  brec : BufRec := {}
  depth : Nat := 0
  /-- Memory-path operations that must be performed before the command reads memory (07 R157, 10 R237). -/
  after : List Nat := []
  /-- Those that must have returned first. -/
  afterReads : List Nat := []
  /-- The commands of this board that the command follows (11 R238). -/
  started : Bool := false
  /-- Periods the engine still spends on it (08 R187). -/
  busy : Nat := 0
  /-- Progress: RP of a matrix step, lines or rows performed of the others (21 R377). -/
  prog : Nat := 0
  /-- Pages pinned: frame, base. -/
  pins : List (Nat × Nat) := []
  /-- Destination list and table read at acceptance or issue (08 R170, 11 R240), and how far that has come. -/
  tab : List Byte := []
  listed : Reading := .no
  /-- Its pages as they were translated at acceptance. -/
  pages : List PageAt := []
  /-- Choices or inverse permutation words that a route command has read, once (11 R244), and what COUNT and PLACE will write. -/
  words : List Nat := []
  data : List (Nat × Byte) := []
  /-- A wake has come for the COMBINE that waits at a peer's gate (15 R328): whether PHASE is to be read again. -/
  woken : Option Bool := none
  /-- TIME at which it last read PHASE (15 R328). -/
  polled : Nat := 0
  /-- Bytes peers and the host have returned, keyed by target and address. -/
  got : Mem := []
  /-- Lines already performed, and arrivals already made. -/
  sent : List Nat := []
  arrivals : List Nat := []
  /-- Requests with peers not yet answered. -/
  out : Nat := 0
  /-- Addresses whose requests the target has faulted: what is sent next is the replay of a faulted request (23 R412). -/
  again : List Nat := []
  /-- What it writes has been handed to the homes; of ACC.ST, how many rows. -/
  written : Bool := false
  handed : Nat := 0
  /-- Waiting: of XCHG for sequence words, of COMBINE at its gate. -/
  waiting : Bool := false
  /-- Failures found, oldest first: cause and address; and the lines whose outcome is indeterminate, which a replay takes as performed
  (26 R442), with their number. -/
  fails : List (BitVec 8 × BitVec 64) := []
  unsure : List Nat := []
  nind : Nat := 0
  /-- Bytes that it has written so far (16 R341). -/
  wrote : Nat := 0
  /-- It has failed beyond the 16 that a board can park: it is never replayed, but what it defers stays deferred (21 R374). -/
  beyond : Bool := false
deriving DecidableEq, Repr

/-- An entry of a scribe table (03 R64): the space is the context's addresses, or the scratchpad of a bent. -/
structure Scribe where
  cmd : Nat
  ctx : BitVec 16
  bent : Option Nat
  lo : Nat
  hi : Nat
deriving DecidableEq, Repr

/-- An issue port (01 R9 to R11). -/
structure Port where
  vbusy : Nat := 0
  issued : Bool := false
  /-- The board whose bundle the port holds, since an engine refused it or for another cause of R43, and the order of first presentation. -/
  pres : Option (Nat × Nat) := none
  /-- The held bundle issues in this period: its command is accepted, or what held it has ended. -/
  grant : Bool := false
deriving DecidableEq, Repr

/-- A partition (01 R8, 03 R42, R43). -/
structure Part where
  /-- Held periods left for bank conflicts (03 R57). -/
  hold : Nat := 0
  /-- The current period is a tick of the partition. -/
  ticking : Bool := false
  /-- The partition is held in this period by its ports' held bundles alone (03 R43). -/
  stalled : Bool := false
  p0 : Port := {}
  p1 : Port := {}
deriving DecidableEq, Repr

/-- A core (01 R9, R11, 08 R165). -/
structure Core where
  mq : List Cmd := []
  cq : List Cmd := []
  scribe : List Scribe := []
  mTaken : Bool := false
  cTaken : Bool := false
  /-- One more than the periods left of a correctable-error freeze (23 R414); 0 for none. -/
  freeze : Nat := 0
  parts : List Part := []
deriving DecidableEq, Repr

/-- A droop response (16 R338). -/
structure Droop where
  /-- Stretched ticks that have not ended; one more until the first has begun. -/
  stretch : Nat
  /-- Ticks of the halved-issue window that have not begun. -/
  window : Nat
  /-- The next period is the held period of a tick of the window. -/
  skip : Bool := false
  /-- The window has begun. -/
  half : Bool := false
deriving DecidableEq, Repr

/-- A bay (01 R13, 16 R332 to R345). -/
structure Bay where
  granted : Nat := 1
  running : Nat := 1
  /-- Rail in microvolts (16 R333). -/
  rail : Nat := 640000
  lvlmax : BitVec 3 := 7
  thermal : Nat := 7
  capLevel : Nat := 7
  /-- The pacing level as it bounds the bay, and TIME until which it is held (16 R349). -/
  pace : Nat := 7
  paceHold : Nat := 0
  temp : Nat := 0
  /-- It has read above TMIG, and not yet below TMIG - 5 (16 R344). -/
  warm : Bool := false
  /-- Units of 100 us above TCAP, and below TCAP - 5. -/
  hot : Nat := 0
  cool : Nat := 0
  drpEn : Bool := true
  drpCnt : BitVec 8 := 0
  drpMv : BitVec 8 := 40
  droop : Option Droop := none
  /-- Stopped by a brownout (26 R449). -/
  stopped : Bool := false
  nextEdge : Nat := 0
  /-- Bay gates of the co-placed groups in the bay (02 R27, R34): group, gates. -/
  gates : List (Nat × List Gate) := []
  cores : List Core := []
  /-- The highest board slot number of the module whose board has arrived at a gate or retired in the current period (02 R35). -/
  arrSlot : Option Nat := none
  /-- Slice number in force (13 R287). -/
  slice : Nat := 0
  /-- Work waiting in the bay: grid, and TIME since which it has waited (13 R287, R290). -/
  waits : List (Nat × Nat) := []
  /-- Wall time to which the rail's ramp is computed. -/
  railAt : Nat := 0
  /-- After a brownout: wall time at which the rail has reached its target, which it holds from then on (26 R449). -/
  heldFrom : Nat := 0
deriving DecidableEq, Repr

/-! ### Watches and frames -/

/-- A pending trigger record (12 R263). -/
structure PendRec where
  seq : Word
  bitmap : BitVec 64
  count : Nat
  depth : Nat
  storer : Word
  kind : BitVec 4
  wtime : Nat
  eligible : Bool := false
  /-- Position in the order of becoming eligible, among runnable grids (13 R288). -/
  order : Nat := 0
deriving DecidableEq, Repr

/-- A watch entry (12 R258 to R263). -/
structure Watch where
  idx : Nat
  gen : BitVec 17
  ctx : BitVec 16
  base : Nat
  /-- Physical base of each 64 KiB page of the range, in order. -/
  pages : List (Nat × Nat)
  /-- Virtual bases of the pages pinned for it. -/
  pinned : List Nat := []
  nlines : Nat
  mode : Nat
  scope : Scope
  dmax : Nat
  win : Nat
  rate : Nat
  value : Word
  hblk : Nat
  block : Block
  blockBytes : List Byte := []
  cap : Nat
  active : Bool := true
  closed : Bool := false
  seq : Word := 0
  pend : Option PendRec := none
  /-- TIME of handler starts in the last 1,024 ns. -/
  starts : List Nat := []
  refused : Nat := 0
  lastErr : Option Nat := none
deriving DecidableEq, Repr

/-- A registered waiter of a remote gate whose home is here (15 R328): gate address, a board here or a waiter of a peer. -/
structure Waiter where
  gate : Nat
  peer : Option Nat
  board : Nat
deriving DecidableEq, Repr

/-- A frame (01 R14). -/
structure Frame where
  inService : Bool := false
  hung : Bool := false
  /-- The two routing engines' accepted commands (11 R238). -/
  rq : List Cmd := []
  rTaken0 : Bool := false
  rTaken1 : Bool := false
  watches : List Watch := []
  /-- Generation of each table slot that has been used (12 R260). -/
  gens : List (Nat × BitVec 17) := []
  pins : List Pin := []
  waiters : List Waiter := []
  /-- Bind requests posted and not served: context, entry (14 R308). -/
  binds : List (BitVec 16 × Nat) := []
  bays : List Bay := []
  /-- Corrected errors by unit: cores 0 to 15, L2 slices 16 to 19, HBM stacks 20 and 21 (23 R414). -/
  corrected : List (Nat × Nat) := []
  /-- The frame clock (01 R17): the level it runs at, and its next period boundary in wall time. -/
  clk : Nat := 1
  clkEdge : Nat := 0
deriving DecidableEq, Repr

/-! ### Contexts, functions, queues -/

/-- A context (13 R275, 17 R354, 21 R371, 23 R413, 09 R209). -/
structure Ctx where
  ctxid : BitVec 16
  fn : Nat
  window : Nat
  root : DWord := 0
  dsbase : DWord := 0
  savebase : DWord := 0
  savesz : DWord := 0
  saveva : DWord := 0
  podgrp : BitVec 16 := 0
  /-- Frames of REACH that were in service at creation (17 R355, 02 R39). -/
  reach : BitVec 8 := 0
  frames : List Nat := []
  features : DWord := 0
  vmap : Word := 0x56A
  edyn : BitVec 48 := 0
  estat : BitVec 48 := 0
  est : BitVec 2 := 0
  /-- REM of each bay (16 R342): bay number, remainder. -/
  rems : List (Nat × Nat) := []
  traphb : DWord := 0
  trapctl : BitVec 16 := 0
  pgsvc : Bool := false
  pgmap : DWord := 0
  pgcnt : Word := 0
  chkWindow : Bool := false
  fstat : BitVec 7 := 0
  tabA : List Word := []
  tabB : List Word := []
  nextFrid : Word := 1
  nextGrid : Word := 1
  /-- Moved to a context of another module: MODID and CTXID (14 R311, 17 R355). Bents not yet created are created there. -/
  movedTo : Option (BitVec 10 × BitVec 16) := none
  /-- Cause a service core recorded for a FAILED bind entry (25 R433). -/
  bindCause : List (Nat × BitVec 8) := []
deriving DecidableEq, Repr

/-- An invalidation in progress (14 R298). -/
structure Tlbinv where
  ctx : BitVec 16
  base : Nat
  pages : Nat
deriving DecidableEq, Repr

/-- A PCI Express function (17 R351 to R356, 21 R373). -/
structure Fn where
  hwbase : DWord := 0
  tibase : DWord := 0
  tiErr : Bool := false
  tibusy : Option Tlbinv := none
  mbcmd : List Byte := []
  mbResult : BitVec 8 := 0
  mbDone : Bool := false
  /-- A mailbox command is in flight (17 R352). -/
  mbBusy : Bool := false
  /-- The part of module memory that the physical function has granted through BAR4: base and size in bytes (17 R351). -/
  grant : Nat × Nat := (0, 0)
  /-- Completion counters that the driver has given an MSI-X vector: vector, context and address (17 R352). -/
  vectors : List (Nat × BitVec 16 × Nat) := []
  fqbase : DWord := 0
  fqEn : Bool := false
  fqSize : BitVec 5 := 0
  fqhead : Word := 0
  fqtail : Word := 0
  fqlost : Word := 0
  /-- MSI-X vectors signalled, latest first (17 R352). -/
  msix : List Nat := []
deriving DecidableEq, Repr

/-- A queue (13 R276 to R278, 17 R357). -/
structure Queue where
  base : DWord := 0
  en : Bool := false
  maxr : BitVec 3 := 0
  size : BitVec 5 := 0
  ctx : BitVec 16 := 0
  head : Word := 0
  tail : Word := 0
  own : BitVec 8 := 0
  /-- Notify writes not yet accepted, oldest first: value and order (13 R278). -/
  notified : List (Word × Nat) := []
deriving DecidableEq, Repr

/-- Where a request to a peer stands (15 R321). -/
inductive ReqAt
  /-- In a frame: its source's, or its plane's. -/
  | frame (f : Nat)
  /-- In a slot of a ring. -/
  | ring
  /-- Sent on its plane and not yet answered. -/
  | sent
  /-- Answered: the answer is in a slot on the way to the source's frame. -/
  | back
deriving DecidableEq, Repr

/-- A request to a peer module (15 R319). -/
structure OutReq where
  id : Nat
  mod : Nat
  addr : Nat
  /-- Pod group of the sender's context (15 R316). -/
  group : BitVec 16
  /-- The context that sends it. -/
  ctx : BitVec 16 := 0
  /-- The board of the source agent, or the command. -/
  board : Nat
  cmd : Option Nat := none
  /-- The operation of the board's memory path and the number of its line. -/
  line : Option (Nat × Nat) := none
  /-- The core whose engine has asked, which keeps an entry for it (01 R9). -/
  core : Option Nat := none
  /-- Frame of the source. -/
  source : Nat
  at_ : ReqAt := .frame source
  ordered : Bool
  /-- The replay of a request that the target has faulted: one that it has only stopped is sent again as any other (23 R412). -/
  replay : Bool := false
  kind : PeerKind
  plane : Nat := 0
  /-- Sent on a plane to which the ordered traffic to its module had moved (26 R443). -/
  shifted : Bool := false
  depth : Nat := 0
  /-- Address of the line in the context, which a failure names (23 R411). -/
  va : Nat := 0
  /-- TIME since which it has been outstanding (26 R445). -/
  since : Nat := 0
  /-- Context and DETAIL of the ENGINE entry that a failing counter add writes (13 R282). -/
  note : Option (BitVec 16 × Nat) := none
deriving DecidableEq, Repr

/-- A request of a peer that has come by a plane and is not performed yet: at its plane's station, or in a slot to its home's frame (15 R321). -/
structure InReq where
  id : Nat
  req : PeerReq
  dst : Option Nat := none
deriving DecidableEq, Repr

/-- What a reader of the device asks of a peer: a line, the sum of 1 and a word there (13 R285), or the claim of a bind entry (14 R308). -/
inductive FetchKind
  | line
  | add
  | claim
deriving DecidableEq, Repr

/-- What the device itself asks of a peer for a control block (10 R237, 15 R319): who reads, in which context and at which address, the request, and
what it has returned. -/
structure Fetch where
  reader : Nat
  ctx : BitVec 16
  va : Nat
  mod : Nat
  addr : Nat
  kind : FetchKind
  req : Nat
  got : Option LineResp := none
deriving DecidableEq, Repr

/-- A bring-up step record (17 R361). -/
structure StepRec where
  start : Word
  step : BitVec 8
  unit : BitVec 8
  out : BitVec 8
  meth : BitVec 8
  code : DWord
  /-- It could not be written: the controller holds it until the next start (26 R457). -/
  held : Bool := false
deriving DecidableEq, Repr

/-- A package ring (15 R312 to R314, 26 R438, R439). -/
structure Ring where
  up : Bool := true
  /-- The sending frame of the link that failed, which the next start records (26 R439). -/
  link : Option Nat := none
  /-- Sequence number next accepted, and next sent, in each lane: source, destination, number. -/
  lanes : List (Nat × Nat × Nat) := []
  sends : List (Nat × Nat × Nat) := []
  /-- The retry buffers: every slot sent and not yet accepted: source, destination, slot. -/
  retry : List (Nat × Nat × RingSlot) := []
  /-- Corruption refusals of each link in a 1 ms window: sending frame, window, count; and in all: sending frame, count (26 R438, R439). -/
  corrupt : List (Nat × Nat × Nat) := []
  counted : List (Nat × Nat) := []
deriving DecidableEq, Repr

/-- A pacing group (16 R348, R349). -/
structure Pace where
  num : Nat
  /-- Remote gates that the driver has named, by place 0 to 15. -/
  gates : List Nat
  /-- The other modules of the collective. -/
  members : List Nat := []
  /-- The ms of TIME whose slack is being measured. -/
  window : Nat := 0
  /-- Time units waited in the window, and the windows' slacks, latest first. -/
  waited : Nat := 0
  slacks : List Nat := []
  /-- Reports: module, window, slack. -/
  reports : List (Nat × Nat × Nat) := []
deriving DecidableEq, Repr

/-- A step of the surroundings that waits, and the wall time from which it can come about. -/
structure Input where
  at_ : Nat
  ev : Instr
deriving DecidableEq, Repr

/-- The bundle in issue: the slot it came from, its index, its lanes and its header bits. -/
structure Cur where
  slotB : Bool := false
  pc : BitVec 48 := 0
  mask : Mask := 0
  gap : Nat := 1
  y : Bool := false
  w : Bool := false
  /-- The bundle's clocks, latches and next index have been advanced. -/
  done : Bool := false
deriving DecidableEq, Repr

/-- A translation held by the TLBs (14 R296): context, page base, page size, leaf word. -/
structure TlbEnt where
  ctx : BitVec 16
  base : Nat
  size : Nat
  leaf : DWord
deriving DecidableEq, Repr

/-- A read-only copy of a line, kept for a board (10 R221, R222). -/
structure L1Copy where
  board : Nat
  line : Target
  bytes : List Byte
  epoch : Nat
  /-- Protected for the board: no storage holds it otherwise. -/
  kept : Bool := true
  /-- Offsets that the board has loaded from it since its last acquire (10 R232). -/
  loaded : List Nat := []
  /-- Its other bytes are as young as what the board has read of the line (10 R229). -/
  fresh : Bool := true
  /-- It has an uncorrectable error (23 R414). -/
  bad : Bool := false
deriving DecidableEq, Repr

/-- What goes to a peer module: the answer to a request, or a wake of a gate's waiter, after which PHASE is read again if a `.init` sent it (15
R319, R327, 25 R432). -/
inductive PeerMsg
  | answer (resp : LineResp)
  | wake (gate : Nat) (again : Bool)
deriving DecidableEq, Repr

/-- A message to a peer module: its agent or waiter, and the plane (15 R321). -/
structure ToPeer where
  mod : Nat
  agent : Nat
  plane : Nat
  msg : PeerMsg
deriving DecidableEq, Repr

/-- A byte of a freeze record that software has changed since the device wrote it: what the device wrote, what the host has written since, and the
handler that was created for the freeze (21 R383). -/
structure Edit where
  addr : Nat
  dev : Byte
  host : Option Byte := none
  handler : Option Byte := none
deriving DecidableEq, Repr

/-- The state of the module. -/
structure State where
  /-- The board in focus: the one whose bundle issues, or the last one that issued. -/
  bd : Option Board := none
  /-- Every other live board, resident or switched out. -/
  boards : List Board := []
  cur : Cur := {}
  bents : List Bent := []
  grids : List Grid := []
  graphs : List GraphInst := []
  launches : List LaunchReq := []
  ctxs : List Ctx := []
  fns : List Fn := []
  /-- Queues that have been written: number, registers. -/
  queues : List (Nat × Queue) := []
  /-- Active slots: slot, queue (13 R278), longest mapped first. -/
  mapped : List (Nat × Nat) := []
  frames : List Frame := []
  /-- Failed commands parked in their units (21 R374). -/
  parkedCmds : List Cmd := []
  mem : Mem := []
  /-- Bytes of freeze records that the host or a handler has changed, by address (21 R383). -/
  edits : List Edit := []
  /-- Lines whose data has an uncorrectable error, by number of 128 bytes (23 R414). -/
  badLines : List Nat := []
  hostMem : Mem := []
  tlb : List TlbEnt := []
  l1 : List L1Copy := []
  outReqs : List OutReq := []
  /-- Lines of peers that the device's own readers have asked for. -/
  fetches : List Fetch := []
  /-- Requests of peers that are on their way to their homes, oldest first. -/
  inReqs : List InReq := []
  /-- What has been sent to peers, latest first. -/
  toPeers : List ToPeer := []
  /-- Agents of peers whose later ordered requests are answered with stopped (23 R412). -/
  barredAgents : List (Nat × Nat) := []
  /-- Wakes that have reached the frames of waiting boards (15 R328). -/
  wakes : List Wake := []
  /-- Wakes for waiters of peers that no plane reaches: the frame they are in, module, agent, gate, whether PHASE is read again. -/
  wakesOut : List (Nat × Nat × Nat × Nat × Bool) := []
  rings : List Ring := []
  planes : BitVec 8 := 0
  /-- Planes that are down at another module: module, plane (26 R443). -/
  farDown : List (Nat × Nat) := []
  lost : List Nat := []
  /-- TIME of the last answer of each module that has answered (26 R445). -/
  heard : List (Nat × Nat) := []
  modid : BitVec 10 := 0
  uaen : BitVec 8 := 0
  safecap : BitVec 13 := 3000
  pth : BitVec 16 := 3277
  capSeq : Word := 0
  cap : Nat := 5600
  /-- Wall time at which the lease ends. -/
  capEnd : Option Nat := none
  /-- Module power over the last ms measured, in W (16 R347). -/
  power : Nat := 0
  /-- Temperature limits TMIG and TCAP that firmware sets, in units of 0.1 degree (16 R344). -/
  tmig : Nat := 950
  tcap : Nat := 1020
  overCap : Nat := 0
  capEvent : Option Nat := none
  paces : List Pace := []
  /-- Pace reports sent, latest first: module, group, window, slack (16 R348). -/
  paceSent : List (Nat × Nat × Nat × Nat) := []
  /-- TIME in units of 1/6552 ns, and what slewing has still to add or take (16 R339). -/
  time : Nat := 0
  timeErr : Int := 0
  /-- Units of wall time that the rate of slewing has not yet counted (16 R339). -/
  slewRem : Nat := 0
  synced : Bool := false
  /-- Wall time of the last time exchange (16 R339, R340). -/
  exchanged : Nat := 0
  /-- Wall time in units of 1/6552 ns, the smallest that holds every period of R332. -/
  wall : Nat := 0
  records : List StepRec := []
  starts : Word := 0
  /-- Frames whose bring-up steps have not finished: while there are any, the module is in early service (17 R360). -/
  late : List Nat := []
  /-- The last 64 DEVICE entries, latest first (26 R437). -/
  devLog : List (List Byte) := []
  linkUp : Bool := false
  /-- TIME at which the host link was lost, while it is down; 10 ms after it the functions have been reset (26 R455). -/
  linkLost : Option Nat := none
  linkReset : Bool := false
  /-- The management controller runs (17 R358, 26 R457). -/
  ctrl : Bool := false
  rails : Bool := false
  /-- A start has failed: the main rails stay off (26 R457). -/
  down : Bool := false
  /-- Firmware images in flash: the controller's and the service cores' (17 R358). -/
  fwCtrl : DWord := 0
  fwCores : DWord := 0
  /-- Both rings have failed: no frame creates bents (26 R440). -/
  halted : Bool := false
  /-- Answers of the sideband port, latest first (26 R456). -/
  sideband : List (List Byte) := []
  /-- What reads with an effect and atomics of the host have returned, latest first: function, offset, value (17 R350). -/
  completions : List (Nat × Nat × DWord) := []
  inputs : List Input := []
  freeCtr : Nat := 0
  nextUid : Nat := 1
deriving DecidableEq, Repr

/-! ### How a step can stop -/

/-- Faults: none is the spec's own; each says that the model cannot go on. -/
inductive Fault
  /-- A slot instruction was named while no bundle issues: there is no board it could act for. Raised by every meaning of a slot
  instruction. Safe: the machine itself never does this, and the model stops. -/
  | noBoard
deriving DecidableEq, Repr

/-- Refusals. -/
inductive Refusal
  /-- The arm of exec is not yet modelled. Raised by exec alone. Safe: the model stops. -/
  | notModelled (mnemonic : String)
  /-- A step of the device or its surroundings was named in a state in which the spec does not let it come about. Raised by the
  meanings of the device steps. Safe: the machine itself never does this, and the model stops. -/
  | notEnabled (mnemonic : String)
  /-- Nothing can come about: main rails are off and no input waits. Raised by step. Safe: the model stops. -/
  | quiet
deriving DecidableEq, Repr

/-- A core with nothing accepted: twelve partitions (01 R8). -/
def Core.fresh : Core := { parts := List.replicate 12 {} }
/-- A bay at power-on: early service level 1 (17 R360). -/
def Bay.fresh : Bay := { cores := List.replicate 4 Core.fresh }
/-- A frame out of service: four bays (01 R8). -/
def Frame.fresh : Frame := { bays := List.replicate 4 Bay.fresh }

/-- The module right after power has been applied: no frame serves yet, no context lives (17 R359). DESIGN CHOICE: log 12. -/
def State.reset : State :=
  { fns := { grant := (0, 2 ^ 40) } :: List.replicate 31 {}
    frames := List.replicate 8 Frame.fresh
    rings := [{}, {}]
    planes := 0xFF }

end Sys2Proof.Machine
end

