-- ==== Sys2Proof/Machine/Bytes.lean ====
section
/-!
DEFINITION. Lists of fixed length, little-endian bytes (00 R5) and the byte memory in its canonical form.
-/
namespace Sys2Proof.Machine

/-- The list of `f 0` to `f (n - 1)`. -/
def tab {α : Type} (n : Nat) (f : Nat → α) : List α := (List.range n).map f

/-- An element put before the first that it does not come after. -/
def putIn {α : Type} (le : α → α → Bool) (x : α) : List α → List α
  | [] => [x]
  | y :: t => if le x y then x :: y :: t else y :: putIn le x t

/-- A list in order; equals keep theirs. -/
def inOrder {α : Type} (le : α → α → Bool) : List α → List α
  | [] => []
  | x :: t => putIn le x (inOrder le t)

/-- Numbers, ascending. -/
def ascending (l : List Nat) : List Nat := inOrder (fun a b => decide (a ≤ b)) l

/-- A value for each lane. -/
def lanesOf (f : Nat → Word) : Lanes := tab 128 f

/-- The value of a lane. -/
def laneAt (x : Lanes) (l : Nat) : Word := x.getD l 0

/-- The lanes of `m` take the new values, the others keep the old. -/
def mergeLanes (m : Mask) (new old : Lanes) : Lanes :=
  tab 128 fun l => if m.getLsbD l then laneAt new l else laneAt old l

/-- The lanes of a mask, ascending. -/
def lanesIn (m : Mask) : List Nat := (List.range 128).filter fun l => m.getLsbD l

/-- The lowest lane of a mask, 0 for none. -/
def lowLane (m : Mask) : Nat := (lanesIn m).headD 0

/-- A mask from a predicate on lanes. -/
def maskOf (p : Nat → Bool) : Mask :=
  BitVec.ofNat 128 ((List.range 128).foldr (fun l acc => 2 * acc + if p l then 1 else 0) 0)

/-- All lanes. -/
def allLanes : Mask := BitVec.allOnes 128

/-- Bit field of a natural number: `n` bits from bit `lo`. -/
def bits (x lo n : Nat) : Nat := (x >>> lo) % 2 ^ n

/-- A natural number from little-endian bytes (00 R5). -/
def leNat (l : List Byte) : Nat := l.foldr (fun x acc => 256 * acc + x.toNat) 0

/-- The `n` little-endian bytes of a natural number (00 R5). -/
def leBytes (n v : Nat) : List Byte := tab n fun k => BitVec.ofNat 8 (v >>> (8 * k))

/-- Bytes of a block: `n` from offset `o`, as a number. -/
def fieldAt (l : List Byte) (o n : Nat) : Nat := leNat ((l.drop o).take n)

/-- The values of an association list's key, the default where it has none. -/
def look {β : Type} (k : Nat) (d : β) : List (Nat × β) → β
  | [] => d
  | (a, x) :: t => if a == k then x else look k d t

/-- An association list with the key set. -/
def put {β : Type} (k : Nat) (x : β) : List (Nat × β) → List (Nat × β)
  | [] => [(k, x)]
  | (a, y) :: t => if a == k then (a, x) :: t else (a, y) :: put k x t

/-- The element at a place changed. -/
def modAt {α : Type} (n : Nat) (f : α → α) : List α → List α
  | [] => []
  | x :: t =>
    match n with
    | 0 => f x :: t
    | k + 1 => x :: modAt k f t

/-- What a byte of memory that nothing has written reads as (DESIGN CHOICE, log 1). -/
def unwritten : Byte := 0

/-- The byte at an address. -/
def Mem.get : Mem → Nat → Byte
  | [], _ => unwritten
  | (k, x) :: t, a => if a < k then unwritten else if a == k then x else Mem.get t a

/-- Memory with one byte written: the form stays canonical. -/
def Mem.set : Mem → Nat → Byte → Mem
  | [], a, x => if x == unwritten then [] else [(a, x)]
  | (k, y) :: t, a, x =>
    if a < k then (if x == unwritten then (k, y) :: t else (a, x) :: (k, y) :: t)
    else if a == k then (if x == unwritten then t else (a, x) :: t)
    else (k, y) :: Mem.set t a x

/-- The addresses stand above a bound, strictly rising, and no byte is what an unlisted address reads as. -/
def Mem.above (lo : Option Nat) : Mem → Bool
  | [] => true
  | (k, x) :: t => (match lo with | none => true | some b => b < k) && x != unwritten && Mem.above (some k) t

/-- The canonical form. -/
def Mem.wf (m : Mem) : Bool := Mem.above none m

/-- `n` bytes from an address. -/
def Mem.read (m : Mem) (a n : Nat) : List Byte := tab n fun k => m.get (a + k)

/-- Bytes written from an address on. -/
def Mem.write (m : Mem) (a : Nat) : List Byte → Mem
  | [] => m
  | x :: t => Mem.write (m.set a x) (a + 1) t

/-- (address, byte) pairs written in order. -/
def Mem.writeAll (m : Mem) : List (Nat × Byte) → Mem
  | [] => m
  | (a, x) :: t => Mem.writeAll (m.set a x) t

/-- A little-endian number of `n` bytes at an address. -/
def Mem.num (m : Mem) (a n : Nat) : Nat := leNat (m.read a n)

/-- A 32-bit word at an address. -/
def Mem.word (m : Mem) (a : Nat) : Word := BitVec.ofNat 32 (m.num a 4)

end Sys2Proof.Machine
end

