-- ==== Sys2Proof/Machine/Flags.lean ====
section
/-!
DEFINITION. The flags of FSTAT (22 R400), the floating-point formats (04 R70 to R72), exact values, and rounding (04 R74 to R78) with
the flags it raises (22 R400, R401).
-/
namespace Sys2Proof

open Machine

/-! ### FSTAT -/

/-- Invalid operation. -/
def flNV : Word := 1
/-- Division by zero. -/
def flDZ : Word := 2
/-- Overflow. -/
def flOF : Word := 4
/-- Underflow. -/
def flUF : Word := 8
/-- Inexact. -/
def flNX : Word := 16
/-- A clamped result. -/
def flSAT : Word := 32
/-- A clamped or absent block scale. -/
def flSCL : Word := 64

/-- A flag under a condition. -/
def flagIf (c : Bool) (f : Word) : Word := if c then f else 0

/-- A result and the flags it raises. -/
structure Res where
  val : Word
  flags : Word := 0
deriving DecidableEq, Repr

/-! ### Formats -/

/-- Exponent bits of a floating-point format (04 R70). -/
def Fmt.ebits : Fmt → Nat
  | .f32 | .bf16 => 8
  | .f16 | .e5m2 => 5
  | .e4m3 => 4
  | .e2m1 => 2
  | _ => 0

/-- Mantissa bits (04 R70). -/
def Fmt.mbits : Fmt → Nat
  | .f32 => 23
  | .f16 => 10
  | .bf16 => 7
  | .e4m3 => 3
  | .e5m2 => 2
  | .e2m1 => 1
  | _ => 0

/-- Element width in bits (04 R68). -/
def Fmt.width : Fmt → Nat
  | .f32 | .s32 => 32
  | .f16 | .bf16 | .cb2 => 16
  | .e2m1 => 4
  | _ => 8

/-- Bias (04 R70). -/
def Fmt.bias (f : Fmt) : Nat := 2 ^ (f.ebits - 1) - 1

/-- A floating-point format with a sign (04 R70). -/
def Fmt.isFloat : Fmt → Bool
  | .f32 | .f16 | .bf16 | .e4m3 | .e5m2 | .e2m1 => true
  | _ => false

/-- The format has infinities (04 R72). -/
def Fmt.hasInf : Fmt → Bool
  | .f32 | .f16 | .bf16 | .e5m2 => true
  | _ => false

/-- Least exponent of a normal value. -/
def Fmt.emin (f : Fmt) : Int := 1 - (f.bias : Int)

/-- Exponent of the largest finite value M (04 R70). -/
def Fmt.emax : Fmt → Int
  | .f32 | .bf16 => 127
  | .f16 | .e5m2 => 15
  | .e4m3 => 8
  | .e2m1 => 2
  | _ => 0

/-- M in units of its last place (04 R70). -/
def Fmt.maxMant (f : Fmt) : Nat := if f == .e4m3 then 14 else 2 ^ (f.mbits + 1) - 1

/-- The encoding of M. -/
def Fmt.maxBits : Fmt → Nat
  | .f32 => 0x7F7FFFFF
  | .f16 => 0x7BFF
  | .bf16 => 0x7F7F
  | .e4m3 => 0x7E
  | .e5m2 => 0x7B
  | .e2m1 => 0x7
  | _ => 0

/-- The sign bit in place. -/
def Fmt.signBit (f : Fmt) (neg : Bool) : Nat := if neg then 2 ^ (f.width - 1) else 0

/-- The encoding of +infinity (04 R72). -/
def Fmt.infBits (f : Fmt) : Nat := (2 ^ f.ebits - 1) <<< f.mbits

/-- The canonical NaN (04 R72). -/
def Fmt.nan : Fmt → Nat
  | .f32 => 0x7FC00000
  | .f16 => 0x7E00
  | .bf16 => 0x7FC0
  | .e4m3 => 0x7F
  | .e5m2 => 0x7E
  | .e8m0 => 0xFF
  | _ => 0

/-! ### Exact values -/

/-- A value: NaN, an infinity, or (−1)^neg × m × 2^e. -/
inductive Ex
  | nan
  | inf (neg : Bool)
  | num (neg : Bool) (m : Nat) (e : Int)
deriving DecidableEq, Repr

/-- The value of an encoding (04 R71, R72). -/
def Fmt.val (f : Fmt) (x : Nat) : Ex :=
  let x := x % 2 ^ f.width
  match f with
  | .e8m0 => if x == 255 then .nan else .num false 1 ((x : Int) - 127)
  | .s8 => if x < 128 then .num false x 0 else .num true (256 - x) 0
  | .s32 => if x < 2 ^ 31 then .num false x 0 else .num true (2 ^ 32 - x) 0
  | .cb2 => .num false 0 0
  | _ =>
    let neg := x.testBit (f.width - 1)
    let e := bits x f.mbits f.ebits
    let m := bits x 0 f.mbits
    if f == .e4m3 && e == 15 && m == 7 then .nan
    else if f.hasInf && e == 2 ^ f.ebits - 1 then (if m == 0 then .inf neg else .nan)
    else if e == 0 then .num neg m (f.emin - f.mbits)
    else .num neg (2 ^ f.mbits + m) ((e : Int) - f.bias - f.mbits)

/-- The encoding is a NaN. -/
def Fmt.isNaN (f : Fmt) (x : Nat) : Bool := f.val x == .nan

/-- The encoding is a signalling NaN (04 R72): its most significant mantissa bit is 0. E4M3 and E8M0 have no signalling NaN. -/
def Fmt.isSNaN (f : Fmt) (x : Nat) : Bool :=
  f.isNaN x && f.hasInf && !x.testBit (f.mbits - 1)

/-- A NaN with its quiet bit set (04 R73). -/
def Fmt.quiet (f : Fmt) (x : Nat) : Nat := x ||| 2 ^ (f.mbits - 1)

/-- An integer as an exact value. -/
def exInt (i : Int) (e : Int) : Ex := .num (i < 0) i.natAbs e

/-- The signed mantissa. -/
def sgn (neg : Bool) (m : Nat) : Int := if neg then -(m : Int) else m

/-- Exact product. Zero times infinity is invalid: NaN (06 R118). -/
def Ex.mul : Ex → Ex → Ex
  | .num n m e, .num n' m' e' => .num (n != n') (m * m') (e + e')
  | .inf n, .num n' m _ => if m == 0 then .nan else .inf (n != n')
  | .num n m _, .inf n' => if m == 0 then .nan else .inf (n != n')
  | .inf n, .inf n' => .inf (n != n')
  | _, _ => .nan

/-- Exact sum, with the sign of a zero sum by step 4 of 04 R75. Opposite infinities are invalid: NaN. -/
def Ex.add (rd : Bool) : Ex → Ex → Ex
  | .num n m e, .num n' m' e' =>
    if m == 0 && m' == 0 then .num (if n == n' then n else rd) 0 0
    else
      let q := min e e'
      let t := sgn n m * 2 ^ (e - q).toNat + sgn n' m' * 2 ^ (e' - q).toNat
      if t == 0 then .num rd 0 0 else exInt t q
  | .inf n, .inf n' => if n == n' then .inf n else .nan
  | .inf n, .num _ _ _ => .inf n
  | .num _ _ _, .inf n => .inf n
  | _, _ => .nan

/-- Negation. -/
def Ex.neg : Ex → Ex
  | .num n m e => .num (!n) m e
  | .inf n => .inf (!n)
  | .nan => .nan

/-- Order of two values that are no NaN: −1, 0 or 1. Zeros are equal. -/
def Ex.cmp : Ex → Ex → Int
  | .num n m e, .num n' m' e' =>
    let q := min e e'
    (sgn n m * 2 ^ (e - q).toNat - sgn n' m' * 2 ^ (e' - q).toNat).sign
  | .inf n, .inf n' => if n == n' then 0 else if n then -1 else 1
  | .inf n, _ => if n then -1 else 1
  | _, .inf n => if n then 1 else -1
  | _, _ => 0

/-! ### Rounding (04 R75, R76) -/

/-- A magnitude m × 2^e cut to units of 2^q: the integer part, and how the rest stands to one half: 0 none, 1 below, 2 half, 3
above. -/
def cut (m : Nat) (e q : Int) : Nat × Nat :=
  if q ≤ e then (m <<< (e - q).toNat, 0)
  else
    let d := (q - e).toNat
    let r := m % 2 ^ d
    (m >>> d, if r == 0 then 0 else if 2 * r < 2 ^ d then 1 else if 2 * r == 2 ^ d then 2 else 3)

/-- Whether the magnitude rounds up (04 R74). `tieUp`: a tie goes up although the mantissa is even. -/
def roundsUp (mode : RMode) (neg : Bool) (n rest : Nat) (tieUp : Bool) : Bool :=
  match mode with
  | .rn => rest == 3 || (rest == 2 && (n % 2 == 1 || tieUp))
  | .rz => false
  | .rd => neg && rest != 0
  | .ru => !neg && rest != 0

/-- The overflow result (04 R76), without and with saturation. -/
def Fmt.overflow (f : Fmt) (mode : RMode) (neg sat : Bool) : Nat :=
  let big := f.signBit neg + f.maxBits
  let beyond := if f == .e4m3 then f.nan else f.signBit neg + f.infBits
  if sat || f == .e2m1 then big
  else
    match mode with
    | .rn => beyond
    | .rz => big
    | .rd => if neg then beyond else big
    | .ru => if neg then big else beyond

/-- round(x, fmt, mode) of m × 2^e, with the flags of 22 R400. `sat` acts on the 16-bit, 8-bit and 4-bit formats only (04 R76). -/
def Fmt.roundMag (f : Fmt) (mode : RMode) (sat : Bool) (neg : Bool) (m : Nat) (e : Int) : Res :=
  if m == 0 then { val := BitVec.ofNat 32 (f.signBit neg) }
  else
    let top : Int := (Nat.log2 m : Int) + e
    let q := max top f.emin - f.mbits
    let c := cut m e q
    let n := if roundsUp mode neg c.1 c.2 (f == .e4m3 && q == f.emax - f.mbits && c.1 == f.maxMant) then c.1 + 1 else c.1
    let sat := (sat && f != .f32) || f == .e2m1
    let beyond := f.emax - f.mbits < q || (q == f.emax - f.mbits && f.maxMant < n)
    if beyond then
      { val := BitVec.ofNat 32 (f.overflow mode neg sat), flags := flOF ||| flNX ||| flagIf sat flSAT }
    else
      -- tiny after rounding, with unbounded exponent
      let u := cut m e (top - f.mbits)
      let un := if roundsUp mode neg u.1 u.2 false then u.1 + 1 else u.1
      let tiny := top < f.emin && !(top + 1 == f.emin && un == 2 ^ (f.mbits + 1))
      { val := BitVec.ofNat 32 (f.signBit neg + ((q - (f.emin - f.mbits)).toNat <<< f.mbits) + n)
        flags := flagIf (c.2 != 0) flNX ||| flagIf (c.2 != 0 && tiny) flUF }

/-- round(x, fmt, mode) of a value without NaN operands: NaN is the canonical NaN with NV, infinities as 04 R77. -/
def Fmt.round (f : Fmt) (mode : RMode) (sat : Bool) : Ex → Res
  | .nan => { val := BitVec.ofNat 32 f.nan, flags := flNV }
  | .inf n =>
    if (sat && f != .f32) || f == .e2m1 then
      { val := BitVec.ofNat 32 (f.signBit n + f.maxBits), flags := flOF ||| flNX ||| flSAT }
    else if f == .e4m3 then { val := BitVec.ofNat 32 f.nan }
    else { val := BitVec.ofNat 32 (f.signBit n + f.infBits) }
  | .num n m e => f.roundMag mode sat n m e

/-- The value rounded to an integer under a mode (04 R78). -/
def roundInt (mode : RMode) (neg : Bool) (m : Nat) (e : Int) : Int × Bool :=
  let c := cut m e 0
  (sgn neg (if roundsUp mode neg c.1 c.2 false then c.1 + 1 else c.1), c.2 != 0)

/-- An integer clamped to a range: the value, and whether it was clamped (04 R69). -/
def clampInt (lo hi t : Int) : Int × Bool := if t < lo then (lo, true) else if hi < t then (hi, true) else (t, false)

end Sys2Proof
end

