-- ==== Sys2Proof/Machine/Numbers.lean ====
section
/-!
DEFINITION. Arithmetic on one lane: binary32 and packed 16-bit operations (06 R118 to R123), integer operations (R124 to R127),
conversions (R128), block scales and narrowing (04 R86, R87), scan steps (R133).
-/
namespace Sys2Proof.Machine

/-! ### Floating point -/

/-- A computation unless an operand is a NaN: then the first NaN, quieted (04 R73). `inv`: the computation is invalid whatever the
other operands are. -/
def nanOr (f : Fmt) (ops : List Nat) (inv : Bool) (r : Res) : Res :=
  match ops.find? f.isNaN with
  | some x => { val := BitVec.ofNat 32 (f.quiet x), flags := flagIf (inv || ops.any f.isSNaN) flNV }
  | none => r

/-- FADD, HADD2 element (06 R118, R123). -/
def fAdd (f : Fmt) (rm : RMode) (a b : Nat) : Res :=
  nanOr f [a, b] false (f.round rm false ((f.val a).add (rm == .rd) (f.val b)))

/-- FSUB, HSUB2 element. -/
def fSub (f : Fmt) (rm : RMode) (a b : Nat) : Res :=
  nanOr f [a, b] false (f.round rm false ((f.val a).add (rm == .rd) (f.val b).neg))

/-- FMUL, HMUL2 element. -/
def fMul (f : Fmt) (rm : RMode) (a b : Nat) : Res :=
  nanOr f [a, b] false (f.round rm false ((f.val a).mul (f.val b)))

/-- FFMA, HFMA2 element: one rounding. DEDUCED: log 43. -/
def fFma (f : Fmt) (rm : RMode) (a b c : Nat) : Res :=
  let p := (f.val a).mul (f.val b)
  nanOr f [a, b, c] (p == .nan && !f.isNaN a && !f.isNaN b) (f.round rm false (p.add (rm == .rd) (f.val c)))

/-- The order of FMIN and FMAX: −0 is smaller than +0 (06 R119). -/
def fLess (f : Fmt) (a b : Nat) : Bool :=
  let c := (f.val a).cmp (f.val b)
  c == -1 || (c == 0 && a.testBit (f.width - 1) && !b.testBit (f.width - 1))

/-- FMIN, HMIN2 element. -/
def fMin (f : Fmt) (a b : Nat) : Res := nanOr f [a, b] false { val := BitVec.ofNat 32 (if fLess f b a then b else a) }

/-- FMAX, HMAX2 element. -/
def fMax (f : Fmt) (a b : Nat) : Res := nanOr f [a, b] false { val := BitVec.ofNat 32 (if fLess f a b then b else a) }

/-- The NaN quieted, another value as it is. -/
def quieted (x : Word) : Word := if Fmt.f32.isNaN x.toNat then x ||| 0x00400000#32 else x

/-- FABS (06 R119). -/
def fAbs (x : Word) : Word := quieted x &&& 0x7FFFFFFF#32

/-- FNEG (06 R119). -/
def fNeg (x : Word) : Word := quieted x ^^^ 0x80000000#32

/-- FCMP (06 R120). -/
def fCmp (c : Cond) (a b : Nat) : Bool :=
  let un := Fmt.f32.isNaN a || Fmt.f32.isNaN b
  let o := (Fmt.f32.val a).cmp (Fmt.f32.val b)
  match c with
  | .eq => !un && o == 0
  | .ne => un || o != 0
  | .lt => !un && o == -1
  | .le => !un && o != 1
  | .gt => !un && o == 1
  | .ge => !un && o != -1
  | .ord => !un
  | .uno => un

/-- Flags of FCMP (22 R401). -/
def fCmpFlags (c : Cond) (a b : Nat) : Word :=
  let un := Fmt.f32.isNaN a || Fmt.f32.isNaN b
  let strict := match c with
    | .lt | .le | .gt | .ge => true
    | _ => false
  flagIf (Fmt.f32.isSNaN a || Fmt.f32.isSNaN b || (strict && un)) flNV

/-- FCLASS (06 R121). -/
def fClass (x : Nat) : Word :=
  let neg := x.testBit 31
  let e := bits x 23 8
  let m := bits x 0 23
  BitVec.ofNat 32 (2 ^ (
    if e == 255 && m != 0 then (if m.testBit 22 then 9 else 8)
    else
      let c := if e == 255 then 3 else if e != 0 then 2 else if m != 0 then 1 else 0
      if neg then 3 - c else 4 + c))

/-- A packed operation: both 16-bit elements (06 R123). -/
def packed (k : Nat → Nat → Nat → Res) (a b c : Word) : Res :=
  let lo (x : Word) := bits x.toNat 0 16
  let hi (x : Word) := bits x.toNat 16 16
  let r0 := k (lo a) (lo b) (lo c)
  let r1 := k (hi a) (hi b) (hi c)
  { val := r1.val.setWidth 16 ++ r0.val.setWidth 16, flags := r0.flags ||| r1.flags }

/-- A short immediate as the binary32 value of its integer (05 R93). -/
def immFloat (i : BitVec 9) : Word := (Fmt.f32.round .rn false (exInt i.toInt 0)).val

/-! ### Square root (06 R122) -/

/-- Integer square root by bits from `k` down. -/
def isqrtBits (n : Nat) : Nat → Nat → Nat
  | 0, r => r
  | k + 1, r => isqrtBits n k (if (r + 2 ^ k) * (r + 2 ^ k) ≤ n then r + 2 ^ k else r)

/-- Integer square root. -/
def isqrt (n : Nat) : Nat := isqrtBits n (Nat.log2 n / 2 + 1) 0

/-- √(m × 2^e) to 30 bits and more, with a sticky low bit: mantissa and exponent. -/
def sqrtMag (m : Nat) (e : Int) : Nat × Int :=
  let sh : Nat := if e % 2 == 0 then 80 else 81
  let n := m <<< sh
  let r := isqrt n
  (2 * r + if r * r == n then 0 else 1, (e - sh) / 2 - 1)

/-- FSQRT (06 R122, 22 R401). -/
def fSqrt (rm : RMode) (x : Nat) : Res :=
  nanOr .f32 [x] false
    (match Fmt.f32.val x with
    | .nan => { val := BitVec.ofNat 32 x }
    | .inf neg => if neg then { val := 0x7FC00000#32, flags := flNV } else { val := BitVec.ofNat 32 x }
    | .num neg m e =>
      if m == 0 then { val := BitVec.ofNat 32 x }
      else if neg then { val := 0x7FC00000#32, flags := flNV }
      else
        let r := sqrtMag m e
        Fmt.f32.roundMag rm false false r.1 r.2)

/-! ### Integers -/

/-- Sum or difference of IADD and ISUB (06 R124). -/
def iSum (sub sat uns : Bool) (a b : Word) : Res :=
  if !sat then { val := if sub then a - b else a + b }
  else
    let va : Int := if uns then a.toNat else a.toInt
    let vb : Int := if uns then b.toNat else b.toInt
    let t := if sub then va - vb else va + vb
    let c := if uns then clampInt 0 (2 ^ 32 - 1) t else clampInt (-(2 ^ 31)) (2 ^ 31 - 1) t
    { val := BitVec.ofInt 32 c.1, flags := flagIf c.2 flSAT }

/-- IMULH, SMULH (06 R124, 09 R192). -/
def mulHigh (uns : Bool) (a b : Word) : Word :=
  if uns then BitVec.ofNat 32 ((a.toNat * b.toNat) >>> 32) else BitVec.ofInt 32 ((a.toInt * b.toInt) / 2 ^ 32)

/-- a < b, signed or unsigned. -/
def iLess (uns : Bool) (a b : Word) : Bool := if uns then a.ult b else a.slt b

/-- ICMP (06 R125). -/
def iCmp (c : Cond) (uns : Bool) (a b : Word) : Bool :=
  match c with
  | .eq => a == b
  | .ne => a != b
  | .lt => iLess uns a b
  | .le => !iLess uns b a
  | .gt => iLess uns b a
  | .ge => !iLess uns a b
  | .ord | .uno => false

/-- SHL, SSHL: 0 from a shift of 32 on (06 R126). -/
def shiftL (a n : Word) : Word := if n.toNat < 32 then a <<< n.toNat else 0
/-- SHR, SSHR. -/
def shiftR (a n : Word) : Word := if n.toNat < 32 then a >>> n.toNat else 0
/-- SAR, SSAR. -/
def shiftA (a n : Word) : Word := a.sshiftRight (min n.toNat 31)

/-- POPC (06 R127). -/
def popCount (w : Nat) (x : Nat) : Nat := ((List.range w).filter fun k => x.testBit k).length

/-- CLZ (06 R127). -/
def leadZeros (x : Word) : Nat := if x == 0 then 32 else 31 - Nat.log2 x.toNat

/-- BREV (06 R127). -/
def bitRev (x : Word) : Word := BitVec.ofNat 32 ((List.range 32).foldr (fun k acc => 2 * acc + (if x.getLsbD (31 - k) then 1 else 0)) 0)

/-- BFE (06 R127). -/
def bitExtract (uns : Bool) (a b c : Word) : Word :=
  let p := min (bits b.toNat 0 8) 32
  let w := min (bits c.toNat 0 8) (32 - p)
  if w == 0 then 0
  else
    let f := bits a.toNat p w
    if !uns && f.testBit (w - 1) then BitVec.ofInt 32 ((f : Int) - 2 ^ w) else BitVec.ofNat 32 f

/-- BFI (06 R127). -/
def bitInsert (a b c : Word) : Word :=
  let p := min (bits c.toNat 0 8) 32
  let w := min (bits c.toNat 8 8) (32 - p)
  let field : Word := BitVec.ofNat 32 ((2 ^ w - 1) <<< p)
  (b &&& ~~~field) ||| ((a <<< p) &&& field)

/-- HASH (06 R135). -/
def hashStep (a b : Word) : Word :=
  let h := a ^^^ (b * 0x9E3779B9#32)
  let h := h ^^^ (h >>> 16)
  let h := h * 0x85EBCA6B#32
  let h := h ^^^ (h >>> 13)
  let h := h * 0xC2B2AE35#32
  h ^^^ (h >>> 16)

/-! ### Conversion (06 R128) -/

/-- The integer range of INT8 and INT32 (04 R69). -/
def intRange (f : Fmt) : Int × Int := if f == .s8 then (-128, 127) else (-(2 ^ 31), 2 ^ 31 - 1)

/-- CVT of one lane (06 R128, 04 R77, R78, 22 R401). An infinity that keeps its format is copied with `.sat` too (DEDUCED, log 101); one that goes to an
integer raises NV and not SAT (DEDUCED, log 43). -/
def convert (t s : Fmt) (rm : RMode) (sat : Bool) (a : Word) : Res :=
  let x := a.toNat % 2 ^ s.width
  if t.isFloat then
    if s == t then
      if s.isNaN x then { val := BitVec.ofNat 32 t.nan, flags := flagIf (s.isSNaN x || t == .e4m3) flNV }
      else { val := BitVec.ofNat 32 x }
    else
      match s.val x with
      | .nan => { val := BitVec.ofNat 32 t.nan, flags := flagIf (s.isSNaN x || t == .e4m3 || t == .e2m1) flNV }
      | v => t.round rm sat v
  else if s == .s8 || s == .s32 then
    let i := if s == .s8 then (BitVec.ofNat 8 x).toInt else (BitVec.ofNat 32 x).toInt
    if t == .s8 then
      if sat then
        let c := clampInt (-128) 127 i
        { val := BitVec.ofInt 32 c.1, flags := flagIf c.2 flSAT }
      else { val := (BitVec.ofInt 8 i).signExtend 32 }
    else { val := BitVec.ofInt 32 i }
  else
    match s.val x with
    | .nan => { val := 0, flags := flNV }
    | .inf neg => { val := BitVec.ofInt 32 (if neg then (intRange t).1 else (intRange t).2), flags := flNV }
    | .num neg m e =>
      let r := roundInt rm neg m e
      let c := clampInt (intRange t).1 (intRange t).2 r.1
      { val := BitVec.ofInt 32 c.1, flags := flagIf r.2 flNX ||| flagIf c.2 flSAT }

/-! ### Block scales and narrowing (04 R86, R87) -/

/-- scode of a block from its active sources, and the flag SCL (04 R86, 22 R400). -/
def blockScale (f : Fmt) (vs : List Word) : Nat × Word :=
  if vs.any fun v => bits v.toNat 23 8 == 255 then (0xFF, flSCL)
  else
    let amax := vs.foldl (fun a v => max a (bits v.toNat 0 31)) 0
    if amax == 0 then (0x7F, 0)
    else
      match Fmt.f32.val amax with
      | .num _ m e =>
        let x := (Nat.log2 m : Int) + e - f.emax
        let c := clampInt (-127) 127 x
        ((c.1 + 127).toNat, flagIf c.2 flSCL)
      | _ => (0xFF, flSCL)

/-- The value and exponent of y = v × 2^(127 − scode) + carry, with the sign of a zero (04 R87). -/
def narrowSum (rd : Bool) (v : Word) (scode : Nat) (carry : Int × Int) : Ex :=
  match Fmt.f32.val v.toNat with
  | .num n m e =>
    let y : Ex := .num n m (e + 127 - scode)
    if carry.1 == 0 then y else if m == 0 then exInt carry.1 carry.2 else y.add rd (exInt carry.1 carry.2)
  | x => x

/-- Element codes of the active lanes of a block, ascending (04 R87): lane values in order, the carry as mantissa and exponent. -/
def narrowBlock (f : Fmt) (rm : RMode) (sat fb : Bool) (scode : Nat) : (Int × Int) → List Word → List Res
  | _, [] => []
  | carry, v :: t =>
    if scode == 0xFF then
      { val := 0
        flags := flagIf (Fmt.f32.isSNaN v.toNat || (Fmt.f32.isNaN v.toNat && f != .e5m2)) flNV } ::
        narrowBlock f rm sat fb scode (0, 0) t
    else
      let y := narrowSum (rm == .rd) v scode carry
      let r := f.round rm sat y
      let next : Int × Int :=
        if fb then
          match y, f.val r.val.toNat with
          | .num n m e, .num n' m' e' =>
            let q := min e e'
            (sgn n m * 2 ^ (e - q).toNat - sgn n' m' * 2 ^ (e' - q).toNat, q)
          | _, _ => (0, 0)
        else (0, 0)
      r :: narrowBlock f rm sat fb scode next t

/-! ### Scan and reduce (06 R133) -/

/-- Identity of a scan operation. -/
def scanIdentity : ScanOp → Word
  | .iadd | .fadd | .umax | .or | .xor => 0
  | .smin => 0x7FFFFFFF
  | .smax => 0x80000000
  | .umin | .and => 0xFFFFFFFF
  | .fmin => 0x7F800000
  | .fmax => 0xFF800000

/-- One step of a scan: x op y with x the running value. -/
def scanStep (op : ScanOp) (x y : Word) : Res :=
  match op with
  | .iadd => { val := x + y }
  | .fadd => fAdd .f32 .rn x.toNat y.toNat
  | .smin => { val := if y.slt x then y else x }
  | .smax => { val := if x.slt y then y else x }
  | .umin => { val := if y.ult x then y else x }
  | .umax => { val := if x.ult y then y else x }
  | .fmin => fMin .f32 x.toNat y.toNat
  | .fmax => fMax .f32 x.toNat y.toNat
  | .and => { val := x &&& y }
  | .or => { val := x ||| y }
  | .xor => { val := x ^^^ y }

/-- The operation reads binary32 values (05 R93). -/
def scanFloat : ScanOp → Bool
  | .fadd | .fmin | .fmax => true
  | _ => false

/-- The running values before and after each active lane, in order. -/
def scanRun (op : ScanOp) : Res → List Word → List (Res × Res)
  | _, [] => []
  | acc, v :: t =>
    let r := scanStep op acc.val v
    let n : Res := { val := r.val, flags := acc.flags ||| r.flags }
    (acc, n) :: scanRun op n t

/-! ### Sorting keys (06 R132) -/

/-- A key as an unsigned number in its order: totalOrder for binary32. -/
def sortKeyOf : SortKey → Word → Nat
  | .u32, x => x.toNat
  | .s32, x => (x ^^^ 0x80000000#32).toNat
  | .f32, x => if x.getLsbD 31 then (~~~x).toNat else x.toNat + 2 ^ 31

/-! ### Atomic operations (07 R151) -/

/-- The new value of an atomic operation from the old value, the operand and the compare value, on 32 or 64 bits. -/
def atomNew (op : AtomOp) (wd : Bool) (v a c : DWord) : DWord :=
  let less (uns : Bool) (x y : DWord) : Bool :=
    if wd then (if uns then x.ult y else x.slt y) else iLess uns (x.setWidth 32) (y.setWidth 32)
  let r : DWord := match op with
    | .add => v + a
    | .smin => if less false a v then a else v
    | .smax => if less false v a then a else v
    | .umin => if less true a v then a else v
    | .umax => if less true v a then a else v
    | .and => v &&& a
    | .or => v ||| a
    | .xor => v ^^^ a
    | .exch => a
    | .cas => if v == c then a else v
    | .fadd =>
      let x := bits v.toNat 0 32
      let y := bits a.toNat 0 32
      if Fmt.f32.isNaN x || Fmt.f32.isNaN y then 0x7FC00000 else (fAdd .f32 .rn x y).val.setWidth 64
    | .fmax =>
      let x := bits v.toNat 0 32
      let y := bits a.toNat 0 32
      if Fmt.f32.isNaN x || Fmt.f32.isNaN y then 0x7FC00000 else (fMax .f32 x y).val.setWidth 64
  if wd then r else (r.setWidth 32).setWidth 64

end Sys2Proof.Machine
end

