-- ==== Sys2Proof/Machine/Approx.lean ====
section
/-!
DEFINITION. The transcendental instructions (06 R122). The spec states special results, exact cases and error bounds, and no bits: a
result that it leaves open is the free value of Config where that value meets the bounds, and otherwise the exact value rounded.
Real functions are evaluated in fixed point with far more bits than a bound can tell apart; a bound is never taken tighter than the
spec's.
-/
namespace Sys2Proof.Machine

/-- Fraction bits of the fixed-point values. -/
def fxBits : Nat := 400

/-- One in fixed point. -/
def fxOne : Int := 2 ^ fxBits

/-- Product. -/
def fxMul (a b : Int) : Int := a * b / fxOne

/-- Quotient. -/
def fxDiv (a b : Int) : Int := a * fxOne / b

/-- m × 2^e for e from −fxBits up. -/
def fxOf (neg : Bool) (m : Nat) (e : Int) : Int :=
  sgn neg (if 0 ≤ e + fxBits then m <<< (e + fxBits).toNat else m >>> (-(e + fxBits)).toNat)

/-- Sum of `n` terms of a series in which term k + 1 is term k times `z` divided by `d k`. -/
def fxSeries (z : Int) (d : Nat → Int) : Nat → Nat → Int → Int
  | 0, _, _ => 0
  | n + 1, k, t => t + fxSeries z d n (k + 1) (fxMul t z / d k)

/-- e^t for 0 ≤ t ≤ 41. -/
def fxExp (t : Int) : Int := fxSeries t (fun k => (k : Int) + 1) 500 0 fxOne

/-- Sum of z^(2k+1) / (2k+1), with sign (−1)^k for `alt`. -/
def fxOdd (z : Int) (alt : Bool) : Nat → Nat → Int → Int
  | 0, _, _ => 0
  | n + 1, k, p => (if alt && k % 2 == 1 then -1 else 1) * (p / (2 * k + 1)) + fxOdd z alt n (k + 1) (fxMul (fxMul p z) z)

/-- Natural logarithm of a value from 1 to 2. -/
def fxLn (m : Int) : Int :=
  let z := fxDiv (m - fxOne) (m + fxOne)
  2 * fxOdd z false 150 0 z

/-- ln 2. -/
def fxLn2 : Int := fxLn (2 * fxOne)

/-- π by Machin's formula. -/
def fxPi : Int :=
  16 * fxOdd (fxOne / 5) true 150 0 (fxOne / 5) - 4 * fxOdd (fxOne / 239) true 60 0 (fxOne / 239)

/-- An angle brought to −π … π. -/
def fxReduce (x : Int) : Int :=
  let r := x % (2 * fxPi)
  if fxPi < r then r - 2 * fxPi else r

/-- sin of an angle. -/
def fxSin (x : Int) : Int :=
  let t := fxReduce x
  fxSeries (-(fxMul t t)) (fun k => (2 * k + 2) * (2 * k + 3)) 100 0 t

/-- cos of an angle. -/
def fxCos (x : Int) : Int :=
  let t := fxReduce x
  fxSeries (-(fxMul t t)) (fun k => (2 * k + 1) * (2 * k + 2)) 100 0 fxOne

/-- tanh. -/
def fxTanh (neg : Bool) (m : Nat) (e : Int) : Int :=
  let a := fxOf false m e
  let y := if 20 * fxOne < a then fxOne - 1 else
    let x := fxExp (2 * a)
    fxDiv (x - fxOne) (x + fxOne)
  if neg then -y else y

/-- 2^x for x from −160 to 128; below, 0. -/
def fxExp2 (x : Int) : Int :=
  let k := x / fxOne
  if k < -160 then 0
  else
    let y := fxExp (fxMul (x - k * fxOne) fxLn2)
    if 0 ≤ k then y <<< k.toNat else y >>> (-k).toNat

/-- log2 of m × 2^e. -/
def fxLog2 (m : Nat) (e : Int) : Int :=
  let l := Nat.log2 m
  ((l : Int) + e) * fxOne + fxDiv (fxLn (fxOf false m (-(l : Int)))) fxLn2

/-- ulp(y) (06 R122). -/
def fxUlp (y : Int) : Int :=
  let e : Int := if y == 0 then -126 else (Nat.log2 y.natAbs : Int) - fxBits
  2 ^ (max e (-126) - 23 + fxBits).toNat

/-- Room for what fixed point loses. -/
def fxSlack : Int := 2 ^ (fxBits - 220)

/-- The result with encoding `r` lies within `bound` of `y`; an infinity counts as 2^128. -/
def fxNear (y bound : Int) (r : Nat) : Bool :=
  match Fmt.f32.val r with
  | .num n m e => (fxOf n m e - y).natAbs ≤ (bound + fxSlack).natAbs
  | .inf n => (sgn n (2 ^ 128) * fxOne - y).natAbs ≤ (bound + fxSlack).natAbs
  | .nan => false

/-- `y` rounded to binary32. -/
def fxRound (y : Int) : Word := (Fmt.f32.round .rn false (exInt y (-(fxBits : Int)))).val

/-- A result left open within a bound around `y`: the free value of Config where it meets the bound (DESIGN CHOICE, log 21). -/
def openWithin (k : Nat) (x : Word) (y : Int) (ok : Nat → Bool) : Word :=
  let w := Config.transcendental k x
  if ok w.toNat then w else fxRound y

/-- Flags of a result that is not exact: overflow to an infinity, underflow, inexact. -/
def openFlags (r : Word) (of uf : Bool) : Word :=
  flNX ||| flagIf (of && bits r.toNat 0 31 == 0x7F800000) flOF ||| flagIf (uf && bits r.toNat 0 31 < 0x00800000) flUF

/-- A power of two as a binary32 result, when it is one. -/
def powerOfTwo (neg : Bool) (k : Int) : Word := (Fmt.f32.roundMag .rn false neg 1 k).val

/-- The exponent of a magnitude that is a power of two. -/
def isPower (m : Nat) (e : Int) : Option Int := if m == 2 ^ Nat.log2 m then some (Nat.log2 m + e) else none

/-- The common cases: a NaN operand (04 R73), an invalid operand (06 R122), or a value. -/
def transc (x : Word) (invalid : Ex → Bool) (k : Ex → Res) : Res :=
  nanOr .f32 [x.toNat] false
    (let v := Fmt.f32.val x.toNat
     if invalid v then { val := 0x7FC00000#32, flags := flNV } else k v)

/-- A nonzero negative value or −∞. -/
def belowZero : Ex → Bool
  | .num n m _ => n && m != 0
  | .inf n => n
  | .nan => false

/-- An infinity. -/
def isInf : Ex → Bool
  | .inf _ => true
  | _ => false

/-- A reciprocal of magnitude 2^128 or more: at 2^128 what lies within 1 ulp; beyond it no binary32 value does, and the spec states no result:
any value but a NaN of another form than the canonical one (04 R72, R73). DESIGN CHOICE: log 21. -/
def beyondOk (y : Int) (r : Nat) : Bool :=
  if y.natAbs == (2 ^ 128 * fxOne).natAbs then fxNear y (fxUlp y) r else !Fmt.f32.isNaN r || r == Fmt.f32.nan

/-- FRCP. -/
def fRcp (x : Word) : Res :=
  transc x (fun _ => false) fun
    | .inf n => { val := BitVec.ofNat 32 (Fmt.f32.signBit n) }
    | .num n m e =>
      if m == 0 then { val := BitVec.ofNat 32 (Fmt.f32.signBit n + 0x7F800000), flags := flDZ }
      else
        let y := sgn n ((2 ^ (fxBits - e).toNat) / m)
        if 2 ^ 128 * fxOne ≤ y.natAbs then { val := openWithin 0 x y (beyondOk y), flags := flNX }
        else
          match isPower m e with
          | some k => { val := powerOfTwo n (-k) }
          | none => { val := openWithin 0 x y (fxNear y (fxUlp y)), flags := flNX }
    | .nan => { val := x }

/-- FRSQ. -/
def fRsq (x : Word) : Res :=
  transc x belowZero fun
    | .inf _ => { val := 0 }
    | .num n m e =>
      if m == 0 then { val := BitVec.ofNat 32 (Fmt.f32.signBit n + 0x7F800000), flags := flDZ }
      else
        match isPower m e with
        | some k =>
          if k % 2 == 0 then { val := powerOfTwo false (-(k / 2)) }
          else
            let y : Int := isqrt (2 ^ (2 * fxBits - e).toNat / m)
            { val := openWithin 1 x y (fxNear y (fxUlp y)), flags := flNX }
        | none =>
          let y : Int := isqrt (2 ^ (2 * fxBits - e).toNat / m)
          { val := openWithin 1 x y (fxNear y (fxUlp y)), flags := flNX }
    | .nan => { val := x }

/-- FEXP2. -/
def fExp2 (x : Word) : Res :=
  transc x (fun _ => false) fun
    | .inf n => { val := if n then 0 else 0x7F800000#32 }
    | .num n m e =>
      let v := fxOf n m e
      if m == 0 then { val := 0x3F800000#32 }
      else if !n && 128 * fxOne ≤ v then { val := 0x7F800000#32, flags := flOF ||| flNX }
      else if v % fxOne == 0 && -149 ≤ v / fxOne && fxOf n m e == (v / fxOne) * fxOne then
        { val := powerOfTwo false (v / fxOne) }
      else
        let y := fxExp2 v
        let r := openWithin 2 x y fun r => !r.testBit 31 && fxNear y (2 * fxUlp y) r
        { val := r, flags := openFlags r true true }
    | .nan => { val := x }

/-- FLOG2. -/
def fLog2 (x : Word) : Res :=
  transc x belowZero fun
    | .inf _ => { val := 0x7F800000#32 }
    | .num _ m e =>
      if m == 0 then { val := 0xFF800000#32, flags := flDZ }
      else
        match isPower m e with
        | some k => { val := (Fmt.f32.round .rn false (exInt k 0)).val }
        | none =>
          let y := fxLog2 m e
          { val := openWithin 3 x y (fxNear y (2 * fxUlp y)), flags := flNX }
    | .nan => { val := x }

/-- FSIN. -/
def fSin (x : Word) : Res :=
  transc x isInf fun
    | .num n m e =>
      if m == 0 then { val := x }
      else
        let y := fxSin (fxOf n m e)
        let small := fxOf false m e < 2 ^ (fxBits - 10)
        let r := openWithin 4 x y fun r => fxNear y (2 ^ (fxBits - 22)) r && (!small || fxNear y (fxUlp y) r)
        { val := r, flags := openFlags r false true }
    | _ => { val := x }

/-- FCOS. -/
def fCos (x : Word) : Res :=
  transc x isInf fun
    | .num n m e =>
      if m == 0 then { val := 0x3F800000#32 }
      else
        let y := fxCos (fxOf n m e)
        let r := openWithin 5 x y (fxNear y (2 ^ (fxBits - 22)))
        { val := r, flags := openFlags r false true }
    | _ => { val := x }

/-- FTANH: no value above 1 lies within 2 ulp of one below 1. -/
def fTanh (x : Word) : Res :=
  transc x (fun _ => false) fun
    | .inf n => { val := BitVec.ofNat 32 (Fmt.f32.signBit n + 0x3F800000) }
    | .num n m e =>
      if m == 0 then { val := x }
      else
        let y := fxTanh n m e
        let r := openWithin 6 x y fun r => fxNear y (2 * fxUlp y) r && bits r 0 31 ≤ 0x3F800000
        { val := r, flags := openFlags r false true }
    | .nan => { val := x }

end Sys2Proof.Machine
end

