-- ==== Sys2Proof/Decode.lean ====
section
/-!
DEFINITION. The bits of a bundle read as instructions (05 R88 to R105), with what is wrong with an encoding (22 R384 to R391),
and the encoder from the same tables. Fields of a slot are judged in ascending position of their lowest bit (22 R384).
-/
namespace Sys2Proof

/-- What is wrong with an encoding: REASON, FPOS and VALUE of 22 R385. -/
structure Prob where
  reason : BitVec 8
  fpos : BitVec 8
  value : BitVec 16
deriving DecidableEq, Repr

/-- The CODE of an ILLEGAL trap (22 R385). -/
def Prob.code (p : Prob) : BitVec 32 := p.value ++ p.fpos ++ p.reason

/-- Refuse a field: reason, lowest bit, offending value. -/
def bad {α : Type} (reason fpos value : Nat) : Except Prob α :=
  .error ⟨BitVec.ofNat 8 reason, BitVec.ofNat 8 fpos, BitVec.ofNat 16 value⟩

/-- Refuse a field unless the condition holds. -/
def need (c : Bool) (reason fpos value : Nat) : Except Prob Unit := if c then .ok () else bad reason fpos value

/-! ### Codes of the fields -/

/-- Bits of an operand field (05 R92). -/
def Opd.enc : Opd → BitVec 11
  | .v i n => 0#4 ++ BitVec.ofBool i ++ n
  | .s n => 1#2 ++ n
  | .nil => 0x400#11
  | .dv k => 0x401#11 + k.setWidth 11
  | .dc k => 0x405#11 + k.setWidth 11
  | .m n => 0x408#11 + n.setWidth 11
  | .imm i => 3#2 ++ i

/-- An operand field read (05 R92); none for a reserved special or a vector register with bits [8:7] set. -/
def Opd.dec (x : BitVec 11) : Option Opd :=
  let n := x.setWidth 9
  match (x.extractLsb' 9 2).toNat with
  | 0 => if x.extractLsb' 7 2 == 0#2 then some (.v (x.getLsbD 6) (x.setWidth 6)) else none
  | 1 => some (.s n)
  | 2 =>
    if n == 0#9 then some .nil
    else if n.ult 5#9 then some (.dv (x.setWidth 2 - 1#2))
    else if n.ult 7#9 then some (.dc (x.setWidth 1 - 1#1))
    else if n.ult 8#9 then none
    else if n.ult 16#9 then some (.m (x.setWidth 3))
    else none
  | _ => some (.imm n)

/-- An operand field in position `pos`: kinds not accepted and reserved specials are refused (22 R386). -/
def operand (u : FUse) (pos : Nat) (x : BitVec 11) : Except Prob Opd :=
  if u == .off then do
    need (x == 0#11) 0x03 pos x.toNat
    pure .nil
  else
    match Opd.dec x with
    | none => bad 0x05 pos x.toNat
    | some o => if u.ok o then pure o else bad 0x04 pos x.toNat

/-- Bits of an operand field under its use: an unused field holds zero. -/
def FUse.enc (u : FUse) (o : Opd) : BitVec 11 := if u == .off then 0#11 else o.enc

/-- The mask register of a mask operand. -/
def Opd.mask : Opd → BitVec 3
  | .m n => n
  | _ => 0#3

/-- The uniform register of a uniform operand. -/
def Opd.uni : Opd → BitVec 9
  | .s n => n
  | _ => 0#9

/-- Rounding modes (04 R74). -/
def RMode.enc : RMode → BitVec 2
  | .rn => 0#2 | .rz => 1#2 | .rd => 2#2 | .ru => 3#2

/-- Rounding modes (04 R74). -/
def RMode.dec (x : BitVec 2) : RMode :=
  match x.toNat with
  | 0 => .rn | 1 => .rz | 2 => .rd | _ => .ru

/-- Format codes (04 R68); INT8 is 0x6, INT32 0x7, CB2 0x8, E8M0 0x9. -/
def Fmt.enc : Fmt → BitVec 4
  | .f32 => 0#4 | .f16 => 1#4 | .bf16 => 2#4 | .e4m3 => 3#4 | .e5m2 => 4#4 | .e2m1 => 5#4 | .s8 => 6#4 | .s32 => 7#4
  | .cb2 => 8#4 | .e8m0 => 9#4

/-- Format codes (04 R68). -/
def Fmt.dec (x : BitVec 4) : Option Fmt :=
  match x.toNat with
  | 0 => some .f32 | 1 => some .f16 | 2 => some .bf16 | 3 => some .e4m3 | 4 => some .e5m2 | 5 => some .e2m1
  | 6 => some .s8 | 7 => some .s32 | 8 => some .cb2 | 9 => some .e8m0 | _ => none

/-- Conditions (06 R120). -/
def Cond.enc : Cond → BitVec 4
  | .eq => 0#4 | .ne => 1#4 | .lt => 2#4 | .le => 3#4 | .gt => 4#4 | .ge => 5#4 | .ord => 6#4 | .uno => 7#4

/-- Conditions (06 R120). -/
def Cond.dec (x : BitVec 4) : Option Cond :=
  match x.toNat with
  | 0 => some .eq | 1 => some .ne | 2 => some .lt | 3 => some .le | 4 => some .gt | 5 => some .ge | 6 => some .ord
  | 7 => some .uno | _ => none

/-- Operations of SCAN and REDUCE (06 R133). -/
def ScanOp.enc : ScanOp → BitVec 4
  | .iadd => 0#4 | .fadd => 1#4 | .smin => 2#4 | .smax => 3#4 | .umin => 4#4 | .umax => 5#4 | .fmin => 6#4
  | .fmax => 7#4 | .and => 8#4 | .or => 9#4 | .xor => 10#4

/-- Operations of SCAN and REDUCE (06 R133). -/
def ScanOp.dec (x : BitVec 4) : Option ScanOp :=
  match x.toNat with
  | 0 => some .iadd | 1 => some .fadd | 2 => some .smin | 3 => some .smax | 4 => some .umin | 5 => some .umax
  | 6 => some .fmin | 7 => some .fmax | 8 => some .and | 9 => some .or | 10 => some .xor | _ => none

/-- FA of SORT2 (06 R132). -/
def SortKey.enc : SortKey → BitVec 2
  | .u32 => 0#2 | .s32 => 1#2 | .f32 => 2#2

/-- FA of SORT2 (06 R132): key in [2:1], direction in [0]. -/
def SortKey.dec (x : BitVec 4) : Option (SortKey × Bool) :=
  match (x.extractLsb' 1 3).toNat with
  | 0 => some (.u32, x.getLsbD 0) | 1 => some (.s32, x.getLsbD 0) | 2 => some (.f32, x.getLsbD 0) | _ => none

/-- Operations of VOTE (06 R134). -/
def VoteOp.enc : VoteOp → BitVec 4
  | .any => 0#4 | .all => 1#4 | .bal q => 2#4 + q.setWidth 4 | .count => 6#4 | .first => 7#4

/-- Operations of VOTE (06 R134). -/
def VoteOp.dec (x : BitVec 4) : Option VoteOp :=
  match x.toNat with
  | 0 => some .any | 1 => some .all | 2 => some (.bal 0#2) | 3 => some (.bal 1#2) | 4 => some (.bal 2#2)
  | 5 => some (.bal 3#2) | 6 => some .count | 7 => some .first | _ => none

/-- SUB of the loads and stores (05 R98). -/
def Width.enc : Width → BitVec 4
  | .w8 => 0#4 | .w8sx => 1#4 | .w16 => 2#4 | .w16sx => 3#4 | .w32 => 4#4 | .w64 => 5#4 | .w128 => 6#4

/-- SUB of the loads and stores (05 R98). -/
def Width.dec (x : BitVec 4) : Option Width :=
  match x.toNat with
  | 0 => some .w8 | 1 => some .w8sx | 2 => some .w16 | 3 => some .w16sx | 4 => some .w32 | 5 => some .w64
  | 6 => some .w128 | _ => none

/-- Scope codes (05 R98). -/
def Scope.enc : Scope → BitVec 4
  | .lane => 0#4 | .board => 1#4 | .bent => 2#4 | .core => 3#4 | .bay => 4#4 | .frame => 5#4 | .package => 6#4
  | .node => 7#4 | .pod => 8#4 | .system => 9#4

/-- Scope codes (05 R98). -/
def Scope.dec (x : BitVec 4) : Option Scope :=
  match x.toNat with
  | 0 => some .lane | 1 => some .board | 2 => some .bent | 3 => some .core | 4 => some .bay | 5 => some .frame
  | 6 => some .package | 7 => some .node | 8 => some .pod | 9 => some .system | _ => none

/-- SC of a form that also takes 0xF, the record's default (05 R98). -/
def encSc : Option Scope → BitVec 4
  | none => 15#4
  | some s => s.enc

/-- Orders of a fence (05 R98). -/
def Order.enc : Order → BitVec 4
  | .acq => 0#4 | .rel => 1#4 | .ar => 2#4 | .sc => 3#4

/-- Orders of a fence (05 R98). -/
def Order.dec (x : BitVec 4) : Option Order :=
  match x.toNat with
  | 0 => some .acq | 1 => some .rel | 2 => some .ar | 3 => some .sc | _ => none

/-- Path codes (05 R98). -/
def PathK.enc : PathK → BitVec 2
  | .board => 0#2 | .copy => 1#2 | .matrix => 2#2 | .route => 3#2

/-- Path codes (05 R98). -/
def PathK.dec (x : BitVec 2) : PathK :=
  match x.toNat with
  | 0 => .board | 1 => .copy | 2 => .matrix | _ => .route

/-- SUB of the atomics (07 R151). -/
def AtomOp.enc : AtomOp → BitVec 4
  | .add => 0#4 | .smin => 1#4 | .smax => 2#4 | .umin => 3#4 | .umax => 4#4 | .and => 5#4 | .or => 6#4 | .xor => 7#4
  | .exch => 8#4 | .cas => 9#4 | .fadd => 10#4 | .fmax => 11#4

/-- SUB of the atomics (07 R151). -/
def AtomOp.dec (x : BitVec 4) : Option AtomOp :=
  match x.toNat with
  | 0 => some .add | 1 => some .smin | 2 => some .smax | 3 => some .umin | 4 => some .umax | 5 => some .and
  | 6 => some .or | 7 => some .xor | 8 => some .exch | 9 => some .cas | 10 => some .fadd | 11 => some .fmax | _ => none

/-- Peg fields (05 R94). -/
def encPeg : Option (BitVec 3) → BitVec 4
  | none => 0#4
  | some p => 1#1 ++ p

/-- A peg field in position `pos` (05 R94). `req`: the operation has a register destination (03 R50, 22 R385 REASON 0x07). -/
def pegField (req : Bool) (pos : Nat) (x : BitVec 4) : Except Prob (Option (BitVec 3)) :=
  if x.getLsbD 3 then pure (some (x.setWidth 3))
  else if x == 0#4 then (if req then bad 0x07 pos 0 else pure none)
  else bad 0x02 pos x.toNat

/-- SUB of CPA (08 R167). -/
def CpaWidth.enc : CpaWidth → BitVec 4
  | .w4 => 0#4 | .w8 => 1#4 | .w16 => 2#4

/-- SUB of CPA (08 R167). -/
def CpaWidth.dec (x : BitVec 4) : Option CpaWidth :=
  match x.toNat with
  | 0 => some .w4 | 1 => some .w8 | 2 => some .w16 | _ => none

/-- SUB of ROUTE.STAT (11 R253). -/
def StatSel.enc : StatSel → BitVec 4
  | .lkept => 0#4 | .ldrop => 1#4 | .lnone => 2#4 | .dwrit => 3#4 | .dlovf => 4#4 | .total => 5#4 | .kept => 6#4
  | .edrop => 7#4 | .ovf => 8#4 | .offset => 9#4

/-- SUB of ROUTE.STAT (11 R253). -/
def StatSel.dec (x : BitVec 4) : Option StatSel :=
  match x.toNat with
  | 0 => some .lkept | 1 => some .ldrop | 2 => some .lnone | 3 => some .dwrit | 4 => some .dlovf | 5 => some .total
  | 6 => some .kept | 7 => some .edrop | 8 => some .ovf | 9 => some .offset | _ => none

/-! ### The vector slot (05 R95, R96) -/

/-- The fields of the V3 form (05 R95). -/
structure V3 where
  op : BitVec 7
  d : BitVec 11
  a : BitVec 11
  b : BitVec 11
  c : BitVec 11
  rm : BitVec 2
  sat : BitVec 1
  fa : BitVec 4
  fb : BitVec 4
  top : BitVec 2
deriving DecidableEq, Repr

/-- The fields of a vector slot (05 R95). -/
def V3.ofWord (w : DWord) : V3 :=
  ⟨w.extractLsb' 0 7, w.extractLsb' 7 11, w.extractLsb' 18 11, w.extractLsb' 29 11, w.extractLsb' 40 11,
    w.extractLsb' 51 2, w.extractLsb' 53 1, w.extractLsb' 54 4, w.extractLsb' 58 4, w.extractLsb' 62 2⟩

/-- The vector slot of the fields (05 R95). -/
def V3.word (r : V3) : DWord := r.top ++ r.fb ++ r.fa ++ r.sat ++ r.rm ++ r.c ++ r.b ++ r.a ++ r.d ++ r.op

/-- What an instruction of the V3 form uses: the operand fields, RM, SAT, and the values of FA and FB it admits
(06 R112 to R136, 22 R387). FA is judged with FB beside it, FB with SAT and FA beside it. -/
structure VShape where
  d : FUse := .off
  a : FUse := .off
  b : FUse := .off
  c : FUse := .off
  rm : Bool := false
  sat : Bool := false
  fa : Option (BitVec 4 → BitVec 4 → Bool) := none
  fb : Option (BitVec 1 → BitVec 4 → BitVec 4 → Bool) := none

/-- The operands of a V3 instruction. -/
structure VArgs where
  d : Opd
  a : Opd
  b : Opd
  c : Opd
  rm : RMode
  sat : Bool
  fa : BitVec 4
  fb : BitVec 4

/-- The fields of a V3 slot judged and read in ascending position (22 R384, R386, R387). -/
def V3.args (r : V3) (s : VShape) : Except Prob VArgs := do
  let d ← operand s.d 7 r.d
  let a ← operand s.a 18 r.a
  let b ← operand s.b 29 r.b
  let c ← operand s.c 40 r.c
  need (s.rm || r.rm == 0#2) 0x03 51 r.rm.toNat
  need (s.sat || r.sat == 0#1) 0x03 53 r.sat.toNat
  match s.fa with
  | none => need (r.fa == 0#4) 0x03 54 r.fa.toNat
  | some f => need (f r.fa r.fb) 0x02 54 r.fa.toNat
  match s.fb with
  | none => need (r.fb == 0#4) 0x03 58 r.fb.toNat
  | some f => need (f r.sat r.fa r.fb) 0x02 58 r.fb.toNat
  need (r.top == 0#2) 0x03 62 r.top.toNat
  pure ⟨d, a, b, c, RMode.dec r.rm, r.sat == 1#1, r.fa, r.fb⟩

/-- The V3 fields of the operands. -/
def VArgs.fields (x : VArgs) (op : Nat) (s : VShape) : V3 :=
  ⟨BitVec.ofNat 7 op, s.d.enc x.d, s.a.enc x.a, s.b.enc x.b, s.c.enc x.c, x.rm.enc, BitVec.ofBool x.sat, x.fa, x.fb, 0#2⟩

/-- FB selects signedness (22 R387). SCAN's FB, of which 06 R133 names bit [0] alone, is held to the same two values. DESIGN CHOICE: log 123. -/
def fbSign : Option (BitVec 1 → BitVec 4 → BitVec 4 → Bool) := some fun _ _ b => b.ult 2#4
/-- FA holds a packed format (22 R387). -/
def faPacked : Option (BitVec 4 → BitVec 4 → Bool) := some fun a _ => a == 1#4 || a == 2#4
/-- FA holds a NARROW format (22 R387). -/
def faNarrow : Option (BitVec 4 → BitVec 4 → Bool) := some fun a _ => a == 3#4 || a == 4#4 || a == 5#4
/-- FA of CVT: a target of 06 R128, for the source in FB where FB is a source. -/
def faCvt : Option (BitVec 4 → BitVec 4 → Bool) := some fun a b => a.ult 8#4 && (b != 9#4 || a == 0#4)
/-- FB of CVT: a source of 06 R128. -/
def fbCvt : Option (BitVec 1 → BitVec 4 → BitVec 4 → Bool) := some fun _ _ b => b.ult 8#4 || b == 9#4

/-- Destination and one source. -/
def vDA : VShape := { d := .vdst, a := .src }
/-- Destination and two sources. -/
def vDAB : VShape := { d := .vdst, a := .src, b := .src }
/-- Destination and three sources. -/
def vDABC : VShape := { d := .vdst, a := .src, b := .src, c := .src }

/-- The vector slot opcode map: form and instruction of a code (05 R96); none where the code is unassigned. MOVI, the one VI
form, is read by itself. FB bits [3:1] of SCAN: DESIGN CHOICE: log 123. -/
def vecMap (op : Nat) : Option (VShape × (VArgs → Instr)) :=
  match op with
  | 0x01 => some (vDA, fun x => .mov x.d x.a)
  | 0x03 => some ({ vDAB with c := .mask }, fun x => .sel x.d x.a x.b x.c.mask)
  | 0x08 => some ({ vDAB with rm := true }, fun x => .fadd x.d x.a x.b x.rm)
  | 0x09 => some ({ vDAB with rm := true }, fun x => .fsub x.d x.a x.b x.rm)
  | 0x0A => some ({ vDAB with rm := true }, fun x => .fmul x.d x.a x.b x.rm)
  | 0x0B => some ({ vDABC with rm := true }, fun x => .ffma x.d x.a x.b x.c x.rm)
  | 0x0C => some (vDAB, fun x => .fmin x.d x.a x.b)
  | 0x0D => some (vDAB, fun x => .fmax x.d x.a x.b)
  | 0x0E => some (vDA, fun x => .fabs x.d x.a)
  | 0x0F => some (vDA, fun x => .fneg x.d x.a)
  | 0x10 => some ({ d := .mask, a := .src, b := .src, fa := some fun a _ => a.ult 8#4 }, fun x => .fcmp x.d.mask x.a x.b ((Cond.dec x.fa).getD .eq))
  | 0x11 => some (vDA, fun x => .fclass x.d x.a)
  | 0x18 => some (vDA, fun x => .frcp x.d x.a)
  | 0x19 => some (vDA, fun x => .frsq x.d x.a)
  | 0x1A => some ({ vDA with rm := true }, fun x => .fsqrt x.d x.a x.rm)
  | 0x1B => some (vDA, fun x => .fexp2 x.d x.a)
  | 0x1C => some (vDA, fun x => .flog2 x.d x.a)
  | 0x1D => some (vDA, fun x => .fsin x.d x.a)
  | 0x1E => some (vDA, fun x => .fcos x.d x.a)
  | 0x1F => some (vDA, fun x => .ftanh x.d x.a)
  | 0x20 => some ({ vDAB with rm := true, fa := faPacked }, fun x => .hadd2 x.d x.a x.b x.rm ((Fmt.dec x.fa).getD .f16))
  | 0x21 => some ({ vDAB with rm := true, fa := faPacked }, fun x => .hsub2 x.d x.a x.b x.rm ((Fmt.dec x.fa).getD .f16))
  | 0x22 => some ({ vDAB with rm := true, fa := faPacked }, fun x => .hmul2 x.d x.a x.b x.rm ((Fmt.dec x.fa).getD .f16))
  | 0x23 => some ({ vDABC with rm := true, fa := faPacked }, fun x => .hfma2 x.d x.a x.b x.c x.rm ((Fmt.dec x.fa).getD .f16))
  | 0x24 => some ({ vDAB with fa := faPacked }, fun x => .hmin2 x.d x.a x.b ((Fmt.dec x.fa).getD .f16))
  | 0x25 => some ({ vDAB with fa := faPacked }, fun x => .hmax2 x.d x.a x.b ((Fmt.dec x.fa).getD .f16))
  | 0x28 => some ({ vDAB with sat := true, fb := some fun s _ b => b == 0#4 || (s == 1#1 && b == 1#4) }, fun x => .iadd x.d x.a x.b x.sat (x.fb == 1#4))
  | 0x29 => some ({ vDAB with sat := true, fb := some fun s _ b => b == 0#4 || (s == 1#1 && b == 1#4) }, fun x => .isub x.d x.a x.b x.sat (x.fb == 1#4))
  | 0x2A => some (vDAB, fun x => .imul x.d x.a x.b)
  | 0x2B => some (vDABC, fun x => .imad x.d x.a x.b x.c)
  | 0x2C => some ({ vDAB with fb := fbSign }, fun x => .imulh x.d x.a x.b (x.fb == 1#4))
  | 0x2D => some ({ vDAB with fb := fbSign }, fun x => .imin x.d x.a x.b (x.fb == 1#4))
  | 0x2E => some ({ vDAB with fb := fbSign }, fun x => .imax x.d x.a x.b (x.fb == 1#4))
  | 0x2F => some ({ d := .mask, a := .src, b := .src, fa := some fun a _ => a.ult 6#4, fb := fbSign }, fun x => .icmp x.d.mask x.a x.b ((Cond.dec x.fa).getD .eq) (x.fb == 1#4))
  | 0x30 => some (vDAB, fun x => .and x.d x.a x.b)
  | 0x31 => some (vDAB, fun x => .or x.d x.a x.b)
  | 0x32 => some (vDAB, fun x => .xor x.d x.a x.b)
  | 0x33 => some (vDA, fun x => .not x.d x.a)
  | 0x34 => some (vDAB, fun x => .shl x.d x.a x.b)
  | 0x35 => some (vDAB, fun x => .shr x.d x.a x.b)
  | 0x36 => some (vDAB, fun x => .sar x.d x.a x.b)
  | 0x37 => some (vDA, fun x => .popc x.d x.a)
  | 0x38 => some (vDA, fun x => .clz x.d x.a)
  | 0x39 => some ({ vDABC with fb := fbSign }, fun x => .bfe x.d x.a x.b x.c (x.fb == 1#4))
  | 0x3A => some (vDABC, fun x => .bfi x.d x.a x.b x.c)
  | 0x3B => some (vDA, fun x => .brev x.d x.a)
  | 0x40 => some ({ vDA with rm := true, sat := true, fa := faCvt, fb := fbCvt }, fun x => .cvt x.d x.a x.rm x.sat ((Fmt.dec x.fa).getD .f32) ((Fmt.dec x.fb).getD .f32))
  | 0x41 => some ({ vDA with c := .uni, rm := true, sat := true, fa := faNarrow, fb := some fun _ _ b => b.ult 2#4 }, fun x => .narrow x.d x.a x.c.uni x.rm x.sat ((Fmt.dec x.fa).getD .e4m3) (x.fb == 1#4))
  | 0x42 => some ({ d := .uni, a := .src, fa := faNarrow }, fun x => .qscale x.d.uni x.a ((Fmt.dec x.fa).getD .e4m3))
  | 0x48 => some (vDAB, fun x => .shflIdx x.d x.a x.b)
  | 0x49 => some (vDAB, fun x => .shflUp x.d x.a x.b)
  | 0x4A => some (vDAB, fun x => .shflDown x.d x.a x.b)
  | 0x4B => some (vDAB, fun x => .shflXor x.d x.a x.b)
  | 0x4C => some ({ vDAB with b := .ukind }, fun x => .bcast x.d x.a x.b)
  | 0x4D => some ({ vDAB with b := .ukind }, fun x => .rot x.d x.a x.b)
  | 0x4E => some ({ vDAB with b := .ukind, fa := some fun a _ => a.ult 6#4 }, fun x => .sort2 x.d x.a x.b ((SortKey.dec x.fa).map (·.1) |>.getD .u32) (x.fa.getLsbD 0))
  | 0x50 => some ({ vDA with fa := some fun a _ => a.ult 11#4, fb := fbSign }, fun x => .scan x.d x.a ((ScanOp.dec x.fa).getD .iadd) (x.fb == 1#4))
  | 0x51 => some ({ vDA with fa := some fun a _ => a.ult 11#4, fb := some fun _ _ b => b == 0#4 }, fun x => .reduce x.d x.a ((ScanOp.dec x.fa).getD .iadd))
  | 0x52 => some ({ d := .uni, a := .mask, fa := some fun a _ => a.ult 8#4 }, fun x => .vote x.d.uni x.a.mask ((VoteOp.dec x.fa).getD .any))
  | 0x54 => some (vDAB, fun x => .hash x.d x.a x.b)
  | 0x58 => some ({ d := .mask, a := .mask, b := .mask }, fun x => .mand x.d.mask x.a.mask x.b.mask)
  | 0x59 => some ({ d := .mask, a := .mask, b := .mask }, fun x => .mor x.d.mask x.a.mask x.b.mask)
  | 0x5A => some ({ d := .mask, a := .mask, b := .mask }, fun x => .mxor x.d.mask x.a.mask x.b.mask)
  | 0x5B => some ({ d := .mask, a := .mask, b := .mask }, fun x => .mandn x.d.mask x.a.mask x.b.mask)
  | 0x5C => some ({ d := .mask, a := .mask }, fun x => .mnot x.d.mask x.a.mask)
  | 0x5D => some ({ d := .mask, a := .mask }, fun x => .mmov x.d.mask x.a.mask)
  | 0x5E => some ({ d := .mask, a := .ukind, b := .ukind }, fun x => .mlane x.d.mask x.a x.b)
  | 0x5F => some ({ d := .mask, a := .src }, fun x => .mbal x.d.mask x.a)
  | _ => none

/-- FB of a one-bit choice. -/
def signCode (u : Bool) : BitVec 4 := if u then 1#4 else 0#4

/-- Code and operands of a V3 instruction, from the same map (05 R96). -/
def vecEnc : Instr → Option (Nat × VArgs)
  | .mov d a => some (0x01, ⟨d, a, .nil, .nil, .rn, false, 0#4, 0#4⟩)
  | .sel d a b c => some (0x03, ⟨d, a, b, .m c, .rn, false, 0#4, 0#4⟩)
  | .fadd d a b rm => some (0x08, ⟨d, a, b, .nil, rm, false, 0#4, 0#4⟩)
  | .fsub d a b rm => some (0x09, ⟨d, a, b, .nil, rm, false, 0#4, 0#4⟩)
  | .fmul d a b rm => some (0x0A, ⟨d, a, b, .nil, rm, false, 0#4, 0#4⟩)
  | .ffma d a b c rm => some (0x0B, ⟨d, a, b, c, rm, false, 0#4, 0#4⟩)
  | .fmin d a b => some (0x0C, ⟨d, a, b, .nil, .rn, false, 0#4, 0#4⟩)
  | .fmax d a b => some (0x0D, ⟨d, a, b, .nil, .rn, false, 0#4, 0#4⟩)
  | .fabs d a => some (0x0E, ⟨d, a, .nil, .nil, .rn, false, 0#4, 0#4⟩)
  | .fneg d a => some (0x0F, ⟨d, a, .nil, .nil, .rn, false, 0#4, 0#4⟩)
  | .fcmp d a b c => some (0x10, ⟨.m d, a, b, .nil, .rn, false, c.enc, 0#4⟩)
  | .fclass d a => some (0x11, ⟨d, a, .nil, .nil, .rn, false, 0#4, 0#4⟩)
  | .frcp d a => some (0x18, ⟨d, a, .nil, .nil, .rn, false, 0#4, 0#4⟩)
  | .frsq d a => some (0x19, ⟨d, a, .nil, .nil, .rn, false, 0#4, 0#4⟩)
  | .fsqrt d a rm => some (0x1A, ⟨d, a, .nil, .nil, rm, false, 0#4, 0#4⟩)
  | .fexp2 d a => some (0x1B, ⟨d, a, .nil, .nil, .rn, false, 0#4, 0#4⟩)
  | .flog2 d a => some (0x1C, ⟨d, a, .nil, .nil, .rn, false, 0#4, 0#4⟩)
  | .fsin d a => some (0x1D, ⟨d, a, .nil, .nil, .rn, false, 0#4, 0#4⟩)
  | .fcos d a => some (0x1E, ⟨d, a, .nil, .nil, .rn, false, 0#4, 0#4⟩)
  | .ftanh d a => some (0x1F, ⟨d, a, .nil, .nil, .rn, false, 0#4, 0#4⟩)
  | .hadd2 d a b rm f => some (0x20, ⟨d, a, b, .nil, rm, false, f.enc, 0#4⟩)
  | .hsub2 d a b rm f => some (0x21, ⟨d, a, b, .nil, rm, false, f.enc, 0#4⟩)
  | .hmul2 d a b rm f => some (0x22, ⟨d, a, b, .nil, rm, false, f.enc, 0#4⟩)
  | .hfma2 d a b c rm f => some (0x23, ⟨d, a, b, c, rm, false, f.enc, 0#4⟩)
  | .hmin2 d a b f => some (0x24, ⟨d, a, b, .nil, .rn, false, f.enc, 0#4⟩)
  | .hmax2 d a b f => some (0x25, ⟨d, a, b, .nil, .rn, false, f.enc, 0#4⟩)
  | .iadd d a b sat uns => some (0x28, ⟨d, a, b, .nil, .rn, sat, 0#4, signCode uns⟩)
  | .isub d a b sat uns => some (0x29, ⟨d, a, b, .nil, .rn, sat, 0#4, signCode uns⟩)
  | .imul d a b => some (0x2A, ⟨d, a, b, .nil, .rn, false, 0#4, 0#4⟩)
  | .imad d a b c => some (0x2B, ⟨d, a, b, c, .rn, false, 0#4, 0#4⟩)
  | .imulh d a b uns => some (0x2C, ⟨d, a, b, .nil, .rn, false, 0#4, signCode uns⟩)
  | .imin d a b uns => some (0x2D, ⟨d, a, b, .nil, .rn, false, 0#4, signCode uns⟩)
  | .imax d a b uns => some (0x2E, ⟨d, a, b, .nil, .rn, false, 0#4, signCode uns⟩)
  | .icmp d a b c uns => some (0x2F, ⟨.m d, a, b, .nil, .rn, false, c.enc, signCode uns⟩)
  | .and d a b => some (0x30, ⟨d, a, b, .nil, .rn, false, 0#4, 0#4⟩)
  | .or d a b => some (0x31, ⟨d, a, b, .nil, .rn, false, 0#4, 0#4⟩)
  | .xor d a b => some (0x32, ⟨d, a, b, .nil, .rn, false, 0#4, 0#4⟩)
  | .not d a => some (0x33, ⟨d, a, .nil, .nil, .rn, false, 0#4, 0#4⟩)
  | .shl d a b => some (0x34, ⟨d, a, b, .nil, .rn, false, 0#4, 0#4⟩)
  | .shr d a b => some (0x35, ⟨d, a, b, .nil, .rn, false, 0#4, 0#4⟩)
  | .sar d a b => some (0x36, ⟨d, a, b, .nil, .rn, false, 0#4, 0#4⟩)
  | .popc d a => some (0x37, ⟨d, a, .nil, .nil, .rn, false, 0#4, 0#4⟩)
  | .clz d a => some (0x38, ⟨d, a, .nil, .nil, .rn, false, 0#4, 0#4⟩)
  | .bfe d a b c uns => some (0x39, ⟨d, a, b, c, .rn, false, 0#4, signCode uns⟩)
  | .bfi d a b c => some (0x3A, ⟨d, a, b, c, .rn, false, 0#4, 0#4⟩)
  | .brev d a => some (0x3B, ⟨d, a, .nil, .nil, .rn, false, 0#4, 0#4⟩)
  | .cvt d a rm sat t s => some (0x40, ⟨d, a, .nil, .nil, rm, sat, t.enc, s.enc⟩)
  | .narrow d a c rm sat f fb => some (0x41, ⟨d, a, .nil, .s c, rm, sat, f.enc, signCode fb⟩)
  | .qscale d a f => some (0x42, ⟨.s d, a, .nil, .nil, .rn, false, f.enc, 0#4⟩)
  | .shflIdx d a b => some (0x48, ⟨d, a, b, .nil, .rn, false, 0#4, 0#4⟩)
  | .shflUp d a b => some (0x49, ⟨d, a, b, .nil, .rn, false, 0#4, 0#4⟩)
  | .shflDown d a b => some (0x4A, ⟨d, a, b, .nil, .rn, false, 0#4, 0#4⟩)
  | .shflXor d a b => some (0x4B, ⟨d, a, b, .nil, .rn, false, 0#4, 0#4⟩)
  | .bcast d a b => some (0x4C, ⟨d, a, b, .nil, .rn, false, 0#4, 0#4⟩)
  | .rot d a b => some (0x4D, ⟨d, a, b, .nil, .rn, false, 0#4, 0#4⟩)
  | .sort2 d a b key desc => some (0x4E, ⟨d, a, b, .nil, .rn, false, (0#1 ++ key.enc ++ BitVec.ofBool desc), 0#4⟩)
  | .scan d a op excl => some (0x50, ⟨d, a, .nil, .nil, .rn, false, op.enc, signCode excl⟩)
  | .reduce d a op => some (0x51, ⟨d, a, .nil, .nil, .rn, false, op.enc, 0#4⟩)
  | .vote d a op => some (0x52, ⟨.s d, .m a, .nil, .nil, .rn, false, op.enc, 0#4⟩)
  | .hash d a b => some (0x54, ⟨d, a, b, .nil, .rn, false, 0#4, 0#4⟩)
  | .mand d a b => some (0x58, ⟨.m d, .m a, .m b, .nil, .rn, false, 0#4, 0#4⟩)
  | .mor d a b => some (0x59, ⟨.m d, .m a, .m b, .nil, .rn, false, 0#4, 0#4⟩)
  | .mxor d a b => some (0x5A, ⟨.m d, .m a, .m b, .nil, .rn, false, 0#4, 0#4⟩)
  | .mandn d a b => some (0x5B, ⟨.m d, .m a, .m b, .nil, .rn, false, 0#4, 0#4⟩)
  | .mnot d a => some (0x5C, ⟨.m d, .m a, .nil, .nil, .rn, false, 0#4, 0#4⟩)
  | .mmov d a => some (0x5D, ⟨.m d, .m a, .nil, .nil, .rn, false, 0#4, 0#4⟩)
  | .mlane d a b => some (0x5E, ⟨.m d, a, b, .nil, .rn, false, 0#4, 0#4⟩)
  | .mbal d a => some (0x5F, ⟨.m d, a, .nil, .nil, .rn, false, 0#4, 0#4⟩)
  | _ => none

/-- A vector slot read (05 R95, R96). In the VI form the immediate lies in bits [60:29]. -/
def decodeVec (w : DWord) : Except Prob Instr :=
  let r := V3.ofWord w
  if r.op == 2#7 then do
    let d ← operand .vdst 7 r.d
    need (r.a == 0#11) 0x03 18 r.a.toNat
    need (w.extractLsb' 61 3 == 0#3) 0x03 61 (w.extractLsb' 61 3).toNat
    pure (.movi d (w.extractLsb' 29 32))
  else
    match vecMap r.op.toNat with
    | none => bad 0x01 0 r.op.toNat
    | some (s, k) => do
      let x ← r.args s
      pure (k x)

/-- The vector slot of an instruction. -/
def encodeVec (i : Instr) : Option DWord :=
  match i with
  | .movi d imm => some (0#3 ++ imm ++ 0#11 ++ d.enc ++ 2#7)
  | _ =>
    match vecEnc i with
    | some (op, x) => (vecMap op).map fun s => (x.fields op s.1).word
    | none => none

/-! ### The memory slot (05 R97 to R99) -/

/-- The fields of the M form (05 R97); the MA form splits OFF into A, WD and a 6-bit OFF. -/
structure MF where
  op : BitVec 7
  d : BitVec 11
  br : BitVec 5
  x : BitVec 11
  peg : BitVec 4
  sub : BitVec 4
  sc : BitVec 4
  a : BitVec 11
  wd : BitVec 1
  off : BitVec 6
deriving DecidableEq, Repr

/-- The fields of a memory slot (05 R97). -/
def MF.ofWord (w : DWord) : MF :=
  ⟨w.extractLsb' 0 7, w.extractLsb' 7 11, w.extractLsb' 18 5, w.extractLsb' 23 11, w.extractLsb' 34 4,
    w.extractLsb' 38 4, w.extractLsb' 42 4, w.extractLsb' 46 11, w.extractLsb' 57 1, w.extractLsb' 58 6⟩

/-- The memory slot of the fields (05 R97). -/
def MF.word (r : MF) : DWord := r.off ++ r.wd ++ r.a ++ r.sc ++ r.sub ++ r.peg ++ r.x ++ r.br ++ r.d ++ r.op

/-- OFF of the M form (05 R97). -/
def MF.off18 (r : MF) : BitVec 18 := r.off ++ r.wd ++ r.a

/-- M-form fields with an 18-bit offset. -/
def MF.mk18 (op : Nat) (d : BitVec 11) (br : BitVec 5) (x : BitVec 11) (peg sub sc : BitVec 4) (off : BitVec 18) : MF :=
  ⟨BitVec.ofNat 7 op, d, br, x, peg, sub, sc, off.extractLsb' 0 11, off.extractLsb' 11 1, off.extractLsb' 12 6⟩

/-- A field that the instruction leaves zero (22 R386). -/
def zeroF {n : Nat} (pos : Nat) (x : BitVec n) : Except Prob Unit := need (x == 0#n) 0x03 pos x.toNat

/-- SC of a form that takes the ten scopes and the record's default (22 R388). -/
def scField (x : BitVec 4) : Except Prob (Option Scope) :=
  if x == 15#4 then pure none
  else match Scope.dec x with
    | some s => pure (some s)
    | none => bad 0x02 42 x.toNat

/-- SC of a form that names a scope, at most `top` (22 R388). -/
def scExact (top : BitVec 4) (x : BitVec 4) : Except Prob Scope :=
  match Scope.dec x with
  | some s => if x.ule top then pure s else bad 0x02 42 x.toNat
  | none => bad 0x02 42 x.toNat

/-- SC of a form other than LDS and STS that does not use it: 0xA to 0xE are reserved in every such form (22 R388). DEDUCED: log 42. -/
def scUnused (x : BitVec 4) : Except Prob Unit := do
  need (!((9#4).ult x && x.ult 15#4)) 0x02 42 x.toNat
  zeroF 42 x

/-- SUB as a width (22 R388). -/
def widthField (store : Bool) (x : BitVec 4) : Except Prob Width :=
  match Width.dec x with
  | some w => if store && !w.store then bad 0x02 38 x.toNat else pure w
  | none => bad 0x02 38 x.toNat

/-- SUB as an atomic operation (22 R388). -/
def atomField (red : Bool) (wd : Bool) (x : BitVec 4) : Except Prob AtomOp :=
  match AtomOp.dec x with
  | some o => if (wd && !o.wide) || (red && o == .cas) then bad 0x02 38 x.toNat else pure o
  | none => bad 0x02 38 x.toNat

/-- Data operand of a load or store: its kind and its register's alignment (07 R147, 22 R388). A reserved SUB is refused later,
and takes one register here. -/
def dataField (use : Width → FUse) (sub : BitVec 4) (x : BitVec 11) : Except Prob Opd := do
  let w := (Width.dec sub).getD .w32
  let o ← operand (use w) 7 x
  need (o.aligned w.regs) 0x08 7 o.num
  pure o

/-- Data operand of an atomic: a pair under WD = 1 (07 R152, 22 R388). -/
def atomData (use wide : FUse) (wd : Bool) (pos : Nat) (x : BitVec 11) : Except Prob Opd := do
  let o ← operand (if wd then wide else use) pos x
  need (!wd || o.aligned 2) 0x08 pos o.num
  pure o

/-- An operand field naming the first uniform register of an image, a record or a pair (07 R141). -/
def imageField (pos k : Nat) (x : BitVec 11) : Except Prob (BitVec 9) := do
  let o ← operand .uni pos x
  need (o.aligned k) 0x08 pos o.num
  pure o.uni

/-- An M-form load or store (07 R147). -/
def decLdSt (r : MF) (store : Bool) (use : Width → FUse) (xu : FUse)
    (k : Opd → Opd → Option (BitVec 3) → Width → Option Scope → Instr) : Except Prob Instr := do
  let d ← dataField use r.sub r.d
  let x ← operand xu 23 r.x
  let p ← pegField (!store) 34 r.peg
  let w ← widthField store r.sub
  let sc ← scField r.sc
  pure (k d x p w sc)

/-- A scratchpad load or store: BR and SC hold zero (07 R149, 22 R388). -/
def decLdsSts (r : MF) (store : Bool) (use : Width → FUse)
    (k : Opd → Opd → Option (BitVec 3) → Width → Instr) : Except Prob Instr := do
  let d ← dataField use r.sub r.d
  zeroF 18 r.br
  let x ← operand .src 23 r.x
  let p ← pegField (!store) 34 r.peg
  let w ← widthField store r.sub
  zeroF 42 r.sc
  pure (k d x p w)

/-- An MA-form atomic (07 R152). `red`: no destination. `scr`: on the scratchpad. `uf`: the uniform form. -/
def decAtom (r : MF) (red scr uf : Bool)
    (k : Opd → Opd → Opd → Option (BitVec 3) → AtomOp → Option Scope → Instr) : Except Prob Instr := do
  let wd := r.wd == 1#1
  let d ← if red then operand .off 7 r.d
    else if uf then atomData .uni .uni wd 7 r.d else atomData .vreg .vreg wd 7 r.d
  if scr then zeroF 18 r.br
  let x ← operand (if uf then .ukind else .src) 23 r.x
  let p ← pegField (!red) 34 r.peg
  let o ← atomField red wd r.sub
  let sc ← if scr then do
      let s ← scExact 2#4 r.sc
      pure (some s)
    else scField r.sc
  let a ← if uf then atomData .ukind .uni wd 46 r.a else atomData .src .vs wd 46 r.a
  pure (k d a x p o sc)

/-- A fence (05 R97, 07 R156, R157). -/
def decFence (w : DWord) (r : MF) (cross : Bool) : Except Prob Instr := do
  let pa := w.extractLsb' 7 2
  let pb := w.extractLsb' 9 2
  if !cross then zeroF 7 pa
  if !cross then zeroF 9 pb
  zeroF 11 (w.extractLsb' 11 27)
  let ord ← match Order.dec r.sub with
    | some o => pure o
    | none => bad 0x02 38 r.sub.toNat
  let sc ← scExact 9#4 r.sc
  zeroF 46 (w.extractLsb' 46 18)
  pure (if cross then .fenceX (PathK.dec pa) (PathK.dec pb) ord sc else .fence ord sc)

/-- A memory slot read (05 R97 to R99). -/
def decodeMem (w : DWord) : Except Prob Instr :=
  let r := MF.ofWord w
  let off := r.off18
  let wd := r.wd == 1#1
  match r.op.toNat with
  | 0x01 => decLdSt r false (fun _ => .vreg) .src fun d x p w sc => .ld d r.br x off p w sc
  | 0x02 => decLdSt r true Width.dataUse .src fun d x p w sc => .st d r.br x off p w sc
  | 0x03 => decLdSt r false (fun _ => .uni) .ukind fun d x p w sc => .ldu d.uni r.br x off p w sc
  | 0x04 => decLdSt r true Width.udataUse .ukind fun d x p w sc => .stu d r.br x off p w sc
  | 0x05 => decLdsSts r false (fun _ => .vreg) fun d x p w => .lds d x off p w
  | 0x06 => decLdsSts r true Width.dataUse fun d x p w => .sts d x off p w
  | 0x07 => do
    zeroF 7 r.d
    let x ← operand .src 23 r.x
    zeroF 34 r.peg
    need (r.sub.ult 2#4) 0x02 38 r.sub.toNat
    scUnused r.sc
    pure (.pref r.br x off (r.sub == 1#4))
  | 0x08 => decAtom r false false false fun d a x p o sc => .atom d a r.br x r.off p o sc wd
  | 0x09 => decAtom r true false false fun _ a x p o sc => .red a r.br x r.off p o sc wd
  | 0x0A => decAtom r false true false fun d a x p o sc => .atoms d a x r.off p o (sc.getD .bent) wd
  | 0x0B => decAtom r true true false fun _ a x p o sc => .reds a x r.off p o (sc.getD .bent) wd
  | 0x0C => decAtom r false false true fun d a x p o sc => .atomu d.uni a r.br x r.off p o sc wd
  | 0x0D => decAtom r true false true fun _ a x p o sc => .redu a r.br x r.off p o sc wd
  | 0x10 => decFence w r false
  | 0x11 => decFence w r true
  | 0x18 => do
    zeroF 7 r.d
    let x ← imageField 23 4 r.x
    zeroF 34 r.peg
    zeroF 38 r.sub
    scUnused r.sc
    zeroF 46 off
    pure (.brset r.br x)
  | 0x19 => do
    let d ← imageField 7 4 r.d
    zeroF 23 r.x
    zeroF 34 r.peg
    zeroF 38 r.sub
    scUnused r.sc
    zeroF 46 off
    pure (.brget r.br d)
  | 0x20 => do
    let d ← imageField 7 1 r.d
    zeroF 18 r.br
    let x ← imageField 23 2 r.x
    let p ← pegField true 34 r.peg
    zeroF 38 r.sub
    scUnused r.sc
    zeroF 46 off
    pure (.watchArm d x p)
  | 0x21 => do
    zeroF 7 r.d
    zeroF 18 r.br
    let x ← imageField 23 1 r.x
    let p ← pegField false 34 r.peg
    zeroF 38 r.sub
    scUnused r.sc
    zeroF 46 off
    pure (.watchDisarm x p)
  | 0x22 => do
    let d ← imageField 7 8 r.d
    zeroF 18 r.br
    zeroF 23 r.x
    let p ← pegField true 34 r.peg
    zeroF 38 r.sub
    scUnused r.sc
    zeroF 46 off
    pure (.ldtr d p)
  | _ => bad 0x01 0 r.op.toNat

/-- The MA-form fields of an atomic. -/
def encAtom (op : Nat) (d : BitVec 11) (br : BitVec 5) (x : Opd) (p : Option (BitVec 3)) (o : AtomOp) (sc : BitVec 4) (a : Opd)
    (wd : Bool) (off : BitVec 6) : DWord :=
  MF.word ⟨BitVec.ofNat 7 op, d, br, x.enc, encPeg p, o.enc, sc, a.enc, BitVec.ofBool wd, off⟩

/-- The MF form (05 R97). -/
def encFence (op : Nat) (pa pb : BitVec 2) (ord : Order) (sc : Scope) : DWord :=
  0#18 ++ sc.enc ++ ord.enc ++ 0#27 ++ pb ++ pa ++ BitVec.ofNat 7 op

/-- The memory slot of an instruction (05 R97 to R99). -/
def encodeMem : Instr → Option DWord
  | .ld d br x off p w sc => some (MF.mk18 0x01 d.enc br x.enc (encPeg p) w.enc (encSc sc) off).word
  | .st d br x off p w sc => some (MF.mk18 0x02 d.enc br x.enc (encPeg p) w.enc (encSc sc) off).word
  | .ldu d br x off p w sc => some (MF.mk18 0x03 (Opd.s d).enc br x.enc (encPeg p) w.enc (encSc sc) off).word
  | .stu d br x off p w sc => some (MF.mk18 0x04 d.enc br x.enc (encPeg p) w.enc (encSc sc) off).word
  | .lds d x off p w => some (MF.mk18 0x05 d.enc 0#5 x.enc (encPeg p) w.enc 0#4 off).word
  | .sts d x off p w => some (MF.mk18 0x06 d.enc 0#5 x.enc (encPeg p) w.enc 0#4 off).word
  | .pref br x off l2 => some (MF.mk18 0x07 0#11 br x.enc 0#4 (signCode l2) 0#4 off).word
  | .atom d a br x off p o sc wd => some (encAtom 0x08 d.enc br x p o (encSc sc) a wd off)
  | .red a br x off p o sc wd => some (encAtom 0x09 0#11 br x p o (encSc sc) a wd off)
  | .atoms d a x off p o sc wd => some (encAtom 0x0A d.enc 0#5 x p o sc.enc a wd off)
  | .reds a x off p o sc wd => some (encAtom 0x0B 0#11 0#5 x p o sc.enc a wd off)
  | .atomu d a br x off p o sc wd => some (encAtom 0x0C (Opd.s d).enc br x p o (encSc sc) a wd off)
  | .redu a br x off p o sc wd => some (encAtom 0x0D 0#11 br x p o (encSc sc) a wd off)
  | .fence ord sc => some (encFence 0x10 0#2 0#2 ord sc)
  | .fenceX pa pb ord sc => some (encFence 0x11 pa.enc pb.enc ord sc)
  | .brset br x => some (MF.mk18 0x18 0#11 br (Opd.s x).enc 0#4 0#4 0#4 0#18).word
  | .brget br d => some (MF.mk18 0x19 (Opd.s d).enc br 0#11 0#4 0#4 0#4 0#18).word
  | .watchArm d x p => some (MF.mk18 0x20 (Opd.s d).enc 0#5 (Opd.s x).enc (encPeg p) 0#4 0#4 0#18).word
  | .watchDisarm x p => some (MF.mk18 0x21 0#11 0#5 (Opd.s x).enc (encPeg p) 0#4 0#4 0#18).word
  | .ldtr d p => some (MF.mk18 0x22 (Opd.s d).enc 0#5 0#11 (encPeg p) 0#4 0#4 0#18).word
  | _ => none

/-! ### The copy/matrix slot (05 R100, R101) -/

/-- The fields of the copy/matrix slot (05 R100). -/
structure XF where
  op : BitVec 7
  f : BitVec 11
  u : BitVec 9
  t : BitVec 5
  peg : BitVec 4
  sub : BitVec 4
  g : BitVec 11
  br : BitVec 5
  fl : BitVec 8
deriving DecidableEq, Repr

/-- The fields of a copy/matrix slot (05 R100). -/
def XF.ofWord (w : DWord) : XF :=
  ⟨w.extractLsb' 0 7, w.extractLsb' 7 11, w.extractLsb' 18 9, w.extractLsb' 27 5, w.extractLsb' 32 4,
    w.extractLsb' 36 4, w.extractLsb' 40 11, w.extractLsb' 51 5, w.extractLsb' 56 8⟩

/-- The copy/matrix slot of the fields (05 R100). -/
def XF.word (r : XF) : DWord := r.fl ++ r.br ++ r.g ++ r.sub ++ r.peg ++ r.t ++ r.u ++ r.f ++ r.op

/-- How an instruction of the copy/matrix slot uses its fields (05 R101). SUB and FL are none where they hold zero, else what
refuses a value: its REASON, 0 for a value admitted. -/
structure XShape where
  f : FUse := .off
  u : Bool := false
  t : Bool := false
  peg : Bool := true
  req : Bool := false
  sub : Option (BitVec 4 → Nat) := none
  g : FUse := .off
  br : Bool := false
  fl : Option (BitVec 8 → Nat) := none

/-- The operands of a copy/matrix slot. -/
structure XArgs where
  f : Opd
  u : BitVec 9
  t : BitVec 5
  peg : Option (BitVec 3)
  sub : BitVec 4
  g : Opd
  br : BitVec 5
  fl : BitVec 8

/-- Offending value of a refused FL: under REASON 0x03 the reserved bits. -/
def needCode {n : Nat} (c : Nat) (pos : Nat) (x : BitVec n) : Except Prob Unit := need (c == 0) c pos x.toNat

/-- The fields of a copy/matrix slot judged and read in ascending position (22 R384, R386, R389). -/
def XF.args (r : XF) (s : XShape) : Except Prob XArgs := do
  let f ← operand s.f 7 r.f
  if s.u then need (r.u.toNat % 2 == 0) 0x08 18 r.u.toNat else zeroF 18 r.u
  if !s.t then zeroF 27 r.t
  let p ← if s.peg then pegField s.req 32 r.peg else do
    zeroF 32 r.peg
    pure none
  match s.sub with
  | none => zeroF 36 r.sub
  | some k => needCode (k r.sub) 36 r.sub
  let g ← operand s.g 40 r.g
  if !s.br then zeroF 51 r.br
  match s.fl with
  | none => zeroF 56 r.fl
  | some k => needCode (k r.fl) 56 r.fl
  pure ⟨f, r.u, r.t, p, r.sub, g, r.br, r.fl⟩

/-- The fields of the operands. -/
def XArgs.fields (x : XArgs) (op : Nat) (s : XShape) : XF :=
  ⟨BitVec.ofNat 7 op, s.f.enc x.f, x.u, x.t, encPeg x.peg, x.sub, s.g.enc x.g, x.br, x.fl⟩

/-- REASON 0x02 unless the value is admitted. -/
def code02 (ok : Bool) : Nat := if ok then 0 else 0x02

/-- Flags of CPB: [7:5] zero, MC and SPD not together (08 R169, 22 R389). -/
def flCpb (x : BitVec 8) : Nat := code02 (x.extractLsb' 5 3 == 0#3 && !(x.getLsbD 3 && x.getLsbD 1))

/-- The copy/matrix slot opcode map (05 R101); none where the code is unassigned. -/
def cmxMap (op : Nat) : Option (XShape × (XArgs → Instr)) :=
  match op with
  | 0x01 => some ({ f := .src, sub := some fun x => code02 (x.ult 3#4), g := .src, br := true }, fun x => .cpa x.f x.g x.br ((CpaWidth.dec x.sub).getD .w4) x.peg)
  | 0x02 => some ({ u := true, sub := some fun x => code02 (x != 0#4 && x.ult 4#4), fl := some flCpb }, fun x => .cpb x.u (x.sub.setWidth 2) (x.fl.setWidth 5) x.peg)
  | 0x03 => some ({ u := true, sub := some fun x => code02 ((Fmt.dec x).any Fmt.cpr), fl := some fun x => if x.getLsbD 7 then 0x03 else 0 }, fun x => .cpr x.u ((Fmt.dec x.sub).getD .f32) (x.fl.setWidth 7) x.peg)
  | 0x08 => some ({ f := .vreg, u := true, t := true }, fun x => .mma x.f x.u x.t x.peg)
  | 0x09 => some ({ f := .vreg, u := true, t := true }, fun x => .mmas x.f x.u x.t x.peg)
  | 0x10 => some ({ t := true }, fun x => .accClr x.t x.peg)
  | 0x11 => some ({ u := true, t := true }, fun x => .accLd x.u x.t x.peg)
  | 0x12 => some ({ u := true, t := true }, fun x => .accSt x.u x.t x.peg)
  | 0x13 => some ({ f := .ukind, t := true, req := true, g := .vreg }, fun x => .accRdv x.g x.f x.t x.peg)
  | 0x14 => some ({ f := .src, t := true, g := .ukind }, fun x => .accWrv x.f x.g x.t x.peg)
  | 0x18 => some ({ u := true, peg := false }, fun x => .setmpc x.u)
  | 0x19 => some ({ u := true, sub := some fun x => code02 (x.ult 2#4) }, fun x => .cbtLd x.u (x.sub == 1#4) x.peg)
  | 0x20 => some ({ u := true }, fun x => .routeCount x.u x.peg)
  | 0x21 => some ({ u := true }, fun x => .routeXchg x.u x.peg)
  | 0x22 => some ({ u := true }, fun x => .routePlace x.u x.peg)
  | 0x23 => some ({ u := true }, fun x => .routeScatter x.u x.peg)
  | 0x24 => some ({ u := true }, fun x => .routeCombine x.u x.peg)
  | 0x25 => some ({ u := true, req := true, sub := some fun x => code02 (x.ult 10#4), g := .uni }, fun x => .routeStat x.g.uni x.u ((StatSel.dec x.sub).getD .lkept) x.peg)
  | _ => none

/-- Code and operands of a copy/matrix instruction, from the same map (05 R101). -/
def cmxEnc : Instr → Option (Nat × XArgs)
  | .cpa f g br w p => some (0x01, ⟨f, 0#9, 0#5, p, w.enc, g, br, 0#8⟩)
  | .cpb u n fl p => some (0x02, ⟨.nil, u, 0#5, p, (n.setWidth 4), .nil, 0#5, (fl.setWidth 8)⟩)
  | .cpr u f fl p => some (0x03, ⟨.nil, u, 0#5, p, f.enc, .nil, 0#5, (fl.setWidth 8)⟩)
  | .mma f u t p => some (0x08, ⟨f, u, t, p, 0#4, .nil, 0#5, 0#8⟩)
  | .mmas f u t p => some (0x09, ⟨f, u, t, p, 0#4, .nil, 0#5, 0#8⟩)
  | .accClr t p => some (0x10, ⟨.nil, 0#9, t, p, 0#4, .nil, 0#5, 0#8⟩)
  | .accLd u t p => some (0x11, ⟨.nil, u, t, p, 0#4, .nil, 0#5, 0#8⟩)
  | .accSt u t p => some (0x12, ⟨.nil, u, t, p, 0#4, .nil, 0#5, 0#8⟩)
  | .accRdv g f t p => some (0x13, ⟨f, 0#9, t, p, 0#4, g, 0#5, 0#8⟩)
  | .accWrv f g t p => some (0x14, ⟨f, 0#9, t, p, 0#4, g, 0#5, 0#8⟩)
  | .setmpc u => some (0x18, ⟨.nil, u, 0#5, none, 0#4, .nil, 0#5, 0#8⟩)
  | .cbtLd u b p => some (0x19, ⟨.nil, u, 0#5, p, (signCode b), .nil, 0#5, 0#8⟩)
  | .routeCount u p => some (0x20, ⟨.nil, u, 0#5, p, 0#4, .nil, 0#5, 0#8⟩)
  | .routeXchg u p => some (0x21, ⟨.nil, u, 0#5, p, 0#4, .nil, 0#5, 0#8⟩)
  | .routePlace u p => some (0x22, ⟨.nil, u, 0#5, p, 0#4, .nil, 0#5, 0#8⟩)
  | .routeScatter u p => some (0x23, ⟨.nil, u, 0#5, p, 0#4, .nil, 0#5, 0#8⟩)
  | .routeCombine u p => some (0x24, ⟨.nil, u, 0#5, p, 0#4, .nil, 0#5, 0#8⟩)
  | .routeStat g u sel p => some (0x25, ⟨.nil, u, 0#5, p, sel.enc, .s g, 0#5, 0#8⟩)
  | _ => none

/-- A copy/matrix slot read (05 R100, R101). -/
def decodeCmx (w : DWord) : Except Prob Instr :=
  let r := XF.ofWord w
  match cmxMap r.op.toNat with
  | none => bad 0x01 0 r.op.toNat
  | some (s, k) => do
    let x ← r.args s
    pure (k x)

/-- The copy/matrix slot of an instruction. -/
def encodeCmx (i : Instr) : Option DWord :=
  match cmxEnc i with
  | some (op, x) => (cmxMap op).map fun s => (x.fields op s.1).word
  | none => none

/-! ### The control slot (05 R102 to R104) -/

/-- Uniform operation of register form FN (05 R102). -/
def uniReg (fn : Nat) (d a b : BitVec 9) : Instr :=
  match fn with
  | 0 => .sadd d a b
  | 1 => .ssub d a b
  | 2 => .smul d a b
  | 3 => .smulh d a b
  | 4 => .sand d a b
  | 5 => .sor d a b
  | 6 => .sxor d a b
  | 7 => .sshl d a b
  | 8 => .sshr d a b
  | 9 => .ssar d a b
  | 10 => .smin d a b
  | 11 => .smax d a b
  | 12 => .sminu d a b
  | 13 => .smaxu d a b
  | 14 => .sslt d a b
  | _ => .ssltu d a b

/-- Uniform operation of immediate form FN (05 R102). -/
def uniImm (fn : Nat) (d a : BitVec 9) (i : BitVec 7) : Instr :=
  match fn with
  | 0 => .saddImm d a i
  | 1 => .ssubImm d a i
  | 2 => .smulImm d a i
  | 3 => .smulhImm d a i
  | 4 => .sandImm d a i
  | 5 => .sorImm d a i
  | 6 => .sxorImm d a i
  | 7 => .sshlImm d a i
  | 8 => .sshrImm d a i
  | 9 => .ssarImm d a i
  | 10 => .sminImm d a i
  | 11 => .smaxImm d a i
  | 12 => .sminuImm d a i
  | 13 => .smaxuImm d a i
  | 14 => .ssltImm d a i
  | _ => .ssltuImm d a i

/-- A uniform pair in a 9-bit register field (22 R385 REASON 0x08). -/
def pairField (pos : Nat) (d : BitVec 9) : Except Prob Unit := need (d.toNat % 2 == 0) 0x08 pos d.toNat

/-- BAR (05 R103 form CG, 09 R201, 22 R391). -/
def decBar (w : Word) : Except Prob Instr := do
  let g := w.extractLsb' 6 6
  let k := w.extractLsb' 12 2
  let opr := w.extractLsb' 14 2
  let a := w.extractLsb' 16 9
  need (!(k == 0#2 && 16 ≤ g.toNat)) 0x02 6 g.toNat
  need (!(k == 2#2 && g != 0#6)) 0x02 6 g.toNat
  need (k != 3#2) 0x02 12 3
  need (k == 2#2 || opr.getLsbD 1 || a == 0#9) 0x03 16 a.toNat
  need (k != 2#2 || a.toNat % 2 == 0) 0x08 16 a.toNat
  zeroF 25 (w.extractLsb' 25 6)
  let kind : GateKind := if k == 0#2 then .bent else if k == 1#2 then .bay else .remote
  pure (match opr.toNat with
    | 0 => .barAw kind g a
    | 1 => .barArr kind g a
    | 2 => .barWait kind g a
    | _ => .barInit kind g a)

/-- GETSYS and SETSYS (05 R103 form CS, 09 R208, 22 R391). -/
def decSys (w : Word) (set : Bool) : Except Prob Instr := do
  let d := w.extractLsb' 6 9
  let y := w.extractLsb' 15 12
  match SysReg.ofNum y with
  | none => bad 0x02 15 y.toNat
  | some r => do
    need (set || r != .laneid || d.toNat < 64) 0x03 6 (d.toNat / 64)
    need (!r.pair || d.toNat % 2 == 0) 0x08 6 d.toNat
    need (!set || r.rw) 0x0C 15 y.toNat
    zeroF 27 (w.extractLsb' 27 4)
    pure (if set then .setsys y d else .getsys y d)

/-- TIME and TICK (05 R103 form CS, 22 R391). -/
def decTime (w : Word) (k : BitVec 9 → Instr) : Except Prob Instr := do
  pairField 6 (w.extractLsb' 6 9)
  zeroF 15 (w.extractLsb' 15 12)
  zeroF 27 (w.extractLsb' 27 4)
  pure (k (w.extractLsb' 6 9))

/-- LAUNCH and LAUNCH.G (05 R103 form CA). -/
def decLaunch (w : Word) (k : BitVec 9 → Option (BitVec 3) → Instr) : Except Prob Instr := do
  pairField 6 (w.extractLsb' 6 9)
  let p ← pegField false 15 (w.extractLsb' 15 4)
  zeroF 19 (w.extractLsb' 19 12)
  pure (k (w.extractLsb' 6 9) p)

/-- A form with no field (05 R103 form CN). -/
def decNone (w : Word) (i : Instr) : Except Prob Instr := do
  zeroF 6 (w.extractLsb' 6 25)
  pure i

/-- A pair operation (05 R103 form CP). -/
def decPair (w : Word) (k : BitVec 8 → BitVec 8 → BitVec 8 → Instr) : Except Prob Instr := do
  zeroF 30 (w.extractLsb' 30 1)
  pure (k (w.extractLsb' 6 8) (w.extractLsb' 14 8) (w.extractLsb' 22 8))

/-- A control slot read (05 R102 to R104). -/
def decodeCtl (w : Word) : Except Prob Instr :=
  if w.getLsbD 31 then
    pure (uniReg (w.extractLsb' 27 4).toNat (w.extractLsb' 18 9) (w.extractLsb' 9 9) (w.extractLsb' 0 9))
  else
    let op := (w.extractLsb' 0 6).toNat
    if op / 16 == 1 then
      pure (uniImm (op % 16) (w.extractLsb' 6 9) (w.extractLsb' 15 9) (w.extractLsb' 24 7))
    else
      match op with
      | 0x01 => pure (.bra (w.extractLsb' 6 25))
      | 0x02 => pure (.brcNz (w.extractLsb' 6 9) (w.extractLsb' 15 16))
      | 0x03 => pure (.brcZ (w.extractLsb' 6 9) (w.extractLsb' 15 16))
      | 0x04 => do
        zeroF 6 (w.extractLsb' 6 8)
        zeroF 22 (w.extractLsb' 22 8)
        zeroF 30 (w.extractLsb' 30 1)
        pure (.brx (w.extractLsb' 14 8))
      | 0x05 => pure (.call (w.extractLsb' 6 25))
      | 0x06 => do
        let f ← operand .vreg 6 (w.extractLsb' 6 11)
        zeroF 17 (w.extractLsb' 17 14)
        pure (.calli f)
      | 0x07 => decNone w .ret
      | 0x08 => pure (.div (w.extractLsb' 6 3) (w.getLsbD 9) (w.extractLsb' 10 10) (w.extractLsb' 20 11))
      | 0x09 => decNone w .join
      | 0x0A => pure (.loop (w.extractLsb' 6 9) (w.extractLsb' 15 16))
      | 0x0B => decNone w .exit
      | 0x0C => decBar w
      | 0x0D => decLaunch w .launch
      | 0x0E => decLaunch w .launchG
      | 0x0F => decNone w .trigger
      | 0x20 => pure (.yield (w.extractLsb' 6 25))
      | 0x21 => do
        zeroF 12 (w.extractLsb' 12 19)
        pure (.setix (w.extractLsb' 6 2) (w.extractLsb' 8 4))
      | 0x22 => decSys w false
      | 0x23 => decSys w true
      | 0x24 => decTime w .time
      | 0x25 => decTime w .tick
      | 0x26 => do
        zeroF 22 (w.extractLsb' 22 9)
        pure (.trap (w.extractLsb' 6 16))
      | 0x27 => decNone w .eret
      | 0x28 => decNone w .nop
      | 0x29 => pure (.smovl (w.extractLsb' 6 9) (w.extractLsb' 15 16))
      | 0x2A => pure (.smovh (w.extractLsb' 6 9) (w.extractLsb' 15 16))
      | 0x2B => decPair w .dadd
      | 0x2C => decPair w .dsub
      | 0x2D => pure (.daddi (w.extractLsb' 6 8) (w.extractLsb' 14 8) (w.extractLsb' 22 9))
      | _ => bad 0x01 0 op

/-- A register-form uniform operation (05 R102). -/
def encReg (fn : Nat) (d a b : BitVec 9) : Word := 1#1 ++ BitVec.ofNat 4 fn ++ d ++ a ++ b
/-- An immediate-form uniform operation (05 R103 form CI). -/
def encImm (fn : Nat) (d a : BitVec 9) (i : BitVec 7) : Word := 0#1 ++ i ++ a ++ d ++ BitVec.ofNat 6 (16 + fn)
/-- Forms CC and CL (05 R103). -/
def encC16 (op : Nat) (s : BitVec 9) (off : BitVec 16) : Word := 0#1 ++ off ++ s ++ BitVec.ofNat 6 op
/-- Forms CB and CY (05 R103). -/
def encC25 (op : Nat) (off : BitVec 25) : Word := 0#1 ++ off ++ BitVec.ofNat 6 op
/-- Form CG (05 R103). -/
def encBar (opr : BitVec 2) (k : GateKind) (g : BitVec 6) (a : BitVec 9) : Word :=
  0#7 ++ a ++ opr ++ (match k with | .bent => 0#2 | .bay => 1#2 | .remote => 2#2) ++ g ++ 0x0C#6
/-- Form CP (05 R103). -/
def encPair (op : Nat) (d a b : BitVec 8) : Word := 0#2 ++ b ++ a ++ d ++ BitVec.ofNat 6 op

/-- The control slot of an instruction (05 R102 to R104). -/
def encodeCtl : Instr → Option Word
  | .sadd d a b => some (encReg 0 d a b)
  | .ssub d a b => some (encReg 1 d a b)
  | .smul d a b => some (encReg 2 d a b)
  | .smulh d a b => some (encReg 3 d a b)
  | .sand d a b => some (encReg 4 d a b)
  | .sor d a b => some (encReg 5 d a b)
  | .sxor d a b => some (encReg 6 d a b)
  | .sshl d a b => some (encReg 7 d a b)
  | .sshr d a b => some (encReg 8 d a b)
  | .ssar d a b => some (encReg 9 d a b)
  | .smin d a b => some (encReg 10 d a b)
  | .smax d a b => some (encReg 11 d a b)
  | .sminu d a b => some (encReg 12 d a b)
  | .smaxu d a b => some (encReg 13 d a b)
  | .sslt d a b => some (encReg 14 d a b)
  | .ssltu d a b => some (encReg 15 d a b)
  | .saddImm d a i => some (encImm 0 d a i)
  | .ssubImm d a i => some (encImm 1 d a i)
  | .smulImm d a i => some (encImm 2 d a i)
  | .smulhImm d a i => some (encImm 3 d a i)
  | .sandImm d a i => some (encImm 4 d a i)
  | .sorImm d a i => some (encImm 5 d a i)
  | .sxorImm d a i => some (encImm 6 d a i)
  | .sshlImm d a i => some (encImm 7 d a i)
  | .sshrImm d a i => some (encImm 8 d a i)
  | .ssarImm d a i => some (encImm 9 d a i)
  | .sminImm d a i => some (encImm 10 d a i)
  | .smaxImm d a i => some (encImm 11 d a i)
  | .sminuImm d a i => some (encImm 12 d a i)
  | .smaxuImm d a i => some (encImm 13 d a i)
  | .ssltImm d a i => some (encImm 14 d a i)
  | .ssltuImm d a i => some (encImm 15 d a i)
  | .smovl d i => some (encC16 0x29 d i)
  | .smovh d i => some (encC16 0x2A d i)
  | .dadd d a b => some (encPair 0x2B d a b)
  | .dsub d a b => some (encPair 0x2C d a b)
  | .daddi d a i => some (0#1 ++ i ++ a ++ d ++ 0x2D#6)
  | .bra off => some (encC25 0x01 off)
  | .brcNz s off => some (encC16 0x02 s off)
  | .brcZ s off => some (encC16 0x03 s off)
  | .brx a => some (encPair 0x04 0#8 a 0#8)
  | .call off => some (encC25 0x05 off)
  | .calli f => some (0#15 ++ f.enc ++ 0x06#6)
  | .ret => some 0x07#32
  | .div mk ng t j => some (0#1 ++ j ++ t ++ BitVec.ofBool ng ++ mk ++ 0x08#6)
  | .join => some 0x09#32
  | .loop s off => some (encC16 0x0A s off)
  | .exit => some 0x0B#32
  | .barAw k g a => some (encBar 0#2 k g a)
  | .barArr k g a => some (encBar 1#2 k g a)
  | .barWait k g a => some (encBar 2#2 k g a)
  | .barInit k g a => some (encBar 3#2 k g a)
  | .launch a p => some (0#13 ++ encPeg p ++ a ++ 0x0D#6)
  | .launchG a p => some (0#13 ++ encPeg p ++ a ++ 0x0E#6)
  | .trigger => some 0x0F#32
  | .yield n => some (encC25 0x20 n)
  | .setix x v => some (0#20 ++ v ++ x ++ 0x21#6)
  | .getsys y d => some (0#5 ++ y ++ d ++ 0x22#6)
  | .setsys y d => some (0#5 ++ y ++ d ++ 0x23#6)
  | .time d => some (0#17 ++ d ++ 0x24#6)
  | .tick d => some (0#17 ++ d ++ 0x25#6)
  | .trap c => some (0#10 ++ c ++ 0x26#6)
  | .eret => some 0x27#32
  | .nop => some 0x28#32
  | _ => none

/-! ### Slots and bundles -/

/-- The bits of one slot, with the slot they stand in (05 R88). -/
inductive SlotWord
  | vec (w : DWord)
  | mem (w : DWord)
  | cmx (w : DWord)
  | ctl (w : Word)
deriving DecidableEq, Repr

/-- A slot read (05 R95 to R104). -/
def decodeSlot : SlotWord → Except Prob Instr
  | .vec w => decodeVec w
  | .mem w => decodeMem w
  | .cmx w => decodeCmx w
  | .ctl w => decodeCtl w

/-- The slot and the bits of an instruction; none for a step of the device, which has no encoding. -/
def encode (i : Instr) : Option SlotWord :=
  match encodeVec i with
  | some w => some (.vec w)
  | none =>
    match encodeMem i with
    | some w => some (.mem w)
    | none =>
      match encodeCmx i with
      | some w => some (.cmx w)
      | none => (encodeCtl i).map .ctl

/-- The header of a bundle (05 R89). -/
structure Header where
  gap : BitVec 5
  wait : BitVec 8
  y : Bool
  w : Bool
deriving DecidableEq, Repr

/-- G, the issue gap (05 R89). -/
def Header.g (h : Header) : Nat := h.gap.toNat + 1

/-- A slot of a bundle: empty, an instruction, or bits with what is wrong with them. -/
abbrev SlotRes := Option (Except Prob Instr)

/-- A bundle read: its header, what is wrong with the header, and its four slots (05 R88 to R91). -/
structure Bundle where
  hdr : Header
  hdrBad : Option Prob
  vec : SlotRes
  mem : SlotRes
  cmx : SlotRes
  ctl : SlotRes

/-- What is wrong with a header (22 R386): bit [15], then bits [31:20]. -/
def headerBad (h : Word) : Option Prob :=
  if h.getLsbD 15 then some ⟨0x03, 15, 1⟩
  else if h.extractLsb' 20 12 != 0#12 then some ⟨0x03, 20, (h.extractLsb' 20 12).setWidth 16⟩
  else none

/-- One slot under its presence bit (05 R90, 22 R386). -/
def slotOf {n : Nat} (present : Bool) (w : BitVec n) (d : BitVec n → Except Prob Instr) : SlotRes :=
  if present then some (d w)
  else if w == 0#n then none
  else some (.error ⟨0x06, 0, w.setWidth 16⟩)

/-- A bundle read from its 256 bits (05 R88 to R90). -/
def decodeBundle (b : BundleWord) : Bundle :=
  let h := b.extractLsb' 0 32
  { hdr := ⟨h.extractLsb' 0 5, h.extractLsb' 5 8, h.getLsbD 13, h.getLsbD 14⟩
    hdrBad := headerBad h
    vec := slotOf (h.getLsbD 16) (b.extractLsb' 32 64) decodeVec
    mem := slotOf (h.getLsbD 17) (b.extractLsb' 96 64) decodeMem
    cmx := slotOf (h.getLsbD 18) (b.extractLsb' 160 64) decodeCmx
    ctl := slotOf (h.getLsbD 19) (b.extractLsb' 224 32) decodeCtl }

/-- The bundle whose control slot is `w` and whose other slots are empty: gap 1, no wait (05 R88, R89). A YIELD stands in a
bundle with Y set (09 R206). -/
def ctlBundle (w : Word) : BundleWord :=
  let y : Word := if w.extractLsb' 0 6 == 0x20#6 && !w.getLsbD 31 then 0x2000 else 0
  w ++ 0#192 ++ (0x80000#32 ||| y)

/-- The 32 bytes of a bundle as they stand in memory, lowest address first (05 R88). -/
def bundleBytes (b : BundleWord) : List Byte := (List.range 32).map fun k => b.extractLsb' (8 * k) 8

/-- The bundle of 32 bytes of memory, lowest address first (05 R88). -/
def bytesBundle (l : List Byte) : BundleWord := l.foldr (fun x acc => (acc <<< 8) ||| x.setWidth 256) 0

/-- The instruction whose bits, numbered as the opcode table numbers them, are `w`. The table gives bits to the rows of the control
slot alone, one 32-bit word each: the word is laid into a bundle as memory holds it and the bundle is read. -/
def decodeTableWord (nbits w : Nat) : Option Instr :=
  if nbits == 32 then
    let b := decodeBundle (bytesBundle (bundleBytes (ctlBundle (BitVec.ofNat 32 w))))
    match b.ctl with
    | some (.ok i) => some i
    | _ => none
  else none

end Sys2Proof
end

