-- ==== Sys2Proof/Machine/Operands.lean ====
section
/-!
DEFINITION. Registers of a board, operand forms and their values (03 R55 to R58, 05 R92, R93, 06 R113), and which registers each
instruction of the slots names: what it reads and writes, with the latency of the landing.
-/
namespace Sys2Proof.Machine

/-- The other slot's contents or its own. -/
def Board.slotOf (b : Board) (isB : Bool) : PcSlot := if isB then b.slotB else b.slotA

/-- A PC slot replaced. -/
def Board.setSlot (b : Board) (isB : Bool) (x : PcSlot) : Board := if isB then { b with slotB := x } else { b with slotA := x }

/-- A vector register. -/
def Board.vreg (b : Board) (n : Nat) : Lanes := b.v.getD n []
/-- A uniform register. -/
def Board.sreg (b : Board) (n : Nat) : Word := b.s.getD n 0
/-- A mask register. -/
def Board.mreg (b : Board) (n : Nat) : Mask := b.m.getD n 0
/-- A uniform pair: low half in the even register (00 R5). -/
def Board.pair (b : Board) (n : Nat) : DWord := b.sreg (n + 1) ++ b.sreg n
/-- A buffer record. -/
def Board.brec (b : Board) (n : Nat) : BufRec := b.b.getD n {}
/-- A peg. -/
def Board.peg (b : Board) (n : Nat) : Peg := b.pegs.getD n {}

/-- An indexed register number (03 R58). -/
def Board.indexed (b : Board) (n : Nat) : Nat := 4 * ((n / 4 + (b.ix.getD (n % 4) 0).toNat) % 16) + n % 4

/-- The vector register an operand names. -/
def Board.vnum (b : Board) (idx : Bool) (n : BitVec 6) : Nat := if idx then b.indexed n.toNat else n.toNat

/-- A short immediate as raw bits (05 R93). -/
def immWord (i : BitVec 9) : Word := i.signExtend 32

/-- The value of an operand for a lane: `k` registers on for groups; uniform and dc operands are the same in every lane. -/
def Board.laneVal (b : Board) (slotB : Bool) (o : Opd) (k l : Nat) : Word :=
  match o with
  | .v i n => laneAt (b.vreg (b.vnum i n + k)) l
  | .s n => b.sreg (n.toNat + k)
  | .dv d => laneAt (b.dv.getD d.toNat []) l
  | .dc d => if d == 0#1 then (b.slotOf slotB).dc1 else (b.slotOf slotB).dc2
  | .imm i => immWord i
  | .m n => BitVec.ofBool ((b.mreg n.toNat).getLsbD l) |>.setWidth 32
  | .nil => 0

/-- The values of an operand in all lanes. -/
def Board.lanesVal (b : Board) (slotB : Bool) (o : Opd) : Lanes := lanesOf fun l => b.laneVal slotB o 0 l

/-- A uniform-kind operand (06 R113). -/
def Board.uniVal (b : Board) (slotB : Bool) (o : Opd) : Word := b.laneVal slotB o 0 0

/-- The uniform registers of an operand group (08 R162). -/
def Board.group (b : Board) (u n : Nat) : List Word := tab n fun k => b.sreg (u + k)

/-- A location an instruction names (22 R397). -/
inductive RegRef
  | v (n : Nat)
  | s (n : Nat)
  | m (n : Nat)
  | b (n : Nat)
  | mpc
  | dv (k : Nat)
  | dc (k : Nat)
deriving DecidableEq, Repr

/-- LOC of a WINDOW code (22 R397). -/
def RegRef.loc : RegRef → Nat
  | .v n => n
  | .s n => 0x200 + n
  | .m n => 0x408 + n
  | .b n => 0x600 + n
  | .mpc => 0x7FF
  | .dv k => 0x401 + k
  | .dc k => 0x405 + k

/-- How a location is used: read, written by a fixed-latency landing, filled by a variable-latency operation on a peg, or named
only, as a register of an operand group that is not read (08 R162). -/
inductive How
  | read
  | land (lat : Nat)
  | fill (peg : Option (BitVec 3))
  | named
deriving DecidableEq, Repr

/-- One use: lowest bit of the field, or 64 + k for register k of a group (22 R385). -/
structure Use where
  pos : Nat
  reg : RegRef
  how : How
deriving DecidableEq, Repr

/-- The registers of an operand of `k` registers. -/
def Board.opdUses (b : Board) (pos : Nat) (o : Opd) (k : Nat) (how : How) : List Use :=
  match o with
  | .v i n => tab k fun j => ⟨pos, .v (b.vnum i n + j), how⟩
  | .s n => tab k fun j => ⟨pos, .s (n.toNat + j), how⟩
  | .m n => [⟨pos, .m n.toNat, how⟩]
  | .dv d => [⟨pos, .dv d.toNat, how⟩]
  | .dc d => [⟨pos, .dc d.toNat, how⟩]
  | .imm _ | .nil => []

/-- Uniform registers `n` to `n + k - 1` in a field. -/
def sUses (pos n k : Nat) (how : How) : List Use := tab k fun j => ⟨pos, .s (n + j), how⟩

/-- An operand group: registers read, and registers only named (08 R162). -/
def groupUses (u k : Nat) (read : Nat → Bool) : List Use :=
  tab k fun j => ⟨64 + j, .s (u + j), if read j then .read else .named⟩

/-- Registers of a CPB descriptor that are read (08 R170). -/
def cpbReads (n : Nat) (fl : BitVec 5) (j : Nat) : Bool :=
  match j with
  | 2 | 3 => !fl.getLsbD 3
  | 5 | 7 | 9 => 2 ≤ n
  | 6 | 8 | 10 => n == 3
  | 12 | 13 => fl.getLsbD 3 || fl.getLsbD 2
  | _ => true

/-- Scales apply to an operand of format code `f` (08 R178). -/
def scaled (f : Nat) (xs : Bool) : Bool := f == 5 || f == 8 || ((f == 3 || f == 4) && xs)

/-- Registers of a matrix step's group that are read under a format word (08 R178). -/
def mmaReads (fw : Word) (j : Nat) : Bool :=
  match j with
  | 6 | 7 => scaled (bits fw.toNat 0 4) (fw.getLsbD 8)
  | 8 | 9 => scaled (bits fw.toNat 4 4) (fw.getLsbD 8)
  | _ => true

/-- Destination and sources of a V3 instruction whose destination is an operand. -/
def Board.vUses (b : Board) (d : Opd) (lat : Nat) (srcs : List (Nat × Opd)) : List Use :=
  srcs.flatMap (fun p => b.opdUses p.1 p.2 1 .read) ++ b.opdUses 7 d 1 (.land lat)

/-- Destination and sources of a V3 instruction whose destination is a mask. -/
def Board.mUses (b : Board) (d : BitVec 3) (lat : Nat) (srcs : List (Nat × Opd)) : List Use :=
  srcs.flatMap (fun p => b.opdUses p.1 p.2 1 .read) ++ [⟨7, .m d.toNat, .land lat⟩]

/-- The registers that the instructions of the vector slot name, with the latency of the landing (06 R115). -/
def Board.usesVec (b : Board) : Instr → List Use
  | .mov d a | .not d a | .popc d a | .clz d a | .brev d a => b.vUses d 4 [(18, a)]
  | .movi d _ => b.vUses d 4 []
  | .sel d a c m => b.vUses d 4 [(18, a), (29, c), (40, .m m)]
  | .fadd d a c _ | .fsub d a c _ | .fmul d a c _ | .fmin d a c | .fmax d a c | .imul d a c | .imulh d a c _
  | .hadd2 d a c _ _ | .hsub2 d a c _ _ | .hmul2 d a c _ _ | .hmin2 d a c _ | .hmax2 d a c _ =>
    b.vUses d 6 [(18, a), (29, c)]
  | .ffma d a c e _ | .imad d a c e | .hfma2 d a c e _ _ => b.vUses d 6 [(18, a), (29, c), (40, e)]
  | .fabs d a | .fneg d a | .fclass d a | .cvt d a _ _ _ _ => b.vUses d 6 [(18, a)]
  | .fcmp d a c _ => b.mUses d 6 [(18, a), (29, c)]
  | .frcp d a | .frsq d a | .fexp2 d a | .flog2 d a | .fsin d a | .fcos d a | .ftanh d a => b.vUses d 12 [(18, a)]
  | .fsqrt d a _ => b.vUses d 14 [(18, a)]
  | .iadd d a c _ _ | .isub d a c _ _ | .imin d a c _ | .imax d a c _ | .and d a c | .or d a c | .xor d a c
  | .shl d a c | .shr d a c | .sar d a c => b.vUses d 4 [(18, a), (29, c)]
  | .icmp d a c _ _ => b.mUses d 4 [(18, a), (29, c)]
  | .bfe d a c e _ | .bfi d a c e => b.vUses d 4 [(18, a), (29, c), (40, e)]
  | .narrow d a c _ _ _ _ => b.vUses d 10 [(18, a)] ++ sUses 40 c.toNat 1 (.land 10)
  | .qscale d a _ => b.opdUses 18 a 1 .read ++ sUses 7 d.toNat 1 (.land 10)
  | .shflIdx d a c | .shflUp d a c | .shflDown d a c | .shflXor d a c | .bcast d a c | .rot d a c | .sort2 d a c _ _ =>
    b.vUses d 8 [(18, a), (29, c)]
  | .scan d a _ _ | .reduce d a _ => b.vUses d 14 [(18, a)]
  | .vote d a _ => b.opdUses 18 (.m a) 1 .read ++ sUses 7 d.toNat 1 (.land 6)
  | .hash d a c => b.vUses d 10 [(18, a), (29, c)]
  | .mand d a c | .mor d a c | .mxor d a c | .mandn d a c => b.mUses d 4 [(18, .m a), (29, .m c)]
  | .mnot d a | .mmov d a => b.mUses d 4 [(18, .m a)]
  | .mlane d a c => b.mUses d 4 [(18, a), (29, c)]
  | .mbal d a => b.mUses d 4 [(18, a)]
  | _ => []

/-- The registers that the instructions of the memory slot name (07 R141, R147, R152, 12 R269). -/
def Board.usesMem (b : Board) : Instr → List Use
  | .ld d br x _ p w _ => ⟨18, .b br.toNat, .read⟩ :: b.opdUses 23 x 1 .read ++ b.opdUses 7 d w.regs (.fill p)
  | .st d br x _ _ w _ | .stu d br x _ _ w _ =>
    b.opdUses 7 d w.regs .read ++ ⟨18, .b br.toNat, .read⟩ :: b.opdUses 23 x 1 .read
  | .ldu d br x _ p w _ => ⟨18, .b br.toNat, .read⟩ :: b.opdUses 23 x 1 .read ++ sUses 7 d.toNat w.regs (.fill p)
  | .lds d x _ p w => b.opdUses 23 x 1 .read ++ b.opdUses 7 d w.regs (.fill p)
  | .sts d x _ _ w => b.opdUses 7 d w.regs .read ++ b.opdUses 23 x 1 .read
  | .pref br x _ _ => ⟨18, .b br.toNat, .read⟩ :: b.opdUses 23 x 1 .read
  | .atom d a br x _ p op _ wd =>
    (if op == .cas then b.opdUses 7 d (if wd then 2 else 1) .read else []) ++ ⟨18, .b br.toNat, .read⟩ ::
      b.opdUses 23 x 1 .read ++ b.opdUses 46 a (if wd then 2 else 1) .read
      ++ b.opdUses 7 d (if wd then 2 else 1) (.fill p)
  | .red a br x _ _ _ _ wd | .redu a br x _ _ _ _ wd =>
    ⟨18, .b br.toNat, .read⟩ :: b.opdUses 23 x 1 .read ++ b.opdUses 46 a (if wd then 2 else 1) .read
  | .atoms d a x _ p op _ wd =>
    (if op == .cas then b.opdUses 7 d (if wd then 2 else 1) .read else []) ++
      b.opdUses 23 x 1 .read ++ b.opdUses 46 a (if wd then 2 else 1) .read
      ++ b.opdUses 7 d (if wd then 2 else 1) (.fill p)
  | .reds a x _ _ _ _ wd => b.opdUses 23 x 1 .read ++ b.opdUses 46 a (if wd then 2 else 1) .read
  | .atomu d a br x _ p op _ wd =>
    (if op == .cas then sUses 7 d.toNat (if wd then 2 else 1) .read else []) ++ ⟨18, .b br.toNat, .read⟩ ::
      b.opdUses 23 x 1 .read ++ b.opdUses 46 a (if wd then 2 else 1) .read
      ++ sUses 7 d.toNat (if wd then 2 else 1) (.fill p)
  | .brset br x => sUses 23 x.toNat 4 .read ++ [⟨18, .b br.toNat, .land 2⟩]
  | .brget br d => ⟨18, .b br.toNat, .read⟩ :: sUses 7 d.toNat 4 (.land 2)
  | .watchArm d x p => sUses 23 x.toNat 2 .read ++ sUses 7 d.toNat 1 (.fill p)
  | .watchDisarm x _ => sUses 23 x.toNat 1 .read
  | .ldtr d p => sUses 7 d.toNat 8 (.fill p)
  | _ => []

/-- The registers that the instructions of the copy/matrix slot name (08, 11 R239). -/
def Board.usesCmx (b : Board) : Instr → List Use
  | .cpa f g br _ _ => b.opdUses 7 f 1 .read ++ b.opdUses 40 g 1 .read ++ [⟨51, .b br.toNat, .read⟩]
  | .cpb u n fl _ => groupUses u.toNat 14 (cpbReads n.toNat fl)
  | .cpr u _ fl _ => groupUses u.toNat 10 fun j => j < 8 || fl.getLsbD 3
  | .mma f u _ _ => b.opdUses 7 f 1 .read ++ groupUses u.toNat 10 (mmaReads (b.laneVal false f 0 0))
  | .mmas f u _ _ => b.opdUses 7 f 1 .read ++ groupUses u.toNat 10 (mmaReads (b.laneVal false f 0 0)) ++ [⟨256, .mpc, .read⟩]
  | .accLd u _ _ | .accSt u _ _ => groupUses u.toNat 4 fun _ => true
  | .accRdv g f _ p => b.opdUses 7 f 1 .read ++ b.opdUses 40 g 1 (.fill p)
  | .accWrv f g _ _ => b.opdUses 7 f 1 .read ++ b.opdUses 40 g 1 .read
  | .setmpc u => sUses 18 u.toNat 2 .read ++ [⟨256, .mpc, .land 2⟩]
  | .cbtLd u _ _ => sUses 18 u.toNat 2 .read
  | .routeCount u _ | .routeXchg u _ | .routePlace u _ | .routeScatter u _ | .routeCombine u _ =>
    groupUses u.toNat 4 fun _ => true
  | .routeStat g u _ p => groupUses u.toNat 4 (fun _ => true) ++ sUses 40 g.toNat 1 (.fill p)
  | _ => []

/-- A three-register uniform operation (09 R192). -/
def regUses (d a c : BitVec 9) : List Use :=
  sUses 0 c.toNat 1 .read ++ sUses 9 a.toNat 1 .read ++ sUses 18 d.toNat 1 (.land 2)

/-- An immediate uniform operation (09 R192). -/
def immUses (d a : BitVec 9) : List Use := sUses 15 a.toNat 1 .read ++ sUses 6 d.toNat 1 (.land 2)

/-- Register of a GETSYS or SETSYS (09 R208). -/
def sysUses (y : BitVec 12) (d : BitVec 9) (how : How) : List Use :=
  match SysReg.ofNum y with
  | some .laneid => [⟨6, .v (d.toNat % 64), how⟩]
  | some r => sUses 6 d.toNat (if r.pair then 2 else 1) how
  | none => []

/-- Operand registers of a gate form (09 R201): `opd` when the form reads an operand. -/
def barUses (k : GateKind) (a : BitVec 9) (opd : Bool) : List Use :=
  if k == .remote then sUses 16 a.toNat (if opd then 3 else 2) .read
  else if opd then sUses 16 a.toNat 1 .read else []

/-- The registers that the instructions of the control slot name (09 R189). -/
def Board.usesCtl (b : Board) : Instr → List Use
  | .sadd d a c | .ssub d a c | .smul d a c | .smulh d a c | .sand d a c | .sor d a c | .sxor d a c | .sshl d a c
  | .sshr d a c | .ssar d a c | .smin d a c | .smax d a c | .sminu d a c | .smaxu d a c | .sslt d a c | .ssltu d a c =>
    regUses d a c
  | .saddImm d a _ | .ssubImm d a _ | .smulImm d a _ | .smulhImm d a _ | .sandImm d a _ | .sorImm d a _ | .sxorImm d a _
  | .sshlImm d a _ | .sshrImm d a _ | .ssarImm d a _ | .sminImm d a _ | .smaxImm d a _ | .sminuImm d a _
  | .smaxuImm d a _ | .ssltImm d a _ | .ssltuImm d a _ => immUses d a
  | .smovl d _ => sUses 6 d.toNat 1 (.land 2)
  | .smovh d _ => sUses 6 d.toNat 1 .read ++ sUses 6 d.toNat 1 (.land 2)
  | .dadd d a c | .dsub d a c =>
    sUses 14 (2 * a.toNat) 2 .read ++ sUses 22 (2 * c.toNat) 2 .read ++ sUses 6 (2 * d.toNat) 2 (.land 2)
  | .daddi d a _ => sUses 14 (2 * a.toNat) 2 .read ++ sUses 6 (2 * d.toNat) 2 (.land 2)
  | .brcNz s _ | .brcZ s _ => sUses 6 s.toNat 1 .read
  | .loop s _ => sUses 6 s.toNat 1 .read ++ sUses 6 s.toNat 1 (.land 2)
  | .brx a => sUses 14 (2 * a.toNat) 2 .read
  | .calli f => b.opdUses 6 f 1 .read
  | .div q _ _ _ => [⟨6, .m q.toNat, .read⟩]
  | .barAw k _ a | .barArr k _ a => barUses k a false
  | .barWait k _ a | .barInit k _ a => barUses k a true
  | .launch a _ | .launchG a _ => sUses 6 a.toNat 2 .read
  | .getsys y d => sysUses y d (.land 2)
  | .setsys y d => sysUses y d .read
  | .time d | .tick d => sUses 6 d.toNat 2 (.land 2)
  | _ => []

/-- The registers an instruction of the slots names. -/
def Board.uses (b : Board) (i : Instr) : List Use := b.usesVec i ++ b.usesMem i ++ b.usesCmx i ++ b.usesCtl i

/-- The peg an instruction counts on (05 R94). -/
def pegOf : Instr → Option (BitVec 3)
  | .ld _ _ _ _ p _ _ | .st _ _ _ _ p _ _ | .ldu _ _ _ _ p _ _ | .stu _ _ _ _ p _ _ | .lds _ _ _ p _ | .sts _ _ _ p _
  | .atom _ _ _ _ _ p _ _ _ | .red _ _ _ _ p _ _ _ | .atoms _ _ _ _ p _ _ _ | .reds _ _ _ p _ _ _
  | .atomu _ _ _ _ _ p _ _ _ | .redu _ _ _ _ p _ _ _ | .watchArm _ _ p | .watchDisarm _ p | .ldtr _ p
  | .cpa _ _ _ _ p | .cpb _ _ _ p | .cpr _ _ _ p | .mma _ _ _ p | .mmas _ _ _ p | .accClr _ p | .accLd _ _ p
  | .accSt _ _ p | .accRdv _ _ _ p | .accWrv _ _ _ p | .cbtLd _ _ p | .routeCount _ p | .routeXchg _ p
  | .routePlace _ p | .routeScatter _ p | .routeCombine _ p | .routeStat _ _ _ p | .launch _ p | .launchG _ p => p
  | _ => none

/-- The accumulator tile an instruction names (08 R175, R181, R182). -/
def tileOf : Instr → Option Nat
  | .mma _ _ t _ | .mmas _ _ t _ | .accClr t _ | .accLd _ t _ | .accSt _ t _ | .accRdv _ _ t _ | .accWrv _ _ t _ => some t.toNat
  | _ => none

/-- The slot an instruction stands in, as a trap names it (21 R375); 7 for a step of the device. -/
def slotNumOf (i : Instr) : Nat :=
  match encode i with
  | some (.vec _) => 0
  | some (.mem _) => 1
  | some (.cmx _) => 2
  | some (.ctl _) => 3
  | none => 7

/-- The 64-bit slot of an instruction as INSN of a parked entry holds it (21 R377, 26 R446). -/
def insnOf (i : Instr) : DWord :=
  match encode i with
  | some (.vec w) | some (.mem w) | some (.cmx w) => w
  | some (.ctl w) => w.setWidth 64
  | none => 0

end Sys2Proof.Machine
end

