-- ==== Sys2Proof/Machine/Ops.lean ====
section
/-!
DEFINITION. Boards, bents, grids, contexts and frames found and replaced in the state; translation (14 R294 to R296); memory at its
home, with the windows onto peers and the host (10 R224, 15 R317, R318).
-/
namespace Sys2Proof.Machine

/-- What a meaning answers. -/
abbrev Out := Host.Outcome State Fault Refusal

/-! ### Finding and replacing -/

/-- A board by its number. -/
def State.board? (s : State) (id : Nat) : Option Board :=
  match s.bd with
  | some b => if b.id == id then some b else s.boards.find? (·.id == id)
  | none => s.boards.find? (·.id == id)

/-- A board replaced where it stands. -/
def State.setBoard (s : State) (b : Board) : State :=
  match s.bd with
  | some x => if x.id == b.id then { s with bd := some b }
    else { s with boards := s.boards.map fun y => if y.id == b.id then b else y }
  | none => { s with boards := s.boards.map fun y => if y.id == b.id then b else y }

/-- A board changed. -/
def State.modBoard (s : State) (id : Nat) (f : Board → Board) : State :=
  match s.board? id with
  | some b => s.setBoard (f b)
  | none => s

/-- Every live board. -/
def State.allBoards (s : State) : List Board :=
  match s.bd with
  | some b => b :: s.boards
  | none => s.boards

/-- Every board changed. -/
def State.mapBoards (s : State) (f : Board → Board) : State :=
  { s with bd := s.bd.map f, boards := s.boards.map f }

/-- A board taken out: it has retired or been ended. -/
def State.dropBoard (s : State) (id : Nat) : State :=
  { s with
    bd := match s.bd with
      | some b => if b.id == id then none else some b
      | none => none
    boards := s.boards.filter (·.id != id) }

/-- The focus moved onto a board. -/
def State.focusOn (s : State) (id : Nat) : State :=
  match s.bd with
  | some b =>
    if b.id == id then s
    else match s.boards.find? (·.id == id) with
      | some x => { s with bd := some x, boards := b :: s.boards.filter (·.id != id) }
      | none => s
  | none =>
    match s.boards.find? (·.id == id) with
    | some x => { s with bd := some x, boards := s.boards.filter (·.id != id) }
    | none => s

/-- A bent by its number. -/
def State.bent? (s : State) (uid : Nat) : Option Bent := s.bents.find? (·.uid == uid)
/-- A bent changed. -/
def State.modBent (s : State) (uid : Nat) (f : Bent → Bent) : State :=
  { s with bents := s.bents.map fun x => if x.uid == uid then f x else x }
/-- A grid by its number. -/
def State.grid? (s : State) (uid : Nat) : Option Grid := s.grids.find? (·.uid == uid)
/-- A grid changed. -/
def State.modGrid (s : State) (uid : Nat) (f : Grid → Grid) : State :=
  { s with grids := s.grids.map fun x => if x.uid == uid then f x else x }
/-- A context by its identifier. -/
def State.ctx? (s : State) (id : BitVec 16) : Option Ctx := s.ctxs.find? (·.ctxid == id)
/-- A context's registers, the values of no context where it is not live. -/
def State.ctxOf (s : State) (id : BitVec 16) : Ctx := (s.ctx? id).getD ⟨0, 0, 0, 0, 0, 0, 0, 0, 0, 0, [], 0, 0, 0, 0, 0, [], 0, 0, false, 0, 0, false, 0, [], [], 1, 1, none, []⟩
/-- A context changed. -/
def State.modCtx (s : State) (id : BitVec 16) (f : Ctx → Ctx) : State :=
  { s with ctxs := s.ctxs.map fun x => if x.ctxid == id then f x else x }
/-- A frame. -/
def State.frame (s : State) (f : Nat) : Frame := s.frames.getD f {}
/-- A frame changed. -/
def State.modFrame (s : State) (f : Nat) (g : Frame → Frame) : State := { s with frames := modAt f g s.frames }
/-- Bay `n` of the module: frame n div 4, bay n mod 4. -/
def State.bay (s : State) (n : Nat) : Bay := (s.frame (n / 4)).bays.getD (n % 4) {}
/-- A bay changed. -/
def State.modBay (s : State) (n : Nat) (g : Bay → Bay) : State :=
  s.modFrame (n / 4) fun f => { f with bays := modAt (n % 4) g f.bays }
/-- Core `n` of the package (01 R8). -/
def State.core (s : State) (n : Nat) : Core := (s.bay (n / 4)).cores.getD (n % 4) {}
/-- A core changed. -/
def State.modCore (s : State) (n : Nat) (g : Core → Core) : State :=
  s.modBay (n / 4) fun y => { y with cores := modAt (n % 4) g y.cores }
/-- A function. -/
def State.fn (s : State) (n : Nat) : Fn := s.fns.getD n {}
/-- A function changed. -/
def State.modFn (s : State) (n : Nat) (g : Fn → Fn) : State := { s with fns := modAt n g s.fns }
/-- A queue. -/
def State.queue (s : State) (q : Nat) : Queue := look q {} s.queues
/-- A queue changed. -/
def State.modQueue (s : State) (q : Nat) (g : Queue → Queue) : State := { s with queues := put q (g (s.queue q)) s.queues }

/-- A fresh number for a board, a bent, a grid, an operation or a request. -/
def State.fresh (s : State) : State × Nat := ({ s with nextUid := s.nextUid + 1 }, s.nextUid)

/-- A free value taken: the counter advances. -/
def State.free (s : State) : State := { s with freeCtr := s.freeCtr + 1 }

/-- TIME in ns (16 R339): the count as the time reference keeps it. -/
def State.now (s : State) : Nat := s.time / 6552

/-- TIME as a register shows it. -/
def State.timeWord (s : State) : BitVec 64 := BitVec.ofNat 64 s.now

/-- Board slot number of the module, COREID x 96 + SLOTID (02 R33). -/
def Board.slotIdx (b : Board) : Nat := b.core * 96 + b.slot

/-! ### Energy (16 R341, R343) -/

/-- A sum in 48 bits that stays at its largest value, and whether it did (16 R343). -/
def sat48 (x : BitVec 48) (n : Nat) : BitVec 48 × Bool :=
  if 2 ^ 48 ≤ x.toNat + n then (BitVec.allOnes 48, true) else (x + BitVec.ofNat 48 n, false)

/-- Weight of an event class (0 VF, 1 VI, 2 MEM, 3 MX16, 4 MX8, 5 MX4, 6 MXI, 7 ACC, 8 CPY, 9 CTL) in a bay at a level. DESIGN CHOICE: log 11. -/
def weight (bay level cls : Nat) : Nat := Config.energyWeight bay (16 * level + cls) % 2 ^ 32

/-- `n` events of a class added to a context's EDYN at a level (16 R341). -/
def State.chargeAt (s : State) (c : BitVec 16) (bay level cls n : Nat) : State :=
  s.modCtx c fun x =>
    let r := sat48 x.edyn (n * weight bay level cls)
    { x with edyn := r.1, est := if r.2 then x.est ||| 1 else x.est }

/-- `n` events of a class added to a context's EDYN at the level of the bay (16 R341). PRESUMED: log 47. -/
def State.charge (s : State) (c : BitVec 16) (bay cls n : Nat) : State := s.chargeAt c bay (s.bay bay).running cls n

/-- The level that a frame's clock takes at its next period boundary (01 R17): 1 in early service, else the highest running level of its bays
that are in service. DESIGN CHOICE: log 87. -/
def State.frameLevel (s : State) (f : Nat) : Nat :=
  let ys := (s.frame f).bays.filter fun y => !y.stopped
  if !s.late.isEmpty then 1 else if ys.isEmpty then (s.frame f).clk else (ys.map (·.running)).foldl max 0

/-! ### Translation (14 R294, R295) -/

/-- What an access asks of a leaf. -/
inductive Acc | r | w | x | rw
deriving DecidableEq, Repr

/-- Physical address of the entry of a walk at a level. -/
def entryAddr (table va level : Nat) : Nat :=
  if level == 0 then table + 8 * bits va 16 5 else table + 8 * bits va (12 + 9 * level) 9

/-- Bytes of a page whose leaf stands at a level. -/
def pageSize (level : Nat) : Nat := if level == 0 then 65536 else if level == 1 then 2097152 else 1073741824

/-- The checks of an entry (14 R295): true when it is malformed. -/
def malformed (w : DWord) (level : Nat) : Bool :=
  let leaf := w.getLsbD 1
  let tgt := w.extractLsb' 62 2
  w.extractLsb' 40 12 != 0 || w.extractLsb' 5 3 != 0 || (level == 0 && !leaf) || (level == 3 && leaf)
    || (!leaf && (tgt != 0 || w.extractLsb' 52 10 != 0)) || tgt == 3 || (leaf && tgt != 1 && w.extractLsb' 52 10 != 0)
    || (leaf && bits w.toNat 8 32 * 256 % pageSize level != 0)

/-- A line of local memory keeps failing check bits (23 R414). -/
def State.badAt (s : State) (pa : Nat) : Bool := s.badLines.contains (pa / 128)

/-- A walk from the entry of a level down: the leaf and its level, or the cause of 23 R404. -/
def walk (s : State) (va : Nat) : Nat → Nat → Except Nat (DWord × Nat)
  | level, table =>
    let a := entryAddr table va level
    if s.badAt a then .error 0x20
    else
      let w : DWord := BitVec.ofNat 64 (s.mem.num a 8)
      if !w.getLsbD 0 then .error 0x18
      else if malformed w level then .error 0x1A
      else if w.getLsbD 1 then .ok (w, level)
      else match level with
        | 0 => .error 0x1A
        | l + 1 => walk s va l (bits w.toNat 8 32 * 256)

/-- The leaf that serves an address: one that the TLBs hold may serve it still, as the machine chooses; else the walk (14 R296). DESIGN CHOICE: log 13. -/
def State.leafOf (s : State) (c : BitVec 16) (va : Nat) : Except Nat (DWord × Nat) :=
  match s.tlb.find? (fun e => e.ctx == c && e.base ≤ va && va < e.base + e.size) with
  | some e => if Config.chooseBit s.freeCtr then .ok (e.leaf, e.size) else
      match walk s va 3 (s.ctxOf c).root.toNat with
      | .ok (w, l) => .ok (w, pageSize l)
      | .error k => .error k
  | none =>
    match walk s va 3 (s.ctxOf c).root.toNat with
    | .ok (w, l) => .ok (w, pageSize l)
    | .error k => .error k

/-- The leaf's rights against an access (14 R295). -/
def leafPermits (w : DWord) : Acc → Bool
  | .r => w.getLsbD 2
  | .w => w.getLsbD 3
  | .x => w.getLsbD 4 && w.extractLsb' 62 2 != 1
  | .rw => w.getLsbD 2 && w.getLsbD 3

/-- A virtual address translated (14 R294 to R296, 15 R317, R318): where it lies, or the cause of 23 R404. -/
def State.translate (s : State) (c : BitVec 16) (va : Nat) (acc : Acc) : Except Nat Target :=
  if 2 ^ 48 ≤ va then .error 0x16
  else match s.leafOf c va with
    | .error k => .error k
    | .ok (w, size) =>
      if !leafPermits w acc then .error 0x19
      else
        let a := bits w.toNat 8 32 * 256 + va % size
        match (w.extractLsb' 62 2).toNat with
        | 0 => .ok (.loc a)
        | 1 => .ok (.peer (w.extractLsb' 52 10).toNat a)
        | _ => .ok (.host (((s.fn (s.ctxOf c).fn).hwbase.toNat + a) % 2 ^ 64))

/-- The page of an address: base and size (14 R294). -/
def State.pageOf (s : State) (c : BitVec 16) (va : Nat) : Except Nat (Nat × Nat) :=
  if 2 ^ 48 ≤ va then .error 0x16
  else match s.leafOf c va with
    | .error k => .error k
    | .ok (_, size) => .ok (va / size * size, size)

/-- The TLBs fill with the leaf of an address (14 R296). -/
def State.fillTlb (s : State) (c : BitVec 16) (va : Nat) : State :=
  match walk s va 3 (s.ctxOf c).root.toNat with
  | .error _ => s
  | .ok (w, l) =>
    let e : TlbEnt := ⟨c, va / pageSize l * pageSize l, pageSize l, w⟩
    if s.tlb.contains e then s
    else { s with tlb := e :: s.tlb.filter fun x => !(x.ctx == c && x.base ≤ va && va < x.base + x.size) }

/-- The home frame of a physical address (10 R224). -/
def homeFrame (pa : Nat) : Nat := bits pa 37 3
/-- The HBM stack of a physical address within its frame (10 R224). -/
def homeStack (pa : Nat) : Nat := bits pa 12 1 ^^^ bits pa 20 1
/-- The L2 slice of a physical address, the ordering point of its line, as a bay of the module (10 R224). -/
def homeSlice (pa : Nat) : Nat := 4 * homeFrame pa + (bits pa 7 2 ^^^ bits pa 13 2)

/-- Bytes of a target as a control block's read gives them at once. A read of a peer's memory gives free values (DESIGN CHOICE:
log 22). DESIGN CHOICE: log 2. -/
def State.readTarget (s : State) (t : Target) (n : Nat) : List Byte :=
  match t with
  | .loc pa => s.mem.read pa n
  | .host a => s.hostMem.read a n
  | .peer m a => tab n fun k => Config.peerByte s.freeCtr m (a + k)

/-- The target is the host's. -/
def Target.isHost : Target → Bool
  | .host _ => true
  | _ => false

/-- No cause of 23 R404: a line of a peer has still to be read, or a word there to be added to. -/
def waitRead : Nat := 256
def waitAdd : Nat := 257

/-- The state as one reader of the device sees it: with what peers have returned to it, and to no other (10 R237). -/
def State.asReader (s : State) (reader : Nat) : State := { s with fetches := s.fetches.filter (·.reader == reader) }

/-- What a peer has returned to a reader of the device: the bytes, or the cause of the failure. -/
def State.fetched (s : State) (m a : Nat) (kind : FetchKind) : Except Nat (List Byte) :=
  let wait := if kind == .add then waitAdd else waitRead
  match s.fetches.find? fun f => f.mod == m && f.addr == a && f.kind == kind with
  | some f => match f.got with
    | some (.ok l) => .ok l
    | some (.fault k) => .error k.toNat
    | some .stopped => .error 0x1F
    | none => .error wait
  | none => .error wait

/-- A read of a peer's memory within the step that needs it: refused outside a pod group (15 R316), failed when the peer is lost (26 R445), and else
whatever the peer may answer (23 R411). DESIGN CHOICE: log 22. -/
def State.peerNow (s : State) (c : BitVec 16) (m a n : Nat) : Except Nat (List Byte) :=
  if (s.ctxOf c).podgrp == 0 then .error 0x72
  else if s.lost.contains m then .error 0x71
  else match Config.choose s.freeCtr 5 % 5 with
    | 1 => .error 0x1B
    | 2 => .error 0x1C
    | 3 => .error 0x20
    | 4 => .error 0x72
    | _ => .ok (s.readTarget (.peer m a) n)

/-- Bytes of one line of a peer: as it has returned them, or with `now` as it may answer. -/
def State.peerBytes (s : State) (now : Bool) (c : BitVec 16) (m a va n : Nat) : Except (Nat × Nat) (List Byte) :=
  if now then (s.peerNow c m a n).mapError fun k => (k, va)
  else match s.fetched m (a - a % 128) .line with
    | .ok l => .ok ((l.drop (a % 128)).take n)
    | .error k => .error (k, va)

/-- `n` bytes of a context's memory read at their home, line by line (10 R237, 14 R297): the bytes, or the cause and the address of
the first line that fails; a read of the host fails while the link is down (26 R455). `now`: a peer is not asked (DESIGN CHOICE, log 22). `fuel`:
lines. -/
def State.readVa (s : State) (now : Bool) (c : BitVec 16) (acc : Acc) : Nat → Nat → Nat → Except (Nat × Nat) (List Byte)
  | 0, _, _ => .ok []
  | fuel + 1, va, n =>
    if n == 0 then .ok []
    else
      let k := min n (128 - va % 128)
      let one : Except (Nat × Nat) (List Byte) := match s.translate c va acc with
        | .error e => .error (e, va)
        | .ok (.loc pa) => if s.badAt pa then .error (0x20, va) else .ok (s.mem.read pa k)
        | .ok (.host a) => if s.linkUp then .ok (s.readTarget (.host a) k) else .error (0x74, va)
        | .ok (.peer m a) => s.peerBytes now c m a va k
      match one with
      | .error e => .error e
      | .ok l => match State.readVa s now c acc fuel (va + k) (n - k) with
        | .error e => .error e
        | .ok r => .ok (l ++ r)

/-- A block of at most 4,096 lines read; lines of a peer are asked for first (15 R319). DEDUCED: log 83. -/
def State.block (s : State) (c : BitVec 16) (va n : Nat) : Except (Nat × Nat) (List Byte) :=
  s.readVa false c .r (n / 128 + 2) va n

/-- A block read in the step that needs it: the code object's tables as a board reads them at its issue, and the service cores' map. DESIGN CHOICE:
log 22. -/
def State.blockNow (s : State) (c : BitVec 16) (va n : Nat) : Except (Nat × Nat) (List Byte) :=
  s.readVa true c .r (n / 128 + 2) va n

end Sys2Proof.Machine
end

