-- ==== Sys2Proof/Machine/Rings.lean ====
section
/-!
DEFINITION. The package rings and the ways to the pod (15 R312 to R315, R321, 26 R439, R443): lanes and their sequence numbers, the ring
and the plane that a request takes, and the slot that carries it.
-/
namespace Sys2Proof.Machine

/-- A ring changed. -/
def State.modRing (s : State) (k : Nat) (f : Ring → Ring) : State := { s with rings := modAt k f s.rings }

/-- A ring of the package. -/
def State.ring (s : State) (k : Nat) : Ring := s.rings.getD k { up := false }

/-- The number that a list keeps for a lane. -/
def laneNum (l : List (Nat × Nat × Nat)) (src dst : Nat) : Nat := ((l.find? fun x => x.1 == src && x.2.1 == dst).map (·.2.2)).getD 0

/-- A lane's number set. -/
def setLane (l : List (Nat × Nat × Nat)) (src dst n : Nat) : List (Nat × Nat × Nat) :=
  (src, dst, n) :: l.filter fun x => !(x.1 == src && x.2.1 == dst)

/-- The next sequence number that a lane accepts (15 R314). -/
def Ring.next (r : Ring) (src dst : Nat) : Nat := laneNum r.lanes src dst

/-- Links from one frame to another on a ring: ring 0 runs upwards, ring 1 downwards (15 R312). -/
def hops (ring src dst : Nat) : Nat := if ring == 0 then (dst + 8 - src) % 8 else (src + 8 - dst) % 8

/-- The ring of a slot between two frames: ordered traffic takes the one with fewer hops and ring 0 at four; relaxed traffic takes either
(15 R315); with one ring retired all take the other (26 R439). -/
def State.ringFor (s : State) (ordered : Bool) (src dst : Nat) : Nat :=
  if !(s.ring 0).up then 1
  else if !(s.ring 1).up then 0
  else if ordered then (if hops 1 src dst < hops 0 src dst then 1 else 0)
  else if Config.chooseBit s.freeCtr then 1 else 0

/-- A slot placed on a ring, numbered in its lane when it is ordered; its sender holds it until it is accepted (15 R313, R314). -/
def Ring.place (r : Ring) (src dst : Nat) (ordered : Bool) (load : SlotLoad) : Ring :=
  let n := laneNum r.sends src dst
  { r with sends := if ordered then setLane r.sends src dst (n + 1) else r.sends
           retry := r.retry ++ [(src, dst, { load := load, seq := if ordered then some n else none, refusals := 0 })] }

/-- A slot sent from one frame to another. -/
def State.sendSlot (s : State) (src dst : Nat) (ordered : Bool) (load : SlotLoad) : State :=
  let s' := s.modRing (s.ringFor ordered src dst) fun r => r.place src dst ordered load
  if ordered then s' else s'.free

/-- The planes that are up here, of stations that the driver has enabled (17 R357). -/
def State.usable (s : State) : BitVec 8 := s.planes &&& s.uaen

/-- A plane reaches a module: it is usable here, and up there (26 R443). DEDUCED: log 88. -/
def State.reaches (s : State) (p m : Nat) : Bool := s.usable.getLsbD p && !s.farDown.contains (m, p)

/-- The planes that reach a module, from a number on, in ascending order modulo 8. -/
def State.planesFrom (s : State) (m k : Nat) : List Nat := ((List.range 8).map fun j => (k + j) % 8).filter fun p => s.reaches p m

/-- The plane of a request from a frame to a module. Ordered: T mod 8, or the next one up (15 R321, 26 R443). Relaxed: the frame's own
station or any other, as the machine chooses. While none is up the request waits for one, whatever this names. -/
def State.planeFor (s : State) (ordered : Bool) (src m : Nat) : Nat :=
  let own := if s.reaches src m && Config.chooseBit s.freeCtr then [src] else []
  let l := if ordered then s.planesFrom m m else own ++ s.planesFrom m (Config.choose s.freeCtr 8)
  l.headD (m % 8)

/-- The frame a board is in. -/
def State.frameOf (s : State) (board : Nat) : Nat := ((s.board? board).map (·.core / 16)).getD 0

/-- A request entered in the list of those not yet answered (15 R319). -/
def State.request (s : State) (r : OutReq) : State :=
  let p := s.planeFor r.ordered r.source r.mod
  { s with outReqs := s.outReqs ++ [{ r with id := s.nextUid, plane := p, since := s.now }], nextUid := s.nextUid + 1, freeCtr := s.freeCtr + 1 }

/-- The request that a reader of the device makes. -/
def FetchKind.request (k : FetchKind) (a : Nat) : PeerKind :=
  match k with
  | .line => .read 128
  | .add => .atomic [⟨a % 128, .add, true, 1, 0⟩]
  | .claim => .atomic [⟨a % 128, .cas, false, 1, 0⟩]

/-- A reader of the device asks a peer for what lies at an address; none while it is asked for. The request leaves by the frame of the reading board,
or of the plane for ordered traffic. DESIGN CHOICE: log 22. -/
def State.fetch (s : State) (reader : Nat) (c : BitVec 16) (va : Nat) (kind : FetchKind) (b : Option Board := none) : Option State :=
  match s.translate c va .r with
  | .ok (.peer m a) =>
    let at_ := if kind == .line then a - a % 128 else a
    if s.fetches.any fun f => f.reader == reader && f.mod == m && f.addr == at_ && f.kind == kind then none
    else
      let t := s.request { id := 0, mod := m, addr := at_, group := (s.ctxOf c).podgrp, ctx := c, board := (b.map (·.id)).getD 0
                           source := (b.map (·.core / 16)).getD (m % 8), ordered := true, va := va, kind := kind.request a }
      some { t with fetches := t.fetches ++ [{ reader := reader, ctx := c, va := va, mod := m, addr := at_, kind := kind, req := s.nextUid }] }
  | _ => none

/-- A reader has what it asked for no more. -/
def State.unfetch (s : State) (reader : Nat) : State := { s with fetches := s.fetches.filter (·.reader != reader) }

/-- The answer to a reader's request. -/
def State.fetchAnswer (s : State) (req : Nat) (x : LineResp) : State :=
  { s with fetches := s.fetches.map fun f => if f.req == req then { f with got := some x } else f }

/-- A wake for a board, sent from the home frame of its gate, in order (15 R312, R328). DESIGN CHOICE: log 108. -/
def State.sendWake (s : State) (home : Nat) (w : Wake) : State :=
  let f := s.frameOf w.board
  if f == home then { s with wakes := s.wakes ++ [w] } else s.sendSlot home f true (.wake w)

/-- A message to a peer module on a plane. -/
def State.tell (s : State) (m agent plane : Nat) (msg : PeerMsg) : State := { s with toPeers := ⟨m, agent, plane, msg⟩ :: s.toPeers }

/-- A wake for a waiter of a peer in a frame: out by the plane of ordered traffic, by a ring when its station lies in another frame (15 R321), or kept
while no plane reaches the peer (17 R357); to a lost module none is sent (26 R446). DESIGN CHOICE: log 108. -/
def State.tellWake (s : State) (frame m agent gate : Nat) (again : Bool) : State :=
  if s.lost.contains m then s
  else match s.planesFrom m m with
    | p :: _ => if p == frame then s.tell m agent p (.wake gate again) else s.sendSlot frame p true (.wakeOut m agent gate again)
    | [] => { s with wakesOut := s.wakesOut ++ [(frame, m, agent, gate, again)] }

/-- The waiters of a gate woken: a board here by a wake to its frame, a peer's by a message (15 R327, R328). -/
def State.wakeOne (s : State) (home : Nat) (again : Bool) (w : Waiter) : State :=
  match w.peer with
  | none => s.sendWake home { board := w.board, again := again, gate := w.gate }
  | some m => s.tellWake home m w.board w.gate again

/-- Wakes that no plane could take go when one can (26 R446). -/
def State.flushWakes (s : State) : State :=
  s.wakesOut.foldl (fun s w => s.tellWake w.1 w.2.1 w.2.2.1 w.2.2.2.1 w.2.2.2.2) { s with wakesOut := [] }

end Sys2Proof.Machine
end

