-- ==== Sys2Proof/Machine/Home.lean ====
section
/-!
DEFINITION. What is performed at a home: writes with the comparison of watched ranges (12 R261 to R263, 25 R431) and of dependence
counters (13 R284), counter adds (R282), atomics (07 R153), remote gates (15 R326 to R329), and fault queue entries (21 R373).
-/
namespace Sys2Proof.Machine

/-! ### Fault queues -/

/-- A fault queue entry of eight words written for a function (21 R373); dropped when the queue is off, full, or the link is down
(26 R455). -/
def State.faultEntry (s : State) (fn : Nat) (words : List Nat) : State :=
  let f := s.fn fn
  let n := 2 ^ f.fqSize.toNat
  if !f.fqEn || (f.fqtail - f.fqhead).toNat == n || !s.linkUp then s.modFn fn fun f => { f with fqlost := f.fqlost + 1 }
  else
    let at_ := f.fqbase.toNat + 64 * (f.fqtail.toNat % n)
    { s with hostMem := s.hostMem.write at_ (words.flatMap (leBytes 8)) }.modFn fn fun f =>
      { f with fqtail := f.fqtail + 1, msix := 1 :: f.msix }

/-- An ENGINE entry (25 R420) for a function. -/
def State.engineTo (s : State) (fn : Nat) (c : BitVec 16) (cause detail count : Nat) (addr tpc : Nat) : State :=
  s.faultEntry fn
    [0xC + 2 ^ 32 * (cause % 256 + 256 * (detail % 256) + 65536 * (count % 65536)), 2 ^ 32 * c.toNat, tpc, addr, s.now, 0, 0, 0]

/-- An ENGINE entry for a context's tenant. -/
def State.engineEntry (s : State) (c : BitVec 16) (cause detail count : Nat) (addr tpc : Nat) : State :=
  s.engineTo (s.ctxOf c).fn c cause detail count addr tpc

/-- The 64 bytes of a DEVICE entry (26 R437). -/
def deviceWords (now ev unit detail : Nat) : List Nat :=
  [0xE + 2 ^ 32 * (ev % 256 + 256 * (unit % 256) + 65536 * (detail % 65536)), 0, 0, 0, now, 0, 0, 0]

/-- A DEVICE entry: to the physical function, for a lost or returned peer also to every function that has a live context with a
pod group, and to the controller's log (26 R437). -/
def State.deviceEntry (s : State) (ev unit detail : Nat) : State :=
  let w := deviceWords s.now ev unit detail
  let also := if ev == 0x83 || ev == 0x84 then
      (List.range 32).filter fun f => f != 0 && s.ctxs.any fun c => c.fn == f && c.podgrp != 0
    else []
  let s := { s with devLog := (w.flatMap (leBytes 8) :: s.devLog).take 64 }
  (0 :: also).foldl (fun s f => s.faultEntry f w) s

/-! ### Changes of watched ranges -/

/-- The agent of a write (12 R264, R265): depth, STORER and KIND. -/
structure Writer where
  depth : Nat := 0
  storer : Word := 0
  kind : BitVec 4 := 0
deriving DecidableEq, Repr

/-- Depth of the handler record of a bent, 0 for another bent (12 R265). -/
def State.depthOf (s : State) (bent : Nat) : Nat :=
  match (s.bent? bent).bind (·.record) with
  | some r => bits (r.words.getD 4 0).toNat 16 4
  | none => 0

/-- The agent of a board's writes. -/
def State.writerOf (s : State) (b : Board) : Writer := { depth := s.depthOf b.env.bent, storer := b.env.gridid, kind := 0 }

/-- Indices of the watched lines that stand at the physical line `pa`. -/
def Watch.linesAt (w : Watch) (pa : Nat) : List Nat :=
  w.pages.filterMap fun p =>
    if p.2 ≤ pa && pa < p.2 + 65536 then
      let va := p.1 + (pa - p.2)
      if w.base ≤ va && va < w.base + 128 * w.nlines then some ((va - w.base) / 128) else none
    else none

/-- A change qualifies under MODE (12 R261). -/
def Watch.qualifies (w : Watch) (old new : List Byte) : Bool :=
  let differs (k : Nat) : Bool := fieldAt old (4 * k) 4 != fieldAt new (4 * k) 4
  match w.mode with
  | 0 => true
  | 1 => (List.range 32).any fun k => differs k && fieldAt new (4 * k) 4 == w.value.toNat
  | _ => (List.range 32).any fun k => differs k && fieldAt new (4 * k) 4 != 0

/-- Sector of line `i` (12 R262). -/
def Watch.sector (w : Watch) (i : Nat) : Nat := i / ((w.nlines + 63) / 64)

/-- The handle of an entry (12 R260). -/
def handleOf (frame : Nat) (gen : BitVec 17) (idx : Nat) : Word := BitVec.ofNat 3 frame ++ gen ++ BitVec.ofNat 12 idx

/-- The next SEQ, skipping 0. -/
def nextSeq (q : Word) : Word := if q + 1 == 0 then 1 else q + 1

/-- A qualifying change gathered (12 R263). -/
def Watch.gather (w : Watch) (i : Nat) (wr : Writer) (now : Nat) : Watch :=
  let bit := BitVec.ofNat 64 (2 ^ w.sector i)
  match w.pend with
  | some p =>
    { w with pend := some { p with bitmap := p.bitmap ||| bit, count := min (p.count + 1) 65535, depth := max p.depth (wr.depth + 1) } }
  | none =>
    { w with
      seq := nextSeq w.seq
      pend := some { seq := nextSeq w.seq, bitmap := bit, count := 1, depth := wr.depth + 1, storer := wr.storer, kind := wr.kind,
                     wtime := now } }

/-- A watch entry changed. -/
def State.modWatch (s : State) (f idx : Nat) (g : Watch → Watch) : State :=
  s.modFrame f fun x => { x with watches := x.watches.map fun w => if w.idx == idx then g w else w }

/-- A change at one watched line: gathered, or refused beyond DMAX with an ENGINE entry at most once in each ms (25 R431). -/
def State.change (s : State) (f : Nat) (w : Watch) (i : Nat) (wr : Writer) : State :=
  if w.dmax < wr.depth + 1 then
    let n := min (w.refused + 1) 65535
    if w.lastErr == some (s.now / 1000000) then s.modWatch f w.idx fun w => { w with refused := n }
    else
      (s.modWatch f w.idx fun w => { w with refused := 0, lastErr := some (s.now / 1000000) }).engineEntry w.ctx 0x43 (wr.depth + 1) n
        (w.base + 128 * i) (handleOf f w.gen w.idx).toNat
  else s.modWatch f w.idx fun w => w.gather i wr s.now

/-- The comparison of a written line (12 R261): its entries in the home frame's table, in index order. Lines of one step are taken in ascending order;
which steps' changes fall in one tick of the home (12 R263) is left free. DEDUCED: log 124. -/
def State.compare (s : State) (wr : Writer) (pa : Nat) (old new : List Byte) : State :=
  if old == new then s
  else
    let f := homeFrame pa
    (s.frame f).watches.foldl (fun s w =>
      if w.active && !w.closed && w.qualifies old new then
        (w.linesAt pa).foldl (fun s i =>
          match (s.frame f).watches.find? (·.idx == w.idx) with
          | some w => s.change f w i wr
          | none => s) s
      else s) s

/-- The device itself as the agent of a write (12 R261 to R265): it carries no depth; what STORER and KIND then hold is not stated. DESIGN
CHOICE: log 10. -/
def State.deviceWriter (s : State) : Writer :=
  { storer := (Config.freeWord s.freeCtr).setWidth 32, kind := BitVec.ofNat 4 (Config.choose s.freeCtr 6 % 6) }

/-- A watched range meets `n` physical bytes from `a` on. -/
def State.watched (s : State) (a n : Nat) : Bool :=
  s.frames.any fun f => f.watches.any fun w => w.active && !w.closed && w.pages.any fun p => p.2 < a + n && a < p.2 + 65536

/-- The lines of `n` bytes that the device itself has written, compared with what they held (12 R261). -/
def State.compareOwn (s : State) (old : Mem) (a n : Nat) : State :=
  if s.watched a n then
    ((List.range ((a + n - 1) / 128 - a / 128 + 1)).foldl (fun s k =>
      let l := 128 * (a / 128 + k)
      s.compare s.deviceWriter l (old.read l 128) (s.mem.read l 128)) s).free
  else s

/-! ### Dependences -/

/-- The selected half of the counter is at least TARGET (13 R283). -/
def depMet (m : Mem) (addr : Nat) (entry : DWord) : Bool :=
  bits entry.toNat 48 15 ≤ m.num (addr + if entry.getLsbD 63 then 4 else 0) 4

/-- Internal watches compare their counters again at a change (13 R284). -/
def Dep.look (m : Mem) (d : Dep) : Dep := if d.met then d else { d with met := depMet m d.addr d.value }

/-- All internal watches compared with memory as it stands. -/
def State.lookDeps (s : State) : State :=
  { s with
    grids := s.grids.map fun g => if g.runnable then g else { g with deps := g.deps.map (Dep.look s.mem) }
    graphs := s.graphs.map fun x => { x with nodes := x.nodes.map fun n => { n with deps := n.deps.map (Dep.look s.mem) } } }

/-! ### Writes at home -/

/-- The bytes of one line of a list of physical writes. -/
def onLine (l : Nat) (w : List (Nat × Byte)) : List (Nat × Byte) := w.filter fun p => p.1 / 128 == l

/-- The lines that a list of writes touches, ascending. -/
def linesOf (w : List (Nat × Byte)) : List Nat := (ascending (w.map fun p => p.1 / 128)).eraseDups

/-- The physical address of a board's freeze record (21 R375). -/
def State.recordAt (s : State) (b : Board) : Nat := (s.ctxOf b.env.ctx).savebase.toNat + 32768 * b.slotIdx

/-- Whose edit of a freeze record a write is (21 R383), by the number of ORIGIN (R379): 1 of the handler created for the freeze, 2 of the host, 0 of
anything else. DEDUCED: log 122. -/
def State.editor (s : State) (b : Board) (f : Freeze) : Option Writer → Nat
  | none => 0
  | some w =>
    if w.kind == 4 then 2
    else if w.kind != 5 && s.grids.any fun g => g.gridid == w.storer && g.origin == .trap b.id f.frid then 1
    else 0

/-- A byte of a freeze record written by an editor: what anything else writes stands for both. -/
def editByte (es : List Edit) (who addr : Nat) (old new : Byte) : List Edit :=
  let e := (es.find? (·.addr == addr)).getD { addr := addr, dev := old }
  let rest := es.filter (·.addr != addr)
  match who with
  | 1 => { e with handler := some new } :: rest
  | 2 => { e with host := some new } :: rest
  | _ => rest

/-- The writes to a line that is part of a frozen board's record, noted by who makes them (21 R383). -/
def State.noteEdits (s : State) (wr : Option Writer) (l : Nat) (w : List (Nat × Byte)) : State :=
  s.allBoards.foldl (fun s b => match b.frozen with
    | some f =>
      if s.recordAt b ≤ 128 * l && 128 * l < s.recordAt b + 32768 then
        let who := s.editor b f wr
        { s with edits := w.foldl (fun es p => editByte es who p.1 (s.mem.get p.1) p.2) s.edits }
      else s
    | none => s) s

/-- One line written at its home in local memory (10 R224): the data, the comparison, and good check bits when all of the line is
written (23 R414). -/
def State.writeLine (s : State) (wr : Option Writer) (l : Nat) (w : List (Nat × Byte)) : State :=
  let old := s.mem.read (128 * l) 128
  let s := s.noteEdits wr l w
  let s := { s with mem := s.mem.writeAll w,
                    badLines := if (w.map Prod.fst).eraseDups.length == 128 then s.badLines.filter (· != l) else s.badLines }
  match wr with
  | some wr => s.compare wr (128 * l) old (s.mem.read (128 * l) 128)
  | none => if s.watched (128 * l) 128 then (s.compare s.deviceWriter (128 * l) old (s.mem.read (128 * l) 128)).free else s

/-- Bytes written to local memory, line by line in ascending order (12 R263). The device's own writes name no agent. -/
def State.writeLocal (s : State) (wr : Option Writer) (w : List (Nat × Byte)) : State :=
  ((linesOf w).foldl (fun s l => s.writeLine wr l (onLine l w)) s).lookDeps

/-- Memory after a write of the device itself to `n` bytes from `a` on: a record, a stack, an image. -/
def State.ownMem (s : State) (a n : Nat) (m : Mem) : State := ({ s with mem := m }.compareOwn s.mem a n).lookDeps

/-- The lines of the writes that cannot take a partial write (23 R414). -/
def State.badWrite (s : State) (w : List (Nat × Byte)) : Bool :=
  (linesOf w).any fun l => s.badLines.contains l && ((onLine l w).map (·.1)).eraseDups.length != 128

/-- Bytes with their addresses from `a` on. -/
def bytesAt (a : Nat) (l : List Byte) : List (Nat × Byte) := (List.range l.length).map fun k => (a + k, l.getD k 0)

/-- Bytes written to a target: local memory at its home, host memory by posted writes, dropped while the link is down (15 R318, 26 R455). A peer's are in its request. -/
def State.writeTarget (s : State) (wr : Option Writer) (t : Target) (w : List (Nat × Byte)) : State :=
  match t with
  | .loc a => s.writeLocal wr (w.map fun p => (a + p.1, p.2))
  | .host a => if s.linkUp then { s with hostMem := s.hostMem.writeAll (w.map fun p => (a + p.1, p.2)) } else s
  | .peer _ _ => s

/-! ### Counters -/

/-- A 64-bit atomic add at system scope by the device (13 R282), or the cause it fails with; one on the host is indeterminate while the link is
down (26 R455). DEDUCED: log 80. -/
def State.counterAdd (s : State) (c : BitVec 16) (va n detail : Nat) : Except Nat State :=
  match s.translate c va .rw with
  | .error k => .error k
  | .ok (.loc a) =>
    if s.badAt a then .error 0x20 else .ok (s.writeLocal none (bytesAt a (leBytes 8 (s.mem.num a 8 + n))))
  | .ok (.host a) =>
    if s.linkUp then .ok { s with hostMem := s.hostMem.write a (leBytes 8 (s.hostMem.num a 8 + n)) } else .error 0x70
  | .ok (.peer m a) =>
    if s.lost.contains m then .error 0x71
    else .ok (s.request { id := 0, mod := m, addr := a, group := (s.ctxOf c).podgrp, ctx := c, board := 0, source := m % 8, ordered := true
                          va := va, note := some (c, detail), kind := .atomic [⟨a % 128, .add, true, BitVec.ofNat 64 n, 0⟩] })

/-- MSI-X messages of a function, dropped while the link is down (17 R352, 26 R455). -/
def State.interrupt (s : State) (fn : Nat) (vs : List Nat) : State :=
  if s.linkUp then s.modFn fn fun f => { f with msix := vs ++ f.msix } else s

/-- The vectors that the driver has given a completion counter are signalled (17 R352). DESIGN CHOICE: log 4. -/
def State.signalVectors (s : State) (c : BitVec 16) (va : Nat) : State :=
  let fn := (s.ctxOf c).fn
  s.interrupt fn (((s.fn fn).vectors.filter fun x => x.2 == (c, va)).map (·.1))

/-- The counter at an address signalled; a failing add writes an ENGINE entry with DETAIL (13 R282). -/
def State.signalAt (s : State) (c : BitVec 16) (va n detail : Nat) : State :=
  match s.counterAdd c va n detail with
  | .ok s => s.signalVectors c va
  | .error k => s.engineEntry c k detail 1 va 0

/-- A counter signalled, where an address of 0 names none (13 R280). -/
def State.signal (s : State) (c : BitVec 16) (va n detail : Nat) : State := if va == 0 then s else s.signalAt c va n detail

/-! ### Atomics and remote gates at home -/

/-- The lane operations of one line in ascending lane order (07 R153): written bytes and the old values. `cur` holds the line. -/
def atomLine (op : AtomOp) (wd : Bool) : List (Nat × DWord × DWord) → Mem → List DWord × Mem
  | [], m => ([], m)
  | (a, x, c) :: t, m =>
    let v : DWord := BitVec.ofNat 64 (m.num a (if wd then 8 else 4))
    let r := atomLine op wd t (m.write a (leBytes (if wd then 8 else 4) (atomNew op wd v x c).toNat))
    (v :: r.1, r.2)

/-- The bytes that atomics on one memory change, as writes. -/
def atomBytes (ops : List (Nat × DWord × DWord)) (wd : Bool) (m : Mem) : List (Nat × Byte) :=
  (ops.flatMap fun p => (List.range (if wd then 8 else 4)).map fun k => p.1 + k).eraseDups.map fun a => (a, m.get a)

/-- The registered waiters of a gate. -/
def State.waitersAt (s : State) (gate : Nat) : List Waiter := (s.frame (homeFrame gate)).waiters.filter (·.gate == gate)

/-- A wake sent to the waiters of a gate, which are registered no more (15 R327). -/
def State.wakeAll (s : State) (gate : Nat) : State :=
  let f := homeFrame gate
  (s.waitersAt gate).foldl (fun s w => s.wakeOne f false w)
    (s.modFrame f fun x => { x with waiters := x.waiters.filter (·.gate != gate) })

/-- An arrival performed at the gate's home: the state and the phase before the flip (15 R327). -/
def State.gateArrive (s : State) (wr : Option Writer) (gate : Nat) : State × Bool :=
  let count := (s.mem.num gate 4 + 1) % 2 ^ 32
  let phase := s.mem.num (gate + 8) 4
  if count == s.mem.num (gate + 4) 4 then
    let w := bytesAt gate (leBytes 4 0) ++ bytesAt (gate + 8) (leBytes 4 (phase ^^^ 1))
    ((s.writeLocal wr w).wakeAll gate, phase.testBit 0)
  else (s.writeLocal wr (bytesAt gate (leBytes 4 count)), phase.testBit 0)

/-- A gate initialised (15 R329); its registered waiters stay registered and read PHASE again (25 R432). -/
def State.gateInit (s : State) (wr : Option Writer) (gate : Nat) (target : Nat) : State :=
  let s := s.writeLocal wr (bytesAt gate (leBytes 4 0 ++ leBytes 4 target ++ leBytes 8 0))
  (s.waitersAt gate).foldl (fun s w => s.wakeOne (homeFrame gate) true w) s

/-- PHASE of a gate at its home. -/
def State.gatePhase (s : State) (gate : Nat) : Bool := (s.mem.num (gate + 8) 4).testBit 0

end Sys2Proof.Machine
end

