-- ==== Sys2Proof/Machine/Blocks.lean ====
section
/-!
DEFINITION. Launch blocks: their fields (13 R280), how they are judged (25 R421, R422), dependences (13 R283, R284) and the entry of a
grid into its context; and the signals of completion counters (R282, R286).
-/
namespace Sys2Proof.Machine

/-- A block or descriptor that fails: CAUSE, DETAIL, and ADDR of a memory cause (25 R421). -/
structure BFail where
  cause : Nat
  detail : Nat := 0
  addr : Option Nat := none
deriving DecidableEq, Repr

/-- Where a launch block comes from (25 R422). -/
inductive Source
  | queue
  | launch
  | node
  | handler
  | trap
deriving DecidableEq, Repr

/-- The fields of a launch block (13 R280). -/
def parseBlock (l : List Byte) : Block :=
  let sp := fieldAt l 16 4
  { code := BitVec.ofNat 48 (fieldAt l 0 6), kidx := fieldAt l 6 2, extent := fieldAt l 8 5, boards := fieldAt l 13 1
    bud := fieldAt l 14 1, acc := fieldAt l 15 1, rank := bits sp 29 3, fuse := sp.testBit 28, place := bits sp 27 1
    ndep := bits sp 24 3, sbud := bits sp 18 4, scr := bits sp 0 18
    param := BitVec.ofNat 64 (fieldAt l 20 6), comp := BitVec.ofNat 64 (fieldAt l 26 6)
    deps := tab 4 fun k => BitVec.ofNat 64 (fieldAt l (32 + 8 * k) 8) }

/-- What a launch takes from the code object and the kernel's descriptor (14 R303, R304). -/
structure Kernel where
  nbun : Nat
  ktab : Nat
  nkern : Nat
  major : Nat
  minor : Nat
  entry : Nat := 0
  callee : Bool := false
  vbud : Nat := 0
  cbud : Nat := 0
  sbud : Nat := 0
  acc : Nat := 0
  scr : Nat := 0
deriving DecidableEq, Repr

/-- The code object's descriptor (14 R304). -/
def parseObject (d : List Byte) : Kernel :=
  { nbun := fieldAt d 0 6, nkern := fieldAt d 6 2, ktab := fieldAt d 8 8, major := fieldAt d 32 1, minor := fieldAt d 33 1 }

/-- A kernel table entry (14 R303). -/
def Kernel.withEntry (k : Kernel) (e : List Byte) : Kernel :=
  { k with entry := fieldAt e 0 4, callee := (fieldAt e 4 2).testBit 0, vbud := fieldAt e 6 1, cbud := fieldAt e 7 1
           sbud := fieldAt e 8 2, acc := fieldAt e 10 1, scr := fieldAt e 12 4 }

/-- The first failure of a list of (condition, failure), in order. -/
def firstFail : List (Bool × BFail) → Option BFail
  | [] => none
  | (c, f) :: t => if c then some f else firstFail t

/-- A budget nibble in units of 8: 2 to 8. -/
def budOk (n : Nat) : Bool := 2 ≤ n && n ≤ 8

/-- Dependence entry `k` of a block (13 R283); a handler's is zero (12 R258, R459). -/
def depFails (src : Source) (b : Block) (k : Nat) : List (Bool × BFail) :=
  let e := (b.deps.getD k 0).toNat
  let at_ := 32 + 8 * k
  if k < b.ndep then [(bits e 48 15 == 0 || bits e 0 3 != 0, ⟨0x34, at_, none⟩)] else [(e != 0, ⟨if src == .handler then 0x40 else 0x30, at_, none⟩)]

/-- The fields from EXTENT on, in byte order, each with the offset of its first byte, SPCTL's fields too (25 R421, R422). A trap handler's
budgets must fit one core (21 R382). DEDUCED: log 19. -/
def blockFails (src : Source) (b : Block) (sp : Nat) (k : Kernel) : List (Bool × BFail) :=
  let h (c : Bool) (at_ : Nat) : Bool × BFail := (c, ⟨if src == .handler then 0x40 else 0x30, at_, none⟩)
  let low := b.bud % 16
  let high := b.bud / 16
  let comp := if src == .node then b.comp.toNat - b.comp.toNat % 2 else b.comp.toNat
  [h ((src == .handler || src == .trap) && b.extent != 1) 8,
   (b.boards == 0, ⟨if src == .node then 0x38 else 0x30, 13, none⟩),
   (128 < b.boards || (src == .trap && b.boards != 1), ⟨0x30, 13, none⟩),
   (!budOk low || !(high == 0 || budOk high), ⟨0x30, 14, none⟩),
   (low < k.vbud || high < k.cbud, ⟨0x31, 14, none⟩),
   (32 < b.acc, ⟨0x30, 15, none⟩),
   (b.acc < k.acc || (src == .trap && 16 < b.acc), ⟨0x31, 15, none⟩),
   (131072 < b.scr, ⟨0x30, 16, none⟩),
   (b.scr < k.scr || (src == .trap && 65536 < b.scr), ⟨0x31, 16, none⟩),
   (b.sbud + 1 < k.sbud, ⟨0x31, 18, none⟩),
   (bits sp 22 2 != 0, ⟨0x30, 18, none⟩),
   (src == .node && b.ndep != 0, ⟨0x38, 19, none⟩),
   h ((src == .handler || src == .trap) && b.ndep != 0) 19,
   (4 < b.ndep, ⟨0x30, 19, none⟩),
   (comp % 8 != 0, ⟨0x30, 26, none⟩)]

/-- A block or descriptor cannot be judged yet: a peer has still to return a line of it. -/
def BFail.waits (f : BFail) : Bool := waitRead ≤ f.cause

/-- The line that a block waits for asked of its peer (10 R237, 15 R319). -/
def State.awaitPeer (s : State) (reader : Nat) (c : BitVec 16) (f : BFail) : Option State :=
  f.addr.bind fun va => s.fetch reader c va (if f.cause == waitAdd then .add else .line)

/-- The readers of the device, apart from launches and armings, which have the number of their operation: a queue, a node of a graph, a slot that binds, a
handler of a watch entry, and a trap's delivery. -/
def queueReader (q : Nat) : Nat := 2 ^ 64 + q
def nodeReader (inst node : Nat) : Nat := 2 ^ 65 + 65536 * inst + node
def bindReader (board : Nat) (isB : Bool) : Nat := 2 ^ 129 + 2 * board + isB.toNat
def watchReader (frame entry : Nat) : Nat := 2 ^ 130 + 4096 * frame + entry
def trapReader (board : Nat) : Nat := 2 ^ 131 + board

/-- A memory cause of a block's reads, with its address. -/
def memFail (e : Nat × Nat) : BFail := { cause := e.1, addr := some e.2 }

/-- The counter of an entry in local memory (13 R283): an address relative to the instance area when IREL is set. -/
def State.depAt (s : State) (c : BitVec 16) (area : Nat) (e : DWord) (at_ : Nat) : Except BFail Dep :=
  let f := bits e.toNat 3 45
  let va := if e.getLsbD 0 then area + 8 * f else 8 * f
  match s.translate c va .r with
  | .error k => .error { cause := k, addr := some va }
  | .ok (.loc a) => .ok { addr := a, value := e }
  | .ok _ => .error { cause := 0x34, detail := at_ }

/-- The first dependence entry that fails, in byte order: its own fields, then where its counter lies (25 R421, R422). -/
def State.depScan (s : State) (c : BitVec 16) (src : Source) (b : Block) : List Nat → Option BFail
  | [] => none
  | k :: t =>
    match firstFail (depFails src b k) with
    | some f => some f
    | none =>
      if b.ndep ≤ k then s.depScan c src b t
      else match s.depAt c 0 (b.deps.getD k 0) (32 + 8 * k) with
        | .error f => some f
        | .ok _ => s.depScan c src b t

/-- A launch block judged in byte order, with the object's stamp against FEATURES (14 R306, 25 R422). -/
def State.judgeBlock (s : State) (c : BitVec 16) (src : Source) (l : List Byte) : Except BFail (Block × Kernel) :=
  let b := parseBlock l
  let feat := (s.ctxOf c).features.toNat
  if b.code.toNat < 2 || 2 ^ 43 ≤ b.code.toNat then .error ⟨0x30, 0, none⟩
  else match s.block c (32 * b.code.toNat - 64) 64 with
    | .error e => .error (memFail e)
    | .ok d =>
      let k := parseObject d
      if k.major != bits feat 16 8 || bits feat 8 8 < k.minor then .error ⟨0x33, 0, none⟩
      else if k.nkern ≤ b.kidx then .error ⟨0x32, 6, none⟩
      else match s.block c (k.ktab + 32 * b.kidx) 32 with
        | .error e => .error (memFail e)
        | .ok e =>
          let k := k.withEntry e
          if k.callee then .error ⟨0x32, 6, none⟩
          else match firstFail (blockFails src b (fieldAt l 16 4) k) <|> s.depScan c src b (List.range 4) with
            | some f => .error f
            | none => .ok (b, k)

/-! ### Dependences as internal watches -/

/-- Entries in use in a frame's watch table (12 R258, R274, 14 R308). DEDUCED: log 55. -/
def State.watchesUsed (s : State) (f : Nat) : Nat :=
  (s.frame f).watches.length
  + (s.launches.map fun r => (r.taken.filter (· == f)).length).sum
  + (s.grids.map fun g => if g.runnable then 0 else (g.deps.filter fun d => homeFrame d.addr == f).length).sum
  + (s.graphs.map fun x => (x.nodes.map fun n =>
      if n.grid.isSome || n.read then 0 else (n.deps.filter fun d => homeFrame d.addr == f && !d.met).length).sum).sum
  + ((s.allBoards.filter fun b => b.core / 16 == f).flatMap fun b =>
      ((b.slotA.park.toList ++ b.slotB.park.toList).filter (·.watch.isSome)).map fun p => (b.env.ctx, p.entry)).eraseDups.length

/-- Several entries, with the byte offset of each in its block. -/
def State.depsAt (s : State) (c : BitVec 16) (area : Nat) : List (DWord × Nat) → Except BFail (List Dep)
  | [] => .ok []
  | (e, o) :: t =>
    match s.depAt c area e o with
    | .error f => .error f
    | .ok d =>
      match s.depsAt c area t with
      | .error f => .error f
      | .ok r => .ok ({ d with met := depMet s.mem d.addr d.value } :: r)

/-- The entries fit in the watch tables of their home frames (25 R425). -/
def State.depsFit (s : State) (ds : List Dep) : Bool :=
  (List.range 8).all fun f => s.watchesUsed f + (ds.filter fun d => homeFrame d.addr == f).length ≤ 4096

/-! ### Signals -/

/-- The live graph instance of a number. -/
def State.graph? (s : State) (id : Nat) : Option GraphInst := s.graphs.find? (·.id == id)
/-- A graph instance changed. -/
def State.modGraph (s : State) (id : Nat) (f : GraphInst → GraphInst) : State :=
  { s with graphs := s.graphs.map fun x => if x.id == id then f x else x }

/-- An instance's GCOMP: 1 once every node has signalled release, 2^32 once every node grid it will create has retired (13 R286,
25 R426). The instance then ceases to be live. -/
def State.settleGraph (s : State) (id : Nat) : State :=
  match s.graph? id with
  | none => s
  | some x =>
    let rel := x.nodes.all (·.released)
    let ret := x.nodes.all fun n => n.retired || (x.aborted && n.grid.isNone)
    let s := if rel && !x.relDone then (s.signal x.ctx x.gcomp 1 1).modGraph id fun x => { x with relDone := true } else s
    if ret then { s.signal x.ctx x.gcomp (2 ^ 32) 2 with graphs := s.graphs.filter (·.id != id) } else s

/-- A grid's release or retirement signalled to its instance counter and its completion counter (13 R282, R286). -/
def State.signalGrid (s : State) (g : Grid) (retire : Bool) : State :=
  let n := if retire then 2 ^ 32 else 1
  let d := if retire then 2 else 1
  let s := match g.origin with
    | .node i k =>
      match s.graph? i with
      | some x => s.signalAt g.ctx (x.area + 8 * k) n d
      | none => s
    | _ => s
  let s := if g.block.compRel then s.signalAt g.ctx g.block.comp.toNat n d else s.signal g.ctx g.block.comp.toNat n d
  match g.origin with
  | .node i k =>
    (s.modGraph i fun x => { x with nodes := modAt k (fun n =>
      if retire then { n with retired := true } else { n with released := true }) x.nodes }).settleGraph i
  | _ => s

/-- A grid's release and retirement as far as they hold (02 R36, R37, 13 R282): release first. A retired grid is gone. Of a moved context the bents
not created here have triggered, and have retired, at the target (14 R311). -/
def State.settleGrid (s : State) (uid : Nat) : State :=
  match s.grid? uid with
  | none => s
  | some g =>
    let all := g.runnable && (g.far || g.nextBent == g.block.extent)
    let rel := ((all || (g.runnable && g.farRel)) && g.triggered == g.nextBent) || (g.aborted && g.retired == g.nextBent)
    let ret := (all || g.aborted) && g.retired == g.nextBent
    let s := if rel && !g.released then (s.signalGrid g false).modGrid uid fun g => { g with released := true } else s
    if ret then { s.signalGrid g true with grids := (s.signalGrid g true).grids.filter (·.uid != uid) } else s

/-! ### A grid's entry -/

/-- A grid becomes runnable (13 R284); one of zero extent signals both halves at once. -/
def State.makeRunnable (s : State) (uid : Nat) : State :=
  let s := s.modGrid uid fun g => { g with runnable := true, order := s.nextUid }
  { s with nextUid := s.nextUid + 1 }.settleGrid uid

/-- The GRIDID of a context's next grid: the next number that no live grid of it holds (02 R23). DESIGN CHOICE: log 23. -/
def State.nextGridid (s : State) (c : BitVec 16) : Word :=
  let live := (s.grids.filter (·.ctx == c)).map (·.gridid)
  (((List.range (live.length + 1)).map fun k => (s.ctxOf c).nextGrid + BitVec.ofNat 32 k).find? fun n => !live.contains n).getD (s.ctxOf c).nextGrid

/-- A grid entered into its context (13 R279 to R284). -/
def State.addGrid (s : State) (c : BitVec 16) (b : Block) (k : Kernel) (o : Origin) (cap : Nat) (deps : List Dep) : State :=
  let gid := s.nextGridid c
  let uid := s.nextUid
  let g : Grid :=
    { uid := uid, gridid := gid, ctx := c, block := b, codebase := b.code, nbun := k.nbun, ktab := k.ktab, nkern := k.nkern
      entry := b.code + BitVec.ofNat 48 k.entry, rank := min b.rank cap, deps := deps, origin := o }
  let s := { s with grids := s.grids ++ [g], nextUid := uid + 1 }.modCtx c fun x => { x with nextGrid := gid + 1 }
  if deps.isEmpty then s.makeRunnable uid else s

end Sys2Proof.Machine
end

