-- ==== Sys2Proof/Machine/Paths.lean ====
section
/-!
DEFINITION. PC slots, the divergence stack and the flow of paths (02 R29 to R33, 09 R196 to R200, 22 R394, R398): what DIV, CALL,
CALLI, JOIN, RET and EXIT make of the stack and the two slots, and how a slot's encoded clock, window records and dc chain go
with its path (03 R54, R55).
-/
namespace Sys2Proof.Machine

/-- Codes of KIND in a stack entry (02 R33). -/
def kindPath : BitVec 8 := 1
def kindJoin : BitVec 8 := 2

/-- Where a path placed in a slot has its clock, records and chain from (03 R54, R55, 09 R200). -/
inductive Form
  /-- From the path that issued the bundle. -/
  | copy
  /-- A completing JOIN or RET: the largest arriving clock and the union of the records. -/
  | merged (clk : Word) (recs : List (SLoc × Nat)) (mine : List Nat)
  /-- Popped from the stack. -/
  | popped
deriving DecidableEq, Repr

/-- What an instruction makes of the stack and the slots. -/
structure Flow where
  stack : List StackEntry
  /-- The issuing slot, empty for none. -/
  x : Option (Path × Form)
  /-- The other slot where it changes. -/
  o : Option (Option (Path × Form)) := none
  /-- Lanes of paths put on the stack. -/
  stacked : Mask := 0
  /-- Entries from the bottom that are unchanged. -/
  same : Nat := 0
deriving DecidableEq, Repr

/-- The PATH entry of a path. -/
def Path.entry (p : Path) : StackEntry := { mask := p.mask, arrived := 0, pc := p.pc, kind := kindPath }

/-- The JOIN entry that DIV, CALL and CALLI push. -/
def joinEntry (pc : BitVec 48) (m : Mask) (span : Bool) : StackEntry :=
  { mask := m, arrived := 0, pc := pc, kind := kindJoin, span := span }

/-- The path an entry resumes when it is popped as a PATH entry. -/
def StackEntry.path (e : StackEntry) : Path := ⟨e.pc, e.mask⟩

/-- A push of a JOIN entry with the other slot's path spilled directly beneath it (02 R30). -/
def pushJoin (stk : List StackEntry) (e : StackEntry) (spill : Option Path) : List StackEntry :=
  match spill with
  | some p => e :: p.entry :: stk
  | none => e :: stk

/-- Lanes of a path, none for an empty slot. -/
def lanesOfPath : Option Path → Mask
  | some p => p.mask
  | none => 0

/-- DIV at bundle `pc` (02 R30): `m` the lanes of X, `mt` those whose condition is true, `o` the other slot. -/
def divFlow (stk : List StackEntry) (o : Option Path) (pc : BitVec 48) (m mt : Mask) (t j : BitVec 48) : Flow :=
  let mn := m &&& ~~~mt
  if mt == 0 then { stack := joinEntry j m false :: stk, x := some (⟨pc + 1, m⟩, .copy), same := stk.length }
  else if mn == 0 then { stack := joinEntry j m false :: stk, x := some (⟨t, m⟩, .copy), same := stk.length }
  else { stack := pushJoin stk (joinEntry j m true) o, x := some (⟨pc + 1, mn⟩, .copy),
         o := some (some (⟨t, mt⟩, .copy)), stacked := lanesOfPath o, same := stk.length }

/-- CALL at bundle `pc` (09 R197). -/
def callFlow (stk : List StackEntry) (o : Option Path) (pc : BitVec 48) (m : Mask) (t : BitVec 48) : Flow :=
  { stack := pushJoin stk (joinEntry pc m o.isSome) o, x := some (⟨t, m⟩, .copy),
    o := if o.isSome then some none else none, stacked := lanesOfPath o, same := stk.length }

/-- The groups of a CALLI (09 R198): lanes with equal targets, by ascending lowest lane. -/
def groupsOf (t : Nat → BitVec 48) : List Nat → List (BitVec 48 × Mask)
  | [] => []
  | l :: r =>
    let g := t l
    (g, maskOf fun k => (l :: r).contains k && t k == g) :: (groupsOf t r).filter fun p => p.1 != g

/-- CALLI at bundle `pc` with its groups (09 R198). -/
def calliFlow (stk : List StackEntry) (o : Option Path) (pc : BitVec 48) (m : Mask) (gs : List (BitVec 48 × Mask)) : Flow :=
  let span := o.isSome || 2 ≤ gs.length
  let rest := (gs.drop 2).map fun g => Path.entry ⟨g.1, g.2⟩
  { stack := rest ++ pushJoin stk (joinEntry pc m span) o
    x := gs.head?.map fun g => (⟨g.1, g.2⟩, .copy)
    o := match gs[1]? with
      | some g => some (some (⟨g.1, g.2⟩, .copy))
      | none => if o.isSome then some none else none
    stacked := (gs.drop 2).foldl (fun a g => a ||| g.2) (lanesOfPath o)
    same := stk.length }

/-- Entries a DIV, CALL or CALLI pushes (09 R198). -/
def pushes (groups : Nat) (spill : Bool) : Nat := 1 + (groups - 2) + if spill then 1 else 0

/-- The later landing of each location. -/
def mergeRecs (a c : List (SLoc × Nat)) : List (SLoc × Nat) :=
  a.foldl (fun acc r =>
    match acc.find? (fun q => q.1 == r.1) with
    | some q => if q.2 < r.2 then r :: acc.filter (fun z => z.1 != r.1) else acc
    | none => r :: acc) c

/-- A slot's window records as encoded ticks of their landings, without those of its latches (03 R54, R55). -/
def PcSlot.recs (x : PcSlot) : List (SLoc × Nat) :=
  x.wins.filterMap fun w =>
    match w.loc with
    | .dc _ => none
    | l => some (l, x.clk.toNat + w.rem)

/-- The later of two encoded clocks. -/
def laterClk (a c : Word) : Word := if a.toNat < c.toNat then c else a

/-- Lanes arrive at an entry with the clock and records of their slot. -/
def StackEntry.arrive (e : StackEntry) (m : Mask) (x : PcSlot) : StackEntry :=
  { e with arrived := e.arrived ||| m, clk := laterClk e.clk x.clk, recs := mergeRecs x.recs e.recs, mine := x.mine ++ e.mine }

/-- The path that a complete entry resumes. -/
def StackEntry.resume (e : StackEntry) : Path × Form := (⟨e.pc + 1, e.mask⟩, .merged e.clk e.recs e.mine)

/-- The entry directly under a popped one goes into an empty other slot when it is a PATH entry (02 R31). -/
def popOther (stk : List StackEntry) (free : Bool) : List StackEntry × Option (Option (Path × Form)) :=
  match stk with
  | e :: t => if free && e.kind == kindPath then (t, some (some (e.path, .popped))) else (stk, none)
  | [] => ([], none)

/-- An entry whose KIND is neither PATH nor JOIN (22 R394). -/
def StackEntry.odd (e : StackEntry) : Bool := e.kind != kindPath && e.kind != kindJoin

/-- A pop of the head in a place where it would be taken for a PATH entry reads an odd KIND. -/
def oddHead (stk : List StackEntry) (free : Bool) : Bool :=
  match stk with
  | e :: _ => free && e.odd
  | [] => false

/-- JOIN at bundle `j` (02 R31), or the KIND of its STACK trap (22 R394). -/
def joinFlow (stk : List StackEntry) (o : Option Path) (j : BitVec 48) (m : Mask) (x : PcSlot) : Except Nat Flow :=
  match stk with
  | [] => .error 3
  | e :: t =>
    if e.odd then .error 5
    else if e.kind != kindJoin || e.pc != j then .error 2
    else
      let e := e.arrive m x
      if e.arrived == e.mask then
        if oddHead t o.isNone then .error 5
        else
          let r := popOther t o.isNone
          .ok { stack := r.1, x := some e.resume, o := r.2, same := r.1.length }
      else .ok { stack := e :: t, x := none, same := t.length }

/-- Arrival at the highest JOIN entry; none without one, or with an odd entry above it. -/
def arriveHighest (m : Mask) (x : PcSlot) : List StackEntry → Option (List StackEntry × Nat)
  | [] => none
  | e :: t =>
    if e.kind == kindJoin then some (e.arrive m x :: t, t.length)
    else if e.kind == kindPath then (arriveHighest m x t).map fun r => (e :: r.1, r.2)
    else none

/-- RET (09 R199), or the KIND of its STACK trap (22 R394). -/
def retFlow (stk : List StackEntry) (o : Option Path) (m : Mask) (x : PcSlot) : Except Nat Flow :=
  match arriveHighest m x stk with
  | none => if stk.any (·.odd) then .error 5 else .error 3
  | some (stk, n) =>
    match stk with
    | [] => .error 3
    | e :: t =>
      if e.kind == kindPath then .ok { stack := t, x := some (e.path, .popped), same := n }
      else if e.arrived == e.mask then
        if oddHead t o.isNone then .error 5
        else
          let r := popOther t o.isNone
          .ok { stack := r.1, x := some e.resume, o := r.2, same := r.1.length }
      else .ok { stack := e :: t, x := none, same := n }

/-- Retired lanes leave every entry; a PATH entry left empty goes (02 R32 step 1). -/
def dropLanes (m : Mask) (stk : List StackEntry) : List StackEntry :=
  (stk.map fun e =>
    if e.kind == kindJoin then { e with mask := e.mask &&& ~~~m, arrived := e.arrived &&& ~~~m }
    else if e.kind == kindPath then { e with mask := e.mask &&& ~~~m } else e).filter
    fun e => e.kind != kindPath || e.mask != 0

/-- Steps 3 and 4 of EXIT, repeated (02 R32): entries that complete or are left empty. `n` bounds the entries. -/
def settle : Nat → Flow → Bool → Except Nat Flow
  | 0, f, _ => .ok f
  | n + 1, f, free =>
    match f.stack with
    | [] => .ok f
    | e :: t =>
      if e.kind == kindJoin && e.mask == 0 then settle n { f with stack := t } free
      else if e.kind == kindJoin && f.x.isNone && e.arrived == e.mask then
        if oddHead t free then .error 5
        else
          let r := popOther t free
          settle n { f with stack := r.1, x := some e.resume, o := if r.2.isSome then r.2 else f.o }
            (free && r.2.isNone)
      else .ok f

/-- EXIT (02 R32), or the KIND of its STACK trap. -/
def exitFlow (stk : List StackEntry) (o : Option Path) (m : Mask) : Except Nat Flow :=
  let s1 := dropLanes m stk
  match settle (s1.length + 1) { stack := s1, x := none } o.isNone with
  | .error k => .error k
  | .ok f =>
    match f.x, f.stack with
    | none, e :: t =>
      if e.odd then .error 5
      else if e.kind == kindPath then .ok { f with stack := t, x := some (e.path, .popped) }
      else .ok f
    | _, _ => .ok f

/-! ### Slots with their clocks -/

/-- A path has a sibling: an entry that opened a span is on the stack (22 R398). -/
def sibling (stk : List StackEntry) : Bool := stk.any (·.span)

/-- The slot contents that a path starts with, `x` the slot that issued the bundle. A popped path has no pending uniform registers of its own any more.
DESIGN CHOICE: log 117. -/
def PcSlot.placed (x : PcSlot) (p : Path) (ixTrap : Nat) : Form → PcSlot
  | .copy => { x with path := some p, park := none, ixTrap := ixTrap }
  | .merged clk recs mine =>
    let dcs := x.wins.filter fun w => match w.loc with | .dc _ => true | _ => false
    { x with
      path := some p, park := none, ixTrap := ixTrap, clk := clk, mine := mine
      wins := dcs ++ recs.filterMap fun r =>
        if clk.toNat < r.2 then some { loc := r.1, rem := r.2 - clk.toNat } else none }
  | .popped => { path := some p, clk := x.clk, ixTrap := ixTrap }

/-- In-flight results that stand no longer in a slot's chain. -/
def dropChain (isB : Bool) (l : List PipeEntry) : List PipeEntry :=
  l.map fun e => { e with dc := e.dc.filter fun q => q.1 != isB }

/-- The dc entries of in-flight results after a path is placed in a slot (03 R55): copied chains carry the landings with them. -/
def PipeEntry.chain (e : PipeEntry) (fromB toB : Bool) : Form → PipeEntry
  | .copy =>
    { e with dc := e.dc.filter (fun q => q.1 != toB || fromB == toB)
        ++ (if fromB == toB then [] else (e.dc.filter fun q => q.1 == fromB).map fun q => (toB, q.2)) }
  | .merged _ _ _ => e
  | .popped => { e with dc := e.dc.filter fun q => q.1 != toB }

/-- The lanes of a path put on the stack lose their window state (21 R376). -/
def clearWins (m : Mask) (ws : List LaneWin) : List LaneWin :=
  (ws.map fun w => { w with lanes := w.lanes &&& ~~~m }).filter fun w => w.lanes != 0

/-- The flow applied: `isB` names the issuing slot X. The other slot is set first, from X's clock and chain. DEDUCED: log 46. -/
def Board.flow (b : Board) (isB : Bool) (f : Flow) : Board :=
  let x := b.slotOf isB
  let ixt := if sibling f.stack && !b.pendIx.isEmpty then 2 else 0
  let b := { b with
    stack := f.stack, spilled := min b.spilled f.same, vwins := clearWins f.stacked b.vwins
    bad := b.bad.filter fun x => !(x.store == 6#8 && f.same ≤ x.num.toNat) }
  let clk := match f.x with
    | some (_, .merged c _ _) => c
    | _ => x.clk
  let b := match f.o with
    | none => b
    | some none => { (b.setSlot (!isB) {}) with pipe := dropChain (!isB) b.pipe }
    | some (some (p, form)) =>
      { (b.setSlot (!isB) ({ x with clk := clk }.placed p ixt form)) with
        pipe := b.pipe.map fun (e : PipeEntry) => e.chain isB (!isB) form }
  match f.x with
  | none => { (b.setSlot isB {}) with pipe := dropChain isB b.pipe }
  | some (p, form) =>
    { (b.setSlot isB (x.placed p ixt form)) with pipe := b.pipe.map fun (e : PipeEntry) => e.chain isB isB form }

/-! ### The stack in memory -/

/-- The physical address of an entry of the board's area (02 R33). DEDUCED: log 50. -/
def State.areaAt (s : State) (b : Board) (k : Nat) : Nat := (s.ctxOf b.env.ctx).dsbase.toNat + 4096 * b.slotIdx + 64 * k

/-- An entry as its 64 bytes stand in memory (02 R33). -/
def readEntry (l : List Byte) : StackEntry :=
  { mask := BitVec.ofNat 128 (fieldAt l 0 16), arrived := BitVec.ofNat 128 (fieldAt l 16 16)
    pc := BitVec.ofNat 48 (fieldAt l 32 6), kind := BitVec.ofNat 8 (fieldAt l 38 1) }

/-- The 64 bytes of an entry (02 R33). -/
def StackEntry.bytes (e : StackEntry) : List Byte :=
  leBytes 16 e.mask.toNat ++ leBytes 16 e.arrived.toNat ++ leBytes 6 e.pc.toNat ++ [e.kind] ++ List.replicate 25 0

/-- The stack as a pop sees it (22 R394): an entry written out since it last changed may be read from the area, as the machine
chooses (DESIGN CHOICE, log 20); every other entry is taken as held. The list is top first; `n` counts the entries. -/
def State.poppable (s : State) (b : Board) : List StackEntry → List StackEntry
  | [] => []
  | e :: t =>
    let k := t.length
    (if k < b.spilled && Config.chooseBit (s.freeCtr + k) then
      { readEntry (s.mem.read (s.areaAt b k) 64) with span := e.span, clk := e.clk, recs := e.recs, mine := e.mine } else e) :: s.poppable b t

/-- The stack that JOIN, RET and EXIT act on. -/
def State.stackOf (s : State) (b : Board) : List StackEntry := s.poppable b b.stack

end Sys2Proof.Machine
end

