-- ==== Sys2Proof/Machine/Judge.lean ====
section
/-!
DEFINITION. Judging at the issue tick (22 R384 to R399, 21 R369, R370): the conditions on the values that an instruction reads, on
the budgets, on the stack, on privilege, on the board's own state, and on the landing windows in encoded time (03 R49 to R54).
-/
namespace Sys2Proof.Machine

/-- A trap about to be raised: class, slot, CODE and ADDR (21 R375). -/
structure Trap where
  cls : Nat
  slot : Nat
  code : Word
  addr : DWord := 0
deriving DecidableEq, Repr

/-- Trap classes (21 R369). -/
def clsSoft : Nat := 1
def clsWindow : Nat := 2
def clsIllegal : Nat := 3
def clsPriv : Nat := 4
def clsBudget : Nat := 5
def clsStack : Nat := 6
def clsBroken : Nat := 7
def clsRetire : Nat := 8
def clsOverrun : Nat := 9
def clsMachine : Nat := 10

/-- A finding within a slot: its place in field order, FPOS, the low byte of CODE, the value and ADDR (22 R385, R393). DEDUCED: log 18. -/
structure Find where
  key : Nat
  fpos : Nat
  low : Nat
  value : Nat
  addr : DWord := 0
deriving DecidableEq, Repr

/-- CODE of ILLEGAL and BUDGET (22 R385, R393). -/
def Find.code (f : Find) : Word := BitVec.ofNat 16 f.value ++ BitVec.ofNat 8 f.fpos ++ BitVec.ofNat 8 f.low

/-- The first finding in field order (21 R370). -/
def firstFind : List Find → Option Find
  | [] => none
  | f :: t =>
    match firstFind t with
    | some g => if g.key < f.key then some g else some f
    | none => some f

/-- One finding under a condition. -/
def when (c : Bool) (f : Find) : List Find := if c then [f] else []

/-- A finding in the field whose lowest bit is `pos`. -/
def atPos (pos low value : Nat) : Find := { key := pos, fpos := pos, low := low, value := value }

/-- A finding on register `k` of an operand group. -/
def atGroup (k low : Nat) (v : Nat) : Find := { key := 64 + k, fpos := 64 + k, low := low, value := v }

/-- The register an operand names is within the budget, so it has a value to judge. -/
def Board.exists (b : Board) : Opd → Bool
  | .v i n => b.vnum i n < b.env.vbud
  | .s n => n.toNat < b.env.sbud
  | _ => true

/-! ### ILLEGAL on values (22 R387 to R392) -/

/-- Bundle index `i` lies in the board's code object (22 R392). -/
def Board.inObject (b : Board) (i : BitVec 48) : Bool :=
  b.env.codebase.toNat ≤ i.toNat && i.toNat < b.env.codebase.toNat + b.env.nbun

/-- A target outside the code object: REASON 0x09, ADDR the index (22 R385, R392). -/
def Board.target (b : Board) (pos : Nat) (t : BitVec 48) : List Find :=
  when (!b.inObject t) { atPos pos 0x09 0 with addr := t.setWidth 64 }

/-- P + offset. -/
def plus {n : Nat} (pc : BitVec 48) (off : BitVec n) : BitVec 48 := pc + off.signExtend 48

/-- Values of the group from U, judged where the register is within the budget. DEDUCED: log 16. -/
def Board.groupFind (b : Board) (u : BitVec 9) (k : Nat) (bad : Nat → Bool) (low : Nat) : List Find :=
  let v := (b.sreg (u.toNat + k)).toNat
  when (u.toNat + k < b.env.sbud && bad v) (atGroup k low v)

/-- The field of n bits from bit lo of register U + k: the offending value is the field's (22 R385). DEDUCED: log 17. -/
def Board.groupBits (b : Board) (u : BitVec 9) (k lo n : Nat) (bad : Nat → Bool) (low : Nat) : List Find :=
  let v := bits (b.sreg (u.toNat + k)).toNat lo n
  when (u.toNat + k < b.env.sbud && bad v) (atGroup k low v)

/-- Field code of the K column for MMA (08 R177): AF and BF make a permitted pair. -/
def mmaPair (af bf : Nat) (sparse : Bool) : Bool :=
  match af with
  | 1 => bf == 1 || (bf == 8 && !sparse)
  | 2 => bf == 2 || (bf == 8 && !sparse)
  | 3 | 4 => bf == 3 || bf == 4 || (bf == 8 && !sparse)
  | 5 => bf == 5 || (bf == 8 && !sparse)
  | 6 => bf == 6
  | _ => false

/-- An FP8 format code. -/
def fp8 (f : Nat) : Bool := f == 3 || f == 4

/-- K of a matrix step (08 R177). -/
def mmaK (af : Nat) (sparse : Bool) : Nat :=
  let k := if af == 1 || af == 2 then 48 else if af == 5 then 192 else 96
  if sparse then 2 * k else k

/-- The lanes and the words of a matrix step, and then the fields of the common word (22 R385, R389). -/
def Board.mmaFind (b : Board) (m : Mask) (f : Opd) (sparse : Bool) : List Find :=
  when (sparse && b.mpc.toNat % 32 != 0) { key := 256, fpos := 0, low := 0x02, value := b.mpc.toNat, addr := b.mpc }
  ++
  if m != allLanes then [atPos 7 0x0E ((List.range 128).find? (fun l => !m.getLsbD l) |>.getD 0)]
  else if !b.exists f then []
  else
    let w := b.laneVal false f 0 0
    match (List.range 128).find? fun l => b.laneVal false f 0 l != w with
    | some l => [atPos 7 0x0D l]
    | none =>
      let x := w.toNat
      let af := bits x 0 4
      let bf := bits x 4 4
      let inWord (k low v : Nat) : Find := { key := 128 + k, fpos := 7, low := low, value := v }
      when (!mmaPair af bf sparse) (inWord 0 0x02 x)
      ++ when (w.getLsbD 8 && !(fp8 af || fp8 bf)) (inWord 8 0x02 x)
      ++ when (w.getLsbD 9 && af != 6) (inWord 9 0x02 x)
      ++ when (x >>> 12 != 0) (inWord 12 0x03 (x >>> 12))

/-- A selector of ACC.RDV and ACC.WRV: bits [31:7] are zero (22 R389). -/
def Board.selFind (b : Board) (slotB : Bool) (pos : Nat) (o : Opd) : List Find :=
  let v := (b.uniVal slotB o).toNat
  when (b.exists o && v >>> 7 != 0) (atPos pos 0x03 (v >>> 7))

/-- The command group of a ROUTE instruction (11 R239, 25 R427): limits of ARG, and sU + 3 zero. -/
def Board.routeFind (b : Board) (u : BitVec 9) (bad : Nat → Bool) (low : Nat) : List Find :=
  b.groupFind u 2 bad low ++ b.groupFind u 3 (· != 0) 0x03

/-- The bytes of a code object's descriptor (14 R304). -/
def State.descriptor (s : State) (b : Board) : List Byte :=
  match s.blockNow b.env.ctx (32 * b.env.codebase.toNat - 64) 64 with
  | .ok l => l
  | .error _ => []

/-- The budget VBUD of the `callee` kernel whose entry bundle stands at `t` (14 R303, 22 R392); `n` entries of the table are left to
look at. -/
def State.calleeFrom (s : State) (c : BitVec 16) (base : Nat) (ktab : Nat) (t : Nat) : Nat → Option Nat
  | 0 => none
  | n + 1 =>
    match s.calleeFrom c base ktab t n with
    | some v => some v
    | none =>
      match s.blockNow c (ktab + 32 * n) 32 with
      | .error _ => none
      | .ok e => if base + fieldAt e 0 4 == t && bits (fieldAt e 4 2) 0 1 == 1 then some (fieldAt e 6 1) else none

/-- The budget of the callee at bundle `t` of the board's code object. -/
def State.callee (s : State) (b : Board) (t : BitVec 48) : Option Nat :=
  let d := s.descriptor b
  s.calleeFrom b.env.ctx b.env.codebase.toNat (fieldAt d 8 8) t.toNat (fieldAt d 6 2)

/-- Target of a lane of CALLI (09 R198). -/
def Board.calliTarget (b : Board) (f : Opd) (l : Nat) : BitVec 48 := b.env.codebase + (b.laneVal false f 0 l).setWidth 48

/-- Target value of a `.init` (22 R391). -/
def initFind (b : Board) (r : Nat) : List Find :=
  let v := (b.sreg r).toNat
  when (r < b.env.sbud && !(1 ≤ v && v ≤ 65535)) (atPos 16 0x02 v)

/-- A bay gate of a grid at placement level 0 (22 R391). -/
def bayFind (b : Board) (k : GateKind) (g : BitVec 6) : List Find :=
  when (k == .bay && b.env.place == 0) (atPos 6 0x0F g.toNat)

/-- The gates of the board's bent or group. -/
def State.gateOf (s : State) (b : Board) (k : GateKind) (n : Nat) : Gate :=
  match k with
  | .bay => (look ((s.bent? b.env.bent).map (·.group) |>.getD 0) [] (s.bay (b.core / 4)).gates).getD n {}
  | _ => ((s.bent? b.env.bent).map (·.gates) |>.getD []).getD n {}

/-- The conditions of ILLEGAL on the values an instruction reads at issue. -/
def State.illegals (s : State) (b : Board) (i : Instr) : List Find :=
  let pc := s.cur.pc
  let m := s.cur.mask
  let isB := s.cur.slotB
  match i with
  | .sort2 _ _ o _ _ =>
    let v := (b.uniVal isB o).toNat
    when (b.exists o && (v >>> 7 != 0 || v % 8 == 7)) (atPos 29 0x02 v)
  | .cpb u n fl _ =>
    let cnt (k : Nat) (on : Bool) : Nat := if on then (b.sreg (u.toNat + k)).toNat else 1
    let n1 := cnt 5 (2 ≤ n.toNat)
    let n2 := cnt 6 (n == 3#2)
    b.groupFind u 4 (fun v => v == 0 || 16777216 < v || 2 ^ 32 < v * n1 * n2) 0x02
    ++ (if 2 ≤ n.toNat then b.groupFind u 5 (fun v => v == 0 || 65536 < v) 0x02 else [])
    ++ (if n == 3#2 then b.groupFind u 6 (fun v => v == 0 || 65536 < v) 0x02 else [])
    ++ b.groupBits u 11 0 5 (fun v => if fl.getLsbD 3 then v == 0 || 16 < v else v != 0) 0x02
    ++ b.groupBits u 11 5 27 (· != 0) 0x03
  | .cpr u _ _ _ =>
    b.groupFind u 6 (fun v => v == 0 || 16777216 < v) 0x02 ++ b.groupFind u 7 (· != 0) 0x03
  | .mma f _ _ _ => b.mmaFind m f false
  | .mmas f _ _ _ => b.mmaFind m f true
  | .accRdv _ f _ _ => b.selFind isB 7 f
  | .accWrv _ g _ _ => b.selFind isB 40 g
  | .accLd u _ _ =>
    b.groupFind u 2 (· % 4 != 0) 0x02 ++ b.groupBits u 3 0 4 (· != 0) 0x02
    ++ b.groupBits u 3 7 1 (· != 0) 0x03 ++ b.groupBits u 3 9 23 (· != 0) 0x03
  | .accSt u _ _ =>
    b.groupFind u 2 (· % 4 != 0) 0x02 ++ b.groupBits u 3 0 4 (2 < ·) 0x02
    ++ b.groupBits u 3 7 1 (· != 0) 0x03 ++ b.groupBits u 3 9 23 (· != 0) 0x03
  | .routeCount u _ | .routeScatter u _ => b.routeFind u (· != 0) 0x03
  | .routeXchg u _ | .routePlace u _ => b.routeFind u (· == 0) 0x02
  | .routeCombine u _ => b.groupBits u 2 1 31 (· != 0) 0x03 ++ b.groupFind u 3 (· != 0) 0x03
  | .routeStat _ u sel _ =>
    match sel with
    | .lkept | .ldrop | .lnone | .dwrit | .dlovf => b.routeFind u (· != 0) 0x03
    | _ => b.routeFind u (fun _ => false) 0x03
  | .bra off | .call off => b.target 6 (plus pc off)
  | .brcNz r off => if r.toNat < b.env.sbud && b.sreg r.toNat != 0 then b.target 15 (plus pc off) else []
  | .brcZ r off => if r.toNat < b.env.sbud && b.sreg r.toNat == 0 then b.target 15 (plus pc off) else []
  | .loop r off => if r.toNat < b.env.sbud && 1 < (b.sreg r.toNat).toNat then b.target 15 (plus pc off) else []
  | .brx a =>
    let v := b.pair (2 * a.toNat)
    if 2 * a.toNat + 1 < b.env.sbud then
      if v.extractLsb' 48 16 != 0 then [atPos 14 0x02 (v.toNat >>> 48)] else b.target 14 (v.setWidth 48)
    else []
  | .div _ _ t j => b.target 10 (plus pc t) ++ b.target 20 (plus pc j)
  | .calli f =>
    if b.exists f then
      match (lanesIn m).find? fun l => (s.callee b (b.calliTarget f l)).isNone with
      | some l => [{ atPos 6 0x0A l with addr := (b.calliTarget f l).setWidth 64 }]
      | none => []
    else []
  | .barAw k g _ | .barArr k g _ | .barWait k g _ => bayFind b k g
  | .barInit k g a =>
    bayFind b k g ++ initFind b (if k == .remote then a.toNat + 2 else a.toNat)
    ++ (match k, (s.gateOf b .bay g.toNat).target with
      | .bay, some t => when (b.env.place != 0 && a.toNat < b.env.sbud && t != (b.sreg a.toNat).toNat)
          (atPos 16 0x0F (b.sreg a.toNat).toNat)
      | _, _ => [])
  | .yield _ => when (!s.cur.y) (atPos 6 0x0B 0)
  | _ => []

/-! ### The other classes -/

/-- Privilege (22 R396). -/
def Board.privs (b : Board) : Instr → List Find
  | .eret => when (!b.priv) (atPos 0 0x01 0)
  | .setsys y _ => when (!b.priv && SysReg.ofNum y == some .window) (atPos 0 0x02 y.toNat)
  | _ => []

/-- CODE of PRIV: REASON and the SYS number (22 R396). -/
def privCode (f : Find) : Word := BitVec.ofNat 16 f.value ++ 0#8 ++ BitVec.ofNat 8 f.low

/-- Budgets (22 R393). -/
def State.budgets (s : State) (b : Board) (i : Instr) : List Find :=
  (b.uses i).flatMap (fun u =>
    match u.reg with
    | .v n => when (b.env.vbud ≤ n) (atPos u.pos 1 n)
    | .s n => when (b.env.sbud ≤ n) (atPos u.pos 2 n)
    | _ => [])
  ++ (match tileOf i with
    | some t => when (b.env.acc ≤ t) (atPos 27 3 t)
    | none => [])
  ++ (match i with
    | .calli f =>
      match (lanesIn s.cur.mask).find? fun l => match s.callee b (b.calliTarget f l) with
        | some v => b.env.cbud < 8 * v
        | none => false with
      | some l =>
        [{ atPos 6 5 (8 * ((s.callee b (b.calliTarget f l)).getD 0)) with addr := (b.calliTarget f l).setWidth 64 }]
      | none => []
    | _ => [])

/-- The groups of a CALLI of the bundle in issue. -/
def State.calliGroups (s : State) (b : Board) (f : Opd) : List (BitVec 48 × Mask) :=
  groupsOf (b.calliTarget f) (lanesIn s.cur.mask)

/-- KIND of a STACK trap (22 R394). -/
def State.stackKind (s : State) (b : Board) (i : Instr) : Option Nat :=
  let m := s.cur.mask
  let x := b.slotOf s.cur.slotB
  let o := (b.slotOf (!s.cur.slotB)).path
  let full (n : Nat) : Option Nat := if 64 < b.stack.length + n then some 1 else none
  match i with
  | .div k ng _ _ =>
    let c := if ng then ~~~b.mreg k.toNat else b.mreg k.toNat
    full (pushes 0 (o.isSome && m &&& c != 0 && m &&& ~~~c != 0))
  | .call _ => full (pushes 0 o.isSome)
  | .calli f => full (pushes (s.calliGroups b f).length o.isSome)
  | .join => match joinFlow (s.stackOf b) o s.cur.pc m x with | .error k => some k | .ok _ => none
  | .ret => match retFlow (s.stackOf b) o m x with | .error k => some k | .ok _ => none
  | .exit => match exitFlow (s.stackOf b) o m with | .error k => some k | .ok _ => none
  | _ => none

/-- CODE of a STACK trap (22 R394). -/
def Board.stackCode (b : Board) (kind : Nat) : Word := 0#16 ++ BitVec.ofNat 8 b.stack.length ++ BitVec.ofNat 8 kind

/-- Of several lanes of a location the lowest (23 R415). -/
def lowestLane : List BadLoc → Option BadLoc
  | [] => none
  | x :: t => match lowestLane t with
    | some y => if y.lane.toNat < x.lane.toNat then some y else some x
    | none => some x

/-- A location of the board's own state that a use reads and that is in error (23 R415). -/
def Board.badRead (b : Board) (slotB : Bool) (m : Mask) (u : Use) : Option BadLoc :=
  if u.how != .read then none
  else
    let at_ (st n : Nat) (lanes : Bool) :=
      lowestLane (b.bad.filter fun x => x.store.toNat == st && x.num.toNat == n && (!lanes || m.getLsbD x.lane.toNat))
    match u.reg with
    | .v n => at_ 1 n true
    | .s n => at_ 2 n false
    | .m n => at_ 3 n false
    | .b n => at_ 4 n false
    | .dv k => at_ 5 (k + 1) true
    | .dc k => at_ 5 ((if slotB then 7 else 5) + k) false
    | _ => none

/-- CODE of a MACHINE trap (23 R415). -/
def BadLoc.code (x : BadLoc) : Word := x.num ++ x.lane ++ x.store

/-- The entry beneath the top that a completing JOIN entry brings up, where the other slot is empty (02 R31, 09 R199). -/
def underTop (stk : List StackEntry) (free : Bool) (m : Mask) : List Nat :=
  match stk with
  | e :: _ :: t => if free && e.arrived ||| m == e.mask then [t.length] else []
  | _ => []

/-- Numbers of the entries of the divergence stack that an instruction of the bundle in issue reads, from the top: JOIN the top (02 R31), RET those down
to the highest JOIN entry (09 R199), both what a completion brings up, EXIT all of them (02 R32). -/
def State.stackReads (s : State) (b : Board) (i : Instr) : List Nat :=
  let stk := s.stackOf b
  let fromTop (k : Nat) : List Nat := (List.range (min k stk.length)).map fun j => stk.length - 1 - j
  let under := underTop stk (b.slotOf (!s.cur.slotB)).path.isNone s.cur.mask
  match i with
  | .join => fromTop 1 ++ under
  | .ret =>
    let above := (stk.takeWhile fun e => e.kind == kindPath).length
    fromTop (above + 1) ++ if above == 0 then under else []
  | .exit => fromTop stk.length
  | _ => []

/-- The first location in error that an instruction of the bundle in issue reads. -/
def State.machineFind (s : State) (b : Board) (i : Instr) : Option Word :=
  let rd := (b.uses i).findSome? (b.badRead s.cur.slotB s.cur.mask)
  let st := (s.stackReads b i).findSome? fun k => b.bad.find? fun x => x.store == 6#8 && x.num.toNat == k
  (rd <|> st).map BadLoc.code

/-! ### Landing windows (03 R49 to R54, 22 R397, R398) -/

/-- CODE of a WINDOW trap (22 R397). -/
def winCode (kind loc lane : Nat) : Word := BitVec.ofNat 32 (lane <<< 16 + kind <<< 11 + loc)

/-- The location of a slot's map that a use names. -/
def RegRef.sloc : RegRef → Option SLoc
  | .s n => some (.s n)
  | .m n => some (.m n)
  | .b n => some (.b n)
  | .mpc => some .mpc
  | .dc k => some (.dc k)
  | _ => none

/-- The location of the lanes' map that a use names. -/
def RegRef.vloc : RegRef → Option VLoc
  | .v n => some (.v n)
  | .dv k => some (.dv k)
  | _ => none

/-- The location of R50 that a use names. -/
def RegRef.ploc : RegRef → Option PLoc
  | .v n => some (.v n)
  | .s n => some (.s n)
  | _ => none

/-- Lanes of the open windows on a location that the slot or the lanes judge, with at least `r` ticks left; `old`: without those
that the bundle in issue has opened. -/
def Board.openLanes (b : Board) (slotB : Bool) (m : Mask) (g : RegRef) (r : Nat) (old : Bool) : Mask :=
  match g.vloc, g.sloc with
  | some l, _ =>
    b.vwins.foldl (fun a w => if w.loc == l && r ≤ w.rem && !(old && w.fresh) then a ||| (w.lanes &&& m) else a) 0
  | none, some l =>
    if (b.slotOf slotB).wins.any fun w => w.loc == l && r ≤ w.rem && !(old && w.fresh) then 1 else 0
  | none, none => 0

/-- Lanes in which a location is pending (03 R50). -/
def Board.pendLanes (b : Board) (m : Mask) (g : RegRef) (old : Bool) : Mask :=
  match g.ploc with
  | some l =>
    b.pending.foldl (fun a p => if p.loc == l && !(old && p.fresh) then
      a ||| (match l with | .v _ => p.lanes &&& m | .s _ => 1) else a) 0
  | none => 0

/-- Lanes of a pending location that a read from a slot meets: a uniform register pends for a read where the slot's own path has made it so
(03 R50, R54). -/
def Board.pendRead (b : Board) (slotB : Bool) (m : Mask) (g : RegRef) : Mask :=
  match g with
  | .s n => if (b.slotOf slotB).mine.contains n then b.pendLanes m g true else 0
  | _ => b.pendLanes m g true

/-- From which landing on an open window makes a write ill-formed: one at or after its own (03 R49); for a buffer record any, since a BRSET
too names it (07 R141). DEDUCED: log 98. -/
def orderFrom : RegRef → Nat → Nat
  | .b _, _ => 1
  | _, lat => lat

/-- The WINDOW code of one use, if it is ill-formed (22 R397). A read by a slot of the very bundle in which another slot's operation makes the
register pending is not judged: 03 R50 and 05 R91 do not say whether it is ill-formed. DESIGN CHOICE: log 111. -/
def Board.useWin (b : Board) (slotB : Bool) (m : Mask) (u : Use) : Option Word :=
  let found (kind : Nat) (lanes : Mask) : Option Word :=
    if lanes == 0 then none else some (winCode kind u.reg.loc (lowLane lanes))
  match u.how with
  | .read => found 0 (b.pendRead slotB m u.reg) <|> found 1 (b.openLanes slotB m u.reg 1 true)
  | .land lat => found 3 (b.pendLanes m u.reg false) <|> found 2 (b.openLanes slotB m u.reg (orderFrom u.reg lat) false)
  | .fill _ => found 3 (b.pendLanes m u.reg false) <|> found 2 (b.openLanes slotB m u.reg 1 false)
  | .named => none

/-- Operand fields with their lowest bits. -/
def fieldsOf : Instr → List (Nat × Opd)
  | .mov d a | .not d a | .popc d a | .clz d a | .brev d a | .fabs d a | .fneg d a | .fclass d a | .cvt d a _ _ _ _
  | .frcp d a | .frsq d a | .fexp2 d a | .flog2 d a | .fsin d a | .fcos d a | .ftanh d a | .fsqrt d a _
  | .narrow d a _ _ _ _ _ | .scan d a _ _ | .reduce d a _ => [(7, d), (18, a)]
  | .movi d _ => [(7, d)]
  | .qscale _ a _ | .mbal _ a => [(18, a)]
  | .sel d a c _ | .fadd d a c _ | .fsub d a c _ | .fmul d a c _ | .fmin d a c | .fmax d a c | .imul d a c | .imulh d a c _
  | .hadd2 d a c _ _ | .hsub2 d a c _ _ | .hmul2 d a c _ _ | .hmin2 d a c _ | .hmax2 d a c _ | .iadd d a c _ _
  | .isub d a c _ _ | .imin d a c _ | .imax d a c _ | .and d a c | .or d a c | .xor d a c | .shl d a c | .shr d a c
  | .sar d a c | .shflIdx d a c | .shflUp d a c | .shflDown d a c | .shflXor d a c | .bcast d a c | .rot d a c
  | .sort2 d a c _ _ | .hash d a c => [(7, d), (18, a), (29, c)]
  | .ffma d a c e _ | .imad d a c e | .hfma2 d a c e _ _ | .bfe d a c e _ | .bfi d a c e => [(7, d), (18, a), (29, c), (40, e)]
  | .fcmp _ a c _ | .icmp _ a c _ _ | .mlane _ a c => [(18, a), (29, c)]
  | .ld d _ x _ _ _ _ | .st d _ x _ _ _ _ | .stu d _ x _ _ _ _ | .lds d x _ _ _ | .sts d x _ _ _ => [(7, d), (23, x)]
  | .ldu _ _ x _ _ _ _ | .pref _ x _ _ => [(23, x)]
  | .atom d a _ x _ _ _ _ _ | .atoms d a x _ _ _ _ _ => [(7, d), (23, x), (46, a)]
  | .red a _ x _ _ _ _ _ | .reds a x _ _ _ _ _ | .atomu _ a _ x _ _ _ _ _ | .redu a _ x _ _ _ _ _ => [(23, x), (46, a)]
  | .cpa f g _ _ _ | .accRdv g f _ _ | .accWrv f g _ _ => [(7, f), (40, g)]
  | .mma f _ _ _ | .mmas f _ _ _ => [(7, f)]
  | .calli f => [(6, f)]
  | _ => []

/-- The verdict on the index bases in the path's own stream (22 R398). -/
def Board.ixWin (b : Board) (slotB : Bool) (m : Mask) (i : Instr) : Option (Nat × Word) :=
  match i with
  | .setix _ _ => if sibling b.stack then some (6, winCode 4 0 0) else none
  | _ =>
    if 0 < (b.slotOf slotB).ixTrap && sibling b.stack then
      (fieldsOf i).findSome? fun p =>
        match p.2 with
        | .v true n => some (p.1, winCode 4 (b.indexed n.toNat) (lowLane m))
        | _ => none
    else none

/-- The first of several codes in field order. -/
def firstAt : List (Nat × Word) → Option (Nat × Word)
  | [] => none
  | x :: t =>
    match firstAt t with
    | some y => if y.1 < x.1 then some y else some x
    | none => some x

/-- The first ill-formed use of an instruction in field order, the fields `but` apart. -/
def Board.windowFindBut (b : Board) (slotB : Bool) (m : Mask) (i : Instr) (but : List Nat) : Option Word :=
  let us := (b.uses i).filterMap fun u => if but.contains u.pos then none else (b.useWin slotB m u).map fun c => (u.pos, c)
  let all := us ++ (b.ixWin slotB m i).toList.filter fun x => !but.contains x.1
  (firstAt all).map (·.2)

/-- The first ill-formed use of an instruction in field order. -/
def Board.windowFind (b : Board) (slotB : Bool) (m : Mask) (i : Instr) : Option Word := b.windowFindBut slotB m i []

/-! ### The verdict -/

/-- The trap that an instruction of the bundle in issue raises, if any: the lowest class (21 R370, 22 R384). -/
def judge (s : State) (b : Board) (i : Instr) : Option Trap :=
  let n := slotNumOf i
  let win := if (s.ctxOf b.env.ctx).chkWindow then b.windowFind s.cur.slotB s.cur.mask i else none
  win.map (fun c => { cls := clsWindow, slot := n, code := c })
  <|> (firstFind (s.illegals b i)).map (fun f => { cls := clsIllegal, slot := n, code := f.code, addr := f.addr })
  <|> (firstFind (b.privs i)).map (fun f => { cls := clsPriv, slot := n, code := privCode f })
  <|> (firstFind (s.budgets b i)).map (fun f => { cls := clsBudget, slot := n, code := f.code, addr := f.addr })
  <|> (s.stackKind b i).map (fun k => { cls := clsStack, slot := n, code := b.stackCode k })
  <|> (s.machineFind b i).map (fun c => { cls := clsMachine, slot := n, code := c })

/-! ### Records of what a bundle opens (03 R53, R54) -/

/-- Open windows on a vector location by a write of latency `lat`: in production mode a write that would not follow a pending
landing lands one tick after it (03 R52). -/
def Board.openV (b : Board) (m : Mask) (l : VLoc) (lat : Nat) : List LaneWin :=
  { loc := l, lanes := m, rem := lat, fresh := true } ::
    (b.vwins.filter fun w => w.loc == l && lat ≤ w.rem && w.lanes &&& m != 0).map
      fun w => { w with lanes := w.lanes &&& m, rem := w.rem + 1, fresh := true }

/-- The window on a slot location by a write of latency `lat`. -/
def PcSlot.openS (x : PcSlot) (l : SLoc) (lat : Nat) : SlotWin :=
  let late := x.wins.foldl (fun a w => if w.loc == l && lat ≤ w.rem then max a (w.rem + 1) else a) lat
  { loc := l, rem := late, fresh := true }

/-- One use noted: the window it opens, or the destination that becomes pending. -/
def Board.noteUse (slotB : Bool) (m : Mask) (b : Board) (u : Use) : Board :=
  match u.how with
  | .land lat =>
    match u.reg.vloc, u.reg.sloc with
    | some l, _ => { b with vwins := b.openV m l lat ++ b.vwins }
    | none, some l =>
      let x := b.slotOf slotB
      b.setSlot slotB { x with wins := x.openS l lat :: x.wins }
    | none, none => b
  | .fill (some p) =>
    match u.reg.ploc with
    | some l =>
      let b := { b with pending := ⟨l, (match l with | .v _ => m | .s _ => allLanes), p.toNat, true⟩ :: b.pending }
      match l with
      | .v _ => b
      | .s n => let x := b.slotOf slotB; b.setSlot slotB { x with mine := n :: x.mine }
    | none => b
  | _ => b

/-- What the instruction writes, noted in the check-mode state (03 R53). -/
def Board.note (b : Board) (slotB : Bool) (m : Mask) (i : Instr) : Board := (b.uses i).foldl (Board.noteUse slotB m) b

/-- What the instruction writes, the fields `but` apart. -/
def Board.noteBut (b : Board) (slotB : Bool) (m : Mask) (i : Instr) (but : List Nat) : Board :=
  ((b.uses i).filter fun u => !but.contains u.pos).foldl (Board.noteUse slotB m) b

end Sys2Proof.Machine
end

