-- ==== Sys2Proof/Machine/Issue.lean ====
section
/-!
DEFINITION. The bundle in issue: what happens before its slots read (03 R50, R59), the results that leave for their landings
(03 R47, R48, R52), the shift of the latches (R55, R56), the encoded clocks (R54), the end of the bundle, and a landing.
-/
namespace Sys2Proof.Machine

/-! ### Before the slots -/

/-- The bases after the SETIX that reach their third bundle have applied (03 R59). -/
def applyIx (ix : List (BitVec 4)) : List PendIx → List (BitVec 4)
  | [] => ix
  | p :: t => applyIx (if p.left ≤ 1 then modAt p.ix.toNat (fun _ => p.val) ix else ix) t

/-- A slot keeps, of the uniform registers it has made pending, those that still are (03 R50). -/
def PcSlot.stillMine (l : List Pend) (x : PcSlot) : PcSlot :=
  if x.mine.isEmpty then x else { x with mine := x.mine.filter fun n => l.any (·.loc == .s n) }

/-- The start of a bundle's issue: index bases that apply now, and destinations that a wait on their peg releases. DEDUCED: log 44. -/
def Board.start (b : Board) (wait : BitVec 8) : Board :=
  { b with
    ix := applyIx b.ix b.pendIx
    pendIx := (b.pendIx.filter fun p => 1 < p.left).map fun p => { p with left := p.left - 1 }
    pending := b.pending.filter fun p => !wait.getLsbD p.peg
    slotA := b.slotA.stillMine (b.pending.filter fun p => !wait.getLsbD p.peg)
    slotB := b.slotB.stillMine (b.pending.filter fun p => !wait.getLsbD p.peg) }

/-! ### Results in flight -/

/-- Locations that a landing writes. -/
def Dest.regs : Dest → List RegRef
  | .none | .sys _ => []
  | .v n => [.v n]
  | .m n => [.m n]
  | .s n => [.s n]
  | .pair n => [.s n, .s (n + 1)]
  | .b n => [.b n]
  | .quad n => [.s n, .s (n + 1), .s (n + 2), .s (n + 3)]
  | .mpc => [.mpc]

/-- Every location an entry writes. -/
def PipeEntry.regs (e : PipeEntry) : List RegRef :=
  e.dest.regs ++ match e.dest2 with | some n => [.s n] | none => []

/-- The location has a part for each lane. -/
def RegRef.laned : RegRef → Bool
  | .v _ | .m _ => true
  | _ => false

/-- Two results write one location, in one lane where it has lanes. -/
def PipeEntry.meets (e f : PipeEntry) : Bool :=
  e.regs.any fun r => f.regs.contains r && (!r.laned || e.lanes &&& f.lanes != 0)

/-- A result leaves for its landing. One that would not follow a pending landing of its location lands one tick after it; its
latch entry lands at the latency (03 R52, R56). -/
def Board.emit (b : Board) (e : PipeEntry) : Board :=
  let rem := b.pipe.foldl (fun a f => if f.meets e && e.rem ≤ f.rem then max a (f.rem + 1) else a) e.rem
  { b with pipe := b.pipe ++ [{ e with rem := rem, late := rem - e.rem }] }

/-- The latch entry of a result lands in this tick, before its register (03 R52, R56). -/
def PipeEntry.latchNow (e : PipeEntry) : Bool := e.late != 0 && e.rem == e.late

/-- Something of the result lands in this tick. -/
def PipeEntry.landsNow (e : PipeEntry) : Bool := e.rem == 0 || e.latchNow

/-- A vector-slot result (06 R115): its register, if it names one, and the new dv1 entry. -/
def Board.outV (b : Board) (slotB : Bool) (m : Mask) (d : Opd) (lat : Nat) (vals : Lanes) (flags : BitVec 32) : Board :=
  let b := { b with vwins := { loc := .dv 0, lanes := m, rem := lat, fresh := true } :: b.vwins }
  b.emit
    { dest := (match d with | .v i n => .v (b.vnum i n) | _ => .none), slotB := slotB, lanes := m, rem := lat,
      vals := vals, dv := [(m, 0)], flags := flags }

/-- A result written to a mask register in the active lanes. -/
def Board.outM (b : Board) (slotB : Bool) (m : Mask) (d : BitVec 3) (lat : Nat) (v : Mask) (flags : BitVec 32) : Board :=
  b.emit { dest := .m d.toNat, slotB := slotB, lanes := m, rem := lat, sval := v, flags := flags }

/-- A control-slot result with its dc1 entry (09 R190). -/
def Board.outC (b : Board) (slotB : Bool) (d : Dest) (v : BitVec 64) : Board :=
  let x := b.slotOf slotB
  (b.setSlot slotB { x with wins := { loc := .dc 0, rem := 2, fresh := true } :: x.wins }).emit
    { dest := d, slotB := slotB, lanes := allLanes, rem := 2, sval := v.setWidth 128, dc := [(slotB, 0)], ctl := true }

/-- A result of latency 2 that is no control-slot result (07 R141, 08 R183). -/
def Board.outX (b : Board) (slotB : Bool) (d : Dest) (v : BitVec 128) : Board :=
  b.emit { dest := d, slotB := slotB, lanes := allLanes, rem := 2, sval := v }

/-! ### The end of a bundle -/

/-- An entry's place in the dv chains after a bundle of the lanes `m` (03 R55). -/
def shiftDv (m : Mask) (l : List (Mask × Nat)) : List (Mask × Nat) :=
  l.flatMap fun p =>
    (if p.1 &&& m != 0 && p.2 < 4 then [(p.1 &&& m, p.2 + 1)] else [])
    ++ (if p.1 &&& ~~~m != 0 then [(p.1 &&& ~~~m, p.2)] else [])

/-- An entry's place in the dc chains after a bundle of a slot. -/
def shiftDc (isB : Bool) (l : List (Bool × Nat)) : List (Bool × Nat) :=
  l.filterMap fun p => if p.1 == isB then (if p.2 < 2 then some (p.1, p.2 + 1) else none) else some p

/-- A lane window after a bundle of the lanes `m` with encoded gap `g`: its latch entry shifts, its clock advances. -/
def LaneWin.pass (m : Mask) (g : Nat) (w : LaneWin) : List LaneWin :=
  let moved : Option VLoc := match w.loc with
    | .dv k => if w.fresh then some (.dv k) else if k < 3 then some (.dv (k + 1)) else none
    | l => some l
  (match moved with
    | some l => if w.lanes &&& m != 0 && g < w.rem then [⟨l, w.lanes &&& m, w.rem - g, false⟩] else []
    | none => [])
  ++ (if w.lanes &&& ~~~m != 0 then [{ w with lanes := w.lanes &&& ~~~m, fresh := false }] else [])

/-- A slot window after a bundle of the slot with encoded gap `g`. -/
def SlotWin.pass (g : Nat) (w : SlotWin) : Option SlotWin :=
  let moved : Option SLoc := match w.loc with
    | .dc k => if w.fresh then some (.dc k) else if k < 1 then some (.dc (k + 1)) else none
    | l => some l
  match moved with
  | some l => if g < w.rem then some ⟨l, w.rem - g, false⟩ else none
  | none => none

/-- A location in error after a bundle of a slot: latch entries shift with their latches (03 R55, 23 R415). -/
def BadLoc.shift (c : Cur) (x : BadLoc) : Option BadLoc :=
  let n := x.num.toNat
  if x.store != 5#8 then some x
  else if n < 5 then
    if !c.mask.getLsbD x.lane.toNat then some x else if n == 4 then none else some { x with num := x.num + 1 }
  else if n < 9 && decide (7 ≤ n) == c.slotB then (if n % 2 == 1 then some { x with num := x.num + 1 } else none)
  else some x

/-- The latches, clocks and next index after the bundle in issue (03 R45, R54, R55): `eff` is its effective gap. -/
def Board.finish (b : Board) (c : Cur) (eff : Nat) : Board :=
  let x := b.slotOf c.slotB
  let x' : PcSlot :=
    { x with
      path := some ⟨c.pc + 1, c.mask⟩
      clk := x.clk + BitVec.ofNat 32 c.gap
      wins := x.wins.filterMap (SlotWin.pass c.gap)
      dc1 := 0, dc2 := x.dc1, ixTrap := x.ixTrap - 1 }
  { (b.setSlot c.slotB x') with
    dv := [mergeLanes c.mask [] (b.dv.getD 0 []), mergeLanes c.mask (b.dv.getD 0 []) (b.dv.getD 1 []),
           mergeLanes c.mask (b.dv.getD 1 []) (b.dv.getD 2 []), mergeLanes c.mask (b.dv.getD 2 []) (b.dv.getD 3 [])]
    pipe := b.pipe.map fun e => { e with dv := shiftDv c.mask e.dv, dc := shiftDc c.slotB e.dc }
    laneClk := lanesOf fun l => laneAt b.laneClk l + if c.mask.getLsbD l then BitVec.ofNat 32 c.gap else 0
    vwins := b.vwins.flatMap (LaneWin.pass c.mask c.gap)
    pending := b.pending.map fun p => { p with fresh := false }
    bad := b.bad.filterMap (BadLoc.shift c)
    gapRem := eff
    turnB := !c.slotB }

/-- The bundle in issue ends, once (02 R29, 03 R45): the effective gap is `lo` at least (03 R46). -/
def State.finish (s : State) (b : Board) (lo : Nat) : State :=
  if s.cur.done then { s with bd := some b }
  else { s with bd := some (b.finish s.cur (max s.cur.gap lo)), cur := { s.cur with done := true } }

/-! ### A landing -/

/-- A vector register written in some lanes. -/
def Board.putV (b : Board) (n : Nat) (m : Mask) (vals : Lanes) : Board :=
  { b with
    v := modAt n (fun old => mergeLanes m vals old) b.v
    bad := b.bad.filter fun x => !(x.store == 1#8 && x.num.toNat == n && m.getLsbD x.lane.toNat) }

/-- A uniform register written. -/
def Board.putS (b : Board) (n : Nat) (v : Word) : Board :=
  { b with s := modAt n (fun _ => v) b.s, bad := b.bad.filter fun x => !(x.store == 2#8 && x.num.toNat == n) }

/-- Words written to uniform registers from `n` on. -/
def Board.putWords (b : Board) (n : Nat) : List Word → Board
  | [] => b
  | w :: t => (b.putS n w).putWords (n + 1) t

/-- A mask register written in some lanes. -/
def Board.putM (b : Board) (n : Nat) (m v : Mask) : Board :=
  { b with
    m := modAt n (fun old => (old &&& ~~~m) ||| (v &&& m)) b.m
    bad := b.bad.filter fun x => !(x.store == 3#8 && x.num.toNat == n) }

/-- Fields of a record image (07 R138): the control word stands in bits [127:96]. -/
def recBase (img : BitVec 128) : Nat := bits img.toNat 0 64
/-- EXTENT. -/
def recExtent (img : BitVec 128) : Nat := bits img.toNat 64 32
/-- Element size in bytes (07 R139). -/
def recEsz (img : BitVec 128) : Nat := 2 ^ bits img.toNat 114 3
/-- Stride in bytes (07 R139). -/
def recStr (img : BitVec 128) : Nat := if bits img.toNat 96 16 == 0 then recEsz img else bits img.toNat 96 16
/-- SPAN (07 R139). -/
def recSpan (img : BitVec 128) : Nat := if recExtent img == 0 then 0 else (recExtent img - 1) * recStr img + recEsz img
/-- Swizzle number. -/
def recSwz (img : BitVec 128) : Nat := bits img.toNat 117 2
/-- Default scope code. -/
def recScope (img : BitVec 128) : Nat := bits img.toNat 119 4

/-- The field conditions under which a record is well-formed (07 R138, R141). -/
def wellFormedRecord (img : BitVec 128) : Bool :=
  recScope img ≤ 9 && bits img.toNat 114 3 ≤ 4 && !img.getLsbD 112
    && (recSwz img == 0 || (recBase img % 128 == 0 && recSpan img % 128 == 0))

/-- The register part of a landing (03 R48). -/
def Board.landReg (b : Board) (e : PipeEntry) : Board :=
  let b := match e.dest with
    | .none | .sys _ => b
    | .v n => b.putV n e.lanes e.vals
    | .m n => b.putM n e.lanes e.sval
    | .s n => b.putS n (e.sval.setWidth 32)
    | .pair n => b.putWords n [e.sval.setWidth 32, (e.sval >>> 32).setWidth 32]
    | .b n => { b with b := modAt n (fun _ => ⟨e.sval, wellFormedRecord e.sval⟩) b.b,
                       bad := b.bad.filter fun x => !(x.store == 4#8 && x.num.toNat == n) }
    | .quad n => b.putWords n [e.sval.setWidth 32, (e.sval >>> 32).setWidth 32, (e.sval >>> 64).setWidth 32,
        (e.sval >>> 96).setWidth 32]
    | .mpc => { b with mpc := e.sval.setWidth 64 }
  match e.dest2 with
  | some n => b.putS n (e.sval.setWidth 32)
  | none => b

/-- The location's number of a dv entry in a lane, and of a dc entry of a slot: 1 to 4 for dv1 to dv4, 5 and 6 for dc1 and dc2 of slot A, 7 and 8 for
those of slot B; 16 + k is entry k of the pipeline (23 R415). DESIGN CHOICE: log 66. -/
def dcNum (p : Bool × Nat) : Nat := (if p.1 then 6 else 4) + p.2

/-- Latch entries written: no longer in error. -/
def Board.heal (b : Board) (e : PipeEntry) : Board :=
  { b with bad := b.bad.filter fun x => !(x.store == 5#8
      && (e.dv.any (fun p => p.2 == x.num.toNat && p.1.getLsbD x.lane.toNat) || e.dc.any fun p => dcNum p == x.num.toNat)) }

/-- The locations in which an entry in error lands. -/
def PipeEntry.spread (e : PipeEntry) (lane : BitVec 8) : List BadLoc :=
  let at_ (store : BitVec 8) (l : BitVec 8) (n : Nat) : BadLoc := ⟨store, l, BitVec.ofNat 16 n⟩
  (match e.dest with
    | .v n => [at_ 1 lane n]
    | .s n | .pair n | .quad n => [at_ 2 0 n]
    | .m n => [at_ 3 0 n]
    | .b n => [at_ 4 0 n]
    | .none | .mpc | .sys _ => [])
  ++ e.dv.map (fun p => at_ 5 lane p.2) ++ e.dc.map fun p => at_ 5 0 (dcNum p)

/-- What an entry in error lands in is in error. -/
def Board.taint (b : Board) (e : PipeEntry) : Board :=
  match e.bad with
  | some l => { b with bad := e.spread l ++ b.bad }
  | none => b

/-- The latch part of a landing (03 R56). -/
def Board.landLatch (b : Board) (e : PipeEntry) : Board :=
  if e.latched then b else
  let b := b.heal e
  let b := e.dv.foldl (fun b p =>
    if p.2 == 0 then b else { b with dv := modAt (p.2 - 1) (fun old => mergeLanes p.1 e.vals old) b.dv }) b
  e.dc.foldl (fun b p =>
    let x := b.slotOf p.1
    if p.2 == 1 then b.setSlot p.1 { x with dc1 := e.sval.setWidth 32 }
    else if p.2 == 2 then b.setSlot p.1 { x with dc2 := e.sval.setWidth 32 } else b) b

/-- A landing (03 R48): registers, latches, the flags it raises and a system register it writes (09 R208, 22 R402); every board of the
context sees the new value from then on. DESIGN CHOICE: log 94. -/
def State.land (s : State) (b : Board) (e : PipeEntry) : State :=
  let s := s.setBoard (((b.landReg e).landLatch e).taint e)
  s.modCtx b.env.ctx fun c =>
    let c := match e.dest with
      | .sys true => { c with fstat := e.sval.setWidth 7 }
      | .sys false => { c with chkWindow := e.sval.getLsbD 0 }
      | _ => c
    { c with fstat := c.fstat ||| e.flags.setWidth 7 }

end Sys2Proof.Machine
end

