-- ==== Sys2Proof/Machine/Record.lean ====
section
/-!
DEFINITION. The freeze record of a board (21 R375 to R377): its words, the parked list, the pipeline entries and the window map, as
the bytes that are not zero.
-/
namespace Sys2Proof.Machine

/-- The bytes of a little-endian number that are not zero, at an offset. -/
def sparse (o n v : Nat) : List (Nat × Byte) :=
  ((List.range n).map fun k => (o + k, BitVec.ofNat 8 (v >>> (8 * k)))).filter fun p => p.2 != 0

/-- FLAGS of word 0 (21 R375). -/
def Board.flags (b : Board) (f : Freeze) : Nat :=
  (if b.slotA.path.isSome then 1 else 0) + (if b.slotB.path.isSome then 2 else 0) + (if f.slotB then 4 else 0)
  + (if b.lanesLeft == 0 then 8 else 0) + (if b.povf then 16 else 0)

/-- Word 13: counts and broken bits of the pegs. -/
def Board.pegWord (b : Board) : Nat :=
  ((List.range 8).map fun k => ((b.peg k).cnt + if (b.peg k).broken then 128 else 0) <<< (8 * k)).sum

/-- Number of a gate kind (09 R201). -/
def gateNum : GateKind → Nat
  | .bent => 0
  | .bay => 1
  | .remote => 2

/-- The slot next in alternation is B: of the slots that hold a path, or of both when neither does, the one that has not issued last (02 R40,
DEDUCED, log 9). -/
def Board.nextIsB (b : Board) : Bool :=
  if (b.slotOf b.turnB).path.isNone && (b.slotOf (!b.turnB)).path.isSome then !b.turnB else b.turnB

/-- The wait on a remote gate as the board shows it (21 R375). -/
def RGate.asWait (g : RGate) : GateWait := { kind := .remote, num := 0, addr := g.va.toNat, phase := g.phase }

/-- The gate that the board waits on: one of its waits, or a remote gate whose answer is still to come (15 R327). -/
def Board.waitShown (b : Board) : Option GateWait :=
  b.gateWait <|> (b.rgates.find? fun g => !g.parked && g.opr ≤ 2).map RGate.asWait

/-- Word 12: the gap (at most 31 in its field, DESIGN CHOICE, log 24), the turn and the gate waited on. -/
def Board.gapWord (b : Board) : Nat :=
  min b.gapRem 31 + (if b.nextIsB then 32 else 0) +
  match b.waitShown with
  | some w => 256 + gateNum w.kind <<< 9 + (w.num % 64) <<< 11 + (if w.phase then 2 ^ 17 else 0)
  | none => 0

/-- Word 14: index bases and pending SETIX, the oldest first. -/
def Board.ixWord (b : Board) : Nat :=
  ((List.range 4).map fun k => (b.ix.getD k 0).toNat <<< (4 * k)).sum
  + ((List.range 3).map fun k => match b.pendIx[k]? with
      | some p => (2 ^ 8 + (p.left % 4) <<< 6 + p.ix.toNat <<< 4 + p.val.toNat) <<< (16 * (k + 1))
      | none => 0).sum

/-- Word 15. -/
def Board.countWord (b : Board) : Nat :=
  b.stack.length + b.variant.toNat <<< 8 + min b.pipe.length 24 <<< 16 + (b.parked.length % 32) <<< 24

/-- The peg field of a parked entry (05 R94). -/
def pegField : Option (BitVec 3) → Nat
  | some p => 8 + p.toNat
  | none => 0

/-- Parked entry `k` (21 R377); bytes 28 to 31 hold NIND (26 R442). DISP starts at 0. -/
def Parked.bytes (p : Parked) (k : Nat) : List (Nat × Byte) :=
  let o := 0x300 + 64 * k
  sparse o 1 p.path ++ sparse (o + 1) 1 (pegField p.peg) ++ sparse (o + 3) 1 p.cause.toNat ++ sparse (o + 4) 4 p.pid
  ++ sparse (o + 8) 8 p.insn.toNat ++ sparse (o + 16) 8 p.addr.toNat ++ sparse (o + 24) 4 p.prog ++ sparse (o + 28) 4 p.nind

/-- The parked list. -/
def Board.parkedBytes (b : Board) : List (Nat × Byte) :=
  (List.range (min b.parked.length 16)).flatMap fun k => match b.parked[k]? with
    | some p => p.bytes k
    | none => []

/-- KIND and DEST of an in-flight result (21 R376): no destination is the special of that name; a write of a system register keeps its own kind of
result and names none (DEDUCED, log 25). -/
def PipeEntry.kindDest (e : PipeEntry) : Nat × Nat :=
  match e.dest with
  | .none => if e.ctl then (4, 0) else (1, 0x400)
  | .v n => (1, n)
  | .m n => (2, 0x408 + n)
  | .s n => (if e.ctl then 4 else 3, n)
  | .pair n => (4, n)
  | .quad n => (3, n)
  | .b n => (5, n)
  | .mpc => (6, 0)
  | .sys _ => (4, 0)

/-- AGE: the latch position of the result, 0 once shifted out; of the first lanes where they differ (DEDUCED, log 25). -/
def PipeEntry.age (e : PipeEntry) : Nat :=
  match e.dv, e.dc with
  | p :: _, _ => p.2
  | [], q :: _ => q.2
  | [], [] => 0

/-- Pipeline entry `k` (21 R376). -/
def PipeEntry.bytes (e : PipeEntry) (k : Nat) : List (Nat × Byte) :=
  let o := 0x1000 + 640 * k
  sparse o 1 e.kindDest.1 ++ sparse (o + 1) 1 ((if e.slotB then 1 else 0) + e.age % 8 * 2) ++ sparse (o + 2) 2 e.kindDest.2
  ++ sparse (o + 4) 1 e.rem ++ sparse (o + 6) 2 (e.dest2.getD 0) ++ sparse (o + 16) 16 e.lanes.toNat
  ++ sparse (o + 32) 16 e.sval.toNat
  ++ (List.range 128).flatMap fun l => sparse (o + 64 + 4 * l) 4 (laneAt e.vals l).toNat

/-- The largest of several numbers. -/
def maxOf (l : List Nat) : Nat := l.foldl max 0

/-- Window bytes of one location of the lanes' map. -/
def Board.laneMap (b : Board) (o : Nat) (v : VLoc) : List (Nat × Byte) :=
  let ws := b.vwins.filter fun w => w.loc == v && w.lanes != 0
  if ws.isEmpty then []
  else (List.range 128).flatMap fun l => sparse (o + l) 1 (maxOf ((ws.filter fun w => w.lanes.getLsbD l).map (·.rem)))

/-- Window byte of one location of a slot's map. -/
def PcSlot.winByte (x : PcSlot) (o : Nat) (l : SLoc) : List (Nat × Byte) :=
  sparse o 1 (maxOf ((x.wins.filter fun w => w.loc == l).map (·.rem)))

/-- A slot's part of the window map (21 R376). -/
def PcSlot.mapBytes (x : PcSlot) (o : Nat) : List (Nat × Byte) × List (Nat × Byte) :=
  if x.wins.isEmpty then ([], [])
  else
    ((List.range 512).flatMap fun n => x.winByte (0x6E00 + o + n) (.s n),
     (List.range 8).flatMap (fun n => x.winByte (0x7000 + o + n) (.m n))
      ++ (List.range 32).flatMap (fun n => x.winByte (0x7008 + o + n) (.b n))
      ++ x.winByte (0x7028 + o) .mpc ++ x.winByte (0x7029 + o) (.dc 0) ++ x.winByte (0x702A + o) (.dc 1))

/-- The window map (21 R376), in rising order of offset. -/
def Board.mapBytes (b : Board) : List (Nat × Byte) :=
  let p := b.slotA.mapBytes 0
  let q := b.slotB.mapBytes 0x300
  (List.range 64).flatMap (fun n => b.laneMap (0x4C00 + 128 * n) (.v n))
  ++ (List.range 4).flatMap (fun k => b.laneMap (0x6C00 + 128 * k) (.dv k))
  ++ p.1 ++ p.2 ++ q.1 ++ q.2

/-- A path's bundle index and mask, zero for an empty slot. -/
def PcSlot.pcNat (x : PcSlot) : Nat := match x.path with | some p => p.pc.toNat | none => 0
/-- The mask of a slot's path. -/
def PcSlot.maskNat (x : PcSlot) : Nat := match x.path with | some p => p.mask.toNat | none => 0

/-- The whole record (21 R375) as the bytes that are not zero, in rising order. `ctx` is the CTXID. -/
def Board.record (b : Board) (f : Freeze) : List (Nat × Byte) :=
  sparse 0 8 (f.cls.toNat + f.slot.toNat <<< 8 + b.flags f <<< 24 + f.code.toNat <<< 32)
  ++ sparse 0x008 8 (f.frid.toNat + b.env.ctx.toNat <<< 32)
  ++ sparse 0x010 8 f.tpc.toNat ++ sparse 0x018 8 f.addr.toNat ++ sparse 0x020 8 f.time.toNat ++ sparse 0x028 8 f.tick.toNat
  ++ sparse 0x030 8 b.slotA.pcNat ++ sparse 0x038 8 b.slotB.pcNat
  ++ sparse 0x040 16 b.slotA.maskNat ++ sparse 0x050 16 b.slotB.maskNat
  ++ sparse 0x060 8 b.gapWord ++ sparse 0x068 8 b.pegWord ++ sparse 0x070 8 b.ixWord ++ sparse 0x078 8 b.countWord
  ++ sparse 0x080 4 b.slotA.dc1.toNat ++ sparse 0x084 4 b.slotA.dc2.toNat
  ++ sparse 0x088 4 b.slotB.dc1.toNat ++ sparse 0x08C 4 b.slotB.dc2.toNat
  ++ sparse 0x090 4 b.slotA.clk.toNat ++ sparse 0x094 4 b.slotB.clk.toNat
  ++ (List.range 128).flatMap (fun l => sparse (0x100 + 4 * l) 4 (laneAt b.laneClk l).toNat)
  ++ b.parkedBytes
  ++ (List.range 4).flatMap (fun k => (List.range 128).flatMap fun l =>
      sparse (0x800 + 512 * k + 4 * l) 4 (laneAt (b.dv.getD k []) l).toNat)
  ++ (List.range (min b.pipe.length 24)).flatMap (fun k => match b.pipe[k]? with
      | some e => e.bytes k
      | none => [])
  ++ b.mapBytes

/-- A region of memory replaced by the bytes that are not zero there, given in rising order. -/
def Mem.splice (m : Mem) (a n : Nat) (w : List (Nat × Byte)) : Mem :=
  m.filter (fun p => p.1 < a) ++ w.map (fun p => (a + p.1, p.2)) ++ m.filter (fun p => a + n ≤ p.1)

/-- The record written when the board freezes: whole lines, so that their check bits are good again (23 R414). -/
def State.writeRecord (s : State) (b : Board) (f : Freeze) : State :=
  let a := s.recordAt b
  { s with badLines := s.badLines.filter fun l => !(a / 128 ≤ l && l < a / 128 + 256)
           edits := s.edits.filter fun e => !(a ≤ e.addr && e.addr < a + 32768) }.ownMem a 32768
    (s.mem.splice a 32768 (b.record f))

/-- The board's bent is frozen on its way out of its place, which it still holds (13 R290, 16 R345). -/
def State.leaving (s : State) (b : Board) : Bool :=
  match s.bent? b.env.bent with
  | some x => !x.away && (x.forced || x.moving.isSome)
  | none => false

/-- The record's peg word and parked list brought up to date, DISP fields as software has set them (21 R375). -/
def State.updateRecord (s : State) (b : Board) : State :=
  if b.frozen.isNone && !s.leaving b then s
  else
    let a := s.recordAt b
    let disp (k : Nat) : List (Nat × Byte) := sparse (0x302 + 64 * k) 1 (s.mem.num (a + 0x302 + 64 * k) 1)
    let list := (List.range (min b.parked.length 16)).flatMap fun k => match b.parked[k]? with
      | some p => p.bytes k ++ disp k
      | none => []
    let m := s.mem.splice (a + 0x300) 0x400 []
    let m := m.writeAll (list.map fun p => (a + p.1, p.2))
    let m := m.write (a + 0x68) (leBytes 8 b.pegWord)
    let m := m.write (a + 0x7B) [BitVec.ofNat 8 (b.parked.length % 32)]
    let m := m.write (a + 3) [BitVec.ofNat 8 ((m.num (a + 3) 1) % 16 + if b.povf then 16 else 0)]
    let own (o : Nat) : Bool := o == 3 || (0x68 ≤ o && o < 0x70) || o == 0x7B || (0x300 ≤ o && o < 0x700 && o % 64 != 2)
    { s with edits := s.edits.filter fun e => !(a ≤ e.addr && own (e.addr - a)) }.ownMem a 32768 m

/-- Every entry of the divergence stack written out to the board's area (02 R33). -/
def State.spill (s : State) (b : Board) : State :=
  let n := b.stack.length
  s.ownMem (s.areaAt b 0) 4096 ((List.range n).foldl (fun m k =>
    m.write (s.areaAt b k) ((b.stack.getD (n - 1 - k) { mask := 0, arrived := 0, pc := 0, kind := 0 }).bytes)) s.mem)

end Sys2Proof.Machine
end

