-- ==== Sys2Proof/Machine/Trap.lean ====
section
/-!
DEFINITION. Taking a trap (21 R369 to R373, R382): the board freezes, its record and its stack are written, and the trap goes to the
context's handler, to the tenant's fault queue, or first to the service cores.
-/
namespace Sys2Proof.Machine

/-- Virtual address of a board's record in the context's mapping (21 R372). -/
def State.recordVa (s : State) (b : Board) : Nat := (s.ctxOf b.env.ctx).saveva.toNat + 32768 * b.slotIdx

/-- The fault queue entry of a frozen board (21 R373). -/
def State.trapEntry (s : State) (b : Board) (f : Freeze) : State :=
  s.faultEntry (s.ctxOf b.env.ctx).fn
    [f.cls.toNat + f.slot.toNat <<< 8 + b.flags f <<< 24 + f.code.toNat <<< 32,
     f.frid.toNat + b.env.ctx.toNat <<< 32, f.tpc.toNat, f.addr.toNat, f.time.toNat,
     b.env.gridid.toNat + b.slotIdx <<< 32, b.env.bentIdx.toNat, s.recordAt b]

/-- The trap's delivery (21 R371, R372, R382). Where the handler's block lies at a peer, its lines are asked for first (15 R319, log 22). -/
def State.deliver (s : State) (b : Board) (f : Freeze) : State :=
  let c := s.ctxOf b.env.ctx
  if c.trapctl.getLsbD f.cls.toNat || c.traphb == 0 || c.saveva == 0 || b.priv then s.trapEntry b f
  else
    let who := trapReader b.id
    let own := s.asReader who
    let turned (e : BFail) : State :=
      if e.waits then
        ((s.awaitPeer who b.env.ctx e).getD s).modBoard b.id fun b => { b with frozen := b.frozen.map fun f => { f with due := true } }
      else ((s.unfetch who).trapEntry b f).engineEntry b.env.ctx e.cause e.detail 1 c.traphb.toNat 0
    match own.block b.env.ctx c.traphb.toNat 64 with
    | .error e => turned (memFail e)
    | .ok l =>
      match own.judgeBlock b.env.ctx .trap l with
      | .error e => turned e
      | .ok (blk, k) =>
        (s.unfetch who).addGrid b.env.ctx { blk with rank := 7, param := BitVec.ofNat 64 (s.recordVa b) } k (.trap b.id f.frid) 7 []

/-- Deliveries that wait for a peer go on as far as they get. -/
def State.advanceTraps (s : State) : State :=
  s.allBoards.foldl (fun s b => match b.frozen with
    | some f => if !f.due then s
      else
        let f := { f with due := false }
        let b := { b with frozen := some f }
        (s.setBoard b).deliver b f
    | none => s) s

/-- The service cores are asked first (23 R413). -/
def State.pagingFirst (s : State) (b : Board) (cls : Nat) : Bool :=
  (s.ctxOf b.env.ctx).pgsvc && (cls == clsBroken || cls == clsRetire) && !b.parked.isEmpty
  && b.parked.all fun p => p.cause == 0x18#8 || p.cause == 0x1F#8 || p.cause == 0x22#8

/-- The board freezes (03 R67, 21 R375) with a trap that names bundle `tpc`. DEDUCED: log 45. -/
def State.freeze (s : State) (b : Board) (t : Trap) (slotB : Bool) (tpc : BitVec 48) : State :=
  let frid := (s.ctxOf b.env.ctx).nextFrid
  let f : Freeze :=
    { cls := BitVec.ofNat 8 t.cls, slot := BitVec.ofNat 8 t.slot, slotB := slotB, code := t.code, frid := frid, tpc := tpc
      addr := t.addr, time := s.timeWord, tick := b.tick, held := s.pagingFirst b t.cls }
  let s := s.modCtx b.env.ctx fun c => { c with nextFrid := c.nextFrid + 1 }
  let run := b.run.map fun r => { r with fallen := r.fallen || r.start + r.n + 1 ≤ b.tick.toNat }
  let b := { b with frozen := some f, spilled := b.stack.length, run := run }
  let s := ((s.setBoard b).spill b).writeRecord b f
  if f.held then s else s.deliver b f

/-- A trap of the bundle in issue taken on the board as it stands (21 R369). -/
def State.raise (s : State) (b : Board) (t : Trap) : State := s.freeze b t s.cur.slotB s.cur.pc

end Sys2Proof.Machine
end

