-- ==== Sys2Proof/Machine/Exec.lean ====
section
/-!
DEFINITION. How a slot instruction acts: on the board in focus, for the lanes of the bundle in issue, after its conditions have been
judged (22 R384); and the lane values and results of the vector slot (05 R93, 06 R112, R113).
-/
namespace Sys2Proof.Machine

/-- A slot instruction: it traps before any effect when a condition holds, and otherwise acts on the board with its windows and
pending destinations noted (22 R384, 03 R53). -/
def onBoard (s : State) (i : Instr) (k : Board → State) : Out :=
  match s.bd with
  | none => .fault .noBoard
  | some b =>
    match judge s b i with
    | some t => .next (s.raise b t)
    | none => .next (k (b.note s.cur.slotB s.cur.mask i))

/-- The board in focus replaced. -/
def State.put (s : State) (b : Board) : State := { s with bd := some b }

/-- A source of an active lane as raw bits (05 R93). -/
def State.src (s : State) (b : Board) (o : Opd) (l : Nat) : Word := b.laneVal s.cur.slotB o 0 l

/-- A source of an active lane read as binary32: a short immediate stands for its integer's value (05 R93). -/
def State.fsrc (s : State) (b : Board) (o : Opd) (l : Nat) : Word :=
  match o with
  | .imm i => immFloat i
  | _ => b.laneVal s.cur.slotB o 0 l

/-- Results of the active lanes, zero elsewhere. -/
def State.active (s : State) (f : Nat → Res) : List Res :=
  tab 128 fun l => if s.cur.mask.getLsbD l then f l else { val := 0 }

/-- The flags of several results. -/
def allFlags (rs : List Res) : Word := rs.foldl (fun a r => a ||| r.flags) 0

/-- A vector result in the active lanes (06 R112). -/
def State.vec (s : State) (b : Board) (d : Opd) (lat : Nat) (f : Nat → Res) : State :=
  let rs := s.active f
  s.put (b.outV s.cur.slotB s.cur.mask d lat (rs.map (·.val)) (allFlags rs))

/-- A vector result that raises no flag. -/
def State.vecW (s : State) (b : Board) (d : Opd) (lat : Nat) (f : Nat → Word) : State := s.vec b d lat fun l => { val := f l }

/-- A mask result in the active lanes (06 R112). -/
def State.mask (s : State) (b : Board) (d : BitVec 3) (lat : Nat) (p : Nat → Bool) : State :=
  s.put (b.outM s.cur.slotB s.cur.mask d lat (maskOf p) 0)

/-- A uniform result of the vector slot (06 R112). -/
def State.uni (s : State) (b : Board) (d : BitVec 9) (lat : Nat) (v : Word) (flags : Word) : State :=
  s.put (b.emit { dest := .s d.toNat, slotB := s.cur.slotB, lanes := allLanes, rem := lat, sval := v.setWidth 128, flags := flags })

end Sys2Proof.Machine
end

