-- ==== Sys2Proof/Machine/Uniform.lean ====
section
/-!
DEFINITION. Uniform arithmetic of the control slot (09 R192 to R194): results of latency 2 with their dc1 entry (R190).
-/
namespace Sys2Proof.Machine

/-- A 32-bit result of the control slot (09 R190). -/
def State.ctl (s : State) (b : Board) (d : BitVec 9) (v : Word) : State := s.put (b.outC s.cur.slotB (.s d.toNat) (v.setWidth 64))

/-- A 64-bit result of the control slot: dc1 takes its low half (09 R190). -/
def State.ctlPair (s : State) (b : Board) (n : Nat) (v : DWord) : State := s.put (b.outC s.cur.slotB (.pair n) v)

/-- The immediate of form CI as a second operand (09 R192). -/
def immUni (i : BitVec 7) : Word := i.signExtend 32

/-- The result of SADD (09 R192): a sum mod 2^32. -/
def valSadd (x y : Word) : Word := x + y

/-- The result of SSUB (09 R192): a difference mod 2^32. -/
def valSsub (x y : Word) : Word := x - y

/-- The result of SMUL (09 R192): the low product. -/
def valSmul (x y : Word) : Word := x * y

/-- The result of SMULH (09 R192): the high half of the signed product. -/
def valSmulh (x y : Word) : Word := mulHigh false x y

/-- The result of SAND (09 R192): bitwise and. -/
def valSand (x y : Word) : Word := x &&& y

/-- The result of SOR (09 R192): bitwise or. -/
def valSor (x y : Word) : Word := x ||| y

/-- The result of SXOR (09 R192): bitwise exclusive or. -/
def valSxor (x y : Word) : Word := x ^^^ y

/-- The result of SSHL (09 R192): shift left. -/
def valSshl (x y : Word) : Word := shiftL x y

/-- The result of SSHR (09 R192): logical shift right. -/
def valSshr (x y : Word) : Word := shiftR x y

/-- The result of SSAR (09 R192): arithmetic shift right. -/
def valSsar (x y : Word) : Word := shiftA x y

/-- The result of SMIN (09 R192): signed minimum. -/
def valSmin (x y : Word) : Word := if iLess false y x then y else x

/-- The result of SMAX (09 R192): signed maximum. -/
def valSmax (x y : Word) : Word := if iLess false x y then y else x

/-- The result of SMINU (09 R192): unsigned minimum. -/
def valSminu (x y : Word) : Word := if iLess true y x then y else x

/-- The result of SMAXU (09 R192): unsigned maximum. -/
def valSmaxu (x y : Word) : Word := if iLess true x y then y else x

/-- The result of SSLT (09 R192): 1 if less, signed. -/
def valSslt (x y : Word) : Word := if iLess false x y then 1 else 0

/-- The result of SSLTU (09 R192): 1 if less, unsigned. -/
def valSsltu (x y : Word) : Word := if iLess true x y then 1 else 0

/-- SADD, register form (09 R192). -/
def execSadd (d a b : BitVec 9) (s : State) : Out :=
  onBoard s (.sadd d a b) fun b0 => s.ctl b0 d (valSadd (b0.sreg a.toNat) (b0.sreg b.toNat))

/-- SSUB, register form (09 R192). -/
def execSsub (d a b : BitVec 9) (s : State) : Out :=
  onBoard s (.ssub d a b) fun b0 => s.ctl b0 d (valSsub (b0.sreg a.toNat) (b0.sreg b.toNat))

/-- SMUL, register form (09 R192). -/
def execSmul (d a b : BitVec 9) (s : State) : Out :=
  onBoard s (.smul d a b) fun b0 => s.ctl b0 d (valSmul (b0.sreg a.toNat) (b0.sreg b.toNat))

/-- SMULH, register form (09 R192). -/
def execSmulh (d a b : BitVec 9) (s : State) : Out :=
  onBoard s (.smulh d a b) fun b0 => s.ctl b0 d (valSmulh (b0.sreg a.toNat) (b0.sreg b.toNat))

/-- SAND, register form (09 R192). -/
def execSand (d a b : BitVec 9) (s : State) : Out :=
  onBoard s (.sand d a b) fun b0 => s.ctl b0 d (valSand (b0.sreg a.toNat) (b0.sreg b.toNat))

/-- SOR, register form (09 R192). -/
def execSor (d a b : BitVec 9) (s : State) : Out :=
  onBoard s (.sor d a b) fun b0 => s.ctl b0 d (valSor (b0.sreg a.toNat) (b0.sreg b.toNat))

/-- SXOR, register form (09 R192). -/
def execSxor (d a b : BitVec 9) (s : State) : Out :=
  onBoard s (.sxor d a b) fun b0 => s.ctl b0 d (valSxor (b0.sreg a.toNat) (b0.sreg b.toNat))

/-- SSHL, register form (09 R192). -/
def execSshl (d a b : BitVec 9) (s : State) : Out :=
  onBoard s (.sshl d a b) fun b0 => s.ctl b0 d (valSshl (b0.sreg a.toNat) (b0.sreg b.toNat))

/-- SSHR, register form (09 R192). -/
def execSshr (d a b : BitVec 9) (s : State) : Out :=
  onBoard s (.sshr d a b) fun b0 => s.ctl b0 d (valSshr (b0.sreg a.toNat) (b0.sreg b.toNat))

/-- SSAR, register form (09 R192). -/
def execSsar (d a b : BitVec 9) (s : State) : Out :=
  onBoard s (.ssar d a b) fun b0 => s.ctl b0 d (valSsar (b0.sreg a.toNat) (b0.sreg b.toNat))

/-- SMIN, register form (09 R192). -/
def execSmin (d a b : BitVec 9) (s : State) : Out :=
  onBoard s (.smin d a b) fun b0 => s.ctl b0 d (valSmin (b0.sreg a.toNat) (b0.sreg b.toNat))

/-- SMAX, register form (09 R192). -/
def execSmax (d a b : BitVec 9) (s : State) : Out :=
  onBoard s (.smax d a b) fun b0 => s.ctl b0 d (valSmax (b0.sreg a.toNat) (b0.sreg b.toNat))

/-- SMINU, register form (09 R192). -/
def execSminu (d a b : BitVec 9) (s : State) : Out :=
  onBoard s (.sminu d a b) fun b0 => s.ctl b0 d (valSminu (b0.sreg a.toNat) (b0.sreg b.toNat))

/-- SMAXU, register form (09 R192). -/
def execSmaxu (d a b : BitVec 9) (s : State) : Out :=
  onBoard s (.smaxu d a b) fun b0 => s.ctl b0 d (valSmaxu (b0.sreg a.toNat) (b0.sreg b.toNat))

/-- SSLT, register form (09 R192). -/
def execSslt (d a b : BitVec 9) (s : State) : Out :=
  onBoard s (.sslt d a b) fun b0 => s.ctl b0 d (valSslt (b0.sreg a.toNat) (b0.sreg b.toNat))

/-- SSLTU, register form (09 R192). -/
def execSsltu (d a b : BitVec 9) (s : State) : Out :=
  onBoard s (.ssltu d a b) fun b0 => s.ctl b0 d (valSsltu (b0.sreg a.toNat) (b0.sreg b.toNat))

/-- SADD, immediate form (09 R192). -/
def execSaddImm (d a : BitVec 9) (i : BitVec 7) (s : State) : Out :=
  onBoard s (.saddImm d a i) fun b0 => s.ctl b0 d (valSadd (b0.sreg a.toNat) (immUni i))

/-- SSUB, immediate form (09 R192). -/
def execSsubImm (d a : BitVec 9) (i : BitVec 7) (s : State) : Out :=
  onBoard s (.ssubImm d a i) fun b0 => s.ctl b0 d (valSsub (b0.sreg a.toNat) (immUni i))

/-- SMUL, immediate form (09 R192). -/
def execSmulImm (d a : BitVec 9) (i : BitVec 7) (s : State) : Out :=
  onBoard s (.smulImm d a i) fun b0 => s.ctl b0 d (valSmul (b0.sreg a.toNat) (immUni i))

/-- SMULH, immediate form (09 R192). -/
def execSmulhImm (d a : BitVec 9) (i : BitVec 7) (s : State) : Out :=
  onBoard s (.smulhImm d a i) fun b0 => s.ctl b0 d (valSmulh (b0.sreg a.toNat) (immUni i))

/-- SAND, immediate form (09 R192). -/
def execSandImm (d a : BitVec 9) (i : BitVec 7) (s : State) : Out :=
  onBoard s (.sandImm d a i) fun b0 => s.ctl b0 d (valSand (b0.sreg a.toNat) (immUni i))

/-- SOR, immediate form (09 R192). -/
def execSorImm (d a : BitVec 9) (i : BitVec 7) (s : State) : Out :=
  onBoard s (.sorImm d a i) fun b0 => s.ctl b0 d (valSor (b0.sreg a.toNat) (immUni i))

/-- SXOR, immediate form (09 R192). -/
def execSxorImm (d a : BitVec 9) (i : BitVec 7) (s : State) : Out :=
  onBoard s (.sxorImm d a i) fun b0 => s.ctl b0 d (valSxor (b0.sreg a.toNat) (immUni i))

/-- SSHL, immediate form (09 R192). -/
def execSshlImm (d a : BitVec 9) (i : BitVec 7) (s : State) : Out :=
  onBoard s (.sshlImm d a i) fun b0 => s.ctl b0 d (valSshl (b0.sreg a.toNat) (immUni i))

/-- SSHR, immediate form (09 R192). -/
def execSshrImm (d a : BitVec 9) (i : BitVec 7) (s : State) : Out :=
  onBoard s (.sshrImm d a i) fun b0 => s.ctl b0 d (valSshr (b0.sreg a.toNat) (immUni i))

/-- SSAR, immediate form (09 R192). -/
def execSsarImm (d a : BitVec 9) (i : BitVec 7) (s : State) : Out :=
  onBoard s (.ssarImm d a i) fun b0 => s.ctl b0 d (valSsar (b0.sreg a.toNat) (immUni i))

/-- SMIN, immediate form (09 R192). -/
def execSminImm (d a : BitVec 9) (i : BitVec 7) (s : State) : Out :=
  onBoard s (.sminImm d a i) fun b0 => s.ctl b0 d (valSmin (b0.sreg a.toNat) (immUni i))

/-- SMAX, immediate form (09 R192). -/
def execSmaxImm (d a : BitVec 9) (i : BitVec 7) (s : State) : Out :=
  onBoard s (.smaxImm d a i) fun b0 => s.ctl b0 d (valSmax (b0.sreg a.toNat) (immUni i))

/-- SMINU, immediate form (09 R192). -/
def execSminuImm (d a : BitVec 9) (i : BitVec 7) (s : State) : Out :=
  onBoard s (.sminuImm d a i) fun b0 => s.ctl b0 d (valSminu (b0.sreg a.toNat) (immUni i))

/-- SMAXU, immediate form (09 R192). -/
def execSmaxuImm (d a : BitVec 9) (i : BitVec 7) (s : State) : Out :=
  onBoard s (.smaxuImm d a i) fun b0 => s.ctl b0 d (valSmaxu (b0.sreg a.toNat) (immUni i))

/-- SSLT, immediate form (09 R192). -/
def execSsltImm (d a : BitVec 9) (i : BitVec 7) (s : State) : Out :=
  onBoard s (.ssltImm d a i) fun b0 => s.ctl b0 d (valSslt (b0.sreg a.toNat) (immUni i))

/-- SSLTU, immediate form (09 R192). -/
def execSsltuImm (d a : BitVec 9) (i : BitVec 7) (s : State) : Out :=
  onBoard s (.ssltuImm d a i) fun b0 => s.ctl b0 d (valSsltu (b0.sreg a.toNat) (immUni i))

/-- SMOVL (09 R193). -/
def execSmovl (d : BitVec 9) (i : BitVec 16) (s : State) : Out :=
  onBoard s (.smovl d i) fun b0 => s.ctl b0 d (i.setWidth 32)

/-- SMOVH: the low half keeps its value, read at issue (09 R193). -/
def execSmovh (d : BitVec 9) (i : BitVec 16) (s : State) : Out :=
  onBoard s (.smovh d i) fun b0 => s.ctl b0 d (i ++ (b0.sreg d.toNat).setWidth 16)

/-- DADD (09 R194). -/
def execDadd (d a b : BitVec 8) (s : State) : Out :=
  onBoard s (.dadd d a b) fun b0 => s.ctlPair b0 (2 * d.toNat) (b0.pair (2 * a.toNat) + b0.pair (2 * b.toNat))

/-- DSUB (09 R194). -/
def execDsub (d a b : BitVec 8) (s : State) : Out :=
  onBoard s (.dsub d a b) fun b0 => s.ctlPair b0 (2 * d.toNat) (b0.pair (2 * a.toNat) - b0.pair (2 * b.toNat))

/-- DADDI (09 R194). -/
def execDaddi (d a : BitVec 8) (i : BitVec 9) (s : State) : Out :=
  onBoard s (.daddi d a i) fun b0 => s.ctlPair b0 (2 * d.toNat) (b0.pair (2 * a.toNat) + i.signExtend 64)

end Sys2Proof.Machine
end

