-- ==== Sys2Proof/Machine/Control.lean ====
section
/-!
DEFINITION. Paths and system registers in the control slot: branches (09 R195), DIV and JOIN (R196, 02 R30, R31), calls (09 R197 to
R200), EXIT (02 R32), index bases (09 R207), system registers (R208, R209), TIME, TICK and NOP.
-/
namespace Sys2Proof.Machine

/-- The board at the end of the bundle in issue, unless that has come already (09 R191). -/
def State.ended (s : State) (b : Board) : Board := if s.cur.done then b else b.finish s.cur (max s.cur.gap 3)

/-- The state with the bundle ended and the board as given. -/
def State.endWith (s : State) (b : Board) : State := { s with bd := some b, cur := { s.cur with done := true } }

/-- Slot X continues at a target whose bundle must be fetched (09 R195, 03 R43). -/
def State.jump (s : State) (b : Board) (t : BitVec 48) : State :=
  let b := s.ended b
  let x := b.slotOf s.cur.slotB
  s.endWith (b.setSlot s.cur.slotB { x with path := some ⟨t, s.cur.mask⟩, fetching := true })

/-- Slot X continues at the next bundle (09 R195). -/
def State.fall (s : State) (b : Board) : State := s.endWith (s.ended b)

/-- The other slot's path. -/
def State.otherPath (s : State) (b : Board) : Option Path := (b.slotOf (!s.cur.slotB)).path

/-- A flow applied at the end of the bundle. -/
def State.flow (s : State) (b : Board) (f : Flow) : State := s.endWith ((s.ended b).flow s.cur.slotB f)

/-- A flow whose pops read the stack as it is then seen (22 R394); one that cannot be taken has been judged before. -/
def State.popFlow (s : State) (b : Board) (f : List StackEntry → PcSlot → Except Nat Flow) : State :=
  let e := s.ended b
  let s' := match f (s.stackOf b) (e.slotOf s.cur.slotB) with
    | .ok fl => s.endWith (e.flow s.cur.slotB fl)
    | .error _ => s.endWith e
  if b.spilled == 0 then s' else { s'.free with freeCtr := s'.freeCtr + 64 }

/-- BRA (09 R195). -/
def execBra (off : BitVec 25) (s : State) : Out := onBoard s (.bra off) fun b => s.jump b (plus s.cur.pc off)

/-- BRC.nz (09 R195). -/
def execBrcNz (r : BitVec 9) (off : BitVec 16) (s : State) : Out :=
  onBoard s (.brcNz r off) fun b => if b.sreg r.toNat != 0 then s.jump b (plus s.cur.pc off) else s.fall b

/-- BRC.z (09 R195). -/
def execBrcZ (r : BitVec 9) (off : BitVec 16) (s : State) : Out :=
  onBoard s (.brcZ r off) fun b => if b.sreg r.toNat == 0 then s.jump b (plus s.cur.pc off) else s.fall b

/-- BRX: the absolute bundle index in the pair (09 R195). -/
def execBrx (a : BitVec 8) (s : State) : Out :=
  onBoard s (.brx a) fun b => s.jump b ((b.pair (2 * a.toNat)).setWidth 48)

/-- LOOP: branches and counts down while the register is above 1; writes it whether or not it branches (09 R195). -/
def execLoop (r : BitVec 9) (off : BitVec 16) (s : State) : Out :=
  onBoard s (.loop r off) fun b =>
    let v := b.sreg r.toNat
    let more := 1 < v.toNat
    let b := b.outC s.cur.slotB (.s r.toNat) ((if more then v - 1 else v).setWidth 64)
    if more then s.jump b (plus s.cur.pc off) else s.fall b

/-- DIV (02 R30, 09 R196). -/
def execDiv (mk : BitVec 3) (ng : Bool) (toff : BitVec 10) (joff : BitVec 11) (s : State) : Out :=
  onBoard s (.div mk ng toff joff) fun b =>
    let c := if ng then ~~~b.mreg mk.toNat else b.mreg mk.toNat
    s.flow b (divFlow b.stack (s.otherPath b) s.cur.pc s.cur.mask (s.cur.mask &&& c) (plus s.cur.pc toff) (plus s.cur.pc joff))

/-- JOIN (02 R31). -/
def execJoin (s : State) : Out :=
  onBoard s .join fun b => s.popFlow b fun stk x => joinFlow stk (s.otherPath b) s.cur.pc s.cur.mask x

/-- CALL (09 R197). -/
def execCall (off : BitVec 25) (s : State) : Out :=
  onBoard s (.call off) fun b => s.flow b (callFlow b.stack (s.otherPath b) s.cur.pc s.cur.mask (plus s.cur.pc off))

/-- CALLI (09 R198). -/
def execCalli (f : Opd) (s : State) : Out :=
  onBoard s (.calli f) fun b =>
    s.flow b (calliFlow b.stack (s.otherPath b) s.cur.pc s.cur.mask (s.calliGroups b f))

/-- RET (09 R199). -/
def execRet (s : State) : Out :=
  onBoard s .ret fun b => s.popFlow b fun stk x => retFlow stk (s.otherPath b) s.cur.mask x

/-- The lanes of the bundle retire (02 R32). -/
def State.exitLanes (s : State) (b : Board) : State :=
  let s := s.popFlow b fun stk _ => exitFlow stk (s.otherPath b) s.cur.mask
  { s with bd := s.bd.map fun b => { b with lanesLeft := b.lanesLeft &&& ~~~s.cur.mask } }

/-- EXIT (02 R32, 09 R205). -/
def execExit (s : State) : Out := onBoard s .exit fun b => s.exitLanes b

/-- SETIX: the value applies from the third bundle after this one (09 R207, 03 R59). -/
def execSetix (x : BitVec 2) (v : BitVec 4) (s : State) : Out :=
  onBoard s (.setix x v) fun b => s.put { b with pendIx := b.pendIx ++ [⟨3, x, v⟩] }

/-- The value of a system register (09 R209, 02 R23). -/
def State.sysVal (s : State) (b : Board) (r : SysReg) : DWord :=
  let c := s.ctxOf b.env.ctx
  match r with
  | .laneid => 0
  | .boardid => BitVec.ofNat 64 b.env.index
  | .boards => BitVec.ofNat 64 b.env.boards
  | .bentid => b.env.bentIdx.setWidth 64
  | .gridext => b.env.extent.setWidth 64
  | .gridid => b.env.gridid.setWidth 64
  | .ctxid => b.env.ctx.setWidth 64
  | .features => c.features
  | .frameid => BitVec.ofNat 64 (b.core / 16)
  | .bayid => BitVec.ofNat 64 (b.core / 4 % 4)
  | .coreid => BitVec.ofNat 64 b.core
  | .slotid => BitVec.ofNat 64 b.slot
  | .modid => s.modid.setWidth 64
  | .dsp => BitVec.ofNat 64 b.stack.length
  | .dsbase => c.dsbase
  | .codebase => b.env.codebase.setWidth 64
  | .cbud => BitVec.ofNat 64 b.env.cbud
  | .grant => BitVec.ofNat 64 (s.bay (b.core / 4)).running
  | .variant => b.variant.setWidth 64
  | .window => (BitVec.ofBool c.chkWindow).setWidth 64
  | .fstat => c.fstat.setWidth 64
  | .priv => (BitVec.ofBool b.priv).setWidth 64
  | .edyn => c.edyn.setWidth 64
  | .estat => c.estat.setWidth 64

/-- GETSYS (09 R208). LANEID goes to a vector register and leaves dc1 zero (R190). -/
def execGetsys (y : BitVec 12) (d : BitVec 9) (s : State) : Out :=
  onBoard s (.getsys y d) fun b =>
    match SysReg.ofNum y with
    | some .laneid =>
      s.put (b.emit { dest := .v (d.toNat % 64), slotB := s.cur.slotB, lanes := s.cur.mask, rem := 2
                      vals := lanesOf fun l => BitVec.ofNat 32 l })
    | some r => if r.pair then s.ctlPair b d.toNat (s.sysVal b r) else s.ctl b d ((s.sysVal b r).setWidth 32)
    | none => s.put b

/-- SETSYS: the value takes effect at t + 2 (09 R208). -/
def execSetsys (y : BitVec 12) (d : BitVec 9) (s : State) : Out :=
  onBoard s (.setsys y d) fun b =>
    s.put (b.outX s.cur.slotB (.sys (SysReg.ofNum y == some .fstat)) ((b.sreg d.toNat).setWidth 128))

/-- TIME (09 R211). -/
def execTime (d : BitVec 9) (s : State) : Out := onBoard s (.time d) fun b => s.ctlPair b d.toNat s.timeWord

/-- TICK (09 R211). -/
def execTick (d : BitVec 9) (s : State) : Out := onBoard s (.tick d) fun b => s.ctlPair b d.toNat b.tick

/-- NOP (09 R214). -/
def execNop (s : State) : Out := onBoard s .nop fun b => s.put b

end Sys2Proof.Machine
end

