-- ==== Sys2Proof/Machine/Path.lean ====
section
/-!
DEFINITION. The memory path of a board (07 R142 to R158): what an operation may be performed after (R145, R156), a line's place
(R143, 15 R317, R318), the read-only copies (10 R221, R222), fills and completions (03 R61), and failures (21 R374, 23 R403 to R407).
-/
namespace Sys2Proof.Machine

/-! ### Pegs -/

/-- A peg raised by one (03 R61). -/
def Board.incPeg (b : Board) : Option (BitVec 3) → Board
  | some p => { b with pegs := modAt p.toNat (fun x => { x with cnt := x.cnt + 1 }) b.pegs }
  | none => b

/-- A peg lowered by one (03 R61). -/
def Board.decPeg (b : Board) : Option (BitVec 3) → Board
  | some p => { b with pegs := modAt p.toNat (fun x => { x with cnt := x.cnt - 1 }) b.pegs }
  | none => b

/-- A peg broken (21 R374). -/
def Board.breakPeg (b : Board) : Option (BitVec 3) → Board
  | some p => { b with pegs := modAt p.toNat (fun x => { x with broken := true }) b.pegs }
  | none => b

/-! ### Kinds of operation -/

/-- Bytes of one lane's access. -/
def MemKind.bytes : MemKind → Nat
  | .load n _ => n
  | .store n => n
  | .atomic _ wd _ => if wd then 8 else 4
  | _ => 0

/-- A read that an acquire orders (07 R156). Arming reads its descriptor (10 R237). -/
def MemKind.reads : MemKind → Bool
  | .load _ _ | .atomic _ _ _ | .arm _ => true
  | _ => false

/-- A write that a release orders. Arming waits for the releases before it (10 R237). -/
def MemKind.writes : MemKind → Bool
  | .store _ | .atomic _ _ _ | .arm _ => true
  | _ => false

/-- Rights that the access needs at the leaf (14 R295). -/
def MemKind.acc : MemKind → Acc
  | .load _ _ => .r
  | .store _ => .w
  | .atomic _ _ _ => .rw
  | _ => .r

/-- The operation writes registers when it returns. -/
def MemKind.fills : MemKind → Bool
  | .load _ _ | .atomic _ _ true | .ldtr | .arm _ => true
  | _ => false

/-- A line that has not been performed. -/
def Line.unperformed (l : Line) : Bool :=
  match l.st with
  | .performed | .done => false
  | _ => true

/-- The accesses of an operation in one line. -/
def MemOp.inLine (o : MemOp) (va : Nat) : List LaneAcc := o.lanes.filter fun a => a.va / 128 == va / 128

/-- The accesses of an operation that have not been performed. -/
def MemOp.unperformed (o : MemOp) : List LaneAcc :=
  match o.space with
  | .scr => o.lanes
  | .glob => o.lanes.filter fun a => o.lines.any fun l => l.va / 128 == a.va / 128 && l.unperformed

/-- Two lists of accesses of `n` and `m` bytes touch a common byte. -/
def touch (xs : List LaneAcc) (n : Nat) (ys : List LaneAcc) (m : Nat) : Bool :=
  xs.any fun x => ys.any fun y => x.va < y.va + m && y.va < x.va + n

/-- An operation has accesses that are not performed, is an arming not yet done, or an acquire that releases of others still hold up. -/
def MemOp.open (o : MemOp) : Bool :=
  match o.kind with
  | .arm _ => true
  | _ => !o.unperformed.isEmpty || !o.foreign.isEmpty

/-- An access with no lane in bounds: it makes no request and completes at once (07 R142, R155). -/
def MemOp.suppressed (o : MemOp) : Bool :=
  o.lanes.isEmpty && o.fail.isNone && match o.kind with
    | .load _ _ | .store _ | .atomic _ _ _ => true
    | _ => false

/-- An operation that a stop of the memory path holds: an access not performed, or one without lines that has not returned (21 R374). -/
def MemOp.waits (o : MemOp) : Bool :=
  match o.kind with
  | .fence _ _ _ => false
  | .disarm _ | .ldtr => true
  | _ => o.fail.isSome || o.open

/-- An operation has been performed at a scope (10 R225): at lane or board scope by its place in the path, since the board's later loads of
its bytes come behind it (07 R145); at a wider scope once each access has reached its home. -/
def MemOp.performedAt (o : MemOp) : Scope → Bool
  | .lane | .board => true
  | _ => !o.open

/-! ### What an operation waits for -/

/-- A fence before an operation bars it, `before` being the operations ahead of the fence (07 R156, R157). An acquire holds writes too:
what the reads before it have observed precedes them (10 R231). -/
def fenceBars (ord : Order) (before : List MemOp) (k : MemKind) : Bool :=
  let unread := before.any (·.kind.reads)
  let unwritten := before.any fun f => f.kind.writes && f.open
  match ord with
  | .acq => (k.reads || k.writes) && unread
  | .rel => k.writes && unwritten
  | .ar => ((k.reads || k.writes) && unread) || (k.writes && unwritten)
  | .sc => (k.reads || k.writes) && (unread || unwritten)

/-- The operations of `path` ahead of one bar it: a failed one, one that a failure had stopped with it (23 R407), a fence, or an earlier access
to one of its bytes (07 R145). `acc` are
the accesses about to be performed, `seen` what stands ahead of `path`. -/
def barred (o : MemOp) (acc : List LaneAcc) (seen : List MemOp) : List MemOp → Bool
  | [] => false
  | f :: t =>
    if f.id == o.id then false
    else
      f.fail.isSome || f.parked || (f.inTurn && o.inTurn && f.waits)
      || (match f.kind with
        | .fence .board .board ord =>
          if f.foreign.isEmpty then !f.lax && f.scope != .lane && fenceBars ord seen o.kind else o.kind.reads || o.kind.writes
        | .fence _ _ _ => false
        | _ => f.space == o.space && touch acc o.kind.bytes f.unperformed f.kind.bytes)
      || barred o acc (seen ++ [f]) t

/-- The operation may perform these accesses now. -/
def Board.mayPerform (b : Board) (o : MemOp) (acc : List LaneAcc) : Bool :=
  !o.stopped && !o.parked && o.fail.isNone && !barred o acc [] b.path

/-- The operation of a board's path. -/
def Board.op? (b : Board) (id : Nat) : Option MemOp := b.path.find? (·.id == id)

/-- An operation changed. -/
def Board.modOp (b : Board) (id : Nat) (f : MemOp → MemOp) : Board :=
  { b with path := b.path.map fun o => if o.id == id then f o else o }

/-- Fences with nothing ahead of them have done their work, but for those that releases of others still hold up. -/
def Board.sweep (b : Board) : Board :=
  { b with path := b.path.dropWhile fun o => match o.kind with | .fence _ _ _ => o.foreign.isEmpty | _ => false }

/-- The operation has completed: its peg falls (03 R61). -/
def Board.complete (b : Board) (o : MemOp) : Board :=
  { b with path := b.path.filter (·.id != o.id) }.sweep.decPeg o.peg

/-- An acquire of the board at board scope or wider discards the copies held for it (10 R222): later loads take new ones. -/
def State.acquire (s : State) (b : Board) : State × Board :=
  ({ s with l1 := if b.path.any (·.kind.reads) then s.l1 else s.l1.filter (·.board != b.id) }, { b with epoch := b.epoch + 1 })

/-! ### Where a line lies -/

/-- The window a target lies in (15 R317, 07 R138). -/
def Target.window : Target → Nat
  | .loc _ => 0
  | .peer m _ => 1 + m
  | .host _ => 100000

/-- A line translated, once (07 R143). -/
def State.placeLine (s : State) (c : BitVec 16) (k : MemKind) (l : Line) : Line :=
  match s.translate c l.va k.acc with
  | .ok t => { l with tgt := t, bad := none }
  | .error e => { l with bad := some (BitVec.ofNat 8 e) }

/-- The TLBs fill with the leaves of lines (14 R296). -/
def State.fillLines (s : State) (c : BitVec 16) (ls : List Line) : State := if ls.isEmpty then s else (ls.foldl (fun s l => s.fillTlb c l.va) s).free

/-- The first line of an operation that has translated: the window of the instruction (07 R138, DEDUCED, log 26). -/
def MemOp.window (o : MemOp) : Option Nat := (o.lines.find? (·.bad.isNone)).map (·.tgt.window)

/-- A host window takes only FetchAdd, Swap and CAS (15 R318). -/
def hostAtom : AtomOp → Bool
  | .add | .exch | .cas => true
  | _ => false

/-- The copy held for the board since the acquire ahead of an operation (10 R221). A copy held for another board alone serves it never.
DESIGN CHOICE: log 89. -/
def State.copyOf (s : State) (b : Board) (o : MemOp) (t : Target) : Option L1Copy :=
  s.l1.find? fun c => c.board == b.id && c.line == t && c.epoch == o.epoch

/-- The offsets that an operation's lanes touch in the lines of a target. -/
def MemOp.offsets (o : MemOp) (t : Target) : List Nat :=
  (o.lines.filter (·.tgt == t)).flatMap fun l => (o.inLine l.va).flatMap fun a => (List.range o.kind.bytes).map (a.va % 128 + ·)

/-- That copy, where it serves a load: its bytes there are as young as what the board has read (10 R221, R229). -/
def State.copyFor (s : State) (b : Board) (o : MemOp) (t : Target) : Option L1Copy :=
  (s.copyOf b o t).filter fun c => c.fresh || (o.offsets t).all c.loaded.contains

/-- The scope is served by the read-only L1 (07 R146). -/
def cached : Scope → Bool
  | .lane | .board | .bent | .core => true
  | _ => false

/-- A line of local memory, or the board's copy that serves a load, fails its check bits for this operation (23 R414). -/
def State.badFor (s : State) (b : Board) (o : MemOp) (l : Line) (t : Target) : Bool :=
  let near := match o.kind with
    | .load _ _ => cached o.scope
    | _ => false
  if near && (s.copyOf b o t).any (·.bad) then true
  else if near && (s.copyFor b o t).isSome then false
  else match t with
    | .loc pa =>
      s.badAt pa && (match o.kind with
        | .store n => ((o.inLine l.va).flatMap fun a => (List.range n).map (a.va + ·)).eraseDups.length != 128
        | _ => true)
    | _ => false

/-- The place of a line as it was translated, or the cause with which it fails (23 R404, R406, 26 R445, R455). -/
def State.lineAt (s : State) (b : Board) (o : MemOp) (l : Line) : Except Nat Target :=
  match l.bad with
  | some k => .error k.toNat
  | none =>
    if o.window != some l.tgt.window then .error 0x17
    else if s.badFor b o l l.tgt then .error 0x20
    else match l.tgt, o.kind with
      | .host _, .atomic op _ _ => if !hostAtom op then .error 0x1D else if s.linkUp then .ok l.tgt else .error 0x70
      | .host _, .load _ _ => if s.linkUp then .ok l.tgt else .error 0x74
      | .peer m _, _ => if s.lost.contains m then .error 0x71 else .ok l.tgt
      | _, _ => .ok l.tgt

/-- A line of the board ahead of line `n` of an operation is a host access not performed: host traffic is ordered (15 R318, R322). -/
def Board.hostBehind (b : Board) (o : MemOp) (n : Nat) : Bool :=
  let ahead (l : Line) : Bool := l.unperformed && l.bad.isNone && l.tgt.isHost
  ((b.path.takeWhile (·.id != o.id)).any fun f => f.lines.any ahead) || (o.lines.take n).any ahead

/-- A target that the module performs at itself: local memory, and the host once nothing of the board stands ahead. -/
def Board.ownTarget (b : Board) (o : MemOp) (n : Nat) : Target → Bool
  | .loc _ => true
  | .host _ => !b.hostBehind o n
  | .peer _ _ => false

/-! ### Fills -/

/-- The registers of a fill: how many words a lane's data takes. -/
def fillWords (k : MemKind) : Nat :=
  match k with
  | .load n _ => (n + 3) / 4
  | .atomic _ wd _ => if wd then 2 else 1
  | .ldtr => 8
  | _ => 1

/-- The words that a lane's bytes fill (07 R147). -/
def loadWords (n : Nat) (sx : Bool) (l : List Byte) : List Word :=
  if n == 1 then [if sx then (BitVec.ofNat 8 (leNat l)).signExtend 32 else BitVec.ofNat 32 (leNat l)]
  else if n == 2 then [if sx then (BitVec.ofNat 16 (leNat l)).signExtend 32 else BitVec.ofNat 32 (leNat l)]
  else tab (n / 4) fun k => BitVec.ofNat 32 (fieldAt l (4 * k) 4)

/-- Words filled into one lane of vector registers, or into uniform registers. -/
def Board.fill (b : Board) (d : FillDest) (lane : Nat) (ws : List Word) : Board :=
  match d with
  | .none => b
  | .s n => b.putWords n ws
  | .v n => (List.range ws.length).foldl (fun b k => b.putV (n + k) (BitVec.ofNat 128 (2 ^ lane)) (lanesOf fun _ => ws.getD k 0)) b

/-- The locations that a fill writes. -/
def FillDest.regs (d : FillDest) (n : Nat) : List RegRef :=
  match d with
  | .none => []
  | .v r => tab n fun k => .v (r + k)
  | .s r => tab n fun k => .s (r + k)

/-- A fixed-latency landing on a destination of the fill is in flight: the fill is held until it has landed (03 R52). -/
def Board.fillHeld (b : Board) (o : MemOp) : Bool :=
  o.kind.fills && b.pipe.any fun e => (o.dest.regs (fillWords o.kind)).any fun r => e.regs.contains r

/-- The zeros of an operation's suppressed lanes written (07 R142, R155). -/
def Board.zeroLanes (b : Board) (o : MemOp) : Board :=
  if o.zero == 0 || !o.kind.fills then b
  else ((lanesIn o.zero).foldl (fun b l => b.fill o.dest l (List.replicate (fillWords o.kind) 0)) b).modOp o.id fun o => { o with zero := 0 }

/-- What an operation's suppressed lanes still owe is written, and the operation completes (07 R142, R150, R155). -/
def Board.finishOp (b : Board) (o : MemOp) : Board := (b.zeroLanes o).complete o

/-- An operation after a change of its lines: complete when every line has returned. -/
def Board.settleOp (b : Board) (id : Nat) : Board :=
  match b.op? id with
  | none => b
  | some o => if o.lines.all fun l => l.st == .done then b.finishOp o else b

/-- A board of any state put back, its record brought up to date when it is frozen (21 R375). -/
def State.putBoard (s : State) (b : Board) : State := (s.setBoard b).updateRecord b

/-! ### Reads and writes of a line -/

/-- Bytes at offsets of a line put in. -/
def patch (w : List (Nat × Byte)) (l : List Byte) : List Byte := w.foldl (fun l p => modAt p.1 (fun _ => p.2) l) l

/-- The bytes of a copy that the board has loaded from it. -/
def L1Copy.shown (c : L1Copy) : List (Nat × Byte) := c.loaded.map fun k => (k, c.bytes.getD k 0)

/-- The bytes a load's line shows: the board's copy at a scope up to core, else the home's as it stands, with what the board has loaded from a copy that
no longer serves it (07 R146, 10 R221, R232). `data` is a peer's answer. DESIGN CHOICE: log 95. A w128 load can so return bytes of one store of
another agent beside older ones that R232 holds fast (07 R144 against 10 R232). DESIGN CHOICE: log 113. -/
def State.lineBytes (s : State) (b : Board) (o : MemOp) (t : Target) (data : List Byte) : List Byte :=
  let home := match t with
    | .loc a => s.mem.read a 128
    | .host a => s.hostMem.read a 128
    | .peer _ _ => data
  if !cached o.scope then home
  else match s.copyFor b o t, s.copyOf b o t with
    | some c, _ => c.bytes
    | none, some c => patch c.shown home
    | none, none => home

/-- The offsets in its line that an operation's lanes touch, with the line's bytes there. -/
def MemOp.seen (o : MemOp) (va : Nat) (bytes : List Byte) : List (Nat × Byte) :=
  (o.inLine va).flatMap fun a => (List.range o.kind.bytes).map fun k => (a.va % 128 + k, bytes.getD (a.va % 128 + k) 0)

/-- Bytes of a line that the board has written put over what its requests still under way for that line will bring for its copy (10 R221, R222). -/
def Board.overlay (b : Board) (t : Target) (w : List (Nat × Byte)) : Board :=
  { b with path := b.path.map fun o => { o with lines := o.lines.map fun l => match l.st with
      | .sent _ => if l.tgt == t then { l with newer := l.newer ++ w } else l
      | _ => l } }

/-- The board has read a line at its home: what its requests under way for it bring may be older, those of the acquire `n` or later (10 R229). -/
def Board.outdate (b : Board) (t : Target) (n : Nat) : Board :=
  { b with path := b.path.map fun o => if o.epoch < n then o else { o with lines := o.lines.map fun l => match l.st with
      | .sent _ => if l.tgt == t then { l with part := true } else l
      | _ => l } }

/-- A copy of an earlier acquire that a load still on its way may read (10 R232). -/
def Board.needs (b : Board) (o : MemOp) (c : L1Copy) : Bool :=
  c.epoch != o.epoch && b.path.any fun f => f.id != o.id && f.kind.reads && f.epoch == c.epoch

/-- The copy that a load at a scope up to core leaves: the one that served it, or a new one; it has loaded these offsets (10 R221, R222). `part`: the
line's other bytes may be older than what the board has read. -/
def State.newCopy (s : State) (b : Board) (o : MemOp) (t : Target) (part : Bool) (offs : List Nat) (bytes : List Byte) : L1Copy :=
  match s.copyFor b o t, s.copyOf b o t with
  | some c, _ => { c with kept := true, loaded := (c.loaded ++ offs).eraseDups }
  | none, some c => { c with kept := true, bytes := bytes, loaded := (c.loaded ++ offs).eraseDups, fresh := !part }
  | none, none => { board := b.id, line := t, bytes := bytes, epoch := o.epoch, loaded := offs.eraseDups, fresh := !part }

/-- A copy after the board has loaded offsets of its line at home, by an operation of the acquire `n`, at a scope wider than core or not. -/
def L1Copy.after (c : L1Copy) (n : Nat) (wide : Bool) (offs : List Nat) : L1Copy :=
  if n < c.epoch then { c with fresh := false }
  else if wide && c.epoch == n then { c with fresh := false, kept := false, loaded := c.loaded.filter fun k => !offs.contains k }
  else c

/-- The board's copies after a load of a line: a load at a scope up to core keeps one, in place of those of earlier acquires that no load needs; a
wider one ends their protection, and of the bytes it has not loaded, those that the board had loaded stay (10 R221, R232). DEDUCED: log 102. -/
def State.keepCopy (s : State) (b : Board) (o : MemOp) (va : Nat) (t : Target) (part : Bool) (bytes : List Byte) : State :=
  let mine (c : L1Copy) : Bool := c.board == b.id && c.line == t
  let offs := (o.seen va bytes).map (·.1)
  let l := if (s.copyFor b o t).isSome && cached o.scope then s.l1
    else s.l1.map fun c => if mine c then c.after o.epoch (!cached o.scope) offs else c
  if cached o.scope then
    { s with l1 := s.newCopy b o t part offs bytes :: l.filter fun c => !(mine c && c.epoch ≤ o.epoch && !b.needs o c) }
  else { s with l1 := l }

/-- A store updates the copy that serves its board (10 R222). `w`: offsets in the line and bytes. A copy that other boards share is split off for it even
while no storage is free. DESIGN CHOICE: log 114. -/
def State.updateCopy (s : State) (b : Board) (t : Target) (w : List (Nat × Byte)) : State :=
  { s with l1 := s.l1.map fun c =>
      if c.board == b.id && c.line == t then { c with bytes := patch w c.bytes } else c }

/-- The line of a target that holds it. -/
def Target.line : Target → Target
  | .loc a => .loc (a / 128 * 128)
  | .peer m a => .peer m (a / 128 * 128)
  | .host a => .host (a / 128 * 128)

/-- The bytes of a lane's data words. -/
def wordBytes (n : Nat) (ws : List Word) : List Byte := (ws.flatMap fun w => leBytes 4 w.toNat).take n

/-- A store's bytes in a line, by offset, in lane order (07 R144). -/
def MemOp.storeBytes (o : MemOp) (va : Nat) : List (Nat × Byte) :=
  (o.inLine va).flatMap fun a => bytesAt (a.va % 128) (wordBytes o.kind.bytes a.data)

/-- Two words as one value. -/
def dword (ws : List Word) : DWord := ws.getD 1 0 ++ ws.getD 0 0

/-- An atomic's lane operations in a line: offset, operand, compare value (07 R153). -/
def MemOp.atomArgs (o : MemOp) (va : Nat) : List (Nat × DWord × DWord) :=
  (o.inLine va).map fun a => (a.va % 128, dword a.data, dword a.cmp)

/-- The words of an atomic's old value. -/
def oldWords (wd : Bool) (v : DWord) : List Word := if wd then [v.setWidth 32, (v >>> 32).setWidth 32] else [v.setWidth 32]

/-- A line of bytes as a memory from address 0. -/
def lineMem (l : List Byte) : Mem := Mem.write [] 0 l

/-- The writes of an atomic's line, by offset, and each lane's old value. -/
def MemOp.atomLine (o : MemOp) (va : Nat) (line : List Byte) : List (Nat × Byte) × List (Nat × List Word) :=
  match o.kind with
  | .atomic op wd _ =>
    let args := o.atomArgs va
    let r := Machine.atomLine op wd args (lineMem line)
    (atomBytes args wd r.2, ((o.inLine va).zip r.1).map fun p => (p.1.lane, oldWords wd p.2))
  | _ => ([], [])

/-! ### Failing -/

/-- Lines performed, with those whose outcome is indeterminate (21 R377, 26 R442). -/
def MemOp.progress (o : MemOp) : Nat := (o.lines.filter fun l => !l.unperformed || l.st == .failed 0x70#8).length

/-- A failed operation entered in the parked list, in issue order; beyond 16 it sets POVF and cannot be replayed (21 R374). -/
def Board.park (b : Board) (p : Parked) : Board :=
  if 16 ≤ b.parked.length then { b with povf := true }
  else
    let p := { p with pid := 1 + ((b.parked.filter (·.path == p.path)).map (·.pid)).foldl max 0 }
    { b with parked := b.parked.takeWhile (fun q => q.id < p.id) ++ p :: b.parked.dropWhile (fun q => q.id < p.id) }

/-- The memory path stops behind a failed access: those not performed wait, and their pegs break (21 R374). -/
def stopBehind (id : Nat) (b : Board) : Board :=
  let late := b.path.filter fun o => id < o.id && o.waits
  late.foldl (fun b o => (b.modOp o.id fun o => { o with stopped := true }).breakPeg o.peg)
    { b with stopped := true, path := b.path.map fun o => { o with lax := false } }

/-- A memory-path operation fails (21 R374, 23 R403); one that got as far as its lines has written its zeros (23 R405, R406). -/
def Board.failOp (b : Board) (o : MemOp) (cause : BitVec 8) (addr : BitVec 64) : Board :=
  let b := if cause.toNat < 0x16 then b else b.zeroLanes o
  let full := 16 ≤ b.parked.length
  let b := b.park { id := o.id, path := 1, peg := o.peg, cause := cause, insn := o.insn, addr := addr, prog := o.progress,
                    nind := (o.lines.filter fun l => l.st == .failed 0x70#8).length }
  let b := if full then { b with path := b.path.filter (·.id != o.id) }
    else b.modOp o.id fun o => { o with fail := some (cause, addr), parked := true }
  let b := { b.breakPeg o.peg with noPeg := b.noPeg || o.peg.isNone }
  stopBehind o.id b

/-- The failure that a line shows now: what a peer or the fabric has answered, or what its translation gives. -/
def State.lineCause (s : State) (b : Board) (o : MemOp) (l : Line) : Option Nat :=
  match l.st with
  | .performed | .done | .sent _ => none
  | .failed c => some c.toNat
  | _ => match s.lineAt b o l with
    | .error k => some k
    | .ok _ => none

/-- The failure of a global access once every line that translates is performed: cause and address of its lowest failing line
(23 R406). -/
def State.accessFailure (s : State) (b : Board) (o : MemOp) : Option (Nat × Nat) :=
  match o.fail with
  | some f => some (f.1.toNat, f.2.toNat)
  | none =>
    let bad := o.lines.filter fun l => (s.lineCause b o l).isSome
    if o.lines.any fun l => l.unperformed && (s.lineCause b o l).isNone then none
    else match bad with
      | [] => none
      | l :: _ => some (((s.lineCause b o l).getD 0), match o.inLine l.va with | a :: _ => a.va | [] => l.va)

end Sys2Proof.Machine
end

