-- ==== Sys2Proof/Machine/Scopes.lean ====
section
/-!
DEFINITION. Which agents a scope holds (10 R226), judged by where they are now (R227), and whether a release and an acquire may
synchronise (R230). A fence of the model whose scope holds another board orders every agent alike: log 95.
-/
namespace Sys2Proof.Machine

/-- An agent of memory: a lane of a board, a board, an engine, the watch table or the service cores of a frame, the host of the module, a
peer module, or a peer's host. -/
inductive Agent
  | lane (board lane : Nat)
  | board (id : Nat)
  | copy (core : Nat)
  | matrix (core : Nat)
  | route (frame eng : Nat)
  | watch (frame : Nat)
  | service (frame : Nat)
  | host
  | peer (mod : Nat)
  | peerHost (mod : Nat)
deriving DecidableEq, Repr

/-- The core of an agent that has one: its board's core now, or its own. -/
def State.coreOf (s : State) : Agent → Option Nat
  | .lane b _ | .board b => (s.board? b).map (·.core)
  | .copy c | .matrix c => some c
  | _ => none

/-- The frame of an agent that has one. -/
def State.frameAt (s : State) (a : Agent) : Option Nat :=
  match a with
  | .route f _ | .watch f | .service f => some f
  | a => (s.coreOf a).map (· / 16)

/-- The board of an agent. -/
def Agent.boardNo : Agent → Option Nat
  | .lane b _ | .board b => some b
  | _ => none

/-- A scope named by a board, and by one of its lanes, holds an agent (10 R226); bent scope of a split bent is bay scope (02 R26), and core scope, which
holds all that bent scope does, with it. -/
def State.scopeHolds (s : State) (b : Board) (lane : Nat) (sc : Scope) (a : Agent) : Bool :=
  let bay := (s.coreOf a).map (· / 4) == some (b.core / 4)
  match sc with
  | .lane => a == .lane b.id lane
  | .board => a.boardNo == some b.id
  | .bent => if b.env.split then bay else ((a.boardNo.bind s.board?).map (·.env.bent)) == some b.env.bent
  | .core => s.coreOf a == some b.core || (b.env.split && bay)
  | .bay => bay
  | .frame => s.frameAt a == some (b.core / 16)
  | .package => (s.frameAt a).isSome
  | .node => (s.frameAt a).isSome || a == .host
  | .pod => match a with
    | .peerHost _ => false
    | .host | .peer _ => true
    | a => (s.frameAt a).isSome
  | .system => match a with
    | .host | .peer _ | .peerHost _ => true
    | a => (s.frameAt a).isSome

/-- Both scopes hold both boards: a release of one at the first and an acquire of the other at the second may synchronise (10 R230). -/
def State.mayPair (s : State) (p : Board) (s1 : Scope) (c : Board) (s2 : Scope) : Bool :=
  [Agent.board p.id, .board c.id].all fun a => s.scopeHolds p 0 s1 a && s.scopeHolds c 0 s2 a

end Sys2Proof.Machine
end

