-- ==== Sys2Proof/Machine/Memory.lean ====
section
/-!
DEFINITION. The memory slot: loads and stores (07 R147 to R149), atomics (R151 to R153), fences (R156, R157), prefetch (R158), buffer
records (R141) and the watch instructions (12 R269 to R272). Each enters an operation in the board's memory path.
-/
namespace Sys2Proof.Machine

/-! ### Resolving lanes -/

/-- What the lanes of an access resolve to: the accesses in bounds, the suppressed lanes, or the failure of the whole (23 R405). -/
structure Resolved where
  lanes : List LaneAcc := []
  zero : Mask := 0
  fail : Option (BitVec 8 × BitVec 64) := none
deriving DecidableEq, Repr

/-- A lane's request before it is resolved: lane, element index, offset, data, compare words. -/
structure LaneReq where
  lane : Nat
  idx : Nat
  off : Int
  data : List Word := []
  cmp : List Word := []
deriving DecidableEq, Repr

/-- swz (07 R140). -/
def swz (k o : Nat) : Nat := if k == 0 then o else o ^^^ (bits (o >>> (6 + k)) 0 3 <<< 4)

/-- The lanes of a global access of `w` bytes through a record, ascending (07 R139, R142, 23 R405). -/
def resolveLanes (r : BitVec 128) (w : Nat) : List LaneReq → Resolved
  | [] => {}
  | q :: t =>
    let rest := resolveLanes r w t
    let off : Int := (q.idx * recStr r : Nat) + q.off
    let raw : BitVec 64 := BitVec.ofInt 64 ((recBase r : Int) + off)
    if 0 ≤ off && off + w ≤ recSpan r then
      let va := (recBase r + swz (recSwz r) off.toNat) % 2 ^ 64
      if va % w != 0 then { fail := some (0x14#8, raw) }
      else { rest with lanes := { lane := q.lane, va := va, data := q.data, cmp := q.cmp } :: rest.lanes }
    else if r.getLsbD 123 then { rest with zero := rest.zero ||| BitVec.ofNat 128 (2 ^ q.lane) }
    else { fail := some (0x13#8, raw) }

/-- A global access: the record, the right named by a bit of its control word, then the lanes (23 R405). -/
def resolveGlob (r : BufRec) (right w : Nat) (qs : List LaneReq) : Resolved :=
  if !r.img.getLsbD 127 then { fail := some (0x10#8, 0) }
  else if !r.wf then { fail := some (0x11#8, 0) }
  else if !r.img.getLsbD right then { fail := some (0x12#8, 0) }
  else resolveLanes r.img w qs

/-- The lanes of a scratchpad access within `size` bytes (07 R149, 23 R405). A misaligned one names the scratchpad address too. DEDUCED: log 92. -/
def resolveScr (size w : Nat) : List LaneReq → Resolved
  | [] => {}
  | q :: t =>
    let rest := resolveScr size w t
    let a : Int := (q.idx : Int) + q.off
    if a % w != 0 then { fail := some (0x14#8, BitVec.ofInt 64 a) }
    else if 0 ≤ a && a + w ≤ size then { rest with lanes := { lane := q.lane, va := a.toNat, data := q.data, cmp := q.cmp } :: rest.lanes }
    else { fail := some (0x15#8, BitVec.ofInt 64 a) }

/-! ### Issue -/

/-- The scope of an access: its own or the record's default (07 R146). -/
def scopeOr (r : BufRec) (sc : Option Scope) : Scope := sc.getD ((Scope.dec (BitVec.ofNat 4 (recScope r.img))).getD .system)

/-- The 128-byte lines of the lanes, ascending (07 R143). -/
def linesOfLanes (ls : List LaneAcc) : List Line :=
  ((ascending (ls.map fun a => a.va / 128 * 128)).eraseDups).map fun va => { va := va, tgt := .loc 0 }

/-- A scope as it acts: for a board of a split bent, bent scope acts as bay scope (02 R26). -/
def Board.scopeFor (b : Board) (sc : Scope) : Scope := if b.env.split && sc == .bent then .bay else sc

/-- An operation issued (07 R160): its operands are read, its lines translated (R143), its peg rises, and behind a failure it is stopped at once (21
R374). Each line's request counts at this tick's level (16 R341). PRESUMED: log 47. -/
def State.issueOp (s : State) (b : Board) (i : Instr) (o : MemOp) : State :=
  let o := { o with id := s.nextUid, insn := insnOf i, peg := pegOf i, epoch := b.epoch, t0 := b.tick.toNat
                    scope := b.scopeFor o.scope, stopped := b.stopped && !o.suppressed
                    lines := if o.space == .glob && o.fail.isNone then (linesOfLanes o.lanes).map (s.placeLine b.env.ctx o.kind) else [] }
  let b := { b with path := b.path ++ [o] }.incPeg (pegOf i)
  let b := if o.stopped then b.breakPeg (pegOf i) else b
  ({ s.put b with nextUid := s.nextUid + 1 }.fillLines b.env.ctx o.lines).charge b.env.ctx (b.core / 4) 2 o.lines.length

/-- A template of an operation. -/
def opOf (k : MemKind) (sp : Space) (sc : Scope) (rlx : Bool) (d : FillDest) (r : Resolved) : MemOp :=
  { id := 0, insn := 0, kind := k, space := sp, scope := sc, relaxed := rlx, peg := none, dest := d, lanes := r.lanes
    fail := r.fail, zero := r.zero }

/-- The lanes' requests of a per-lane form: the active lanes, ascending. -/
def State.laneReqs (s : State) (b : Board) (x : Opd) (off : Int) (data cmp : Nat → List Word) : List LaneReq :=
  (lanesIn s.cur.mask).map fun l =>
    { lane := l, idx := (b.laneVal s.cur.slotB x 0 l).toNat, off := off, data := data l, cmp := cmp l }

/-- The one request of a uniform form (07 R148). -/
def State.uniReq (s : State) (b : Board) (x : Opd) (off : Int) (data cmp : List Word) : List LaneReq :=
  [{ lane := 0, idx := (b.laneVal s.cur.slotB x 0 0).toNat, off := off, data := data, cmp := cmp }]

/-- The words of an operand of `k` registers in a lane. -/
def State.words (s : State) (b : Board) (d : Opd) (k l : Nat) : List Word := tab k fun j => b.laneVal s.cur.slotB d j l

/-- Where a per-lane form fills. -/
def Board.fillV (b : Board) (d : Opd) : FillDest :=
  match d with
  | .v i n => .v (b.vnum i n)
  | .s n => .s n.toNat
  | _ => .none

/-- Sign extension of a width. -/
def widthSx : Width → Bool
  | .w8sx | .w16sx => true
  | _ => false

/-- Scratchpad bytes of the board's bent (07 R149). -/
def Board.scrSize (b : Board) : Nat := b.env.scr

/-! ### Loads and stores -/

/-- No words. -/
def noWords (_ : Nat) : List Word := []

/-- LD (07 R147). -/
def execLd (d : Opd) (br : BitVec 5) (x : Opd) (off : BitVec 18) (peg : Option (BitVec 3)) (w : Width) (sc : Option Scope)
    (s : State) : Out :=
  onBoard s (.ld d br x off peg w sc) fun b =>
    let r := b.brec br.toNat
    s.issueOp b (.ld d br x off peg w sc) (opOf (.load w.bytes (widthSx w)) .glob (scopeOr r sc) (r.img.getLsbD 113) (b.fillV d)
      (resolveGlob r 124 w.bytes (s.laneReqs b x off.toInt noWords noWords)))

/-- ST (07 R147). -/
def execSt (d : Opd) (br : BitVec 5) (x : Opd) (off : BitVec 18) (peg : Option (BitVec 3)) (w : Width) (sc : Option Scope)
    (s : State) : Out :=
  onBoard s (.st d br x off peg w sc) fun b =>
    let r := b.brec br.toNat
    s.issueOp b (.st d br x off peg w sc) (opOf (.store w.bytes) .glob (scopeOr r sc) (r.img.getLsbD 113) .none
      (resolveGlob r 125 w.bytes (s.laneReqs b x off.toInt (s.words b d w.regs) noWords)))

/-- LDU (07 R148). -/
def execLdu (d : BitVec 9) (br : BitVec 5) (x : Opd) (off : BitVec 18) (peg : Option (BitVec 3)) (w : Width) (sc : Option Scope)
    (s : State) : Out :=
  onBoard s (.ldu d br x off peg w sc) fun b =>
    let r := b.brec br.toNat
    s.issueOp b (.ldu d br x off peg w sc) (opOf (.load w.bytes (widthSx w)) .glob (scopeOr r sc) (r.img.getLsbD 113) (.s d.toNat)
      (resolveGlob r 124 w.bytes (s.uniReq b x off.toInt [] [])))

/-- STU (07 R148). -/
def execStu (d : Opd) (br : BitVec 5) (x : Opd) (off : BitVec 18) (peg : Option (BitVec 3)) (w : Width) (sc : Option Scope)
    (s : State) : Out :=
  onBoard s (.stu d br x off peg w sc) fun b =>
    let r := b.brec br.toNat
    s.issueOp b (.stu d br x off peg w sc) (opOf (.store w.bytes) .glob (scopeOr r sc) (r.img.getLsbD 113) .none
      (resolveGlob r 125 w.bytes (s.uniReq b x off.toInt (s.words b d w.regs 0) [])))

/-- LDS (07 R149). -/
def execLds (d x : Opd) (off : BitVec 18) (peg : Option (BitVec 3)) (w : Width) (s : State) : Out :=
  onBoard s (.lds d x off peg w) fun b =>
    s.issueOp b (.lds d x off peg w) (opOf (.load w.bytes (widthSx w)) .scr .bent false (b.fillV d)
      (resolveScr b.scrSize w.bytes (s.laneReqs b x off.toInt noWords noWords)))

/-- STS (07 R149). -/
def execSts (d x : Opd) (off : BitVec 18) (peg : Option (BitVec 3)) (w : Width) (s : State) : Out :=
  onBoard s (.sts d x off peg w) fun b =>
    s.issueOp b (.sts d x off peg w) (opOf (.store w.bytes) .scr .bent false .none
      (resolveScr b.scrSize w.bytes (s.laneReqs b x off.toInt (s.words b d w.regs) noWords)))

/-- The lines that a prefetch requests (07 R158): of the lanes in bounds, those that translate and lie in no peer and under no scribe
entry. -/
def State.prefLines (s : State) (b : Board) (br : BitVec 5) (x : Opd) (off : BitVec 18) : List Nat :=
  let r := b.brec br.toNat
  if !r.img.getLsbD 127 || !r.wf || !r.img.getLsbD 124 then []
  else
    let ls := (s.laneReqs b x off.toInt noWords noWords).flatMap fun q => (resolveLanes r.img 1 [q]).lanes
    ((linesOfLanes ls).map (·.va)).filter fun va =>
      (match s.translate b.env.ctx va .r with | .ok (.peer _ _) | .error _ => false | _ => true)
      && !(s.core b.core).scribe.any fun e => e.bent.isNone && e.ctx == b.env.ctx && e.lo < va + 128 && va < e.hi

/-- PREF: no effect but time (07 R158), and the energy of its requests (16 R341). -/
def execPref (br : BitVec 5) (x : Opd) (off : BitVec 18) (l2 : Bool) (s : State) : Out :=
  onBoard s (.pref br x off l2) fun b => (s.put b).charge b.env.ctx (b.core / 4) 2 (s.prefLines b br x off).length

/-! ### Atomics -/

/-- Registers of an atomic operand. -/
def wdRegs (wd : Bool) : Nat := if wd then 2 else 1
/-- Bytes of an atomic location. -/
def wdBytes (wd : Bool) : Nat := if wd then 8 else 4
/-- The offset of the MA form (07 R139, R152). -/
def maOff (off : BitVec 6) (wd : Bool) : Int := off.toInt * wdBytes wd

/-- ATOM (07 R152). -/
def execAtom (d a : Opd) (br : BitVec 5) (x : Opd) (off : BitVec 6) (peg : Option (BitVec 3)) (op : AtomOp) (sc : Option Scope)
    (wd : Bool) (s : State) : Out :=
  onBoard s (.atom d a br x off peg op sc wd) fun b =>
    let r := b.brec br.toNat
    s.issueOp b (.atom d a br x off peg op sc wd) (opOf (.atomic op wd true) .glob (scopeOr r sc) (r.img.getLsbD 113) (b.fillV d)
      (resolveGlob r 126 (wdBytes wd)
        (s.laneReqs b x (maOff off wd) (s.words b a (wdRegs wd)) (s.words b d (wdRegs wd)))))

/-- RED (07 R152). -/
def execRed (a : Opd) (br : BitVec 5) (x : Opd) (off : BitVec 6) (peg : Option (BitVec 3)) (op : AtomOp) (sc : Option Scope)
    (wd : Bool) (s : State) : Out :=
  onBoard s (.red a br x off peg op sc wd) fun b =>
    let r := b.brec br.toNat
    s.issueOp b (.red a br x off peg op sc wd) (opOf (.atomic op wd false) .glob (scopeOr r sc) (r.img.getLsbD 113) .none
      (resolveGlob r 126 (wdBytes wd) (s.laneReqs b x (maOff off wd) (s.words b a (wdRegs wd)) noWords)))

/-- ATOMS (07 R152). -/
def execAtoms (d a x : Opd) (off : BitVec 6) (peg : Option (BitVec 3)) (op : AtomOp) (sc : Scope) (wd : Bool) (s : State) : Out :=
  onBoard s (.atoms d a x off peg op sc wd) fun b =>
    s.issueOp b (.atoms d a x off peg op sc wd) (opOf (.atomic op wd true) .scr sc false (b.fillV d)
      (resolveScr b.scrSize (wdBytes wd)
        (s.laneReqs b x (maOff off wd) (s.words b a (wdRegs wd)) (s.words b d (wdRegs wd)))))

/-- REDS (07 R152). -/
def execReds (a x : Opd) (off : BitVec 6) (peg : Option (BitVec 3)) (op : AtomOp) (sc : Scope) (wd : Bool) (s : State) : Out :=
  onBoard s (.reds a x off peg op sc wd) fun b =>
    s.issueOp b (.reds a x off peg op sc wd) (opOf (.atomic op wd false) .scr sc false .none
      (resolveScr b.scrSize (wdBytes wd) (s.laneReqs b x (maOff off wd) (s.words b a (wdRegs wd)) noWords)))

/-- ATOMU (07 R152). -/
def execAtomu (d : BitVec 9) (a : Opd) (br : BitVec 5) (x : Opd) (off : BitVec 6) (peg : Option (BitVec 3)) (op : AtomOp)
    (sc : Option Scope) (wd : Bool) (s : State) : Out :=
  onBoard s (.atomu d a br x off peg op sc wd) fun b =>
    let r := b.brec br.toNat
    s.issueOp b (.atomu d a br x off peg op sc wd) (opOf (.atomic op wd true) .glob (scopeOr r sc) (r.img.getLsbD 113) (.s d.toNat)
      (resolveGlob r 126 (wdBytes wd)
        (s.uniReq b x (maOff off wd) (s.words b a (wdRegs wd) 0) (s.words b (.s d) (wdRegs wd) 0))))

/-- REDU (07 R152). -/
def execRedu (a : Opd) (br : BitVec 5) (x : Opd) (off : BitVec 6) (peg : Option (BitVec 3)) (op : AtomOp) (sc : Option Scope)
    (wd : Bool) (s : State) : Out :=
  onBoard s (.redu a br x off peg op sc wd) fun b =>
    let r := b.brec br.toNat
    s.issueOp b (.redu a br x off peg op sc wd) (opOf (.atomic op wd false) .glob (scopeOr r sc) (r.img.getLsbD 113) .none
      (resolveGlob r 126 (wdBytes wd) (s.uniReq b x (maOff off wd) (s.words b a (wdRegs wd) 0) [])))

/-! ### Fences -/

/-- The order acquires. -/
def acquires : Order → Bool
  | .acq | .ar | .sc => true
  | .rel => false

/-- The order releases. -/
def releases : Order → Bool
  | .rel | .ar | .sc => true
  | .acq => false

/-- The operations that a fence makes another path's later commands wait for (07 R157): writes before a release, and what a gate's acquire has still to
see performed. -/
def Board.covered (b : Board) (ord : Order) : List Nat :=
  (b.path.filter fun o => ((releases ord && o.kind.writes) || !o.foreign.isEmpty) && o.open).map (·.id)

/-- Those that must have returned first: the reads before an acquire. -/
def Board.coveredReads (b : Board) (ord : Order) : List Nat :=
  (b.path.filter fun o => acquires ord && o.kind.reads).map (·.id)

/-- A scope of the board that holds no other board (10 R226). -/
def State.alone (s : State) (b : Board) (sc : Scope) : Bool :=
  match sc with
  | .board | .bent | .core | .bay | .frame => s.allBoards.all fun x => x.id == b.id || !s.scopeHolds b 0 sc (.board x.id)
  | _ => false

/-- A release between the board's own accesses may order nothing, where its scope holds no one who could tell (10 R230); no one enters the scope then
before the writes ahead of it have been performed (07 R156). DESIGN CHOICE: log 95. -/
def State.orders (s : State) (b : Board) (ord : Order) (sc : Scope) : Bool :=
  ord != .rel || b.stopped || !s.alone b sc || Config.chooseBit s.freeCtr

/-- What the copy engine has written is seen by the matrix engine: by an acquire of the board from one to the other, at a scope that holds both; or from
the board's path, of what that has come to see (07 R157, 08 R186, 10 R231). -/
def State.showCopies (s : State) (b : Board) (pa : PathK) (ord : Order) (sc : Scope) : State :=
  if ord != .rel && s.scopeHolds b 0 sc (.copy b.core) && s.scopeHolds b 0 sc (.matrix b.core) then
    s.modBent b.env.bent fun x => { x with unseen := x.unseen.filter fun u => u.board != b.id || (pa != .copy && b.copyAcqs ≤ u.epoch) }
  else s

/-- A fence on the board's paths (07 R156, R157); at lane scope it orders nothing beyond R145. At a wider scope that holds another board it orders all
agents alike. DESIGN CHOICE: log 95. -/
def State.fence (s : State) (b : Board) (i : Instr) (pa pb : PathK) (ord : Order) (sc : Scope) : State :=
  if sc == .lane then s.put b
  else
    let r := if acquires ord && pb == .board then s.acquire b else (s, b)
    let s := if (pa == .copy || pa == .board) && pb == .matrix then r.1.showCopies b pa ord sc else r.1
    let b := if acquires ord && pa == .copy && pb == .board then { r.2 with copyAcqs := r.2.copyAcqs + 1 } else r.2
    if pa != .board then s.put b
    else if pb != .board then s.put { b with covers := b.covers ++ [(pb, b.covered ord)], coverReads := b.coverReads ++ [(pb, b.coveredReads ord)] }
    else if b.path.isEmpty then s.put b
    else s.free.issueOp b i { opOf (.fence pa pb ord) .glob sc false .none {} with lax := !s.orders b ord sc }

/-- FENCE (07 R156). -/
def execFence (ord : Order) (sc : Scope) (s : State) : Out :=
  onBoard s (.fence ord sc) fun b => s.fence b (.fence ord sc) .board .board ord sc

/-- FENCE.X (07 R157). -/
def execFenceX (pa pb : PathK) (ord : Order) (sc : Scope) (s : State) : Out :=
  onBoard s (.fenceX pa pb ord sc) fun b => s.fence b (.fenceX pa pb ord sc) pa pb ord sc

/-! ### Buffer records -/

/-- The image in four uniform registers (07 R138). -/
def Board.image (b : Board) (n : Nat) : BitVec 128 := b.sreg (n + 3) ++ b.sreg (n + 2) ++ b.sreg (n + 1) ++ b.sreg n

/-- BRSET (07 R141). -/
def execBrset (br : BitVec 5) (x : BitVec 9) (s : State) : Out :=
  onBoard s (.brset br x) fun b => s.put (b.outX s.cur.slotB (.b br.toNat) (b.image x.toNat))

/-- BRGET (07 R141). -/
def execBrget (br : BitVec 5) (d : BitVec 9) (s : State) : Out :=
  onBoard s (.brget br d) fun b => s.put (b.outX s.cur.slotB (.quad d.toNat) (b.brec br.toNat).img)

/-! ### Watches -/

/-- WATCH.ARM: the descriptor address is a multiple of 64 (12 R269, 23 R404). -/
def execWatchArm (d x : BitVec 9) (peg : Option (BitVec 3)) (s : State) : Out :=
  onBoard s (.watchArm d x peg) fun b =>
    let a := b.pair x.toNat
    s.issueOp b (.watchArm d x peg) (opOf (.arm a) .glob .system false (.s d.toNat)
      { fail := if a.toNat % 64 != 0 then some (0x14#8, a) else none })

/-- WATCH.DISARM (12 R269). -/
def execWatchDisarm (x : BitVec 9) (peg : Option (BitVec 3)) (s : State) : Out :=
  onBoard s (.watchDisarm x peg) fun b =>
    s.issueOp b (.watchDisarm x peg) (opOf (.disarm (b.sreg x.toNat)) .glob .system false .none {})

/-- LDTR (12 R272). -/
def execLdtr (d : BitVec 9) (peg : Option (BitVec 3)) (s : State) : Out :=
  onBoard s (.ldtr d peg) fun b => s.issueOp b (.ldtr d peg) (opOf .ldtr .glob .bent false (.s d.toNat) {})

end Sys2Proof.Machine
end

