-- ==== Sys2Proof/Machine/Access.lean ====
section
/-!
DEFINITION. The steps of the boards' memory paths: a write performed at its home (10 R225), a line that returns (07 R143), a scratchpad
access served (10 R219), a load that found no L1 storage (R222), and an access that fails (21 R374, 23 R405, R406).
-/
namespace Sys2Proof.Machine

/-- A step that the state does not let come about. -/
def notEnabled (name : String) : Out := .refused (.notEnabled name)

/-- A step that comes about when the partial function gives a state. DESIGN CHOICE: log 8. -/
def event (name : String) : Option State → Out
  | some s => .next s
  | none => notEnabled name

/-- Entries of a core's outstanding requests in use: lines of its boards but for those that are never requested, and requests of its engines and its
gate operations on their way (01 R9, 07 R143, 23 R406). -/
def State.outstanding (s : State) (core : Nat) : Nat :=
  ((s.allBoards.filter (·.core == core)).map fun b => (b.path.map fun o => (o.lines.filter fun l => match l.st with
    | .done | .failed _ => false
    | .idle => !o.parked && !l.queued && (s.lineCause b o l).isNone
    | _ => true).length).sum).sum
  + (s.outReqs.filter fun r => r.core == some core && r.at_ != .frame r.source).length

/-- Every entry of a core's outstanding requests is in use: its engines and its gate operations reach no line, and a replayed line does not go out
(01 R9). DESIGN CHOICE: log 14. -/
def State.noEntry (s : State) (core : Nat) : Bool := 2048 ≤ s.outstanding core

/-- A line that is to be requested again waits for an entry (01 R9). -/
def State.lineWaits (s : State) (b : Board) (l : Line) : Bool := l.queued && s.noEntry b.core

/-! ### Lines -/

/-- A line of an operation put in a state. -/
def setLine (n : Nat) (f : Line → Line) (o : MemOp) : MemOp := { o with lines := modAt n f o.lines }

/-- A write or atomic performed at its home here, or in host memory (10 R225): the state of its line. -/
def State.perform (s : State) (b : Board) (o : MemOp) (n : Nat) (l : Line) : Option State :=
  match s.lineAt b o l with
  | .error _ => none
  | .ok t =>
    if l.st != .idle || s.lineWaits b l || !b.mayPerform o (o.inLine l.va) || !b.ownTarget o n t then none
    else
      let wr := some (s.writerOf b)
      let done (w : List (Nat × Byte)) (old : List (Nat × List Word)) : State :=
        let b := b.overlay t w
        let s := (s.writeTarget wr t w).updateCopy b t w
        s.putBoard (b.modOp o.id (setLine n fun l => { l with st := .performed, old := old, queued := false }))
      match o.kind with
      | .store _ => some (done (o.storeBytes l.va) [])
      | .atomic _ _ _ =>
        let r := o.atomLine l.va (s.readTarget t 128)
        some (done r.1 r.2)
      | _ => none

/-- HOME_WRITE_PERFORMED (10 R225, 07 R153). -/
def execHomeWritePerformed (board op line : Nat) (s : State) : Out :=
  event "HOME_WRITE_PERFORMED" do
    let b ← s.board? board
    let o ← b.op? op
    let l ← o.lines[line]?
    s.perform b o line l

/-- The lanes of a load's line filled (07 R147, R150). -/
def fillLine (b : Board) (o : MemOp) (va : Nat) (bytes : List Byte) : Board :=
  match o.kind with
  | .load n sx => (o.inLine va).foldl (fun b a => b.fill o.dest a.lane (loadWords n sx ((bytes.drop (a.va % 128)).take n))) b
  | _ => b

/-- The lanes of an atomic's line filled with their old values (07 R155). -/
def fillOld (b : Board) (o : MemOp) (old : List (Nat × List Word)) : Board :=
  if o.kind.fills then old.foldl (fun b p => b.fill o.dest p.1 p.2) b else b

/-- The old values that a peer's answer holds, in lane order (15 R325). -/
def peerOld (o : MemOp) (va : Nat) (data : List Byte) : List (Nat × List Word) :=
  let n := o.kind.bytes
  let ls := o.inLine va
  (List.range ls.length).map fun k =>
    ((ls.getD k { lane := 0, va := 0 }).lane, oldWords (n == 8) (BitVec.ofNat 64 (fieldAt data (n * k) n)))

/-- The bytes that an atomic's lane operations leave in a line, from the old values that each has read, by offset (07 R153, 15 R325). -/
def MemOp.newBytes (o : MemOp) (va : Nat) (old : List (Nat × List Word)) : List (Nat × Byte) :=
  match o.kind with
  | .atomic op wd _ => ((o.inLine va).zip old).flatMap fun p =>
      bytesAt (p.1.va % 128) (leBytes o.kind.bytes (atomNew op wd (dword p.2.2) (dword p.1.data) (dword p.1.cmp)).toNat)
  | _ => []

/-- A bay is fused while a resident bent of it was launched with the fusion flag (10 R223). -/
def State.fused (s : State) (bay : Nat) : Bool :=
  s.bents.any fun x => !x.away && (x.cores.any fun c => c / 4 == bay) && ((s.grid? x.grid).map (·.block.fuse)).getD false

/-- The address of a line in its window. -/
def Target.addr : Target → Nat
  | .loc a | .peer _ a | .host a => a

/-- The core whose L1 holds a line for the boards of a core: its own, or A[8:7] of a fused bay (10 R223). -/
def State.holdingCore (s : State) (core : Nat) (t : Target) : Nat :=
  if s.fused (core / 4) then core / 4 * 4 + bits t.addr 7 2 else core

/-- The protected copies that stand in a core's L1; those of a bent that is switched out travel with it (10 R222, R223). -/
def State.copiesIn (s : State) (core : Nat) : List L1Copy :=
  s.l1.filter fun c => c.kept && match s.board? c.board with
    | some x => c.epoch == x.epoch && !((s.bent? x.env.bent).map (·.away)).getD true && s.holdingCore x.core c.line == core
    | none => false

/-- Storage of a core's L1 that loads under way from peers have taken. -/
def State.l1Taken (s : State) (core : Nat) : Nat :=
  (s.allBoards.map fun x => (x.path.map fun o =>
    if !cached o.scope then 0
    else (o.lines.filter fun l => (match l.st, o.kind with | .sent _, .load _ _ => true | _, _ => false)
      && s.holdingCore x.core l.tgt == core && !(s.copyOf x o l.tgt).any (·.kept)).length).sum).sum

/-- No storage is free in the L1 that holds the line: 1,024 lines for each core (01 R9); equal copies of several boards are one. -/
def State.l1Full (s : State) (b : Board) (t : Target) : Bool :=
  1024 ≤ (((s.copiesIn (s.holdingCore b.core t)).map fun c => (c.line, c.bytes)).eraseDups).length + s.l1Taken (s.holdingCore b.core t)

/-- The load needs a copy that no storage is free for, or its own that is protected no more, and no board of the L1 holds one with the same bytes
(10 R221, R222). -/
def State.l1Waits (s : State) (b : Board) (o : MemOp) (t : Target) : Bool :=
  cached o.scope && !((s.copyOf b o t).any (·.kept)) && s.l1Full b t
  && !(s.copiesIn (s.holdingCore b.core t)).any fun c => c.line == t && match t with
    | .peer _ _ => false
    | _ => c.bytes == s.lineBytes b o t []

/-- A load's line with its bytes (07 R143, R150). -/
def State.loadLine (s : State) (b : Board) (o : MemOp) (n : Nat) (l : Line) (t : Target) (data : List Byte) : State :=
  let bytes := s.lineBytes b o t data
  let d := if !cached o.scope then b.outdate t o.epoch else if (s.copyFor b o t).isSome then b else b.outdate t (o.epoch + 1)
  let s := s.keepCopy b o l.va t l.part (patch l.newer bytes)
  let b := (fillLine d o l.va bytes).modOp o.id (setLine n fun l => { l with st := .done, queued := false })
  s.putBoard (b.settleOp o.id)

/-- The board's own copy serves a load at a scope up to core, wherever its line lies (07 R146, 10 R221); never a store or an atomic. -/
def State.ownCopy (s : State) (b : Board) (o : MemOp) (t : Target) : Bool :=
  match o.kind with
  | .load _ _ => cached o.scope && (s.copyFor b o t).isSome
  | _ => false

/-- A line of a board's access that the module itself serves returns (07 R143): its data or acknowledgement. -/
def State.lineReturn (s : State) (b : Board) (o : MemOp) (n : Nat) (l : Line) : Option State :=
  if b.fillHeld o then none
  else if l.st == .performed then
    some (s.putBoard (((fillOld b o l.old).modOp o.id (setLine n fun l => { l with st := .done })).settleOp o.id))
  else if l.st != .idle || s.lineWaits b l || !b.mayPerform o (o.inLine l.va) then none
  else match s.lineAt b o l, o.kind with
    | .ok t, .load _ _ =>
      if (s.ownCopy b o t || b.ownTarget o n t) && !s.l1Waits b o t then some (s.loadLine b o n l t []) else none
    | _, _ => none

/-! ### Lines of peers (15 R319 to R323) -/

/-- What a line's request asks of its peer: every lane that names the line (15 R319, R325). -/
def MemOp.ask (o : MemOp) (va : Nat) : Option PeerKind :=
  match o.kind with
  | .load _ _ => some (.read 128)
  | .store _ => some (.write (o.storeBytes va))
  | .atomic op wd _ => some (.atomic ((o.atomArgs va).map fun a => ⟨a.1, op, wd, a.2.1, a.2.2⟩))
  | _ => none

/-- A line of the board that goes to a peer and is not yet sent: operation, number of the line, line, module and peer address. -/
structure ToSend where
  op : MemOp
  n : Nat
  line : Line
  mod : Nat
  addr : Nat

/-- The unsent peer lines of a board, by operation in issue order, then by module and peer address (15 R319). -/
def State.toSend (s : State) (b : Board) : List ToSend :=
  b.path.flatMap fun o => inOrder (fun x y => decide (x.mod < y.mod ∨ (x.mod = y.mod ∧ x.addr ≤ y.addr)))
    ((List.range o.lines.length).filterMap fun n => (o.lines[n]?).bind fun l =>
      if l.st != .idle then none
      else match s.lineAt b o l with
        | .ok (.peer m a) => if s.ownCopy b o (.peer m a) then none else some ⟨o, n, l, m, a⟩
        | _ => none)

/-- An earlier relaxed access of the board to the line is unacknowledged: a relaxed write or atomic waits for it (15 R323). -/
def Board.relaxedAhead (b : Board) (x : ToSend) : Bool :=
  x.op.relaxed && x.op.kind.writes && (b.path.takeWhile (·.id != x.op.id)).any fun f => f.relaxed && f.lines.any fun l =>
    match l.st with
    | .sent _ => l.tgt == .peer x.mod x.addr
    | _ => false

/-- What an operation on a remote gate asks of the leaf: a wait reads, an initialisation writes, an arrival does both (14 R295). -/
def rgateAcc (opr : Nat) : Acc := if opr == 2 then .r else if opr == 3 then .w else .rw

/-- An operation of the board on a remote gate of a module that was issued before another operation has its request still to come (15 R322). -/
def State.gateAhead (s : State) (b : Board) (id m : Nat) : Bool :=
  b.rgates.any fun g => g.id < id && !g.parked && g.req.isNone && g.stage == .start && match s.translate b.env.ctx g.va.toNat (rgateAcc g.opr) with
    | .ok (.peer k _) => k == m
    | _ => false

/-- The line may be sent now: nothing of the board bars it, and a copy that it needs finds storage. -/
def State.maySend (s : State) (b : Board) (x : ToSend) : Bool :=
  !s.lineWaits b x.line && b.mayPerform x.op (x.op.inLine x.line.va) && !b.relaxedAhead x && (x.op.relaxed || !s.gateAhead b x.op.id x.mod)
  && !(match x.op.kind with | .load _ _ => s.l1Waits b x.op (.peer x.mod x.addr) | _ => false)

/-- A line sent as one request (15 R319). -/
def State.sendLine (s : State) (b : Board) (x : ToSend) : State :=
  match x.op.ask x.line.va with
  | none => s
  | some k =>
    let id := s.nextUid
    let s := s.request
      { id := 0, mod := x.mod, addr := x.addr, group := (s.ctxOf b.env.ctx).podgrp, ctx := b.env.ctx, board := b.id, line := some (x.op.id, x.n)
        source := b.core / 16, ordered := !x.op.relaxed, replay := x.line.again, kind := k, depth := s.depthOf b.env.bent, va := x.line.va }
    s.putBoard (b.modOp x.op.id (setLine x.n fun l => { l with st := .sent id, queued := false, part := false }))

/-- The first unsent line of the board that may be sent: of each operation the first (07 R143, 15 R319), and of each module's ordered lines the
first (R322). `held`: modules with an ordered line ahead; `ops`: operations with a line ahead. -/
def State.nextToSend (s : State) (b : Board) (held ops : List Nat) : List ToSend → Option ToSend
  | [] => none
  | x :: t =>
    let waits := ops.contains x.op.id || (!x.op.relaxed && held.contains x.mod)
    if !waits && s.maySend b x then some x
    else s.nextToSend b (if x.op.relaxed then held else x.mod :: held) (x.op.id :: ops) t

/-- The lines of a board to peers sent as far as may be; `fuel` bounds them. -/
def State.sendLines (s : State) (board : Nat) : Nat → State
  | 0 => s
  | fuel + 1 =>
    match s.board? board with
    | none => s
    | some b => match s.nextToSend b [] [] (s.toSend b) with
      | some x => (s.sendLine b x).sendLines board fuel
      | none => s

/-- A board's line answered (15 R319, R325, 23 R411, R412, 26 R441): data or old values fill, a failure is noted for the operation. The board's
own copy takes what its store or atomic has written (10 R222). -/
def State.lineAnswer (s : State) (b : Board) (o : MemOp) (n : Nat) (l : Line) (x : LineResp) : Option State :=
  let bad (c : BitVec 8) : Option State := some (s.putBoard (b.modOp o.id (setLine n fun l => { l with st := .failed c })))
  let done (b : Board) (w : List (Nat × Byte)) : Option State :=
    some ((s.updateCopy b l.tgt w).putBoard (((b.overlay l.tgt w).modOp o.id (setLine n fun l => { l with st := .done })).settleOp o.id))
  match x with
  | .fault c => bad c
  | .stopped => bad 0x1F#8
  | .ok data =>
    if b.fillHeld o then none
    else match o.kind with
      | .load _ _ => some (s.loadLine b o n l l.tgt data)
      | .store _ => done b (o.storeBytes l.va)
      | .atomic _ _ _ => let old := peerOld o l.va data; done (fillOld b o old) (o.newBytes l.va old)
      | _ => none

/-! ### Operations without lines -/

/-- LDTR: the eight words of the board's own record, or zeros (12 R272, 25 R430). -/
def State.trigWords (s : State) (b : Board) : List Word :=
  match (s.bent? b.env.bent).bind (·.record) with
  | some r => r.words
  | none => List.replicate 8 0

/-- The watch entry that a handle names in a context: its frame and the entry (12 R260). -/
def State.watchAt (s : State) (c : BitVec 16) (h : Word) : Option (Nat × Watch) :=
  let f := (h.toNat >>> 29) % 8
  ((s.frame f).watches.find? fun w => w.idx == h.toNat % 4096 && w.gen == h.extractLsb' 12 17 && w.ctx == c && w.active).map fun w => (f, w)

/-- A page unpinned: its count falls, and the entry is freed at zero (14 R299). -/
def unpin (c : BitVec 16) (base : Nat) (l : List Pin) : List Pin :=
  (l.map fun p => if p.ctx == c && p.base == base then { p with count := p.count - 1 } else p).filter fun p => p.count != 0

/-- The pages of a watch's range, by virtual base, unpinned (12 R271). -/
def State.unpinWatch (s : State) (f : Nat) (w : Watch) : State :=
  s.modFrame f fun x => { x with pins := w.pinned.foldl (fun l p => unpin w.ctx p l) x.pins }

/-- Step 3 of a disarming: pages unpinned, slot freed (12 R271). -/
def State.dropWatch (s : State) (f : Nat) (w : Watch) : State :=
  (s.unpinWatch f w).modFrame f fun x => { x with watches := x.watches.filter (·.idx != w.idx) }

/-- An operation that has no lines returns: LDTR, and a disarming, which first closes its entry and ends once no record of it is pending (12 R271). The
handle of a disarming is judged at each of these steps: of two disarmings of one handle in progress either may end, and the other fails then
(DESIGN CHOICE, log 116). -/
def State.bareReturn (s : State) (b : Board) (o : MemOp) : Option State :=
  if b.fillHeld o || !b.mayPerform o [] then none
  else match o.kind with
    | .ldtr => some (s.putBoard ((b.fill o.dest 0 (s.trigWords b)).complete o))
    | .disarm h =>
      match s.watchAt b.env.ctx h with
      | none => none
      | some (f, w) =>
        if !w.closed then some (s.modWatch f w.idx fun w => { w with closed := true })
        else if w.pend.isSome then none
        else some ((s.dropWatch f w).putBoard (b.complete o))
    | _ => none

/-! ### Scratchpad -/

/-- Bytes of a split bent's scratchpad on its first core (02 R25). -/
def firstHalf (scr : Nat) : Nat := min scr (((scr + 1) / 2 + 4095) / 4096 * 4096)

/-- Waves of accesses to one core's banks: the largest number of distinct rows in a bank, and one more for each further lane of an
atomic at a location already named (10 R219). -/
def waves (atomic : Bool) (l : List Nat) : Nat :=
  let rows := (l.map (· / 32)).eraseDups
  ((List.range 64).map fun k => (rows.filter (· % 64 == k)).length).foldl max 0
  + if atomic then l.length - l.eraseDups.length else 0

/-- Waves of a scratchpad access; each core of a split bent counts its own half (10 R219). -/
def wavesOf (b : Board) (o : MemOp) : Nat :=
  let at_ := match o.kind with
    | .atomic _ _ _ => true
    | _ => false
  let l := o.lanes.map (·.va)
  if b.env.split then
    let h := firstHalf b.env.scr
    waves at_ (l.filter (· < h)) + waves at_ (l.filter (h ≤ ·))
  else waves at_ l

/-- The words among those in error that bytes touch and do not cover. -/
def halfWords (bad : List Nat) (as : List Nat) : List Nat :=
  bad.filter fun w => (as.any fun a => a / 4 == w) && !((List.range 4).all fun k => as.contains (4 * w + k))

/-- The words in error that remain once bytes have been written: a write of a whole word replaces it (23 R414). -/
def whole (bad : List Nat) (as : List Nat) : List Nat := bad.filter fun w => !((List.range 4).all fun k => as.contains (4 * w + k))

/-- The bytes of a scratchpad access, lane by lane. -/
def MemOp.scrBytes (o : MemOp) : List Nat := o.lanes.flatMap fun a => (List.range o.kind.bytes).map (a.va + ·)

/-- The lowest lane of a scratchpad access whose word has an uncorrectable error: one that is read, or written in part (23 R414). The access fails
as a whole. DEDUCED: log 106. -/
def State.scrError (s : State) (b : Board) (o : MemOp) : Option (Nat × Nat) :=
  match o.space, (s.bent? b.env.bent).map (·.badScr) with
  | .scr, some (w :: t) =>
    let bad := match o.kind with
      | .store _ => halfWords (w :: t) o.scrBytes
      | _ => w :: t
    (o.lanes.find? fun a => (List.range o.kind.bytes).any fun k => bad.contains ((a.va + k) / 4)).map fun a => (0x20, a.va)
  | _, _ => none

/-- Bytes that a board writes itself are seen as they are written. -/
def MemOp.sees (o : MemOp) (l : List Unseen) : List Unseen := if l.isEmpty then l else l.filter fun u => !o.scrBytes.contains u.addr

/-- SCRATCHPAD_WAVE: the last wave of a scratchpad access (10 R219): all its lanes, in lane order (07 R144, R153), with no access between its
waves. DESIGN CHOICE: log 96. -/
def execScratchpadWave (board op : Nat) (s : State) : Out :=
  event "SCRATCHPAD_WAVE" do
    let b ← s.board? board
    let o ← b.op? op
    let x ← s.bent? b.env.bent
    let s := s.charge b.env.ctx (b.core / 4) 2 (wavesOf b o)
    if o.space != .scr || o.lanes.isEmpty || b.fillHeld o || !b.mayPerform o o.lanes || (s.scrError b o).isSome then none
    else match o.kind with
      | .load n sx =>
        some (s.putBoard ((o.lanes.foldl (fun b a => b.fill o.dest a.lane (loadWords n sx (x.scratch.read a.va n))) b).complete o))
      | .store n =>
        let m := o.lanes.foldl (fun m a => m.write a.va (wordBytes n a.data)) x.scratch
        some ((s.modBent x.uid fun x => { x with scratch := m, badScr := whole x.badScr o.scrBytes, unseen := o.sees x.unseen }).putBoard (b.complete o))
      | .atomic op wd _ =>
        let r := atomLine op wd (o.lanes.map fun a => (a.va, dword a.data, dword a.cmp)) x.scratch
        let old := (o.lanes.zip r.1).map fun p => (p.1.lane, oldWords wd p.2)
        some ((s.modBent x.uid fun x => { x with scratch := r.2, unseen := o.sees x.unseen }).putBoard ((fillOld b o old).complete o))
      | _ => none

/-! ### Failures -/

/-- A load with a line that has waited for L1 storage for 65,536 ticks (10 R222, 23 R404); ticks are counted from issue (DEDUCED, log 27). -/
def State.l1Late (s : State) (b : Board) (o : MemOp) : Option Line :=
  if b.tick.toNat < o.t0 + 65536 then none
  else match o.kind with
    | .load _ _ => o.lines.find? fun l => l.st == .idle && b.mayPerform o (o.inLine l.va) && match s.lineAt b o l with
      | .ok t => s.l1Waits b o t
      | .error _ => false
    | _ => none

/-- L1_STORAGE_TIMEOUT: the line fails with CAUSE 0x1E (23 R404). -/
def execL1StorageTimeout (board op : Nat) (s : State) : Out :=
  event "L1_STORAGE_TIMEOUT" do
    let b ← s.board? board
    let o ← b.op? op
    let l ← s.l1Late b o
    some (s.putBoard (b.modOp op fun o =>
      { o with lines := o.lines.map fun x => if x.va == l.va then { x with st := .failed 0x1E#8 } else x }))

/-- The failure of an access that stands stopped behind another: a line that was on its way then has failed (23 R412, 26 R442). -/
def MemOp.answered (o : MemOp) : Option (Nat × Nat) :=
  if o.lines.any fun l => match l.st with | .sent _ => true | _ => false then none
  else o.lines.findSome? fun l => match l.st with
    | .failed c => some (c.toNat, match o.inLine l.va with | a :: _ => a.va | [] => l.va)
    | _ => none

/-- The failure of an access of a board (23 R405, R406), of an arming (25 R430) or of a disarming (R430): cause and address. -/
def State.opFailure (s : State) (b : Board) (o : MemOp) : Option (Nat × Nat) :=
  if o.stopped && !o.parked then o.answered
  else if o.parked || barred o (if o.space == .scr then o.lanes else []) [] b.path then none
  else match o.kind with
    | .disarm h => if (s.watchAt b.env.ctx h).isNone then some (0x44, 0) else none
    | .fence _ _ _ | .ldtr => none
    | _ => s.accessFailure b o <|> s.scrError b o

end Sys2Proof.Machine
end

