-- ==== Sys2Proof/Machine/Restore.lean ====
section
/-!
DEFINITION. The ways back from a freeze (21 R378 to R383): resuming a board, retiring it, and the abort of a grid.
-/
namespace Sys2Proof.Machine

/-- Every command held by an engine. -/
def State.allCmds (s : State) : List Cmd :=
  s.frames.flatMap fun f => f.rq ++ f.bays.flatMap fun y => y.cores.flatMap fun c => c.mq ++ c.cq

/-- Peg counts of the operations that are still there: one lost beyond 16 parked operations is dropped (21 R374, DEDUCED, log 31). -/
def State.recount (s : State) (b : Board) : Board :=
  let held (k : Nat) : Option (BitVec 3) → Bool
    | some p => p.toNat == k
    | none => false
  { b with pegs := tab 8 fun k =>
      { b.peg k with
        cnt := (b.path.filter fun o => held k o.peg).length
          + ((s.allCmds ++ s.parkedCmds).filter fun c => c.board == b.id && !c.beyond && held k c.peg).length
          + (s.launches.filter fun l => l.board == b.id && held k l.peg).length } }

/-- What is left of the operations on remote gates when the board retires under ACTION 1: an arrival or an initialisation that is still to be
performed drains, and nothing waits any more (21 R379). -/
def Board.drainGates (b : Board) : List RGate :=
  (b.rgates.filter fun g => !g.parked && g.opr != 2 && !g.made).map fun g => { g with opr := if g.opr == 0 then 1 else g.opr }

/-- A board's lanes end as EXIT with every lane would, and its parked and stopped operations are dropped (21 R379, ACTION 1). -/
def Board.endAll (b : Board) : Board :=
  let gone := b.path.filter fun o => o.parked || o.stopped
  let b := gone.foldl (fun b o => b.decPeg o.peg) { b with path := b.path.filter fun o => !(o.parked || o.stopped) }
  { b.sweep with
    lanesLeft := 0, slotA := { clk := b.slotA.clk }, slotB := { clk := b.slotB.clk }, stack := [], spilled := 0, pipe := []
    parked := [], povf := false, noPeg := false, stopped := false, frozen := none, gateWait := none, rgates := b.drainGates
    run := none, parkedY := false, presenting := false
    pegs := b.pegs.map fun p => { p with broken := false } }

/-- A board's parked commands and failed launches dropped: their pegs fall (21 R379). -/
def State.dropParked (s : State) (b : Board) : State × Board :=
  let cs := s.parkedCmds.filter fun c => c.board == b.id && !c.beyond
  let ls := s.launches.filter fun l => l.board == b.id && l.failed
  let b := (cs.map (·.peg) ++ ls.map (·.peg)).foldl (fun b p => { b.decPeg p with cmdsOut := b.cmdsOut - 1 }) b
  ({ s with parkedCmds := s.parkedCmds.filter (·.board != b.id)
            launches := s.launches.filter fun l => !(l.board == b.id && l.failed) }, b)

/-- Waits of a board that has ended are forgotten: its wakes and its registrations. -/
def State.dropWaits (s : State) (id : Nat) : State :=
  { s with wakes := s.wakes.filter (·.board != id)
           frames := s.frames.map fun f => { f with waiters := f.waiters.filter fun w => !(w.peer.isNone && w.board == id) } }

/-- A board retired under ACTION 1 (21 R379). -/
def State.retireBoard (s : State) (id : Nat) : State :=
  match s.board? id with
  | none => s
  | some b =>
    let r := s.dropParked b.endAll
    (r.1.dropWaits id).setBoard (if b.povf then r.1.recount r.2 else r.2)

/-- The ABORT entry of a grid (21 R379). -/
def State.abortEntry (s : State) (g : Grid) (origin : Nat) (b : Option (Board × Freeze)) : State :=
  s.faultEntry (s.ctxOf g.ctx).fn
    [0xD + origin <<< 32,
     (match b with | some x => x.2.frid.toNat | none => 0) + g.ctx.toNat <<< 32, 0, 0, s.now,
     g.gridid.toNat + (match b with | some x => x.1.slotIdx <<< 32 | none => 0),
     (match b with | some x => x.1.env.bentIdx.toNat | none => 0),
     (match b with | some x => s.recordAt x.1 | none => 0)]

/-- A grid aborted as under ACTION 2 (21 R379): its boards retire, bents not yet created never are, the entry is written. -/
def State.abortGrid (s : State) (uid : Nat) (origin : Nat) (b : Option (Board × Freeze)) : State :=
  match s.grid? uid with
  | none => s
  | some g =>
    if g.aborted then s
    else
      let s := s.abortEntry g origin b
      let s := (s.allBoards.filter fun x => x.env.grid == uid).foldl (fun s x => s.retireBoard x.id) s
      (s.modGrid uid fun g => { g with aborted := true }).settleGrid uid

/-! ### Resuming -/

/-- What a byte of a freeze record holds for the party whose restore is accepted: its own edits alone are read back (21 R383). -/
def Edit.of (e : Edit) (origin : Nat) : Byte :=
  (match origin with
   | 1 => e.handler
   | 2 => e.host
   | _ => none).getD e.dev

/-- The state with a board's record as the party of an ORIGIN has left it. -/
def State.asEdited (s : State) (b : Board) (origin : Nat) : State :=
  let a := s.recordAt b
  let es := s.edits.filter fun e => a ≤ e.addr && e.addr < a + 32768
  { s with mem := s.mem.writeAll (es.map fun e => (e.addr, e.of origin)) }

/-- DISP of the parked operation of a number is 1: discard (21 R377). -/
def State.discards (s : State) (b : Board) (id : Nat) : Bool :=
  (List.range (min b.parked.length 16)).any fun k => match b.parked[k]? with
    | some p => p.id == id && s.mem.num (s.recordAt b + 0x302 + 64 * k) 1 == 1
    | none => false

/-- A cause with which the target has faulted a request (23 R411, 26 R444): the one it has only stopped is no faulted one (R412). -/
def farCause (c : BitVec 8) : Bool := c == 0x1B#8 || c == 0x1C#8 || c == 0x20#8 || c == 0x72#8

/-- Lines of a replayed access: those not performed are sent again, indeterminate ones count as performed (23 R407, 26 R442). -/
def replayLine (l : Line) : Line :=
  match l.st with
  | .failed c => if c == 0x70#8 then { l with st := .done } else { l with st := .idle, again := l.again || farCause c }
  | _ => l

/-- A line that goes out again is translated anew, and waits for an entry of the outstanding requests that it holds no more; one that failed with CAUSE
0x1A or 0x1D fails so again, whatever its page is by then (01 R9, 23 R407). DEDUCED: log 104. -/
def State.renewLine (s : State) (b : Board) (o : MemOp) (l : Line) : Line :=
  if l.st != .idle then l
  else match s.lineAt b o l with
    | .error 0x1A | .error 0x1D => l
    | _ => { s.placeLine b.env.ctx o.kind l with queued := l.queued || o.parked }

/-- The memory path after ACTION 0: parked operations replayed or dropped, the others proceed; what has not been requested is translated anew. `v` is
the state in which the record is read. -/
def State.resumePath (s v : State) (b : Board) : Board :=
  let gone := b.path.filter fun o => o.parked && v.discards b o.id
  let b := gone.foldl (fun b o => b.decPeg o.peg)
    { b with path := b.path.filter fun o => !(o.parked && v.discards b o.id) }
  let b : Board := { b.sweep with stopped := false, path := b.sweep.path.map fun o =>
    let ls := if o.parked then o.lines.map replayLine else o.lines
    let o := { o with lines := ls.map (s.renewLine b { o with lines := ls }) }
    if o.parked then { o with parked := false, stopped := false, inTurn := true, fail := o.fail.filter fun f => f.1.toNat < 0x16 }
    else { o with stopped := false, inTurn := o.inTurn || o.stopped } }
  b.path.foldl (fun b o => if o.lines.isEmpty then b else b.settleOp o.id) b

/-- The commands in a queue with one put back where its number stands (23 R409). -/
def requeue (c : Cmd) (q : List Cmd) : List Cmd := q.takeWhile (fun x => x.id < c.id) ++ c :: q.dropWhile (fun x => x.id < c.id)

/-- A failed command re-entered in its engine's queue: acceptance is repeated (23 R408), lines and arrivals already performed stay so. -/
def State.reenter (s : State) (path : Nat) (c : Cmd) : State :=
  let done := c.unsure ++ c.sent
  let c := { c with started := false, waiting := false, written := false, tab := [], listed := .no, pages := [], words := [], woken := none
                    unsure := [], nind := 0, got := []
                    sent := match c.instr with
                      | .mma .. | .mmas .. | .accLd .. => []
                      | _ => done
                    arrivals := match c.instr with
                      | .routeCombine .. => []
                      | _ => c.arrivals }
  if path == 2 then s.modCore c.core fun x => { x with cq := requeue c x.cq }
  else if path == 3 then s.modCore c.core fun x => { x with mq := requeue c x.mq }
  else s.modFrame (c.core / 16) fun x => { x with rq := requeue c x.rq }

/-- The parked commands and launches of a board after ACTION 0: replayed, or dropped with their pegs lowered. -/
def State.resumeCmds (s : State) (old : Board) : List Parked → State × Board → State × Board
  | [], r => r
  | p :: t, (x, b) =>
    let drop (x : State) : State × Board := ({ x with parkedCmds := x.parkedCmds.filter (·.id != p.id)
                                                      launches := x.launches.filter (·.id != p.id) },
      { b.decPeg p.peg with cmdsOut := b.cmdsOut - 1 })
    let isCmd := x.parkedCmds.find? (·.id == p.id)
    let isLaunch := x.launches.any (·.id == p.id)
    s.resumeCmds old t <|
      if isCmd.isNone && !isLaunch then (x, b)
      else if s.discards old p.id then drop x
      else match isCmd with
        | some c => ({ x with parkedCmds := x.parkedCmds.filter (·.id != p.id) }.reenter p.path c, b)
        | none => ({ x with launches := x.launches.map fun l => if l.id == p.id then { l with failed := false } else l }, b)

/-- Operations on remote gates after ACTION 0: the wait begins again, or is taken as ended (26 R446). -/
def State.resumeGates (s : State) (b : Board) : Board :=
  { b with rgates := (b.rgates.filter fun g => !(g.parked && s.discards b g.id)).map fun g => { g with parked := false } }

/-- Lane values read from a record. -/
def lanesAt (m : Mem) (a : Nat) : Lanes := lanesOf fun l => m.word (a + 4 * l)

/-- What a handler or the host may have changed is read back (21 R378). -/
def State.readBack (s : State) (b : Board) : Board :=
  let a := s.recordAt b
  let pegs := s.mem.num (a + 0x68) 8
  let pcAt (o : Nat) (x : PcSlot) : PcSlot :=
    { x with path := x.path.map fun p => { p with pc := BitVec.ofNat 48 (s.mem.num (a + o) 6) } }
  { b with
    slotA := pcAt 0x30 b.slotA
    slotB := pcAt 0x38 b.slotB
    pegs := tab 8 fun k => { b.peg k with broken := (b.peg k).broken && pegs.testBit (8 * k + 7) }
    dv := tab 4 fun k => lanesAt s.mem (a + 0x800 + 512 * k)
    pipe := (List.range b.pipe.length).map fun k => match b.pipe[k]? with
      | some e =>
        if 24 ≤ k then e
        else { e with vals := lanesAt s.mem (a + 0x1000 + 640 * k + 64)
                      sval := BitVec.ofNat 128 (s.mem.num (a + 0x1000 + 640 * k + 32) 16) }
      | none => { dest := .none, slotB := false, lanes := 0, rem := 1 } }

/-- ACTION 0 (21 R379), with the edits of the party whose event is accepted (R383). -/
def State.resume (s : State) (b : Board) (origin : Nat) : State :=
  let v := s.asEdited b origin
  let r := v.resumeCmds b b.parked (s, v.resumeGates (s.resumePath v (v.readBack b)))
  let r := (r.1.fillLines b.env.ctx (b.path.flatMap (·.lines)), r.2)
  let s := { r.1 with parkedCmds := r.1.parkedCmds.filter fun c => !(c.board == b.id && c.beyond) }
  s.setBoard { (if b.povf then s.recount r.2 else r.2) with frozen := none, parked := [], povf := false, noPeg := false }

/-- A line of the record cannot be read (23 R415). -/
def State.recordBad (s : State) (b : Board) : Bool := (List.range 256).any fun k => s.badAt (s.recordAt b + 128 * k)

/-- A frozen board restored from its record with an ACTION (21 R379); `origin` says whose event it is: 1 an ERET, 2 a FRESUME, 0 of the service cores,
which clear the broken bits and set ACTION 0 themselves (23 R413). -/
def State.restore (s : State) (b : Board) (f : Freeze) (action origin : Nat) : State :=
  if s.recordBad b then s.abortGrid b.env.grid 3 (some (b, f))
  else if action == 0 then s.resume b origin
  else if action == 2 then s.abortGrid b.env.grid origin (some (b, f))
  else s.retireBoard b.id

/-- ACTION in a board's record, as its handler has left it. -/
def State.actionOf (s : State) (b : Board) : Nat := (s.asEdited b 1).mem.num (s.recordAt b + 2) 1

end Sys2Proof.Machine
end

