-- ==== Sys2Proof/Machine/Gates.lean ====
section
/-!
DEFINITION. Gates of bents and bays (02 R34, R35, 22 R399), remote gates (15 R326 to R329, 26 R446), the BAR instructions (09 R201,
R202), and the releases a board performs at its issue tick.
-/
namespace Sys2Proof.Machine

/-! ### Releases at the issue tick -/

/-- One line of an operation performed, or returned, as far as it can be here. -/
def State.pushLine (s : State) (board op n : Nat) : State :=
  match s.board? board with
  | none => s
  | some b =>
    match b.op? op with
    | none => s
    | some o =>
      match o.lines[n]? with
      | none => s
      | some l =>
        match o.kind with
        | .load _ _ => (s.lineReturn b o n l).getD s
        | _ => (s.perform b o n l).getD s

/-- One operation pushed: its scratchpad access, or its lines in order. -/
def State.pushOp (s : State) (board : Nat) (o : MemOp) : State :=
  if o.space == .scr then
    match execScratchpadWave board o.id s with
    | .next s => s
    | _ => s
  else (List.range o.lines.length).foldl (fun s n => s.pushLine board o.id n) s

/-- The board's earlier accesses performed, in issue order, as far as they can be here: what a release at the issue tick asks (09 R202,
R204, DESIGN CHOICE, log 28). -/
def State.release (s : State) (board : Nat) : State :=
  match s.board? board with
  | none => s
  | some b => b.path.foldl (fun s o => s.pushOp board o) s

/-- The writes and atomics of a board that are not performed, and its acquires that the releases of others still hold up: what a release of the board
has to see performed (10 R231). -/
def Board.openWrites (b : Board) : List Nat := (b.path.filter fun o => (o.kind.writes || !o.foreign.isEmpty) && o.open).map (·.id)

/-- A list of operations of a board has been performed at system scope. -/
def Board.performed (b : Board) (ids : List Nat) : Bool := b.path.all fun o => !ids.contains o.id || o.performedAt .system

/-- A release at a scope: what can be performed here is performed now, and later writes of the board follow what is left, as behind a FENCE
(07 R156, 10 R228). -/
def State.releaseAt (s : State) (b : Board) (sc : Scope) : State × Board :=
  let s := (s.put b).release b.id
  let b := s.bd.getD b
  if b.openWrites.isEmpty then (s, b)
  else
    let f : MemOp := { id := s.nextUid, insn := 0, kind := .fence .board .board .rel, space := .glob, scope := sc, peg := none }
    ({ s with nextUid := s.nextUid + 1 }, { b with path := b.path ++ [f] })

/-- The release of an arrival is still to be performed. -/
def State.unreleased (s : State) (a : Unreleased) : Bool :=
  match s.board? a.board with
  | some b => !b.performed a.after
  | none => false

/-! ### Bent and bay gates -/

/-- The co-placed group of a bent. -/
def State.groupOf (s : State) (b : Board) : Nat := ((s.bent? b.env.bent).map (·.group)).getD 0

/-- A board shares the gate: a board of the bent, or of the group. -/
def State.shares (s : State) (b : Board) (k : GateKind) (x : Board) : Bool :=
  match k with
  | .bay => s.groupOf b != 0 && s.groupOf x == s.groupOf b
  | _ => x.env.bent == b.env.bent

/-- A gate stored. -/
def State.setGate (s : State) (b : Board) (k : GateKind) (n : Nat) (g : Gate) : State :=
  match k with
  | .bay =>
    let grp := s.groupOf b
    s.modBay (b.core / 4) fun y => { y with gates := Machine.put grp (modAt n (fun _ => g) (look grp [] y.gates)) y.gates }
  | _ => s.modBent b.env.bent fun x => { x with gates := modAt n (fun _ => g) x.gates }

/-- The wait of a board ends: an acquire at the gate's scope (09 R202). The board is ready at once; its later accesses wait in its memory path, behind
operation `uid`, for what is left of the releases that the acquire synchronises with (10 R230). DEDUCED: log 28. -/
def Board.endWait (b : Board) (uid : Nat) (late : List Unreleased) : Board :=
  let b := { b with gateWait := none, epoch := b.epoch + 1, copyAcqs := b.copyAcqs + 1 }
  match late.filter (·.board != b.id) with
  | [] => b
  | l => { b with path := b.path ++ [{ id := uid, insn := 0, kind := .fence .board .board .acq, space := .glob, scope := .system, peg := none, foreign := l }] }

/-- Waits on the phase `p` of a gate end (02 R34). `late`: arrivals in ended phases whose releases are still to be performed. -/
def State.endWaits (s : State) (b : Board) (k : GateKind) (n : Nat) (p : Bool) (late : List Unreleased) : State :=
  let uid := s.nextUid
  { s with nextUid := uid + 1 }.mapBoards fun x => match x.gateWait with
    | some w => if s.shares b k x && w.kind == k && w.num == n && w.phase == p then x.endWait uid late else x
    | none => x

/-- The phase `p` of a gate ends: waiters on it become ready, and no board has arrived in the new phase (02 R34, R35). -/
def State.phaseEnds (s : State) (b : Board) (k : GateKind) (n : Nat) (p : Bool) (late : List Unreleased) : State :=
  (s.mapBoards fun x => if s.shares b k x then { x with arrived := x.arrived.filter fun a => a != (k, n) } else x).endWaits b k n p late

/-- Boards of the bent that have retired: each arrives in every later phase of a bent gate (02 R35). -/
def State.standing (s : State) (b : Board) (k : GateKind) : Nat :=
  match k with
  | .bent => ((s.bent? b.env.bent).map fun x => x.retired.length).getD 0
  | _ => 0

/-- A gate whose current phase has ended: its late arrivals belong to an ended phase now. -/
def Gate.flip (g : Gate) (count : Nat) : Gate :=
  { g with phase := !g.phase, count := count, late := g.late.map fun a => { a with ended := true } }

/-- A gate whose count may have reached its target completes phases as long as it does; `fuel` bounds them. Each new phase begins with
the standing arrivals. Beyond the bound phases complete for ever, and the phase is a free value (DESIGN CHOICE, log 29). -/
def State.settleGate (s : State) (b : Board) (k : GateKind) (n : Nat) : Nat → State
  | 0 => (s.setGate b k n { s.gateOf b k n with phase := Config.chooseBit s.freeCtr }).free
  | fuel + 1 =>
    let g := s.gateOf b k n
    match g.target with
    | none => s
    | some t =>
      if g.count < t then s
      else ((s.setGate b k n (g.flip (s.standing b k))).phaseEnds b k n g.phase (g.late.filter s.unreleased)).settleGate b k n fuel

/-- The first `.init` of a bay gate finds arrivals counted: they complete as many phases as they reach, and the rest carry into the next
(22 R399). -/
def State.settleFirst (s : State) (b : Board) (n t : Nat) : State :=
  let g := s.gateOf b .bay n
  let k := g.count / t
  if k == 0 then s
  else
    let late := g.late.filter s.unreleased
    let flipped := g.flip (g.count % t)
    let s := (s.setGate b .bay n { flipped with phase := g.phase != (k % 2 == 1) }).phaseEnds b .bay n g.phase late
    if k == 1 then s else s.phaseEnds b .bay n (!g.phase) late

/-- The board has had its turn among the arrivals of its tick (02 R35). -/
def State.hadTurn (s : State) (b : Board) : State :=
  s.modBay (b.core / 4) fun y => { y with arrSlot := some (max b.slotIdx (y.arrSlot.getD 0)) }

/-- One arrival of a board at a gate of its bent or group (02 R34), `after` being what its release has still to see performed: the state and the
phase it was counted in. -/
def State.arrive (s : State) (b : Board) (k : GateKind) (n : Nat) (after : List Nat) : State × Bool :=
  let g := s.gateOf b k n
  let late := g.late.filter s.unreleased ++ if after.isEmpty then [] else [{ board := b.id, after := after }]
  let s := (s.hadTurn b).setGate b k n { g with count := g.count + 1, late := late }
  let s := s.modBoard b.id fun x => { x with arrived := (k, n) :: x.arrived }
  (s.settleGate b k n 8, g.phase)

/-- A `.init` of a gate (09 R202, 22 R399). The first one of a bay gate ends the waits whose phase bit differs from the gate's too: until then a wait
on it has waited. DEDUCED: log 90. -/
def State.initGate (s : State) (b : Board) (k : GateKind) (n t : Nat) : State :=
  let g := s.gateOf b k n
  match k, g.target with
  | .bay, some _ => s
  | .bay, none => (s.setGate b k n { g with target := some t }).settleFirst b n t |>.endWaits b k n (!g.phase) []
  | _, _ => (s.setGate b k n { g with target := some t }).settleGate b k n 8

/-! ### Remote gates -/

/-- An operation on a remote gate changed. -/
def Board.modGate (b : Board) (id : Nat) (f : RGate → RGate) : Board :=
  { b with rgates := b.rgates.map fun g => if g.id == id then f g else g }

/-- An operation on a remote gate is done: a wait ends with an acquire at pod scope (15 R328). -/
def Board.gateDone (b : Board) (g : RGate) : Board :=
  let b := { b with rgates := b.rgates.filter (·.id != g.id) }
  if g.opr == 0 || g.opr == 2 then b.endWait 0 [] else b

/-- The wait of an operation on a remote gate ends: the board is registered for it no more, and no wake for it stands at its frame. -/
def State.endRemote (s : State) (b : Board) (g : RGate) : State :=
  (s.dropWaits b.id).setBoard (b.gateDone g)

/-- The address of a remote gate, or the cause the operation fails with: an address that is no multiple of 16 fails as one not aligned
(DEDUCED, log 30). -/
def State.rgateAt (s : State) (b : Board) (g : RGate) : Except Nat Target :=
  if g.va.toNat % 16 != 0 then .error 0x14
  else match s.translate b.env.ctx g.va.toNat (rgateAcc g.opr) with
    | .ok (.peer m a) => if s.lost.contains m then .error (if g.opr == 2 || g.made then 0x73 else 0x71) else .ok (.peer m a)
    | .ok (.loc a) => if s.badAt a then .error 0x20 else .ok (.loc a)
    | .ok (.host _) => .error 0x1D
    | .error k => .error k

/-- A wake is one of the gate of an operation. -/
def State.gateIs (s : State) (b : Board) (g : RGate) (w : Wake) : Bool :=
  match s.translate b.env.ctx g.va.toNat (rgateAcc g.opr) with
  | .ok (.loc a) => w.peer.isNone && w.gate == a
  | .ok (.peer m a) => w.peer == some m && w.gate == a
  | _ => false

/-- PHASE read for a waiter at a gate here: the wait ends, or the waiter is registered while the list has room (15 R328). -/
def State.readPhase (s : State) (b : Board) (g : RGate) (gate : Nat) : State :=
  if s.gatePhase gate != g.phase then s.endRemote b g
  else
    let f := homeFrame gate
    let room := (s.frame f).waiters.length < 8192
    let s := if room then s.modFrame f fun x => { x with waiters := x.waiters ++ [{ gate := gate, peer := none, board := b.id }] } else s
    s.setBoard { b.modGate g.id (fun g => { g with stage := .wait room, polled := s.now }) with gateWait := some g.asWait }

/-- dc1 of the bundle that holds the BAR receives the returned phase (15 R327). -/
def Board.returnPhase (b : Board) (p : Bool) : Board :=
  let x := b.slotOf (!b.turnB)
  b.setSlot (!b.turnB) { x with dc1 := (BitVec.ofBool p).setWidth 32 }

/-- An arrival at a gate here performed for a board (15 R327): `.arr` is done; `.aw` goes on to wait for its phase. -/
def State.arriveRemote (s : State) (b : Board) (g : RGate) (gate : Nat) : State :=
  let r := s.gateArrive (some (s.writerOf b)) gate
  let b := (match r.1.board? b.id with | some x => x | none => b).returnPhase r.2
  let g := { g with phase := r.2, made := true }
  if g.opr == 1 then r.1.setBoard (b.gateDone g)
  else r.1.readPhase (b.modGate g.id fun _ => g) g gate

/-- The request of an operation whose gate's home is a peer (15 R327 to R329), with the depth of a handler (12 R265). -/
def State.gateRequest (s : State) (b : Board) (g : RGate) (m a : Nat) (k : PeerKind) : State :=
  let id := s.nextUid
  (s.request { id := 0, mod := m, addr := a, group := (s.ctxOf b.env.ctx).podgrp, ctx := b.env.ctx, board := b.id, source := b.core / 16
               ordered := true, core := some b.core, replay := g.again, kind := k, depth := s.depthOf b.env.bent, va := g.va.toNat }).setBoard
    (b.modGate g.id fun g => { g with req := some id })

/-- An ordered line of the board to a module, of an operation issued before a gate's, is not yet sent (15 R322). -/
def State.lineAhead (s : State) (b : Board) (g : RGate) (m : Nat) : Bool :=
  (s.toSend b).any fun x => x.op.id < g.id && !x.op.relaxed && x.mod == m

/-- An operation on a remote gate begins, once the writes that its release covers have been performed (09 R202): a read or an initialisation
here at once, a request to a peer, an arrival here by a step of its own. What has been made already is not made again (26 R442). -/
def State.startGate (s : State) (b : Board) (g : RGate) : State :=
  if g.parked || g.req.isSome || g.stage != .start || !b.performed g.after then s
  else if g.made && g.opr % 2 == 1 then s.setBoard (b.gateDone g)
  else match s.rgateAt b g with
    | .ok (.loc a) =>
      if s.noEntry b.core then s
      else if g.opr == 2 || g.made then s.readPhase b g a
      else if g.opr == 3 then (s.gateInit (some (s.writerOf b)) a g.val.toNat).modBoard b.id fun b => b.gateDone g
      else s
    | .ok (.peer m a) =>
      if s.lineAhead b g m || s.gateAhead b g.id m then s
      else s.gateRequest b g m a
        (if g.opr == 2 || g.made then .phaseRead g.phase b.id else if g.opr == 3 then .gateInit g.val else .arrive)
    | _ => s

/-- Number of an operation in OPR (09 R201). -/
def rgateOf (s : State) (b : Board) (i : Instr) (opr : Nat) (a : BitVec 9) : RGate :=
  let v := if 2 ≤ opr then b.sreg (a.toNat + 2) else 0
  { id := s.nextUid, insn := insnOf i, va := b.pair a.toNat, opr := opr, val := v, phase := v.getLsbD 0 }

/-- A BAR on a remote gate (15 R327 to R329): the release first, except for a wait. The arrivals' dc1 counts as landing at t + 2. -/
def State.barRemote (s : State) (b : Board) (i : Instr) (opr : Nat) (a : BitVec 9) : State :=
  let g := rgateOf s b i opr a
  let s := { s with nextUid := s.nextUid + 1 }
  let (s, b) := if opr == 2 then (s, b) else s.releaseAt b .pod
  let g := { g with after := if opr == 2 then [] else b.openWrites }
  let b := { b with rgates := b.rgates ++ [g] }
  let b := if opr ≤ 1 then
      let x := b.slotOf s.cur.slotB
      b.setSlot s.cur.slotB { x with wins := { loc := .dc 0, rem := 2, fresh := true } :: x.wins }
    else b
  { s with bd := some b }.startGate b g

/-! ### The instructions -/

/-- A board goes on to wait at a gate of its bent or group while its phase is `p`; a phase that has ended ends the wait, and at a bay gate without a
target a wait waits (09 R202). DEDUCED: log 90. -/
def State.awaitPhase (s : State) (b : Board) (k : GateKind) (n : Nat) (p : Bool) : State :=
  let g := s.gateOf b k n
  if g.phase != p && !(k == .bay && g.target.isNone) then
    let late := (g.late.filter (·.ended)).filter s.unreleased
    ({ s with nextUid := s.nextUid + 1 } : State).modBoard b.id fun b => b.endWait s.nextUid late
  else s.modBoard b.id fun b => { b with gateWait := some { kind := k, num := n, phase := p } }

/-- The scope of a gate of the bent or group (10 R228). -/
def gateScope : GateKind → Scope
  | .bay => .bay
  | _ => .bent

/-- An arrival at a gate of the bent or group: the release, then the arrival, counted in this tick, whose phase dc1 receives at t + 2 (09 R190,
R202); `.aw` then waits. -/
def State.barArrive (s : State) (b : Board) (k : GateKind) (n : Nat) (wait : Bool) : State :=
  let (s, b) := s.releaseAt b (gateScope k)
  let r := (s.put b).arrive b k n b.openWrites
  let s := r.1.modBoard b.id fun b => b.outC s.cur.slotB .none (if r.2 then 1 else 0)
  if wait then s.awaitPhase b k n r.2 else s

/-- BAR.aw (09 R202). -/
def execBarAw (k : GateKind) (g : BitVec 6) (a : BitVec 9) (s : State) : Out :=
  onBoard s (.barAw k g a) fun b =>
    if k == .remote then s.barRemote b (.barAw k g a) 0 a else s.barArrive b k g.toNat true

/-- BAR.arr (09 R202). -/
def execBarArr (k : GateKind) (g : BitVec 6) (a : BitVec 9) (s : State) : Out :=
  onBoard s (.barArr k g a) fun b =>
    if k == .remote then s.barRemote b (.barArr k g a) 1 a else s.barArrive b k g.toNat false

/-- BAR.wait (09 R202). -/
def execBarWait (k : GateKind) (g : BitVec 6) (a : BitVec 9) (s : State) : Out :=
  onBoard s (.barWait k g a) fun b =>
    if k == .remote then s.barRemote b (.barWait k g a) 2 a
    else (s.put b).awaitPhase b k g.toNat ((b.sreg a.toNat).getLsbD 0)

/-- BAR.init (09 R202, 22 R399). -/
def execBarInit (k : GateKind) (g : BitVec 6) (a : BitVec 9) (s : State) : Out :=
  onBoard s (.barInit k g a) fun b =>
    if k == .remote then s.barRemote b (.barInit k g a) 3 a
    else (s.put b).initGate b k g.toNat (b.sreg a.toNat).toNat

/-! ### Steps at remote gates -/

/-- The board with an operation on a remote gate of this number, and the operation. -/
def State.rgate? (s : State) (id : Nat) : Option (Board × RGate) :=
  s.allBoards.findSome? fun b => (b.rgates.find? (·.id == id)).map fun g => (b, g)

/-- REMOTE_GATE_ARRIVAL: an arrival performed at a gate here, after the release of 09 R202 (15 R327). -/
def execRemoteGateArrival (id : Nat) (s : State) : Out :=
  event "REMOTE_GATE_ARRIVAL" do
    let (b, g) ← s.rgate? id
    if g.parked || g.made || 1 < g.opr || g.stage != .start || !b.performed g.after || s.noEntry b.core then none
    else match s.rgateAt b g with
      | .ok (.loc a) => some ((s.fillTlb b.env.ctx g.va.toNat).arriveRemote b g a)
      | _ => none

/-- The operation of a board that waits at a remote gate. -/
def Board.waiting? (b : Board) : Option RGate := b.rgates.find? fun g => !g.parked && match g.stage with | .wait _ => true | .start => false

/-- PHASE of a waiter's gate read again: here at once, or at the peer by a new request (15 R328, 25 R432). -/
def State.rereadPhase (s : State) (b : Board) (g : RGate) : Option State :=
  match s.rgateAt b g with
  | .ok (.loc a) =>
    some (if s.gatePhase a == g.phase then s.setBoard (b.modGate g.id fun g => { g with polled := s.now }) else s.endRemote b g)
  | .ok (.peer m a) =>
    if g.req.isSome then none
    else
      let g := { g with woken := none }
      some (s.gateRequest (b.modGate g.id fun _ => g) g m a (.phaseRead g.phase b.id))
  | _ => none

/-- A waiter that the full list does not hold has to read PHASE now: it has not for 1 µs of TIME (15 R328). -/
def State.phaseDue (s : State) (g : RGate) : Bool :=
  !g.parked && g.stage == .wait false && g.req.isNone && g.polled + 1000 ≤ s.now

/-- A peer's answer to an operation on a remote gate (15 R327, R328): an arrival returns the phase it was counted in; a read the current one,
and whether the waiter is registered. -/
def State.gateAnswer (s : State) (b : Board) (g : RGate) (data : List Byte) : State :=
  let p := (data.getD 0 0).getLsbD 0
  let g' := { g with req := none }
  let b := b.modGate g.id fun _ => g'
  if g.opr == 3 || (g.opr == 1 && !g.made) then s.setBoard ((if g.opr == 1 then b.returnPhase p else b).gateDone g)
  else if g.opr == 0 && !g.made then
    let g' := { g' with phase := p, made := true }
    let b := (b.returnPhase p).modGate g.id fun _ => g'
    (s.setBoard b).startGate b g'
  else if p != g.phase then s.endRemote b g'
  else
    let held := (data.getD 1 0).getLsbD 0
    let g := { g' with stage := .wait held, woken := none, polled := s.now }
    let t := s.setBoard { b.modGate g.id (fun _ => g) with gateWait := some g.asWait }
    match g'.woken with
    | some false => t.endRemote b g
    | some true => ((t.board? b.id).bind fun b => t.rereadPhase b g).getD t
    | none => t

/-- The failure of an operation on a remote gate: its translation, or a lost home (26 R446); none while it is well. -/
def State.gateFailure (s : State) (b : Board) (g : RGate) : Option (Nat × Nat) :=
  if g.parked || g.req.isSome then none
  else match s.rgateAt b g with
    | .error k => some (k, g.va.toNat)
    | .ok _ => none

/-- An operation on a remote gate fails: it names no peg, and the wait shows no longer (26 R446). An arrival or initialisation of which no
answer came is not made again, and the phase it was counted in stays unknown (26 R441, R442). DEDUCED: log 51. One that fails beyond 16 parked
operations cannot be replayed (21 R374). -/
def State.failGate (s : State) (b : Board) (g : RGate) (cause : BitVec 8) : State :=
  let lost := cause == 0x70#8 && g.opr != 2 && !g.made
  let last := 16 ≤ b.parked.length
  let b := b.park { id := g.id, path := 1, peg := none, cause := cause, insn := g.insn, addr := g.va, prog := if lost then 1 else 0
                    nind := if lost then 1 else 0 }
  let phase := if lost then Config.chooseBit s.freeCtr else g.phase
  let b := b.modGate g.id fun g =>
    { g with parked := true, req := none, stage := .start, made := g.made || lost, again := g.again || farCause cause, phase := phase }
  let b := if last then { b with rgates := b.rgates.filter fun x => x.id != g.id } else b
  (if lost then s.free else s).putBoard { b with noPeg := true, gateWait := none }

end Sys2Proof.Machine
end

