-- ==== Sys2Proof/Machine/Engine.lean ====
section
/-!
DEFINITION. What the engines share (08 R162 to R166, 11 R238, R239): a command as it is accepted, the bytes it touches, translation and
pins (14 R297, R299), requests to peers (15 R319), and how a command ends or fails (21 R374, 23 R408).
-/
namespace Sys2Proof.Machine

/-! ### Finding commands -/

/-- A command of an engine by its number. -/
def State.cmd? (s : State) (id : Nat) : Option Cmd := s.allCmds.find? (·.id == id)

/-- Lists of commands changed by number. -/
def modIn (id : Nat) (f : Cmd → Cmd) (l : List Cmd) : List Cmd := l.map fun c => if c.id == id then f c else c

/-- Every queue of commands changed. -/
def State.mapCmds (s : State) (g : List Cmd → List Cmd) : State :=
  { s with frames := s.frames.map fun f =>
      { f with rq := g f.rq
               bays := f.bays.map fun y => { y with cores := y.cores.map fun c => { c with mq := g c.mq, cq := g c.cq } } } }

/-- A command changed. -/
def State.modCmd (s : State) (id : Nat) (f : Cmd → Cmd) : State := s.mapCmds (modIn id f)

/-! ### Acceptance -/

/-- The core that holds a tile of a board's bent (02 R25, R26). -/
def State.tileCore (s : State) (b : Board) (t : Nat) : Nat :=
  match (s.bent? b.env.bent).map (·.cores) with
  | some [c] => c
  | some (c :: d :: _) => if t < (b.env.acc + 1) / 2 then c else d
  | _ => b.core

/-- Of the operations covered for a path those that are still in the board's memory path (07 R157, 10 R237). -/
def Board.follows (b : Board) (l : List (PathK × List Nat)) (p : PathK) : List Nat :=
  ((l.filter (·.1 == p)).flatMap (·.2)).filter fun id => b.path.any fun o => o.id == id

/-- A command as it is accepted: the operands it read at issue (08 R162). -/
def State.cmdOf (s : State) (b : Board) (i : Instr) (core : Nat) (p : PathK) : Cmd :=
  { id := s.nextUid, board := b.id, core := core, ctx := b.env.ctx, bent := b.env.bent, instr := i, peg := pegOf i
    mask := s.cur.mask, mpc := b.mpc, depth := s.depthOf b.env.bent, after := b.follows b.covers p, afterReads := b.follows b.coverReads p }

/-- A command entered in its engine's queue: the peg rises, and the board has one command more (08 R164). -/
def State.enqueue (s : State) (b : Board) (c : Cmd) (f : State → State) : State :=
  f { s with bd := some { b.incPeg c.peg with cmdsOut := b.cmdsOut + 1 }, nextUid := s.nextUid + 1 }

/-! ### Where a command's bytes lie -/

/-- A target moved by an offset. -/
def Target.plus (n : Nat) : Target → Target
  | .loc a => .loc (a + n)
  | .peer m a => .peer m (a + n)
  | .host a => .host ((a + n) % 2 ^ 64)

/-- The pages of virtual lines as they translate now. -/
def State.mapOf (s : State) (c : Cmd) (ls : List Nat) : List PageAt :=
  (ls.filterMap fun l => match s.pageOf c.ctx l, s.translate c.ctx l .r, s.translate c.ctx l .w with
    | .ok p, .ok t, _ | .ok p, _, .ok t => some (p, t, l)
    | _, _, _ => none).foldl (fun ps x => if ps.any fun q => q.base == x.1.1 then ps
        else ps ++ [{ base := x.1.1, size := x.1.2, tgt := match x.2.1 with
          | .loc a => .loc (a - (x.2.2 - x.1.1))
          | .peer m a => .peer m (a - (x.2.2 - x.1.1))
          | .host a => .host ((a + 2 ^ 64 - (x.2.2 - x.1.1)) % 2 ^ 64) }]) []

/-- Where an address of a command lies: as its page was translated at acceptance, else as it translates now (14 R297). -/
def State.cmdAt (s : State) (c : Cmd) (va : Nat) (acc : Acc) : Except Nat Target :=
  match c.pages.find? fun p => p.base ≤ va && va < p.base + p.size with
  | some p => .ok (p.tgt.plus (va - p.base))
  | none => s.translate c.ctx va acc

/-! ### Bytes that a command touches -/

/-- An interval of a command: in the bent's scratchpad, or in the context's addresses. -/
structure Touch where
  scr : Bool := false
  addr : Nat
  len : Nat
deriving DecidableEq, Repr

/-- The 128-byte lines of an interval. -/
def Touch.lines (t : Touch) : List Nat :=
  if t.len == 0 then [] else (List.range ((t.addr + t.len - 1) / 128 - t.addr / 128 + 1)).map fun k => 128 * (t.addr / 128 + k)

/-- The lines of several virtual intervals, each once, ascending. -/
def linesOfTouches (ts : List Touch) : List Nat :=
  (ascending ((ts.filter (!·.scr)).flatMap Touch.lines)).eraseDups

/-- Scratchpad bytes of a command's bent. -/
def State.scrOf (s : State) (c : Cmd) : Nat := (((s.bent? c.bent).bind fun x => s.grid? x.grid).map fun g => 32 * g.block.scr).getD 0

/-- The first scratchpad interval that leaves the allocation: CAUSE 0x15 (23 R404). -/
def State.scrFail (s : State) (c : Cmd) (ts : List Touch) : Option (Nat × Nat) :=
  (ts.find? fun t => t.scr && s.scrOf c < t.addr + t.len).map fun t => (0x15, t.addr)

/-- The first line of virtual intervals that cannot be accessed (23 R404); a read of the host needs the link, a write is posted, and no gate lies
there (15 R318, R326, 26 R455). -/
def State.lineFail (s : State) (c : Cmd) (acc : Acc) : List Nat → Option (Nat × Nat)
  | [] => none
  | l :: t =>
    match s.cmdAt c l acc with
    | .error k => some (k, l)
    | .ok (.host _) =>
      match acc with
      | .rw => some (0x1D, l)
      | .r => if s.linkUp then s.lineFail c acc t else some (0x74, l)
      | _ => s.lineFail c acc t
    | .ok _ => s.lineFail c acc t

/-- The first line of virtual intervals whose data has an uncorrectable error (23 R414). -/
def State.lineBad (s : State) (c : Cmd) (ls : List Nat) : Option (Nat × Nat) :=
  if s.badLines.isEmpty then none
  else (ls.find? fun l => match s.cmdAt c l .r with
    | .ok (.loc a) => s.badAt a
    | _ => false).map fun l => (0x20, l)

/-- The first byte of scratchpad intervals whose word has an uncorrectable error (23 R414). -/
def State.scrBad (s : State) (c : Cmd) (ts : List Touch) : Option (Nat × Nat) :=
  match (s.bent? c.bent).map (·.badScr) with
  | none | some [] => none
  | some ws => (ts.filter (·.scr)).findSome? fun t =>
      (ws.find? fun w => 4 * w < t.addr + t.len && t.addr < 4 * w + 4).map fun w => (0x20, max t.addr (4 * w))

/-- The lines of several virtual intervals, each once, in their order. -/
def loopLines (ts : List Touch) : List Nat := ((ts.filter (!·.scr)).flatMap Touch.lines).eraseDups

/-- The address of a failure is that of the first touched byte of its line. -/
def exact (ts : List Touch) (f : Nat × Nat) : Nat × Nat :=
  match ts.find? fun t => !t.scr && t.addr / 128 ≤ f.2 / 128 && f.2 / 128 ≤ (t.addr + t.len - 1) / 128 with
  | some t => if f.1 == 0x15 then f else (f.1, max t.addr f.2)
  | none => f

/-- Data that is read has an uncorrectable error (23 R414). -/
def State.dataBad (s : State) (c : Cmd) (ts : List Touch) : Option (Nat × Nat) :=
  s.scrBad c ts <|> (s.lineBad c (linesOfTouches ts)).map (exact ts)

/-- The failures of a command's intervals in order; a read also needs good data. -/
def State.touchFail (s : State) (c : Cmd) (acc : Acc) (ts : List Touch) : Option (Nat × Nat) :=
  s.scrFail c ts <|> (s.lineFail c acc (linesOfTouches ts)).map (exact ts) <|> (if acc == .r then s.dataBad c ts else none)

/-! ### Pins (14 R299) -/

/-- The local pages of virtual lines: base and size. -/
def State.pagesOf (s : State) (c : Cmd) (ls : List Nat) : List (Nat × Nat) :=
  (ls.filterMap fun l => match s.translate c.ctx l .r, s.translate c.ctx l .w with
    | .ok (.loc _), _ | _, .ok (.loc _) => match s.pageOf c.ctx l with | .ok p => some p | .error _ => none
    | _, _ => none).eraseDups

/-- A page pinned once more, or newly. -/
def pin (ctx : BitVec 16) (p : Nat × Nat) (l : List Pin) : List Pin :=
  if l.any fun x => x.ctx == ctx && x.base == p.1 then
    l.map fun x => if x.ctx == ctx && x.base == p.1 then { x with count := x.count + 1 } else x
  else l ++ [{ ctx := ctx, base := p.1, size := p.2, count := 1 }]

/-- The pages fit in the frame's page-lock table: 8,192 entries of 16-bit counts. -/
def State.pinsFit (s : State) (f : Nat) (ctx : BitVec 16) (ps : List (Nat × Nat)) : Bool :=
  let l := ps.foldl (fun l p => pin ctx p l) (s.frame f).pins
  l.length ≤ 8192 && l.all fun p => p.count < 65536

/-- Pages pinned for a command in the table of its engine's frame. -/
def State.pinAll (s : State) (c : Cmd) (ps : List (Nat × Nat)) : State :=
  s.modFrame (c.core / 16) fun f => { f with pins := ps.foldl (fun l p => pin c.ctx p l) f.pins }

/-- A command's pins released. -/
def State.unpinAll (s : State) (c : Cmd) : State :=
  s.modFrame (c.core / 16) fun f => { f with pins := c.pins.foldl (fun l p => unpin c.ctx p.1 l) f.pins }

/-! ### Reading -/

/-- Key of a peer's byte among those returned. -/
def peerKey (m a : Nat) : Nat := m * 2 ^ 64 + a

/-- PATH of a command's parked entry (21 R377). -/
def cmdPath (i : Instr) : Nat :=
  match i with
  | .cpa .. | .cpb .. | .cpr .. => 2
  | .routeCount .. | .routeXchg .. | .routePlace .. | .routeScatter .. | .routeCombine .. | .routeStat .. => 4
  | _ => 3

/-- A byte of the scratchpad as a command reads it: a matrix command may read a byte that a copy of its board has written as it was before, as long as
no fence shows it (08 R186). DESIGN CHOICE: log 93. -/
def Cmd.scrByte (c : Cmd) (x : Bent) (a : Nat) : Byte :=
  let seen := x.scratch.get a
  if x.unseen.isEmpty || cmdPath c.instr != 3 then seen
  else ((x.unseen.find? fun u => u.board == c.board && u.addr == a).map (·.old)).getD seen

/-- A byte that a command reads: of the scratchpad, at its home, or as a peer has returned it. DESIGN CHOICE: log 93. -/
def State.cmdByte (s : State) (c : Cmd) (scr : Bool) (a : Nat) : Byte :=
  if scr then ((s.bent? c.bent).map fun x => c.scrByte x a).getD 0
  else match s.cmdAt c a .r with
    | .ok (.loc p) => s.mem.get p
    | .ok (.host p) => s.hostMem.get p
    | .ok (.peer m p) => c.got.get (peerKey m p)
    | .error _ => 0

/-- Bytes that a command reads. -/
def State.cmdBytes (s : State) (c : Cmd) (scr : Bool) (a n : Nat) : List Byte := tab n fun k => s.cmdByte c scr (a + k)

/-- The peer lines among virtual lines: module, peer address, virtual line. -/
def State.peerLines (s : State) (c : Cmd) (acc : Acc) (ls : List Nat) : List (Nat × Nat × Nat) :=
  ls.filterMap fun l => match s.cmdAt c l acc with
    | .ok (.peer m a) => some (m, a, l)
    | _ => none

/-- Requests of a command to peers, one for each line (15 R319). -/
def State.ask (s : State) (c : Cmd) (ordered : Bool) (rs : List (Nat × Nat × Nat × PeerKind)) : State :=
  let s := rs.foldl (fun s r => s.request
    { id := 0, mod := r.1, addr := r.2.1, group := (s.ctxOf c.ctx).podgrp, ctx := c.ctx, board := c.board, cmd := some c.id
      core := if cmdPath c.instr == 4 then none else some c.core, source := c.core / 16, ordered := ordered
      replay := c.again.contains r.2.2.1, kind := r.2.2.2, depth := c.depth, va := r.2.2.1 }) s
  s.modCmd c.id fun c => { c with out := c.out + rs.length }

/-- The reads of a command at peers are ordered, but for those of a CPA through a record with RLX = 1 (07 R138, 15 R323). -/
def Cmd.readsOrdered (c : Cmd) : Bool :=
  match c.instr with
  | .cpa .. => !c.brec.img.getLsbD 113
  | _ => true

/-- The peer lines that a command reads, asked for. -/
def State.askReads (s : State) (c : Cmd) (ls : List Nat) : State :=
  s.ask c c.readsOrdered ((s.peerLines c .r ls).map fun p => (p.1, p.2.1, p.2.2, .read 128))

/-! ### Writing -/

/-- The agent of a command's writes (12 R264, R265). -/
def State.cmdWriter (s : State) (c : Cmd) (kind : BitVec 4) : Writer :=
  { depth := c.depth, storer := ((s.board? c.board).map (·.env.gridid)).getD 0, kind := kind }

/-- A command noted as failed, with a cause and an address. -/
def Cmd.broke (c : Cmd) (f : Nat × Nat) : Cmd := { c with fails := c.fails ++ [(BitVec.ofNat 8 f.1, BitVec.ofNat 64 f.2)] }

/-- The first failure noted. -/
def Cmd.failure (c : Cmd) : Option (Nat × Nat) := c.fails.head?.map fun f => (f.1.toNat, f.2.toNat)

/-- A failure has been noted. -/
def Cmd.failed (c : Cmd) : Bool := !c.fails.isEmpty

/-- Bytes that a copy or route command has written are charged, each 128 or part of 128 of all that it writes once (16 R341): at the level of its bay,
a route command's at that of the frame clock. PRESUMED: log 47. -/
def State.chargeWrite (s : State) (id n : Nat) : State :=
  match s.cmd? id with
  | none => s
  | some c =>
    let k := (c.wrote + n + 127) / 128 - (c.wrote + 127) / 128
    let s := s.modCmd id fun c => { c with wrote := c.wrote + n }
    match cmdPath c.instr with
    | 3 => s
    | 2 => s.charge c.ctx (c.core / 4) 8 k
    | _ => s.chargeAt c.ctx (c.core / 4) (s.frame (c.core / 16)).clk 8 k

/-- The virtual writes of one line, in order: performed at home, or the mask and data for a peer. A line that cannot take them fails (23 R414). -/
def State.cmdLine (s : State) (c : Cmd) (kind : BitVec 4) (l : Nat) (w : List (Nat × Byte)) : State × Option (Nat × Nat × Nat × PeerKind) :=
  let w : List (Nat × Byte) := w.map fun p => (p.1 % 128, p.2)
  match s.cmdAt c l .w with
  | .ok (.peer m a) => (s, some (m, a, l, .write w))
  | .ok t =>
    let bad := match t with
      | .loc a => s.badWrite (w.map fun (p : Nat × Byte) => (a + p.1, p.2))
      | _ => false
    if bad then (s.modCmd c.id fun c => c.broke (0x20, l + (w.map fun (p : Nat × Byte) => p.1).foldl min 127), none)
    else
      (((s.writeTarget (some (s.cmdWriter c kind)) t w).modCmd c.id fun c => { c with sent := l :: c.sent }).chargeWrite c.id w.length, none)
  | .error k => (s.modCmd c.id fun c => c.broke (k, l), none)

/-- A line of a command lies on a peer. -/
def State.farLine (s : State) (c : Cmd) (l : Nat) : Bool :=
  match s.cmdAt c l .w with
  | .ok (.peer _ _) => true
  | _ => false

/-- Bytes written by a command, later ones over earlier ones, to its lines not yet performed (23 R408): those here are performed in ascending order (12
R263), those of peers are asked for in the order of its loops (15 R319). -/
def State.cmdWrite (s : State) (c : Cmd) (kind : BitVec 4) (ordered : Bool) (w : List (Nat × Byte)) : State :=
  let ls := (w.map fun p => p.1 / 128 * 128).eraseDups.filter fun l => !c.sent.contains l
  let r := (ascending (ls.filter fun l => !s.farLine c l) ++ ls.filter (s.farLine c)).foldl
    (fun (r : State × List (Nat × Nat × Nat × PeerKind)) l =>
      let x := r.1.cmdLine c kind l (w.filter fun p => p.1 / 128 * 128 == l)
      (x.1, r.2 ++ x.2.toList)) (s, [])
  r.1.ask c ordered r.2

/-- The bytes of a copy that the matrix engine does not see yet, as it sees them. -/
def State.notYetSeen (s : State) (c : Cmd) (x : Bent) (as : List Nat) : List Unseen :=
  let e := ((s.board? c.board).map (·.copyAcqs)).getD 0
  as.eraseDups.map fun a => { board := c.board, epoch := e, addr := a, old := x.scratch.get a }

/-- Scratchpad bytes written by a command; those of a copy the matrix engine may see later (DESIGN CHOICE, log 93). A word in error that they do not cover is not written, and the command fails (23 R414). -/
def State.scrWrite (s : State) (c : Cmd) (w : List (Nat × Byte)) : State :=
  match s.bent? c.bent with
  | none => s
  | some x =>
    let as := w.map (·.1)
    let bad := halfWords x.badScr as
    let late := if cmdPath c.instr == 2 && Config.chooseBit s.freeCtr then s.notYetSeen c x as else []
    let good := w.filter fun p => !bad.contains (p.1 / 4)
    let s := (s.free.modBent c.bent fun x => { x with
      scratch := x.scratch.writeAll good, badScr := whole x.badScr as
      unseen := late ++ x.unseen.filter fun u => !as.contains u.addr }).chargeWrite c.id good.length
    match as.filter fun a => bad.contains (a / 4) with
    | [] => s
    | a :: t => s.modCmd c.id fun c => c.broke (0x20, t.foldl min a)

/-! ### Arrivals behind data (08 R172) -/

/-- The arrival behind a destination's data: at a gate here it is performed, at a peer it is asked for. -/
def State.engineArrive (s : State) (c : Cmd) (kind : BitVec 4) (n gate : Nat) : State :=
  match s.cmdAt c gate .rw with
  | .ok (.loc a) =>
    if s.badAt a then s.modCmd c.id fun c => c.broke (0x20, gate)
    else (s.gateArrive (some (s.cmdWriter c kind)) a).1.modCmd c.id fun c => { c with arrivals := n :: c.arrivals }
  | .ok (.peer m a) =>
    (s.ask c true [(m, a, gate, .arrive)]).modCmd c.id fun c => { c with arrivals := n :: c.arrivals }
  | .ok (.host _) => s.modCmd c.id fun c => c.broke (0x1D, gate)
  | .error k => s.modCmd c.id fun c => c.broke (k, gate)

/-! ### The end of a command -/

/-- The scribe entries of a command removed (03 R64). -/
def State.unscribe (s : State) (id : Nat) : State :=
  { s with frames := s.frames.map fun f => { f with bays := f.bays.map fun y => { y with cores := y.cores.map fun c =>
      { c with scribe := c.scribe.filter (·.cmd != id) } } } }

/-- A command taken out of its queue, with its pins and scribe entries. -/
def State.takeCmd (s : State) (c : Cmd) : State :=
  ((s.mapCmds fun l => l.filter (·.id != c.id)).unscribe c.id).unpinAll c

/-- A command has completed: its peg falls (03 R61, 08 R163); the record of a frozen board is brought up to date. -/
def State.endCmd (s : State) (c : Cmd) : State :=
  let s := s.takeCmd c
  match s.board? c.board with
  | some b => s.putBoard { b.decPeg c.peg with cmdsOut := b.cmdsOut - 1 }
  | none => s

/-- A command fails: parked with its progress, pins and scribe entries gone, its peg broken (21 R374, 23 R408). -/
def State.failCmd (s : State) (c : Cmd) (cause : Nat) (addr prog : Nat) : State :=
  let s := s.takeCmd c
  match s.board? c.board with
  | none => s
  | some b =>
    let full := 16 ≤ b.parked.length
    let b := b.park { id := c.id, path := cmdPath c.instr, peg := c.peg, cause := BitVec.ofNat 8 cause, insn := insnOf c.instr
                      addr := BitVec.ofNat 64 addr, prog := prog, nind := c.nind }
    let b := { b.breakPeg c.peg with noPeg := b.noPeg || c.peg.isNone, cmdsOut := if full then b.cmdsOut - 1 else b.cmdsOut }
    { s with parkedCmds :=
        s.parkedCmds ++ [{ c with prog := prog, pins := [], out := 0, fails := [], started := false, beyond := full }] }.putBoard b

/-- The engines of a core stand still in a correctable-error freeze (23 R414), and with their bay (26 R449). -/
def State.engineStopped (s : State) (core : Nat) : Bool := 0 < (s.core core).freeze || (s.bay (core / 4)).stopped

/-- What a command follows has been performed, and its reads have returned (07 R156, R157, 10 R237). -/
def State.afterDone (s : State) (c : Cmd) : Bool :=
  match s.board? c.board with
  | some b => b.path.all fun o => !(c.after.contains o.id && o.open) && !c.afterReads.contains o.id
  | none => true

end Sys2Proof.Machine
end

