-- ==== Sys2Proof/Machine/Copy.lean ====
section
/-!
DEFINITION. The copy engine: CPA (08 R167, R168), CPB (R169 to R172), CPR (R173, R174), its acceptance (R165, 03 R64, 23 R408, R410),
its arrivals and its completions.
-/
namespace Sys2Proof.Machine

/-! ### Operands -/

/-- Register `k` of a command's group. -/
def Cmd.reg (c : Cmd) (k : Nat) : Nat := (c.grp.getD k 0).toNat
/-- Register `k` as a signed number. -/
def Cmd.sreg (c : Cmd) (k : Nat) : Int := (c.grp.getD k 0).toInt
/-- The pair at register `k`. -/
def Cmd.pair (c : Cmd) (k : Nat) : Nat := c.reg k + 2 ^ 32 * c.reg (k + 1)

/-- Bytes of a CPA (08 R167). -/
def cpaBytes : CpaWidth → Nat
  | .w4 => 4
  | .w8 => 8
  | .w16 => 16

/-- The source lanes of a CPA (08 R168). -/
def Cmd.cpaLanes (c : Cmd) (w : Nat) : Resolved :=
  resolveGlob c.brec 124 w ((lanesIn c.mask).map fun l => { lane := l, idx := (laneAt c.fv l).toNat, off := 0 })

/-- An address moved by a signed number of bytes. -/
def shiftAddr (a : Nat) (d : Int) : Nat := (BitVec.ofInt 64 ((a : Int) + d)).toNat

/-- The row starts of one side of a CPB, in the order of 08 R171. -/
def rowsOf (base n1 n2 : Nat) (st1 st2 : Int) : List Nat :=
  (List.range n2).flatMap fun (k2 : Nat) => (List.range n1).map fun (k1 : Nat) => shiftAddr base ((k2 : Int) * st2 + (k1 : Int) * st1)

/-- A copy command's shape: bytes of a row, the source rows, and each destination's rows with its gate. -/
structure Shape where
  scrS : Bool := false
  scrD : Bool := false
  len : Nat := 0
  src : List Nat := []
  dst : List (List Nat × Option Nat) := []
  ordered : Bool := true
deriving DecidableEq, Repr

/-- The shape of a CPB (08 R169 to R171); `tab` is the destination list. -/
def Cmd.cpbShape (c : Cmd) (n : BitVec 2) (fl : BitVec 5) (tab : List Byte) : Shape :=
  let n1 := if 2 ≤ n.toNat then c.reg 5 else 1
  let n2 := if n == 3#2 then c.reg 6 else 1
  let d1 := if 2 ≤ n.toNat then c.sreg 9 else 0
  let d2 := if n == 3#2 then c.sreg 10 else 0
  let dest (a : Nat) (g : Option Nat) : List Nat × Option Nat := (rowsOf a n1 n2 d1 d2, if fl.getLsbD 2 then g else none)
  { scrS := fl.getLsbD 0, scrD := fl.getLsbD 1, len := c.reg 4, ordered := !fl.getLsbD 4
    src := rowsOf (c.pair 0) n1 n2 (if 2 ≤ n.toNat then c.sreg 7 else 0) (if n == 3#2 then c.sreg 8 else 0)
    dst := if fl.getLsbD 3 then
        (List.range (c.reg 11 % 32)).map fun e =>
          dest (fieldAt tab (16 * e) 8) (let g := fieldAt tab (16 * e + 8) 8; if g == 0 then none else some g)
      else [dest (c.pair 2) (some (c.pair 12))] }

/-- Bytes of a CPR element (08 R173). -/
def Cmd.cprBytes (f : Fmt) : Nat := f.width / 8

/-- One element of a CPR (08 R174). -/
def cprElem (f : Fmt) (rm : RMode) (sat : Bool) (a b : Nat) : Nat :=
  if f == .s32 then
    let t := (BitVec.ofNat 32 a).toInt + (BitVec.ofNat 32 b).toInt
    (BitVec.ofInt 32 (if sat then (clampInt (-(2 ^ 31)) (2 ^ 31 - 1) t).1 else t)).toNat
  else if f == .f32 then (Fmt.f32.round rm false (Ex.add (rm == .rd) (f.val a) (f.val b))).val.toNat
  else
    let x := (Fmt.f32.round .rn false (Ex.add false (f.val a) (f.val b))).val.toNat
    (f.round rm sat (Fmt.f32.val x)).val.toNat % 2 ^ f.width

/-! ### What a command touches -/

/-- The gates behind the destinations: number and address. -/
def Shape.gates (x : Shape) : List (Nat × Nat) :=
  (List.range x.dst.length).filterMap fun e => ((x.dst.getD e ([], none)).2).map fun g => (e, g)

/-- What a copy command reads, what it writes, and its gates; with causes of its own (23 R404, R405). -/
structure Plan where
  reads : List Touch := []
  writes : List Touch := []
  gates : List (Nat × Nat) := []
  fail : Option (Nat × Nat) := none
deriving DecidableEq, Repr

/-- The first entry that does not have a property. -/
def firstNot (p : Nat → Bool) (l : List Nat) (cause : Nat) : Option (Nat × Nat) := (l.find? fun a => !p a).map fun a => (cause, a)

/-- The plan of a copy command (08 R168, R170, R171, R173). -/
def Cmd.plan (c : Cmd) (tab : List Byte) : Plan :=
  match c.instr with
  | .cpa _ _ _ w _ =>
    let n := cpaBytes w
    let r := c.cpaLanes n
    let ds := (lanesIn c.mask).map fun l => (laneAt c.gv l).toNat
    { reads := r.lanes.map fun a => { addr := a.va, len := n }
      writes := ds.map fun a => { scr := true, addr := a, len := n }
      fail := (r.fail.map fun f => (f.1.toNat, f.2.toNat)) <|> firstNot (· % n == 0) ds 0x14 }
  | .cpb _ n fl _ =>
    let x := c.cpbShape n fl tab
    { reads := x.src.map fun a => { scr := x.scrS, addr := a, len := x.len }
      writes := x.dst.flatMap fun d => d.1.map fun a => { scr := x.scrD, addr := a, len := x.len }
      gates := x.gates
      fail := firstNot (· % 16 == 0) (x.gates.map (·.2)) 0x14 }
  | .cpr _ f fl _ =>
    let n := Cmd.cprBytes f
    let t (k bit : Nat) : Touch := { scr := fl.getLsbD bit, addr := c.pair k, len := n * c.reg 6 }
    let g := if fl.getLsbD 3 then [(0, c.pair 8)] else []
    { reads := [t 0 4, t 2 5], writes := [t 4 6], gates := g
      fail := firstNot (· % n == 0) [c.pair 0, c.pair 2, c.pair 4] 0x14 <|> firstNot (· % 16 == 0) (g.map (·.2)) 0x14 }
  | _ => {}

/-- The bounding interval of touched intervals: lowest byte and the byte after the highest. -/
def boundOf (ts : List Touch) : Option (Nat × Nat) :=
  match ts with
  | [] => none
  | t :: _ => some (ts.foldl (fun a x => min a x.addr) t.addr, ts.foldl (fun a x => max a (x.addr + x.len)) (t.addr + t.len))

/-- The lowest byte that two bounding intervals share. -/
def boundsMeet (a b : Option (Nat × Nat)) : Option Nat :=
  match a, b with
  | some x, some y => if x.1 < y.2 && y.1 < x.2 then some (max x.1 y.1) else none
  | _, _ => none

/-- The first overlap of operands, CAUSE 0x21, by its lowest byte (23 R410). DEDUCED: log 32. -/
def Cmd.overlaps (c : Cmd) (tab : List Byte) : Option Nat :=
  let p := c.plan tab
  match c.instr with
  | .cpb _ n fl _ =>
    let x := c.cpbShape n fl tab
    if x.scrS != x.scrD then none
    else x.dst.findSome? fun d => boundsMeet (boundOf p.reads) (boundOf (d.1.map fun a => { scr := x.scrD, addr := a, len := x.len }))
  | .cpr _ _ _ _ =>
    p.writes.findSome? fun d => p.reads.findSome? fun r =>
      if r.scr == d.scr && r.addr != d.addr then boundsMeet (boundOf [d]) (boundOf [r]) else none
  | _ => none

/-- The failure of the lowest line of a copy's source (23 R404, R406); those of a CPA lie in one window, that of the lowest line that translates
(07 R138, DEDUCED, log 26). -/
def State.sourceFail (s : State) (c : Cmd) (ls : List Nat) : Option (Nat × Nat) :=
  match c.instr with
  | .cpa _ _ _ _ _ =>
    let w (l : Nat) : Option Nat := match s.translate c.ctx l .r with
      | .ok t => some t.window
      | .error _ => none
    let first := ls.findSome? w
    ls.findSome? fun l => s.lineFail c .r [l] <|> (if w l == first then none else some (0x17, l))
  | _ => s.lineFail c .r ls

/-- A whole line of memory is not written: it must have good check bits (23 R414). -/
def State.partFail (s : State) (c : Cmd) (ts : List Touch) : Option (Nat × Nat) :=
  (ts.filter (!·.scr)).findSome? fun t => t.lines.findSome? fun l =>
    if t.addr ≤ l && l + 128 ≤ t.addr + t.len then none
    else match s.translate c.ctx l .w with
      | .ok (.loc a) => if s.badAt a then some (0x20, l) else none
      | _ => none

/-- The first scratchpad byte that intervals write whose word has an uncorrectable error and is not covered by its interval (23 R414). -/
def State.scrHalf (s : State) (c : Cmd) (ts : List Touch) : Option (Nat × Nat) :=
  match (s.bent? c.bent).map (·.badScr) with
  | none | some [] => none
  | some ws => (ts.filter (·.scr)).findSome? fun t =>
      (ws.find? fun w => 4 * w < t.addr + t.len && t.addr < 4 * w + 4 && !(t.addr ≤ 4 * w && 4 * w + 4 ≤ t.addr + t.len)).map fun w =>
        (0x20, max t.addr (4 * w))

/-- The destination list of a multicast copy: its address and length (08 R170). -/
def Cmd.list (c : Cmd) : Option (Nat × Nat) :=
  match c.instr with
  | .cpb _ _ fl _ => if fl.getLsbD 3 then some (c.pair 12, 16 * (c.reg 11 % 32)) else none
  | _ => none

/-- The lines of the list. -/
def Cmd.listLines (c : Cmd) : List Nat := (c.list.map fun l => linesOfTouches [{ addr := l.1, len := l.2 }]).getD []

/-- The failure of reading the list: CAUSE 0x14 for an address that is no multiple of 16 (23 R404). -/
def State.listFail (s : State) (c : Cmd) : Option (Nat × Nat) :=
  match c.list with
  | none => none
  | some l => if l.1 % 16 != 0 then some (0x14, l.1) else s.touchFail c .r [{ addr := l.1, len := l.2 }]

/-- The failure of a plan at acceptance (23 R408): own causes, ranges, translations, overlap, in this order (DEDUCED, log 32). -/
def State.planFail (s : State) (c : Cmd) (tab : List Byte) : Option (Nat × Nat) :=
  let p := c.plan tab
  p.fail <|> s.scrFail c (p.reads ++ p.writes)
  <|> (s.sourceFail c (linesOfTouches p.reads)).map (exact p.reads)
  <|> (s.lineFail c .w (linesOfTouches p.writes)).map (exact p.writes)
  <|> s.lineFail c .rw (p.gates.map (·.2))
  <|> (c.overlaps tab).map fun a => (0x21, a)

/-! ### The scribe table (03 R64) -/

/-- The cores whose tables hold an entry for scratchpad bytes (03 R64): a split bent's other half has its own core. -/
def State.scribeCores (s : State) (c : Cmd) (scr : Bool) (lo hi : Nat) : List Nat :=
  match (s.bent? c.bent).map (·.cores) with
  | some [x, y] =>
    if !scr then [c.core]
    else
      let h := ((s.scrOf c + 1) / 2 + 4095) / 4096 * 4096
      [x, y].filter fun k => k == c.core || (if k == x then lo < h else h < hi)
  | _ => [c.core]

/-- A command's entry: its space and the interval from its lowest to its highest destination byte; all the context's addresses while the list
that names them is unread. DESIGN CHOICE: log 99. -/
def Cmd.entry (c : Cmd) : Scribe :=
  let ws := (c.plan c.tab).writes
  let r := if c.list.isSome && (c.listed == .no || c.listed == .asked) then (0, 2 ^ 64) else (boundOf ws).getD (1, 0)
  { cmd := c.id, ctx := c.ctx, bent := if ws.any (·.scr) then some c.bent else none, lo := r.1, hi := r.2 }

/-- The command's entry put into the tables that hold it, in place of one that it has. -/
def State.inscribe (s : State) (c : Cmd) : State :=
  let e := c.entry
  (s.scribeCores c e.bent.isSome e.lo e.hi).foldl (fun s k => s.modCore k fun x => { x with scribe := x.scribe ++ [e] }) (s.unscribe c.id)

/-- A command has its entry. -/
def State.inscribed (s : State) (c : Cmd) : Bool := (s.core c.core).scribe.any (·.cmd == c.id)

/-- Every table that the command needs has room for its entry (03 R65). -/
def State.scribeFits (s : State) (c : Cmd) : Bool :=
  let e := c.entry
  (s.scribeCores c e.bent.isSome e.lo e.hi).all fun k => (s.core k).scribe.length < 32

/-! ### Starting and writing -/

/-- The commands accepted before have started, or failed (08 R165), and what the command follows has been performed (10 R237). -/
def State.copyTurn (s : State) (c : Cmd) : Bool :=
  ((s.core c.core).cq.takeWhile (·.id != c.id)).all (fun x => x.started || x.failed) && s.afterDone c

/-- The list read, once, as soon as what the command follows has been performed (08 R170, 10 R237): a peer's part is asked for first. Its entry then
names the destinations. -/
def State.readList (s : State) (c : Cmd) (at_ len : Nat) : State :=
  match c.listed with
  | .no =>
    if !s.afterDone c || s.noEntry c.core then s
    else match s.listFail c with
      | some f => s.modCmd c.id fun c => c.broke f
      | none => (s.modCmd c.id fun c => { c with listed := .asked }).askReads c c.listLines
  | _ =>
    if c.out != 0 then s
    else match s.dataBad c [{ addr := at_, len := len }] with
      | some f => s.modCmd c.id fun c => c.broke f
      | none =>
        let c := { c with listed := .read, tab := s.cmdBytes c false at_ len }
        (s.modCmd c.id fun _ => c).inscribe c

/-- A command judged, and every page that it touches translated, once, when it is accepted (08 R165, 14 R297, 23 R408). -/
def State.judgeCopy (s : State) (c : Cmd) : State :=
  match s.planFail c c.tab with
  | some f => s.modCmd c.id fun c => c.broke f
  | none =>
    let p := c.plan c.tab
    let ls := c.listLines ++ linesOfTouches p.reads ++ linesOfTouches p.writes ++ p.gates.map (·.2)
    let ps := s.mapOf c ls
    s.modCmd c.id fun c => { c with listed := .rest, pages := ps }

/-- The local pages among a command's pages. -/
def Cmd.localPages (c : Cmd) : List (Nat × Nat) :=
  c.pages.filterMap fun p => match p.tgt with
    | .loc _ => some (p.base, p.size)
    | _ => none

/-- The lines of a CPR's operands in the order of its elements: those of A before those of B for one element. -/
def cprLines (n : Nat) (ts : List Touch) : List Nat :=
  let mark (k : Nat) (t : Touch) : List (Nat × Nat × Nat) := if t.scr then [] else t.lines.map fun l => ((l - t.addr) / n, k, l)
  let l := (List.range ts.length).flatMap fun k => mark k (ts.getD k { addr := 0, len := 0 })
  ((inOrder (fun x y => decide (x.1 < y.1 ∨ (x.1 = y.1 ∧ x.2.1 ≤ y.2.1))) l).map (·.2.2)).eraseDups

/-- The source lines of a copy command in the order of its requests: ascending for CPA (08 R168), else the order of its loops (15 R319). -/
def Cmd.sourceLines (c : Cmd) : List Nat :=
  let p := c.plan c.tab
  match c.instr with
  | .cpa .. => linesOfTouches p.reads
  | .cpr _ f _ _ => cprLines (Cmd.cprBytes f) p.reads
  | _ => loopLines p.reads

/-- A stage of a copy command's beginning (08 R165): its entry of the scribe tables; its list; its translation; its pins, for which it waits inside the
engine, and takes them as they fit, whether or not an earlier command still waits (DESIGN CHOICE, log 119); and its start, in the order of acceptance,
when peers are asked for source lines. A replayed command that finds no free entry of the scribe
tables waits in the engine and holds no partition (03 R65 speaks of first acceptance only). DESIGN CHOICE: log 112. -/
def State.startCopy (s : State) (c : Cmd) : State :=
  if c.started || c.failed then s
  else if !s.inscribed c then (if s.scribeFits c then s.inscribe c else s)
  else match c.listed, c.list with
    | .no, some l | .asked, some l => s.readList c l.1 l.2
    | .rest, _ =>
      let ps := c.localPages
      if s.pinsFit (c.core / 16) c.ctx ps then (s.pinAll c ps).modCmd c.id fun c => { c with listed := .done, pins := ps } else s
    | .done, _ =>
      if !s.copyTurn c || s.noEntry c.core then s
      else (s.modCmd c.id fun c => { c with started := true }).askReads c c.sourceLines
    | _, _ => s.judgeCopy c

/-- `n` stages of a copy command's beginning: entry, list, start. -/
def State.beginCopy (s : State) (id : Nat) : Nat → State
  | 0 => s
  | n + 1 => match s.cmd? id with
    | some c => (s.startCopy c).beginCopy id n
    | none => s

/-- The bytes that a copy command writes, in the order of 08 R171, later ones standing (08 R168, R174). -/
def State.copyData (s : State) (c : Cmd) : List (Nat × Byte) :=
  match c.instr with
  | .cpa _ _ _ w _ =>
    let n := cpaBytes w
    let r := c.cpaLanes n
    (lanesIn c.mask).flatMap fun l =>
      let a := (laneAt c.gv l).toNat
      match r.lanes.find? (·.lane == l) with
      | some x => bytesAt a (s.cmdBytes c false x.va n)
      | none => bytesAt a (List.replicate n 0)
  | .cpb _ n fl _ =>
    let x := c.cpbShape n fl c.tab
    x.dst.flatMap fun d => (d.1.zip x.src).flatMap fun p => bytesAt p.1 (s.cmdBytes c x.scrS p.2 x.len)
  | .cpr _ f fl _ =>
    let n := Cmd.cprBytes f
    let rm := (RMode.dec (fl.extractLsb' 0 2))
    (List.range (c.reg 6)).flatMap fun k =>
      let a := leNat (s.cmdBytes c (fl.getLsbD 4) (c.pair 0 + n * k) n)
      let b := leNat (s.cmdBytes c (fl.getLsbD 5) (c.pair 2 + n * k) n)
      bytesAt (c.pair 4 + n * k) (leBytes n (cprElem f rm (fl.getLsbD 2) a b))
  | _ => []

/-- The command writes to the scratchpad. -/
def Cmd.toScr (c : Cmd) : Bool := (c.plan c.tab).writes.any (·.scr)

/-- Peers receive ordered traffic (08 R169). -/
def Cmd.ordered (c : Cmd) : Bool :=
  match c.instr with
  | .cpb _ _ fl _ => !fl.getLsbD 4
  | _ => true

/-- A started command's bytes handed to their homes, once; data that cannot be read is not written (23 R414). DESIGN CHOICE: log 14. -/
def State.writeCopy (s : State) (c : Cmd) : State :=
  if c.written then s
  else match s.dataBad c (c.plan c.tab).reads with
    | some f => s.modCmd c.id fun c => c.broke f
    | none =>
      let w := s.copyData c
      let s := s.modCmd c.id fun c => { c with written := true }
      if c.toScr then s.scrWrite c w else s.cmdWrite c 1 c.ordered w

/-- Some of what the command writes cannot be performed here and now: a peer's lines, or what fails (23 R414). -/
def State.writesFar (s : State) (c : Cmd) : Bool :=
  let ws := (c.plan c.tab).writes
  !(s.peerLines c .w (linesOfTouches ws)).isEmpty || (s.partFail c ws).isSome || (s.scrBad c ws).isSome

/-- A copy command as far as it gets without a step of its own: it begins, and hands its bytes over when they are not all performed at once. -/
def State.advanceCopy (s : State) (id : Nat) : State :=
  let s := s.beginCopy id 6
  match s.cmd? id with
  | none => s
  | some c =>
    if c.started && c.out == 0 && !c.written && !c.failed && !s.noEntry c.core && s.writesFar c then s.writeCopy c else s

/-- The copy command of a core, started, with its sources read, and its bytes handed over. -/
def State.readyCopy (s : State) (core cmd : Nat) : Option (State × Cmd) := do
  let c ← (s.core core).cq.find? (·.id == cmd)
  if s.engineStopped core || !c.started || (!c.written && (c.failed || c.out != 0 || s.noEntry core)) then none
  else
    let s := s.writeCopy c
    let c ← s.cmd? cmd
    if c.written then some (s, c) else none

/-- Every byte of a destination has been performed at its home (08 R172). -/
def State.destDone (s : State) (c : Cmd) (dest : Nat) : Bool :=
  let ws := match c.instr with
    | .cpb _ n fl _ =>
      let x := c.cpbShape n fl c.tab
      ((x.dst.getD dest ([], none)).1).map fun a => ({ scr := x.scrD, addr := a, len := x.len } : Touch)
    | _ => (c.plan c.tab).writes
  c.written && (linesOfTouches ws).all c.sent.contains && (s.scrBad c ws).isNone

/-- The arrival behind a destination's data may be made: it is not made yet, and has not failed (08 R172, 23 R408). -/
def State.mayArriveAt (s : State) (c : Cmd) (g : Nat × Nat) : Bool :=
  !c.arrivals.contains g.1 && !(c.fails.any fun f => f.2.toNat == g.2) && s.destDone c g.1

/-- The failure of a copy command, found at acceptance, as it reads, or answered by a peer, once nothing is outstanding and each destination that has
all its bytes has had its arrival (23 R408). -/
def State.copyFailure (s : State) (c : Cmd) : Option (Nat × Nat) :=
  if c.out != 0 || (c.plan c.tab).gates.any (s.mayArriveAt c) then none
  else c.failure <|> (if c.started && !c.written then s.dataBad c (c.plan c.tab).reads else none)

/-- CPB_GATE_ARRIVAL: the arrival behind one destination's bytes, for CPB and CPR (08 R172). -/
def execCpbGateArrival (core cmd dest : Nat) (s : State) : Out :=
  event "CPB_GATE_ARRIVAL" do
    let (s, c) ← s.readyCopy core cmd
    let g ← (c.plan c.tab).gates.find? (·.1 == dest)
    if s.mayArriveAt c g && !s.noEntry core then some (s.engineArrive c 1 dest g.2) else none

/-- COPY_COMMAND_COMPLETE: every destination byte performed and every arrival made (08 R165, R168, R172, R174). -/
def execCopyCommandComplete (core cmd : Nat) (s : State) : Out :=
  event "COPY_COMMAND_COMPLETE" do
    let (s, c) ← s.readyCopy core cmd
    if c.out == 0 && !c.failed && (c.plan c.tab).gates.all fun g => c.arrivals.contains g.1 then some (s.endCmd c) else none

/-! ### The instructions -/

/-- A copy command accepted by the engine of the issuing core (08 R163), with its scribe entry (03 R64). -/
def State.copyCmd (s : State) (b : Board) (c : Cmd) : State :=
  s.enqueue b c fun s => (s.modCore c.core fun x => { x with cq := x.cq ++ [c], cTaken := true }).inscribe c

/-- CPA (08 R167). -/
def execCpa (f g : Opd) (br : BitVec 5) (w : CpaWidth) (peg : Option (BitVec 3)) (s : State) : Out :=
  onBoard s (.cpa f g br w peg) fun b =>
    s.copyCmd b { s.cmdOf b (.cpa f g br w peg) b.core .copy with
      fv := b.lanesVal s.cur.slotB f, gv := b.lanesVal s.cur.slotB g, brec := b.brec br.toNat }

/-- CPB (08 R169). -/
def execCpb (u : BitVec 9) (n : BitVec 2) (fl : BitVec 5) (peg : Option (BitVec 3)) (s : State) : Out :=
  onBoard s (.cpb u n fl peg) fun b =>
    s.copyCmd b { s.cmdOf b (.cpb u n fl peg) b.core .copy with grp := b.group u.toNat 14 }

/-- CPR (08 R173). -/
def execCpr (u : BitVec 9) (f : Fmt) (fl : BitVec 7) (peg : Option (BitVec 3)) (s : State) : Out :=
  onBoard s (.cpr u f fl peg) fun b =>
    s.copyCmd b { s.cmdOf b (.cpr u f fl peg) b.core .copy with grp := b.group u.toNat 10 }

end Sys2Proof.Machine
end

