-- ==== Sys2Proof/Machine/Matrix.lean ====
section
/-!
DEFINITION. The matrix engine: steps (08 R175 to R180, 04 R79 to R85), accumulator commands (08 R181, R182), the metadata pointer
(R183), codebook tables (R184), and failures with row progress (23 R408, R409).
-/
namespace Sys2Proof.Machine

/-! ### A step's operands -/

/-- A matrix step as its format word and form give it (08 R176, R177). -/
structure Step where
  sparse : Bool
  fw : Nat
deriving DecidableEq, Repr

/-- Format code of A. -/
def Step.af (p : Step) : Nat := bits p.fw 0 4
/-- Format code of B. -/
def Step.bf (p : Step) : Nat := bits p.fw 4 4
/-- Logical positions of a row (08 R177). -/
def Step.k (p : Step) : Nat := mmaK p.af p.sparse
/-- Blocks of a row (08 R178). -/
def Step.nb (p : Step) : Nat := (p.k + 31) / 32
/-- A's scales apply. -/
def Step.aScaled (p : Step) : Bool := scaled p.af (p.fw.testBit 8)
/-- B's scales apply. -/
def Step.bScaled (p : Step) : Bool := scaled p.bf (p.fw.testBit 8)
/-- A is in the scratchpad. -/
def Step.asp (p : Step) : Bool := p.fw.testBit 10
/-- B is in the scratchpad. -/
def Step.bsp (p : Step) : Bool := p.fw.testBit 11
/-- Bytes of an A row (08 R178). -/
def Step.aLen (p : Step) : Nat := if p.sparse then 192 else 96
/-- Bytes of a B row: the indices of a codebook row, else 96 (08 R178). -/
def Step.bLen (p : Step) : Nat := if p.bf == 8 then p.k / 4 else 96

/-- The step of a command; none for another command. -/
def Cmd.step? (c : Cmd) : Option Step :=
  match c.instr with
  | .mma .. => some ⟨false, (laneAt c.fv 0).toNat⟩
  | .mmas .. => some ⟨true, (laneAt c.fv 0).toNat⟩
  | _ => none

/-- A row of A, and its scales (08 R178). -/
def Cmd.aRow (c : Cmd) (p : Step) (i : Nat) : List Touch :=
  { scr := p.asp, addr := (c.pair 0 + i * c.reg 4) % 2 ^ 64, len := p.aLen : Touch }
  :: if p.aScaled then [{ scr := p.asp, addr := (c.pair 6 + i * p.nb) % 2 ^ 64, len := p.nb }] else []

/-- A row of B. -/
def Cmd.bRow (c : Cmd) (p : Step) (j : Nat) : Touch :=
  { scr := p.bsp, addr := (c.pair 2 + j * c.reg 5) % 2 ^ 64, len := p.bLen }

/-- The scales of a row of B. -/
def Cmd.bScale (c : Cmd) (p : Step) (j : Nat) : Touch :=
  { scr := p.bsp, addr := (c.pair 8 + j * p.nb) % 2 ^ 64, len := p.nb }

/-- The metadata of B row `j` (08 R180). -/
def Cmd.meta (c : Cmd) (p : Step) (j : Nat) : Touch := { addr := (c.mpc.toNat + j * (p.k / 8)) % 2 ^ 64, len := p.k / 8 }

/-- What a step reads before row 0: B, its scales, the metadata record (08 R179). -/
def Cmd.bAll (c : Cmd) (p : Step) : List Touch :=
  (List.range 128).map (c.bRow p)
  ++ (if p.bScaled then (List.range 128).map (c.bScale p) else [])
  ++ (if p.sparse then (List.range 128).map (c.meta p) else [])

/-! ### Element values -/

/-- Element `k` of a row in a format (04 R79, 08 R178). -/
def elemOf (f : Fmt) (row : List Byte) (k : Nat) : Ex :=
  match f with
  | .e2m1 => f.val (bits (fieldAt row (k / 2) 1) (4 * (k % 2)) 4)
  | .f16 | .bf16 => f.val (fieldAt row (2 * k) 2)
  | _ => f.val (fieldAt row k 1)

/-- Weight `k` of a codebook row, without its scale (04 R80 to R82). -/
def cb2Of (ta tb : List Word) (row : List Byte) (k : Nat) : Ex :=
  let idx := fieldAt row (2 * (k / 8)) 2
  let j := k % 8
  let mag := bits ((if idx.testBit 15 then tb else ta).getD (idx % 256) 0).toNat (3 * j) 3
  let neg := if j < 7 then idx.testBit (8 + j) else popCount 7 (bits idx 8 7) % 2 == 1
  Fmt.e2m1.val (mag + if neg then 8 else 0)

/-- Element `k` of a row under a format code. -/
def codeElem (ta tb : List Word) (code : Nat) (row : List Byte) (k : Nat) : Ex :=
  if code == 8 then cb2Of ta tb row k
  else match Fmt.dec (BitVec.ofNat 4 code) with
    | some f => elemOf f row k
    | none => .num false 0 0

/-- Group `g` of a row's metadata: p0 and p1 (08 R180). -/
def metaGroup (m : List Byte) (g : Nat) : Nat × Nat :=
  let n := bits (fieldAt m (g / 2) 1) (4 * (g % 2)) 4
  (n % 4, n / 4)

/-- The kept element that stands at logical position `k` of a sparse row, none where the pattern marks it absent (08 R180). -/
def keptAt (m : List Byte) (k : Nat) : Option Nat :=
  let g := metaGroup m (k / 4)
  if k % 4 == g.1 then some (2 * (k / 4)) else if k % 4 == g.2 then some (2 * (k / 4) + 1) else none

/-- The exact sum of one block's products; absent positions take no part (04 R83, R84). -/
def blockSum (a : Nat → Ex) (b : Nat → Option Ex) (lo n : Nat) : Ex :=
  (List.range n).foldl (fun t k => match b (lo + k) with
    | some y => t.add false ((a (lo + k)).mul y)
    | none => t) (.num false 0 0)

/-- T of a block: scaled and rounded; an exact zero gives +0 (04 R83, R84). -/
def blockT (x : Ex) (sa sb : Ex) : Ex :=
  match (x.mul sa).mul sb with
  | .num _ 0 _ => .num false 0 0
  | y => Fmt.f32.val (Fmt.f32.round .rn false y).val.toNat

/-- A float element after a step (04 R83). -/
def floatAcc (p : Step) (a : Nat → Ex) (b : Nat → Option Ex) (sa sb : Nat → Ex) (acc : Nat) : Nat :=
  (List.range p.nb).foldl (fun acc c =>
    let t := blockT (blockSum a b (32 * c) (min 32 (p.k - 32 * c))) (sa c) (sb c)
    (Fmt.f32.round .rn false ((Fmt.f32.val acc).add false t)).val.toNat) acc

/-- The integer of an exact value that is one. -/
def exToInt : Ex → Int
  | .num n m e => sgn n m * 2 ^ e.toNat
  | _ => 0

/-- An integer element after a step (04 R85). -/
def intAcc (p : Step) (a : Nat → Ex) (b : Nat → Option Ex) (acc : Nat) : Nat :=
  let t := (BitVec.ofNat 32 acc).toInt + exToInt (blockSum a b 0 p.k)
  (BitVec.ofInt 32 (if p.fw.testBit 9 then (clampInt (-(2 ^ 31)) (2 ^ 31 - 1) t).1 else t)).toNat

/-- A scale byte (04 R79), 1 where none applies. -/
def scaleOf (on : Bool) (l : List Byte) (c : Nat) : Ex := if on then Fmt.e8m0.val (fieldAt l c 1) else .num false 1 0

/-! ### Tiles -/

/-- Address of element (i, j) of a tile in the bent's accumulator memory (01 R9). -/
def tileAt (t i j : Nat) : Nat := 65536 * t + 512 * i + 4 * j

/-- An element of a tile. -/
def State.tileElem (s : State) (c : Cmd) (t i j : Nat) : Nat := ((s.bent? c.bent).map fun x => x.tiles.num (tileAt t i j) 4).getD 0

/-- A row of a tile written, element by element. -/
def State.putRow (s : State) (c : Cmd) (t i : Nat) (f : Nat → Option Nat) : State :=
  s.modBent c.bent fun x =>
    { x with
      tiles := (List.range 128).foldl (fun m j => match f j with
        | some v => m.write (tileAt t i j) (leBytes 4 v)
        | none => m) x.tiles
      badTiles := x.badTiles.filter fun w => !((List.range 128).any fun j => tileAt t i j / 4 == w && (f j).isSome) }

/-- A row of a tile has an uncorrectable error (23 R415). -/
def State.tileBad (s : State) (c : Cmd) (t i : Nat) : Bool :=
  match (s.bent? c.bent).map (·.badTiles) with
  | some (w :: ws) => (w :: ws).any fun w => tileAt t i 0 / 4 ≤ w && w < tileAt t i 0 / 4 + 128
  | _ => false

/-- The bytes of a touched interval. -/
def State.touchBytes (s : State) (c : Cmd) (t : Touch) : List Byte := s.cmdBytes c t.scr t.addr t.len

/-- The metadata record as it stands when the step starts (08 R180); what lies at a peer is asked for then. -/
def State.readMeta (s : State) (c : Cmd) : List Byte :=
  match c.step? with
  | some p => if p.sparse then s.cmdBytes c false c.mpc.toNat (16 * p.k) else []
  | none => []

/-- The metadata of B row `j` as the command has read it, once (08 R180). -/
def State.metaRow (s : State) (c : Cmd) (p : Step) (j : Nat) : List Byte :=
  tab (p.k / 8) fun i => match s.cmdAt c ((c.meta p j).addr + i) .r with
    | .ok (.peer m a) => c.got.get (peerKey m a)
    | _ => c.tab.getD (j * (p.k / 8) + i) 0

/-- Row `i` of the tile updated from A row `i` and all of B (08 R179). -/
def State.stepRow (s : State) (c : Cmd) (p : Step) (t i : Nat) : State :=
  let x := s.ctxOf c.ctx
  let rows := c.aRow p i
  let arow := s.touchBytes c (rows.headD { addr := 0, len := 0 })
  let ascl := s.touchBytes c (rows.getD 1 { addr := 0, len := 0 })
  let a := codeElem x.tabA x.tabB p.af arow
  s.putRow c t i fun j =>
    let brow := s.touchBytes c (c.bRow p j)
    let bscl := if p.bScaled then s.touchBytes c (c.bScale p j) else []
    let md := if p.sparse then s.metaRow c p j else []
    let elem := codeElem x.tabA x.tabB p.bf brow
    let b (k : Nat) : Option Ex := if p.sparse then (keptAt md k).map elem else some (elem k)
    some (if p.af == 6 then intAcc p a b (s.tileElem c t i j)
      else floatAcc p a b (scaleOf p.aScaled ascl) (scaleOf p.bScaled bscl) (s.tileElem c t i j))

/-! ### Rows of the commands that stream -/

/-- Address alignment of a command (08 R178, R182, R184): the first failing one, CAUSE 0x14 (DEDUCED, log 33). -/
def Cmd.misaligned (c : Cmd) : Option (Nat × Nat) :=
  match c.instr with
  | .mma .. | .mmas .. =>
    if c.pair 0 % 4 != 0 || c.reg 4 % 4 != 0 then some (0x14, c.pair 0)
    else if c.pair 2 % 4 != 0 || c.reg 5 % 4 != 0 then some (0x14, c.pair 2) else none
  | .accLd .. | .accSt .. => if c.reg 2 % 4 != 0 then some (0x14, c.pair 0) else none
  | .cbtLd .. => if c.pair 0 % 64 != 0 then some (0x14, c.pair 0) else none
  | _ => none

/-- CTL of ACC.LD and ACC.ST (08 R182). -/
def Cmd.ctl (c : Cmd) : Nat := c.reg 3

/-- Bytes of an element of ACC.LD and ACC.ST. -/
def Cmd.accBytes (c : Cmd) : Nat := if bits c.ctl 0 4 == 0 then 4 else 2

/-- Row `i` of ACC.LD and ACC.ST in memory. -/
def Cmd.accRow (c : Cmd) (i : Nat) : Touch :=
  { scr := c.ctl.testBit 8, addr := (c.pair 0 + i * c.reg 2) % 2 ^ 64, len := 128 * c.accBytes }

/-- What a command reads ahead of its rows. -/
def Cmd.ahead (c : Cmd) : List Touch :=
  match c.instr with
  | .cbtLd .. => [{ addr := c.pair 0, len := 1024 }]
  | _ => match c.step? with
    | some p => c.bAll p
    | none => []

/-- What a command touches at row `i`, and whether it writes it. -/
def Cmd.rowTouch (c : Cmd) (i : Nat) : List Touch × Acc :=
  match c.instr with
  | .accLd .. => ([c.accRow i], .r)
  | .accSt .. => ([c.accRow i], .w)
  | _ => match c.step? with
    | some p => (c.aRow p i, .r)
    | none => ([], .r)

/-- The first failing interval of several, in order. -/
def State.firstTouch (s : State) (c : Cmd) (acc : Acc) (ts : List Touch) : Option (Nat × Nat) :=
  ts.findSome? fun t => s.touchFail c acc [t]

/-- Lowest byte of a metadata record with p0 ≥ p1 in a group: CAUSE 0x01 (22 R390). -/
def State.badMeta (s : State) (c : Cmd) (p : Step) : Option (Nat × Nat) :=
  if !p.sparse then none
  else (List.range 128).findSome? fun j =>
    let md := s.metaRow c p j
    ((List.range (p.k / 4)).find? fun g => let x := metaGroup md g; x.2 ≤ x.1).map fun g => (1, (c.meta p j).addr + g / 2)

/-- The lowest word of a codebook table with bits [31:24] nonzero: CAUSE 0x02 (22 R390). -/
def State.badTable (s : State) (c : Cmd) : Option (Nat × Nat) :=
  match c.instr with
  | .cbtLd .. => ((List.range 256).find? fun n => leNat (s.cmdBytes c false (c.pair 0 + 4 * n) 4) >>> 24 != 0).map fun n => (2, c.pair 0 + 4 * n)
  | _ => none

/-- The row that ACC.RDV and ACC.WRV name (08 R181). -/
def Cmd.rowSel (c : Cmd) : Nat := (laneAt c.gv 0).toNat % 128

/-- A tile row that a command reads is in error: CAUSE 0x20 (23 R415). DEDUCED: log 106. -/
def State.rowBad (s : State) (c : Cmd) (i : Nat) : Option (Nat × Nat) :=
  match c.instr, tileOf c.instr with
  | .mma .., some t | .mmas .., some t | .accSt .., some t | .accRdv .., some t => if s.tileBad c t i then some (0x20, 0) else none
  | _, _ => none

/-- A command is deferred: one of its board on the same tile has failed before it (23 R409). -/
def State.deferred (s : State) (c : Cmd) : Bool :=
  s.parkedCmds.any fun x => x.board == c.board && x.id < c.id && cmdPath x.instr == 3 && (tileOf x.instr).isSome
    && tileOf x.instr == tileOf c.instr

/-- The failure of a command ahead of its rows: alignment, memory, contents. -/
def State.aheadFail (s : State) (c : Cmd) : Option (Nat × Nat) :=
  c.misaligned <|> s.firstTouch c .r c.ahead
    <|> (match c.step? with
      | some p => s.badMeta c p
      | none => s.badTable c)
    <|> (match c.instr with
      | .accRdv .. => s.rowBad c c.rowSel
      | _ => none)

/-- The first line of intervals that a peer has answered with a failure. -/
def peerFailAt (ts : List Touch) (c : Cmd) : Option (Nat × Nat) :=
  if c.fails.isEmpty then none
  else (linesOfTouches ts).findSome? fun l => (c.fails.find? fun f => f.2.toNat / 128 == l / 128).map fun f => (f.1.toNat, f.2.toNat)

/-- The failure of row `i`: of its lines, or of the tile's row. -/
def State.rowFail (s : State) (c : Cmd) (i : Nat) : Option (Nat × Nat) :=
  let t := c.rowTouch i
  peerFailAt t.1 c <|> s.firstTouch c t.2 t.1 <|> (if t.2 == .w then s.partFail c t.1 <|> s.scrHalf c t.1 else none) <|> s.rowBad c i

/-- Rows that the command still has to do: a command without rows has none. -/
def Cmd.rowsLeft (c : Cmd) : List Nat :=
  match c.instr with
  | .mma .. | .mmas .. | .accLd .. | .accSt .. => (List.range 128).drop c.prog
  | _ => []

/-- A command without its lines of indeterminate outcome, which count as performed (26 R442). -/
def Cmd.sure (c : Cmd) : Cmd := { c with fails := c.fails.filter fun f => !c.unsure.contains (f.2.toNat / 128 * 128) }

/-- The first failure of a command, and the rows done: those before it, and of ACC.ST those on whose lines nothing is left to write (26 R442). A deferred
command fails without starting (23 R409). -/
def State.streamFail (s : State) (c : Cmd) : Option (Nat × Nat × Nat) :=
  if s.deferred c then some (0x22, 0, 0)
  else match peerFailAt c.ahead c <|> s.aheadFail c with
    | some f => some (f.1, f.2, c.prog)
    | none => (c.rowsLeft.findSome? (s.rowFail c)).map fun f =>
      (f.1, f.2, (c.rowsLeft.find? fun i => (s.rowFail c.sure i).isSome).getD 128)

/-! ### Effects -/

/-- The bytes that ACC.ST writes for a row (08 R182). -/
def State.accStRow (s : State) (c : Cmd) (t i : Nat) : List (Nat × Byte) :=
  let fmt := bits c.ctl 0 4
  let row := (List.range 128).flatMap fun j =>
    let x := s.tileElem c t i j
    if fmt == 0 then leBytes 4 x
    else match Fmt.dec (BitVec.ofNat 4 fmt) with
      | some f => leBytes 2 (f.round (RMode.dec (BitVec.ofNat 2 (bits c.ctl 4 2))) (c.ctl.testBit 6) (Fmt.f32.val x)).val.toNat
      | none => [0, 0]
  bytesAt (c.accRow i).addr row

/-- Rows of a command done, all below `n` from its progress on: for ACC.ST their bytes written together. -/
def State.doRows (s : State) (c : Cmd) (n : Nat) : State :=
  let t := (tileOf c.instr).getD 0
  let rows := c.rowsLeft.filter (· < n)
  match c.instr with
  | .accSt .. =>
    let w := rows.flatMap (s.accStRow c t)
    if c.ctl.testBit 8 then s.scrWrite c w else s.cmdWrite c 2 true w
  | .accLd .. =>
    rows.foldl (fun s i =>
      let l := s.touchBytes c (c.accRow i)
      s.putRow c t i fun j => some (fieldAt l (4 * j) 4)) s
  | _ => match c.step? with
    | some p => rows.foldl (fun s i => s.stepRow c p t i) s
    | none => s

/-- A fill of ACC.RDV waits for a pending landing on its register (03 R52). -/
def State.rdvHeld (s : State) (c : Cmd) : Bool :=
  match s.board? c.board, c.dest with
  | some b, .v n => b.pipe.any fun e => e.regs.contains (.v n)
  | _, _ => false

/-- The effect of a command without rows (08 R181, R184). -/
def State.doWhole (s : State) (c : Cmd) : State :=
  let t := (tileOf c.instr).getD 0
  match c.instr with
  | .accClr .. => s.modBent c.bent fun x =>
      { x with tiles := x.tiles.filter fun p => p.1 / 65536 != t, badTiles := x.badTiles.filter fun w => w / 16384 != t }
  | .accRdv .. =>
    let row := lanesOf fun l => BitVec.ofNat 32 (s.tileElem c t c.rowSel l)
    match c.dest with
    | .v n => s.modBoard c.board fun b => b.putV n c.mask row
    | _ => s
  | .accWrv .. => s.putRow c t c.rowSel fun j => if c.mask.getLsbD j then some (laneAt c.fv j).toNat else none
  | .cbtLd _ tb _ =>
    let l := s.cmdBytes c false (c.pair 0) 1024
    let t := tab 256 fun n => BitVec.ofNat 32 (fieldAt l (4 * n) 4)
    s.modCtx c.ctx fun x => if tb then { x with tabB := t } else { x with tabA := t }
  | _ => s

/-! ### The engine -/

/-- The command at the head of a core's matrix engine, when it may run (08 R165). -/
def State.matrixHead (s : State) (core : Nat) : Option Cmd :=
  match (s.core core).mq with
  | c :: _ => if s.engineStopped core || !s.afterDone c then none else some c
  | [] => none

/-- Everything a command reads. -/
def Cmd.allReads (c : Cmd) : List Touch :=
  c.ahead ++ c.rowsLeft.flatMap fun i => if (c.rowTouch i).2 == .r then (c.rowTouch i).1 else []

/-- The command reaches lines of memory. -/
def Cmd.reaches (c : Cmd) : Bool := (c.ahead ++ (c.rowTouch 0).1).any (!·.scr)

/-- A matrix command starts, unless it is deferred: its metadata record is read (08 R180), and peers are asked for the lines it reads, in the order of
its loops (08 R179, 15 R319). Lines that do not translate are found as it streams. -/
def State.startMatrix (s : State) (c : Cmd) : State :=
  if c.started || s.deferred c then s
  else (s.modCmd c.id fun x => { x with started := true, tab := s.readMeta c }).askReads c (loopLines c.allReads)

/-- ACC.ST hands over the bytes of its rows below `n`, once. On a replay, lines that an earlier attempt has performed are not written again, unless
rows have a part in them that it had not handed over (23 R407, R409). -/
def State.writeMatrix (s : State) (c : Cmd) (n : Nat) : State :=
  if c.written then s
  else
    let late := linesOfTouches (((List.range n).drop c.handed).map c.accRow)
    let c := { c with written := true, handed := n, sent := c.sent.filter fun l => !late.contains l }
    (s.modCmd c.id fun _ => c).doRows c n

/-- A head that is started, with nothing outstanding, its failure if it has one, and for ACC.ST its bytes handed over. -/
def State.readyMatrix (s : State) (core : Nat) : Option (State × Cmd × Option (Nat × Nat × Nat)) := do
  let c ← s.matrixHead core
  let s := s.startMatrix c
  let c ← s.cmd? c.id
  if c.out != 0 || (c.reaches && s.noEntry core) then none
  else
    let f := s.streamFail c
    match c.instr with
    | .accSt .. =>
      let s := s.writeMatrix c ((f.map (·.2.2)).getD 128)
      let c ← s.cmd? c.id
      if c.out != 0 then none else some (s, c, s.streamFail c)
    | _ => some (s, c, f)

/-- A matrix head as far as it gets without a step of its own: peers are asked, and an ACC.ST with a peer among its rows hands its
bytes over. -/
def State.advanceMatrix (s : State) (core : Nat) : State :=
  match s.matrixHead core with
  | none => s
  | some c =>
    let s := s.startMatrix c
    match s.cmd? c.id, c.instr with
    | some c, .accSt .. =>
      if c.out == 0 && !c.written && !c.failed && !(c.reaches && s.noEntry core) && !(s.peerLines c .w (linesOfTouches ((List.range 128).map c.accRow))).isEmpty then
        s.writeMatrix c (((s.streamFail c).map (·.2.2)).getD 128)
      else s
    | _, _ => s

/-- MATRIX_COMMAND_COMPLETE: the head's occupancy has passed and nothing fails (08 R179, R181, R182, R184, R187). -/
def execMatrixCommandComplete (core : Nat) (s : State) : Out :=
  event "MATRIX_COMMAND_COMPLETE" do
    let (s, c, f) ← s.readyMatrix core
    if f.isSome || c.busy != 0 || s.rdvHeld c then none
    else
      let s := match c.instr with
        | .accSt .. => s
        | .mma .. | .mmas .. | .accLd .. => s.doRows c 128
        | _ => s.doWhole c
      some (s.endCmd c)

/-- The head of a core's matrix engine fails: the rows before the failure are done (23 R409). -/
def State.failMatrix (s : State) (core : Nat) : Option (Cmd × Nat × Nat × State) := do
  let (s, c, f) ← s.readyMatrix core
  let f ← f
  let s := match c.instr with
    | .accSt .. => s
    | _ => s.doRows c f.2.2
  some (c, f.1, f.2.1, s.failCmd { c with written := false } f.1 f.2.1 f.2.2)

/-! ### The instructions -/

/-- Energy class of a matrix command (16 R341). -/
def Cmd.energyClass (c : Cmd) : Nat :=
  match c.step? with
  | some p => if p.af == 6 then 6 else if p.af == 5 then 5 else if fp8 p.af then 4 else 3
  | none => 7

/-- A matrix command accepted by an engine (08 R163, R187). -/
def State.matrixCmd (s : State) (b : Board) (c : Cmd) (busy : Nat) : State :=
  (s.charge c.ctx (c.core / 4) c.energyClass 1).enqueue b { c with busy := busy } fun s => s.modCore c.core fun x => { x with mq := x.mq ++ [{ c with busy := busy }], mTaken := true }

/-- A command on a tile, at the core that holds it (08 R163). -/
def State.tileCmd (s : State) (b : Board) (i : Instr) (t : BitVec 5) : Cmd := s.cmdOf b i (s.tileCore b t.toNat) .matrix

/-- MMA (08 R175). -/
def execMma (f : Opd) (u : BitVec 9) (t : BitVec 5) (peg : Option (BitVec 3)) (s : State) : Out :=
  onBoard s (.mma f u t peg) fun b =>
    s.matrixCmd b { s.tileCmd b (.mma f u t peg) t with fv := b.lanesVal s.cur.slotB f, grp := b.group u.toNat 10 } 16

/-- MMAS: mpc advances at the issue tick (08 R175, R180). -/
def execMmas (f : Opd) (u : BitVec 9) (t : BitVec 5) (peg : Option (BitVec 3)) (s : State) : Out :=
  onBoard s (.mmas f u t peg) fun b =>
    let c := { s.tileCmd b (.mmas f u t peg) t with fv := b.lanesVal s.cur.slotB f, grp := b.group u.toNat 10 }
    let k := mmaK (bits (laneAt c.fv 0).toNat 0 4) true
    s.matrixCmd { b with mpc := b.mpc + BitVec.ofNat 64 (16 * k) } c 16

/-- ACC.CLR (08 R181). -/
def execAccClr (t : BitVec 5) (peg : Option (BitVec 3)) (s : State) : Out :=
  onBoard s (.accClr t peg) fun b => s.matrixCmd b (s.tileCmd b (.accClr t peg) t) 2

/-- ACC.LD (08 R182). -/
def execAccLd (u : BitVec 9) (t : BitVec 5) (peg : Option (BitVec 3)) (s : State) : Out :=
  onBoard s (.accLd u t peg) fun b => s.matrixCmd b { s.tileCmd b (.accLd u t peg) t with grp := b.group u.toNat 4 } 32

/-- ACC.ST (08 R182). -/
def execAccSt (u : BitVec 9) (t : BitVec 5) (peg : Option (BitVec 3)) (s : State) : Out :=
  onBoard s (.accSt u t peg) fun b => s.matrixCmd b { s.tileCmd b (.accSt u t peg) t with grp := b.group u.toNat 4 } 32

/-- The vector register that a fill names. -/
def Board.fillReg (b : Board) : Opd → FillDest
  | .v x n => .v (b.vnum x n)
  | _ => .none

/-- ACC.RDV (08 R181). -/
def execAccRdv (g f : Opd) (t : BitVec 5) (peg : Option (BitVec 3)) (s : State) : Out :=
  onBoard s (.accRdv g f t peg) fun b =>
    s.matrixCmd b { s.tileCmd b (.accRdv g f t peg) t with gv := [b.uniVal s.cur.slotB f], dest := b.fillReg g } 2

/-- ACC.WRV (08 R181). -/
def execAccWrv (f g : Opd) (t : BitVec 5) (peg : Option (BitVec 3)) (s : State) : Out :=
  onBoard s (.accWrv f g t peg) fun b =>
    s.matrixCmd b { s.tileCmd b (.accWrv f g t peg) t with fv := b.lanesVal s.cur.slotB f, gv := [b.uniVal s.cur.slotB g] } 2

/-- SETMPC: fixed latency 2 (08 R183). -/
def execSetmpc (u : BitVec 9) (s : State) : Out :=
  onBoard s (.setmpc u) fun b =>
    s.put (b.emit { dest := .mpc, slotB := s.cur.slotB, lanes := allLanes, rem := 2, sval := (b.pair u.toNat).setWidth 128 })

/-- CBT.LD (08 R184). -/
def execCbtLd (u : BitVec 9) (tblB : Bool) (peg : Option (BitVec 3)) (s : State) : Out :=
  onBoard s (.cbtLd u tblB peg) fun b =>
    s.matrixCmd b { s.cmdOf b (.cbtLd u tblB peg) b.core .matrix with grp := b.group u.toNat 2 } 8

end Sys2Proof.Machine
end

