-- ==== Sys2Proof/Machine/Route.lean ====
section
/-!
DEFINITION. The routing engines (11 R238 to R254): the route table and how it is judged (25 R427), the six commands, their waits and
arrivals, and their failures (23 R408, 25 R427, R428, 26 R447).
-/
namespace Sys2Proof.Machine

/-! ### The table (11 R240, R241) -/

/-- A field of the table that the command holds. -/
def Cmd.tf (c : Cmd) (o n : Nat) : Nat := fieldAt c.tab o n
/-- Address of the table. -/
def Cmd.taddr (c : Cmd) : Nat := c.pair 0
/-- Experts. -/
def Cmd.nexp (c : Cmd) : Nat := c.tf 0 2
/-- Participating devices. -/
def Cmd.ndev (c : Cmd) : Nat := c.tf 2 2
/-- This device's index. -/
def Cmd.self (c : Cmd) : Nat := c.tf 4 2
/-- Choices of a token. -/
def Cmd.topk (c : Cmd) : Nat := c.tf 6 1
/-- Bytes of a row. -/
def Cmd.rowb (c : Cmd) : Nat := c.tf 8 4
/-- Tokens. -/
def Cmd.ntok (c : Cmd) : Nat := c.tf 12 4
/-- Positions. -/
def Cmd.npos (c : Cmd) : Nat := c.ntok * c.topk
/-- The choice array. -/
def Cmd.choA (c : Cmd) : Nat := c.tf 16 8
/-- The gate weights. -/
def Cmd.gwA (c : Cmd) : Nat := c.tf 24 8
/-- The source rows. -/
def Cmd.srcA (c : Cmd) : Nat := c.tf 32 8
/-- Bytes between source rows. -/
def Cmd.sstr (c : Cmd) : Nat := c.tf 40 4
/-- Bytes between output rows. -/
def Cmd.ostr (c : Cmd) : Nat := c.tf 44 4
/-- The output rows. -/
def Cmd.outA (c : Cmd) : Nat := c.tf 48 8
/-- The count vector. -/
def Cmd.cntA (c : Cmd) : Nat := c.tf 56 8
/-- The count matrix. -/
def Cmd.cmA (c : Cmd) : Nat := c.tf 64 8
/-- The inverse permutation. -/
def Cmd.invA (c : Cmd) : Nat := c.tf 72 8
/-- The drop list. -/
def Cmd.dropA (c : Cmd) : Nat := c.tf 80 8
/-- Capacity of the drop list. -/
def Cmd.dcap (c : Cmd) : Nat := c.tf 88 4
/-- The statistics block. -/
def Cmd.statA (c : Cmd) : Nat := c.tf 96 8
/-- Field of device entry `d`. -/
def Cmd.devF (c : Cmd) (d o : Nat) : Nat := c.tf (128 + 32 * d + o) 8
/-- Offset of expert entry `e`. -/
def Cmd.expAt (c : Cmd) (e : Nat) : Nat := 128 + 32 * c.ndev + 32 * e
/-- Device of an expert. -/
def Cmd.expDev (c : Cmd) (e : Nat) : Nat := c.tf (c.expAt e) 2
/-- Capacity of an expert. -/
def Cmd.expCap (c : Cmd) (e : Nat) : Nat := c.tf (c.expAt e + 4) 4
/-- Input buffer of an expert. -/
def Cmd.expIn (c : Cmd) (e : Nat) : Nat := c.tf (c.expAt e + 8) 8
/-- Output buffer of an expert. -/
def Cmd.expOut (c : Cmd) (e : Nat) : Nat := c.tf (c.expAt e + 16) 8
/-- Format of a row's elements. -/
def Cmd.rowFmt (c : Cmd) : Fmt := match c.tf 7 1 with | 0 => .f32 | 1 => .f16 | _ => .bf16
/-- ARG of the group. -/
def Cmd.arg (c : Cmd) : Nat := c.reg 2

/-- A condition on the table, with the cause and the address it names. -/
abbrev TabCheck := Bool × Nat × Nat

/-- The header's conditions in byte order (11 R240, 25 R427); a misaligned address is CAUSE 0x14 with the address itself, a stride or
a size outside its limits 0x50 (DEDUCED, log 34). -/
def Cmd.headChecks (c : Cmd) : List TabCheck :=
  let bad (p : Bool) (o : Nat) : TabCheck := (p, 0x50, c.taddr + o)
  let al (v k : Nat) : TabCheck := (v % k != 0, 0x14, v)
  [bad (c.nexp == 0 || 1024 < c.nexp) 0, bad (c.ndev == 0 || 1024 < c.ndev) 2, bad (c.ndev ≤ c.self) 4
   , bad (c.topk == 0 || 16 < c.topk) 6, bad (2 < c.tf 7 1) 7, bad (c.rowb < 16 || 65536 < c.rowb || c.rowb % 16 != 0) 8
   , bad (2 ^ 24 ≤ c.ntok) 12, al c.choA 2, al c.gwA 4, al c.srcA 16
   , bad (c.sstr % 16 != 0 || c.sstr < c.rowb) 40, bad (c.ostr % 16 != 0 || c.ostr < c.rowb) 44
   , al c.outA 16, al c.cntA 4, al c.cmA 8, al c.invA 8, al c.dropA 8, bad (2 ^ 24 < c.dcap) 88, bad (c.tf 92 4 != 0) 92
   , al c.statA 64, bad (c.tf 104 8 != 0) 104, bad (c.tf 112 8 != 0) 112, bad (c.tf 120 8 != 0) 120]

/-- The conditions of the device entries and then of the expert entries (11 R241); a gate is a remote gate, aligned as 15 R326 says. -/
def Cmd.entryChecks (c : Cmd) : List TabCheck :=
  let al (v : Nat) : TabCheck := (v % 16 != 0, 0x14, v)
  ((List.range c.ndev).flatMap fun d =>
    [al (c.devF d 8), al (c.devF d 16), (c.devF d 24 != 0, 0x50, c.taddr + 128 + 32 * d + 24)])
  ++ (List.range c.nexp).flatMap fun e =>
    let bad (p : Bool) (o : Nat) : TabCheck := (p, 0x50, c.taddr + c.expAt e + o)
    [bad (c.ndev ≤ c.expDev e) 0, bad (c.tf (c.expAt e + 2) 2 != 0) 2, bad (2 ^ 24 ≤ c.expCap e) 4, al (c.expIn e), al (c.expOut e)
     , bad (c.tf (c.expAt e + 24) 8 != 0) 24]

/-- The first condition that holds. -/
def firstCheck : List TabCheck → Option (Nat × Nat)
  | [] => none
  | (p, f) :: t => if p then some f else firstCheck t

/-- A part of the table asked for, its peer lines first; or the failure of its lines. -/
def State.askPart (s : State) (c : Cmd) (o n : Nat) (st : Reading) : State :=
  let ts := [{ addr := c.taddr + o, len := n : Touch }]
  match s.touchFail c .r ts with
  | some f => s.modCmd c.id fun c => c.broke f
  | none => (s.modCmd c.id fun c => { c with listed := st }).askReads c (linesOfTouches ts)

/-- The parts of the table read, each once (10 R237, 11 R240), and judged (25 R427): the header, then the entries. -/
def State.readTable (s : State) (c : Cmd) : State :=
  let judged (o n : Nat) (x : Cmd) (checks : Cmd → List TabCheck) (go : State → State) : State :=
    let s := s.modCmd c.id fun _ => x
    match s.dataBad c [{ addr := c.taddr + o, len := n }] <|> firstCheck (checks x) with
    | some f => s.modCmd c.id fun c => c.broke f
    | none => go s
  match c.listed with
  | .no => if c.taddr % 64 != 0 then s.modCmd c.id fun c => c.broke (0x14, c.taddr) else s.askPart c 0 128 .asked
  | .asked =>
    let x := { c with tab := s.cmdBytes c false c.taddr 128 }
    judged 0 128 x Cmd.headChecks fun s => s.askPart x 128 (32 * (x.ndev + x.nexp)) .rest
  | .rest =>
    judged 128 (32 * (c.ndev + c.nexp)) { c with listed := .read, tab := c.tab ++ s.cmdBytes c false (c.taddr + 128) (32 * (c.ndev + c.nexp)) } Cmd.entryChecks id
  | _ => s

/-! ### Placed positions -/

/-- Inverse permutation entry at position `n`, as the command read it: KIND, EXP, SLOT (11 R248). -/
def Cmd.inv (c : Cmd) (n : Nat) : Nat × Nat × Nat :=
  let w := c.words.getD n 0
  (bits w 62 2, bits w 42 10, bits w 0 24)

/-- The placed positions in order: position, expert, slot. -/
def Cmd.placed (c : Cmd) : List (Nat × Nat × Nat) :=
  (List.range c.words.length).filterMap fun n => let x := c.inv n; if x.1 == 0 then some (n, x.2.1, x.2.2) else none

/-! ### Arrays (11 R254) -/

/-- Bytes of the rows on one side. -/
def Cmd.rowsLen (c : Cmd) (str : Nat) : Nat := if c.ntok == 0 then 0 else (c.ntok - 1) * str + c.rowb

/-- The rows on one side: one interval when they follow one another, else each its own. -/
def Cmd.rowsAt (c : Cmd) (base str : Nat) : List Touch :=
  if str == c.rowb then [{ addr := base, len := c.rowsLen str }]
  else (List.range c.ntok).map fun t => { addr := base + t * str, len := c.rowb }

/-- The local arrays that a command reads or writes: offset of the header field, the interval, and the right it needs. -/
def Cmd.arrays (c : Cmd) : List (Nat × Touch × Acc) :=
  let cho := (16, { addr := c.choA, len := 2 * c.npos : Touch }, Acc.r)
  let gw := (24, { addr := c.gwA, len := 4 * c.npos : Touch }, Acc.r)
  let src := (c.rowsAt c.srcA c.sstr).map fun t => (32, t, Acc.r)
  let out := (c.rowsAt c.outA c.ostr).map fun t => (48, t, Acc.w)
  let cnt (a : Acc) := (56, { addr := c.cntA, len := 4 * c.nexp : Touch }, a)
  let cm := (64, { addr := c.cmA, len := 8 * c.ndev * (c.nexp + 1) : Touch }, Acc.r)
  let inv (a : Acc) := (72, { addr := c.invA, len := 8 * c.npos : Touch }, a)
  let drop := (80, { addr := c.dropA, len := 8 * c.dcap : Touch }, Acc.w)
  let stat (a : Acc) := (96, { addr := c.statA, len := 64 + 16 * c.nexp : Touch }, a)
  match c.instr with
  | .routeCount .. => [cho, cnt .w]
  | .routeXchg .. => [cnt .r, cm]
  | .routePlace .. => [cho, cm, inv .w, drop, stat .w]
  | .routeScatter .. => src ++ [inv .r]
  | .routeCombine .. => gw :: out ++ [inv .r]
  | .routeStat _ _ .offset _ => [cm]
  | .routeStat .. => [stat .r]
  | _ => []

/-- The first array that does not lie in local memory: CAUSE 0x50 at its header field (11 R254). -/
def State.notLocal (s : State) (c : Cmd) (a : Nat × Touch × Acc) : Option (Nat × Nat) :=
  if a.2.1.lines.any fun l => match s.translate c.ctx l a.2.2 with
    | .ok (.loc _) | .error _ => false
    | _ => true then some (0x50, c.taddr + a.1) else none

/-- The gates at which a command arrives or waits: offset of the device entry's field, and address (11 R250, R252). -/
def Cmd.routeGates (c : Cmd) : List (Nat × Nat) :=
  match c.instr with
  | .routeScatter .. => (List.range c.ndev).map fun d => (128 + 32 * d + 8, c.devF d 8)
  | .routeCombine .. => [(128 + 32 * c.self + 16, c.devF c.self 16)]
  | _ => []

/-- A gate of a command is no remote gate, which lies in local memory or in a peer window (11 R241, 15 R326). -/
def State.gateFail (s : State) (c : Cmd) (g : Nat × Nat) : Option (Nat × Nat) :=
  match s.translate c.ctx g.2 (match c.instr with | .routeCombine .. => Acc.r | _ => .rw) with
  | .ok (.host _) => some (0x50, c.taddr + g.1)
  | .error k => some (k, g.2)
  | _ => none

/-- The row that XCHG writes on device `d` (11 R245). -/
def Cmd.xchgAt (c : Cmd) (d : Nat) : Touch :=
  { addr := (c.devF d 0 + 4 * ((c.arg % 2) * c.ndev + c.self) * (c.nexp + 1)) % 2 ^ 64, len := 4 * (c.nexp + 1) }

/-- The intervals of other devices' entries that a command reads or writes: rows of counts, placed rows (11 R245, R250, R252). -/
def Cmd.reach (c : Cmd) : List Touch :=
  match c.instr with
  | .routeXchg .. => (List.range c.ndev).map c.xchgAt
  | .routeScatter .. => c.placed.map fun p => { addr := (c.expIn p.2.1 + p.2.2 * c.rowb) % 2 ^ 64, len := c.rowb }
  | .routeCombine .. => (c.placed.map fun p => (c.expOut p.2.1 + p.2.2 * c.rowb) % 2 ^ 64).eraseDups.map fun a => { addr := a, len := c.rowb }
  | _ => []

/-- The right that these need. -/
def Cmd.reachAcc (c : Cmd) : Acc := match c.instr with | .routeCombine .. => .r | _ => .w

/-- The failure of those that do not lie on a peer; a lost peer shows when it is reached (23 R408). -/
def State.reachFail (s : State) (c : Cmd) : Option (Nat × Nat) :=
  let ts := c.reach
  (s.lineFail c c.reachAcc (linesOfTouches ts)).map (exact ts) <|> (if c.reachAcc == .w then s.partFail c ts else none)

/-- The failure of a command's local pages at acceptance: arrays in the order of the header, of each CAUSE 0x50 first; gates; rows of counts (DESIGN
CHOICE, log 120). Of the drop list it is not known yet what is written. -/
def State.arrayFail (s : State) (c : Cmd) : Option (Nat × Nat) :=
  (c.arrays.findSome? fun a => s.notLocal c a <|> (s.lineFail c a.2.2 (linesOfTouches [a.2.1])).map (exact [a.2.1])
    <|> (if a.2.2 == .w && a.1 != 80 then s.partFail c [a.2.1] else none))
  <|> c.routeGates.findSome? (s.gateFail c) <|> s.reachFail c

/-- Lines added to a command's pages: translated and pinned. None while the page-lock table is full. -/
def State.hold (s : State) (c : Cmd) (ls : List Nat) : Option (State × Cmd) :=
  let ps := (s.pagesOf c ls).filter fun p => !c.pins.contains p
  if s.pinsFit (c.core / 16) c.ctx ps then some (s.pinAll c ps, { c with pins := c.pins ++ ps, pages := c.pages ++ s.mapOf c ls }) else none

/-- Acceptance (11 R254), as far as it gets: what the command follows comes first, the table is read and judged, its arrays are translated
and their pages pinned. What it finds wrong stays noted until the command's turn. DEDUCED: log 53. -/
def State.acceptRoute (s : State) (c : Cmd) : State :=
  if c.failed || c.out != 0 || !s.afterDone c then s
  else match c.listed with
    | .done => s
    | .read =>
      match s.arrayFail c with
      | some f => s.modCmd c.id fun c => c.broke f
      | none =>
        match s.hold c ((linesOfTouches ({ addr := c.taddr, len := c.tab.length } :: c.arrays.map (·.2.1) ++ c.reach)) ++ c.routeGates.map (·.2)) with
        | some (s, c) => s.modCmd c.id fun _ => { c with listed := .done }
        | none => s
    | _ => s.readTable c

/-! ### Values in memory -/

/-- A little-endian number that the command reads. -/
def State.rnum (s : State) (c : Cmd) (a n : Nat) : Nat := leNat (s.cmdBytes c false a n)

/-- Choice at position `n`, as the command read it (11 R240, R244). -/
def Cmd.choice (c : Cmd) (n : Nat) : Nat := c.words.getD n 0

/-- Word of the count matrix: bank, row, word (11 R245). -/
def Cmd.cmWord (c : Cmd) (b d e : Nat) : Nat := c.cmA + 4 * ((b * c.ndev + d) * (c.nexp + 1) + e)

/-- A word of the count matrix. -/
def State.cm (s : State) (c : Cmd) (b d e : Nat) : Nat := s.rnum c (c.cmWord b d e) 4

/-- Choices of expert `e` among the positions below `n`. -/
def Cmd.countOf (c : Cmd) (e n : Nat) : Nat := ((List.range n).filter fun k => c.choice k == e).length

/-- The choices or the inverse permutation that a command uses, read once. -/
def State.readWords (s : State) (c : Cmd) : List Nat :=
  match c.instr with
  | .routeCount .. | .routePlace .. => (List.range c.npos).map fun n => s.rnum c (c.choA + 2 * n) 2
  | .routeScatter .. | .routeCombine .. => (List.range c.npos).map fun n => s.rnum c (c.invA + 8 * n) 8
  | _ => []

/-- What a command judges of its choices, its inverse permutation or its ARG (25 R427). -/
def Cmd.judgeWords (c : Cmd) : Option (Nat × Nat) :=
  let choices := ((List.range c.npos).find? fun n => let x := c.choice n; x != 0xFFFF && c.nexp ≤ x).map fun n => (0x51, c.choA + 2 * n)
  let invs := ((List.range c.npos).find? fun n =>
      let x := c.inv n
      x.1 == 3 || c.nexp ≤ x.2.1 || (x.1 == 0 && c.expCap x.2.1 ≤ x.2.2)).map fun n => (0x52, c.invA + 8 * n)
  match c.instr with
  | .routeCount .. | .routePlace .. => choices
  | .routeScatter .. | .routeCombine .. => invs
  | .routeStat _ _ sel _ =>
    match sel with
    | .lkept | .ldrop | .lnone | .dwrit | .dlovf => none
    | _ => if c.nexp ≤ c.arg then some (0x53, c.taddr) else none
  | _ => none

/-- What PLACE judges of its own counts (25 R427). -/
def State.judgeCounts (s : State) (c : Cmd) : Option (Nat × Nat) :=
  match c.instr with
  | .routePlace .. => ((List.range c.nexp).find? fun e => c.countOf e c.npos != s.cm c (c.arg % 2) c.self e).map fun e =>
      (0x52, c.cmWord (c.arg % 2) c.self e)
  | _ => none

/-! ### What each command writes -/

/-- COUNT (11 R244). -/
def Cmd.countBytes (c : Cmd) : List (Nat × Byte) :=
  bytesAt c.cntA ((List.range c.nexp).flatMap fun e => leBytes 4 (c.countOf e c.npos))

/-- XCHG's row on device `d`: the counts and then SEQ (11 R245). -/
def State.xchgRow (s : State) (c : Cmd) (d : Nat) : List (Nat × Byte) :=
  bytesAt (c.xchgAt d).addr (s.cmdBytes c false c.cntA (4 * c.nexp) ++ leBytes 4 c.arg)

/-- Sum of the count matrix's word `e` over the first `n` devices. -/
def State.cmSum (s : State) (c : Cmd) (b e n : Nat) : Nat := ((List.range n).map fun d => s.cm c b d e).sum

/-- The entry that PLACE gives a position (11 R247, R248). -/
def State.placeWord (s : State) (c : Cmd) (n : Nat) : Nat :=
  let e := c.choice n
  if e == 0xFFFF then 2 <<< 62
  else
    let p := s.cmSum c (c.arg % 2) e c.self + c.countOf e n
    (c.expDev e <<< 52) + (e <<< 42) + if p < c.expCap e then p else 1 <<< 62

/-- What PLACE writes: INV, the drop list, the statistics block (11 R247 to R249). -/
def State.placeBytes (s : State) (c : Cmd) : List (Nat × Byte) :=
  let ws := (List.range c.npos).map fun n => (n, s.placeWord c n)
  let kind (k : Nat) := ws.filter fun p => p.2 >>> 62 == k
  let drops := kind 1
  let kept := (drops.take c.dcap).map fun p =>
    leBytes 4 (p.1 / c.topk) ++ leBytes 2 (p.1 % c.topk) ++ leBytes 2 (c.choice p.1)
  let summary := leBytes 4 (kind 0).length ++ leBytes 4 drops.length ++ leBytes 4 (kind 2).length ++ leBytes 4 (min drops.length c.dcap)
    ++ leBytes 48 (if c.dcap < drops.length then 1 else 0)
  let entry (e : Nat) : List Byte :=
    let total := s.cmSum c (c.arg % 2) e c.ndev
    leBytes 4 total ++ leBytes 4 (min total (c.expCap e)) ++ leBytes 4 (drops.filter fun p => bits p.2 42 10 == e).length
      ++ leBytes 4 (if c.expCap e < total then 1 else 0)
  bytesAt c.invA (ws.flatMap fun p => leBytes 8 p.2)
  ++ bytesAt c.dropA (kept.flatMap id)
  ++ bytesAt c.statA (summary ++ (List.range c.nexp).flatMap entry)

/-- SCATTER's rows: device, address, bytes (11 R250). -/
def State.scatterRows (s : State) (c : Cmd) : List (Nat × Nat × List Byte) :=
  (c.placed).map fun p =>
    (c.expDev p.2.1, (c.expIn p.2.1 + p.2.2 * c.rowb) % 2 ^ 64, s.cmdBytes c false (c.srcA + p.1 / c.topk * c.sstr) c.rowb)

/-- One element of an output row (11 R252). -/
def State.combineElem (s : State) (c : Cmd) (t k : Nat) : Nat :=
  let f := c.rowFmt
  let w := f.width / 8
  let acc := (List.range c.topk).foldl (fun acc r =>
    let n := t * c.topk + r
    let x := c.inv n
    if x.1 != 0 then acc
    else
      let v := f.val (s.rnum c ((c.expOut x.2.1 + x.2.2 * c.rowb) % 2 ^ 64 + w * k) w)
      let g := Fmt.f32.val (s.rnum c (c.gwA + 4 * n) 4)
      (Fmt.f32.round .rn false ((g.mul v).add false (Fmt.f32.val acc))).val.toNat) 0
  (f.round .rn false (Fmt.f32.val acc)).val.toNat

/-- COMBINE's output rows (11 R252). -/
def State.combineBytes (s : State) (c : Cmd) : List (Nat × Byte) :=
  let w := c.rowFmt.width / 8
  (List.range c.ntok).flatMap fun t =>
    bytesAt (c.outA + t * c.ostr) ((List.range (c.rowb / w)).flatMap fun k => leBytes w (s.combineElem c t k))

/-- The bank that `.offset` sums (11 R253). -/
def State.offsetBank (s : State) (c : Cmd) : Nat :=
  let s0 := s.cm c 0 c.self c.nexp
  let s1 := s.cm c 1 c.self c.nexp
  if s0 != 0 && s1 != 0 then (let d := (s1 + 2 ^ 32 - s0) % 2 ^ 32; if 1 ≤ d && d < 2 ^ 31 then 1 else 0)
  else if s1 != 0 then 1 else 0

/-- The value of STAT (11 R253). -/
def State.statValue (s : State) (c : Cmd) (sel : StatSel) : Nat :=
  let h (o : Nat) := s.rnum c (c.statA + o) 4
  let e (o : Nat) := s.rnum c (c.statA + 64 + 16 * c.arg + o) 4
  match sel with
  | .lkept => h 0
  | .ldrop => h 4
  | .lnone => h 8
  | .dwrit => h 12
  | .dlovf => h 16 % 2
  | .total => e 0
  | .kept => e 4
  | .edrop => e 8
  | .ovf => e 12 % 2
  | .offset => s.cmSum c (s.offsetBank c) c.arg c.self % 2 ^ 32

/-! ### Turns -/

/-- The route commands of a frame. -/
def State.rqOf (s : State) (c : Cmd) : List Cmd := (s.frame (c.core / 16)).rq

/-- Every route command, in every frame. -/
def State.routeCmds (s : State) : List Cmd := s.frames.flatMap (·.rq)

/-- The engine of a command: bays 0 and 1 engine 0, bays 2 and 3 engine 1 (11 R238). -/
def Cmd.eng (c : Cmd) : Nat := c.core / 4 % 4 / 2

/-- The command is the first of its board's route commands (11 R238). -/
def State.firstOfBoard (s : State) (c : Cmd) : Bool := s.routeCmds.all fun x => !(x.board == c.board && x.id < c.id)

/-- The engine has a place among the 16 boards it serves at once (11 R238). -/
def State.routePlaceFree (s : State) (c : Cmd) : Bool :=
  ((s.rqOf c).filter fun x => x.started && x.eng == c.eng && x.id != c.id).length < 16

/-- Deferral behind a failed command of the board (25 R428). DEDUCED: log 52. -/
def State.routeDeferred (s : State) (c : Cmd) : Bool :=
  s.parkedCmds.any fun x => x.board == c.board && x.id < c.id && cmdPath x.instr == 4

/-- A running command of another board uses the same table (25 R427). DEDUCED: log 52. -/
def State.tableInUse (s : State) (c : Cmd) : Bool :=
  (s.rqOf c).any fun x => x.started && x.board != c.board && x.ctx == c.ctx && x.taddr == c.taddr

/-- What a device's data and gates name lies on a lost module (26 R447). -/
def State.lostDevice (s : State) (c : Cmd) : Bool :=
  (List.range c.ndev).any fun d => [0, 8, 16].any fun o =>
    match s.translate c.ctx (c.devF d o) .r, s.translate c.ctx (c.devF d o) .w with
    | .ok (.peer m _), _ | _, .ok (.peer m _) => s.lost.contains m
    | _, _ => false

/-! ### Writing rows -/

/-- What a command writes to other devices: device and bytes in order. -/
def State.deviceWrites (s : State) (c : Cmd) : List (Nat × List (Nat × Byte)) :=
  match c.instr with
  | .routeXchg .. => (List.range c.ndev).map fun d => (d, s.xchgRow c d)
  | .routeScatter .. => (s.scatterRows c).map fun r => (r.1, bytesAt r.2.1 r.2.2)
  | _ => []

/-- The lines of writes. -/
def lineSet (w : List (Nat × Byte)) : List Nat := (ascending (w.map fun p => p.1 / 128 * 128)).eraseDups

/-- Lines that XCHG's rows do not write: those of a lost module, and what follows one of them in its row, for SEQ is performed after the
counts (11 R245). -/
def heldLines (bad : Nat → Bool) (rows : List (List (Nat × Byte))) : List Nat :=
  rows.foldl (fun h r => h ++ (lineSet r).dropWhile fun l => !(bad l || h.contains l)) []

/-- An address of a command lies on a lost module. -/
def State.onLost (s : State) (c : Cmd) (a : Nat) (acc : Acc) : Bool :=
  match s.cmdAt c a acc with
  | .ok (.peer m _) => s.lost.contains m
  | _ => false

/-- The command's rows handed to their homes, once; those of a lost module fail (26 R441). -/
def State.writeRows (s : State) (c : Cmd) : State :=
  if c.written then s
  else
    let ws := (s.deviceWrites c).map (·.2)
    let fault (l : Nat) : Option (Nat × Nat) := s.lineFail c .w [l] <|> (if s.onLost c l .w then some (0x71, l) else none)
    let bad (l : Nat) : Bool := (fault l).isSome
    let held := match c.instr with
      | .routeXchg .. => heldLines bad ws
      | _ => (lineSet (ws.flatMap id)).filter bad
    let s := s.modCmd c.id fun c =>
      let c := { c with written := true }
      match (lineSet (ws.flatMap id)).findSome? fault with
      | some f => c.broke f
      | none => c
    s.cmdWrite c 3 true ((ws.flatMap id).filter fun p => !held.contains (p.1 / 128 * 128))

/-- Every row for device `d` has been performed there. -/
def State.rowsDone (s : State) (c : Cmd) (d : Nat) : Bool :=
  (s.deviceWrites c).all fun r => r.1 != d || (lineSet r.2).all c.sent.contains

/-! ### Running -/

/-- What a command reads first: its choices, its counts, or its inverse permutation. -/
def Cmd.firstReads (c : Cmd) : List Touch :=
  match c.instr with
  | .routeCount .. | .routePlace .. => [{ addr := c.choA, len := 2 * c.npos }]
  | .routeXchg .. => [{ addr := c.cntA, len := 4 * c.nexp }]
  | .routeScatter .. | .routeCombine .. => [{ addr := c.invA, len := 8 * c.npos }]
  | _ => []

/-- What it reads on from there: PLACE the counts of its bank, SCATTER the rows with a placed rank, COMBINE their weights, STAT the words of its value
(11 R247, R250, R252, R253). -/
def State.laterReads (s : State) (c : Cmd) : List Touch :=
  let words (b e n : Nat) : List Touch := (List.range n).map fun d => { addr := c.cmWord b d e, len := 4 }
  let stat (o : Nat) : List Touch := [{ addr := c.statA + o, len := 4 }]
  match c.instr with
  | .routePlace .. => (List.range c.ndev).map fun d => { addr := c.cmWord (c.arg % 2) d 0, len := 4 * c.nexp }
  | .routeScatter .. => c.placed.map fun p => { addr := c.srcA + p.1 / c.topk * c.sstr, len := c.rowb }
  | .routeCombine .. => c.placed.map fun p => { addr := c.gwA + 4 * p.1, len := 4 }
  | .routeStat _ _ sel _ =>
    match sel with
    | .lkept => stat 0
    | .ldrop => stat 4
    | .lnone => stat 8
    | .dwrit => stat 12
    | .dlovf => stat 16
    | .total => stat (64 + 16 * c.arg)
    | .kept => stat (64 + 16 * c.arg + 4)
    | .edrop => stat (64 + 16 * c.arg + 8)
    | .ovf => stat (64 + 16 * c.arg + 12)
    | .offset => { addr := c.cmWord 0 c.self c.nexp, len := 4 } :: { addr := c.cmWord 1 c.self c.nexp, len := 4 }
        :: words (s.offsetBank c) c.arg c.self
  | _ => []

/-- The sequence words that a waiting XCHG reads (11 R245). -/
def Cmd.seqWords (c : Cmd) : List Touch := (List.range c.ndev).map fun d => { addr := c.cmWord (c.arg % 2) d c.nexp, len := 4 }

/-- What is wrong with a command as it begins: each part is judged as it is read (25 R427). -/
def State.beginFail (s : State) (c : Cmd) : Option (Nat × Nat) :=
  s.dataBad c c.firstReads <|> c.judgeWords
  <|> (match c.instr with | .routeCombine .. => none | _ => s.dataBad c (s.laterReads c)) <|> s.judgeCounts c <|> s.reachFail c

/-- What COUNT, PLACE and COMBINE write here, as it stands. -/
def State.localWrites (s : State) (c : Cmd) : List (Nat × Byte) :=
  match c.instr with
  | .routeCombine .. => s.combineBytes c
  | _ => c.data

/-- The first line that a command writes in part and whose data has an uncorrectable error: the write fails (23 R414). -/
def State.halfLine (s : State) (c : Cmd) : Option (Nat × Nat) :=
  if s.badLines.isEmpty then none
  else
    let w := s.localWrites c
    (lineSet w).findSome? fun l =>
      let as := ((w.map (·.1)).filter fun a => a / 128 * 128 == l).eraseDups
      match s.cmdAt c l .w with
      | .ok (.loc p) => if s.badAt p && as.length != 128 then some (0x20, as.foldl min (l + 127)) else none
      | _ => none

/-- A command begins when its turn comes (11 R238): it judges what it reads once (25 R427), and its placed rows here are translated and
pinned. What fails stays noted. DEDUCED: log 53. -/
def State.startRoute (s : State) (c : Cmd) : State :=
  if c.started || c.out != 0 || !s.firstOfBoard c || !s.routePlaceFree c then s
  else if s.routeDeferred c then s.modCmd c.id fun c => { c with fails := [] }.broke (0x55, c.taddr)
  else
      if c.failed || c.listed != .done then s
      else if s.tableInUse c then s.modCmd c.id fun c => c.broke (0x54, c.taddr)
      else
        let c := if c.words.isEmpty then { c with words := s.readWords c } else c
        match s.beginFail c with
        | some f => s.modCmd c.id fun c => c.broke f
        | none =>
          match s.hold c (linesOfTouches c.reach) with
          | none => s.modCmd c.id fun _ => c
          | some (s, c) => s.modCmd c.id fun _ =>
            { c with started := true
                     waiting := match c.instr with | .routeXchg .. | .routeCombine .. => true | _ => false
                     data := match c.instr with
                       | .routeCount .. => c.countBytes
                       | .routePlace .. => s.placeBytes c
                       | _ => [] }

/-- The gate on which a COMBINE waits. -/
def Cmd.cgate (c : Cmd) : Nat := c.devF c.self 16

/-- The lines of the placed rows in the order of COMBINE's loops: token, element, rank (11 R252, 15 R319). -/
def Cmd.combineLines (c : Cmd) : List Nat :=
  ((List.range c.ntok).flatMap fun t => cprLines (c.rowFmt.width / 8)
    ((c.placed.filter fun p => p.1 / c.topk == t).map fun p => { addr := (c.expOut p.2.1 + p.2.2 * c.rowb) % 2 ^ 64, len := c.rowb })).eraseDups

/-- COMBINE asks a peer's gate for its PHASE; once its wait has ended it asks for the peers' rows. -/
def State.combineAsks (s : State) (c : Cmd) : State :=
  if c.waiting then
    if c.written then s
    else match s.cmdAt c c.cgate .r with
      | .ok (.peer m a) =>
        (s.ask c true [(m, a, c.cgate, .phaseRead (c.arg.testBit 0) c.id)]).modCmd c.id fun c => { c with written := true, polled := s.now }
      | _ => s
  else if c.arrivals.contains 1 then s
  else (s.modCmd c.id fun c => { c with arrivals := 1 :: c.arrivals }).askReads c c.combineLines

/-- `n` stages of a route command's beginning. -/
def State.beginRoute (s : State) (id : Nat) : Nat → State
  | 0 => s
  | n + 1 => match s.cmd? id with
    | some c => (s.acceptRoute c).beginRoute id n
    | none => s

/-- A route command as far as it gets without a step of its own: accepted, started, its rows handed over, its requests made. -/
def State.advanceRoute (s : State) (id : Nat) : State :=
  let s := s.beginRoute id 4
  let s := match s.cmd? id with
    | some c => s.startRoute c
    | none => s
  match s.cmd? id with
  | none => s
  | some c =>
    if !c.started then s
    else match c.instr with
      | .routeXchg .. | .routeScatter .. => s.writeRows c
      | .routeCombine .. => s.combineAsks c
      | _ => s

/-- A running command of a frame, advanced. -/
def State.routeCmd? (s : State) (frame cmd : Nat) : Option (State × Cmd) := do
  let c ← (s.frame frame).rq.find? (·.id == cmd)
  let s := s.advanceRoute c.id
  let c ← s.cmd? cmd
  if c.started then some (s, c) else none

/-- XCHG_WAIT_END: every row of the own bank carries SEQ (11 R245). -/
def execXchgWaitEnd (frame cmd : Nat) (s : State) : Out :=
  event "XCHG_WAIT_END" do
    let (s, c) ← s.routeCmd? frame cmd
    match c.instr with
    | .routeXchg .. =>
      if c.waiting && (List.range c.ndev).all fun d => s.cm c (c.arg % 2) d c.nexp == c.arg then
        some (s.modCmd cmd fun c => { c with waiting := false })
      else none
    | _ => none

/-- PHASE of a peer's gate as it was returned to a COMBINE that waits there, and whether the waiter is registered; none while it is asked
for. -/
def State.peerPhase (s : State) (c : Cmd) : Option (Bool × Bool) :=
  match s.cmdAt c c.cgate .r with
  | .ok (.peer m a) =>
    if c.waiting && c.written && c.out == 0 && !c.failed then
      some ((c.got.get (peerKey m a)).getLsbD 0, (c.got.get (peerKey m a + 1)).getLsbD 0)
    else none
  | _ => none

/-- A COMBINE's gate shows that its wait is over: a gate here by its phase; a peer's by the phase returned, or by a wake since. -/
def State.combineMay (s : State) (c : Cmd) : Bool :=
  match s.cmdAt c c.cgate .r with
  | .ok (.loc a) => s.gatePhase a != c.arg.testBit 0
  | .ok (.peer _ _) => match s.peerPhase c with
    | some p => p.1 != c.arg.testBit 0 || c.woken == some false
    | none => false
  | _ => false

/-- A wake for a COMBINE that waits at a peer's gate: its wait may end, or PHASE is read again (15 R328, 25 R432). One that comes before the answer that
tells of the registration counts then. -/
def State.wakeRoute (s : State) (w : Wake) : Option State := do
  let s := { s with wakes := s.wakes.erase w }
  let c ← s.routeCmds.find? (·.id == w.board)
  match s.cmdAt c c.cgate .r with
  | .ok (.peer m a) =>
    if w.peer != some m || w.gate != a || !c.waiting || !c.written || c.failed then none
    else if w.again && c.out == 0 then some (s.modCmd w.board fun c => { c with written := false, woken := none })
    else some (s.modCmd w.board fun c => { c with woken := some w.again })
  | _ => none

/-- PHASE read again for a COMBINE that the full list of a peer does not hold (15 R328). -/
def State.pollRoute (s : State) (id : Nat) : Option State := do
  let c ← s.routeCmds.find? (·.id == id)
  let p ← s.peerPhase c
  if p.2 && c.woken != some true then none else some (s.modCmd id fun c => { c with written := false, woken := none })

/-- A COMBINE that a peer's full list does not hold has to read PHASE now: it has not for 1 µs of TIME (15 R328). -/
def State.combineDue (s : State) (c : Cmd) : Bool :=
  match s.peerPhase c with
  | some p => !p.2 && c.polled + 1000 ≤ s.now
  | none => false

/-- COMBINE_GATE_WAIT_END: the phase differs from CPH (11 R252). -/
def execCombineGateWaitEnd (frame cmd : Nat) (s : State) : Out :=
  event "COMBINE_GATE_WAIT_END" do
    let (s, c) ← s.routeCmd? frame cmd
    match c.instr with
    | .routeCombine .. =>
      if c.waiting && s.combineMay c then some (s.modCmd cmd fun c => { c with waiting := false }) else none
    | _ => none

/-- The gate of device `d` takes no arrival: it lies on a lost module, or its arrival has failed. -/
def State.gateLost (s : State) (c : Cmd) (d : Nat) : Bool :=
  s.onLost c (c.devF d 8) .rw || c.fails.any fun f => f.2.toNat == c.devF d 8

/-- SCATTER may arrive at device `d`: its rows are all performed, no arrival is on its way, and every lower device has had its arrival
or, after a failure, gets none (11 R250, 23 R408). -/
def State.mayArrive (s : State) (c : Cmd) (d : Nat) : Bool :=
  d < c.ndev && !c.arrivals.contains d && s.rowsDone c d && !s.gateLost c d
  && (s.outReqs.all fun r => !(r.cmd == some c.id && r.kind == .arrive))
  && (List.range d).all fun e => c.arrivals.contains e || s.gateLost c e || (c.failed && c.out == 0 && !s.rowsDone c e)

/-- SCATTER_ARRIVAL: the arrival at one device's gate, in ascending order of the devices whose rows are all performed (11 R250,
23 R408). -/
def execScatterArrival (frame cmd dev : Nat) (s : State) : Out :=
  event "SCATTER_ARRIVAL" do
    let (s, c) ← s.routeCmd? frame cmd
    match c.instr with
    | .routeScatter .. => if s.mayArrive c dev then some (s.engineArrive c 3 dev (c.devF dev 8)) else none
    | _ => none

/-- The failure of a running command once nothing is outstanding: an answer of a peer, a lost device while it waits, for which the spec gives no ADDR
(26 R447; DESIGN CHOICE, log 121), rows or gates that cannot be reached, a line here that cannot be written in part. Arrivals that can still be made come
first (23 R408). -/
def State.runFail (s : State) (c : Cmd) : Option (Nat × Nat) :=
  if c.out != 0 then none
  else if c.waiting && s.lostDevice c then some (0x73, 0)
  else match c.instr with
    | .routeScatter .. =>
      if (List.range c.ndev).any (s.mayArrive c) then none
      else c.failure <|> ((List.range c.ndev).find? fun d => !c.arrivals.contains d && s.gateLost c d).map fun d => (0x71, c.devF d 8)
    | .routeCombine .. => c.failure <|> (if c.waiting then none else s.firstTouch c .r (s.laterReads c ++ c.reach) <|> s.halfLine c)
    | .routeXchg .. => c.failure <|> (if c.waiting then s.dataBad c c.seqWords else none)
    | .routeStat .. => c.failure <|> s.dataBad c (s.laterReads c)
    | _ => c.failure <|> s.halfLine c

/-- The failure of a route command whose turn has come, with the state in which it is found. -/
def State.routeFailure (s : State) (frame cmd : Nat) : Option (State × Cmd × Nat × Nat) := do
  let c ← (s.frame frame).rq.find? (·.id == cmd)
  let s := s.advanceRoute c.id
  let c ← s.cmd? cmd
  let f ← if c.started then s.runFail c else if c.out == 0 && s.firstOfBoard c && s.routePlaceFree c then c.failure else none
  some (s, c, f)

/-- A fill of STAT waits for a pending landing on its register (03 R52). -/
def State.statHeld (s : State) (c : Cmd) (g : Nat) : Bool :=
  match s.board? c.board with
  | some b => b.pipe.any fun e => e.regs.contains (.s g)
  | none => false

/-- Local bytes written by a route command. -/
def State.routeWrite (s : State) (c : Cmd) (w : List (Nat × Byte)) : State := s.cmdWrite c 3 true w

/-- The effect with which a command completes; none while it has more to do. -/
def State.finishRoute (s : State) (c : Cmd) : Option State :=
  match c.instr with
  | .routeCount .. | .routePlace .. => some (s.routeWrite c c.data)
  | .routeXchg .. => if c.waiting then none else some s
  | .routeScatter .. => if (List.range c.ndev).all c.arrivals.contains then some s else none
  | .routeCombine .. => if c.waiting then none else some (s.routeWrite c (s.combineBytes c))
  | .routeStat g _ sel _ =>
    if s.statHeld c g.toNat then none
    else some (s.modBoard c.board fun b => b.putS g.toNat (BitVec.ofNat 32 (s.statValue c sel)))
  | _ => none

/-- ROUTE_COMMAND_COMPLETE (11 R244 to R253). -/
def execRouteCommandComplete (frame cmd : Nat) (s : State) : Out :=
  event "ROUTE_COMMAND_COMPLETE" do
    let (s, c) ← s.routeCmd? frame cmd
    if c.out != 0 || (s.runFail c).isSome then none
    else
      let s ← s.finishRoute c
      some (s.endCmd c)

/-! ### Waits at remote gates -/

/-- A board's wait at a remote gate met by a wake of that gate: one here that has reached the board's frame, or a peer's. One that comes before the
answer that tells of the registration counts then; a wake here for a wait that is over is dropped. -/
def State.wakeBoard (s : State) (w : Wake) : Option State := do
  let b ← s.board? w.board
  let here := s.wakes.contains w
  let s := { s with wakes := s.wakes.erase w }
  match b.rgates.find? fun g => !g.parked && g.opr != 1 && g.opr != 3 && s.gateIs b g w with
  | none => if here then some s else none
  | some g =>
    if !here && w.peer.isNone then none
    else match g.stage with
      | .start => if g.req.isSome then some (s.setBoard (b.modGate g.id fun g => { g with woken := some w.again })) else if here then some s else none
      | .wait false => if here then some s else none
      | .wait true => if w.again then s.rereadPhase b g else some (s.endRemote b g)

/-- The frame of a waiter: a board's, or that of a COMBINE by its number. -/
def State.waiterFrame (s : State) (id : Nat) : Option Nat :=
  ((s.board? id).map (·.core / 16)) <|> ((s.cmd? id).map (·.core / 16))

/-- A peer's wake has come by the station of ordered traffic to this module, in another frame than its waiter's (15 R321): it goes on by a ring. -/
def State.wakePasses (s : State) (w : Wake) : Option State := do
  let m ← w.peer
  let f ← s.waiterFrame w.board
  let p := (s.planesFrom m s.modid.toNat).headD (s.modid.toNat % 8)
  if s.wakes.contains w || f == p then none else some (s.sendSlot p f true (.wake w))

/-- A wake is here, or comes by a station from a peer (15 R321, 17 R357). -/
def State.wakeComes (s : State) (w : Wake) : Bool := s.wakes.contains w || w.peer.all fun m => !(s.planesFrom m 0).isEmpty

/-- GATE_WAKE: the wake ends the wait of a board, or of a COMBINE by its number; after a `.init` PHASE is read again (15 R328, 25 R432). A
peer's wake comes from outside, and crosses a ring to the frame of its waiter. -/
def execGateWake (wake : Wake) (s : State) : Out :=
  event "GATE_WAKE" <| if !s.wakeComes wake then none else s.wakePasses wake <|> s.wakeBoard wake <|> s.wakeRoute wake
    <|> if s.wakes.contains wake then some { s with wakes := s.wakes.erase wake } else none

/-- GATE_WAITER_POLL: PHASE read for a waiter that the full list does not hold (15 R328). -/
def execGateWaiterPoll (waiter : Nat) (s : State) : Out :=
  event "GATE_WAITER_POLL" <|
    (do
      let b ← s.board? waiter
      let g ← b.waiting?
      if g.stage == .wait false then s.rereadPhase b g else none)
    <|> s.pollRoute waiter

/-! ### The instructions -/

/-- A route command accepted by an engine of the issuing board's frame (11 R238, R239). -/
def State.routeCmd (s : State) (b : Board) (i : Instr) (u : BitVec 9) : State :=
  let c := { s.cmdOf b i b.core .route with grp := b.group u.toNat 4 }
  s.enqueue b c fun s => s.modFrame (b.core / 16) fun f =>
    let f := { f with rq := f.rq ++ [c] }
    if c.eng == 0 then { f with rTaken0 := true } else { f with rTaken1 := true }

/-- ROUTE.COUNT (11 R244). -/
def execRouteCount (u : BitVec 9) (peg : Option (BitVec 3)) (s : State) : Out :=
  onBoard s (.routeCount u peg) fun b => s.routeCmd b (.routeCount u peg) u

/-- ROUTE.XCHG (11 R245). -/
def execRouteXchg (u : BitVec 9) (peg : Option (BitVec 3)) (s : State) : Out :=
  onBoard s (.routeXchg u peg) fun b => s.routeCmd b (.routeXchg u peg) u

/-- ROUTE.PLACE (11 R247). -/
def execRoutePlace (u : BitVec 9) (peg : Option (BitVec 3)) (s : State) : Out :=
  onBoard s (.routePlace u peg) fun b => s.routeCmd b (.routePlace u peg) u

/-- ROUTE.SCATTER (11 R250). -/
def execRouteScatter (u : BitVec 9) (peg : Option (BitVec 3)) (s : State) : Out :=
  onBoard s (.routeScatter u peg) fun b => s.routeCmd b (.routeScatter u peg) u

/-- ROUTE.COMBINE (11 R252). -/
def execRouteCombine (u : BitVec 9) (peg : Option (BitVec 3)) (s : State) : Out :=
  onBoard s (.routeCombine u peg) fun b => s.routeCmd b (.routeCombine u peg) u

/-- ROUTE.STAT (11 R253). -/
def execRouteStat (g u : BitVec 9) (sel : StatSel) (peg : Option (BitVec 3)) (s : State) : Out :=
  onBoard s (.routeStat g u sel peg) fun b => s.routeCmd b (.routeStat g u sel peg) u

end Sys2Proof.Machine
end

