-- ==== Sys2Proof/Machine/Images.lean ====
section
/-!
DEFINITION. What a bent takes with it when it leaves its place (03 R67, 02 R33, R38, 13 R291, R292, 16 R345): the freeze records and stacks
of its boards, and the image of a bent that is switched out.
-/
namespace Sys2Proof.Machine

/-! ### Freezing without a trap (03 R67) -/

/-- A board frozen by a forced pre-emption, a migration or a switch-out: its record and its stack are written. What the record holds for
CLASS, SLOT, CODE, FRID, TPC and ADDR is not stated of such a freeze. DESIGN CHOICE: log 100. -/
def State.capture (s : State) (b : Board) : State :=
  let w (k : Nat) : BitVec 64 := Config.freeWord (s.freeCtr + k)
  let f : Freeze :=
    { cls := BitVec.ofNat 8 (1 + Config.choose s.freeCtr 10 % 10), slot := (w 0).setWidth 8, slotB := Config.chooseBit s.freeCtr
      code := (w 1).setWidth 32, frid := (w 2).setWidth 32, tpc := (w 3).setWidth 48, addr := w 4, time := s.timeWord, tick := b.tick }
  let b := { b with spilled := b.stack.length }
  let s := { s with freeCtr := s.freeCtr + 5 }
  ((s.setBoard b).spill b).writeRecord b f

/-- The live boards of a bent. -/
def State.boardsOf (s : State) (x : Bent) : List Board := s.allBoards.filter (·.env.bent == x.uid)

/-- Every board of a bent frozen so. -/
def State.captureBent (s : State) (x : Bent) : State := (s.boardsOf x).foldl (fun s b => s.capture b) s

/-! ### Stack areas (02 R33) -/

/-- The bytes of a region that are not zero, by their offsets. -/
def Mem.cut (m : Mem) (a n : Nat) : List (Nat × Byte) :=
  (m.filter fun p => a ≤ p.1 && p.1 < a + n).map fun p => (p.1 - a, p.2)

/-- The stack areas of a bent's boards taken up from their slots. -/
def State.liftAreas (s : State) (x : Bent) : State :=
  s.mapBoards fun b => if b.env.bent == x.uid then { b with areaBytes := s.mem.cut (s.areaAt b 0) 4096 } else b

/-- A line of a bent's stack areas has an uncorrectable error (25 R436). -/
def State.areasBad (s : State) (x : Bent) : Bool :=
  !s.badLines.isEmpty && (s.boardsOf x).any fun b => (List.range 32).any fun k => s.badAt (s.areaAt b 0 + 128 * k)

/-- Whole lines written from an address on have good check bits (23 R414). -/
def State.mend (s : State) (a n : Nat) : State := { s with badLines := s.badLines.filter fun l => !(a ≤ 128 * l && 128 * l + 128 ≤ a + n) }

/-- A board's stack area put down at its slot. -/
def State.dropArea (s : State) (b : Board) : State :=
  let a := s.areaAt b 0
  ((s.setBoard { b with areaBytes := [] }).mend a 4096).ownMem a 4096 ((s.mem.splice a 4096 []).writeAll (b.areaBytes.map fun p => (a + p.1, p.2)))

/-! ### Room for an image (13 R292) -/

/-- The pieces between held ones, which stand in rising order. -/
def gapsOf (lo hi : Nat) : List (Nat × Nat) → List (Nat × Nat)
  | [] => [(lo, hi - lo)]
  | (a, n) :: t => (lo, a - lo) :: gapsOf (a + n) hi t

/-- `n` bytes taken from pieces. -/
def takeOf : Nat → List (Nat × Nat) → List (Nat × Nat)
  | _, [] => []
  | n, (a, k) :: t => if min n k == 0 then takeOf n t else (a, min n k) :: takeOf (n - min n k) t

/-- Address of byte `o` of an image that stands in pieces. -/
def pieceAt : List (Nat × Nat) → Nat → Nat
  | [], _ => 0
  | (a, k) :: t, o => if o < k then a + o else pieceAt t (o - k)

/-- The context of a bent. -/
def State.bentCtx (s : State) (x : Bent) : Ctx := s.ctxOf (((s.grid? x.grid).map (·.ctx)).getD 0)

/-- The pieces of the save area's image part that no image of the context holds. -/
def State.imageGaps (s : State) (x : Bent) : List (Nat × Nat) :=
  let c := s.bentCtx x
  let held := (s.bents.filter fun y => y.away && (s.bentCtx y).ctxid == c.ctxid).flatMap (·.image)
  let lo := c.savebase.toNat + 0x18000000
  gapsOf lo (c.savebase.toNat + c.savesz.toNat) (inOrder (fun p q => decide (p.1 ≤ q.1)) held)

/-! ### The image (13 R291) -/

/-- Bytes of one board in an image. -/
def boardImage : Nat := 36864

/-- Where the parts of a board's image begin: uniforms, masks, buffer records, and the rest. -/
def Board.imageParts (b : Board) : Nat × Nat × Nat × Nat :=
  let u := 512 * b.v.length
  (u, u + 4 * b.s.length, u + 4 * b.s.length + 128, u + 4 * b.s.length + 640)

/-- A board's registers, its pegs, its parked list, and its stack area, as the bytes that are not zero; what does not fit the device keeps itself. -/
def Board.imageBytes (b : Board) : List (Nat × Byte) :=
  let (u, m, r, a) := b.imageParts
  ((List.range b.v.length).flatMap (fun n => (List.range 128).flatMap fun l => sparse (512 * n + 4 * l) 4 (laneAt (b.v.getD n []) l).toNat)
    ++ (List.range b.s.length).flatMap (fun n => sparse (u + 4 * n) 4 (b.s.getD n 0).toNat)
    ++ (List.range 8).flatMap (fun n => sparse (m + 16 * n) 16 (b.m.getD n 0).toNat)
    ++ (List.range 32).flatMap (fun n => sparse (r + 16 * n) 16 (b.b.getD n {}).img.toNat)
    ++ (List.range 8).flatMap (fun k => sparse (a + k) 1 (bits b.pegWord (8 * k) 8)) ++ sparse (a + 8) 1 b.parked.length
    ++ b.parkedBytes.map (fun p => (a + 16 + (p.1 - 0x300), p.2))
    ++ b.areaBytes.map fun p => (a + 1040 + p.1, p.2)).filter fun p => p.1 < boardImage

/-- Where the parts of a bent's image begin: scratchpad, tiles, gates. -/
def State.imageParts (s : State) (x : Bent) : Nat × Nat × Nat :=
  let g := ((s.grid? x.grid).map (·.block)).getD {}
  let a := boardImage * g.boards
  (a, a + 32 * g.scr, a + 32 * g.scr + 65536 * g.acc)

/-- Bytes of a bent's image at most (13 R292). -/
def State.imageSize (s : State) (x : Bent) : Nat :=
  (s.imageParts x).2.2 + 4096 + 128 * (s.l1.filter fun c => x.boards.contains c.board).length

/-- A bent's image as the bytes that are not zero: the boards in the order of their numbers, scratchpad, tiles, gates. The layout is not
architectural (13 R292). DESIGN CHOICE: log 49. -/
def State.imageBytes (s : State) (x : Bent) : List (Nat × Byte) :=
  let (sc, ti, ga) := s.imageParts x
  (s.boardsOf x).flatMap (fun b => b.imageBytes.map fun p => (boardImage * b.env.index + p.1, p.2))
  ++ x.scratch.map (fun p => (sc + p.1, p.2)) ++ x.tiles.map (fun p => (ti + p.1, p.2))
  ++ (List.range 16).flatMap fun n =>
    let g := x.gates.getD n {}
    sparse (ga + 16 * n) 4 g.count ++ sparse (ga + 16 * n + 4) 4 (g.target.getD 0) ++ sparse (ga + 16 * n + 8) 1 (if g.phase then 1 else 0)

/-- The pieces of an image in memory cleared, and its bytes written there. -/
def imageMem (m : Mem) (ps : List (Nat × Nat)) (w : List (Nat × Byte)) : Mem :=
  (ps.foldl (fun m p => m.splice p.1 p.2 []) m).writeAll (w.map fun p => (pieceAt ps p.1, p.2))

/-- A bent's image written into the save area; the bent is away. -/
def State.saveBent (s : State) (x : Bent) : State :=
  let bad := s.areasBad x
  let s := s.liftAreas x
  let ps := takeOf (s.imageSize x) (s.imageGaps x)
  let w := s.imageBytes x
  let m := imageMem s.mem ps w
  let old := s.mem
  let s := ps.foldl (fun s p => (s.mend p.1 p.2).compareOwn old p.1 p.2) { s with mem := m }
  s.lookDeps.modBent x.uid fun x => { x with away := true, forced := false, image := ps, saved := w, spoilt := bad }

/-- What has changed of a switched-out bent since its image was written, as operations in flight complete, is written to its image (13 R291, 03 R67). -/
def State.updateImage (s : State) (x : Bent) : State :=
  let w := s.imageBytes x
  if w == x.saved then s
  else
    let gone := x.saved.filter fun p => !w.any fun q => q.1 == p.1
    let new := w.filter fun p => !x.saved.contains p
    let at_ (p : Nat × Byte) (v : Byte) : Nat × Byte := (pieceAt x.image p.1, v)
    (s.writeLocal none (gone.map (fun p => at_ p 0) ++ new.map fun p => at_ p p.2)).modBent x.uid fun x => { x with saved := w }

/-- The images of every switched-out bent brought up to date. -/
def State.advanceImages (s : State) : State := (s.bents.filter (·.away)).foldl State.updateImage s

/-- An image as it stands in memory. -/
def imageNow (m : Mem) : Nat → List (Nat × Nat) → List (Nat × Byte)
  | _, [] => []
  | o, (a, k) :: t => (m.cut a k).map (fun p => (o + p.1, p.2)) ++ imageNow m (o + k) t

/-- Where an image in memory no longer holds what was written: offset and byte. -/
def imageDiff (saved now : List (Nat × Byte)) : List (Nat × Byte) :=
  if saved == now then []
  else now.filter (fun p => !saved.contains p) ++ (saved.filter fun p => !now.any fun q => q.1 == p.1).map fun p => (p.1, 0)

/-- A number with its byte `k` replaced. -/
def pokeNum (n k : Nat) (v : Byte) : Nat := n - n / 2 ^ (8 * k) % 256 * 2 ^ (8 * k) + v.toNat * 2 ^ (8 * k)

/-- One byte of a parked entry read back (21 R377). -/
def Parked.poke (p : Parked) (o : Nat) (v : Byte) : Parked :=
  if o == 0 then { p with path := v.toNat }
  else if o == 1 then { p with peg := if v.getLsbD 3 then some (v.setWidth 3) else none }
  else if o == 3 then { p with cause := v }
  else if o < 4 then p
  else if o < 8 then { p with pid := pokeNum p.pid (o - 4) v }
  else if o < 16 then { p with insn := BitVec.ofNat 64 (pokeNum p.insn.toNat (o - 8) v) }
  else if o < 24 then { p with addr := BitVec.ofNat 64 (pokeNum p.addr.toNat (o - 16) v) }
  else if o < 28 then { p with prog := pokeNum p.prog (o - 24) v }
  else if o < 32 then { p with nind := pokeNum p.nind (o - 28) v }
  else p

/-- One byte of a board's image read back. -/
def Board.poke (b : Board) (o : Nat) (v : Byte) : Board :=
  let (u, m, r, a) := b.imageParts
  if o < u then
    { b with v := modAt (o / 512) (fun x => lanesOf fun l =>
        if l == o % 512 / 4 then BitVec.ofNat 32 (pokeNum (laneAt x l).toNat (o % 4) v) else laneAt x l) b.v }
  else if o < m then { b with s := modAt ((o - u) / 4) (fun x => BitVec.ofNat 32 (pokeNum x.toNat ((o - u) % 4) v)) b.s }
  else if o < r then { b with m := modAt ((o - m) / 16) (fun x => BitVec.ofNat 128 (pokeNum x.toNat ((o - m) % 16) v)) b.m }
  else if o < a then { b with b := modAt ((o - r) / 16) (fun x => { x with img := BitVec.ofNat 128 (pokeNum x.img.toNat ((o - r) % 16) v) }) b.b }
  else if o < a + 8 then { b with pegs := modAt (o - a) (fun _ => { cnt := v.toNat % 64, broken := v.getLsbD 7 }) b.pegs }
  else if o < a + 16 then b
  else if o < a + 1040 then { b with parked := modAt ((o - a - 16) / 64) (fun p => p.poke ((o - a - 16) % 64) v) b.parked }
  else { b with areaBytes := Mem.set b.areaBytes (o - a - 1040) v }

/-- One byte of a gate's part of an image read back. -/
def Gate.poke (g : Gate) (o : Nat) (v : Byte) : Gate :=
  if o < 4 then { g with count := pokeNum g.count o v }
  else if o < 8 then { g with target := g.target.map fun t => pokeNum t (o - 4) v }
  else if o == 8 then { g with phase := v.getLsbD 0 }
  else g

/-- One byte of an image that an agent has changed: the restored state is what it then means (13 R292). -/
def State.poke (s : State) (x : Bent) (p : Nat × Byte) : State :=
  let (sc, ti, ga) := s.imageParts x
  if p.1 < sc then
    s.mapBoards fun b => if b.env.bent == x.uid && b.env.index == p.1 / boardImage then b.poke (p.1 % boardImage) p.2 else b
  else s.modBent x.uid fun x =>
    if p.1 < ti then { x with scratch := x.scratch.set (p.1 - sc) p.2 }
    else if p.1 < ga then { x with tiles := x.tiles.set (p.1 - ti) p.2 }
    else { x with gates := modAt ((p.1 - ga) / 16) (fun g => g.poke ((p.1 - ga) % 16) p.2) x.gates }

/-- A bent's image read back, once (13 R292). -/
def State.loadBent (s : State) (x : Bent) : State :=
  ((imageDiff x.saved (imageNow s.mem 0 x.image)).foldl (fun s p => s.poke x p) s).modBent x.uid fun x => { x with image := [], saved := [] }

end Sys2Proof.Machine
end

