-- ==== Sys2Proof/Machine/Place.lean ====
section
/-!
DEFINITION. Where bents run: the resources of cores and bays (01 R8, R9, 02 R24 to R27), the order in which grids receive them
(13 R288), creation (02 R28), retirement (02 R35 to R37), forced pre-emption and the way out and back (13 R289 to R292), and migration
(16 R345, 25 R436).
-/
namespace Sys2Proof.Machine

/-! ### Resources -/

/-- What a bent needs (02 R24). -/
structure Need where
  boards : Nat
  scr : Nat
  tiles : Nat
deriving DecidableEq, Repr

/-- The need of a launch block's bents. -/
def Block.need (b : Block) : Need := ⟨b.boards, 32 * b.scr, b.acc⟩

/-- The bent fits on one core (02 R25). -/
def Need.single (n : Need) : Bool := n.boards ≤ 96 && n.scr ≤ 2097152 && n.tiles ≤ 16

/-- The part on the first or on the second core of a split bent (02 R25). -/
def Need.part (n : Need) (second : Bool) : Need :=
  let b := (n.boards + 1) / 2
  let t := (n.tiles + 1) / 2
  if second then ⟨n.boards - b, n.scr - firstHalf n.scr, n.tiles - t⟩ else ⟨b, firstHalf n.scr, t⟩

/-- What is taken of a core: board slots, scratchpad intervals, tiles. -/
structure CoreUse where
  slots : List Nat := []
  scr : List (Nat × Nat) := []
  tiles : Nat := 0
deriving DecidableEq, Repr

/-- The part of a placed bent on one core. -/
structure PlacePart where
  core : Nat
  need : Need
  slots : List Nat
  base : Nat
deriving DecidableEq, Repr

/-- The parts of a placed bent. -/
def placeParts (n : Need) (p : Place) : List PlacePart :=
  match p.core2 with
  | none => [⟨p.core, n, p.slots, p.bases.headD 0⟩]
  | some d =>
    let k := (n.boards + 1) / 2
    [⟨p.core, n.part false, p.slots.take k, p.bases.headD 0⟩, ⟨d, n.part true, p.slots.drop k, p.bases.getD 1 0⟩]

/-- A core's use with a placed bent added. -/
def CoreUse.add (core : Nat) (u : CoreUse) (x : Need × Place) : CoreUse :=
  (placeParts x.1 x.2).foldl (fun u q =>
    if q.core == core then { slots := u.slots ++ q.slots, scr := (q.base, q.need.scr) :: u.scr, tiles := u.tiles + q.need.tiles } else u) u

/-- Need and place of a bent that is resident. -/
def State.placed? (s : State) (x : Bent) : Option (Need × Place) :=
  if x.away then none
  else match s.grid? x.grid, x.cores with
    | some g, [c] => some (g.block.need, ⟨c, none, x.slots, x.bases⟩)
    | some g, c :: d :: _ => some (g.block.need, ⟨c, some d, x.slots, x.bases⟩)
    | _, _ => none

/-- What resident bents, and further placed ones, take of a core. -/
def State.coreUse (s : State) (extra : List (Need × Place)) (core : Nat) : CoreUse :=
  (s.bents.filterMap s.placed? ++ extra).foldl (CoreUse.add core) {}

/-- An allocation of `n` bytes may stand at a base: a multiple of 4 KiB, within the core's 2 MiB, apart from the others (10 R218). -/
def CoreUse.room (u : CoreUse) (n base : Nat) : Bool :=
  base % 4096 == 0 && base + n ≤ 2097152 && u.scr.all fun p => p.1 + p.2 ≤ base || base + n ≤ p.1 || n == 0 || p.2 == 0

/-- A part fits on its core (01 R9, 02 R24). -/
def State.partFits (s : State) (extra : List (Need × Place)) (q : PlacePart) : Bool :=
  let u := s.coreUse extra q.core
  q.core < 128 && q.slots.length == q.need.boards && q.slots.eraseDups.length == q.slots.length
  && q.slots.all (fun k => k < 96 && !u.slots.contains k)
  && u.room q.need.scr q.base && u.tiles + q.need.tiles ≤ 16

/-- A place for a bent (02 R25): one core, or two of one bay. -/
def State.placeFits (s : State) (extra : List (Need × Place)) (n : Need) (p : Place) : Bool :=
  (match p.core2 with
    | none => n.single
    | some d => !n.single && p.core < d && d / 4 == p.core / 4)
  && (placeParts n p).all (s.partFits extra)

/-- Places for several bents at once, all in one bay. -/
def State.placesFit (s : State) (bay : Nat) : List (Need × Place) → List (Need × Place) → Bool
  | _, [] => true
  | extra, x :: t => x.2.core / 4 == bay && s.placeFits extra x.1 x.2 && s.placesFit bay (x :: extra) t

/-! ### Finding places -/

/-- `n` of a core's free slots, taken as the machine chooses (02 R25). -/
def pickSlots (ctr : Nat) : Nat → List Nat → List Nat
  | 0, _ => []
  | n + 1, free =>
    let x := free.getD (Config.place (ctr + n) free.length % free.length) 0
    x :: pickSlots ctr n (free.filter (· != x))

/-- The lowest base at which an allocation has room. -/
def CoreUse.baseFor (u : CoreUse) (n : Nat) : Nat := (((List.range 512).map (4096 * ·)).find? (u.room n)).getD 0

/-- The place on given cores with slots that are free there, and the lowest bases. -/
def State.placeOn (s : State) (extra : List (Need × Place)) (n : Need) (core : Nat) (core2 : Option Nat) : Place :=
  let free (c : Nat) : List Nat := (List.range 96).filter fun k => !(s.coreUse extra c).slots.contains k
  let base (c : Nat) (m : Need) : Nat := (s.coreUse extra c).baseFor m.scr
  match core2 with
  | none => ⟨core, none, pickSlots s.freeCtr n.boards (free core), [base core n]⟩
  | some d =>
    ⟨core, some d, pickSlots s.freeCtr (n.part false).boards (free core) ++ pickSlots s.freeCtr (n.part true).boards (free d)
     , [base core (n.part false), base d (n.part true)]⟩

/-- The places of one bent in a bay. -/
def State.placesIn (s : State) (extra : List (Need × Place)) (bay : Nat) (n : Need) : List Place :=
  let cs := (List.range 4).map (4 * bay + ·)
  let tries := if n.single then cs.map fun c => s.placeOn extra n c none
    else cs.flatMap fun c => (cs.filter (c < ·)).map fun d => s.placeOn extra n c (some d)
  tries.filter (s.placeFits extra n)

/-- Places for several bents in a bay. -/
def State.groupPlaces (s : State) (bay : Nat) : List (Need × Place) → List Need → List (List Place)
  | _, [] => [[]]
  | extra, n :: t => (s.placesIn extra bay n).flatMap fun p => (s.groupPlaces bay ((n, p) :: extra) t).map (p :: ·)

/-! ### Who comes first (13 R288, 21 R372) -/

/-- The bents that the next admission of a grid creates: one, or a co-placed group (02 R24, R27). -/
def Grid.nextCount (g : Grid) : Nat :=
  if g.block.place == 1 then min (4 - g.nextBent % 4) (g.block.extent - g.nextBent) else min 1 (g.block.extent - g.nextBent)

/-- The grid has bents to create here. -/
def State.wants (s : State) (g : Grid) : Bool :=
  g.runnable && !g.aborted && g.nextBent < g.block.extent && (s.ctxOf g.ctx).movedTo.isNone

/-- The grid has a bent that is switched out. -/
def State.hasAway (s : State) (g : Grid) : Bool := s.bents.any fun x => x.grid == g.uid && x.away

/-- The context may run in a bay: a frame of its REACH in service, a bay that is not stopped (02 R25). -/
def State.mayRun (s : State) (c : BitVec 16) (bay : Nat) : Bool :=
  bay < 32 && (s.ctxOf c).frames.contains (bay / 4) && (s.frame (bay / 4)).inService && !(s.bay bay).stopped && !s.halted

/-- A trap's handler grid (21 R372). -/
def Grid.isTrap (g : Grid) : Bool :=
  match g.origin with
  | .trap _ _ => true
  | _ => false

/-- One grid comes before another: a handler grid of its context, then rank, then the order of becoming runnable. -/
def Grid.before (g h : Grid) : Bool :=
  if g.ctx == h.ctx && g.isTrap != h.isTrap then g.isTrap
  else h.rank < g.rank || (g.rank == h.rank && g.order < h.order)

/-- A record may start its handler: eligible and within its rate, or of an entry that is closed (12 R266, R271). DEDUCED: log 84. -/
def Watch.startable (w : Watch) (now : Nat) : Bool :=
  match w.pend with
  | none => false
  | some p => w.closed || (p.eligible && (w.starts.filter fun t => now < t + 1024).length < w.rate)

/-- The handler grid that a record would start, as it competes for resources (12 R266, R267). Its number is outside those of grids. -/
def Watch.claim (f : Nat) (w : Watch) : Grid :=
  { uid := 2 ^ 64 + 4096 * f + w.idx, gridid := 0, ctx := w.ctx, block := w.block, rank := min w.block.rank w.cap
    origin := .watch f w.idx (match w.pend with | some p => p.depth | none => 0)
    order := match w.pend with | some p => p.order | none => 0, runnable := true }

/-- The handler grids that wait to be admitted (12 R266). DEDUCED: log 60. -/
def State.claims (s : State) : List Grid :=
  (List.range s.frames.length).flatMap fun f =>
    ((s.frame f).watches.filter fun w => w.startable s.now).map (Watch.claim f)

/-- A grid, or a waiting handler, may take resources of a bay: with SCOPE frame it runs in its home frame (12 R267). -/
def State.claimHolds (s : State) (g : Grid) (bay : Nat) : Bool :=
  match g.origin with
  | .watch f i _ => s.mayRun g.ctx bay && (bay / 4 == f || !((s.frame f).watches.any fun w => w.idx == i && w.scope == .frame))
  | _ => s.mayRun g.ctx bay

/-- No grid that may run in the bay, and no waiting handler, comes before this one. -/
def State.firstIn (s : State) (g : Grid) (bay : Nat) : Bool :=
  (s.grids.all fun h => h.uid == g.uid || !(s.wants h || s.hasAway h) || !s.mayRun h.ctx bay || !h.before g)
  && s.claims.all fun h => h.uid == g.uid || !s.claimHolds h bay || !h.before g

/-- A bay's gates are free for a co-placed group: no other group that is resident holds them (02 R34, DEDUCED, log 35). -/
def State.bayGatesFree (s : State) (bay : Nat) (group : Nat) : Bool :=
  (s.bay bay).gates.all fun q => q.1 == group || !(s.bents.any fun x => x.group == q.1 && !x.away)

/-- A grid waits in a bay: it has bents to create, and the bay lacks the resources for the next, the gates of a group among them (13 R287). -/
def State.waitsIn (s : State) (g : Grid) (bay : Nat) : Bool :=
  s.wants g && s.claimHolds g bay
  && ((g.block.place == 1 && !s.bayGatesFree bay 0) || (s.groupPlaces bay [] (List.replicate g.nextCount g.block.need)).isEmpty)

/-! ### Creation (02 R28) -/

/-- The words that a board's uniform registers start with. -/
def startWords (param bent extent : Nat) (idx boards : Nat) : List Word :=
  [param, param >>> 32, idx, boards, bent, bent >>> 32, extent, extent >>> 32].map (BitVec.ofNat 32)

/-- A new board (02 R28). DEDUCED: log 79. -/
def newBoard (s : State) (g : Grid) (bent bentIdx idx core slot : Nat) (split : Bool) : Board :=
  let k := g.block
  let env : Env :=
    { ctx := g.ctx, grid := g.uid, bent := bent, index := idx, boards := k.boards, bentIdx := BitVec.ofNat 40 bentIdx
      extent := BitVec.ofNat 40 k.extent, gridid := g.gridid, vbud := 8 * max (k.bud % 16) (k.bud / 16), sbud := 32 * (k.sbud + 1)
      cbud := 8 * (k.bud / 16), acc := k.acc, scr := 32 * k.scr, codebase := g.codebase, nbun := g.nbun, place := k.place
      split := split }
  let zero : Lanes := List.replicate 128 0
  let ws := startWords k.param.toNat bentIdx k.extent idx k.boards
  { id := s.nextUid, env := env, core := core, slot := slot
    v := lanesOf (BitVec.ofNat 32 ·) :: List.replicate (env.vbud - 1) zero
    s := (ws ++ List.replicate (env.sbud - 8) 0), m := allLanes :: List.replicate 7 0, b := List.replicate 32 {}
    pegs := List.replicate 8 {}, ix := List.replicate 4 0, dv := List.replicate 4 zero, laneClk := zero
    slotA := { path := some ⟨g.entry, allLanes⟩ }, lanesLeft := allLanes, lastIssue := (s.bay (core / 4)).nextEdge, born := s.wall, priv := g.isTrap }

/-- Core and slot of board `k` of a bent at a place. -/
def slotAt (p : Place) (n : Need) (k : Nat) : Nat × Nat :=
  (match p.core2 with
    | some d => if k < (n.boards + 1) / 2 then p.core else d
    | none => p.core, p.slots.getD k 0)

/-- A bent created at a place, with its boards (02 R24, R28); `rec` is a handler's record. -/
def State.createBent (s : State) (g : Grid) (group : Nat) (r : Option TrigRec) (p : Place) : State :=
  let uid := s.nextUid
  let idx := ((s.grid? g.uid).map (·.nextBent)).getD 0
  let n := g.block.boards
  let s := { s with nextUid := uid + 1 }
  let bs := (List.range n).map fun k =>
    let at_ := slotAt p g.block.need k
    newBoard { s with nextUid := s.nextUid + k } g uid idx k at_.1 at_.2 p.core2.isSome
  let x : Bent :=
    { uid := uid, grid := g.uid, idx := BitVec.ofNat 40 idx, cores := p.core :: p.core2.toList, slots := p.slots, bases := p.bases
      boards := bs.map (·.id), group := group, gates := List.replicate 16 { target := some n }, record := r, since := s.now }
  { s with nextUid := s.nextUid + n, boards := s.boards ++ bs, bents := s.bents ++ [x] }.modGrid g.uid fun g =>
    { g with nextBent := g.nextBent + 1 }

/-- A bay gate before a BAR initialises it (02 R34). -/
def freshGates : List Gate := List.replicate 64 {}

/-- The bents of one admission created (02 R24, R27). -/
def State.enterBent (s : State) (g : Grid) (r : Option TrigRec) (places : List Place) : State :=
  let group := if g.block.place == 1 then s.nextUid else 0
  let s := { s with nextUid := s.nextUid + 1 }
  let s := places.foldl (fun s p => s.createBent g group r p) s
  match places with
  | p :: _ => if group == 0 then s else s.modBay (p.core / 4) fun y => { y with gates := Machine.put group freshGates y.gates }
  | [] => s

/-- The places suit an admission of the grid (02 R24, R27, 13 R288). -/
def State.mayAdmit (s : State) (g : Grid) (places : List Place) : Bool :=
  match places with
  | [] => false
  | p :: _ =>
    let bay := p.core / 4
    s.wants g && places.length == g.nextCount && s.claimHolds g bay && s.firstIn g bay
    && (g.block.place == 0 || s.bayGatesFree bay 0)
    && s.placesFit bay [] (places.map fun p => (g.block.need, p))

/-- A place lies in the scope of a release that orders nothing, and whose earlier writes are not all performed: no bent enters there yet (07 R156). -/
def State.laxAt (s : State) (places : List Place) : Bool :=
  places.any fun p => (p.core :: p.core2.toList).any fun k =>
    s.allBoards.any fun b => b.path.any fun o => o.lax && s.scopeHolds b 0 o.scope (.copy k)

/-- BENT_CREATE (02 R24, R27, R28). -/
def execBentCreate (grid : Nat) (places : List Place) (s : State) : Out :=
  event "BENT_CREATE" do
    let g ← s.grid? grid
    if s.mayAdmit g places && !s.laxAt places then some (s.enterBent g none places) else none

/-! ### Retirement (02 R35 to R37, 08 R164) -/

/-- Nothing of the board is outstanding that keeps it from retiring: pegs and landings apart. -/
def State.settled (s : State) (b : Board) : Bool :=
  b.lanesLeft == 0 && b.frozen.isNone && b.rgates.all (·.parked) && !(b.path.any fun o => !o.parked && !o.stopped)
  && !s.allCmds.any (fun c => c.board == b.id) && !s.launches.any (fun l => l.board == b.id && !l.failed)

/-- Nothing of the board is outstanding that keeps it from retiring: pegs apart. -/
def State.drained (s : State) (b : Board) : Bool := s.settled b && b.pipe.isEmpty

/-- Every peg that is not broken is zero. -/
def Board.soundPegsZero (b : Board) : Bool := b.pegs.all fun p => p.broken || p.cnt == 0

/-- The board's turn to retire, or to raise RETIRE, comes in this tick, or has come (02 R35, R36, 21 R374). -/
def State.turnToLeave (s : State) (b : Board) : Board := { b with leaves := s.settled b && b.soundPegsZero }

/-- A failed operation of the board waits for its handler (21 R374). -/
def Board.hasFailure (b : Board) : Bool := b.noPeg || b.povf || !b.parked.isEmpty || b.pegs.any (·.broken)

/-- The board retires now (02 R36, 08 R164). -/
def State.retires (s : State) (b : Board) : Bool := s.drained b && b.owed.isEmpty && b.soundPegsZero && !b.hasFailure

/-- A higher board slot of the bay has had its turn in this tick: an arrival of the board is counted in the next one (02 R35). -/
def State.lateFor (s : State) (b : Board) : Bool :=
  match (s.bay (b.core / 4)).arrSlot with
  | some k => b.slotIdx < k
  | none => false

/-- A retired board counts as an arrival at each gate of its bent (02 R35). -/
def State.retireGate (s : State) (b : Board) (n : Nat) : State :=
  if b.arrived.contains (.bent, n) then s
  else
    let g := s.gateOf b .bent n
    (s.setGate b .bent n { g with count := g.count + 1 }).settleGate b .bent n 8

/-- A bent whose boards have all retired (02 R36): its resources are free, and it counts as triggered. -/
def State.retireBent (s : State) (x : Bent) : State :=
  let s := if x.triggered then s else s.modGrid x.grid fun g => { g with triggered := g.triggered + 1 }
  let s := { s with bents := s.bents.filter (·.uid != x.uid) }
  let s := if x.group == 0 || s.bents.any (·.group == x.group) then s
    else { s with frames := s.frames.map fun f => { f with bays := f.bays.map fun y => { y with gates := y.gates.filter (·.1 != x.group) } } }
  (s.modGrid x.grid fun g => { g with retired := g.retired + 1 }).settleGrid x.grid

/-- A board gone from its bent. -/
def State.removeBoard (s : State) (b : Board) : State :=
  let s := ({ s with l1 := s.l1.filter (·.board != b.id) }.dropWaits b.id).modBent b.env.bent fun x =>
    { x with retired := b.env.index :: x.retired }
  match s.bent? b.env.bent with
  | none => s.dropBoard b.id
  | some x =>
    if x.retired.length == b.env.boards then (s.dropBoard b.id).retireBent x
    else ((List.range 16).foldl (fun s n => s.retireGate b n) s).dropBoard b.id

/-- BOARD_RETIRE (02 R36), in its turn among the tick's arrivals (R35). -/
def execBoardRetire (board : Nat) (s : State) : Out :=
  event "BOARD_RETIRE" do
    let b ← s.board? board
    if s.retires b && !s.lateFor b then some ((s.hadTurn b).removeBoard b) else none

/-! ### Leaving and coming back (13 R289 to R292) -/

/-- The bents of a bent's co-placed group, or the bent alone. -/
def State.groupBents (s : State) (x : Bent) : List Bent :=
  if x.group == 0 then [x] else s.bents.filter (·.group == x.group)

/-- A board of the bent is frozen by a trap (21 R381). -/
def State.trapFrozen (s : State) (x : Bent) : Bool := (s.boardsOf x).any (·.frozen.isSome)

/-- The commands that a save waits for: matrix commands and copies that touch the scratchpad; for a migration every command (13 R291,
16 R345). -/
def State.saveBlocked (s : State) (x : Bent) (all : Bool) : Bool :=
  s.allCmds.any fun c => c.bent == x.uid &&
    (all || match c.instr with
      | .cpa .. | .cpb .. | .cpr .. => let p := c.plan c.tab; (p.reads ++ p.writes).any (·.scr)
      | .routeCount .. | .routeXchg .. | .routePlace .. | .routeScatter .. | .routeCombine .. | .routeStat .. => false
      | _ => true)

/-- A write of the board at a remote gate that has not been performed (15 R327, R329). -/
def Board.gateWriteOpen (b : Board) : Bool := b.rgates.any fun g => !g.parked && g.opr != 2 && !g.made

/-- A board of the bent has a write on its way that is not performed: it does not issue again elsewhere before (10 R227). -/
def State.writesOpen (s : State) (x : Bent) : Bool :=
  (s.boardsOf x).any fun b => b.gateWriteOpen || b.path.any fun o => o.kind.writes && o.open && !o.parked
    && (!o.stopped || o.lines.any fun l => match l.st with | .sent _ => true | _ => false)

/-- The context's save area has room for the images of bents (13 R292). -/
def State.imagesFit (s : State) (xs : List Bent) : Bool :=
  match xs with
  | [] => false
  | x :: _ => (xs.map s.imageSize).sum ≤ ((s.imageGaps x).map (·.2)).sum

/-- Room for a bent's image with the copies that its loads under way may still bring. -/
def State.imageMost (s : State) (x : Bent) : Nat :=
  s.imageSize x + 128 * ((s.boardsOf x).map fun b => ((b.path.filter fun o => cached o.scope).map (·.lines.length)).sum).sum

/-- The room holds besides for what the bents of the context that are on their way out take (13 R292). -/
def State.imagesReserve (s : State) (xs : List Bent) : Bool :=
  match xs with
  | [] => false
  | x :: _ =>
    let out := s.bents.filter fun y => y.forced && !y.away && (s.bentCtx y).ctxid == (s.bentCtx x).ctxid && !xs.any (·.uid == y.uid)
    ((xs ++ out).map s.imageMost).sum ≤ ((s.imageGaps x).map (·.2)).sum

/-- Every unretired board of the bent is parked (13 R289). -/
def State.allParked (s : State) (x : Bent) : Bool := (s.boardsOf x).all (·.parkedY)

/-- BENT_SWITCH_OUT: a parked or forced bent, with its group, is saved (13 R289, R291). -/
def execBentSwitchOut (bent : Nat) (s : State) : Out :=
  event "BENT_SWITCH_OUT" do
    let x ← s.bent? bent
    let xs := s.groupBents x
    if x.away || x.moving.isSome || !(xs.all fun y => y.forced || s.allParked y) || xs.any s.trapFrozen
        || xs.any (fun y => s.saveBlocked y false) || !(if x.forced then s.imagesFit xs else s.imagesReserve xs) then none
    else
      let own := ((s.grid? x.grid).map fun g => s.waitsIn g (x.cores.headD 0 / 4)).getD false
      some (xs.foldl (fun s y => ((if y.forced then s else s.captureBent y).saveBent y).modBent y.uid fun y => { y with madeWay := own }) s)

/-- The places suit bents that come back: those of a group in order, in one bay (13 R291). -/
def State.mayReturn (s : State) (xs : List Bent) (places : List Place) : Bool :=
  match xs, places with
  | x :: _, p :: _ =>
    match s.grid? x.grid with
    | none => false
    | some g => xs.length == places.length && s.mayRun g.ctx (p.core / 4)
        && s.placesFit (p.core / 4) [] (places.map fun p => (g.block.need, p))
  | _, _ => false

/-- The bay gates of a group carried to a bay (13 R291). -/
def State.carryGates (s : State) (group bay : Nat) : State :=
  if group == 0 then s
  else
    let gs := (s.frames.flatMap (·.bays)).findSome? fun y => (y.gates.find? (·.1 == group)).map (·.2)
    let s := { s with frames := s.frames.map fun f => { f with bays := f.bays.map fun y => { y with gates := y.gates.filter (·.1 != group) } } }
    match gs with
    | some l => s.modBay bay fun y => { y with gates := Machine.put group l y.gates }
    | none => s

/-- A board's waits at remote gates registered again, from its new frame (16 R345): PHASE is read again. -/
def State.rewait (s : State) (b : Board) : State :=
  if b.rgates.any fun g => g.stage != .start then
    (s.dropWaits b.id).setBoard { b with gateWait := none, rgates := b.rgates.map fun g => { g with stage := .start } }
  else s

/-- A bent resident at a place: an image is read back, the stack areas go to the new slots, waits are registered again. -/
def State.settleAt (s : State) (x : Bent) (p : Place) : State :=
  let n := ((s.grid? x.grid).map (·.block.need)).getD ⟨0, 0, 0⟩
  let s := if x.away then s.loadBent x else s.liftAreas x
  let s := s.modBent x.uid fun x =>
    { x with away := false, forced := false, madeWay := false, moving := none, cores := p.core :: p.core2.toList, slots := p.slots, bases := p.bases
             since := s.now }
  let s := s.mapBoards fun b =>
    if b.env.bent == x.uid then
      let at_ := slotAt p n b.env.index
      { b with core := at_.1, slot := at_.2, parkedY := false }
    else b
  let s := (s.boardsOf x).foldl (fun s b => s.dropArea b) s
  (s.boardsOf x).foldl (fun s b => s.rewait b) s

/-- Bents come back at places. -/
def State.comeBack (s : State) (xs : List Bent) (places : List Place) : State :=
  match places, xs with
  | p :: _, x :: _ => (xs.zip places).foldl (fun s q => s.settleAt q.1 q.2) (s.carryGates x.group (p.core / 4))
  | _, _ => s

/-- A bent out of its place, for judging the places of others. -/
def State.lifted (s : State) (xs : List Bent) : State :=
  xs.foldl (fun s x => s.modBent x.uid fun x => { x with away := true }) s

/-- The image that is read back holds an uncorrectable error: of the lines of the context's images that are bad, which image holds
them is not architectural (13 R292), so it is a free choice. -/
def State.imageBad (s : State) (c : BitVec 16) : Bool :=
  let lo := (s.ctxOf c).savebase.toNat + 0x18000000
  let hi := (s.ctxOf c).savebase.toNat + (s.ctxOf c).savesz.toNat
  (s.badLines.any fun l => lo ≤ 128 * l && 128 * l < hi) && Config.chooseBit s.freeCtr

/-- A bent that has made way for its grid's next one stays out of a bay while that one can still be created there: it fits, or more is on its way
out (25 R435). -/
def State.yields (s : State) (x : Bent) (g : Grid) (bay : Nat) : Bool :=
  x.madeWay && s.wants g && s.claimHolds g bay && (!s.waitsIn g bay || s.bents.any fun y => y.forced && y.cores.headD 0 / 4 == bay)

/-- What a bent takes with it has an uncorrectable error: in its scratchpad, its tiles, its boards' own state, a result in flight or a stack area; and
on a migration in a freeze record (25 R436). -/
def State.stateBad (s : State) (x : Bent) : Bool :=
  !x.badScr.isEmpty || !x.badTiles.isEmpty || x.spoilt || (!x.away && (s.areasBad x || (s.boardsOf x).any s.recordBad))
  || (s.boardsOf x).any fun b => !b.bad.isEmpty || b.pipe.any (·.bad.isSome)

/-- Bents restored, or their grid aborted when the saved state that is read has an uncorrectable error (25 R436). -/
def State.bringBack (s : State) (g : Grid) (xs : List Bent) (places : List Place) : State :=
  if xs.any s.stateBad then s.abortGrid g.uid 3 none else s.comeBack xs places

/-- BENT_RESTORE: a switched-out bent or group returns (13 R291), or a migration ends on its target (16 R345). An uncorrectable error in the
saved state aborts the grid (25 R436). -/
def execBentRestore (bent : Nat) (places : List Place) (s : State) : Out :=
  event "BENT_RESTORE" do
    let x ← s.bent? bent
    let g ← s.grid? x.grid
    let xs := s.groupBents x
    if xs.any s.writesOpen || s.laxAt places then none
    else if x.away then
      let bay := (places.headD ⟨0, none, [], []⟩).core / 4
      if s.mayReturn xs places && s.firstIn g bay && !s.yields x g bay && (x.group == 0 || s.bayGatesFree bay x.group) then
        if s.imageBad g.ctx then some (s.free.abortGrid g.uid 3 none) else some (s.free.bringBack g xs places)
      else none
    else if xs.any fun y => y.moving.isNone || s.saveBlocked y true then none
    else if xs.map (·.moving) == places.map some && (s.lifted xs).mayReturn xs places then some (s.bringBack g xs places) else none

/-! ### Forced pre-emption (13 R290, 21 R372) -/

/-- The bay of a bent. -/
def Bent.bay (x : Bent) : Nat := x.cores.headD 0 / 4

/-- Rank of a bent's grid. -/
def State.rankOf (s : State) (x : Bent) : Nat := ((s.grid? x.grid).map (·.rank)).getD 0

/-- The moment at which a bay forces pre-emption: 20 microseconds after the slice's boundary (13 R290), at the TIME that its clock shows then. -/
def State.forceTime (s : State) (y : Bay) : Bool :=
  let t := 200000 * y.slice + 20000
  t ≤ s.now && s.now ≤ t + 1

/-- The bent may be forced out of its bay: by work of higher rank that is still not admitted, by work of equal rank that has waited through
the whole preceding slice while it stayed, or by a trap's handler at once; work that the bents forced already make room for forces no
further one. DEDUCED: log 67. -/
def State.forceable (s : State) (x : Bent) : Bool :=
  let y := s.bay x.bay
  let at_ := 200000 * y.slice
  let late := s.forceTime y
  let t := s.lifted (s.bents.filter (·.forced))
  !x.away && !x.forced && x.moving.isNone && !(s.groupBents x).any s.trapFrozen && s.imagesReserve (s.groupBents x) &&
  y.waits.any fun w => match (s.grids ++ s.claims).find? (·.uid == w.1) with
    | none => false
    | some g => t.waitsIn g x.bay &&
      (g.isTrap && !((s.grid? x.grid).map (·.isTrap)).getD false && s.rankOf x ≤ g.rank
      || (late && s.rankOf x < g.rank)
      || (late && s.rankOf x == g.rank && w.2 + 200000 ≤ at_ && x.since + 200000 ≤ at_))

/-- One bent is forced before another: lower rank, then longer resident. -/
def State.forcedBefore (s : State) (x y : Bent) : Bool :=
  s.rankOf x < s.rankOf y || (s.rankOf x == s.rankOf y && x.since < y.since)

/-- FORCED_PREEMPTION: the boards of a bent, and of its group, freeze (13 R290). -/
def execForcedPreemption (bent : Nat) (s : State) : Out :=
  event "FORCED_PREEMPTION" do
    let x ← s.bent? bent
    if s.forceable x && s.bents.all fun y => y.uid == x.uid || y.bay != x.bay || !s.forceable y || !s.forcedBefore y x then
      some ((s.groupBents x).foldl (fun s y => (s.captureBent y).modBent y.uid fun y => { y with forced := true }) s)
    else none

/-! ### Migration (16 R345, 25 R436) -/

/-- The bay is too warm, and the target at least 10 degrees cooler (16 R344): temperatures in units of 0.1 degree. A bay migrates until
its reading falls below TMIG − 5. -/
def State.tooWarm (s : State) (bay target : Nat) : Bool :=
  (s.bay bay).warm && (s.bay target).temp + 100 ≤ (s.bay bay).temp

/-- THERMAL_MIGRATION: the boards of a bent or group freeze, to restore on a cooler bay; one bent or group of a bay at a time (16 R345). -/
def execThermalMigration (bent : Nat) (places : List Place) (s : State) : Out :=
  event "THERMAL_MIGRATION" do
    let x ← s.bent? bent
    let xs := s.groupBents x
    let p ← places.head?
    if x.away || xs.any (fun y => y.forced || s.now < y.noMove || s.trapFrozen y) || p.core / 4 == x.bay
        || s.bents.any (fun y => y.moving.isSome && y.bay == x.bay)
        || !s.tooWarm x.bay (p.core / 4) || !s.mayReturn xs places || (x.group != 0 && !s.bayGatesFree (p.core / 4) x.group) then none
    else some ((xs.zip places).foldl (fun s q => (s.captureBent q.1).modBent q.1.uid fun y => { y with moving := some q.2 }) s)

/-- MIGRATION_ABANDON: the target's resources have been taken; the bent is restored where it stands, or an error in its state aborts its grid (25
R436). -/
def execMigrationAbandon (bent : Nat) (s : State) : Out :=
  event "MIGRATION_ABANDON" do
    let x ← s.bent? bent
    let g ← s.grid? x.grid
    let xs := s.groupBents x
    let ps ← xs.mapM (·.moving)
    if (s.lifted xs).mayReturn xs ps && (x.group == 0 || s.bayGatesFree ((ps.headD ⟨0, none, [], []⟩).core / 4) x.group) then none
    else
      let said := x.lastAbandon == some (s.now / 1000000)
      let now := s.now
      let s := if said then s else s.engineEntry g.ctx 0x60 (x.bay / 4 * 16 + x.bay % 4) 1 0 0
      let t := xs.foldl (fun s y => s.modBent y.uid fun y =>
        { y with moving := none, noMove := now + 10000000, lastAbandon := some (now / 1000000) }) s
      some (if xs.any s.stateBad then t.abortGrid g.uid 3 none else t)

end Sys2Proof.Machine
end

