-- ==== Sys2Proof/Machine/Sched.lean ====
section
/-!
DEFINITION. How work enters: notify writes and the mapper (13 R276 to R278), acceptance of queued blocks, LAUNCH and graphs (R279 to
R286, 25 R422 to R426), dependences, and slice boundaries (R287).
-/
namespace Sys2Proof.Machine

/-! ### Queues and the mapper (13 R276 to R278) -/

/-- A queue that is enabled and has announced blocks (13 R278). -/
def Queue.pending (q : Queue) : Bool := q.en && q.head != q.tail

/-- The function that owns a queue (17 R357); none while it is unassigned. -/
def Queue.owner (q : Queue) : Option Nat := if q.own.getLsbD 7 then some (q.own.toNat % 32) else none

/-- Offset of a queue's register group (13 R276). -/
def groupAt (q : Nat) : Nat := 0x100000 + 32 * q

/-- NOTIFY_WRITE: QTAIL takes the value, unless it announces more than the ring holds (13 R277, 25 R424). Of a function that does not own
the queue it is ignored, and of a queue that is not enabled, whose QTAIL keeps its value (26 R458, DEDUCED, log 15). -/
def execNotifyWrite (fn queue : Nat) (value : BitVec 32) (s : State) : Out :=
  event "NOTIFY_WRITE" <|
    let q := s.queue queue
    if !s.linkUp || 1024 ≤ queue || 32 ≤ fn then none
    else if q.owner != some fn then some s
    else if 2 ^ q.size.toNat < (value - q.head).toNat then
      some (s.engineTo fn q.ctx 0x39 (queue % 256) 1 (groupAt queue) 0)
    else if !q.en then some s
    else some ({ s with nextUid := s.nextUid + 1 }.modQueue queue fun q =>
      { q with tail := value, notified := if value == q.head then [] else q.notified ++ [(value, s.nextUid)] })

/-- The queue of an active slot. -/
def State.slotQueue (s : State) (slot : Nat) : Option Nat := (s.mapped.find? (·.1 == slot)).map (·.2)

/-- Slots whose queues have nothing pending are unmapped (13 R278). -/
def State.unmapDrained (s : State) : State := { s with mapped := s.mapped.filter fun p => (s.queue p.2).pending }

/-- One waiting queue is better than another: higher QMAXR, then the earlier oldest unaccepted notify write (13 R278). -/
def Queue.better (a b : Queue) : Bool :=
  b.maxr.toNat < a.maxr.toNat || (a.maxr == b.maxr && ((a.notified.head?).map (·.2)).getD 0 < ((b.notified.head?).map (·.2)).getD 0)

/-- The best of the pending unmapped queues. -/
def State.bestWaiting (s : State) : Option (Nat × Queue) :=
  (s.queues.filter fun p => p.2.pending && !s.mapped.any (·.2 == p.1)).foldl (fun best p =>
    match best with
    | none => some p
    | some b => if p.2.better b.2 then some p else some b) none

/-- A slot given to a queue, which is then the one mapped last. -/
def State.mapSlot (s : State) (slot q : Nat) : State := { s with mapped := s.mapped.filter (·.1 != slot) ++ [(slot, q)] }

/-- QUEUE_SLOT_FILL (13 R278). -/
def execQueueSlotFill (slot : Nat) (s : State) : Out :=
  event "QUEUE_SLOT_FILL" do
    let w ← s.bestWaiting
    if 32 ≤ slot || (s.slotQueue slot).isSome then none else some (s.mapSlot slot w.1)

/-- The mapper's replacement at a slice boundary (13 R278). -/
def State.replaceSlot (s : State) : State :=
  match s.bestWaiting with
  | none => s
  | some w =>
    match s.mapped.find? fun p => (s.queue p.2).maxr.toNat ≤ w.2.maxr.toNat with
    | none => s
    | some p => s.mapSlot p.1 w.1

/-- SLICE_BOUNDARY (13 R287). The boundaries of all bays coincide: the mapper replaces at that of bay 0 (R278). -/
def execSliceBoundary (bay : Nat) (s : State) : Out :=
  event "SLICE_BOUNDARY" <|
    if 32 ≤ bay || s.now / 200000 ≤ (s.bay bay).slice then none
    else
      let s := s.modBay bay fun y => { y with slice := s.now / 200000 }
      some (if bay == 0 then s.replaceSlot else s)

/-- An entry of a queue accepted: QHEAD passes it (13 R279). -/
def State.advanceHead (s : State) (q : Nat) : State :=
  (s.unfetch (queueReader q)).modQueue q fun x =>
    let h := x.head + 1
    { x with head := h, notified := if h == x.tail then [] else x.notified.filter (·.1 != h) }

/-! ### Failures of blocks (25 R420 to R422) -/

/-- A launch of a board that is removed from the list of launches in acceptance. -/
def State.dropLaunch (s : State) (id : Nat) : State := { s.unfetch id with launches := s.launches.filter (·.id != id) }

/-- A launch completed: its peg falls (09 R203). -/
def State.endLaunch (s : State) (r : LaunchReq) : State :=
  let s := s.dropLaunch r.id
  match r.queue with
  | some q => if r.stale then s else s.advanceHead q
  | none => match s.board? r.board with
    | some b => s.putBoard { b.decPeg r.peg with cmdsOut := b.cmdsOut - 1 }
    | none => s

/-- A LAUNCH of a board fails: parked with PATH 1, its peg breaks (25 R422). -/
def State.failLaunch (s : State) (r : LaunchReq) (f : BFail) : State :=
  match s.board? r.board with
  | none => s.dropLaunch r.id
  | some b =>
    let full := 16 ≤ b.parked.length
    let b := b.park { id := r.id, path := 1, peg := r.peg, cause := BitVec.ofNat 8 f.cause, insn := r.insn
                      addr := BitVec.ofNat 64 (f.addr.getD r.addr), prog := 0 }
    let b := { b.breakPeg r.peg with noPeg := b.noPeg || r.peg.isNone, cmdsOut := if full then b.cmdsOut - 1 else b.cmdsOut }
    let s := if full then s.dropLaunch r.id
      else { s.unfetch r.id with launches := s.launches.map fun x =>
        if x.id == r.id then { x with failed := true, waiting := none, bytes := [], arr := [], area := none, taken := [] } else x }
    s.putBoard b

/-- A queue's block fails: an ENGINE entry, and QHEAD passes it (25 R422). -/
def State.failQueued (s : State) (q : Nat) (c : BitVec 16) (addr : Nat) (f : BFail) : State :=
  (s.engineEntry c f.cause f.detail 1 (f.addr.getD addr) 0).advanceHead q

/-- A launch in acceptance fails in the way of its source. -/
def State.failAccept (s : State) (r : LaunchReq) (f : BFail) : State :=
  match r.queue with
  | some q =>
    let t := (s.dropLaunch r.id).engineEntry r.ctx f.cause f.detail 1 (f.addr.getD r.addr) 0
    if r.stale then t else t.advanceHead q
  | none => s.failLaunch r f

/-! ### Blocks (13 R279, R280, 09 R203) -/

/-- A launch block of its source: the grid's block, and its dependences (25 R422, 13 R283). -/
def State.tryBlock (s : State) (c : BitVec 16) (src : Source) (l : List Byte) : Except BFail (Block × Kernel × List Dep) :=
  match s.judgeBlock c src l with
  | .error e => .error e
  | .ok (b, k) =>
    match s.depsAt c 0 ((List.range b.ndep).map fun j => (b.deps.getD j 0, 32 + 8 * j)) with
    | .error e => .error e
    | .ok ds => .ok (b, k, ds)

/-- The bytes of a launch's block: as kept while it waits, or read now. LAUNCH's address must be a multiple of 64 (DEDUCED, log 30). -/
def State.launchBytes (s : State) (r : LaunchReq) : Except BFail (List Byte) :=
  if !r.bytes.isEmpty then .ok r.bytes
  else if r.addr % 64 != 0 then .error { cause := 0x14, addr := some r.addr }
  else match s.block r.ctx r.addr 64 with
    | .error e => .error (memFail e)
    | .ok l => .ok l

/-- A LAUNCH or a waiting block judged. -/
def State.tryLaunch (s : State) (r : LaunchReq) : Except BFail (List Byte × Block × Kernel × List Dep) :=
  let s := s.asReader r.id
  match s.launchBytes r with
  | .error e => .error e
  | .ok l =>
    match s.tryBlock r.ctx (if r.queue.isSome then .queue else .launch) l with
    | .error e => .error e
    | .ok x => .ok (l, x)

/-- The acceptance of a launch may begin: the writes that its release covers are performed, and it has not failed (09 R203). -/
def State.launchReady (s : State) (r : LaunchReq) : Bool :=
  !r.failed && match r.queue with
    | some _ => true
    | none => match s.board? r.board with
      | some b => b.performed r.after
      | none => false

/-- The state without the watch entries that an acceptance has taken. -/
def State.untaken (s : State) (id : Nat) : State :=
  { s with launches := s.launches.map fun x => if x.id == id then { x with taken := [] } else x }

/-- An acceptance finds every entry that it needs: those it has taken, and free ones for the rest (25 R425). -/
def State.restFits (s : State) (r : LaunchReq) (ds : List Dep) : Bool := (s.untaken r.id).depsFit ds

/-- The dependences, in order, up to the first that finds no entry. -/
def State.fitting (s : State) (r : LaunchReq) (ds : List Dep) : List Dep :=
  ds.take (((List.range ds.length).find? fun k => !s.restFits r (ds.take (k + 1))).getD ds.length)

/-- An acceptance begins to wait for watch entries, with what it has read and the entries that it has taken; or takes more (25 R425). DEDUCED: log 55. -/
def State.waitLaunch (s : State) (r : LaunchReq) (ds : List Dep) : Option State :=
  let hs := (s.fitting r ds).map fun d => homeFrame d.addr
  if r.waiting.isSome && hs.length ≤ r.taken.length then none
  else some { s with launches := s.launches.map fun x =>
    if x.id == r.id then { r with waiting := some (r.waiting.getD s.now), taken := hs } else x }

/-- Who asked, for the grid's origin. -/
def State.originOf (s : State) (r : LaunchReq) : Origin :=
  match r.queue with
  | some q => .queue (s.ctxOf r.ctx).fn q
  | none => .board r.board

/-- LAUNCH_ACCEPT: the block of a LAUNCH, or a queue's block that waited, is accepted (09 R203, 25 R425); a queue's block can fail as it is judged
again. -/
def execLaunchAccept (id : Nat) (s : State) : Out :=
  event "LAUNCH_ACCEPT" do
    let r ← s.launches.find? (·.id == id)
    if r.graph || !s.launchReady r then none
    else match s.tryLaunch r with
      | .error f =>
        if f.waits then s.awaitPeer id r.ctx f else if r.queue.isSome then some (s.failAccept r f) else none
      | .ok (l, b, k, ds) =>
        if s.restFits r ds then some ((s.addGrid r.ctx b k (s.originOf r) r.cap ds).endLaunch r)
        else s.waitLaunch { r with bytes := l } ds

/-- First failing field of a graph reference, in byte order: every field but PARAM and RANK is zero (13 R279). -/
def graphRefFail (l : List Byte) : Option BFail :=
  firstFail ([(fieldAt l 0 6, 0), (fieldAt l 6 2, 6), (fieldAt l 8 5, 8), (fieldAt l 14 1, 14), (fieldAt l 15 1, 15),
    (fieldAt l 16 4 % 2 ^ 29, 16), (fieldAt l 26 6, 26), (fieldAt l 32 8, 32), (fieldAt l 40 8, 40), (fieldAt l 48 8, 48),
    (fieldAt l 56 8, 56)].map fun p => (p.1 != 0, ⟨0x30, p.2, none⟩))

/-- QUEUE_BLOCK_ACCEPT: a mapped queue's next block is read, judged and entered (13 R279, 25 R422, R425). A graph reference becomes a
LAUNCH.G of its address; QHEAD passes an entry when its acceptance ends. The queue's context is one of its function (13 R275, R276). -/
def execQueueBlockAccept (queue : Nat) (s : State) : Out :=
  event "QUEUE_BLOCK_ACCEPT" <|
    let q := s.queue queue
    if !q.pending || !s.linkUp || !(s.ctx? q.ctx).any (fun c => q.owner == some c.fn) || !s.mapped.any (·.2 == queue) || s.launches.any (fun r => r.queue == some queue && !r.stale) then none
    else
      let at_ := q.base.toNat + 64 * (q.head.toNat % 2 ^ q.size.toNat)
      let own := s.asReader (queueReader queue)
      match own.block q.ctx at_ 64 with
      | .error e =>
        if (memFail e).waits then s.awaitPeer (queueReader queue) q.ctx (memFail e) else some (s.failQueued queue q.ctx at_ (memFail e))
      | .ok l =>
        let r : LaunchReq :=
          { id := s.nextUid, board := 0, addr := at_, graph := false, peg := none, insn := 0, cap := q.maxr.toNat, ctx := q.ctx
            queue := some queue }
        if fieldAt l 13 1 == 0 then
          match graphRefFail l with
          | some f => some (s.failQueued queue q.ctx at_ f)
          | none => some { s.unfetch (queueReader queue) with
              nextUid := s.nextUid + 1
              launches := s.launches ++ [{ r with addr := fieldAt l 20 6, graph := true, cap := min (fieldAt l 16 4 / 2 ^ 29) r.cap }] }
        else match own.tryBlock q.ctx .queue l with
          | .error f =>
            if f.waits then s.awaitPeer (queueReader queue) q.ctx f else some (s.failQueued queue q.ctx at_ f)
          | .ok (b, k, ds) =>
            if s.depsFit ds then
              some ((s.addGrid q.ctx b k (.queue (s.ctxOf q.ctx).fn queue) r.cap ds).advanceHead queue)
            else some { s.unfetch (queueReader queue) with
              nextUid := s.nextUid + 1
              launches := s.launches ++ [{ r with
                waiting := some s.now, bytes := l, taken := (s.fitting r ds).map fun d => homeFrame d.addr }] }

/-! ### Dependences (13 R284) -/

/-- DEPENDENCE_SATISFIED (13 R284). -/
def execDependenceSatisfied (grid : Nat) (s : State) : Out :=
  event "DEPENDENCE_SATISFIED" do
    let g ← s.grid? grid
    if g.runnable || g.aborted || !g.deps.all (·.met) then none else some (s.makeRunnable grid)

/-! ### Graphs (13 R285, R286, 25 R426) -/

/-- The fields of a graph descriptor in byte order (13 R285). -/
def descFails (d : List Byte) : List (Bool × BFail) :=
  let f (c : Bool) (at_ : Nat) : Bool × BFail := (c, ⟨0x36, at_, none⟩)
  let nn := fieldAt d 24 4
  [f (fieldAt d 0 8 % 64 != 0) 0, f (fieldAt d 8 8 % 32 != 0) 8, f (fieldAt d 16 8 % 64 != 0) 16, f (nn == 0 || 65536 < nn) 24,
   f (fieldAt d 28 4 % 64 != 0 || fieldAt d 28 4 < 8 * nn) 28, f (fieldAt d 32 4 == 0 || 65536 < fieldAt d 32 4) 32,
   f (fieldAt d 36 4 != 0) 36, f (fieldAt d 40 8 % 8 != 0) 40, f (fieldAt d 48 8 != 0) 48]

/-- Bytes written by the device for a context at virtual addresses, or the first failure (cause, address). -/
def State.devWriteLine (s : State) (c : BitVec 16) (va : Nat) (l : List Byte) : Except (Nat × Nat) State :=
  match s.translate c va .w with
  | .error k => .error (k, va)
  | .ok (.peer m a) =>
    .ok (s.request { id := 0, mod := m, addr := a - a % 128, group := (s.ctxOf c).podgrp, ctx := c, board := 0, source := m % 8, ordered := true
                     va := va, kind := .write (bytesAt (a % 128) l) })
  | .ok t => .ok (s.writeTarget none t (bytesAt 0 l))

/-- Zero bytes written by the device to whole lines and halves of lines: `n` pieces of 64 bytes (13 R285). -/
def State.zeroArea (s : State) (c : BitVec 16) (va : Nat) : Nat → Except (State × Nat × Nat) State
  | 0 => .ok s
  | n + 1 =>
    match s.devWriteLine c va (List.replicate 64 0) with
    | .error e => .error (s, e)
    | .ok s => s.zeroArea c (va + 64) n

/-- INST of a descriptor, and the add of 1 to it at system scope (13 R285); a peer is asked for both. -/
def State.takeInst (s : State) (reader : Nat) (c : BitVec 16) (va : Nat) : Except (Nat × Nat) (Nat × State) :=
  match s.translate c va .rw with
  | .error k => .error (k, va)
  | .ok (.loc a) => match s.counterAdd c va 1 0 with
    | .error k => .error (k, va)
    | .ok x => .ok (s.mem.num a 8, x)
  | .ok (.host a) => match s.counterAdd c va 1 0 with
    | .error k => .error (k, va)
    | .ok x => .ok (s.hostMem.num a 8, x)
  | .ok (.peer m a) => match (s.asReader reader).fetched m a .add with
    | .error k => .error (k, va)
    | .ok l => .ok (fieldAt l 0 8, s)

/-- Live instances of a descriptor, those in acceptance that have taken an area with them (25 R421, CAUSE 0x37). -/
def State.liveInsts (s : State) (c : BitVec 16) (desc : Nat) : Nat :=
  (s.graphs.filter fun x => x.ctx == c && x.desc == desc).length
  + (s.launches.filter fun r => r.ctx == c && r.addr == desc && r.area.isSome).length

/-- Dependence entries of one node, nonzero ones only, with their byte offsets; TARGET 0 and bits [2:1] are judged (25 R421). -/
def nodeDeps (row : List Byte) : List (DWord × Nat) :=
  ((List.range 4).map fun k => (BitVec.ofNat 64 (fieldAt row (8 * k) 8), 8 * k)).filter (·.1 != 0)

/-- A dependence entry of a node fails: TARGET 0 or bits [2:1] (25 R421). -/
def badDep (p : DWord × Nat) : Bool := bits p.1.toNat 48 15 == 0 || bits p.1.toNat 1 2 != 0

/-- The dependences of every node against an instance area; a failing one names its row of the dependence array. -/
def State.graphDeps (s : State) (c : BitVec 16) (area deps : Nat) (arr : List Byte) : List Nat → Except BFail (List (List Dep))
  | [] => .ok []
  | k :: t =>
    let es := nodeDeps ((arr.drop (32 * k)).take 32)
    match es.find? badDep with
    | some p => .error { cause := 0x34, detail := p.2, addr := some (deps + 32 * k) }
    | none =>
      match s.depsAt c area es with
      | .error e => .error { e with addr := some (e.addr.getD (deps + 32 * k)) }
      | .ok ds =>
        match s.graphDeps c area deps arr t with
        | .error e => .error e
        | .ok r => .ok (ds :: r)

/-- What acceptance of a graph comes to (13 R285, 25 R426): a failure with what it has done, a wait for watch entries with what it has read
and done, or the instance. -/
inductive GraphTry
  | fails (s : State) (f : BFail)
  | waits (s : State) (r : LaunchReq) (ds : List Dep)
  | done (s : State)

/-- The first three steps of an acceptance, done once (13 R285): the descriptor and the dependence array are read, INST is taken, the instance
area is zeroed. The descriptor and MAXINST are judged before INST is taken (25 R426). -/
def State.openGraph (s : State) (r : LaunchReq) : Except (State × BFail) (State × LaunchReq) :=
  if r.area.isSome then .ok (s, r)
  else if r.addr % 64 != 0 then .error (s, { cause := 0x14, addr := some r.addr })
  else match (s.asReader r.id).block r.ctx r.addr 56 with
    | .error e => .error (s, memFail e)
    | .ok d =>
      match firstFail (descFails d) with
      | some f => .error (s, f)
      | none =>
        let area (j : Nat) := fieldAt d 16 8 + j % fieldAt d 32 4 * fieldAt d 28 4
        if fieldAt d 32 4 ≤ s.liveInsts r.ctx r.addr then .error (s, { cause := 0x37 })
        else match (s.asReader r.id).block r.ctx (fieldAt d 8 8) (32 * fieldAt d 24 4) with
          | .error e => .error (s, memFail e)
          | .ok arr =>
            match s.takeInst r.id r.ctx (r.addr + 56) with
            | .error e => .error (s, memFail e)
            | .ok (j, x) =>
              match x.zeroArea r.ctx (area j) (fieldAt d 28 4 / 64) with
              | .error (y, e) => .error (y, memFail e)
              | .ok y => .ok (y, { r with bytes := d, arr := arr, area := some (area j) })

/-- A graph descriptor accepted: its first steps, then the dependence watches of every node (13 R285, 25 R425). DEDUCED: log 54. -/
def State.tryGraph (s : State) (r : LaunchReq) : GraphTry :=
  match s.openGraph r with
  | .error (x, f) => .fails x f
  | .ok (y, r) =>
    let d := r.bytes
    let area := r.area.getD 0
    match y.graphDeps r.ctx area (fieldAt d 8 8) r.arr (List.range (fieldAt d 24 4)) with
    | .error e => .fails y e
    | .ok ds =>
      if !y.restFits r ds.flatten then .waits y r ds.flatten
      else .done { y with
        nextUid := y.nextUid + 1
        graphs := y.graphs ++ [{ id := y.nextUid, ctx := r.ctx, desc := r.addr, nodesAt := fieldAt d 0 8, area := area
                                 gcomp := fieldAt d 40 8, rank := r.cap, origin := y.originOf r
                                 nodes := ds.map fun l => { deps := l } }] }

/-- GRAPH_INSTANCE_ACCEPT (13 R285): for a queue's graph reference also its failure (25 R426). -/
def execGraphInstanceAccept (id : Nat) (s : State) : Out :=
  event "GRAPH_INSTANCE_ACCEPT" do
    let r ← s.launches.find? (·.id == id)
    if !r.graph || !s.launchReady r then none
    else match s.tryGraph r with
      | .fails x f => if f.waits then x.awaitPeer id r.ctx f else if r.queue.isSome then some (x.failAccept r f) else none
      | .waits x r ds => x.waitLaunch r ds
      | .done x => some (x.endLaunch r)

/-- A block's COMP and PARAM against the instance area: bit [0] makes them relative (13 R286); a sum beyond 48 bits is noncanonical (14 R294). Bits [2:1]
of a relative PARAM are added with the rest (DESIGN CHOICE, log 118). -/
def nodeBlock (area : Nat) (b : Block) : Block :=
  let f (x : DWord) : DWord := if x.getLsbD 0 then BitVec.ofNat 64 (area + x.toNat - 1) else x
  { b with comp := f b.comp, param := f b.param, compRel := b.comp.getLsbD 0 }

/-- An instance aborted (25 R426): no further node is read, and its watches are freed. -/
def State.abortInstance (s : State) (id : Nat) : State :=
  (s.modGraph id fun x =>
    { x with aborted := true, nodes := x.nodes.map fun n => if n.grid.isNone then { n with deps := [] } else n }).settleGraph id

/-- GRAPH_NODE_READY: the block of a ready node is read and accepted, or the instance is aborted (13 R286, 25 R422, R426). -/
def execGraphNodeReady (inst node : Nat) (s : State) : Out :=
  event "GRAPH_NODE_READY" do
    let x ← s.graph? inst
    let n ← x.nodes[node]?
    if x.aborted || n.read || !n.deps.all (·.met) then none
    else
      let at_ := x.nodesAt + 64 * node
      let bad (f : BFail) : Option State :=
        if f.waits then s.awaitPeer (nodeReader inst node) x.ctx f
        else some (((s.unfetch (nodeReader inst node)).engineEntry x.ctx f.cause f.detail 1 (f.addr.getD at_) 0).abortInstance inst)
      let own := s.asReader (nodeReader inst node)
      match own.block x.ctx at_ 64 with
      | .error e => bad (memFail e)
      | .ok l =>
        match own.judgeBlock x.ctx .node l with
        | .error f => bad f
        | .ok (b, k) =>
          let s := (s.unfetch (nodeReader inst node)).modGraph inst fun x => { x with nodes := modAt node (fun n => { n with read := true, grid := some s.nextUid }) x.nodes }
          some (s.addGrid x.ctx (nodeBlock x.area b) k (.node inst node) x.rank [])

/-! ### Failures in acceptance -/

/-- The failure of a board's LAUNCH or LAUNCH.G, with the state as its acceptance leaves it (25 R422, R426). -/
def State.launchFailure (s : State) (r : LaunchReq) : Option (State × BFail) :=
  if r.queue.isSome || !s.launchReady r then none
  else if r.graph then
    match s.tryGraph r with
    | .fails x f => if f.waits then none else some (x, f)
    | _ => none
  else match s.tryLaunch r with
    | .error f => if f.waits then none else some (s, f)
    | .ok _ => none

/-- DEPENDENCE_WATCH_TIMEOUT (25 R425): 1 ms of TIME has passed since the acceptance began to wait. -/
def execDependenceWatchTimeout (id : Nat) (s : State) : Out :=
  event "DEPENDENCE_WATCH_TIMEOUT" do
    let r ← s.launches.find? (·.id == id)
    let t ← r.waiting
    if s.now < t + 1000000 then none
    else
      let fail (ds : List Dep) : Option State :=
        if s.restFits r ds then none else some (s.failAccept r { cause := 0x35, detail := (s.fitting r ds).length })
      if r.graph then
        match s.tryGraph r with
        | .waits _ _ ds => fail ds
        | _ => none
      else match s.tryLaunch r with
        | .ok (_, _, _, ds) => fail ds
        | .error _ => none

/-! ### A context that has moved (14 R311) -/

/-- A grid of a moved context with bents that the target creates. -/
def State.movedGrid (s : State) (g : Grid) : Bool :=
  (s.ctxOf g.ctx).movedTo.isSome && g.runnable && !g.aborted && !g.far && g.nextBent < g.block.extent

/-- Of grids of moved contexts whose bents here have all triggered, or all retired, those at the target have done so too when the machine says so; the
grid's release, and its retirement, follow. DESIGN CHOICE: log 103. -/
def State.advanceMoved (s : State) : State :=
  (s.grids.filter s.movedGrid).foldl (fun s g =>
    let rel := !g.farRel && g.triggered == g.nextBent
    let ret := g.farRel && g.retired == g.nextBent
    if !rel && !ret then s
    else if Config.chooseBit s.freeCtr then
      (s.free.modGrid g.uid fun g => if rel then { g with farRel := true } else { g with far := true }).settleGrid g.uid
    else s.free) s

end Sys2Proof.Machine
end

