-- ==== Sys2Proof/Machine/Watch.lean ====
section
/-!
DEFINITION. Watched ranges (12 R258 to R267, 25 R430, R431, R459): arming, records that become eligible, and handlers that start; and the
paging service of the service cores (23 R413).
-/
namespace Sys2Proof.Machine

/-! ### Arming (12 R258, R259, R270, 25 R430) -/

/-- The fields of a watch descriptor in byte order (12 R258). -/
def watchFails (d : List Byte) : List (Bool × BFail) :=
  let f (c : Bool) (at_ : Nat) : Bool × BFail := (c, ⟨0x40, at_, none⟩)
  [f (fieldAt d 0 8 % 128 != 0) 0, f (fieldAt d 8 2 == 0 || 4096 < fieldAt d 8 2) 8, f (3 ≤ fieldAt d 10 1) 10,
   f (fieldAt d 11 1 < 5 || 9 < fieldAt d 11 1) 11, f (fieldAt d 12 1 == 0 || 15 < fieldAt d 12 1) 12, f (fieldAt d 14 1 == 0) 14,
   f (fieldAt d 15 1 != 0) 15, f (fieldAt d 20 4 != 0) 20, f (fieldAt d 24 8 % 64 != 0) 24]
  ++ (List.range 4).map fun k => f (fieldAt d (32 + 8 * k) 8 != 0) (32 + 8 * k)

/-- Scope of a code 5 to 9 (07 R98). -/
def scopeOf (n : Nat) : Scope := match n with | 5 => .frame | 6 => .package | 7 => .node | 8 => .pod | _ => .system

/-- The 64 KiB pages of a range. -/
def rangePages (base nlines : Nat) : List Nat :=
  (List.range ((base + 128 * nlines - 1) / 65536 - base / 65536 + 1)).map fun k => 65536 * (base / 65536 + k)

/-- The pages translated in ascending order, or the first failure: virtual page, then where it lies (12 R259, 25 R430). -/
def State.rangeTargets (s : State) (c : BitVec 16) : List Nat → Except BFail (List (Nat × Target))
  | [] => .ok []
  | p :: t =>
    match s.translate c p .r with
    | .error k => .error { cause := k, addr := some p }
    | .ok x =>
      match s.rangeTargets c t with
      | .error e => .error e
      | .ok r => .ok ((p, x) :: r)

/-- Home frame of a line's page; none for a page that is not local. -/
def pageHome (ps : List (Nat × Target)) (va : Nat) : Option Nat :=
  match ps.find? fun p => p.1 == va / 65536 * 65536 with
  | some (_, .loc a) => some (homeFrame a)
  | _ => none

/-- An arming judged (25 R430): the frame, the entry as it will be without its index, and the pages to pin. -/
def State.judgeArm (s : State) (b : Board) (x : Nat) : Except BFail (Nat × Watch × List (Nat × Nat)) :=
  let c := b.env.ctx
  if x % 64 != 0 then .error { cause := 0x14, addr := some x }
  else match s.block c x 64 with
    | .error e => .error (memFail e)
    | .ok d =>
      match firstFail (watchFails d) with
      | some f => .error { f with addr := some x }
      | none =>
        let hblk := fieldAt d 24 8
        match s.block c hblk 64 with
        | .error e => .error (memFail e)
        | .ok l =>
          match s.judgeBlock c .handler l with
          | .error f => .error { f with addr := some (f.addr.getD hblk) }
          | .ok (blk, _) =>
            let base := fieldAt d 0 8
            let n := fieldAt d 8 2
            match s.rangeTargets c (rangePages base n) with
            | .error f => .error { f with addr := some (max base (f.addr.getD base)) }
            | .ok ps =>
              let f := pageHome ps base
              match (List.range n).find? fun i => let h := pageHome ps (base + 128 * i); h.isNone || h != f with
              | some i => .error { cause := 0x41, addr := some (base + 128 * i) }
              | none =>
                let f := f.getD 0
                if 4096 ≤ s.watchesUsed f then .error { cause := 0x42, addr := some x }
                else
                  let pins := (ps.filterMap fun p => match s.pageOf c p.1 with | .ok q => some q | .error _ => none).eraseDups
                  .ok (f,
                    { idx := 0, gen := 0, ctx := c, base := base
                      pages := ps.filterMap fun p => match p.2 with | .loc a => some (p.1, a) | _ => none
                      pinned := pins.map (·.1), nlines := n, mode := fieldAt d 10 1, scope := scopeOf (fieldAt d 11 1)
                      dmax := fieldAt d 12 1, win := fieldAt d 13 1, rate := fieldAt d 14 1, value := BitVec.ofNat 32 (fieldAt d 16 4)
                      hblk := hblk, block := blk, blockBytes := l, cap := ((s.grid? b.env.grid).map (·.rank)).getD 0 }, pins)

/-- A free slot of a frame's watch table: which one is not stated. An internal watch (12 R274) is counted
only: it takes no numbered slot and advances no GEN. DESIGN CHOICE: log 59. -/
def State.freeSlot (s : State) (f : Nat) : Nat :=
  let free := (List.range 4096).filter fun k => !(s.frame f).watches.any (·.idx == k)
  free.getD (Config.place s.freeCtr free.length % free.length) 0

/-- Generation that a slot's next entry carries (12 R260); a slot that was never used starts at 0 (DESIGN CHOICE, log 38). -/
def Frame.nextGen (f : Frame) (idx : Nat) : BitVec 17 :=
  match f.gens.find? (·.1 == idx) with
  | some g => g.2 + 1
  | none => 0

/-- WATCH_ARM_COMPLETE (12 R270): the entry becomes active and the handle lands. A full page-lock table makes it wait (14 R299). -/
def execWatchArmComplete (board op : Nat) (s : State) : Out :=
  event "WATCH_ARM_COMPLETE" do
    let b ← s.board? board
    let o ← b.op? op
    match o.kind with
    | .arm x =>
      if b.fillHeld o || !b.mayPerform o [] || o.fail.isSome then none
      else match (s.asReader o.id).judgeArm b x.toNat with
        | .error f => if f.waits then s.awaitPeer o.id b.env.ctx f else none
        | .ok (f, w, pins) =>
          let s := s.unfetch o.id
          if !s.pinsFit f b.env.ctx pins then none
          else
            let idx := s.freeSlot f
            let gen := (s.frame f).nextGen idx
            let s := (s.modFrame f fun x =>
              { x with
                watches := x.watches ++ [{ w with idx := idx, gen := gen }]
                gens := put idx gen x.gens
                pins := pins.foldl (fun l p => pin b.env.ctx p l) x.pins }).free
            some (s.putBoard ((b.fill o.dest 0 [handleOf f gen idx]).complete o))
    | _ => none

/-- The failure of an arming (25 R430): cause and address. -/
def State.armFailure (s : State) (b : Board) (o : MemOp) : Option (Nat × Nat) :=
  match o.kind with
  | .arm x =>
    if !b.mayPerform o [] then none
    else match (s.asReader o.id).judgeArm b x.toNat with
      | .error f => if f.waits then none else some (f.cause, f.addr.getD x.toNat)
      | .ok _ => none
  | _ => none

/-! ### Records and handlers (12 R266, R267) -/

/-- RECORD_ELIGIBLE: WIN × 64 ns have passed since WTIME (12 R266). -/
def execRecordEligible (frame entry : Nat) (s : State) : Out :=
  event "RECORD_ELIGIBLE" do
    let w ← (s.frame frame).watches.find? (·.idx == entry)
    let p ← w.pend
    if p.eligible || s.now < p.wtime + 64 * w.win then none
    else
      let n := s.nextUid
      some ({ s with nextUid := n + 1 }.modWatch frame entry fun w => { w with pend := some { p with eligible := true, order := n } })

/-- The eight words of a record (12 R264). -/
def recordWords (f : Nat) (w : Watch) (p : PendRec) : List Word :=
  [handleOf f w.gen w.idx, p.seq, p.bitmap.setWidth 32, (p.bitmap >>> 32).setWidth 32,
   BitVec.ofNat 32 (p.depth % 16 * 65536 + p.count % 65536), p.storer, BitVec.ofNat 32 (p.kind.toNat * 2 ^ 28), BitVec.ofNat 32 p.wtime]

/-- HANDLER_START (12 R266, R267): the record's handler grid is created and its bent admitted, or the block fails when it is judged again
and the record is lost (25 R459). -/
def execHandlerStart (frame entry : Nat) (place : Place) (s : State) : Out :=
  event "HANDLER_START" do
    let w ← (s.frame frame).watches.find? (·.idx == entry)
    let p ← w.pend
    if !w.startable s.now then none
    else
      let who := watchReader frame entry
      match (s.asReader who).judgeBlock w.ctx .handler w.blockBytes with
      | .error e =>
        if e.waits then s.awaitPeer who w.ctx e
        else some (((s.unfetch who).modWatch frame entry fun w => { w with pend := none }).engineEntry w.ctx e.cause e.detail 1 (e.addr.getD w.hblk)
          (handleOf frame w.gen w.idx).toNat)
      | .ok (blk, k) =>
        if !s.mayAdmit (w.claim frame) [place] || s.laxAt [place] then none
        else
          let now := s.now
          let s := (s.unfetch who).modWatch frame entry fun w =>
            { w with pend := none, starts := now :: w.starts.filter fun t => now < t + 1024 }
          let uid := s.nextUid
          let s := s.addGrid w.ctx blk k (.watch frame entry p.depth) w.cap []
          let g ← s.grid? uid
          some (s.enterBent g (some ⟨recordWords frame w p⟩) [place])

/-! ### Paging service (23 R413) -/

/-- The map entry that covers an address: page base, level and leaf. -/
def mapEntry (map : List Byte) (va : Nat) : Option (Nat × Nat × DWord) :=
  (List.range (map.length / 16)).findSome? fun k =>
    let w := fieldAt map (16 * k) 8
    let base := w - w % 4
    if w % 4 < 3 && base ≤ va && va < base + pageSize (w % 4) then some (base, w % 4, BitVec.ofNat 64 (fieldAt map (16 * k + 8) 8)) else none

/-- The existing table of a level for an address. -/
def State.tableFor (s : State) (va target : Nat) : Nat → Nat → Option Nat
  | level, table =>
    if level == target then some (entryAddr table va level)
    else
      let w : DWord := BitVec.ofNat 64 (s.mem.num (entryAddr table va level) 8)
      if s.badAt (entryAddr table va level) || !w.getLsbD 0 || malformed w level || w.getLsbD 1 then none
      else match level with
        | 0 => none
        | l + 1 => s.tableFor va target l (bits w.toNat 8 32 * 256)

/-- The leaves for the absent pages of a board's parked operations: address of the entry, leaf, page base and size. -/
def State.leavesFor (s : State) (b : Board) : Option (List (Nat × DWord × Nat × Nat)) :=
  let c := s.ctxOf b.env.ctx
  match s.blockNow b.env.ctx c.pgmap.toNat 64 with
  | .error _ => none
  | .ok h =>
    match s.blockNow b.env.ctx (c.pgmap.toNat + 64) (16 * fieldAt h 0 4) with
    | .error _ => none
    | .ok map =>
      (b.parked.filter fun p => p.cause == 0x18#8).mapM fun p => do
        let (base, level, leaf) ← mapEntry map p.addr.toNat
        let at_ ← s.tableFor base level 3 c.root.toNat
        some (at_, leaf, base, pageSize level)

/-- PAGING_SERVICE (23 R413): the leaves are written, the range invalidated, and the board restored; or the trap is delivered. -/
def execPagingService (board : Nat) (s : State) : Out :=
  event "PAGING_SERVICE" do
    let b ← s.board? board
    let f ← b.frozen
    if !f.held then none
    else
      let f := { f with held := false }
      let b := { b with frozen := some f }
      let c := s.ctxOf b.env.ctx
      match if c.pgmap == 0 then none else s.leavesFor b with
      | none => some ((s.setBoard b).deliver b f)
      | some ls =>
        let s := ls.foldl (fun s l => s.writeLocal none (bytesAt l.1 (leBytes 8 l.2.1.toNat))) s
        let s := { s with tlb := s.tlb.filter fun e => !(e.ctx == b.env.ctx && ls.any fun l => e.base < l.2.2.1 + l.2.2.2 && l.2.2.1 < e.base + e.size) }
        let a := s.recordAt b
        let pegs := s.mem.num (a + 0x68) 8
        let w := bytesAt (a + 0x68) (tab 8 fun k => BitVec.ofNat 8 (bits pegs (8 * k) 7)) ++ [(a + 2, 0)]
          ++ (List.range (min b.parked.length 16)).map fun k => (a + 0x302 + 64 * k, 0)
        let s := (s.writeLocal none w).modCtx b.env.ctx fun c => { c with pgcnt := c.pgcnt + 1 }
        some ((s.setBoard b).restore b f 0 0)

end Sys2Proof.Machine
end

