-- ==== Sys2Proof/Machine/Front.lean ====
section
/-!
DEFINITION. The front of the pipeline: which slot of a board issues next (02 R40), the fetch of its bundle (03 R43, 23 R406), the traps
that a bundle meets before it issues (21 R369, R370, R374), bind bundles (14 R307 to R309, 25 R433), switch points (16 R335), and the
traps between bundles (25 R434, 21 R374).
-/
namespace Sys2Proof.Machine

/-! ### What stands at a bundle index -/

/-- What a slot meets at its bundle index. -/
inductive Front
  /-- Outside the board's code object (22 R392). -/
  | outside
  /-- In the bind region (14 R308). -/
  | bind
  /-- The line cannot be fetched (23 R406). -/
  | unfetched
  | bundle (w : BundleWord)
deriving DecidableEq, Repr

/-- The bundle index lies in the bind region of the board's object (14 R304). -/
def State.inBinds (s : State) (b : Board) (pc : BitVec 48) : Bool :=
  let d := s.descriptor b
  let lo := b.env.codebase.toNat + fieldAt d 24 4
  fieldAt d 28 4 != 0 && lo ≤ pc.toNat && pc.toNat < lo + fieldAt d 28 4

/-- What a slot meets (14 R308, 22 R392, 23 R406). A fetch reads what the home holds: whether one after a write to the code object sees it, 14 R305 and
23 R416 leave open. DESIGN CHOICE: log 115. -/
def State.front (s : State) (b : Board) (pc : BitVec 48) : Front :=
  if !b.inObject pc then .outside
  else if s.inBinds b pc then .bind
  else match s.readVa true b.env.ctx .x 2 (32 * pc.toNat) 32 with
    | .error _ => .unfetched
    | .ok l => .bundle (bytesBundle l)

/-- The wait mask of what stands there (05 R89). -/
def Front.wait : Front → BitVec 8
  | .bundle w => w.extractLsb' 5 8
  | _ => 0

/-! ### The slot that issues (02 R40) -/

/-- The broken pegs. -/
def Board.brokenMask (b : Board) : BitVec 8 := BitVec.ofNat 8 (((List.range 8).map fun k => if (b.peg k).broken then 2 ^ k else 0).sum)

/-- Every peg that a mask selects is zero and whole (03 R60, 21 R374). -/
def Board.pegsZero (b : Board) (wait : BitVec 8) : Bool :=
  (List.range 8).all fun k => !wait.getLsbD k || ((b.peg k).cnt == 0 && !(b.peg k).broken)

/-- The board's bent is out, or on its way (13 R290, R291, 16 R345): the board is frozen with it. -/
def State.stands (s : State) (b : Board) : Bool :=
  b.frozen.isSome || match s.bent? b.env.bent with
    | some x => x.away || x.forced || x.moving.isSome
    | none => true

/-- An operation of the board on a remote gate holds it: an arrival whose phase has not returned, or a wait (15 R327, R328). -/
def Board.atRemote (b : Board) : Bool := b.rgates.any fun g => !g.parked && g.opr ≤ 2

/-- Every remote arrival that holds the board waits for a write that stands failed, or behind a failure: only the trap of the failure ends that
(21 R374). DEDUCED: log 28. -/
def Board.barredArrival (b : Board) : Bool := b.stopped && b.rgates.all fun g => g.parked || 2 < g.opr || !b.performed g.after

/-- Ready but for its pegs: a gap that has elapsed, no gate, no yield, no freeze (02 R40, 15 R327, 21 R374). -/
def State.gapOver (s : State) (b : Board) : Bool :=
  !s.stands b && b.gapRem == 0 && b.gateWait.isNone && !b.parkedY && (!b.atRemote || b.barredArrival)

/-- A slot has a path, is not parked on a bind entry, and its target is fetched. -/
def PcSlot.stands (x : PcSlot) : Bool := x.path.isSome && x.park.isNone && !x.fetching

/-- How a slot's next bundle stands to the pegs: it may issue, or its mask names a broken peg. -/
def State.slotReady (s : State) (b : Board) (isB : Bool) : Bool :=
  let x := b.slotOf isB
  x.stands && match x.path with
    | none => false
    | some p =>
      let w := (s.front b p.pc).wait
      (b.pegsZero w && (!b.atRemote || b.noPeg)) || w &&& b.brokenMask != 0

/-- The target of a slot's taken branch is still to be fetched. -/
def PcSlot.unfetched (x : PcSlot) : Bool := x.path.isSome && x.park.isNone && x.fetching

/-- The slot whose turn it is, one that is not ready passed over (02 R40). -/
def State.inTurn (s : State) (b : Board) : Option Bool :=
  if !s.gapOver b then none
  else if s.slotReady b b.turnB || (b.slotOf b.turnB).unfetched then some b.turnB
  else if s.slotReady b (!b.turnB) || (b.slotOf (!b.turnB)).unfetched then some (!b.turnB)
  else none

/-- The slot that issues next (02 R40); none while its target is unfetched (03 R43). -/
def State.nextSlot (s : State) (b : Board) : Option Bool :=
  match s.inTurn b with
  | some x => if (b.slotOf x).unfetched then none else some x
  | none => none

/-- The bundle of a slot taken into issue: its index, lanes and header (05 R89). A bind bundle has an effective gap of 3 (14 R308).
Its encoded gap, by which the encoded clock moves (03 R54), is nowhere stated: 3 too. DESIGN CHOICE: log 107. -/
def curOf (isB : Bool) (p : Path) : Front → Cur
  | .bundle w =>
    let h := (decodeBundle w).hdr
    { slotB := isB, pc := p.pc, mask := p.mask, gap := h.g, y := h.y, w := h.w }
  | .bind => { slotB := isB, pc := p.pc, mask := p.mask, gap := 3 }
  | _ => { slotB := isB, pc := p.pc, mask := p.mask }

/-! ### Traps before issue (21 R369, R370) -/

/-- CODE of BROKEN and RETIRE (23 R403). -/
def Board.brokenCode (b : Board) (fetch : Bool) (mask : BitVec 8) : Word :=
  BitVec.ofNat 32 (min b.parked.length 16 * 2 ^ 24 + ((b.parked.head?).map (·.cause.toNat)).getD 0 * 2 ^ 16
    + (if fetch then 512 else 0) + (if b.noPeg then 256 else 0) + mask.toNat)

/-- ADDR of BROKEN and RETIRE: that of parked entry 0 (23 R403). -/
def Board.brokenAddr (b : Board) : DWord := ((b.parked.head?).map (·.addr)).getD 0

/-- BROKEN before a bundle whose mask names broken pegs, or before any bundle after a failure without a peg (21 R374, 23 R403). -/
def Board.brokenTrap (b : Board) (wait : BitVec 8) : List Trap :=
  if b.noPeg || wait &&& b.brokenMask != 0 then
    [{ cls := clsBroken, slot := 7, code := b.brokenCode false (wait &&& b.brokenMask), addr := b.brokenAddr }]
  else []

/-- A slot's word with the bits from `p` up cleared; of a copy/matrix word below its peg field a peg is put in its place, so that what
stands lower can be read. -/
def clipped {n : Nat} (w : BitVec n) (p : Nat) (peg : Bool) : BitVec n :=
  (w &&& BitVec.ofNat n (2 ^ p - 1)) ||| (if peg && p ≤ 32 && w.extractLsb' 0 6 != 0x18#6 then BitVec.ofNat n (2 ^ 35) else 0)

/-- The lowest bit of a word, from bit `p` up, that is set; `fuel` bounds the search. -/
def lowestFrom {n : Nat} (w : BitVec n) : Nat → Nat → Option Nat
  | 0, _ => none
  | fuel + 1, p => if w.getLsbD p then some p else lowestFrom w fuel (p + 1)

/-- A word with an operand field of each kind in turn put at bit `p` (05 R92): the first with which the field is no longer refused. -/
def withKind {n : Nat} (d : BitVec n → Except Prob Instr) (w : BitVec n) (p : Nat) : Option (BitVec n) :=
  ([0, 0x200, 0x400, 0x408].map fun k => (w &&& ~~~BitVec.ofNat n (0x7FF * 2 ^ p)) ||| BitVec.ofNat n (k * 2 ^ p)).find? fun x =>
    match d x with
    | .ok _ => true
    | .error e => e.fpos.toNat != p

/-- What the fields of a word that does not decode say besides the offending ones: an operand field whose kind is refused is taken as of a kind that is
not; of another field bits are cleared from it up, one at a time, until the word decodes; and a peg that is missing is put in. The lowest bits of the
offending fields are given with it; where none are left to clear, or the opcode is unassigned, nothing of the word can be read. -/
def readable {n : Nat} (d : BitVec n → Except Prob Instr) : Nat → List Nat → BitVec n → Option (Instr × List Nat)
  | 0, _, _ => none
  | fuel + 1, but, w =>
    match d w with
    | .ok i => some (i, but)
    | .error e =>
      let p := e.fpos.toNat
      if p < 6 then none
      else if e.reason == 0x07#8 then readable d fuel but (w ||| BitVec.ofNat n (2 ^ (p + 3)))
      else
        match if e.reason == 0x04#8 || e.reason == 0x05#8 then withKind d w p else none with
        | some x => readable d fuel (p :: but) x
        | none => (lowestFrom w n p).bind fun k => readable d fuel (p :: but) (w &&& ~~~BitVec.ofNat n (2 ^ k))

/-- One slot of a bundle in the order of judging: its number, what it decodes to, what its lower fields decode to, and what its other fields do. -/
structure SlotView where
  num : Nat
  res : SlotRes
  below : Nat → SlotRes
  rest : Unit → Option (Instr × List Nat)

/-- The four slots of a bundle. One whose presence bit is 0 is empty whatever it holds: it names no operand (05 R90). -/
def slotViews (w : BundleWord) : List SlotView :=
  let b := decodeBundle w
  let here {n : Nat} (k : Nat) (d : BitVec n → Except Prob Instr) (x : BitVec n) : Option (Instr × List Nat) :=
    if w.getLsbD (16 + k) then readable d 64 [] x else none
  let vec := w.extractLsb' 32 64
  let mem := w.extractLsb' 96 64
  let cmx := w.extractLsb' 160 64
  let ctl := w.extractLsb' 224 32
  [⟨0, b.vec, fun p => some (decodeVec (clipped vec p false)), fun _ => here 0 decodeVec vec⟩,
   ⟨1, b.mem, fun p => some (decodeMem (clipped mem p false)), fun _ => here 1 decodeMem mem⟩,
   ⟨2, b.cmx, fun p => some (decodeCmx (clipped cmx p true)), fun _ => here 2 decodeCmx cmx⟩,
   ⟨3, b.ctl, fun p => some (decodeCtl (clipped ctl p false)), fun _ => here 3 decodeCtl ctl⟩]

/-- The trap of an encoding: the first field in field order, one that only the values read show included (22 R384, R385). -/
def State.badField (s : State) (b : Board) (v : SlotView) (e : Prob) : Trap :=
  let code : Word := e.value ++ e.fpos ++ e.reason
  match v.below e.fpos.toNat with
  | some (.ok i) =>
    match firstFind ((s.illegals b i).filter fun f => f.key < e.fpos.toNat) with
    | some f => { cls := clsIllegal, slot := v.num, code := f.code, addr := f.addr }
    | none => { cls := clsIllegal, slot := v.num, code := code }
  | _ => { cls := clsIllegal, slot := v.num, code := code }

/-- The trap of a slot that does not decode: a window on one of its other fields is the lower class (21 R370). DEDUCED: log 105. -/
def State.badSlot (s : State) (b : Board) (v : SlotView) (e : Prob) : Trap :=
  let win := if (s.ctxOf b.env.ctx).chkWindow then
      (v.rest ()).bind fun r => b.windowFindBut s.cur.slotB s.cur.mask r.1 r.2
    else none
  match win with
  | some c => { cls := clsWindow, slot := v.num, code := c }
  | none => s.badField b v e

/-- What a slot that does not decode writes by its other fields, noted (03 R49). -/
def State.noteBad (s : State) (b : Board) (v : SlotView) : Board :=
  match v.rest () with
  | some r => b.noteBut s.cur.slotB s.cur.mask r.1 r.2
  | none => b

/-- The traps of the slots in their order; each sees the writes that the slots before it have noted (03 R49). -/
def State.slotTraps (s : State) : Board → List SlotView → List Trap
  | _, [] => []
  | b, v :: t =>
    match v.res with
    | none => s.slotTraps b t
    | some (.error e) => s.badSlot b v e :: s.slotTraps (s.noteBad b v) t
    | some (.ok i) => (judge s b i).toList ++ s.slotTraps (b.note s.cur.slotB s.cur.mask i) t

/-- The first of the lowest class (21 R370). -/
def lowestTrap : List Trap → Option Trap
  | [] => none
  | t :: r =>
    match lowestTrap r with
    | some u => if u.cls < t.cls then some u else some t
    | none => some t

/-- The address of a bind entry and where it lies (14 R308): its compare-exchange needs R and W, and the host only answers while the link is up
(26 R455), a peer only within a pod group and while it is not lost (15 R316, 26 R445). DEDUCED: log 58. -/
def State.bindAt (s : State) (b : Board) (acc : Acc) : Except Nat Target :=
  match s.translate b.env.ctx (32 * s.cur.pc.toNat) acc with
  | .ok (.host a) => if s.linkUp then .ok (.host a) else .error (if acc == .rw then 0x70 else 0x74)
  | .ok (.peer m a) =>
    if (s.ctxOf b.env.ctx).podgrp == 0 then .error 0x72 else if s.lost.contains m then .error 0x71 else .ok (.peer m a)
  | r => r

/-- The 32 bytes of a bind entry as the bundle in issue reads them: of a peer's, what it has returned (15 R319). -/
def State.bindEntry (s : State) (b : Board) (t : Target) : Except Nat (List Byte) :=
  match t with
  | .peer m a => ((s.asReader (bindReader b.id s.cur.slotB)).fetched m (a - a % 128) .line).map fun l => (l.drop (a % 128)).take 32
  | .loc a => if s.badAt a then .error 0x20 else .ok (s.readTarget t 32)
  | .host _ => .ok (s.readTarget t 32)

/-- BUDGET of a bind bundle that finds BOUND (22 R393, KIND 6). -/
def State.bindTrap (s : State) (b : Board) : List Trap :=
  match (s.bindAt b .r).bind (s.bindEntry b) with
  | .ok e =>
    if fieldAt e 0 1 % 4 == 2 && b.env.cbud < 8 * fieldAt e 20 1 then
      [{ cls := clsBudget, slot := 7, code := BitVec.ofNat 32 (8 * fieldAt e 20 1 * 65536 + 6), addr := BitVec.ofNat 64 (fieldAt e 8 6) }]
    else []
  | .error _ => []

/-- The trap that the bundle in issue meets, `b` the board before it (21 R370, 22 R384). DEDUCED: log 56. -/
def State.frontTrap (s : State) (b : Board) : Option Trap :=
  match s.front b s.cur.pc with
  | .outside => some { cls := clsIllegal, slot := 7, code := 0x09, addr := s.cur.pc.setWidth 64 }
  | .unfetched => some { cls := clsBroken, slot := 7, code := b.brokenCode true 0, addr := BitVec.ofNat 64 (32 * s.cur.pc.toNat) }
  | .bind => lowestTrap (s.bindTrap b ++ b.brokenTrap 0)
  | .bundle w =>
    let h := (decodeBundle w).hdrBad
    lowestTrap ((h.map fun e => ({ cls := clsIllegal, slot := 7, code := e.value ++ e.fpos ++ e.reason } : Trap)).toList
      ++ s.slotTraps (b.start (w.extractLsb' 5 8)) (slotViews w) ++ b.brokenTrap (w.extractLsb' 5 8))

/-! ### The traps as steps -/

/-- Number of a slot in SLOT of the record (21 R375). -/
def trapSlotNum : TrapSlot → Nat
  | .vec => 0
  | .mem => 1
  | .cmx => 2
  | .ctl => 3
  | .none => 7

/-- The trap of the bundle in issue, if it is the one named, taken before the bundle (21 R369). -/
def trapStep (name : String) (cls : Nat) (slot : TrapSlot) (code : BitVec 32) (addr : BitVec 64) (s : State) : Out :=
  event name do
    let b ← s.bd
    let t ← s.frontTrap b
    if !s.cur.done && b.frozen.isNone && t == { cls := cls, slot := trapSlotNum slot, code := code, addr := addr } then some (s.raise b t)
    else none

/-- WINDOW (22 R397). -/
def execWindow (slot : TrapSlot) (code : BitVec 32) (addr : BitVec 64) (s : State) : Out := trapStep "WINDOW" clsWindow slot code addr s

/-- ILLEGAL (22 R385). -/
def execIllegal (slot : TrapSlot) (code : BitVec 32) (addr : BitVec 64) (s : State) : Out := trapStep "ILLEGAL" clsIllegal slot code addr s

/-- PRIV (22 R396). -/
def execPriv (slot : TrapSlot) (code : BitVec 32) (addr : BitVec 64) (s : State) : Out := trapStep "PRIV" clsPriv slot code addr s

/-- BUDGET (22 R393). -/
def execBudget (slot : TrapSlot) (code : BitVec 32) (addr : BitVec 64) (s : State) : Out := trapStep "BUDGET" clsBudget slot code addr s

/-- STACK (22 R394). -/
def execStack (slot : TrapSlot) (code : BitVec 32) (addr : BitVec 64) (s : State) : Out := trapStep "STACK" clsStack slot code addr s

/-- A location of the board's own state in error from now on: one of the pipeline with its entry. -/
def Board.spoilAt (b : Board) (x : BadLoc) : Board :=
  if x.store == 5#8 && 16 ≤ x.num.toNat then
    { b with pipe := modAt (x.num.toNat - 16) (fun e => { e with bad := some x.lane }) b.pipe }
  else { b with bad := x :: b.bad }

/-- MACHINE (23 R415): the trap of the bundle in issue when the location is known to be in error; otherwise the error arises now, and the
next read of the location finds it. DEDUCED: log 66. -/
def execMachine (slot : TrapSlot) (store lane : BitVec 8) (num : BitVec 16) (s : State) : Out :=
  event "MACHINE" do
    let b ← s.bd
    let x : BadLoc := { store := store, lane := lane, num := num }
    if b.frozen.isSome || store == 0 || 6 < store.toNat then none
    else
      match s.frontTrap b with
      | some t =>
        if !s.cur.done && t == { cls := clsMachine, slot := trapSlotNum slot, code := x.code } then some (s.raise b t)
        else some { s with bd := some (b.spoilAt x) }
      | none => some { s with bd := some (b.spoilAt x) }

/-- A board put in focus, with the bundle of its next slot in issue. -/
def State.present (s : State) (id : Nat) : Option (State × Board) := do
  let b ← s.board? id
  let isB ← s.nextSlot b
  let p ← (b.slotOf isB).path
  some ({ s.focusOn id with cur := curOf isB p (s.front b p.pc) }, b)

/-- BROKEN (21 R374, 23 R403, R406): the next bundle of the board would issue but for broken pegs or a failure without a peg, or cannot be
fetched, and no lower class holds. -/
def execBroken (board : Nat) (s : State) : Out :=
  event "BROKEN" do
    let (s, b) ← s.present board
    let t ← s.frontTrap b
    if t.cls == clsBroken then some (s.raise b t) else none

/-- RETIRE (21 R374): the board would retire but for what failed. -/
def execRetire (board : Nat) (s : State) : Out :=
  event "RETIRE" do
    let b ← s.board? board
    if s.stands b || !s.drained b || !b.soundPegsZero || !b.hasFailure then none
    else some (s.freeze b { cls := clsRetire, slot := 7, code := b.brokenCode false b.brokenMask, addr := b.brokenAddr } false 0)

/-- OVERRUN is due: the stated run has elapsed (25 R434). -/
def State.overran (s : State) (b : Board) : Option Run :=
  match b.run with
  | some r => if !r.spent && 1 ≤ r.n && r.start + r.n + 1 ≤ b.tick.toNat && !s.stands b && (b.slotA.path.isSome || b.slotB.path.isSome) then some r else none
  | none => none

/-- OVERRUN (25 R434): between bundles; the board holds no stated run afterwards until its next yield bundle. -/
def execOverrun (board : Nat) (s : State) : Out :=
  event "OVERRUN" do
    let b ← s.board? board
    let r ← s.overran b
    let isB := if (b.slotOf b.turnB).path.isSome then b.turnB else !b.turnB
    let p ← (b.slotOf isB).path
    some (s.freeze { b with run := some { r with spent := true } } { cls := clsOverrun, slot := 7, code := BitVec.ofNat 32 r.n } isB p.pc)

/-! ### Fetch (03 R43) -/

/-- BUNDLE_FETCH: the target of a taken branch is fetched, and the hold it may have caused ends; a line that cannot be fetched raises BROKEN
when the board would issue it (23 R406). -/
def execBundleFetch (board : Nat) (isB : Bool) (s : State) : Out :=
  event "BUNDLE_FETCH" do
    let b ← s.board? board
    let x := b.slotOf isB
    let p ← x.path
    if !x.fetching then none
    else
      let b' := b.setSlot isB { x with fetching := false }
      let s' := s.setBoard b'
      match s.front b p.pc with
      | .unfetched =>
        match s'.present board with
        | some (t, c) => match t.frontTrap c with
          | some f => if t.cur.slotB == isB && f.cls == clsBroken then some (t.raise c f) else some s'
          | none => some s'
        | none => some s'
      | _ => some (match s.translate b.env.ctx (32 * p.pc.toNat % 2 ^ 64) .x with
          | .ok _ => s'.fillTlb b.env.ctx (32 * p.pc.toNat)
          | .error _ => s')

/-! ### Binding (14 R308, R309, 25 R433) -/

/-- A bind bundle fails: it names no peg (25 R433). -/
def State.failBind (s : State) (b : Board) (cause : Nat) : State :=
  let b := b.park { id := s.nextUid, path := 1, peg := none, cause := BitVec.ofNat 8 cause, insn := 0
                    addr := BitVec.ofNat 64 (32 * s.cur.pc.toNat), prog := 0 }
  { s with bd := some { b with noPeg := true }, nextUid := s.nextUid + 1, cur := { s.cur with done := true } }

/-- A board of a frame is parked on the entry with an internal watch, which every other board parked there shares (14 R308). -/
def State.watchKept (s : State) (f : Nat) (c : BitVec 16) (entry : BitVec 64) : Bool :=
  s.allBoards.any fun b => b.core / 16 == f && b.env.ctx == c && [b.slotA, b.slotB].any fun x => x.park.any fun p => p.entry == entry && p.watch.isSome

/-- Slot X parks on the entry; the bundle reissues when STATE changes, or when a peer that has been `asked` answers. It counts when it takes its branch
(DEDUCED, log 36). -/
def State.parkBind (s : State) (b : Board) (t : Target) (asked : Bool) : State :=
  let x := b.slotOf s.cur.slotB
  let f := b.core / 16
  let entry := BitVec.ofNat 64 (32 * s.cur.pc.toNat)
  let keep : Option Nat := match t with
    | .loc a => if (s.frame f).inService && (s.watchKept f b.env.ctx entry || s.watchesUsed f < 4096) then some a else none
    | _ => none
  let b := b.setSlot s.cur.slotB { x with park := some { entry := entry, watch := keep, since := s.now, asked := asked } }
  { s with bd := some { b with gapRem := 3, turnB := !s.cur.slotB }, cur := { s.cur with done := true } }

/-- A bind request posted to the service cores of the board's frame (14 R308). -/
def State.postBind (s : State) (b : Board) : State :=
  s.modFrame (b.core / 16) fun f => { f with binds := f.binds ++ [(b.env.ctx, 32 * s.cur.pc.toNat)] }

/-- A peer asked for a bind entry, or to claim it; the slot parks until it answers (15 R319). -/
def State.askBind (s : State) (b : Board) (t : Target) (kind : FetchKind) : State :=
  ((s.fetch (bindReader b.id s.cur.slotB) b.env.ctx (32 * s.cur.pc.toNat) kind (some b)).getD s).parkBind b t true

/-- The compare-exchange of STATE from UNBOUND to CLAIMED (14 R308): here at once, at a peer by a request. -/
def State.claimBind (s : State) (b : Board) (t : Target) : State :=
  match t with
  | .peer _ _ => s.askBind b t .claim
  | t => ((s.writeTarget (some (s.writerOf b)) t [(0, 1)]).postBind b).parkBind b t false

/-- What a peer has answered to the claim of the slot in issue. -/
def State.claimAnswer (s : State) (b : Board) : Option LineResp :=
  (s.fetches.find? fun f => f.reader == bindReader b.id s.cur.slotB && f.kind == .claim).bind (·.got)

/-- A bind bundle whose claim a peer has answered: the one that found UNBOUND posts the request (14 R308). -/
def State.claimed (s : State) (b : Board) (t : Target) : LineResp → State
  | .ok l => (if fieldAt l 0 4 % 4 == 0 then s.postBind b else s).parkBind b t false
  | .fault k => s.failBind b k.toNat
  | .stopped => s.failBind b 0x1F

/-- A bind bundle that has read its entry: the branch, the claim, the park or the failure (14 R308, 25 R433). DESIGN CHOICE: log 57. -/
def State.bindOn (s : State) (b : Board) (t : Target) (e : List Byte) : State :=
  match fieldAt e 0 1 % 4 with
  | 2 => s.jump (b.start 0) (BitVec.ofNat 48 (fieldAt e 8 6))
  | 3 => s.failBind b (match (s.ctxOf b.env.ctx).bindCause.find? (·.1 == 32 * s.cur.pc.toNat) with
      | some c => c.2.toNat
      | none => if Config.chooseBit s.freeCtr then 0x49 else 0x48)
  | 1 => s.parkBind b t false
  | _ => match s.bindAt b .rw with
    | .error k => s.failBind b k
    | .ok t => s.claimBind b t

/-- BIND_BUNDLE (14 R308): an acquire at system scope, then what STATE asks for. An entry at a peer is asked for, and the bundle reissues once it has come
(log 57). DEDUCED: log 37. -/
def execBindBundle (s : State) : Out :=
  event "BIND_BUNDLE" do
    let b ← s.bd
    if s.cur.done || b.frozen.isSome || s.front b s.cur.pc != .bind || (s.frontTrap b).isSome then none
    else
      let (s, b) := s.acquire b
      let t' := s.unfetch (bindReader b.id s.cur.slotB)
      match s.bindAt b .r with
      | .error k => some (t'.failBind b k)
      | .ok t =>
        match s.claimAnswer b, s.bindEntry b t with
        | some x, _ => some (t'.claimed b t x)
        | none, .ok e => some (t'.bindOn b t e)
        | none, .error k => some (if waitRead ≤ k then s.askBind b t .line else t'.failBind b k)

/-- A slot parked on an entry becomes ready again. -/
def Board.unpark (b : Board) (isB : Bool) : Board := b.setSlot isB { b.slotOf isB with park := none }

/-- STATE of a bind entry is CLAIMED: one that cannot be read is not. -/
def State.stillClaimed (s : State) (c : BitVec 16) (entry : Nat) : Bool :=
  match s.translate c entry .r with
  | .ok (.loc a) => s.mem.num a 1 % 4 == 1
  | .ok (.host a) => s.linkUp && s.hostMem.num a 1 % 4 == 1
  | _ => false

/-- A slot without a watch entry must read STATE again: it has not in the last microsecond (25 R433). -/
def State.pollDue (s : State) (p : BindPark) : Bool := p.watch.isNone && !p.asked && p.since + 1000 ≤ s.now

/-- BIND_PARK_POLL (25 R433): without a watch entry, the slot reads STATE at least once in each microsecond, and goes on when it is no longer CLAIMED; a
peer is asked for its entry. -/
def execBindParkPoll (board : Nat) (isB : Bool) (s : State) : Out :=
  event "BIND_PARK_POLL" do
    let b ← s.board? board
    let p ← (b.slotOf isB).park
    let isPeer := match s.translate b.env.ctx p.entry.toNat .r with | .ok (.peer _ _) => true | _ => false
    if p.watch.isSome || p.asked then none
    else if isPeer then
      if !s.pollDue p then none
      else
        let t ← s.fetch (bindReader b.id isB) b.env.ctx p.entry.toNat .line (some b)
        some (t.setBoard (b.setSlot isB { b.slotOf isB with park := some { p with asked := true } }))
    else if !s.stillClaimed b.env.ctx p.entry.toNat then some (s.setBoard (b.unpark isB))
    else if s.pollDue p then some (s.setBoard (b.setSlot isB { b.slotOf isB with park := some { p with since := s.now } }))
    else none

/-- A slot whose entry an internal watch keeps wakes when STATE is no longer CLAIMED (14 R308). -/
def wakeSlot (m : Mem) (x : PcSlot) : PcSlot :=
  match x.park with
  | some p => match p.watch with
    | some a => if m.num a 1 % 4 == 1 then x else { x with park := none }
    | none => x
  | none => x

/-- A slot whose peer has answered becomes ready; one that has read CLAIMED stays parked (25 R433). -/
def State.bindAnswered (s : State) (b : Board) (isB : Bool) : State :=
  match (b.slotOf isB).park, s.fetches.find? fun f => f.reader == bindReader b.id isB && f.got.isSome with
  | some p, some f =>
    let still := match f.kind, f.got with
      | .line, some (.ok l) => fieldAt l (f.va % 128) 1 % 4 == 1
      | _, _ => false
    if !p.asked then s
    else if still then (s.unfetch f.reader).modBoard b.id fun b => b.setSlot isB { b.slotOf isB with park := some { p with asked := false, since := s.now } }
    else s.modBoard b.id fun b => b.unpark isB
  | _, _ => s

/-- Every parked slot compared with memory as it stands, and with what peers have answered. -/
def State.wakeBinds (s : State) : State :=
  let s := if s.fetches.isEmpty then s else s.allBoards.foldl (fun s b => (s.bindAnswered b false).bindAnswered b true) s
  s.mapBoards fun b =>
    if b.slotA.park.isNone && b.slotB.park.isNone then b
    else { b with slotA := wakeSlot s.mem b.slotA, slotB := wakeSlot s.mem b.slotB }

/-- BIND_REQUEST_SERVICE: a service core has resolved, loaded or translated the callee, or cannot (14 R309, 25 R433). DEDUCED: log 81. -/
def execBindRequestService (frame idx : Nat) (res : BindResult) (s : State) : Out :=
  event "BIND_REQUEST_SERVICE" do
    let (c, entry) ← (s.frame frame).binds[idx]?
    let (state, target, vbud, note) ← match res with
      | .found t v => some (2, t.toNat, v.toNat, none)
      | .failed k => if k == 0x48#8 || k == 0x49#8 then some (3, 0, 0, some k) else none
    let s := s.modFrame frame fun f => { f with binds := f.binds.eraseIdx idx }
    let s := match note with
      | some k => s.modCtx c fun x => { x with bindCause := put entry k x.bindCause }
      | none => s
    let ws : List (Nat × List Byte) :=
      [(8, leBytes 8 target)] ++ (if state == 2 then [(20, [BitVec.ofNat 8 vbud])] else []) ++ [(0, [BitVec.ofNat 8 state])]
    some (ws.foldl (fun s w => (s.devWriteLine c (entry + w.1) w.2).toOption.getD s) s)

/-! ### Switch points (16 R334, R335) -/

/-- The variant of a level in VMAP (16 R334). -/
def vmapField (vmap : Word) (level : Nat) : BitVec 2 := let v := vmap.extractLsb' (2 * level) 2; if v == 3#2 then 0 else v

/-- The control slot of a bundle moves its path itself (16 R335). -/
def movesPath : Instr → Bool
  | .bra .. | .brcNz .. | .brcZ .. | .brx .. | .call .. | .calli .. | .ret | .div .. | .join | .loop .. | .exit => true
  | _ => false

/-- The variant table's entry among `n` whose offset in the variant stands at `off`: the offset in the other variant. -/
def switchEntry (tab : List Byte) (off old new : Nat) : Nat → Option Nat
  | 0 => none
  | n + 1 =>
    match switchEntry tab off old new n with
    | some x => some x
    | none => if fieldAt tab (16 * n + 4 * old) 4 == off then some (fieldAt tab (16 * n + 4 * new) 4) else none

/-- The switch of a board at the bundle in issue: the new variant and its next bundle (16 R335). -/
def State.switchOf (s : State) (b : Board) : Option (BitVec 2 × BitVec 48) := do
  let g ← s.grid? b.env.grid
  let ctl := match s.front b s.cur.pc with
    | .bundle w => (decodeBundle w).ctl
    | _ => none
  let stays := match ctl with
    | some (.ok i) => !movesPath i
    | _ => true
  let v := vmapField (s.ctxOf b.env.ctx).vmap (s.bay (b.core / 4)).running
  if !s.cur.w || (b.slotOf (!s.cur.slotB)).path.isSome || !b.stack.isEmpty || !stays || v == b.variant then none
  else
    let d := s.descriptor b
    match s.blockNow b.env.ctx (g.ktab + 32 * g.block.kidx) 32 with
    | .error _ => none
    | .ok k =>
      match s.blockNow b.env.ctx (fieldAt d 16 8 + 16 * fieldAt k 16 4) (16 * fieldAt k 20 2) with
      | .error _ => none
      | .ok tab =>
        let off := (s.cur.pc - b.env.codebase).toNat
        (switchEntry tab off b.variant.toNat v.toNat (fieldAt k 20 2)).map fun o => (v, b.env.codebase + BitVec.ofNat 48 o + 1)

/-- SWITCH_POINT (16 R335): the bundle in issue ends, and its slot goes on in another variant. -/
def execSwitchPoint (s : State) : Out :=
  event "SWITCH_POINT" do
    let b ← s.bd
    if s.cur.done || b.frozen.isSome then none
    else
      let (v, t) ← s.switchOf b
      let s := s.finish b 1
      let b ← s.bd
      let x := b.slotOf s.cur.slotB
      some { s with bd := some { b.setSlot s.cur.slotB { x with path := some ⟨t, s.cur.mask⟩ } with variant := v } }

/-! ### Landings -/

/-- FIXED_LATENCY_LANDING: result `k` of a board lands (03 R48). -/
def execFixedLatencyLanding (board k : Nat) (s : State) : Out :=
  event "FIXED_LATENCY_LANDING" do
    let b ← s.board? board
    let e ← b.pipe[k]?
    if s.stands b then none
    else if e.rem == 0 then some (s.land { b with pipe := b.pipe.eraseIdx k } e)
    else if e.latchNow then some (s.setBoard ({ b with pipe := modAt k (fun e => { e with late := 0, latched := true }) b.pipe }.landLatch e))
    else none

end Sys2Proof.Machine
end

