-- ==== Sys2Proof/Machine/Work.lean ====
section
/-!
DEFINITION. The control-slot instructions that start and end work: LAUNCH, LAUNCH.G (09 R203), TRIGGER (R204), YIELD (R206), TRAP
(R212) and ERET (R213).
-/
namespace Sys2Proof.Machine

/-- A LAUNCH or LAUNCH.G submitted (09 R203): a release at system scope, whose writes its acceptance follows. -/
def State.submit (s : State) (b : Board) (i : Instr) (a : BitVec 9) (graph : Bool) : State :=
  let (s, b) := s.releaseAt b .system
  let b := { b.incPeg (pegOf i) with cmdsOut := b.cmdsOut + 1 }
  let r : LaunchReq :=
    { id := s.nextUid, board := b.id, addr := (b.pair a.toNat).toNat, graph := graph, peg := pegOf i, insn := insnOf i
      cap := ((s.grid? b.env.grid).map (·.rank)).getD 0, ctx := b.env.ctx, after := b.openWrites }
  { s with bd := some b, launches := s.launches ++ [r], nextUid := s.nextUid + 1 }

/-- LAUNCH (09 R203). -/
def execLaunch (a : BitVec 9) (peg : Option (BitVec 3)) (s : State) : Out :=
  onBoard s (.launch a peg) fun b => s.submit b (.launch a peg) a false

/-- LAUNCH.G (09 R203). -/
def execLaunchG (a : BitVec 9) (peg : Option (BitVec 3)) (s : State) : Out :=
  onBoard s (.launchG a peg) fun b => s.submit b (.launchG a peg) a true

/-- A bent marked triggered, and its grid released when all are (02 R37). -/
def State.markTriggered (s : State) (uid : Nat) : State :=
  match s.bent? uid with
  | none => s
  | some x =>
    if x.triggered then s
    else ((s.modBent uid fun x => { x with triggered := true }).modGrid x.grid fun g =>
      { g with triggered := g.triggered + 1 }).settleGrid x.grid

/-- An effect of a board that its release lets come about now, or once the writes that the release covers are performed (10 R228). -/
def State.owe (s : State) (b : Board) (act : OwedAct) (now : State → State) : State :=
  if b.openWrites.isEmpty && b.owed.isEmpty then now s
  else s.modBoard b.id fun b => { b with owed := b.owed ++ [{ act := act, after := b.openWrites }] }

/-- TRIGGER: a release at system scope, then the mark behind it (09 R204, 02 R37). -/
def execTrigger (s : State) : Out :=
  onBoard s .trigger fun b =>
    let (s, b) := s.releaseAt b .system
    (s.put b).owe b .trigger fun s => s.markTriggered b.env.bent

/-- YIELD: the run counts from this bundle's issue (09 R206). -/
def execYield (n : BitVec 25) (s : State) : Out :=
  onBoard s (.yield n) fun b => s.put { b with run := some { n := n.toNat, start := b.tick.toNat } }

/-- TRAP: the bundle ends, then the board freezes with its path at P + 1 (09 R212). -/
def execTrap (code : BitVec 16) (s : State) : Out :=
  onBoard s (.trap code) fun b =>
    let e := if s.cur.done then b else b.finish s.cur s.cur.gap
    (s.endWith e).freeze e { cls := clsSoft, slot := 3, code := code.setWidth 32 } s.cur.slotB s.cur.pc

/-- Every lane of a board ends as EXIT with every lane would (02 R32). -/
def Board.exitAll (b : Board) : Board :=
  { b with slotA := { b.slotA with path := none }, slotB := { b.slotB with path := none }, stack := [], spilled := 0, lanesLeft := 0 }

/-- The frozen board that a handler board serves, while its freeze is still the one the handler was created for (21 R383). -/
def State.servedBy (s : State) (b : Board) : Option (Board × Freeze) :=
  match s.grid? b.env.grid with
  | none => none
  | some g =>
    match g.origin with
    | .trap id frid =>
      match s.board? id with
      | none => none
      | some x => match x.frozen with
        | some f => if f.frid == frid then some (x, f) else none
        | none => none
    | _ => none

/-- The ERET of the handler of a board's freeze has been accepted, and its restore is still owed: a later request has no effect (21 R383). -/
def State.eretTaken (s : State) (b : Board) : Bool :=
  s.allBoards.any fun x => x.owed.any (·.act == .restore) && (s.servedBy x).any fun p => p.1.id == b.id

/-- The board that a handler board serves restored, if its freeze is still the one (21 R379, R383). -/
def State.serveBoard (s : State) (b : Board) : State :=
  match s.servedBy b with
  | some (x, f) => s.restore x f (s.actionOf x) 1
  | none => s

/-- ERET: the handler board's lanes end with a release at system scope; then the board it serves is restored (09 R213, 21 R379). -/
def execEret (s : State) : Out :=
  onBoard s .eret fun b =>
    let s := (s.put b).release b.id
    let b := s.bd.getD b
    (s.endWith (s.ended b).exitAll).owe b .restore fun s => s.serveBoard b

/-! ### What a release has held back -/

/-- An owed effect comes about. -/
def State.paid (s : State) (b : Board) : OwedAct → State
  | .trigger => s.markTriggered b.env.bent
  | .restore => s.serveBoard b

/-- The owed effects of a board, oldest first, as far as their writes have been performed; `fuel` bounds them. -/
def State.payOwed (s : State) (board : Nat) : Nat → State
  | 0 => s
  | fuel + 1 =>
    match s.board? board with
    | none => s
    | some b => match b.owed with
      | [] => s
      | o :: t =>
        if !b.performed o.after then s
        else
          let b := { b with owed := t }
          ((s.setBoard b).paid b o.act).payOwed board fuel

end Sys2Proof.Machine
end

