-- ==== Sys2Proof/Machine/Events.lean ====
section
/-!
DEFINITION. Lines and answers that return (07 R143, 15 R319, 23 R411, R412), operations that fail (21 R374, 23 R404 to R412, 25 R420), and
what goes on by itself between steps: engine commands that start, slots and boards that stop waiting.
-/
namespace Sys2Proof.Machine

/-! ### Answers -/

/-- The arrivals that a command has made when a request of it has failed unperformed. -/
def Cmd.unmade (c : Cmd) (gate : Nat → Option Nat) (r : OutReq) : List Nat :=
  match r.kind with
  | .arrive => c.arrivals.filter fun n => gate n != some r.va
  | _ => c.arrivals

/-- An engine command's part of a request answered (23 R408, 26 R441): data kept, a line performed, or a failure noted. -/
def Cmd.answered (c : Cmd) (gate : Nat → Option Nat) (r : OutReq) (x : LineResp) : Cmd :=
  let c := { c with out := c.out - 1 }
  match x with
  | .ok data =>
    let c := { c with again := c.again.erase r.va }
    match r.kind with
    | .read _ | .phaseRead _ _ => { c with got := c.got.write (peerKey r.mod r.addr) data }
    | .write _ => { c with sent := r.va :: c.sent }
    | _ => c
  | .stopped => { (c.broke (0x1F, r.va)) with arrivals := c.unmade gate r }
  | .fault k =>
    let c := { (c.broke (k.toNat, r.va)) with again := if farCause k then r.va :: c.again else c.again }
    if k == 0x70#8 then
      { c with nind := c.nind + 1
               unsure := match r.kind with
                 | .write _ => r.va :: c.unsure
                 | _ => c.unsure }
    else { c with arrivals := c.unmade gate r }

/-- The gate of arrival `n` of a command. -/
def Cmd.gateNo (c : Cmd) (n : Nat) : Option Nat :=
  match c.instr with
  | .routeScatter .. => some (c.devF n 8)
  | .cpb .. | .cpr .. => ((c.plan c.tab).gates.find? (·.1 == n)).map (·.2)
  | _ => none

/-- Bytes that a peer answers to a request: its data, the old values of an atomic, the phase of an arrival, the phase and the registration
of a waiter (15 R319, R325 to R329). -/
def answerLen : PeerKind → Nat
  | .read n => n
  | .write _ | .gateInit _ => 0
  | .atomic ops => (ops.map fun o => if o.wd then 8 else 4).sum
  | .arrive => 1
  | .phaseRead _ _ => 2

/-- A peer may answer a request so (23 R411, R412). No pod group, no service: the request is only refused (15 R316, 26 R444). -/
def OutReq.admits (r : OutReq) : LineResp → Bool
  | .ok data => r.group != 0 && data.length == answerLen r.kind
  | .stopped => r.group != 0 && r.ordered
  | .fault k => k == 0x72#8 || (r.group != 0 && (k == 0x1B#8 || k == 0x1C#8 || k == 0x20#8))

/-- A request answered: for a line of a board, for a command, for an operation on a remote gate, or for the device itself, which looks no
further than a failure. -/
def State.answer (s : State) (r : OutReq) (x : LineResp) : Option State :=
  let s := { s with outReqs := s.outReqs.filter (·.id != r.id) }
  match r.line, r.cmd with
  | some (op, n), _ =>
    match s.board? r.board with
    | none => some s
    | some b => match b.op? op with
      | none => some s
      | some o => match o.lines[n]? with
        | some l => if l.st == .sent r.id then s.lineAnswer b o n l x else some s
        | none => some s
  | none, some id =>
    match s.cmd? id with
    | none => some s
    | some c =>
      let s := s.modCmd id fun _ => c.answered c.gateNo r x
      match x, r.kind with
      | .ok _, .write w => some (s.chargeWrite id w.length)
      | _, _ => some s
  | none, none =>
    match s.allBoards.findSome? fun b => (b.rgates.find? (·.req == some r.id)).map fun g => (b, g) with
    | none =>
      let s := s.fetchAnswer r.id x
      match x, r.note with
      | .fault k, some (c, d) => some (s.engineEntry c k.toNat d 1 r.va 0)
      | _, _ => some s
    | some (b, g) =>
      match x with
      | .ok data => some (s.gateAnswer b g data)
      | .fault k => some (s.failGate b g k)
      | .stopped => some (s.failGate b g 0x1F)

/-- A request changed. -/
def State.modReq (s : State) (id : Nat) (f : OutReq → OutReq) : State :=
  { s with outReqs := s.outReqs.map fun r => if r.id == id then f r else r }

/-- What a peer answers reaches the plane's station: its source's frame at once, or a slot to it (15 R312, R321), as unordered traffic. DESIGN
CHOICE: log 108. -/
def State.answerAt (s : State) (r : OutReq) (x : LineResp) : Option State :=
  if r.plane == r.source then s.answer r x
  else
    let load : SlotLoad := match r.kind with
      | .write _ | .gateInit _ => .ack r.id x
      | _ => .response r.id x
    some ((s.modReq r.id fun r => { r with at_ := .back }).sendSlot r.plane r.source false load)

/-- MEMORY_LINE_RETURN (07 R143): a line of a board's access, an operation without lines, or a peer's answer. -/
def execMemoryLineReturn (ref : LineRef) (resp : LineResp) (s : State) : Out :=
  event "MEMORY_LINE_RETURN" <|
    match ref with
    | .acc board op line => do
      let b ← s.board? board
      let o ← b.op? op
      if resp != .ok [] then none
      else match o.lines[line]? with
        | some l => s.lineReturn b o line l
        | none => if line == 0 && o.lines.isEmpty && o.space == .glob then s.bareReturn b o else none
    | .out id => do
      let r ← s.outReqs.find? (·.id == id)
      if r.at_ != .sent || !r.admits resp || s.lost.contains r.mod then none
      else ({ s with heard := put r.mod s.now s.heard } : State).answerAt r resp

/-! ### Failures -/

/-- An uncorrectable error that arises now (23 R414, R415), in the data that the operation of a board or of a command of a bent reads. Bits [63:62] of
the address name the storage: 0 memory, by its virtual address; 1 the bent's scratchpad, 2 its tiles, by their bytes; 3 the board's read-only copy
of the line at a virtual address. DESIGN CHOICE: log 106. -/
def State.spoil (s : State) (c : BitVec 16) (bent board : Nat) (cause : BitVec 8) (addr : BitVec 64) : Option State :=
  let a := addr.toNat % 2 ^ 62
  if cause != 0x20#8 then none
  else match addr.toNat / 2 ^ 62 with
    | 0 => match s.translate c a .r with
      | .ok (.loc p) => if s.badAt p then none else some { s with badLines := (p / 128) :: s.badLines }
      | _ => none
    | 1 => match s.bent? bent with
      | some x => if x.badScr.contains (a / 4) || 2 ^ 21 * x.cores.length ≤ a then none
        else some (s.modBent bent fun x => { x with badScr := a / 4 :: x.badScr })
      | none => none
    | 2 => match s.bent? bent with
      | some x => if x.badTiles.contains (a / 4) || 2 ^ 20 * x.cores.length ≤ a then none
        else some (s.modBent bent fun x => { x with badTiles := a / 4 :: x.badTiles })
      | none => none
    | _ => match s.translate c a .r with
      | .ok t =>
        if s.l1.any fun x => x.board == board && x.line == t.line && !x.bad then
          some { s with l1 := s.l1.map fun x => if x.board == board && x.line == t.line then { x with bad := true } else x }
        else none
      | .error _ => none

/-- A host atomic that cannot be sent because the link is down is indeterminate like one that had been sent (26 R455). -/
def State.lostAtoms (s : State) (b : Board) (o : MemOp) : MemOp :=
  { o with lines := o.lines.map fun l => if l.st == .idle && s.lineCause b o l == some 0x70 then { l with st := .failed 0x70#8 } else l }

/-- The failure is the one named. -/
def named (f : Nat × Nat) (cause : BitVec 8) (addr : BitVec 64) : Bool := BitVec.ofNat 8 f.1 == cause && BitVec.ofNat 64 f.2 == addr

/-- OPERATION_FAIL (21 R374): the operation fails with the cause and the address that the state gives it. An uncorrectable error that arises
now marks its line, and the operations that read it fail in turn (23 R414). -/
def execOperationFail (ref : OpRef) (cause : BitVec 8) (addr : BitVec 64) (s : State) : Out :=
  event "OPERATION_FAIL" <|
    match ref with
    | .acc board op => do
      let b ← s.board? board
      match b.rgates.find? (·.id == op) with
      | some g =>
        match s.gateFailure b g with
        | some f => if named f cause addr then some (s.failGate b g cause) else none
        | none => s.spoil b.env.ctx b.env.bent b.id cause addr
      | none =>
        let o ← b.op? op
        match (match o.kind with | .arm _ => if o.fail.isSome then s.opFailure b o else s.armFailure b o | _ => s.opFailure b o) with
        | some f =>
          if named f cause addr then
            let o := s.lostAtoms b o
            some (s.putBoard ((b.modOp o.id fun _ => o).failOp o cause addr))
          else none
        | none => s.spoil b.env.ctx b.env.bent b.id cause addr
    | .copy core cmd => do
      let c ← (s.core core).cq.find? (·.id == cmd)
      if s.engineStopped core then none
      else match s.copyFailure c with
        | some f => if named f cause addr then some (s.failCmd c f.1 f.2 (c.sent.length + c.nind)) else none
        | none => s.spoil c.ctx c.bent c.board cause addr
    | .matrix core cmd => do
      let c ← (s.core core).mq.find? (·.id == cmd)
      match s.failMatrix core with
      | some (x, k, a, t) => if x.id == cmd && named (k, a) cause addr then some t else none
      | none => s.spoil c.ctx c.bent c.board cause addr
    | .route frame cmd => do
      let c ← (s.frame frame).rq.find? (·.id == cmd)
      match s.routeFailure frame cmd with
      | some (t, x, f) =>
        if named f cause addr then some (t.failCmd x f.1 f.2 (x.sent.length + x.nind)) else none
      | none => s.spoil c.ctx c.bent c.board cause addr
    | .launch id => do
      let r ← s.launches.find? (·.id == id)
      match s.launchFailure r with
      | some (t, f) => if named (f.cause, f.addr.getD r.addr) cause addr then some (t.failLaunch r f) else none
      | none => s.spoil r.ctx 0 r.board cause addr

/-! ### What goes on by itself -/

/-- Copy commands of a core, as far as they get. -/
def State.advanceCore (s : State) (core : Nat) : State :=
  let s := if s.engineStopped core then s
    else (s.core core).cq.foldl (fun s c => s.advanceCopy c.id) s
  s.advanceMatrix core

/-- Route commands of a frame, as far as they get. -/
def State.advanceFrame (s : State) (f : Nat) : State :=
  (s.frame f).rq.foldl (fun s c => s.advanceRoute c.id) s

/-- Every engine that holds commands, as far as it gets. -/
def State.advanceEngines (s : State) : State :=
  let cores := (s.allCmds.map (·.core)).eraseDups
  let s := cores.foldl (fun s k => s.advanceCore k) s
  (cores.map (· / 16)).eraseDups.foldl (fun s f => s.advanceFrame f) s

/-- The grids and handlers that wait in a bay, with the TIME since which each has waited (13 R287). -/
def State.waitsOf (s : State) (bay : Nat) : List (Nat × Nat) :=
  ((s.grids ++ s.claims).filter fun g => s.waitsIn g bay).map fun g => (g.uid, look g.uid s.now (s.bay bay).waits)

/-- The waiting work of every bay, as it stands; bays with nothing waiting and no memory of it are left as they are. -/
def State.advanceWaits (s : State) : State :=
  if s.grids.all (fun g => !s.wants g) && s.claims.isEmpty then
    { s with frames := s.frames.map fun f => { f with bays := f.bays.map fun y => { y with waits := [] } } }
  else (List.range 32).foldl (fun s k => s.modBay k fun y => { y with waits := s.waitsOf k }) s

/-- Work of rank at least a board's own waits in its bay (13 R289). -/
def State.pressed (s : State) (b : Board) : Bool :=
  let own := ((s.grid? b.env.grid).map (·.rank)).getD 0
  (s.bay (b.core / 4)).waits.any fun w => match (s.grids ++ s.claims).find? (·.uid == w.1) with
    | some g => own ≤ g.rank
    | none => false

/-- Boards parked at a yield become ready again when the waiting work is gone, unless their bent has been saved (13 R289). -/
def State.advanceParked (s : State) : State :=
  if s.allBoards.any (·.parkedY) then
    s.mapBoards fun b =>
      if b.parkedY && !s.pressed b && !((s.bent? b.env.bent).map (·.away)).getD false then { b with parkedY := false } else b
  else s

/-! ### Ways to the pod -/

/-- The source agent of a request: a board, or one engine command (15 R322). -/
def OutReq.agent (r : OutReq) : Nat × Option Nat := (r.board, r.cmd)

/-- The ordered traffic to a module has moved to a plane that is not its own (26 R443). -/
def State.moved (s : State) (m p : Nat) : Bool := p != m % 8 && (s.planesFrom m m).head? == some p

/-- A request waits for earlier ones of its agent to the module: an ordered one for each ordered one that is not yet sent, or unanswered on another
plane (15 R322); any on the plane to which ordered traffic has moved for each that is not answered, but for those that went by it since (26 R443). -/
def State.reqWaits (s : State) (r : OutReq) : Bool :=
  let moved := s.moved r.mod r.plane
  (s.outReqs.takeWhile (·.id != r.id)).any fun x =>
    x.agent == r.agent && x.mod == r.mod && ((r.ordered && x.ordered) || moved) && match x.at_ with
      | .sent => x.plane != r.plane || (moved && !x.shifted)
      | .back => false
      | _ => true

/-- A request goes on: into a slot towards its plane's station, or out by it; a plane that is down is changed (15 R321, 26 R443). One to a lost module
is resolved at once (R445). An engine's request waits for an entry of its core (01 R9). DESIGN CHOICE: log 61. -/
def State.pump (s : State) (r : OutReq) : State :=
  match r.at_ with
  | .frame f =>
    let p := if s.reaches r.plane r.mod then r.plane else s.planeFor r.ordered f r.mod
    let full := match r.core with
      | some k => f == r.source && 2048 ≤ s.outstanding k
      | none => false
    if s.lost.contains r.mod then (s.answer r (.fault 0x71)).getD s
    else if !s.reaches p r.mod || full then s
    else if f != p then
      let load : SlotLoad := match r.kind with
        | .arrive => .arrival r.id
        | _ => .request r.id
      (s.modReq r.id fun r => { r with at_ := .ring, plane := p }).sendSlot f p r.ordered load
    else if s.reqWaits { r with plane := p } then s
    else s.modReq r.id fun r => { r with at_ := .sent, plane := p, shifted := s.moved r.mod p }
  | _ => s

/-- A slot still binds at an address: it is parked there, or its bundle is to issue again. -/
def PcSlot.binds (x : PcSlot) (va : Nat) : Bool := x.path.any fun p => 32 * p.pc.toNat % 2 ^ 64 == va

/-- A reader of the device still reads. -/
def State.reads (s : State) (f : Fetch) : Bool :=
  let readers :=
    s.launches.filterMap (fun r => if r.failed then none else some r.id)
    ++ s.graphs.flatMap (fun x => if x.aborted then [] else (List.range x.nodes.length).map (nodeReader x.id))
    ++ s.queues.map (fun q => queueReader q.1)
    ++ (List.range s.frames.length).flatMap (fun k => (s.frame k).watches.map fun w => watchReader k w.idx)
    ++ s.allBoards.flatMap fun b => match b.frozen with
      | some z => if z.due then [trapReader b.id] else []
      | none => b.path.filterMap (fun o => if o.parked then none else some o.id)
        ++ ([false, true].filter fun x => (b.slotOf x).binds f.va).map (bindReader b.id)
  readers.contains f.reader

/-- What readers that are gone had asked for is forgotten. -/
def State.dropFetches (s : State) : State :=
  if s.fetches.isEmpty then s else { s with fetches := s.fetches.filter s.reads }

/-- Every request, oldest first. -/
def State.pumpAll (s : State) : State :=
  s.outReqs.foldl (fun s r => match s.outReqs.find? (·.id == r.id) with | some r => s.pump r | none => s) s.flushWakes.dropFetches

/-- An acquire at the end of a gate wait, with the releases that still hold it up; gone once they have been performed (09 R202, 10 R230). -/
def State.seenBy (s : State) (o : MemOp) : Option MemOp :=
  if o.foreign.isEmpty then some o
  else match o.foreign.filter s.unreleased with
    | [] => none
    | l => some { o with foreign := l }

/-- Zeros of suppressed lanes that no landing holds back are written, accesses with no lane in bounds complete, and acquires of gate waits end whose
releases have been performed (07 R155, 09 R202). -/
def State.settleWaits (s : State) : State :=
  s.mapBoards fun b =>
    let b := b.path.foldl (fun b o =>
      if o.fail.isSome || b.fillHeld o then b else if o.suppressed then b.finishOp o else if o.zero == 0 then b else b.zeroLanes o) b
    { b with path := b.path.filterMap s.seenBy }.sweep

/-- What each board's releases hold back, its gates and its lines to peers, as far as they get. -/
def State.advanceBoards (s : State) : State :=
  s.settleWaits.allBoards.foldl (fun s b =>
    let s := if b.owed.isEmpty then s else s.payOwed b.id b.owed.length
    let s := b.rgates.foldl (fun s g => match (s.board? b.id).bind fun b => (b.rgates.find? (·.id == g.id)).map fun g => (b, g) with
      | some (b, g) => s.startGate b g
      | none => s) s
    s.sendLines b.id (b.path.map (·.lines.length)).sum) s.settleWaits

end Sys2Proof.Machine
end

