-- ==== Sys2Proof/Machine/Fabric.lean ====
section
/-!
DEFINITION. The module's edges to its frames and its pod: requests of peers (15 R316 to R319, R325 to R329, 23 R411, R412), the package
rings (15 R313, R314, 26 R438 to R440), planes that go down (26 R441 to R443) and peers that are lost (26 R445 to R447).
-/
namespace Sys2Proof.Machine

/-! ### Requests of peers (15 R319) -/

/-- The live context of a pod group (15 R316). -/
def State.groupCtx (s : State) (g : BitVec 16) : Option Ctx := if g == 0 then none else s.ctxs.find? (·.podgrp == g)

/-- What a request asks of the leaf (14 R295). -/
def peerAcc : PeerKind → Acc
  | .read _ | .phaseRead _ _ => .r
  | .write _ | .gateInit _ => .w
  | .atomic _ | .arrive => .rw

/-- The request comes from a module of the pod, lies in one line, and gate addresses are multiples of 16 (15 R324, R326). -/
def wellPlaced (r : PeerReq) : Bool :=
  r.mod < 1024 && match r.kind with
  | .read n => r.addr.toNat % 128 + n ≤ 128
  | .write w => w.all fun p => p.1 < 128
  | .atomic ops => ops.all fun o => o.off % (if o.wd then 8 else 4) == 0 && o.off < 128
  | _ => r.addr.toNat % 16 == 0

/-- The lane operations of an atomic request on a line: old values in order, and the line after them (15 R325). -/
def peerAtoms : List PeerAtom → Mem → List Byte × Mem
  | [], m => ([], m)
  | o :: t, m =>
    let n := if o.wd then 8 else 4
    let v : DWord := BitVec.ofNat 64 (m.num o.off n)
    let r := peerAtoms t (m.write o.off (leBytes n (atomNew o.op o.wd v o.arg o.cmp).toNat))
    (leBytes n v.toNat ++ r.1, r.2)

/-- A request performed at its home here, with the answer (15 R319, R325, R327 to R329). -/
def State.serve (s : State) (r : PeerReq) (a : Nat) : State × LineResp :=
  let wr : Option Writer := some { depth := r.depth, storer := BitVec.ofNat 32 r.mod, kind := 5 }
  let line := a / 128 * 128
  match r.kind with
  | .read n => if s.badAt a then (s, .fault 0x20) else (s, .ok (s.mem.read a n))
  | .write w =>
    let w := w.map fun p => (line + p.1, p.2)
    if s.badWrite w then (s, .fault 0x20) else (s.writeLocal wr w, .ok [])
  | .atomic ops =>
    if s.badAt a then (s, .fault 0x20)
    else
      let x := peerAtoms ops (lineMem (s.mem.read line 128))
      (s.writeLocal wr (bytesAt line (x.2.read 0 128)), .ok x.1)
  | .arrive =>
    if s.badAt a then (s, .fault 0x20)
    else
      let x := s.gateArrive wr a
      (x.1, .ok [if x.2 then 1 else 0])
  | .gateInit t => if s.badAt a then (s, .fault 0x20) else (s.gateInit wr a t.toNat, .ok [])
  | .phaseRead p w =>
    if s.badAt a then (s, .fault 0x20)
    else
      let cur := s.gatePhase a
      let f := homeFrame a
      let me : Waiter := { gate := a, peer := some r.mod, board := w }
      let held := (s.frame f).waiters.contains me
      let room := cur == p && !held && (s.frame f).waiters.length < 8192 && !s.lost.contains r.mod
      let s := if room then s.modFrame f fun x => { x with waiters := x.waiters ++ [me] } else s
      (s, .ok [if cur then 1 else 0, if held || room then 1 else 0])

/-- A fault's cause as the target answers it (23 R411). -/
def peerCause (k : Nat) : BitVec 8 := if k == 0x19 then 0x1C else if k == 0x20 then 0x20 else 0x1B

/-- A request resolved, translated and performed, with the answer (15 R316, R317, 23 R411, 26 R444). A leaf that is no local page is answered
as one not present (DEDUCED, log 40). -/
def State.resolveReq (s : State) (r : PeerReq) : State × LineResp :=
  match s.groupCtx r.group with
  | none => (s, .fault 0x72)
  | some c =>
    match s.translate c.ctxid r.addr.toNat (peerAcc r.kind) with
    | .error k => (s, .fault (peerCause k))
    | .ok (.loc a) => ((s.fillTlb c.ctxid r.addr.toNat).free).serve r a
    | .ok _ => (s, .fault 0x1B)

/-- A request performed at its home, or answered with stopped: ordered requests of an agent behind a faulted one are, until the replay of the
faulted one comes and does not fault again; a stopped one that comes again is no such replay (23 R412). -/
def State.performReq (s : State) (req : PeerReq) : State × LineResp :=
  let key := (req.mod, req.agent)
  if req.ordered && s.barredAgents.contains key && !req.replay then (s, .stopped)
  else
    let x := s.resolveReq req
    let rest := if req.ordered && req.replay then x.1.barredAgents.filter (· != key) else x.1.barredAgents
    let barred := match x.2 with
      | .fault _ => if req.ordered then key :: rest.filter (· != key) else rest
      | _ => rest
    ({ x.1 with barredAgents := barred }, x.2)

/-- The frame of a request's home: that of its plane where it finds none. -/
def State.homeOf (s : State) (r : PeerReq) : Nat :=
  match s.groupCtx r.group with
  | none => r.plane
  | some c => match s.translate c.ctxid r.addr.toNat (peerAcc r.kind) with
    | .ok (.loc a) => homeFrame a
    | _ => r.plane

/-- An ordered request waits at its station for an earlier one of its agent that is not on the same way (15 R322). -/
def State.heldBack (s : State) (x : InReq) (home : Nat) : Bool :=
  x.req.ordered && (s.inReqs.takeWhile (·.id != x.id)).any fun y =>
    y.req.ordered && y.req.mod == x.req.mod && y.req.agent == x.req.agent && y.dst != some home

/-- A request performed where its station is, with the answer on the plane on which it came. -/
def State.serveHere (s : State) (r : PeerReq) : State :=
  let x := s.performReq r
  x.1.tell r.mod r.agent r.plane (.answer x.2)

/-- A request goes on from its station: performed there, or into a slot to the frame of its home (15 R321). -/
def State.passIn (s : State) (x : InReq) : State :=
  let home := s.homeOf x.req
  if x.dst.isSome || s.heldBack x home then s
  else if home == x.req.plane then
    if x.req.ordered && (s.inReqs.takeWhile (·.id != x.id)).any fun y => y.req.ordered && y.req.mod == x.req.mod && y.req.agent == x.req.agent
    then s
    else { s with inReqs := s.inReqs.filter (·.id != x.id) }.serveHere x.req
  else
    ({ s with inReqs := s.inReqs.map fun y => if y.id == x.id then { y with dst := some home } else y } : State).sendSlot
      x.req.plane home x.req.ordered (.inbound x.id)

/-- Every request of a peer, oldest first. -/
def State.passInAll (s : State) : State := s.inReqs.foldl State.passIn s

/-- A request that has reached the frame of its home is performed, and its answer goes back by a slot. -/
def State.serveAway (s : State) (dst id : Nat) : State :=
  match s.inReqs.find? (·.id == id) with
  | none => s
  | some x =>
    let q := ({ s with inReqs := s.inReqs.filter (·.id != id) } : State).performReq x.req
    q.1.sendSlot dst x.req.plane false (.served x.req.mod x.req.agent x.req.plane q.2)

/-- REMOTE_REQUEST: a request has come by a plane (15 R319, R321): it is performed at once when its home lies in the station's frame and nothing holds it
back, or goes on by a ring. DESIGN CHOICE: log 91. -/
def execRemoteRequest (req : PeerReq) (s : State) : Out :=
  event "REMOTE_REQUEST" <|
    if !wellPlaced req || 8 ≤ req.plane || !s.usable.getLsbD req.plane then none
    else if s.homeOf req == req.plane && s.inReqs.all (fun y => y.req.mod != req.mod || y.req.agent != req.agent) then some (s.serveHere req)
    else some { s with inReqs := s.inReqs ++ [{ id := s.nextUid, req := req }], nextUid := s.nextUid + 1 }

/-! ### Package rings (15 R313, R314, 26 R438 to R440) -/

/-- The frame that sends on the link into a frame: ring 0 runs upwards, ring 1 downwards (15 R312). -/
def linkInto (ring dst : Nat) : Nat := if ring == 0 then (dst + 7) % 8 else (dst + 1) % 8

/-- Corruption refusals of a link in an aligned ms of TIME (26 R439). -/
def Ring.refusals (r : Ring) (frame win : Nat) : Nat :=
  ((r.corrupt.find? fun c => c.1 == frame && c.2.1 == win).map (·.2.2)).getD 0

/-- One more corruption refusal of a link, in its ms and in all (26 R438, R439). -/
def Ring.countCorrupt (r : Ring) (frame win : Nat) : Ring :=
  { r with corrupt := (frame, win, r.refusals frame win + 1) :: r.corrupt.filter (·.1 != frame)
           counted := put frame (look frame 0 r.counted + 1) r.counted }

/-- What is never refused: an answer, for which its receiver has kept room (15 R313). -/
def isAnswer : SlotLoad → Bool
  | .response _ _ | .ack _ _ | .served _ _ _ _ => true
  | .request _ | .arrival _ | .wake _ | .inbound _ | .wakeOut _ _ _ _ => false

/-- The destination accepts a slot that is whole: answers always, others when there is room and their turn has come (15 R313, R314). -/
def Ring.accepts (r : Ring) (src dst : Nat) (x : RingSlot) (full : Bool) : Bool :=
  (isAnswer x.load || !full) && match x.seq with
    | some n => n == r.next src dst
    | none => true

/-- A slot that its sender holds, changed. -/
def Ring.modSlot (r : Ring) (src dst : Nat) (slot new : RingSlot) : Ring :=
  { r with retry := r.retry.map fun x => if x == (src, dst, slot) then (src, dst, new) else x }

/-- A slot accepted: its sender holds it no longer, and its lane goes on (15 R313, R314). -/
def Ring.accept (r : Ring) (src dst : Nat) (slot : RingSlot) : Ring :=
  { r with retry := r.retry.erase (src, dst, slot)
           lanes := match slot.seq with | some n => setLane r.lanes src dst (n + 1) | none => r.lanes }

/-- What an accepted slot holds goes on from its destination frame: a request towards its plane, an answer to its source, a wake to its
board, a peer's request to its home and its answer to its plane. -/
def State.unload (s : State) (dst : Nat) : SlotLoad → Option State
  | .request id | .arrival id => some (s.modReq id fun r => { r with at_ := .frame dst })
  | .response id x | .ack id x =>
    match s.outReqs.find? (·.id == id) with
    | some r => s.answer r x
    | none => some s
  | .wake w => some { s with wakes := s.wakes ++ [w] }
  | .inbound id => some (s.serveAway dst id)
  | .served m agent plane x => some (s.tell m agent plane (.answer x))
  | .wakeOut m agent gate again => some (s.tellWake dst m agent gate again)

/-- RING_SLOT_ARRIVAL (15 R313, R314, 26 R438): accepted, sent round once more, or back to its sender. -/
def execRingSlotArrival (ring src dst : Nat) (slot : RingSlot) (full corrupt : Bool) (s : State) : Out :=
  event "RING_SLOT_ARRIVAL" <|
    let r := s.ring ring
    if !r.up || !r.retry.contains (src, dst, slot) || 2 ≤ slot.refusals then none
    else if corrupt then
      some (s.modRing ring fun r =>
        (r.countCorrupt (linkInto ring dst) (s.now / 1000000)).modSlot src dst slot { slot with refusals := 2 })
    else if r.accepts src dst slot full then (s.modRing ring fun r => r.accept src dst slot).unload dst slot.load
    else some (s.modRing ring fun r => r.modSlot src dst slot { slot with refusals := slot.refusals + 1 })

/-- RING_SLOT_RESEND: a slot that is back in the retry buffer is sent again (15 R313). -/
def execRingSlotResend (ring src dst : Nat) (slot : RingSlot) (s : State) : Out :=
  event "RING_SLOT_RESEND" <|
    if (s.ring ring).up && (s.ring ring).retry.contains (src, dst, slot) && 2 ≤ slot.refusals then
      some (s.modRing ring fun r => r.modSlot src dst slot { slot with refusals := 0 })
    else none

/-- The slots of one lane in sequence order, numbered anew for the lane of the other ring (26 R439). -/
def Ring.adopt (r : Ring) (held : List (Nat × Nat × RingSlot)) : Ring :=
  let key (x : Nat × Nat × RingSlot) : Nat := (x.2.2.seq.map (· + 1)).getD 0
  (inOrder (fun a b => decide (key a ≤ key b)) held).foldl (fun r x => r.place x.1 x.2.1 x.2.2.seq.isSome x.2.2.load) r

/-- A link has caused 64 corruption refusals in the ms (26 R439). -/
def State.linkFails (s : State) (ring frame : Nat) : Bool := (s.ring ring).up && 64 ≤ (s.ring ring).refusals frame (s.now / 1000000)

/-- A ring retired: what its senders still hold goes by the other ring (26 R439). -/
def State.retireRing (s : State) (k : Nat) : State :=
  let held := (s.ring k).retry
  (s.modRing k fun r => { r with up := false, retry := [] }).modRing (1 - k) fun r => r.adopt held

/-- RING_LINK_FAIL (26 R439): the ring is retired. -/
def execRingLinkFail (ring frame : Nat) (s : State) : Out :=
  event "RING_LINK_FAIL" <|
    if 2 ≤ ring || 8 ≤ frame || !s.linkFails ring frame || !(s.ring (1 - ring)).up then none
    else
      let n := (s.ring ring).refusals frame (s.now / 1000000)
      let s := (s.retireRing ring).modRing ring fun r => { r with link := some frame }
      some (s.deviceEntry 0x80 (16 * ring + frame) n)

/-- Every running grid aborted as under ACTION 2 (26 R440). -/
def State.abortAll (s : State) (origin : Nat) : State :=
  (s.grids.filter (·.runnable)).foldl (fun s g => s.abortGrid g.uid origin none) s

/-- RING_SECOND_LINK_FAIL (26 R440). -/
def execRingSecondLinkFail (ring frame : Nat) (s : State) : Out :=
  event "RING_SECOND_LINK_FAIL" <|
    if 2 ≤ ring || 8 ≤ frame || !s.linkFails ring frame || (s.ring (1 - ring)).up then none
    else
      let s := { s.modRing ring (fun r => { r with up := false, link := some frame }) with halted := true }
      some ((s.deviceEntry 0x81 (16 * ring + frame) 0).abortAll 5)

/-! ### Planes (26 R441 to R443) -/

/-- The cause with which a resolved request fails (26 R441). -/
def resolvedCause : PeerKind → BitVec 8
  | .read _ | .phaseRead _ _ => 0x71
  | _ => 0x70

/-- Requests resolved: those sent and not answered fail by their kind; those not sent fail unperformed when `all` (26 R441, R445). -/
def State.resolveReqs (s : State) (rs : List OutReq) (all : Bool) : State :=
  rs.foldl (fun s r =>
    if r.at_ == .sent then (s.answer r (.fault (resolvedCause r.kind))).getD s
    else if all && r.at_ != .back then (s.answer r (.fault 0x71)).getD s
    else s) s

/-- UALINK_PLANE_DOWN (26 R441): number 8 + 8m + k says that plane k is down at module m (R443, DEDUCED, log 88). One that is down here: every request sent on the plane and not answered is resolved; what was not sent takes the next plane
(R443). -/
def execUalinkPlaneDown (plane : Nat) (s : State) : Out :=
  event "UALINK_PLANE_DOWN" <|
    if 8 ≤ plane then
      let m := plane / 8 - 1
      if s.farDown.contains (m, plane % 8) || 1024 ≤ m then none else some { s with farDown := (m, plane % 8) :: s.farDown }
    else if !s.planes.getLsbD plane then none
    else
      let s := { s with planes := s.planes &&& ~~~(BitVec.ofNat 8 (2 ^ plane)) }
      let s := s.resolveReqs (s.outReqs.filter fun r => r.plane == plane) false
      some (s.deviceEntry 0x82 plane 0)

/-! ### Lost peers (26 R445) -/

/-- A module has answered nothing for 1 ms of TIME while a request to it was outstanding (26 R445). -/
def State.silent (s : State) (m : Nat) : Bool :=
  look m 0 s.heard + 1000000 ≤ s.now && s.outReqs.any fun r => r.mod == m && r.at_ != .back && r.since + 1000000 ≤ s.now

/-- A module is lost now: every plane that reaches it is down, or it is silent (26 R445). -/
def State.losesPeer (s : State) (m : Nat) : Bool :=
  !s.lost.contains m && ((List.range 8).all (fun p => !s.planes.getLsbD p || s.farDown.contains (m, p)) || s.silent m)

/-- PEER_LOST (26 R445, R446). -/
def execPeerLost (mod : Nat) (s : State) : Out :=
  event "PEER_LOST" <|
    if !s.losesPeer mod then none
    else
      let s := s.resolveReqs (s.outReqs.filter fun r => r.mod == mod) true
      let fs := s.frames.map fun f => { f with waiters := f.waiters.filter fun w => w.peer != some mod }
      let s := { s with lost := mod :: s.lost, frames := fs }
      some (s.deviceEntry 0x83 0 mod)

/-- PEER_ANSWERING_AGAIN (26 R445). -/
def execPeerAnsweringAgain (mod : Nat) (s : State) : Out :=
  event "PEER_ANSWERING_AGAIN" <|
    if s.lost.contains mod then
      let s := { s with lost := s.lost.filter (· != mod) }
      some (s.deviceEntry 0x84 0 mod)
    else none

/-- The state as it stands before the next step. -/
def State.advance (s : State) : State := s.advanceTraps.advanceBoards.advanceEngines.pumpAll.passInAll.wakeBinds.unmapDrained.advanceMoved.advanceImages.advanceWaits.advanceParked

end Sys2Proof.Machine
end

