-- ==== Sys2Proof/Machine/Ports.lean ====
section
/-!
DEFINITION. The issue ports: what holds a bundle at issue (03 R43, R57, R63, R65, R66, 01 R9, R11), which board a port chooses (13 R293,
01 R10), and what the end of a bundle adds (13 R289, 16 R341).
-/
namespace Sys2Proof.Machine

/-! ### Trials -/

/-- The next state of an outcome. -/
def nextOf : Out → Option State
  | .next s => some s
  | _ => none

/-- A memory-slot instruction tried: the state it would leave. -/
def tryMem (i : Instr) (s : State) : Option State :=
  match i with
  | .ld d br x off peg w sc => nextOf (execLd d br x off peg w sc s)
  | .st d br x off peg w sc => nextOf (execSt d br x off peg w sc s)
  | .ldu d br x off peg w sc => nextOf (execLdu d br x off peg w sc s)
  | .stu d br x off peg w sc => nextOf (execStu d br x off peg w sc s)
  | .lds d x off peg w => nextOf (execLds d x off peg w s)
  | .sts d x off peg w => nextOf (execSts d x off peg w s)
  | .atom d a br x off peg op sc wd => nextOf (execAtom d a br x off peg op sc wd s)
  | .red a br x off peg op sc wd => nextOf (execRed a br x off peg op sc wd s)
  | .atoms d a x off peg op sc wd => nextOf (execAtoms d a x off peg op sc wd s)
  | .reds a x off peg op sc wd => nextOf (execReds a x off peg op sc wd s)
  | .atomu d a br x off peg op sc wd => nextOf (execAtomu d a br x off peg op sc wd s)
  | .redu a br x off peg op sc wd => nextOf (execRedu a br x off peg op sc wd s)
  | _ => none

/-- A copy command tried: the state its acceptance would leave. -/
def tryCopy (i : Instr) (s : State) : Option State :=
  match i with
  | .cpa f g br w peg => nextOf (execCpa f g br w peg s)
  | .cpb u n fl peg => nextOf (execCpb u n fl peg s)
  | .cpr u f fl peg => nextOf (execCpr u f fl peg s)
  | _ => none

/-! ### What holds a bundle at issue (03 R43) -/

/-- The decoded slots of a bundle, in their order. -/
def slotsOf (w : BundleWord) : List Instr :=
  let b := decodeBundle w
  [b.vec, b.mem, b.cmx, b.ctl].filterMap fun r => match r with
    | some (.ok i) => some i
    | _ => none

/-- The bundle would raise a peg above 63 (03 R63). -/
def Board.pegsFull (b : Board) (is : List Instr) : Bool :=
  (List.range 8).any fun k =>
    let n := (is.filter fun i => pegOf i == some (BitVec.ofNat 3 k)).length
    n != 0 && 63 < (b.peg k).cnt + n

/-- Bytes of a lane of an access. -/
def laneBytes : MemKind → Nat
  | .load n _ | .store n => n
  | .atomic _ wd _ => if wd then 8 else 4
  | _ => 0

/-- An access overlaps an entry of the scribe table: in lines of virtual addresses, or in 32-byte units of the scratchpad (03 R66). -/
def Scribe.meets (e : Scribe) (b : Board) (o : MemOp) : Bool :=
  let u := match o.space with | .glob => 128 | .scr => 32
  (match o.space with | .glob => e.bent.isNone && e.ctx == b.env.ctx | .scr => e.bent == some b.env.bent)
  && e.lo < e.hi && o.lanes.any fun a =>
    e.lo / u ≤ (a.va + laneBytes o.kind - 1) / u && a.va / u ≤ (e.hi - 1) / u

/-- A memory-slot access is held: a scribe entry overlaps it, or not all its lines find a free request entry (03 R43, R66; DESIGN CHOICE, log 109). -/
def State.accessHeld (s : State) (b : Board) (i : Instr) : Bool :=
  match (tryMem i s).bind (·.bd) with
  | some x => (x.path.drop b.path.length).any fun o =>
      (s.core b.core).scribe.any (fun e => e.meets b o) || (!o.lines.isEmpty && 2048 < s.outstanding b.core + o.lines.length)
  | none => false

/-- The bundle is held for a cause other than an engine; the board has been presented and started. -/
def State.held (s : State) (b : Board) (is : List Instr) : Bool := b.pegsFull is || is.any (s.accessHeld b)

/-- The engine that an instruction is presented to (08 R163, 11 R238). -/
def State.engineFor (s : State) (b : Board) (i : Instr) : Option EngineId :=
  match i with
  | .cpa .. | .cpb .. | .cpr .. => some (.copy b.core)
  | .mma _ _ t _ | .mmas _ _ t _ | .accClr t _ | .accLd _ t _ | .accSt _ t _ | .accRdv _ _ t _ | .accWrv _ _ t _ =>
    some (.matrix (s.tileCore b t.toNat))
  | .cbtLd .. => some (.matrix b.core)
  | .routeCount .. | .routeXchg .. | .routePlace .. | .routeScatter .. | .routeCombine .. | .routeStat .. =>
    some (.route (b.core / 16) (b.core / 4 % 4 / 2))
  | _ => none

/-- The engine of a bundle, and its instruction. -/
def State.engineOf (s : State) (b : Board) (is : List Instr) : Option (EngineId × Instr) :=
  is.findSome? fun i => (s.engineFor b i).map fun e => (e, i)

/-- An engine can accept the command in this period: it has taken none, its queue has room, and for a copy the scribe tables do (01 R11,
03 R65, 11 R238). Of a routing engine's 32 the running ones count (DESIGN CHOICE, log 110). -/
def State.accepts (s : State) (i : Instr) : EngineId → Bool
  | .matrix c => !(s.core c).mTaken && (s.core c).mq.length < 32 && !s.engineStopped c
  | .copy c =>
    !(s.core c).cTaken && (s.core c).cq.length < 64 && !s.engineStopped c
    && match tryCopy i s with
      | some t => (List.range 4).all fun k => (t.core (c / 4 * 4 + k)).scribe.length ≤ 32
      | none => true
  | .route f e =>
    !(if e == 0 then (s.frame f).rTaken0 else (s.frame f).rTaken1)
    && ((s.frame f).rq.filter fun c => c.eng == e).length < 32

/-- A board's next bundle presented, its waits released and its bases applied: the state, the board and the instructions. -/
def State.trial (s : State) (id : Nat) : Option (State × Board × List Instr) := do
  let (t, b) ← s.present id
  match t.front b t.cur.pc with
  | .bundle w =>
    let x := b.start (w.extractLsb' 5 8)
    some ({ t with bd := some x }, x, slotsOf w)
  | _ => none

/-- The board's next bundle is held for a cause other than an engine. -/
def State.heldNow (s : State) (id : Nat) : Bool :=
  match s.trial id with
  | some (t, b, is) => t.held b is
  | none => false

/-- The engine command of the board's next bundle, and whether its engine can accept it. -/
def State.commandOf (s : State) (id : Nat) : Option (EngineId × Bool) :=
  match s.trial id with
  | some (t, b, is) => (t.engineOf b is).map fun e => (e.1, t.accepts e.2 e.1)
  | none => none

/-- The board holds its partition: the slot whose turn it is waits for the fetch of its target (03 R43, 09 R215). The hold begins when that
slot's bundle would issue; in the gap before, other boards issue. DESIGN CHOICE: log 97. -/
def State.waitsFetch (s : State) (b : Board) : Bool := (s.inTurn b).isSome && (s.nextSlot b).isNone

/-! ### Ports and partitions -/

/-- Partition `n` of the module: core n div 12, partition n mod 12. -/
def State.partAt (s : State) (n : Nat) : Part := (s.core (n / 12)).parts.getD (n % 12) {}

/-- A partition changed. -/
def State.modPart (s : State) (n : Nat) (f : Part → Part) : State :=
  s.modCore (n / 12) fun c => { c with parts := modAt (n % 12) f c.parts }

/-- A port of a partition. -/
def Part.port (p : Part) (one : Bool) : Port := if one then p.p1 else p.p0
/-- A port changed. -/
def Part.modPort (p : Part) (one : Bool) (f : Port → Port) : Part := if one then { p with p1 := f p.p1 } else { p with p0 := f p.p0 }

/-- The partition of a board (01 R8). -/
def Board.part (b : Board) : Nat := b.core * 12 + b.slot / 8

/-- The board is resident. -/
def State.resident (s : State) (b : Board) : Bool := !((s.bent? b.env.bent).map (·.away)).getD true

/-- The boards of a partition. -/
def State.boardsIn (s : State) (n : Nat) : List Board := s.allBoards.filter fun b => b.part == n && s.resident b

/-- The partitions that have boards, ascending. -/
def State.partsUsed (s : State) : List Nat := (ascending ((s.allBoards.filter s.resident).map Board.part)).eraseDups

/-- The next bundle of the board fills its vector slot. -/
def State.wantsVector (s : State) (b : Board) : Bool :=
  match (s.nextSlot b).bind fun x => (b.slotOf x).path with
  | some p => match s.front b p.pc with
    | .bundle w => (decodeBundle w).vec.isSome
    | _ => false
  | none => false

/-- One board is chosen before another (13 R293). -/
def State.prefers (s : State) (a b : Board) : Bool :=
  let rank (x : Board) : Nat := ((s.grid? x.env.grid).map (·.rank)).getD 0
  let old (x : Board) : Nat := if 8 ≤ x.readyTicks then x.readyTicks else 0
  if old a != old b then old b < old a
  else if rank a != rank b then rank b < rank a
  else if a.lastIssue != b.lastIssue then a.lastIssue < b.lastIssue
  else if a.born != b.born then a.born < b.born
  else a.slot < b.slot

/-- The board that comes first. -/
def State.bestOf (s : State) : List Board → Option Board
  | [] => none
  | b :: t => match s.bestOf t with
    | none => some b
    | some c => if s.prefers c b then some c else some b

/-- The board's next bundle arrives at a gate of its bent or group, or may retire it (02 R35). -/
def State.arrivesNext (s : State) (id : Nat) : Bool :=
  match s.trial id with
  | some (_, _, is) => is.any fun i => match i with
    | .barAw k _ _ | .barArr k _ _ => k != .remote
    | .exit => true
    | _ => false
  | none => false

/-- The board whose bundle a port issues next in this period, the board `but` apart (13 R293, 01 R10, R11). A bundle that arrives at a gate, and has
become ready after a higher slot's turn in the tick, waits for the next one (02 R35). -/
def State.choiceBut (s : State) (n : Nat) (one : Bool) (but : Option Nat) : Option Nat :=
  let p := s.partAt n
  let q := p.port one
  if !p.ticking || q.issued then none
  else match q.pres with
    | some x => if q.grant && ((s.board? x.1).bind s.nextSlot).isSome then some x.1 else none
    | none => (s.bestOf ((s.boardsIn n).filter fun b =>
        some b.id != but && !b.presenting && (s.nextSlot b).isSome && (q.vbusy == 0 || !s.wantsVector b)
        && !(s.lateFor b && s.arrivesNext b.id))).map (·.id)

/-- The board whose bundle a port issues next in this period (13 R293). -/
def State.portChoice (s : State) (n : Nat) (one : Bool) : Option Nat := s.choiceBut n one none

/-- Port 1 goes first: both ports' bundles arrive, its board has the lower slot, and they do not ask one engine, which takes port 0's command and leaves
port 1's bundle for a later tick (01 R11, 02 R35). -/
def State.swapped (s : State) (a b : Nat) : Bool :=
  let slot (id : Nat) : Nat := ((s.board? id).map (·.slot)).getD 0
  slot b < slot a && s.arrivesNext a && s.arrivesNext b
  && !((s.commandOf a).isSome && (s.commandOf a).map (·.1) == (s.commandOf b).map (·.1))

/-- The next issue of a partition: port 0 before port 1, but for arrivals of one tick (02 R35). -/
def State.partChoice (s : State) (n : Nat) : Option (Nat × Bool × Nat) :=
  match s.portChoice n false with
  | none => (s.portChoice n true).map fun id => (n, true, id)
  | some a => match s.choiceBut n true (some a) with
    | some b => if s.swapped a b then some (n, true, b) else some (n, false, a)
    | none => some (n, false, a)

/-- The next issue among partitions, in ascending order. -/
def State.firstChoice (s : State) (ns : List Nat) : Option (Nat × Bool × Nat) := ns.findSome? s.partChoice

/-- A board that retires in this tick is counted at its gates in its slot's place among the tick's arrivals (02 R35). -/
def State.retireTurn (s : State) (b : Board) : Bool :=
  match s.firstChoice (s.partsUsed.filter fun n => n / 48 == b.core / 4 && n ≤ b.part) with
  | none => true
  | some (n, _, id) => n == b.part && b.slot < ((s.board? id).map (·.slot)).getD 0

/-- A presented bundle traps before it issues, or waits for nothing. -/
def State.traps (s : State) (id : Nat) : Bool :=
  match s.present id with
  | some (t, b) => (t.frontTrap b).isSome
  | none => false

/-- The engine has accepted a held command whose bundle is still to issue in this period: it accepts no other (01 R11). -/
def State.grantedTo (s : State) (eng : EngineId) : Bool :=
  s.partsUsed.any fun n => let p := s.partAt n
    [p.p0, p.p1].any fun q => q.grant && match q.pres with
      | some (id, _) => !s.traps id && (s.commandOf id).map (·.1) == some eng
      | none => false

/-- The held bundles presented to an engine, by order of first presentation: order, partition, port, board, and whether the engine can
accept the command now (01 R11). A bundle that stands for another cause too presents nothing. -/
def State.heldFor (s : State) (eng : EngineId) : List (Nat × Nat × Bool × Nat × Bool) :=
  s.partsUsed.flatMap fun n =>
    let p := s.partAt n
    [false, true].filterMap fun one =>
      let q := p.port one
      match q.pres with
      | some (id, k) =>
        if q.grant || s.heldNow id then none
        else match s.commandOf id with
          | some (e, ok) => if e == eng then some (k, n, one, id, ok && !s.grantedTo eng && (p.stalled || (p.ticking && !q.issued))) else none
          | none => none
      | none => none

/-- The board's next bundle can issue in this period from its port: nothing holds it, and its engine takes its command, which no held command of that
engine comes before (01 R11). -/
def State.goes (s : State) (id : Nat) : Bool :=
  !s.heldNow id && match s.commandOf id with
    | some e => e.2 && !s.grantedTo e.1 && (s.heldFor e.1).isEmpty
    | none => true

/-- A port whose bundle does not issue holds it, from the next period on (01 R11, 03 R43). DEDUCED: log 39. -/
def State.refuse (s : State) (n : Nat) (one : Bool) (id : Nat) : State :=
  ({ s with nextUid := s.nextUid + 1 }.modPart n fun p => p.modPort one fun q =>
    { q with issued := true, pres := some (id, s.nextUid), grant := false }).modBoard id fun b => { b with presenting := true }

/-- The next bundle that issues in the current periods; ports whose bundles cannot issue hold them. `fuel`: ports left. -/
def State.nextIssue : Nat → State → State × Option (Nat × Bool × Nat)
  | 0, s => (s, none)
  | fuel + 1, s =>
    match s.firstChoice s.partsUsed with
    | none => (s, none)
    | some (n, one, id) =>
      if ((s.partAt n).port one).grant || s.traps id || s.goes id then (s, some (n, one, id))
      else State.nextIssue fuel (s.refuse n one id)

/-- Issues that are due in the current periods. -/
def State.dueIssue (s : State) : State × Option (Nat × Bool × Nat) := s.nextIssue (2 * s.partsUsed.length + 1)

/-- No port of a bay has a bundle to issue in the current period. -/
def State.bayQuiet (s : State) (bay : Nat) : Bool := (s.firstChoice (s.partsUsed.filter fun n => n / 48 == bay)).isNone

/-! ### Issue -/

/-- Ticks for which a vector-slot instruction occupies its port's unit (03 R47). -/
def occupancy : Instr → Nat
  | .frcp .. | .frsq .. | .fsqrt .. | .fexp2 .. | .flog2 .. | .fsin .. | .fcos .. | .ftanh .. => 4
  | _ => 2

/-- An FP32, packed 16-bit or transcendental instruction of the vector slot (16 R341, class VF). DEDUCED: log 48. -/
def floatWork : Instr → Bool
  | .fadd .. | .fsub .. | .fmul .. | .ffma .. | .fmin .. | .fmax .. | .fabs .. | .fneg .. | .fcmp .. | .fclass .. | .frcp .. | .frsq ..
  | .fsqrt .. | .fexp2 .. | .flog2 .. | .fsin .. | .fcos .. | .ftanh .. | .hadd2 .. | .hsub2 .. | .hmul2 .. | .hfma2 .. | .hmin2 ..
  | .hmax2 .. => true
  | _ => false

/-- Held periods for vector operand reads beyond two in one bank (03 R57). -/
def Board.bankHold (b : Board) (is : List Instr) : Nat :=
  let vs := ((is.flatMap b.uses).filterMap fun u => match u.how, u.reg with
    | .read, .v n => some n
    | _, _ => none).eraseDups
  ((List.range 4).map fun k => (vs.filter fun n => n % 4 == k).length - 2).sum

/-- A port's bundle leaves it. -/
def State.clearPort (s : State) (n : Nat) (one : Bool) (id busy hold : Nat) : State :=
  (s.modPart n fun p => { p.modPort one fun q =>
      { q with issued := true, pres := none, grant := false, vbusy := if busy == 0 then q.vbusy else busy } with hold := p.hold + hold })
    |>.modBoard id fun b => { b with presenting := false }

/-- A port's bundle issues (13 R293). -/
def State.leavePort (s : State) (n : Nat) (one : Bool) (id busy hold : Nat) : State :=
  (s.clearPort n one id busy hold).modBoard id fun b => { b with readyTicks := 0, lastIssue := (s.bay (b.core / 4)).nextEdge }

/-- The end of a slice in units of TIME, as ticks at the bay's clock from now (13 R289). -/
def State.ticksLeft (s : State) (bay period : Nat) : Nat :=
  (200000 * 6552 * ((s.bay bay).slice + 1) - s.time) / period

/-- A yield bundle (09 R206, 13 R289): one without a YIELD states the last run again; the board parks when work presses on it and its run
does not fit in the slice. A board that a TRAP of the bundle has frozen does not park (21 R381). -/
def State.yieldPoint (s : State) (b : Board) (stated : Bool) (period : Nat) : Board :=
  let b := if stated then b else { b with run := b.run.map fun r => { r with start := b.tick.toNat, spent := false, fallen := false } }
  let stay := match b.run with
    | some r => r.n != 0 && r.n ≤ s.ticksLeft (b.core / 4) period
    | none => false
  if b.frozen.isSome || (b.slotA.path.isNone && b.slotB.path.isNone) || stay || !s.pressed b then b else { b with parkedY := true }

/-- The energy of a bundle's vector and control slots (16 R341). -/
def State.chargeBundle (s : State) (b : Board) (is : List Instr) : State :=
  let bay := b.core / 4
  let s := match is.find? fun i => slotNumOf i == 0 with
    | some i => s.charge b.env.ctx bay (if floatWork i then 0 else 1) 1
    | none => s
  if is.any fun i => slotNumOf i == 3 then s.charge b.env.ctx bay 9 1 else s

/-- What follows the slots of a bundle: its end, its energy, and a yield point. -/
def State.endBundle (s : State) (is : List Instr) (period : Nat) : State :=
  match s.bd with
  | none => s
  | some b =>
    let s := (s.finish b 1).chargeBundle b is
    match s.bd with
    | none => s
    | some b =>
      let b := s.turnToLeave b
      let s := { s with bd := some b }
      if s.cur.y then { s with bd := some (s.yieldPoint b (is.any fun i => match i with | .yield _ => true | _ => false) period) } else s

end Sys2Proof.Machine
end

