-- ==== Sys2Proof/Machine/Clock.lean ====
section
/-!
DEFINITION. Clocks: wall time and TIME (16 R332, R339), a core clock period of a bay (03 R42 to R44), commands of held ports accepted
(01 R11), droop phases (16 R338), correction freezes (23 R414), and static energy (16 R342).
-/
namespace Sys2Proof.Machine

/-! ### Time -/

/-- One core clock period at a level, in units of 1/6552 ns (16 R332). DEDUCED: log 7. -/
def periodOf (level : Nat) : Nat := [8190, 6552, 5460, 4680, 4095, 3640, 3360, 3120].getD level 3120

/-- The rail's target of a level in microvolts (16 R332). -/
def targetOf (level : Nat) : Nat := 1000 * [600, 640, 680, 720, 760, 800, 850, 900].getD level 900

/-- A frame's clock up to wall time `w` (01 R17): at its first boundary it takes the level `l`, and at each boundary each of its routing engines
can accept a command again (11 R238). -/
def Frame.pass (f : Frame) (l w : Nat) : Frame :=
  if w < f.clkEdge then f
  else { f with clk := l, clkEdge := f.clkEdge + periodOf l * ((w - f.clkEdge) / periodOf l + 1), rTaken0 := false, rTaken1 := false }

/-- The gate that the driver has named, CTXID in [63:48] and its address in [47:0], is the gate at an address of a context: both lie at one place,
whatever they are called (16 R348). DESIGN CHOICE: log 63. -/
def State.namesGate (s : State) (name : Nat) (c : BitVec 16) (va : Nat) : Bool :=
  name != 0 && match s.translate (BitVec.ofNat 16 (name / 2 ^ 48)) (name % 2 ^ 48) .r, s.translate c va .r with
    | .ok a, .ok b => a == b
    | _, _ => false

/-- A board here waits on a gate of a pacing group, from its `.wait`, or its `.aw` once it has arrived (16 R348). -/
def State.waitsOn (s : State) (p : Pace) : Bool :=
  s.allBoards.any fun b => b.rgates.any fun g => !g.parked && (match g.stage with
    | .wait _ => true
    | .start => g.opr == 2 || g.made) && p.gates.any fun n => s.namesGate n b.env.ctx g.va.toNat

/-- TIME is slewed: the last exchange is not more than 10 ms back, and the host link is up (16 R340). DESIGN CHOICE: log 85. -/
def State.slews (s : State) : Bool := s.linkUp && s.wall ≤ s.exchanged + 65520000000

/-- Wall time moves on to `w`, and the frame clocks with it; TIME follows with slewing of at most 500 parts per million (16 R339). DESIGN CHOICE: log 85. -/
def State.elapse (s : State) (w : Nat) : State :=
  let d := w - s.wall
  let q := s.slewRem + d
  let m : Int := if s.slews then (q / 2000 : Nat) else 0
  let c : Int := max (-m) (min m s.timeErr)
  { s with wall := max w s.wall, time := ((s.time + d : Nat) + c).toNat, timeErr := s.timeErr - c
           slewRem := if s.timeErr == 0 then 0 else q % 2000
           frames := tab s.frames.length fun k => (s.frame k).pass (s.frameLevel k) w
           paces := s.paces.map fun p => if s.waitsOn p then { p with waited := p.waited + d } else p }

/-- A bay is clocked: its frame serves and no brownout has stopped it. -/
def State.runs (s : State) (bay : Nat) : Bool := s.rails && bay < 32 && (s.frame (bay / 4)).inService && !(s.bay bay).stopped

/-- The bays that are clocked. -/
def State.running (s : State) : List Nat := (List.range 32).filter s.runs

/-! ### A partition's period (03 R43) -/

/-- A port at the start of a tick. -/
def Port.tick (q : Port) : Port := { q with issued := false, vbusy := q.vbusy - 1 }

/-- A port's held bundle is dropped when its board can no longer issue it. -/
def State.keep (s : State) (n : Nat) (q : Port) : Port :=
  match q.pres with
  | none => q
  | some x =>
    match s.board? x.1 with
    | some b => if b.part == n && s.resident b && (s.nextSlot b).isSome then q else { q with pres := none, grant := false }
    | none => { q with pres := none, grant := false }

/-- What held a port's bundle has ended, without an engine to ask. -/
def State.released (s : State) (q : Port) : Bool :=
  match q.pres with
  | some x => s.traps x.1 || (!s.heldNow x.1 && (s.commandOf x.1).isNone)
  | none => false

/-- A partition in its next period: a tick, or held until what holds each of its ports has ended (03 R43). A bank-read hold and a freeze or a droop's
held period add up (DESIGN CHOICE, log 109). -/
def State.nextPart (s : State) (n : Nat) : Part :=
  let p := s.partAt n
  let p := { p with p0 := s.keep n p.p0, p1 := s.keep n p.p1 }
  let wait := { p with ticking := false, stalled := false }
  let tick := { p with ticking := true, stalled := false, p0 := { p.p0.tick with grant := s.released p.p0 },
                       p1 := { p.p1.tick with grant := s.released p.p1 } }
  let skip := match (s.bay (n / 48)).droop with | some d => d.skip | none => false
  if 2 ≤ (s.core (n / 12)).freeze || skip then wait
  else if p.hold != 0 then { wait with hold := p.hold - 1 }
  else if (s.boardsIn n).any s.waitsFetch then wait
  else if p.p0.pres.isNone && p.p1.pres.isNone then tick
  else if (p.p0.pres.isNone || s.released p.p0) && (p.p1.pres.isNone || s.released p.p1) then tick
  else { wait with stalled := true }

/-- A board at the start of a tick of its partition (03 R42, R45, R48). -/
def State.tickBoard (s : State) (b : Board) : Board :=
  if s.stands b then b
  else
    { s.turnToLeave b with
      tick := b.tick + 1
      gapRem := b.gapRem - 1
      pipe := b.pipe.map fun e => { e with rem := e.rem - 1 }
      readyTicks := if (s.nextSlot b).isSome then b.readyTicks + 1 else 0 }

/-- A port of a list of partitions presents the board's bundle. -/
def Part.presents (p : Part) (id : Nat) : Bool :=
  (p.p0.pres.map (·.1)) == some id || (p.p1.pres.map (·.1)) == some id

/-- A command at the head of a matrix engine after a period: its occupancy counts once it runs, that of CBT.LD once its kilobyte has arrived
(08 R187). -/
def Cmd.occupied (c : Cmd) : Cmd :=
  let counts := c.started && match c.instr with | .cbtLd .. => c.out == 0 | _ => true
  if counts then { c with busy := c.busy - 1 } else c

/-- The partitions of a bay enter their next period. -/
def State.enterParts (s : State) (bay : Nat) : State :=
  let ps := tab 48 fun k => s.nextPart (48 * bay + k)
  let t := s.modBay bay fun y => { y with arrSlot := none, cores := tab 4 fun c =>
    let x := y.cores.getD c {}
    { x with
      parts := tab 12 fun k => ps.getD (12 * c + k) {}
      mTaken := false, cTaken := false, freeze := if 2 ≤ x.freeze then x.freeze - 1 else x.freeze
      mq := if x.freeze == 0 then modAt 0 Cmd.occupied x.mq else x.mq } }
  t.mapBoards fun b =>
    if b.core / 4 != bay || !s.resident b then b
    else
      let p := ps.getD (b.part - 48 * bay) {}
      let b := { b with presenting := p.presents b.id }
      if p.ticking then s.tickBoard b else b

/-! ### Energy (16 R342) -/

/-- Board slots of a bay that a context holds. -/
def State.slotsHeld (s : State) (c : BitVec 16) (bay : Nat) : Nat :=
  ((s.bents.filter fun x => !x.away && x.cores.headD 0 / 4 == bay && ((s.grid? x.grid).map (·.ctx)) == some c).map (·.slots.length)).sum

/-- The static energy of one period of a bay apportioned. -/
def State.chargeStatic (s : State) (bay : Nat) : State :=
  { s with ctxs := s.ctxs.map fun c =>
      let n := s.slotsHeld c.ctxid bay
      if n == 0 then c
      else
        let r := look bay 0 c.rems + Config.staticPower bay (s.bay bay).running * n
        let e := sat48 c.estat (r / 384)
        { c with rems := Machine.put bay (r % 384) c.rems, estat := e.1, est := if e.2 then c.est ||| 2 else c.est } }

/-! ### CORE_CLOCK_PERIOD -/

/-- Droop state at the start of a period, and whether the period is a stretched tick (16 R338). DEDUCED: log 78. -/
def Droop.pass (d : Droop) : Droop × Bool :=
  if 2 ≤ d.stretch then ({ d with stretch := d.stretch - 1 }, true)
  else if d.skip then ({ d with skip := false }, false)
  else if d.window != 0 then ({ d with window := d.window - 1, skip := true }, false)
  else (d, false)

/-- The lowest of the limits on a bay's level (16 R333); 1 in early service (17 R360). -/
def State.limit (s : State) (bay : Nat) : Nat :=
  let y := s.bay bay
  if !s.late.isEmpty then 1 else min (min y.capLevel y.thermal) (min y.pace y.lvlmax.toNat)

/-- A bay's period is about to end: no other clocked bay's boundary comes before, and nothing is left to issue in it. -/
def State.atEdge (s : State) (bay : Nat) : Bool :=
  (s.running.all fun k => (s.bay bay).nextEdge ≤ (s.bay k).nextEdge) && s.bayQuiet bay

/-- A phase of a bay's droop response is over with the period that ends (16 R338). -/
def Droop.phaseOver (d : Droop) : Bool := d.stretch == 1 || (d.stretch == 0 && d.half && d.window == 0 && !d.skip)

/-- A result of a board of the bay lands now. -/
def State.landsIn (s : State) (bay : Nat) : Bool :=
  s.allBoards.any fun b => b.core / 4 == bay && !s.stands b && b.pipe.any (·.landsNow)

/-- Something of the bay comes before its next period: an issue, a landing, the end of a droop phase or of a correction freeze, a change of
grant, or a switch to a level whose target the rail holds (16 R333, R338, 23 R414). -/
def State.bayWaits (s : State) (bay : Nat) : Bool :=
  let y := s.bay bay
  !s.bayQuiet bay || s.landsIn bay || y.cores.any (·.freeze == 1)
  || (match y.droop with | some d => d.phaseOver | none => false)
  || y.granted != s.limit bay || (y.running < y.granted && targetOf y.granted ≤ y.rail)

/-- A bay's next period may begin: it is clocked, its boundary is the earliest, and nothing comes before it. -/
def State.mayTick (s : State) (bay : Nat) : Bool :=
  s.runs bay && (s.running.all fun k => (s.bay bay).nextEdge ≤ (s.bay k).nextEdge) && !s.bayWaits bay

/-- CORE_CLOCK_PERIOD (03 R42 to R44). -/
def execCoreClockPeriod (bay : Nat) (s : State) : Out :=
  event "CORE_CLOCK_PERIOD" <|
    if !s.mayTick bay then none
    else
      let s := s.elapse (s.bay bay).nextEdge
      let s := s.enterParts bay
      let d := (s.bay bay).droop.map Droop.pass
      let long := match d with | some x => x.2 | none => false
      let s := s.chargeStatic bay
      let s := if long then s.chargeStatic bay else s
      some (s.modBay bay fun y =>
        { y with droop := d.map (·.1), nextEdge := max y.nextEdge s.wall + periodOf y.running * if long then 2 else 1 })

/-! ### Commands of held ports (01 R11) -/

/-- The one first presented. DEDUCED: log 65. -/
def firstHeld : List (Nat × Nat × Bool × Nat × Bool) → Option (Nat × Nat × Bool × Nat × Bool)
  | [] => none
  | x :: t => match firstHeld t with
    | some y => if y.1 < x.1 then some y else some x
    | none => some x

/-- ENGINE_COMMAND_ACCEPT: the engine accepts the held command first in its order; the period becomes a tick of its partition, in which the
held bundle issues (01 R11). A bundle that arrives at a gate behind a higher slot's turn waits for the next period (02 R35). Where the other port is held
for an engine and this one for a peg, a scribe entry or request entries, the acceptance makes the period a tick all the same. DEDUCED: log 65. -/
def execEngineCommandAccept (eng : EngineId) (s : State) : Out :=
  event "ENGINE_COMMAND_ACCEPT" do
    let (_, n, one, id, ok) ← firstHeld (s.heldFor eng)
    if !ok || ((s.board? id).any s.lateFor && s.arrivesNext id) then none
    else
      let p := s.partAt n
      let t := if p.ticking then s
        else
          let ids := (s.boardsIn n).map (·.id)
          (s.modPart n fun p => { p with
            ticking := true, stalled := false
            p0 := { p.p0.tick with grant := s.released p.p0 }, p1 := { p.p1.tick with grant := s.released p.p1 } }).mapBoards fun b =>
            if ids.contains b.id then s.tickBoard b else b
      some (t.modPart n fun p => p.modPort one fun q => { q with grant := true })

/-! ### Phases -/

/-- DROOP_STRETCH_END: the halved-issue window begins (16 R338). -/
def execDroopStretchEnd (bay : Nat) (s : State) : Out :=
  event "DROOP_STRETCH_END" <|
    match (s.bay bay).droop with
    | some d => if d.stretch == 1 && s.atEdge bay then
        some (s.modBay bay fun y => { y with droop := some { stretch := 0, window := 64, skip := false, half := true } }) else none
    | none => none

/-- DROOP_WINDOW_END (16 R338). -/
def execDroopWindowEnd (bay : Nat) (s : State) : Out :=
  event "DROOP_WINDOW_END" <|
    match (s.bay bay).droop with
    | some d => if d.stretch == 0 && d.half && d.window == 0 && !d.skip && s.atEdge bay then some (s.modBay bay fun y => { y with droop := none }) else none
    | none => none

/-- A corrected error counted for a unit of a frame (23 R414). -/
def State.countCorrected (s : State) (frame unit : Nat) : State :=
  s.modFrame frame fun f => { f with corrected := Machine.put unit (look unit 0 f.corrected + 1) f.corrected }

/-- ECC_CORRECTION: it is counted; every partition and both engines of the core stand for 24 periods from the next boundary, and a further correction
counts 24 from its own detection (23 R414). Number 128 + 8f + k names no core but L2 slice `k` (0 to 3) or HBM stack `k - 4` of frame `f`, where
nothing is frozen. DESIGN CHOICE: log 106. -/
def execEccCorrection (core : Nat) (s : State) : Out :=
  event "ECC_CORRECTION" <|
    if 128 ≤ core then
      let k := core - 128
      if !s.rails || 64 ≤ k || 6 ≤ k % 8 then none else some (s.countCorrected (k / 8) (16 + k % 8))
    else if !s.runs (core / 4) then none
    else some ((s.modCore core fun c => { c with freeze := 25 }).countCorrected (core / 16) (core % 16))

/-- CORRECTION_FREEZE_END (23 R414). -/
def execCorrectionFreezeEnd (core : Nat) (s : State) : Out :=
  event "CORRECTION_FREEZE_END" <|
    if core < 128 && (s.core core).freeze == 1 then some (s.modCore core fun c => { c with freeze := 0 }) else none

end Sys2Proof.Machine
end

