-- ==== Sys2Proof/Machine/Power.lean ====
section
/-!
DEFINITION. Power: grants, rails and clock switches (16 R333), droop alarms (R337, R338), temperatures (R344), caps and measured power
(R346, R347, 26 R450, R451), collective pacing (16 R348, R349), time exchanges (R339, R340), brownouts (26 R449).
-/
namespace Sys2Proof.Machine

/-! ### Grants (16 R333) -/

/-- Microvolts that a rail gains at most from one wall time to another: 10 mV in each microsecond. -/
def ramp (since till : Nat) : Nat := 10 * (till - since) / 6552

/-- The rail's voltage now: between what it was and the target it moves to. The spec bounds a rise and states no more, so it is a free
value within the bounds. DESIGN CHOICE: log 69. -/
def State.presentRail (s : State) (bay : Nat) : Nat :=
  let y := s.bay bay
  let t := targetOf y.granted
  let lo := if y.rail < t then y.rail else t
  let hi := if y.rail < t then min t (y.rail + ramp y.railAt s.wall) else y.rail
  lo + Config.choose s.freeCtr (hi - lo + 1) % (hi - lo + 1)

/-- GRANT_CHANGE: the granted level becomes the lowest of the limits; downward the clock switches at this boundary (16 R333). -/
def execGrantChange (bay : Nat) (s : State) : Out :=
  event "GRANT_CHANGE" <|
    if !s.runs bay || (s.bay bay).granted == s.limit bay || !s.bayQuiet bay then none
    else
      let g := s.limit bay
      let r := s.presentRail bay
      some (s.free.modBay bay fun y => { y with granted := g, running := min y.running g, rail := r, railAt := s.wall })

/-- CLOCK_SWITCH: at a boundary the rail has reached the granted level's target, and the clock switches up (16 R333). -/
def execClockSwitch (bay : Nat) (s : State) : Out :=
  event "CLOCK_SWITCH" <|
    let y := s.bay bay
    let t := targetOf y.granted
    if !s.runs bay || y.granted ≤ y.running || y.granted != s.limit bay || !s.bayQuiet bay || y.rail + ramp y.railAt y.nextEdge < t then none
    else some (s.modBay bay fun y => { y with running := y.granted, rail := max y.rail t, railAt := s.wall })

/-! ### Droop (16 R337, R338) -/

/-- The droop response to an alarm: during a stretch none; else the response begins, again in a window. -/
def alarmed : Option Droop → Option Droop
  | some d => if d.stretch != 0 then some d else some { stretch := 7, window := 0 }
  | none => some { stretch := 7, window := 0 }

/-- DROOP_ALARM: the rail's reading in mV compared with the running level's target (16 R337). An alarm with EN = 0 is counted and has no
response (26 R448). -/
def execDroopAlarm (bay mv : Nat) (s : State) : Out :=
  event "DROOP_ALARM" <|
    let y := s.bay bay
    if !s.runs bay then none
    else if targetOf y.running ≤ 1000 * (mv + y.drpMv.toNat) then some s
    else some (s.modBay bay fun y =>
      { y with drpCnt := if y.drpCnt == 255#8 then 255 else y.drpCnt + 1, droop := if y.drpEn then alarmed y.droop else y.droop })

/-! ### Pacing level (16 R349) -/

/-- The lowest of the other limits on a bay, which the pacing level never exceeds there (16 R333, R349). DESIGN CHOICE: log 63. -/
def Bay.paceTop (y : Bay) : Nat := min (min y.capLevel y.thermal) y.lvlmax.toNat

/-- A bay's pacing level becomes `l`, but never more than the other limits; a level that is new is held for 2 ms from now (16 R349). -/
def Bay.setPace (now l : Nat) (y : Bay) : Bay :=
  let l := min l y.paceTop
  if l == y.pace then y else { y with pace := l, paceHold := now + 2000000 }

/-- Every bay changed. -/
def State.mapBays (s : State) (f : Bay → Bay) : State :=
  { s with frames := s.frames.map fun x => { x with bays := x.bays.map f } }

/-- The pacing level of each bay brought under the other limits as soon as they fall (16 R349). -/
def State.boundPace (s : State) : State := s.mapBays fun y => y.setPace s.now y.pace

/-! ### Temperature (16 R344) -/

/-- A bay after a reading in units of 0.1 degree: ten readings above TCAP lower the limit, a hundred below TCAP − 5 raise it. DESIGN CHOICE: log 62. -/
def Bay.sampled (y : Bay) (tmig tcap t : Nat) : Bay :=
  let hot := if tcap < t then y.hot + 1 else 0
  let cool := if t + 50 < tcap then y.cool + 1 else 0
  { y with
    temp := t
    warm := if tmig < t then true else if t + 50 < tmig then false else y.warm
    hot := if hot == 10 then 0 else hot
    cool := if cool == 100 then 0 else cool
    thermal := if hot == 10 then y.thermal - 1 else if cool == 100 then min 7 (y.thermal + 1) else y.thermal }

/-- THERMAL_SAMPLE: the reading of each 100 microseconds (16 R344). -/
def execThermalSample (bay temp : Nat) (s : State) : Out :=
  event "THERMAL_SAMPLE" <| if 32 ≤ bay || !s.rails then none
    else some (s.modBay bay fun y => y.sampled s.tmig s.tcap temp).boundPace

/-! ### Caps (16 R346, R347, 26 R450, R451) -/

/-- A cap message: its outcome and what it leaves (26 R450). DESIGN CHOICE: log 71. -/
def State.applyCap (s : State) (m : BitVec 128) : State × Nat :=
  let seq : Word := m.extractLsb' 0 32
  let w := (m.extractLsb' 32 32).toNat
  let lease := (m.extractLsb' 64 32).toNat
  if w < 1000 || 5600 < w || lease < 1 || 600000 < lease || m.extractLsb' 96 32 != 0#32 then (s, 2)
  else
    let d := (seq - s.capSeq).toNat
    if d == 0 || 2 ^ 31 ≤ d then (s, 1)
    else ({ s with capSeq := seq, cap := w, capEnd := some (s.wall + 6552000000 * lease) }, 0)

/-- CAP_LEASE_EXPIRY: the lease, counted in wall time from the message's arrival, is over, and SAFECAP comes into force (16 R346, 26 R450). -/
def execCapLeaseExpiry (s : State) : Out :=
  event "CAP_LEASE_EXPIRY" do
    let t ← s.capEnd
    if s.wall < t then none
    else some ({ s with cap := s.safecap.toNat, capEnd := none }.deviceEntry 0x87 0 (s.safecap.toNat / 4))

/-- The bays by falling temperature. -/
def State.hottest (s : State) : List Nat := inOrder (fun a b => decide ((s.bay b).temp ≤ (s.bay a).temp)) s.running

/-- Cap-derived levels lowered bay by bay, hottest first: how many bays, and how far each, the machine finds out (16 R347). DESIGN CHOICE: log 70. -/
def State.lowerLevels (s : State) : State :=
  let ys := s.hottest.filter fun k => (s.bay k).capLevel != 0
  let n := 1 + Config.choose s.freeCtr ys.length % (max ys.length 1)
  (ys.take n).foldl (fun s k =>
    s.free.modBay k fun y => { y with capLevel := y.capLevel - 1 - Config.choose s.freeCtr y.capLevel % (max y.capLevel 1) }) s.free

/-- One bay's cap-derived level raised by one: which bay is not stated (16 R347). -/
def State.raiseLevel (s : State) : State :=
  let ys := s.running.filter fun k => (s.bay k).capLevel < 7
  match ys[Config.choose s.freeCtr ys.length % (max ys.length 1)]? with
  | some k => s.free.modBay k fun y => { y with capLevel := y.capLevel + 1 }
  | none => s

/-- Every bay runs at level 0 and power exceeds the cap (26 R451). -/
def State.unattainable (s : State) (watts : Nat) : Bool := s.cap < watts && s.running.all fun k => (s.bay k).running == 0

/-- The event of a cap that is not attainable: after 10 ms, and at most once each second (26 R451). -/
def State.capStuck (s : State) (watts : Nat) : State :=
  if !s.unattainable watts then { s with overCap := 0, capEvent := none }
  else
    let s := { s with overCap := s.overCap + 1 }
    let due := match s.capEvent with
      | some t => t + 1000000000 ≤ s.now
      | none => true
    if 10 ≤ s.overCap && due then { s with capEvent := some s.now }.deviceEntry 0x86 0 (watts / 4) else s

/-- POWER_MEASUREMENT: module power over one ms (16 R347). -/
def execPowerMeasurement (watts : Nat) (s : State) : Out :=
  event "POWER_MEASUREMENT" <|
    if !s.rails then none
    else
      let s := { s with power := watts }
      let s := if s.cap < watts then s.lowerLevels else if 100 * watts ≤ 95 * s.cap then s.raiseLevel else s
      some (s.boundPace.capStuck watts)

/-! ### Pacing (16 R348, R349) -/

/-- A pacing group changed. -/
def State.modPace (s : State) (n : Nat) (f : Pace → Pace) : State := { s with paces := s.paces.map fun p => if p.num == n then f p else p }

/-- Some module's slack in a window is smaller than this module's; a report that has not come counts as 0 (16 R349). -/
def Pace.smaller (p : Pace) (modid window slack : Nat) : Bool :=
  p.members.any fun m =>
    let x := ((p.reports.find? fun r => r.1 == m && r.2.1 == window).map (·.2.2)).getD 0
    x < slack || (x == slack && m < modid)


/-- A group's window ends: its slack is kept and reported to every other module of the group that a plane reaches (16 R348, 17 R357). -/
def State.closeWindow (s : State) (p : Pace) : State :=
  let slack := min 65536 (p.waited * 65536 / 6552000000)
  { s.modPace p.num fun _ => { p with waited := 0, window := s.now / 1000000, slacks := (slack :: p.slacks).take 5 } with
    paceSent := ((p.members.filter fun m => !(s.planesFrom m 0).isEmpty).map fun m => (m, p.num, p.window, slack)) ++ s.paceSent }

/-- A bay's pacing level after a window: lowered by the window before it, whose reports have come or count as 0, or raised (16 R349). -/
def State.paced (s : State) (p : Pace) (level : Nat) : Nat :=
  let th := s.pth.toNat
  let before := p.slacks.drop 1
  let down := before.length == 4 && before.all (th < ·) && p.smaller s.modid.toNat (p.window - 2) (before.headD 0)
  let up := (p.slacks.take 2).length == 2 && (p.slacks.take 2).all fun x => 2 * x < th
  if down then level - 1 else if up then level + 1 else level

/-- PACE_WINDOW_END: an aligned ms of TIME is over (16 R348, R349). -/
def execPaceWindowEnd (group : Nat) (s : State) : Out :=
  event "PACE_WINDOW_END" do
    let p ← s.paces.find? (·.num == group)
    if s.now / 1000000 == p.window then none
    else
      let s := s.closeWindow p
      let p ← s.paces.find? (·.num == group)
      some (s.mapBays fun y => y.setPace s.now (if s.now < y.paceHold then y.pace else s.paced p y.pace))

/-- PACE_REPORT: another module's slack arrives, by a plane that reaches it (16 R348, 17 R357). -/
def execPaceReport (group mod window slack : Nat) (s : State) : Out :=
  event "PACE_REPORT" do
    let _ ← s.paces.find? (·.num == group)
    let _ ← (s.planesFrom mod 0).head?
    some (s.modPace group fun p => { p with reports := ((mod, window, slack) :: p.reports).take 8192 })

/-! ### Time (16 R339, R340) -/

/-- PTM_EXCHANGE with a master time in ns: the first exchange sets TIME forward, every other difference is slewed. -/
def execPtmExchange (master : Nat) (s : State) : Out :=
  event "PTM_EXCHANGE" <|
    if !s.linkUp then none
    else if !s.synced && s.time < 6552 * master then
      some { s with time := 6552 * master, timeErr := 0, synced := true, exchanged := s.wall }
    else some { s with timeErr := (6552 * master : Nat) - (s.time : Int), synced := true, exchanged := s.wall }

/-! ### Brownouts (26 R449) -/

/-- Requests given up: those that have not left the module are never sent, and nothing comes of the answers to the others (26 R453). -/
def State.dropReqs (s : State) (p : OutReq → Bool) : State :=
  let unsent (r : OutReq) : Bool := match r.at_ with
    | .frame _ | .ring => true
    | .sent | .back => false
  { s with outReqs := (s.outReqs.filter fun r => !(p r && unsent r)).map fun r => if p r then { r with note := none } else r }

/-- A command ends at a line or row boundary: what it has performed stays, how far that is the machine chooses; its pins and scribe entries
are released (26 R449, R453). DESIGN CHOICE: log 75. -/
def State.abandon (s : State) (c : Cmd) : State :=
  let ready := c.out == 0 && !c.written && !c.failed
  let k := Config.choose s.freeCtr
  let t : State := match c.instr with
    | .cpa .. | .cpb .. | .cpr .. =>
      if !ready || !c.started then s
      else
        let w := s.copyData c
        let ls := (ascending (w.map fun p => p.1 / 128)).eraseDups
        let some_ := ls.take (k (ls.length + 1) % (ls.length + 1))
        let w := w.filter fun p => some_.contains (p.1 / 128)
        if c.toScr then s.scrWrite c w else s.cmdWrite c 1 c.ordered w
    | .mma .. | .mmas .. | .accLd .. | .accSt .. =>
      if !ready || (s.matrixHead c.core).map (·.id) != some c.id || !c.started then s
      else s.doRows c (min (k 129 % 129) (((s.streamFail c).map (·.2.2)).getD 128))
    | _ => s
  (t.dropReqs fun r => r.cmd == some c.id).free.takeCmd c

/-- A board of a bay whose pipeline is lost: what it had under way is gone (26 R449). -/
def State.loseBoard (s : State) (b : Board) : Board :=
  s.recount { b with
    path := [], pipe := [], rgates := [], parked := [], stopped := false, noPeg := false, povf := false, gateWait := none, pending := []
    pegs := List.replicate 8 {} }

/-- BROWNOUT: the bay stops, and its rail goes to the target of level 0, which it reaches when it can and the machine chooses (16 R333, DESIGN CHOICE,
log 69); its resident bents' grids are aborted, its commands end, and the event is written (26 R449). -/
def execBrownout (bay mv : Nat) (s : State) : Out :=
  event "BROWNOUT" <|
    if !s.runs bay || 570 ≤ mv then none
    else
      let xs := s.bents.filter fun x => !x.away && x.bay == bay
      let rise := 6552 * ((600000 - 1000 * mv + 9) / 10) + Config.choose s.freeCtr (2 ^ 40)
      let s := s.free.modBay bay fun y =>
        { y with stopped := true, droop := none, granted := 0, running := 0, rail := 1000 * mv, railAt := s.wall, heldFrom := s.wall + rise }
      let ids := (s.allBoards.filter fun b => b.core / 4 == bay && s.resident b).map (·.id)
      let s := ((xs.map (·.grid)).eraseDups).foldl (fun s g => s.abortGrid g 4 none) s
      let s := (s.allCmds.filter fun c => c.core / 4 == bay && cmdPath c.instr != 4).foldl State.abandon s
      let s := s.mapBoards fun b => if ids.contains b.id then s.loseBoard b else b
      let s := s.modBay bay fun y => { y with cores := y.cores.map fun c => { c with freeze := 0, parts := List.replicate 12 {} } }
      some (s.deviceEntry 0x85 (bay / 4 * 16 + bay % 4) xs.length)

/-- BAY_RESTART: the rail has held its target for 1 ms, and the bay restarts at level 0 (26 R449). -/
def execBayRestart (bay : Nat) (s : State) : Out :=
  event "BAY_RESTART" <|
    let y := s.bay bay
    if 32 ≤ bay || !y.stopped || s.wall < y.heldFrom + 6552000000 then none
    else some (s.modBay bay fun y =>
      { y with stopped := false, granted := 0, running := 0, rail := targetOf 0, railAt := s.wall, nextEdge := s.wall })

end Sys2Proof.Machine
end

