-- ==== Sys2Proof/Machine/Host.lean ====
section
/-!
DEFINITION. What the host and the sideband do to the module: the mailbox (17 R352, R355), register writes (R354 to R357, 26 R458), FRESUME
(21 R380, R383), function-level resets (26 R453, R454), the host link (R455), the sideband port (R456), bring-up (17 R359 to R361, 26
R457).
-/
namespace Sys2Proof.Machine

/-! ### Access to a function -/

/-- The host reaches function `fn` through its BARs. -/
def State.hostAt (s : State) (fn : Nat) : Bool := s.rails && s.linkUp && fn < 32

/-- The live context of a function's window (17 R354). -/
def State.ctxAt (s : State) (fn window : Nat) : Option Ctx := s.ctxs.find? fun c => c.fn == fn && c.window == window

/-- The live context of a function with an identifier. -/
def State.ctxOfFn (s : State) (fn : Nat) (id : BitVec 16) : Option Ctx := s.ctxs.find? fun c => c.fn == fn && c.ctxid == id

/-! ### The end of a context (26 R453, steps 2 to 7) -/

/-- A context ends: its boards stop, its commands are abandoned, its watches, pins and waits are freed, its TLB entries are invalidated; its requests
to peers are resolved, and none is sent any more; no counter is signalled. -/
def State.endContext (s : State) (c : BitVec 16) : State :=
  let s := (s.allCmds.filter (·.ctx == c)).foldl State.abandon s
  let ids := (s.allBoards.filter (·.env.ctx == c)).map (·.id)
  let s : State := { s with outReqs := s.outReqs.filter (·.ctx != c), fetches := s.fetches.filter (·.ctx != c) }
  let gs := (s.grids.filter (·.ctx == c)).map (·.uid)
  let groups := ((s.bents.filter fun x => gs.contains x.grid).map (·.group))
  let s := ids.foldl (fun s id => (s.dropWaits id).dropBoard id) s
  let s := (List.range s.frames.length).foldl (fun s f =>
    ((s.frame f).watches.filter (·.ctx == c)).foldl (fun s w => s.dropWatch f w) s) s
  { s with
    bents := s.bents.filter fun x => !gs.contains x.grid
    grids := s.grids.filter (·.ctx != c)
    graphs := s.graphs.filter (·.ctx != c)
    launches := s.launches.filter (·.ctx != c)
    ctxs := s.ctxs.filter (·.ctxid != c)
    parkedCmds := s.parkedCmds.filter (·.ctx != c)
    tlb := s.tlb.filter (·.ctx != c)
    l1 := s.l1.filter fun x => !ids.contains x.board
    frames := s.frames.map fun f =>
      { f with
        pins := f.pins.filter (·.ctx != c), binds := f.binds.filter (·.1 != c)
        bays := f.bays.map fun y => { y with gates := y.gates.filter fun g => g.1 == 0 || !groups.contains g.1 } } }

/-! ### The mailbox (17 R352, R355) -/

/-- A function's command block. -/
def State.operand (s : State) (fn at_ n : Nat) : Nat := fieldAt (s.fn fn).mbcmd at_ n

/-- A function's mailbox command of a code is in flight. -/
def State.mailbox (s : State) (fn code : Nat) : Bool := s.rails && fn < 32 && (s.fn fn).mbBusy && s.operand fn 0 2 == code

/-- A write of MBGO: 1 starts the command in MBCMD, unless one is in flight (17 R352, R355). -/
def Fn.go (f : Fn) (v : Word) : Fn := if v == 1 && !f.mbBusy then { f with mbBusy := true, mbDone := false } else f

/-- A mailbox command completes: RESULT, DONE, its results over bytes 8 to 63, MSI-X vector 0. A result other than 0 has none. DEDUCED: log 77. -/
def State.mailDone (s : State) (fn result : Nat) (out : List Byte) : State :=
  (s.modFn fn fun f =>
    { f with
      mbcmd := (tab 8 fun k => f.mbcmd.getD k 0) ++ tab 56 fun k => if result == 0 then out.getD k 0 else f.mbcmd.getD (8 + k) 0
      mbResult := BitVec.ofNat 8 result, mbDone := true, mbBusy := false }).interrupt fn [0]

/-- FEATURES of every frame (09 R210): MAJOR 4, MINOR 1, every flag. -/
def featureWord : DWord := 0x0401FF

/-- Bytes of module memory (01 R15). -/
def memSize : Nat := 2 ^ 40

/-- VMAP with its reserved bits zero (16 R334, 26 R458). -/
def vmapOf (v : Word) : Word := (v.setWidth 16).setWidth 32

/-- The frames of a REACH that are in service; 0 means every frame (17 R355). -/
def State.reached (s : State) (reach : Nat) : List Nat :=
  (List.range 8).filter fun f => (s.frame f).inService && (reach == 0 || reach.testBit f)

/-- The operands of CTX.CREATE are in range, and the save area lies in module memory (17 R355, 13 R292). -/
def State.createOk (s : State) (fn : Nat) : Bool :=
  let o := s.operand fn
  o 8 8 % 4096 == 0 && o 16 8 % 4096 == 0 && o 24 8 % 65536 == 0 && o 32 8 % 65536 == 0 && 0x1C000000 ≤ o 32 8 && o 24 8 + o 32 8 ≤ memSize && o 48 8 % 65536 == 0
  && !(s.reached (o 42 1)).isEmpty

/-- The lowest free window of a function (17 R354). -/
def State.freeWindow (s : State) (fn : Nat) : Option Nat := (List.range 256).find? fun w => (s.ctxAt fn w).isNone

/-- CTX_CREATE (17 R355): the context with the identifier that the module picks. The first time exchange has come before (16 R340). DEDUCED: log 72. -/
def execCtxCreate (fn : Nat) (ctxid : BitVec 16) (s : State) : Out :=
  event "CTX_CREATE" <|
    if !s.mailbox fn 1 || !s.synced then none
    else
      let o := s.operand fn
      let grp : BitVec 16 := BitVec.ofNat 16 (o 40 2)
      if !s.createOk fn then some (s.mailDone fn 0x10 [])
      else if grp != 0 && s.ctxs.any (·.podgrp == grp) then some (s.mailDone fn 0x14 [])
      else match s.freeWindow fn with
        | none => some (s.mailDone fn 0x11 [])
        | some w =>
          if 256 ≤ s.ctxs.length then some (s.mailDone fn 0x11 [])
          else if ctxid == 0 || s.ctxs.any (·.ctxid == ctxid) then none
          else
            let reach := if o 42 1 == 0 then 255 else o 42 1
            let c : Ctx :=
              { ctxid := ctxid, fn := fn, window := w, root := BitVec.ofNat 64 (o 8 8), dsbase := BitVec.ofNat 64 (o 16 8)
                savebase := BitVec.ofNat 64 (o 24 8), savesz := BitVec.ofNat 64 (o 32 8), saveva := BitVec.ofNat 64 (o 48 8)
                podgrp := grp, reach := BitVec.ofNat 8 reach, frames := s.reached (o 42 1), features := featureWord
                vmap := vmapOf (BitVec.ofNat 32 (o 44 4)), tabA := List.replicate 256 0, tabB := List.replicate 256 0 }
            some (({ s with ctxs := s.ctxs ++ [c] } : State).mailDone fn 0
              (leBytes 2 ctxid.toNat ++ leBytes 2 w ++ leBytes 4 0 ++ leBytes 8 featureWord.toNat))

/-- CTX_DESTROY (17 R352). -/
def execCtxDestroy (fn : Nat) (s : State) : Out :=
  event "CTX_DESTROY" <|
    if !s.mailbox fn 2 then none
    else
      let id := BitVec.ofNat 16 (s.operand fn 8 2)
      match s.ctxOfFn fn id with
      | none => some (s.mailDone fn 0x10 [])
      | some _ => some ((s.endContext id).mailDone fn 0 [])

/-- CAP_SET (16 R346, 17 R355): of the physical function alone. -/
def execCapSet (fn : Nat) (s : State) : Out :=
  event "CAP_SET" <|
    if !s.mailbox fn 3 then none
    else if fn != 0 then some (s.mailDone fn 0x13 [])
    else
      let r := s.applyCap (BitVec.ofNat 128 (s.operand fn 8 16))
      some (r.1.mailDone fn r.2 [])

/-- The 16 bytes of a step record (17 R361). -/
def StepRec.bytes (r : StepRec) : List Byte :=
  leBytes 4 r.start.toNat ++ [r.step, r.unit, r.out, r.meth] ++ leBytes 8 r.code.toNat

/-- STEP_READ (17 R355): index 0 is the newest record. -/
def execStepRead (fn : Nat) (s : State) : Out :=
  event "STEP_READ" <|
    if !s.mailbox fn 4 then none
    else match s.records[s.operand fn 8 4]? with
      | none => some (s.mailDone fn 0x10 [])
      | some r => some (s.mailDone fn 0 r.bytes)

/-- A module's features cover a context's view (14 R311). -/
def covers (view target : DWord) : Bool :=
  target.extractLsb' 16 8 == view.extractLsb' 16 8 && (view.extractLsb' 8 8).toNat ≤ (target.extractLsb' 8 8).toNat
  && view.extractLsb' 0 8 &&& target.extractLsb' 0 8 == view.extractLsb' 0 8

/-- CTX_MOVE (14 R311, 17 R355): to the context of the operands' MODID and CTXID; `target` holds the features of that context's frames, where the
target module holds it with the same pod group. DEDUCED: log 64. -/
def execCtxMove (fn : Nat) (target : Option (BitVec 64)) (s : State) : Out :=
  event "CTX_MOVE" <|
    if !s.mailbox fn 5 then none
    else
      let id := BitVec.ofNat 16 (s.operand fn 8 2)
      let m := s.operand fn 10 2
      let there := s.operand fn 12 2
      match s.ctxOfFn fn id, target with
      | some c, some t =>
        if c.podgrp == 0 || 1024 ≤ m || there == 0 then some (s.mailDone fn 0x10 [])
        else if !covers c.features t then some (s.mailDone fn 0x12 [])
        else some ((s.modCtx id fun c => { c with movedTo := some (BitVec.ofNat 10 m, BitVec.ofNat 16 there) }).mailDone fn 0 [])
      | _, _ => some (s.mailDone fn 0x10 [])

/-- MAILBOX_UNASSIGNED_CODE (17 R355). -/
def execMailboxUnassignedCode (fn : Nat) (s : State) : Out :=
  event "MAILBOX_UNASSIGNED_CODE" <|
    let k := s.operand fn 0 2
    if !s.mailbox fn k || (1 ≤ k && k ≤ 5) then none else some (s.mailDone fn 0x10 [])

/-! ### TLBINV (17 R356, 14 R298) -/

/-- TLB_INVALIDATE: a write of TICTL; ignored while one runs. -/
def execTlbInvalidate (fn : Nat) (value : BitVec 64) (s : State) : Out :=
  event "TLB_INVALIDATE" <|
    if !s.hostAt fn then none
    else if (s.fn fn).tibusy.isSome then some s
    else
      let id := value.extractLsb' 0 16
      let pages := (value.extractLsb' 16 32).toNat
      if (s.ctxOfFn fn id).isNone || pages == 0 then some (s.modFn fn fun f => { f with tiErr := true })
      else some (s.modFn fn fun f =>
        { f with tiErr := false, tibusy := some { ctx := id, base := bits f.tibase.toNat 16 32 * 65536, pages := pages } })

/-- A range of an invalidation meets a page. -/
def Tlbinv.meets (t : Tlbinv) (c : BitVec 16) (base size : Nat) : Bool :=
  t.ctx == c && base < t.base + 65536 * t.pages && t.base < base + size

/-- TLB_INVALIDATE_COMPLETE: no page of the range is pinned, and no entry of it stays (14 R298). -/
def execTlbInvalidateComplete (fn : Nat) (s : State) : Out :=
  event "TLB_INVALIDATE_COMPLETE" <|
    match (s.fn fn).tibusy with
    | none => none
    | some t =>
      if s.frames.any fun f => f.pins.any fun p => t.meets p.ctx p.base p.size then none
      else some ({ s with tlb := s.tlb.filter fun e => !t.meets e.ctx e.base e.size }.modFn fn fun f => { f with tibusy := none })

/-! ### Register writes (26 R458) -/

/-- QCFG_WRITE (13 R276, 26 R458): while enabled only EN counts; enabling judges the fields and zeroes QHEAD and QTAIL. DESIGN CHOICE: log 15. -/
def execQcfgWrite (fn queue : Nat) (value : BitVec 32) (s : State) : Out :=
  event "QCFG_WRITE" <|
    let q := s.queue queue
    if !s.hostAt fn || 1024 ≤ queue then none
    else if q.owner != some fn then some s
    else if q.en then
      some (if value.getLsbD 8 then s
        else { s.modQueue queue fun q => { q with en := false } with mapped := s.mapped.filter (·.2 != queue) })
    else
      let size := value.extractLsb' 0 5
      let c := value.extractLsb' 16 16
      let s := s.modQueue queue fun q => { q with ctx := c, maxr := value.extractLsb' 5 3, size := size }
      if !value.getLsbD 8 then some s
      else if size == 0 || 20 < size.toNat || q.base.toNat % 64 != 0 || (s.ctxOfFn fn c).isNone then
        some (s.engineTo fn c 0x3A (queue % 256) 1 (groupAt queue) 0)
      else
        let ls := s.launches.map fun r => if r.queue == some queue then { r with stale := true } else r
        some ({ s with launches := ls }.modQueue queue fun q => { q with en := true, head := 0, tail := 0, notified := [] })

/-- FQCFG_WRITE (21 R373, 26 R458). -/
def execFqcfgWrite (fn : Nat) (value : BitVec 32) (s : State) : Out :=
  event "FQCFG_WRITE" <|
    if !s.hostAt fn then none
    else
      let size := value.extractLsb' 0 5
      some (s.modFn fn fun f =>
        if f.fqEn then { f with fqEn := value.getLsbD 8 }
        else
          let ok := 4 ≤ size.toNat && size.toNat ≤ 16 && f.fqbase.toNat % 64 == 0
          { f with fqSize := size, fqEn := value.getLsbD 8 && ok })

/-- QOWN_WRITE (17 R357, 26 R458): an enabled queue that goes to another function is disabled first. -/
def execQownWrite (fn queue : Nat) (value : BitVec 8) (s : State) : Out :=
  event "QOWN_WRITE" <|
    let v := value &&& 0x9F
    if !s.hostAt fn || 1024 ≤ queue then none
    else if fn != 0 then some s
    else
      let moves := { s.queue queue with own := v }.owner != (s.queue queue).owner
      let s := if moves && (s.queue queue).en then
          { s.modQueue queue fun q => { q with en := false } with mapped := s.mapped.filter (·.2 != queue) } else s
      some (s.modQueue queue fun q => { q with own := v })

/-- MODSET_WRITE: ignored while UAEN is nonzero (17 R357). -/
def execModsetWrite (fn : Nat) (value : BitVec 32) (s : State) : Out :=
  event "MODSET_WRITE" <|
    if !s.hostAt fn then none
    else if fn != 0 || s.uaen != 0 then some s else some { s with modid := value.extractLsb' 0 10 }

/-- EST_WRITE: each flag is cleared by a one, with its counter (16 R343). -/
def execEstWrite (fn window : Nat) (value : BitVec 32) (s : State) : Out :=
  event "EST_WRITE" <|
    if !s.hostAt fn || 256 ≤ window then none
    else match s.ctxAt fn window with
      | none => some s
      | some c => some (s.modCtx c.ctxid fun c =>
        { c with
          est := c.est &&& ~~~(value.extractLsb' 0 2)
          edyn := if value.getLsbD 0 then 0 else c.edyn
          estat := if value.getLsbD 1 then 0 else c.estat })

/-- A value held between two bounds. -/
def clampTo (lo hi n : Nat) : Nat := max lo (min hi n)

/-- A write in a context window (17 R354, 21 R371, 23 R413). DESIGN CHOICE: log 5. -/
def Ctx.written (c : Ctx) (off : Nat) (v : BitVec 64) : Ctx :=
  match off with
  | 0x038 => { c with vmap := vmapOf (v.setWidth 32) }
  | 0x200 => { c with traphb := v }
  | 0x208 => { c with trapctl := v.setWidth 16 }
  | 0x220 => { c with pgsvc := v.getLsbD 0 }
  | 0x228 => { c with pgmap := v }
  | _ => c

/-- A write in the management window (17 R357, 26 R458). DESIGN CHOICE: log 5. -/
def State.manage (s : State) (off : Nat) (v : BitVec 64) : State :=
  if off < 0x100 && off % 4 != 0 then s
  else if off < 0x80 then
    s.modBay (off / 4) fun y =>
      { y with drpEn := v.getLsbD 31, drpMv := BitVec.ofNat 8 (clampTo 10 120 (v.extractLsb' 0 8).toNat) }
  else if off < 0x100 then (s.modBay ((off - 0x80) / 4) fun y => { y with lvlmax := v.extractLsb' 0 3 }).boundPace
  else match off with
    | 0x100 => { s with safecap := BitVec.ofNat 13 (clampTo 1000 5600 (v.extractLsb' 0 13).toNat) }
    | 0x108 => { s with uaen := v.extractLsb' 0 8 }
    | 0x10C => { s with pth := v.extractLsb' 0 16 }
    | _ => s

/-- Offset at which the model numbers the bytes of BAR4: the window's byte `k` is `bar4 + k` (DESIGN CHOICE, log 4). -/
def bar4 : Nat := 2 ^ 40
/-- Offset at which the model numbers the grants of BAR4: base, then size, of function `f` at `grants + 16 f` (DESIGN CHOICE, log 4). -/
def grants : Nat := 2 ^ 41
/-- Offset at which the model numbers a function's MSI-X choices: vector `v`'s counter at `choices + 8 v` (DESIGN CHOICE, log 4). -/
def choices : Nat := 2 ^ 42
/-- Offset at which the model numbers the pacing groups: group `g` at `groups + 256 g`, 16 gates, then a bitmap of 1,024 modules (DESIGN CHOICE,
log 63). -/
def groups : Nat := 2 ^ 43

/-- The module memory at byte `k` of a function's BAR4 window, for `n` bytes (17 R351). -/
def State.granted (s : State) (fn k n : Nat) : Option Nat :=
  let g := (s.fn fn).grant
  if k + n ≤ g.2 && g.1 + k + n ≤ memSize then some (g.1 + k) else none

/-- The host as the agent of a write (12 R264). -/
def hostWriter (fn : Nat) : Writer := { storer := BitVec.ofNat 32 fn, kind := 4 }

/-- Bytes written through BAR4: module memory at its home, with the host as the writer (17 R351, 12 R261, R264). -/
def State.hostWrite (s : State) (fn k : Nat) (l : List Byte) : State :=
  match s.granted fn k l.length with
  | some a => if s.badWrite (bytesAt a l) then s else s.writeLocal (some (hostWriter fn)) (bytesAt a l)
  | none => s

/-- A read, an atomic or a read with an effect has returned a value to the host. -/
def State.complete (s : State) (fn off : Nat) (v : DWord) : State := { s with completions := (fn, off, v) :: s.completions }

/-- An AtomicOp to device memory that BAR4 maps (17 R350): performed at its home, with the old value in its completion. -/
def State.hostAtomic (s : State) (fn k : Nat) (op : AtomOp) (wd : Bool) (v cmp : DWord) : State :=
  let n := if wd then 8 else 4
  match s.granted fn k n with
  | none => s
  | some a =>
    if a % n != 0 || s.badAt a then s
    else
      let old : DWord := BitVec.ofNat 64 (s.mem.num a n)
      (s.writeLocal (some (hostWriter fn)) (bytesAt a (leBytes n (atomNew op wd old v cmp).toNat))).complete fn (bar4 + k) old

/-- The physical function sets what BAR4 opens to a function (17 R351). -/
def State.setGrant (s : State) (fn : Nat) (size : Bool) (v : Nat) : State :=
  s.modFn fn fun f => { f with grant := if size then (f.grant.1, v) else (v, f.grant.2) }

/-- The driver gives a vector from 2 to 63 a completion counter: CTXID in [63:48], its address in [47:0]; 0 takes it back (17 R352). -/
def Fn.choose (f : Fn) (vec : Nat) (v : DWord) : Fn :=
  let rest := f.vectors.filter fun x => x.1 != vec
  if vec < 2 || 64 ≤ vec then f
  else { f with vectors := if v == 0 then rest else (vec, v.extractLsb' 48 16, (v.extractLsb' 0 48).toNat) :: rest }

/-- The members that a word of a group's bitmap names. -/
def membersIn (k : Nat) (v : DWord) : List Nat := ((List.range 64).filter v.getLsbD).map (64 * k + ·)

/-- The driver names a gate (places 0 to 15) or members (words 16 to 31) of a pacing group (16 R348). -/
def Pace.name (p : Pace) (k : Nat) (v : DWord) : Pace :=
  if k < 16 then { p with gates := tab 16 fun n => if n == k then v.toNat else p.gates.getD n 0 }
  else { p with members := p.members.filter (fun m => m / 64 != k - 16) ++ membersIn (k - 16) v }

/-- A write to a pacing group, which is there while it names something (16 R348). -/
def State.setPace (s : State) (g k : Nat) (v : DWord) : State :=
  let p := ((s.paces.find? (·.num == g)).getD { num := g, gates := [], window := s.now / 1000000 }).name k v
  let rest := s.paces.filter fun p => p.num != g
  { s with paces := if p.gates.all (· == 0) && p.members.isEmpty then rest else p :: rest }

/-- A write of `n` bytes, through BAR4 or into MBCMD, or of a value to the register at an offset of BAR0: whole, whatever `n` is, for the spec gives
no access widths (17 R351, DESIGN CHOICE, log 5); the driver's other choices stand beyond (log 4). -/
def State.barWrite (s : State) (fn off : Nat) (v : BitVec 64) (n : Nat) : State :=
  if groups ≤ off then if fn == 0 then s.setPace ((off - groups) / 256) ((off - groups) / 8 % 32) v else s
  else if choices ≤ off then s.modFn fn fun f => f.choose ((off - choices) / 8) v
  else if grants ≤ off then if fn == 0 then s.setGrant ((off - grants) / 16) ((off - grants) / 8 % 2 == 1) v.toNat else s
  else if bar4 ≤ off then s.hostWrite fn (off - bar4) (leBytes (min n 8) v.toNat)
  else if off < 0x100000 then
    match s.ctxAt fn (off / 4096) with
    | some c => s.modCtx c.ctxid fun c => c.written (off % 4096) v
    | none => s
  else if off < 0x108000 then
    let q := (off - 0x100000) / 32
    if off % 32 == 0 && (s.queue q).owner == some fn && !(s.queue q).en then s.modQueue q fun x => { x with base := v } else s
  else if 0x1F0000 ≤ off && off < 0x1F0040 then
    s.modFn fn fun f =>
      let o := off - 0x1F0000
      { f with mbcmd := tab 64 fun k => if o ≤ k && k < o + min n 8 then (leBytes 8 v.toNat).getD (k - o) 0 else f.mbcmd.getD k 0 }
  else match off with
    | 0x1F0040 => s.modFn fn fun f => f.go (v.setWidth 32)
    | 0x1F1000 => s.modFn fn fun f => { f with hwbase := v }
    | 0x1F1008 => s.modFn fn fun f => { f with tibase := BitVec.ofNat 64 (bits v.toNat 16 32 * 65536) }
    | 0x1F2000 => s.modFn fn fun f => if f.fqEn then f else { f with fqbase := v }
    | 0x1F200C => s.modFn fn fun f => { f with fqhead := v.setWidth 32 }
    | _ => if 0x1F8000 ≤ off && fn == 0 then s.manage (off - 0x1F8000) v else s

/-- REGISTER_WRITE (26 R458, 17 R350): a write, or an AtomicOp to device memory that BAR4 maps; one anywhere else is not supported. -/
def execRegisterWrite (fn off : Nat) (op : HostOp) (s : State) : Out :=
  event "REGISTER_WRITE" <|
    if !s.hostAt fn then none
    else match op with
      | .write n value => some (s.barWrite fn off value n)
      | .fetchAdd wd value => if bar4 ≤ off && off < grants then some (s.hostAtomic fn (off - bar4) .add wd value 0) else none
      | .swap wd value => if bar4 ≤ off && off < grants then some (s.hostAtomic fn (off - bar4) .exch wd value 0) else none
      | .cas wd value cmp => if bar4 ≤ off && off < grants then some (s.hostAtomic fn (off - bar4) .cas wd value cmp) else none

/-! ### What a read returns (17 R350, R351, 26 R458) -/

/-- A context window (17 R354, 21 R371, 23 R413): write-only registers and every other offset read zero. -/
def Ctx.read (c : Ctx) : Nat → Nat
  | 0x000 => c.ctxid.toNat
  | 0x008 => c.root.toNat
  | 0x010 => c.dsbase.toNat
  | 0x018 => c.savebase.toNat
  | 0x020 => c.savesz.toNat
  | 0x028 => c.podgrp.toNat
  | 0x02C => c.reach.toNat
  | 0x030 => c.features.toNat
  | 0x038 => c.vmap.toNat
  | 0x040 => c.edyn.toNat
  | 0x048 => c.estat.toNat
  | 0x050 => c.est.toNat
  | 0x058 => c.saveva.toNat
  | 0x200 => c.traphb.toNat
  | 0x208 => c.trapctl.toNat
  | 0x210 => c.savebase.toNat
  | 0x220 => c.pgsvc.toNat
  | 0x228 => c.pgmap.toNat
  | 0x230 => c.pgcnt.toNat
  | _ => 0

/-- A queue's register group (13 R276). -/
def Queue.read (q : Queue) : Nat → Nat
  | 0x00 => q.base.toNat
  | 0x08 => q.size.toNat + 32 * q.maxr.toNat + 256 * q.en.toNat + 65536 * q.ctx.toNat
  | 0x0C => q.head.toNat
  | 0x10 => q.tail.toNat
  | _ => 0

/-- A function's other registers of BAR0 (17 R355, R356, 21 R373). -/
def Fn.read (f : Fn) : Nat → Nat
  | 0x1F0044 => f.mbBusy.toNat + 2 * f.mbDone.toNat + 256 * f.mbResult.toNat
  | 0x1F1000 => f.hwbase.toNat
  | 0x1F1008 => f.tibase.toNat
  | 0x1F1018 => f.tibusy.isSome.toNat + 2 * f.tiErr.toNat
  | 0x1F2000 => f.fqbase.toNat
  | 0x1F2008 => f.fqSize.toNat + 256 * f.fqEn.toNat
  | 0x1F200C => f.fqhead.toNat
  | 0x1F2010 => f.fqtail.toNat
  | 0x1F2014 => f.fqlost.toNat
  | _ => 0

/-- The management window (17 R357, 16 R337). DESIGN CHOICE: log 5. -/
def State.managed (s : State) (off : Nat) : Nat :=
  if off < 0x100 && off % 4 != 0 then 0
  else if off < 0x80 then
    let y := s.bay (off / 4)
    y.drpMv.toNat + 65536 * y.drpCnt.toNat + 2 ^ 31 * y.drpEn.toNat
  else if off < 0x100 then (s.bay ((off - 0x80) / 4)).lvlmax.toNat
  else if 0x1000 ≤ off && off < 0x1400 then (s.queue (off - 0x1000)).own.toNat
  else match off with
    | 0x100 => s.safecap.toNat
    | 0x104 => s.modid.toNat
    | 0x108 => s.uaen.toNat
    | 0x10C => s.pth.toNat
    | _ => 0

/-- What a host read of `n` bytes at an offset returns: those of device memory through BAR4, at most eight; or the register there, whole, whatever
`n` is (DESIGN CHOICE, log 5); zero where the function has nothing. A line with an uncorrectable error gives no data, which PCI Express shows as
ones (23 R414, PRESUMED, log 106). -/
def State.barRead (s : State) (fn off n : Nat) : DWord :=
  BitVec.ofNat 64 <|
    if bar4 ≤ off then
      ((s.granted fn (off - bar4) (min n 8)).map fun a =>
        if s.badAt a || s.badAt (a + min n 8 - 1) then 2 ^ (8 * min n 8) - 1 else s.mem.num a (min n 8)).getD 0
    else if off < 0x100000 then ((s.ctxAt fn (off / 4096)).map fun c => c.read (off % 4096)).getD 0
    else if off < 0x108000 then
      let q := s.queue ((off - 0x100000) / 32)
      if q.owner == some fn then q.read (off % 32) else 0
    else if 0x1F0000 ≤ off && off < 0x1F0040 then fieldAt (s.fn fn).mbcmd (off - 0x1F0000) 8
    else if 0x1F8000 ≤ off then if fn == 0 then s.managed (off - 0x1F8000) else 0
    else (s.fn fn).read off

/-- DRPTH_READ: the read returns the register and clears CNT (16 R337). -/
def execDrpthRead (fn bay : Nat) (s : State) : Out :=
  event "DRPTH_READ" <|
    if !s.hostAt fn || 32 ≤ bay then none
    else
      let off := 0x1F8000 + 4 * bay
      let t := s.complete fn off (s.barRead fn off 4)
      some (if fn != 0 then t else t.modBay bay fun y => { y with drpCnt := 0 })

/-- FQLOST_READ: the read returns the count and clears it (21 R373). -/
def execFqlostRead (fn : Nat) (s : State) : Out :=
  event "FQLOST_READ" <|
    if !s.hostAt fn then none
    else some ((s.complete fn 0x1F2014 (s.barRead fn 0x1F2014 4)).modFn fn fun f => { f with fqlost := 0 })

/-- FRESUME (21 R380, R383): the freeze that the slot and the FRID name is restored, if it is still the one. -/
def execFresume (fn window : Nat) (value : BitVec 64) (s : State) : Out :=
  event "FRESUME" <|
    if !s.hostAt fn || 256 ≤ window then none
    else match s.ctxAt fn window with
      | none => some s
      | some c =>
        match s.allBoards.find? fun b => b.env.ctx == c.ctxid && b.slotIdx == bits value.toNat 0 14 && b.frozen.isSome with
        | none => some s
        | some b =>
          match b.frozen with
          | some f =>
            if f.frid == value.extractLsb' 32 32 && !s.eretTaken b then some (s.restore b f (bits value.toNat 16 8) 2) else some s
          | none => some s

/-! ### Resets and the link -/

/-- A function's contexts ended, its queues disabled and its registers at their reset values; and how many contexts ended (26 R453). -/
def State.clearFn (s : State) (fn : Nat) : State × Nat :=
  let cs := (s.ctxs.filter (·.fn == fn)).map (·.ctxid)
  let s : State := cs.foldl State.endContext s
  let qs := (s.queues.filter fun q => q.2.owner == some fn).map (·.1)
  let s : State := { s with
    queues := s.queues.map fun q => if qs.contains q.1 then (q.1, { own := q.2.own }) else q
    mapped := s.mapped.filter fun m => !qs.contains m.2 }
  (s.modFn fn fun f => { grant := f.grant }, cs.length)

/-- FUNCTION_LEVEL_RESET of a virtual function (26 R453). -/
def execFunctionLevelReset (fn : Nat) (s : State) : Out :=
  event "FUNCTION_LEVEL_RESET" <|
    if fn == 0 || !s.hostAt fn then none
    else
      let r := s.clearFn fn
      some (r.1.deviceEntry 0x88 fn r.2)

/-- Every function reset (26 R454): the management window too; the cap state, the step records and MODID stay (DEDUCED, log 73). The grants of BAR4, which
R454 does not name, go back to what they are at power-on (DESIGN CHOICE, log 4). -/
def State.resetAll (s : State) : State :=
  let r := (List.range 32).foldl (fun (r : State × List Nat) fn => let x := r.1.clearFn fn; (x.1, r.2 ++ [x.2])) (s, [])
  let s := { r.1 with
    queues := [], mapped := [], uaen := 0, safecap := 3000, pth := 3277, paces := [], fns := State.reset.fns
    frames := r.1.frames.map fun f => { f with bays := f.bays.map fun y =>
      { y with lvlmax := 7, drpEn := true, drpCnt := 0, drpMv := 40 } } }
  (List.range 32).foldl (fun s fn => s.deviceEntry 0x88 fn (r.2.getD fn 0)) s

/-- PF_FUNCTION_LEVEL_RESET (26 R454). -/
def execPfFunctionLevelReset (s : State) : Out :=
  event "PF_FUNCTION_LEVEL_RESET" <| if !s.hostAt 0 then none else some s.resetAll

/-- An access whose host atomics were on their way when the link went: their outcome is indeterminate (26 R455, R441). -/
def linkLostOp (o : MemOp) : MemOp :=
  match o.kind with
  | .atomic _ _ _ => { o with lines := o.lines.map fun l => if l.st == .performed && l.tgt.isHost then { l with st := .failed 0x70 } else l }
  | _ => o

/-- A copy that still reads the host when the link goes fails (26 R455). -/
def State.linkLostCmd (s : State) (c : Cmd) : Cmd :=
  match c.instr with
  | .cpa .. | .cpb .. | .cpr .. =>
    if !c.started || c.written || c.failed then c
    else
      match (linesOfTouches (c.plan c.tab).reads).find? fun l => match s.translate c.ctx l .r with
        | .ok t => t.isHost
        | .error _ => false with
      | some l => c.broke (0x74, l)
      | none => c
  | _ => c

/-- SURPRISE_LINK_LOSS (26 R455): TIME runs free until the next exchange (16 R340). -/
def execSurpriseLinkLoss (s : State) : Out :=
  event "SURPRISE_LINK_LOSS" <|
    if !s.rails || !s.linkUp then none
    else
      let t := { s with linkUp := false, linkLost := some s.now, linkReset := false, timeErr := 0 }
      let t := t.mapBoards fun b => { b with path := b.path.map linkLostOp }
      some (t.mapCmds fun l => l.map s.linkLostCmd)

/-- LINK_LOSS_TIMEOUT: 10 ms after the loss every function is reset (26 R455). -/
def execLinkLossTimeout (s : State) : Out :=
  event "LINK_LOSS_TIMEOUT" do
    let t ← s.linkLost
    if s.linkUp || s.linkReset || s.now < t + 10000000 then none else some { s.resetAll with linkReset := true }

/-- LINK_RETRAIN: the link is up again, and the event is written (26 R455). -/
def execLinkRetrain (s : State) : Out :=
  event "LINK_RETRAIN" do
    let t ← s.linkLost
    if s.linkUp || !s.rails || (t + 10000000 ≤ s.now && !s.linkReset) then none
    else some ({ s with linkUp := true, linkLost := none, linkReset := false }.deviceEntry 0x89 0 (min 65535 ((s.now - t) / 1000000)))

/-! ### The sideband port (26 R456) -/

/-- What the sensors of PLDM for Platform Monitoring and Control show. -/
structure Sensors where
  /-- Module power in W, and the rail of the SRAM in microvolts (01 R18, 17 R358). -/
  power : Nat
  sram : Nat
  /-- Of each bay: temperature, granted level, and its logic rail in microvolts. -/
  bays : List (Nat × Nat × Nat)
  /-- Of each ring: corruption refusals by the sending frame of the link (26 R438). -/
  links : List (List (Nat × Nat))
  /-- Of each frame: corrected errors by unit (23 R414). -/
  corrected : List (List (Nat × Nat))
deriving DecidableEq, Repr

/-- The sensors (17 R358, 23 R414, 26 R438). With the main rails off every rail reads 0. -/
def State.sensors (s : State) : Sensors :=
  { power := s.power, sram := if s.rails then 750000 else 0
    bays := (List.range 32).map fun k => ((s.bay k).temp, (s.bay k).granted, if s.rails then s.presentRail k else 0)
    links := s.rings.map (·.counted), corrected := s.frames.map (·.corrected) }

/-- An answer of the sideband port. -/
def State.reply (s : State) (l : List Byte) : State := { s with sideband := l :: s.sideband }

/-- A truth value as a byte. -/
def bit (b : Bool) : Byte := if b then 1 else 0

/-- SIDEBAND_STATUS: rails; each frame 0 out of service, 1 in service, 2 hung; the host link; the planes (26 R456). Answered in every state. DESIGN CHOICE: log 76. -/
def execSidebandStatus (s : State) : Out :=
  event "SIDEBAND_STATUS" <|
    some (s.reply ([bit s.rails] ++ (s.frames.map fun f => if f.hung then 2 else bit f.inService) ++ [bit s.linkUp, s.planes]))

/-- SIDEBAND_CAP (26 R450). -/
def execSidebandCap (msg : BitVec 128) (s : State) : Out :=
  event "SIDEBAND_CAP" <|
    if !s.ctrl then none else some ((s.applyCap msg).1.reply [BitVec.ofNat 8 (s.applyCap msg).2])

/-- SIDEBAND_STEP_READ: a record, or nothing (26 R456). -/
def execSidebandStepRead (idx : Nat) (s : State) : Out :=
  event "SIDEBAND_STEP_READ" <| if !s.ctrl then none else some (s.reply (((s.records[idx]?).map StepRec.bytes).getD []))

/-- LOG_READ: one of the last 64 DEVICE entries, or nothing (26 R456). -/
def execLogRead (idx : Nat) (s : State) : Out :=
  event "LOG_READ" <| if !s.ctrl then none else some (s.reply (s.devLog.getD idx []))

/-- FUNC_RESET: R454 from the sideband, answered in every state of the main rails; with them off there is nothing to reset (26 R456). The answer's bytes:
DESIGN CHOICE, log 76. -/
def execFuncReset (s : State) : Out :=
  event "FUNC_RESET" <| if !s.ctrl then none else some ((if s.rails then s.resetAll else s).reply [0])

/-- CAPSEQ_CLEAR (26 R456). -/
def execCapseqClear (s : State) : Out :=
  event "CAPSEQ_CLEAR" <| if !s.ctrl then none else some ({ s with capSeq := 0 }.reply [0])

/-- FIRMWARE_UPDATE: the images in flash are new (17 R358), and the records are cleared (R361); the new firmware sets temperature limits (16 R344).
DESIGN CHOICE: log 62. -/
def execFirmwareUpdate (s : State) : Out :=
  event "FIRMWARE_UPDATE" <|
    if !s.ctrl then none
    else some { s.free.free with
      records := [], fwCtrl := Config.freeWord s.freeCtr, fwCores := Config.freeWord (s.freeCtr + 1)
      tmig := (Config.thermalLimits s.freeCtr).1, tcap := (Config.thermalLimits s.freeCtr).2 }

/-- FRAME_HUNG: a frame has missed 100 ms of heartbeats (26 R456). -/
def execFrameHung (frame : Nat) (s : State) : Out :=
  event "FRAME_HUNG" <|
    if !s.rails || 8 ≤ frame || !(s.frame frame).inService || (s.frame frame).hung then none
    else some ((s.modFrame frame fun f => { f with hung := true }).deviceEntry 0x8A frame 0)

/-- What stays when the main rails go off: the controller with its records, log, caps and answers, and the surroundings (17 R358, 26 R456).
A ring's failed link is recorded at the next start (26 R439). DEDUCED: log 74. -/
def State.dark (s : State) : State :=
  { State.reset with
    ctrl := s.ctrl, fwCtrl := s.fwCtrl, fwCores := s.fwCores, records := s.records, starts := s.starts, devLog := s.devLog, sideband := s.sideband
    capSeq := s.capSeq, cap := s.cap, capEnd := s.capEnd, tmig := s.tmig, tcap := s.tcap
    hostMem := s.hostMem, inputs := s.inputs, toPeers := s.toPeers, wall := s.wall, freeCtr := s.freeCtr, nextUid := s.nextUid
    rings := s.rings.map fun r => { link := r.link } }

/-- MODULE_RESET: the main rails are cycled; bring-up follows (26 R456). -/
def execModuleReset (s : State) : Out :=
  event "MODULE_RESET" <| if !s.ctrl then none else some (s.dark.reply [0])

/-- MAIN_RAILS_OFF: the main power input is lost (17 R358). -/
def execMainRailsOff (s : State) : Out :=
  event "MAIN_RAILS_OFF" <| if !s.rails then none else some s.dark

/-! ### Bring-up (17 R359 to R361, 26 R457) -/

/-- The method of a step for a unit, from its last record; none: the step is skipped (17 R361). A step without an alternate method always
runs its primary one. DEDUCED: log 68. -/
def methodOf (recs : List StepRec) (step : Nat) (unit : BitVec 8) : Option Bool :=
  match recs.find? fun r => r.step.toNat == step && r.unit == unit with
  | none => some false
  | some r =>
    if step == 1 then some false
    else if r.out == 2 || (r.out == 1 && r.meth == 1) then none
    else some (r.meth == 1 || r.out == 1)

/-- Outcome of a step for a unit. -/
structure StepRun where
  recs : List StepRec
  passed : Bool
  alternate : Bool

/-- The newest `n` records that flash holds, with those that the controller holds (26 R457). -/
def keepRecs : Nat → List StepRec → List StepRec
  | _, [] => []
  | n, r :: t => if r.held then r :: keepRecs n t else match n with
    | 0 => keepRecs 0 t
    | n + 1 => r :: keepRecs n t

/-- The outcome of a method of a step for a unit recorded, newest first, in a ring of 256 (17 R361, 26 R457). -/
def addRec (fails : List StepFail) (r : StepRec) (recs : List StepRec) : List StepRec :=
  let lost := fails.any fun f => f.unwritten && f.step == r.step.toNat && f.unit == r.unit && f.alternate == (r.meth == 1)
  keepRecs 256 ({ r with held := lost } :: recs)

/-- A method run, and its record. -/
def runMethod (fails : List StepFail) (start : Word) (recs : List StepRec) (step : Nat) (unit : BitVec 8) (alt : Bool) : StepRun :=
  let f := fails.find? fun f => !f.passes && f.step == step && f.unit == unit && f.alternate == alt
  { recs := addRec fails { start := start, step := BitVec.ofNat 8 step, unit := unit, out := if f.isSome then 1 else 0, meth := bit alt
                           code := (f.map (·.code)).getD 0 } recs
    passed := f.isNone, alternate := alt }

/-- A step run, or skipped, for a unit. -/
def runStep (fails : List StepFail) (start : Word) (recs : List StepRec) (step : Nat) (unit : BitVec 8) : StepRun :=
  match methodOf recs step unit with
  | some alt => runMethod fails start recs step unit alt
  | none =>
    { recs := addRec fails { start := start, step := BitVec.ofNat 8 step, unit := unit, out := 2, meth := 1, code := 0 } recs
      passed := false, alternate := true }

/-- Units of a step run one after the other, as long as they pass. -/
def runUnits (fails : List StepFail) (start : Word) (step : Nat) : List StepRec → List (BitVec 8) → StepRun
  | recs, [] => { recs := recs, passed := true, alternate := false }
  | recs, u :: t =>
    let r := runStep fails start recs step u
    let q := runUnits fails start step r.recs t
    { recs := q.recs, passed := r.passed && q.passed, alternate := r.alternate || q.alternate }

/-- Steps 2 to 4 of a frame (17 R359): the records, whether it has passed, and the rings whose station passed by the alternate method. -/
def runFrame (fails : List StepFail) (start : Word) (recs : List StepRec) (f : Nat) : List StepRec × Bool × List Nat :=
  let u (k : Nat) : BitVec 8 := BitVec.ofNat 8 (16 * f + k)
  let a := runStep fails start recs 2 (u 0)
  if !a.passed then (a.recs, false, [])
  else
    let b := runUnits fails start 3 a.recs [u 0, u 1]
    if !b.passed then (b.recs, false, [])
    else
      let c := runStep fails start b.recs 4 (u 0)
      let d := runStep fails start c.recs 4 (u 1)
      (d.recs, c.passed && d.passed,
        (if c.passed && c.alternate then [0] else []) ++ if d.passed && d.alternate then [1] else [])

/-- Every frame's steps. -/
def runFrames (fails : List StepFail) (start : Word) (recs : List StepRec) : List Nat → List StepRec × List Nat × List Nat
  | [] => (recs, [], [])
  | f :: t =>
    let r := runFrame fails start recs f
    let q := runFrames fails start r.1 t
    (q.1, if r.2.1 then f :: q.2.1 else q.2.1, r.2.2 ++ q.2.2)

/-- Steps 6 of every station: the planes that are up. -/
def runStations (fails : List StepFail) (start : Word) (recs : List StepRec) : List Nat → List StepRec × Nat
  | [] => (recs, 0)
  | f :: t =>
    let r := runStep fails start recs 6 (BitVec.ofNat 8 (16 * f))
    let q := runStations fails start r.recs t
    (q.1, q.2 + if r.passed && !r.alternate then 2 ^ f else 0)

/-- The failures of a start: those of its surroundings, and of the stations of links that failed in operation (26 R439). -/
def State.startFails (s : State) (fails : List StepFail) : List StepFail :=
  fails ++ (List.range s.rings.length).filterMap fun k => ((s.rings.getD k {}).link).map fun f =>
    { step := 4, unit := BitVec.ofNat 8 (16 * f + k), alternate := false, code := 0 }

/-- The host link trains once frame 0 has run its steps (17 R359). -/
def runHost (fails : List StepFail) (start : Word) (recs : List StepRec) (now : List Nat) : List StepRec × Bool :=
  if now.contains 0 then
    let h := runStep fails start recs 5 0
    (h.recs, h.passed)
  else (recs, false)

/-- Steps 2 to 4 of the frames `now`, step 5 with frame 0, and step 6 once no frame is `late` (17 R359, R360, 26 R457). A frame that has passed
serves from then on, at level 1 while others have not finished; what is on the rings of those in service goes on. -/
def State.bringFrames (s : State) (fails : List StepFail) (recs : List StepRec) (now late : List Nat) : State :=
  let (recs, good, single) := runFrames fails s.starts recs now
  let (recs, host) := runHost fails s.starts recs now
  let q := if late.isEmpty then runStations fails s.starts recs (List.range 8) else (recs, 0)
  let s := single.eraseDups.foldl State.retireRing s
  { s with
    records := q.1, late := late, linkUp := s.linkUp || (host && good.contains 0)
    planes := BitVec.ofNat 8 q.2
    rings := s.rings.map fun r => { r with link := r.link.filter fun f => !now.contains f }
    frames := tab 8 fun f =>
      if !now.contains f then s.frame f
      else
        { Frame.fresh with
          inService := good.contains f && (f != 0 || host), clkEdge := s.wall
          bays := List.replicate 4 { Bay.fresh with nextEdge := s.wall, railAt := s.wall } } }

/-- The module after steps 1 to 6 of a start, but for those of frames that finish later. -/
def State.bringUp (s : State) (fails : List StepFail) (start : Word) (recs : List StepRec) (late : List Nat) : State :=
  let a := runStep fails start recs 1 0
  if !a.passed then { s with records := a.recs, starts := start, down := true }
  else
    ({ s with starts := start, rails := true, down := false, time := 0, farDown := [] } : State).bringFrames fails a.recs
      ((List.range 8).filter fun f => !late.contains f) ((List.range 8).filter late.contains)

/-- POWER_ON: the controller starts, by its backup image when the primary fails, and the steps of the start run (17 R359, 26 R457); in early
service, frames that had not finished finish (R360). -/
def execPowerOn (start : Start) (s : State) : Out :=
  event "POWER_ON" <|
    let late := start.late
    if !s.late.isEmpty then
      let now := s.late.filter fun f => !late.contains f
      if now.isEmpty then none
      else some (s.bringFrames (s.startFails start.fails) s.records now (s.late.filter late.contains))
    else if s.rails then none
    else
      let fails := s.startFails start.fails
      let count := s.starts + 1
      let recs := s.records.filter fun r => !r.held
      if s.ctrl then some (s.bringUp fails count recs late)
      else
        let r := runStep fails count recs 0 0
        let r := if r.passed || r.alternate then r else runMethod fails count r.recs 0 0 true
        if r.passed then some ({ s with ctrl := true }.bringUp fails count r.recs late)
        else some { s with records := r.recs, starts := count, down := true }

end Sys2Proof.Machine
end

