-- ==== Sys2Proof/Machine/Vector.lean ====
section
/-!
DEFINITION. The instructions of the vector slot (06): one meaning each, over the lane functions of Numbers and Approx.
-/
namespace Sys2Proof.Machine

/-- MOV: A into D (06 R117). -/
def execMov (d a : Opd) (s : State) : Out :=
  onBoard s (.mov d a) fun b0 => s.vecW b0 d 4 fun l => s.src b0 a l

/-- MOVI: the immediate into D (06 R117). -/
def execMovi (d : Opd) (imm : BitVec 32) (s : State) : Out :=
  onBoard s (.movi d imm) fun b0 => s.vecW b0 d 4 fun _ => imm

/-- SEL: A where the mask bit is set, else B (06 R117). -/
def execSel (d a b : Opd) (c : BitVec 3) (s : State) : Out :=
  onBoard s (.sel d a b c) fun b0 => s.vecW b0 d 4 fun l =>
    if (b0.mreg c.toNat).getLsbD l then s.src b0 a l else s.src b0 b l

/-- FADD: binary32 under RM (06 R118). -/
def execFadd (d a b : Opd) (rm : RMode) (s : State) : Out :=
  onBoard s (.fadd d a b rm) fun b0 => s.vec b0 d 6 fun l =>
    fAdd .f32 rm (s.fsrc b0 a l).toNat (s.fsrc b0 b l).toNat

/-- FSUB: binary32 under RM (06 R118). -/
def execFsub (d a b : Opd) (rm : RMode) (s : State) : Out :=
  onBoard s (.fsub d a b rm) fun b0 => s.vec b0 d 6 fun l =>
    fSub .f32 rm (s.fsrc b0 a l).toNat (s.fsrc b0 b l).toNat

/-- FMUL: binary32 under RM (06 R118). -/
def execFmul (d a b : Opd) (rm : RMode) (s : State) : Out :=
  onBoard s (.fmul d a b rm) fun b0 => s.vec b0 d 6 fun l =>
    fMul .f32 rm (s.fsrc b0 a l).toNat (s.fsrc b0 b l).toNat

/-- FFMA: fused multiply-add under RM (06 R118). -/
def execFfma (d a b c : Opd) (rm : RMode) (s : State) : Out :=
  onBoard s (.ffma d a b c rm) fun b0 => s.vec b0 d 6 fun l =>
    fFma .f32 rm (s.fsrc b0 a l).toNat (s.fsrc b0 b l).toNat (s.fsrc b0 c l).toNat

/-- FMIN (06 R119). -/
def execFmin (d a b : Opd) (s : State) : Out :=
  onBoard s (.fmin d a b) fun b0 => s.vec b0 d 6 fun l =>
    fMin .f32 (s.fsrc b0 a l).toNat (s.fsrc b0 b l).toNat

/-- FMAX (06 R119). -/
def execFmax (d a b : Opd) (s : State) : Out :=
  onBoard s (.fmax d a b) fun b0 => s.vec b0 d 6 fun l =>
    fMax .f32 (s.fsrc b0 a l).toNat (s.fsrc b0 b l).toNat

/-- FABS (06 R119). -/
def execFabs (d a : Opd) (s : State) : Out :=
  onBoard s (.fabs d a) fun b0 => s.vecW b0 d 6 fun l => fAbs (s.fsrc b0 a l)

/-- FNEG (06 R119). -/
def execFneg (d a : Opd) (s : State) : Out :=
  onBoard s (.fneg d a) fun b0 => s.vecW b0 d 6 fun l => fNeg (s.fsrc b0 a l)

/-- FCMP: a mask of the lanes where the condition holds (06 R120, 22 R401). -/
def execFcmp (d : BitVec 3) (a b : Opd) (cond : Cond) (s : State) : Out :=
  onBoard s (.fcmp d a b cond) fun b0 =>
    let fl := (lanesIn s.cur.mask).foldl (fun w l => w ||| fCmpFlags cond (s.fsrc b0 a l).toNat (s.fsrc b0 b l).toNat) 0
    s.put (b0.outM s.cur.slotB s.cur.mask d 6
      (maskOf fun l => fCmp cond (s.fsrc b0 a l).toNat (s.fsrc b0 b l).toNat) fl)

/-- FCLASS: one-hot class word (06 R121). -/
def execFclass (d a : Opd) (s : State) : Out :=
  onBoard s (.fclass d a) fun b0 => s.vecW b0 d 6 fun l => fClass (s.fsrc b0 a l).toNat

/-- FRCP (06 R122). -/
def execFrcp (d a : Opd) (s : State) : Out :=
  onBoard s (.frcp d a) fun b0 => s.vec b0 d 12 fun l => fRcp (s.fsrc b0 a l)

/-- FRSQ (06 R122). -/
def execFrsq (d a : Opd) (s : State) : Out :=
  onBoard s (.frsq d a) fun b0 => s.vec b0 d 12 fun l => fRsq (s.fsrc b0 a l)

/-- FEXP2 (06 R122). -/
def execFexp2 (d a : Opd) (s : State) : Out :=
  onBoard s (.fexp2 d a) fun b0 => s.vec b0 d 12 fun l => fExp2 (s.fsrc b0 a l)

/-- FLOG2 (06 R122). -/
def execFlog2 (d a : Opd) (s : State) : Out :=
  onBoard s (.flog2 d a) fun b0 => s.vec b0 d 12 fun l => fLog2 (s.fsrc b0 a l)

/-- FSIN (06 R122). -/
def execFsin (d a : Opd) (s : State) : Out :=
  onBoard s (.fsin d a) fun b0 => s.vec b0 d 12 fun l => fSin (s.fsrc b0 a l)

/-- FCOS (06 R122). -/
def execFcos (d a : Opd) (s : State) : Out :=
  onBoard s (.fcos d a) fun b0 => s.vec b0 d 12 fun l => fCos (s.fsrc b0 a l)

/-- FTANH (06 R122). -/
def execFtanh (d a : Opd) (s : State) : Out :=
  onBoard s (.ftanh d a) fun b0 => s.vec b0 d 12 fun l => fTanh (s.fsrc b0 a l)

/-- FSQRT: correctly rounded under RM (06 R122). -/
def execFsqrt (d a : Opd) (rm : RMode) (s : State) : Out :=
  onBoard s (.fsqrt d a rm) fun b0 => s.vec b0 d 14 fun l => fSqrt rm (s.fsrc b0 a l).toNat

/-- HADD2: both packed elements (06 R123). -/
def execHadd2 (d a b : Opd) (rm : RMode) (fmt : Fmt) (s : State) : Out :=
  onBoard s (.hadd2 d a b rm fmt) fun b0 => s.vec b0 d 6 fun l =>
    packed (fun x y _ => fAdd fmt rm x y) (s.src b0 a l) (s.src b0 b l) 0

/-- HSUB2: both packed elements (06 R123). -/
def execHsub2 (d a b : Opd) (rm : RMode) (fmt : Fmt) (s : State) : Out :=
  onBoard s (.hsub2 d a b rm fmt) fun b0 => s.vec b0 d 6 fun l =>
    packed (fun x y _ => fSub fmt rm x y) (s.src b0 a l) (s.src b0 b l) 0

/-- HMUL2: both packed elements (06 R123). -/
def execHmul2 (d a b : Opd) (rm : RMode) (fmt : Fmt) (s : State) : Out :=
  onBoard s (.hmul2 d a b rm fmt) fun b0 => s.vec b0 d 6 fun l =>
    packed (fun x y _ => fMul fmt rm x y) (s.src b0 a l) (s.src b0 b l) 0

/-- HFMA2: both packed elements, one rounding each (06 R123). -/
def execHfma2 (d a b c : Opd) (rm : RMode) (fmt : Fmt) (s : State) : Out :=
  onBoard s (.hfma2 d a b c rm fmt) fun b0 => s.vec b0 d 6 fun l =>
    packed (fun x y z => fFma fmt rm x y z) (s.src b0 a l) (s.src b0 b l) (s.src b0 c l)

/-- HMIN2: both packed elements (06 R123). -/
def execHmin2 (d a b : Opd) (fmt : Fmt) (s : State) : Out :=
  onBoard s (.hmin2 d a b fmt) fun b0 => s.vec b0 d 6 fun l =>
    packed (fun x y _ => fMin fmt x y) (s.src b0 a l) (s.src b0 b l) 0

/-- HMAX2: both packed elements (06 R123). -/
def execHmax2 (d a b : Opd) (fmt : Fmt) (s : State) : Out :=
  onBoard s (.hmax2 d a b fmt) fun b0 => s.vec b0 d 6 fun l =>
    packed (fun x y _ => fMax fmt x y) (s.src b0 a l) (s.src b0 b l) 0

/-- IADD: wrapping, or saturating with SAT (06 R124). -/
def execIadd (d a b : Opd) (sat uns : Bool) (s : State) : Out :=
  onBoard s (.iadd d a b sat uns) fun b0 => s.vec b0 d 4 fun l =>
    iSum false sat uns (s.src b0 a l) (s.src b0 b l)

/-- ISUB: wrapping, or saturating with SAT (06 R124). -/
def execIsub (d a b : Opd) (sat uns : Bool) (s : State) : Out :=
  onBoard s (.isub d a b sat uns) fun b0 => s.vec b0 d 4 fun l =>
    iSum true sat uns (s.src b0 a l) (s.src b0 b l)

/-- IMUL: low product (06 R124). -/
def execImul (d a b : Opd) (s : State) : Out :=
  onBoard s (.imul d a b) fun b0 => s.vecW b0 d 6 fun l =>
    (s.src b0 a l) * (s.src b0 b l)

/-- IMAD: low product plus C (06 R124). -/
def execImad (d a b c : Opd) (s : State) : Out :=
  onBoard s (.imad d a b c) fun b0 => s.vecW b0 d 6 fun l =>
    (s.src b0 a l) * (s.src b0 b l) + (s.src b0 c l)

/-- IMULH: high product (06 R124). -/
def execImulh (d a b : Opd) (uns : Bool) (s : State) : Out :=
  onBoard s (.imulh d a b uns) fun b0 => s.vecW b0 d 6 fun l =>
    mulHigh uns (s.src b0 a l) (s.src b0 b l)

/-- IMIN (06 R125). -/
def execImin (d a b : Opd) (uns : Bool) (s : State) : Out :=
  onBoard s (.imin d a b uns) fun b0 => s.vecW b0 d 4 fun l =>
    if iLess uns (s.src b0 b l) (s.src b0 a l) then (s.src b0 b l) else (s.src b0 a l)

/-- IMAX (06 R125). -/
def execImax (d a b : Opd) (uns : Bool) (s : State) : Out :=
  onBoard s (.imax d a b uns) fun b0 => s.vecW b0 d 4 fun l =>
    if iLess uns (s.src b0 a l) (s.src b0 b l) then (s.src b0 b l) else (s.src b0 a l)

/-- ICMP: a mask of the lanes where the condition holds (06 R125). -/
def execIcmp (d : BitVec 3) (a b : Opd) (cond : Cond) (uns : Bool) (s : State) : Out :=
  onBoard s (.icmp d a b cond uns) fun b0 => s.mask b0 d 4 fun l => iCmp cond uns (s.src b0 a l) (s.src b0 b l)

/-- AND (06 R126). -/
def execAnd (d a b : Opd) (s : State) : Out :=
  onBoard s (.and d a b) fun b0 => s.vecW b0 d 4 fun l =>
    (s.src b0 a l) &&& (s.src b0 b l)

/-- OR (06 R126). -/
def execOr (d a b : Opd) (s : State) : Out :=
  onBoard s (.or d a b) fun b0 => s.vecW b0 d 4 fun l =>
    (s.src b0 a l) ||| (s.src b0 b l)

/-- XOR (06 R126). -/
def execXor (d a b : Opd) (s : State) : Out :=
  onBoard s (.xor d a b) fun b0 => s.vecW b0 d 4 fun l =>
    (s.src b0 a l) ^^^ (s.src b0 b l)

/-- NOT (06 R126). -/
def execNot (d a : Opd) (s : State) : Out :=
  onBoard s (.not d a) fun b0 => s.vecW b0 d 4 fun l => ~~~(s.src b0 a l)

/-- SHL: 0 from a shift of 32 on (06 R126). -/
def execShl (d a b : Opd) (s : State) : Out :=
  onBoard s (.shl d a b) fun b0 => s.vecW b0 d 4 fun l =>
    shiftL (s.src b0 a l) (s.src b0 b l)

/-- SHR: 0 from a shift of 32 on (06 R126). -/
def execShr (d a b : Opd) (s : State) : Out :=
  onBoard s (.shr d a b) fun b0 => s.vecW b0 d 4 fun l =>
    shiftR (s.src b0 a l) (s.src b0 b l)

/-- SAR: a shift above 31 counts as 31 (06 R126). -/
def execSar (d a b : Opd) (s : State) : Out :=
  onBoard s (.sar d a b) fun b0 => s.vecW b0 d 4 fun l =>
    shiftA (s.src b0 a l) (s.src b0 b l)

/-- POPC (06 R127). -/
def execPopc (d a : Opd) (s : State) : Out :=
  onBoard s (.popc d a) fun b0 => s.vecW b0 d 4 fun l => BitVec.ofNat 32 (popCount 32 (s.src b0 a l).toNat)

/-- CLZ (06 R127). -/
def execClz (d a : Opd) (s : State) : Out :=
  onBoard s (.clz d a) fun b0 => s.vecW b0 d 4 fun l => BitVec.ofNat 32 (leadZeros (s.src b0 a l))

/-- BFE (06 R127). -/
def execBfe (d a b c : Opd) (uns : Bool) (s : State) : Out :=
  onBoard s (.bfe d a b c uns) fun b0 => s.vecW b0 d 4 fun l =>
    bitExtract uns (s.src b0 a l) (s.src b0 b l) (s.src b0 c l)

/-- BFI (06 R127). -/
def execBfi (d a b c : Opd) (s : State) : Out :=
  onBoard s (.bfi d a b c) fun b0 => s.vecW b0 d 4 fun l =>
    bitInsert (s.src b0 a l) (s.src b0 b l) (s.src b0 c l)

/-- BREV (06 R127). -/
def execBrev (d a : Opd) (s : State) : Out :=
  onBoard s (.brev d a) fun b0 => s.vecW b0 d 4 fun l => bitRev (s.src b0 a l)

/-- CVT: conversion between formats (06 R128). A binary32 source takes a short immediate by value (05 R93). -/
def execCvt (d a : Opd) (rm : RMode) (sat : Bool) (target source : Fmt) (s : State) : Out :=
  onBoard s (.cvt d a rm sat target source) fun b0 => s.vec b0 d 6 fun l =>
    convert target source rm sat (if source == .f32 then s.fsrc b0 a l else s.src b0 a l)

/-- The active lanes of block `k` (04 R86). -/
def State.blockLanes (s : State) (k : Nat) : List Nat := (lanesIn s.cur.mask).filter fun l => l / 32 == k

/-- Scales of the four blocks of a source: the word, and the flags (06 R129). -/
def State.scales (s : State) (b : Board) (a : Opd) (fmt : Fmt) : List (Nat × Word) :=
  tab 4 fun k => blockScale fmt ((s.blockLanes k).map fun l => s.fsrc b a l)

/-- The scale word: scode of block k in bits [8k+7:8k] (06 R129). -/
def scaleWord (sc : List (Nat × Word)) : Word := BitVec.ofNat 32 (sc.foldr (fun x acc => 256 * acc + x.1) 0)

/-- The lanes of a block with their element codes. -/
def State.narrowed (s : State) (b : Board) (a : Opd) (rm : RMode) (sat fb : Bool) (fmt : Fmt) (sc : List (Nat × Word)) :
    List (Nat × Res) :=
  (List.range 4).flatMap fun k =>
    (s.blockLanes k).zip
      (narrowBlock fmt rm sat fb (sc.getD k (0, 0)).1 (0, 0) ((s.blockLanes k).map fun l => s.fsrc b a l))

/-- NARROW: element codes and the scale word, which land together (06 R129, 04 R86, R87). -/
def execNarrow (d a : Opd) (c : BitVec 9) (rm : RMode) (sat : Bool) (fmt : Fmt) (fb : Bool) (s : State) : Out :=
  onBoard s (.narrow d a c rm sat fmt fb) fun b0 =>
    let sc := s.scales b0 a fmt
    let rs := s.narrowed b0 a rm sat fb fmt sc
    let vals := lanesOf fun l => (look l { val := 0 } rs).val
    let fl := sc.foldl (fun w x => w ||| x.2) (allFlags (rs.map (·.2)))
    let b0 := { b0 with vwins := { loc := .dv 0, lanes := s.cur.mask, rem := 10, fresh := true } :: b0.vwins }
    s.put (b0.emit
      { dest := (match d with | .v i n => .v (b0.vnum i n) | _ => .none), slotB := s.cur.slotB, lanes := s.cur.mask, rem := 10
        vals := vals, sval := (scaleWord sc).setWidth 128, dest2 := some c.toNat, dv := [(s.cur.mask, 0)], flags := fl })

/-- QSCALE: the scale word of the four blocks (06 R129). -/
def execQscale (d : BitVec 9) (a : Opd) (fmt : Fmt) (s : State) : Out :=
  onBoard s (.qscale d a fmt) fun b0 =>
    let sc := s.scales b0 a fmt
    s.uni b0 d 10 (scaleWord sc) (sc.foldl (fun w x => w ||| x.2) 0)

/-- A source of any lane, active or not (06 R116). -/
def State.from (s : State) (b : Board) (a : Opd) (k : Nat) : Word := s.src b a k

/-- SHFL.idx (06 R130). -/
def execShflIdx (d a b : Opd) (s : State) : Out :=
  onBoard s (.shflIdx d a b) fun b0 => s.vecW b0 d 8 fun l =>
    s.from b0 a (bits (s.src b0 b l).toNat 0 7)

/-- SHFL.up: its own value where no source lane exists (06 R130). -/
def execShflUp (d a b : Opd) (s : State) : Out :=
  onBoard s (.shflUp d a b) fun b0 => s.vecW b0 d 8 fun l =>
    let n := bits (s.src b0 b l).toNat 0 8
    if n ≤ l then s.from b0 a (l - n) else s.from b0 a l

/-- SHFL.down (06 R130). -/
def execShflDown (d a b : Opd) (s : State) : Out :=
  onBoard s (.shflDown d a b) fun b0 => s.vecW b0 d 8 fun l =>
    let k := l + bits (s.src b0 b l).toNat 0 8
    if k ≤ 127 then s.from b0 a k else s.from b0 a l

/-- SHFL.xor (06 R130). -/
def execShflXor (d a b : Opd) (s : State) : Out :=
  onBoard s (.shflXor d a b) fun b0 => s.vecW b0 d 8 fun l =>
    s.from b0 a (l ^^^ bits (s.src b0 b l).toNat 0 7)

/-- BCAST (06 R131). -/
def execBcast (d a b : Opd) (s : State) : Out :=
  onBoard s (.bcast d a b) fun b0 => s.vecW b0 d 8 fun l =>
    s.from b0 a (bits (s.src b0 b l).toNat 0 7)

/-- ROT (06 R131). -/
def execRot (d a b : Opd) (s : State) : Out :=
  onBoard s (.rot d a b) fun b0 => s.vecW b0 d 8 fun l =>
    s.from b0 a ((l + bits (s.src b0 b l).toNat 0 7) % 128)

/-- SORT2: one compare-exchange stage (06 R132). -/
def execSort2 (d a b : Opd) (key : SortKey) (desc : Bool) (s : State) : Out :=
  onBoard s (.sort2 d a b key desc) fun b0 => s.vecW b0 d 8 fun l =>
    let v := (s.src b0 b l).toNat
    let p := l ^^^ 2 ^ (v % 8)
    let lo := min l p
    let up := (!desc) != (v.testBit 3 && lo.testBit (bits v 4 3))
    let get (k : Nat) : Word := if key == .f32 then s.fsrc b0 a k else s.src b0 a k
    let x := get lo
    let y := get (max l p)
    let le := sortKeyOf key x ≤ sortKeyOf key y
    let small := if le then x else y
    let large := if le then y else x
    if (l == lo) == up then small else large

/-- The running results of a scan over the active lanes (06 R133). -/
def State.scanned (s : State) (b : Board) (a : Opd) (op : ScanOp) : List (Res × Res) :=
  scanRun op { val := scanIdentity op } ((lanesIn s.cur.mask).map fun l => if scanFloat op then s.fsrc b a l else s.src b a l)

/-- The last of the running results. -/
def lastScan (op : ScanOp) (rs : List (Res × Res)) : Res := ((rs.getLast?).map (·.2)).getD { val := scanIdentity op }

/-- SCAN: running values in ascending lane order (06 R133). -/
def execScan (d a : Opd) (op : ScanOp) (excl : Bool) (s : State) : Out :=
  onBoard s (.scan d a op excl) fun b0 =>
    let rs := s.scanned b0 a op
    let at_ := (lanesIn s.cur.mask).zip (rs.map fun r => if excl then r.1.val else r.2.val)
    s.put (b0.outV s.cur.slotB s.cur.mask d 14 (lanesOf fun l => look l 0 at_) (lastScan op rs).flags)

/-- REDUCE: the combined value to every active lane (06 R133). -/
def execReduce (d a : Opd) (op : ScanOp) (s : State) : Out :=
  onBoard s (.reduce d a op) fun b0 =>
    let r := lastScan op (s.scanned b0 a op)
    s.put (b0.outV s.cur.slotB s.cur.mask d 14 (lanesOf fun _ => r.val) r.flags)

/-- The value of a vote on `v` under the active mask (06 R134). -/
def voteOf (op : VoteOp) (v m : Mask) : Word :=
  match op with
  | .any => if v != 0 then 1 else 0
  | .all => if v == m then 1 else 0
  | .bal q => v.extractLsb' (32 * q.toNat) 32
  | .count => BitVec.ofNat 32 (popCount 128 v.toNat)
  | .first => if v == 0 then 128 else BitVec.ofNat 32 (lowLane v)

/-- VOTE: a mask reduced to a uniform value (06 R134). -/
def execVote (d : BitVec 9) (a : BitVec 3) (op : VoteOp) (s : State) : Out :=
  onBoard s (.vote d a op) fun b0 => s.uni b0 d 6 (voteOf op (b0.mreg a.toNat &&& s.cur.mask) s.cur.mask) 0

/-- HASH (06 R135). -/
def execHash (d a b : Opd) (s : State) : Out :=
  onBoard s (.hash d a b) fun b0 => s.vecW b0 d 10 fun l =>
    hashStep (s.src b0 a l) (s.src b0 b l)

/-- MAND (06 R136). -/
def execMand (d a b : BitVec 3) (s : State) : Out :=
  onBoard s (.mand d a b) fun b0 => s.mask b0 d 4 fun l => (b0.mreg a.toNat).getLsbD l && (b0.mreg b.toNat).getLsbD l

/-- MOR (06 R136). -/
def execMor (d a b : BitVec 3) (s : State) : Out :=
  onBoard s (.mor d a b) fun b0 => s.mask b0 d 4 fun l => (b0.mreg a.toNat).getLsbD l || (b0.mreg b.toNat).getLsbD l

/-- MXOR (06 R136). -/
def execMxor (d a b : BitVec 3) (s : State) : Out :=
  onBoard s (.mxor d a b) fun b0 => s.mask b0 d 4 fun l => (b0.mreg a.toNat).getLsbD l != (b0.mreg b.toNat).getLsbD l

/-- MANDN (06 R136). -/
def execMandn (d a b : BitVec 3) (s : State) : Out :=
  onBoard s (.mandn d a b) fun b0 => s.mask b0 d 4 fun l => (b0.mreg a.toNat).getLsbD l && !(b0.mreg b.toNat).getLsbD l

/-- MNOT (06 R136). -/
def execMnot (d a : BitVec 3) (s : State) : Out :=
  onBoard s (.mnot d a) fun b0 => s.mask b0 d 4 fun l => !(b0.mreg a.toNat).getLsbD l

/-- MMOV (06 R136). -/
def execMmov (d a : BitVec 3) (s : State) : Out :=
  onBoard s (.mmov d a) fun b0 => s.mask b0 d 4 fun l => (b0.mreg a.toNat).getLsbD l

/-- MLANE: lanes from A up to below B (06 R136). -/
def execMlane (d : BitVec 3) (a b : Opd) (s : State) : Out :=
  onBoard s (.mlane d a b) fun b0 => s.mask b0 d 4 fun l =>
    (s.src b0 a l).toNat ≤ l && l < (s.src b0 b l).toNat

/-- MBAL: lanes whose value is not zero (06 R136). -/
def execMbal (d : BitVec 3) (a : Opd) (s : State) : Out :=
  onBoard s (.mbal d a) fun b0 => s.mask b0 d 4 fun l => s.src b0 a l != 0

end Sys2Proof.Machine
end

