-- ==== Sys2Proof/Machine/Dispatch.lean ====
section
/-!
DEFINITION. Which meaning each step of the module has: one arm for each constructor of Instr.
-/
namespace Sys2Proof.Machine

def exec (i : Instr) (s : State) : Host.Outcome State Fault Refusal :=
  match i with
  | .mov d a => Sys2Proof.Machine.execMov d a s
  | .movi d imm => Sys2Proof.Machine.execMovi d imm s
  | .sel d a b c => Sys2Proof.Machine.execSel d a b c s
  | .fadd d a b rm => Sys2Proof.Machine.execFadd d a b rm s
  | .fsub d a b rm => Sys2Proof.Machine.execFsub d a b rm s
  | .fmul d a b rm => Sys2Proof.Machine.execFmul d a b rm s
  | .ffma d a b c rm => Sys2Proof.Machine.execFfma d a b c rm s
  | .fmin d a b => Sys2Proof.Machine.execFmin d a b s
  | .fmax d a b => Sys2Proof.Machine.execFmax d a b s
  | .fabs d a => Sys2Proof.Machine.execFabs d a s
  | .fneg d a => Sys2Proof.Machine.execFneg d a s
  | .fcmp d a b cond => Sys2Proof.Machine.execFcmp d a b cond s
  | .fclass d a => Sys2Proof.Machine.execFclass d a s
  | .frcp d a => Sys2Proof.Machine.execFrcp d a s
  | .frsq d a => Sys2Proof.Machine.execFrsq d a s
  | .fsqrt d a rm => Sys2Proof.Machine.execFsqrt d a rm s
  | .fexp2 d a => Sys2Proof.Machine.execFexp2 d a s
  | .flog2 d a => Sys2Proof.Machine.execFlog2 d a s
  | .fsin d a => Sys2Proof.Machine.execFsin d a s
  | .fcos d a => Sys2Proof.Machine.execFcos d a s
  | .ftanh d a => Sys2Proof.Machine.execFtanh d a s
  | .hadd2 d a b rm fmt => Sys2Proof.Machine.execHadd2 d a b rm fmt s
  | .hsub2 d a b rm fmt => Sys2Proof.Machine.execHsub2 d a b rm fmt s
  | .hmul2 d a b rm fmt => Sys2Proof.Machine.execHmul2 d a b rm fmt s
  | .hfma2 d a b c rm fmt => Sys2Proof.Machine.execHfma2 d a b c rm fmt s
  | .hmin2 d a b fmt => Sys2Proof.Machine.execHmin2 d a b fmt s
  | .hmax2 d a b fmt => Sys2Proof.Machine.execHmax2 d a b fmt s
  | .iadd d a b sat uns => Sys2Proof.Machine.execIadd d a b sat uns s
  | .isub d a b sat uns => Sys2Proof.Machine.execIsub d a b sat uns s
  | .imul d a b => Sys2Proof.Machine.execImul d a b s
  | .imad d a b c => Sys2Proof.Machine.execImad d a b c s
  | .imulh d a b uns => Sys2Proof.Machine.execImulh d a b uns s
  | .imin d a b uns => Sys2Proof.Machine.execImin d a b uns s
  | .imax d a b uns => Sys2Proof.Machine.execImax d a b uns s
  | .icmp d a b cond uns => Sys2Proof.Machine.execIcmp d a b cond uns s
  | .and d a b => Sys2Proof.Machine.execAnd d a b s
  | .or d a b => Sys2Proof.Machine.execOr d a b s
  | .xor d a b => Sys2Proof.Machine.execXor d a b s
  | .not d a => Sys2Proof.Machine.execNot d a s
  | .shl d a b => Sys2Proof.Machine.execShl d a b s
  | .shr d a b => Sys2Proof.Machine.execShr d a b s
  | .sar d a b => Sys2Proof.Machine.execSar d a b s
  | .popc d a => Sys2Proof.Machine.execPopc d a s
  | .clz d a => Sys2Proof.Machine.execClz d a s
  | .bfe d a b c uns => Sys2Proof.Machine.execBfe d a b c uns s
  | .bfi d a b c => Sys2Proof.Machine.execBfi d a b c s
  | .brev d a => Sys2Proof.Machine.execBrev d a s
  | .cvt d a rm sat target source => Sys2Proof.Machine.execCvt d a rm sat target source s
  | .narrow d a c rm sat fmt fb => Sys2Proof.Machine.execNarrow d a c rm sat fmt fb s
  | .qscale d a fmt => Sys2Proof.Machine.execQscale d a fmt s
  | .shflIdx d a b => Sys2Proof.Machine.execShflIdx d a b s
  | .shflUp d a b => Sys2Proof.Machine.execShflUp d a b s
  | .shflDown d a b => Sys2Proof.Machine.execShflDown d a b s
  | .shflXor d a b => Sys2Proof.Machine.execShflXor d a b s
  | .bcast d a b => Sys2Proof.Machine.execBcast d a b s
  | .rot d a b => Sys2Proof.Machine.execRot d a b s
  | .sort2 d a b key desc => Sys2Proof.Machine.execSort2 d a b key desc s
  | .scan d a op excl => Sys2Proof.Machine.execScan d a op excl s
  | .reduce d a op => Sys2Proof.Machine.execReduce d a op s
  | .vote d a op => Sys2Proof.Machine.execVote d a op s
  | .hash d a b => Sys2Proof.Machine.execHash d a b s
  | .mand d a b => Sys2Proof.Machine.execMand d a b s
  | .mor d a b => Sys2Proof.Machine.execMor d a b s
  | .mxor d a b => Sys2Proof.Machine.execMxor d a b s
  | .mandn d a b => Sys2Proof.Machine.execMandn d a b s
  | .mnot d a => Sys2Proof.Machine.execMnot d a s
  | .mmov d a => Sys2Proof.Machine.execMmov d a s
  | .mlane d a b => Sys2Proof.Machine.execMlane d a b s
  | .mbal d a => Sys2Proof.Machine.execMbal d a s
  | .ld d br x off peg w sc => Sys2Proof.Machine.execLd d br x off peg w sc s
  | .st d br x off peg w sc => Sys2Proof.Machine.execSt d br x off peg w sc s
  | .ldu d br x off peg w sc => Sys2Proof.Machine.execLdu d br x off peg w sc s
  | .stu d br x off peg w sc => Sys2Proof.Machine.execStu d br x off peg w sc s
  | .lds d x off peg w => Sys2Proof.Machine.execLds d x off peg w s
  | .sts d x off peg w => Sys2Proof.Machine.execSts d x off peg w s
  | .pref br x off l2 => Sys2Proof.Machine.execPref br x off l2 s
  | .atom d a br x off peg op sc wd => Sys2Proof.Machine.execAtom d a br x off peg op sc wd s
  | .red a br x off peg op sc wd => Sys2Proof.Machine.execRed a br x off peg op sc wd s
  | .atoms d a x off peg op sc wd => Sys2Proof.Machine.execAtoms d a x off peg op sc wd s
  | .reds a x off peg op sc wd => Sys2Proof.Machine.execReds a x off peg op sc wd s
  | .atomu d a br x off peg op sc wd => Sys2Proof.Machine.execAtomu d a br x off peg op sc wd s
  | .redu a br x off peg op sc wd => Sys2Proof.Machine.execRedu a br x off peg op sc wd s
  | .fence ord sc => Sys2Proof.Machine.execFence ord sc s
  | .fenceX pa pb ord sc => Sys2Proof.Machine.execFenceX pa pb ord sc s
  | .brset br x => Sys2Proof.Machine.execBrset br x s
  | .brget br d => Sys2Proof.Machine.execBrget br d s
  | .watchArm d x peg => Sys2Proof.Machine.execWatchArm d x peg s
  | .watchDisarm x peg => Sys2Proof.Machine.execWatchDisarm x peg s
  | .ldtr d peg => Sys2Proof.Machine.execLdtr d peg s
  | .cpa f g br w peg => Sys2Proof.Machine.execCpa f g br w peg s
  | .cpb u dims fl peg => Sys2Proof.Machine.execCpb u dims fl peg s
  | .cpr u fmt fl peg => Sys2Proof.Machine.execCpr u fmt fl peg s
  | .mma f u t peg => Sys2Proof.Machine.execMma f u t peg s
  | .mmas f u t peg => Sys2Proof.Machine.execMmas f u t peg s
  | .accClr t peg => Sys2Proof.Machine.execAccClr t peg s
  | .accLd u t peg => Sys2Proof.Machine.execAccLd u t peg s
  | .accSt u t peg => Sys2Proof.Machine.execAccSt u t peg s
  | .accRdv g f t peg => Sys2Proof.Machine.execAccRdv g f t peg s
  | .accWrv f g t peg => Sys2Proof.Machine.execAccWrv f g t peg s
  | .setmpc u => Sys2Proof.Machine.execSetmpc u s
  | .cbtLd u tblB peg => Sys2Proof.Machine.execCbtLd u tblB peg s
  | .routeCount u peg => Sys2Proof.Machine.execRouteCount u peg s
  | .routeXchg u peg => Sys2Proof.Machine.execRouteXchg u peg s
  | .routePlace u peg => Sys2Proof.Machine.execRoutePlace u peg s
  | .routeScatter u peg => Sys2Proof.Machine.execRouteScatter u peg s
  | .routeCombine u peg => Sys2Proof.Machine.execRouteCombine u peg s
  | .routeStat g u sel peg => Sys2Proof.Machine.execRouteStat g u sel peg s
  | .sadd d a b => Sys2Proof.Machine.execSadd d a b s
  | .ssub d a b => Sys2Proof.Machine.execSsub d a b s
  | .smul d a b => Sys2Proof.Machine.execSmul d a b s
  | .smulh d a b => Sys2Proof.Machine.execSmulh d a b s
  | .sand d a b => Sys2Proof.Machine.execSand d a b s
  | .sor d a b => Sys2Proof.Machine.execSor d a b s
  | .sxor d a b => Sys2Proof.Machine.execSxor d a b s
  | .sshl d a b => Sys2Proof.Machine.execSshl d a b s
  | .sshr d a b => Sys2Proof.Machine.execSshr d a b s
  | .ssar d a b => Sys2Proof.Machine.execSsar d a b s
  | .smin d a b => Sys2Proof.Machine.execSmin d a b s
  | .smax d a b => Sys2Proof.Machine.execSmax d a b s
  | .sminu d a b => Sys2Proof.Machine.execSminu d a b s
  | .smaxu d a b => Sys2Proof.Machine.execSmaxu d a b s
  | .sslt d a b => Sys2Proof.Machine.execSslt d a b s
  | .ssltu d a b => Sys2Proof.Machine.execSsltu d a b s
  | .saddImm d a imm => Sys2Proof.Machine.execSaddImm d a imm s
  | .ssubImm d a imm => Sys2Proof.Machine.execSsubImm d a imm s
  | .smulImm d a imm => Sys2Proof.Machine.execSmulImm d a imm s
  | .smulhImm d a imm => Sys2Proof.Machine.execSmulhImm d a imm s
  | .sandImm d a imm => Sys2Proof.Machine.execSandImm d a imm s
  | .sorImm d a imm => Sys2Proof.Machine.execSorImm d a imm s
  | .sxorImm d a imm => Sys2Proof.Machine.execSxorImm d a imm s
  | .sshlImm d a imm => Sys2Proof.Machine.execSshlImm d a imm s
  | .sshrImm d a imm => Sys2Proof.Machine.execSshrImm d a imm s
  | .ssarImm d a imm => Sys2Proof.Machine.execSsarImm d a imm s
  | .sminImm d a imm => Sys2Proof.Machine.execSminImm d a imm s
  | .smaxImm d a imm => Sys2Proof.Machine.execSmaxImm d a imm s
  | .sminuImm d a imm => Sys2Proof.Machine.execSminuImm d a imm s
  | .smaxuImm d a imm => Sys2Proof.Machine.execSmaxuImm d a imm s
  | .ssltImm d a imm => Sys2Proof.Machine.execSsltImm d a imm s
  | .ssltuImm d a imm => Sys2Proof.Machine.execSsltuImm d a imm s
  | .smovl d imm => Sys2Proof.Machine.execSmovl d imm s
  | .smovh d imm => Sys2Proof.Machine.execSmovh d imm s
  | .dadd d a b => Sys2Proof.Machine.execDadd d a b s
  | .dsub d a b => Sys2Proof.Machine.execDsub d a b s
  | .daddi d a imm => Sys2Proof.Machine.execDaddi d a imm s
  | .bra off => Sys2Proof.Machine.execBra off s
  | .brcNz r off => Sys2Proof.Machine.execBrcNz r off s
  | .brcZ r off => Sys2Proof.Machine.execBrcZ r off s
  | .brx a => Sys2Proof.Machine.execBrx a s
  | .call off => Sys2Proof.Machine.execCall off s
  | .calli f => Sys2Proof.Machine.execCalli f s
  | .ret => Sys2Proof.Machine.execRet s
  | .div mk ng toff joff => Sys2Proof.Machine.execDiv mk ng toff joff s
  | .join => Sys2Proof.Machine.execJoin s
  | .loop r off => Sys2Proof.Machine.execLoop r off s
  | .exit => Sys2Proof.Machine.execExit s
  | .barAw k g a => Sys2Proof.Machine.execBarAw k g a s
  | .barArr k g a => Sys2Proof.Machine.execBarArr k g a s
  | .barWait k g a => Sys2Proof.Machine.execBarWait k g a s
  | .barInit k g a => Sys2Proof.Machine.execBarInit k g a s
  | .launch a peg => Sys2Proof.Machine.execLaunch a peg s
  | .launchG a peg => Sys2Proof.Machine.execLaunchG a peg s
  | .trigger => Sys2Proof.Machine.execTrigger s
  | .yield n => Sys2Proof.Machine.execYield n s
  | .setix x v => Sys2Proof.Machine.execSetix x v s
  | .getsys y d => Sys2Proof.Machine.execGetsys y d s
  | .setsys y d => Sys2Proof.Machine.execSetsys y d s
  | .time d => Sys2Proof.Machine.execTime d s
  | .tick d => Sys2Proof.Machine.execTick d s
  | .trap code => Sys2Proof.Machine.execTrap code s
  | .eret => Sys2Proof.Machine.execEret s
  | .nop => Sys2Proof.Machine.execNop s
  | .bindBundle => Sys2Proof.Machine.execBindBundle s
  | .switchPoint => Sys2Proof.Machine.execSwitchPoint s
  | .fixedLatencyLanding board k => Sys2Proof.Machine.execFixedLatencyLanding board k s
  | .engineCommandAccept eng => Sys2Proof.Machine.execEngineCommandAccept eng s
  | .memoryLineReturn ref resp => Sys2Proof.Machine.execMemoryLineReturn ref resp s
  | .copyCommandComplete core cmd => Sys2Proof.Machine.execCopyCommandComplete core cmd s
  | .cpbGateArrival core cmd dest => Sys2Proof.Machine.execCpbGateArrival core cmd dest s
  | .matrixCommandComplete core => Sys2Proof.Machine.execMatrixCommandComplete core s
  | .routeCommandComplete frame cmd => Sys2Proof.Machine.execRouteCommandComplete frame cmd s
  | .xchgWaitEnd frame cmd => Sys2Proof.Machine.execXchgWaitEnd frame cmd s
  | .combineGateWaitEnd frame cmd => Sys2Proof.Machine.execCombineGateWaitEnd frame cmd s
  | .scatterArrival frame cmd dev => Sys2Proof.Machine.execScatterArrival frame cmd dev s
  | .operationFail ref cause addr => Sys2Proof.Machine.execOperationFail ref cause addr s
  | .homeWritePerformed board op line => Sys2Proof.Machine.execHomeWritePerformed board op line s
  | .recordEligible frame entry => Sys2Proof.Machine.execRecordEligible frame entry s
  | .handlerStart frame entry place => Sys2Proof.Machine.execHandlerStart frame entry place s
  | .watchArmComplete board op => Sys2Proof.Machine.execWatchArmComplete board op s
  | .remoteGateArrival id => Sys2Proof.Machine.execRemoteGateArrival id s
  | .gateWake wake => Sys2Proof.Machine.execGateWake wake s
  | .gateWaiterPoll waiter => Sys2Proof.Machine.execGateWaiterPoll waiter s
  | .ringSlotResend ring src dst slot => Sys2Proof.Machine.execRingSlotResend ring src dst slot s
  | .queueSlotFill slot => Sys2Proof.Machine.execQueueSlotFill slot s
  | .queueBlockAccept queue => Sys2Proof.Machine.execQueueBlockAccept queue s
  | .launchAccept id => Sys2Proof.Machine.execLaunchAccept id s
  | .graphInstanceAccept id => Sys2Proof.Machine.execGraphInstanceAccept id s
  | .graphNodeReady inst node => Sys2Proof.Machine.execGraphNodeReady inst node s
  | .dependenceSatisfied grid => Sys2Proof.Machine.execDependenceSatisfied grid s
  | .dependenceWatchTimeout id => Sys2Proof.Machine.execDependenceWatchTimeout id s
  | .bentCreate grid places => Sys2Proof.Machine.execBentCreate grid places s
  | .boardRetire board => Sys2Proof.Machine.execBoardRetire board s
  | .sliceBoundary bay => Sys2Proof.Machine.execSliceBoundary bay s
  | .forcedPreemption bent => Sys2Proof.Machine.execForcedPreemption bent s
  | .bentSwitchOut bent => Sys2Proof.Machine.execBentSwitchOut bent s
  | .bentRestore bent places => Sys2Proof.Machine.execBentRestore bent places s
  | .thermalMigration bent places => Sys2Proof.Machine.execThermalMigration bent places s
  | .migrationAbandon bent => Sys2Proof.Machine.execMigrationAbandon bent s
  | .grantChange bay => Sys2Proof.Machine.execGrantChange bay s
  | .clockSwitch bay => Sys2Proof.Machine.execClockSwitch bay s
  | .droopStretchEnd bay => Sys2Proof.Machine.execDroopStretchEnd bay s
  | .droopWindowEnd bay => Sys2Proof.Machine.execDroopWindowEnd bay s
  | .capLeaseExpiry => Sys2Proof.Machine.execCapLeaseExpiry s
  | .paceWindowEnd group => Sys2Proof.Machine.execPaceWindowEnd group s
  | .correctionFreezeEnd core => Sys2Proof.Machine.execCorrectionFreezeEnd core s
  | .l1StorageTimeout board op => Sys2Proof.Machine.execL1StorageTimeout board op s
  | .window slot code addr => Sys2Proof.Machine.execWindow slot code addr s
  | .illegal slot code addr => Sys2Proof.Machine.execIllegal slot code addr s
  | .priv slot code addr => Sys2Proof.Machine.execPriv slot code addr s
  | .budget slot code addr => Sys2Proof.Machine.execBudget slot code addr s
  | .stack slot code addr => Sys2Proof.Machine.execStack slot code addr s
  | .machine slot store lane num => Sys2Proof.Machine.execMachine slot store lane num s
  | .broken board => Sys2Proof.Machine.execBroken board s
  | .retire board => Sys2Proof.Machine.execRetire board s
  | .overrun board => Sys2Proof.Machine.execOverrun board s
  | .pagingService board => Sys2Proof.Machine.execPagingService board s
  | .tlbInvalidateComplete fn => Sys2Proof.Machine.execTlbInvalidateComplete fn s
  | .pfFunctionLevelReset => Sys2Proof.Machine.execPfFunctionLevelReset s
  | .surpriseLinkLoss => Sys2Proof.Machine.execSurpriseLinkLoss s
  | .linkLossTimeout => Sys2Proof.Machine.execLinkLossTimeout s
  | .linkRetrain => Sys2Proof.Machine.execLinkRetrain s
  | .sidebandStatus => Sys2Proof.Machine.execSidebandStatus s
  | .funcReset => Sys2Proof.Machine.execFuncReset s
  | .moduleReset => Sys2Proof.Machine.execModuleReset s
  | .capseqClear => Sys2Proof.Machine.execCapseqClear s
  | .firmwareUpdate => Sys2Proof.Machine.execFirmwareUpdate s
  | .powerOn start => Sys2Proof.Machine.execPowerOn start s
  | .coreClockPeriod bay => Sys2Proof.Machine.execCoreClockPeriod bay s
  | .bundleFetch board b => Sys2Proof.Machine.execBundleFetch board b s
  | .scratchpadWave board op => Sys2Proof.Machine.execScratchpadWave board op s
  | .bindParkPoll board b => Sys2Proof.Machine.execBindParkPoll board b s
  | .bayRestart bay => Sys2Proof.Machine.execBayRestart bay s
  | .mainRailsOff => Sys2Proof.Machine.execMainRailsOff s
  | .remoteRequest req => Sys2Proof.Machine.execRemoteRequest req s
  | .ringSlotArrival ring src dst slot full corrupt => Sys2Proof.Machine.execRingSlotArrival ring src dst slot full corrupt s
  | .ringLinkFail ring frame => Sys2Proof.Machine.execRingLinkFail ring frame s
  | .ringSecondLinkFail ring frame => Sys2Proof.Machine.execRingSecondLinkFail ring frame s
  | .ualinkPlaneDown plane => Sys2Proof.Machine.execUalinkPlaneDown plane s
  | .peerLost mod => Sys2Proof.Machine.execPeerLost mod s
  | .peerAnsweringAgain mod => Sys2Proof.Machine.execPeerAnsweringAgain mod s
  | .notifyWrite fn queue value => Sys2Proof.Machine.execNotifyWrite fn queue value s
  | .thermalSample bay temp => Sys2Proof.Machine.execThermalSample bay temp s
  | .droopAlarm bay mv => Sys2Proof.Machine.execDroopAlarm bay mv s
  | .brownout bay mv => Sys2Proof.Machine.execBrownout bay mv s
  | .powerMeasurement watts => Sys2Proof.Machine.execPowerMeasurement watts s
  | .paceReport group mod window slack => Sys2Proof.Machine.execPaceReport group mod window slack s
  | .ptmExchange master => Sys2Proof.Machine.execPtmExchange master s
  | .eccCorrection core => Sys2Proof.Machine.execEccCorrection core s
  | .bindRequestService frame idx res => Sys2Proof.Machine.execBindRequestService frame idx res s
  | .fresume fn window value => Sys2Proof.Machine.execFresume fn window value s
  | .ctxCreate fn ctxid => Sys2Proof.Machine.execCtxCreate fn ctxid s
  | .ctxDestroy fn => Sys2Proof.Machine.execCtxDestroy fn s
  | .capSet fn => Sys2Proof.Machine.execCapSet fn s
  | .stepRead fn => Sys2Proof.Machine.execStepRead fn s
  | .ctxMove fn target => Sys2Proof.Machine.execCtxMove fn target s
  | .tlbInvalidate fn value => Sys2Proof.Machine.execTlbInvalidate fn value s
  | .qcfgWrite fn queue value => Sys2Proof.Machine.execQcfgWrite fn queue value s
  | .fqcfgWrite fn value => Sys2Proof.Machine.execFqcfgWrite fn value s
  | .qownWrite fn queue value => Sys2Proof.Machine.execQownWrite fn queue value s
  | .modsetWrite fn value => Sys2Proof.Machine.execModsetWrite fn value s
  | .estWrite fn window value => Sys2Proof.Machine.execEstWrite fn window value s
  | .drpthRead fn bay => Sys2Proof.Machine.execDrpthRead fn bay s
  | .fqlostRead fn => Sys2Proof.Machine.execFqlostRead fn s
  | .registerWrite fn off op => Sys2Proof.Machine.execRegisterWrite fn off op s
  | .functionLevelReset fn => Sys2Proof.Machine.execFunctionLevelReset fn s
  | .sidebandCap msg => Sys2Proof.Machine.execSidebandCap msg s
  | .sidebandStepRead idx => Sys2Proof.Machine.execSidebandStepRead idx s
  | .logRead idx => Sys2Proof.Machine.execLogRead idx s
  | .frameHung frame => Sys2Proof.Machine.execFrameHung frame s
  | .mailboxUnassignedCode fn => Sys2Proof.Machine.execMailboxUnassignedCode fn s

end Sys2Proof.Machine
end

