-- ==== Sys2Proof/Machine/Agenda.lean ====
section
/-!
DEFINITION. Which step the module takes next: a step of the surroundings that has come about, a step that is due at this moment, or one of
the steps that may come about now, chosen as the machine chooses where the spec fixes no order (07 R160, 08 R187, 11 R256).
-/
namespace Sys2Proof.Machine

/-- The step can come about. -/
def State.can (s : State) (i : Instr) : Bool :=
  match exec i s with
  | .next _ => true
  | _ => false

/-! ### Steps that are due at this moment -/

/-- Results that land in this tick; writes of system registers first (09 R208). -/
def State.landings (s : State) : List Instr :=
  let l := s.allBoards.flatMap fun b =>
    if s.stands b then [] else ((List.range b.pipe.length).filter fun k => ((b.pipe[k]?).map (·.landsNow)) == some true).map fun k => (b, k)
  let isSys (x : Board × Nat) : Bool := match x.1.pipe[x.2]? with
    | some e => match e.dest with
      | .sys _ => true
      | _ => false
    | none => false
  (l.filter isSys ++ l.filter fun x => !isSys x).map fun x => .fixedLatencyLanding x.1.id x.2

/-- The engines that held ports present commands to. -/
def State.presentedTo (s : State) : List EngineId :=
  (s.partsUsed.flatMap fun n =>
    let p := s.partAt n
    [p.p0, p.p1].filterMap fun q => match q.pres with
      | some x => (s.commandOf x.1).map (·.1)
      | none => none).eraseDups

/-- Steps of a bay at its period boundary: phases that end, and changes of the grant. -/
def State.bayDue (s : State) (k : Nat) : List Instr :=
  let y := s.bay k
  (if s.now / 200000 != y.slice then [.sliceBoundary k] else [])
  ++ (if y.droop.isSome then [.droopStretchEnd k, .droopWindowEnd k] else [])
  ++ ((List.range 4).filter fun c => ((y.cores.getD c {}).freeze == 1)).map (fun c => .correctionFreezeEnd (4 * k + c))
  ++ (if s.runs k && y.granted != s.limit k then [.grantChange k] else [])
  ++ if y.running < y.granted && targetOf y.granted ≤ y.rail then [.clockSwitch k] else []

/-- Links that fail in this ms: a ring's first, or that of the surviving ring (26 R439, R440). -/
def State.linkSteps (s : State) : List Instr :=
  (List.range 2).flatMap fun k => ((List.range 8).filter (s.linkFails k)).map fun f =>
    if (s.ring (1 - k)).up then .ringLinkFail k f else .ringSecondLinkFail k f

/-- The modules that this one has to do with: those asked or answering, waiting here or waited on, of a pacing group, or with a plane down. -/
def State.peers (s : State) : List Nat :=
  (s.outReqs.map (·.mod) ++ s.heard.map (·.1) ++ s.farDown.map (·.1) ++ s.frames.flatMap (fun f => f.waiters.filterMap (·.peer))
    ++ s.paces.flatMap (·.members) ++ s.allBoards.flatMap fun b => b.rgates.filterMap fun g => match s.rgateAt b g with
      | .ok (.peer m _) => some m
      | _ => none).eraseDups

/-- Modules that are lost now (26 R445). DESIGN CHOICE: log 88. -/
def State.lossSteps (s : State) : List Instr := (s.peers.filter s.losesPeer).map .peerLost

/-- Steps whose moment has come: leases, the host link's 10 ms, rails that have held, pacing windows, links and peers (16 R346, R348, 26 R439, R445,
R449, R455). -/
def State.timeouts (s : State) : List Instr :=
  s.linkSteps ++ s.lossSteps ++
  (if s.capEnd.isSome then [.capLeaseExpiry] else [])
  ++ (if s.linkLost.isSome then [.linkLossTimeout] else [])
  ++ ((List.range 32).filter fun k => (s.bay k).stopped).map .bayRestart
  ++ s.paces.map fun p => .paceWindowEnd p.num

/-- The boards without lanes whose turn it is, in ascending order of board slot number (02 R35). -/
def State.retirees (s : State) : List Board :=
  inOrder (fun a b => decide (a.slotIdx ≤ b.slotIdx)) (s.allBoards.filter fun b => b.leaves && s.retireTurn b)

/-- The board overruns in this tick: at once, unless its next bundle traps; then once its partition has nothing more to issue, for a trap of that
bundle in the tick comes first. An overrun that fell before a freeze comes in the first tick back, ahead of any bundle (25 R434). -/
def State.overrunDue (s : State) (b : Board) : Bool :=
  match s.overran b with
  | some r => r.fallen || !((s.nextSlot b).isSome && s.traps b.id && (s.partChoice b.part).isSome)
  | none => false

/-- The first board whose next bundle names a broken peg in a tick in which the board would be ready but for its pegs (21 R374). -/
def State.brokenNow (s : State) : Option Board :=
  s.allBoards.find? fun b => b.brokenMask != 0 && s.resident b && (s.partAt b.part).ticking
    && match (s.nextSlot b).bind fun x => (b.slotOf x).path with
      | some p => (s.front b p.pc).wait &&& b.brokenMask != 0
      | none => false

/-- Every step that is due, in order, but for landings. -/
def State.dues (s : State) : List Instr :=
  s.timeouts
  ++ ((s.grids.filter fun g => !g.runnable && !g.aborted).map fun g => .dependenceSatisfied g.uid)
  ++ ((s.launches.filter (·.waiting.isSome)).map fun r => .dependenceWatchTimeout r.id)
  ++ (s.allBoards.flatMap fun b => ([false, true].filter fun x => ((b.slotOf x).park.map s.pollDue).getD false).map fun x => .bindParkPoll b.id x)
  ++ ((s.allBoards.filter fun b => b.rgates.any s.phaseDue).map fun b => .gateWaiterPoll b.id)
  ++ ((s.routeCmds.filter s.combineDue).map fun c => .gateWaiterPoll c.id)
  ++ ((s.allBoards.filter s.overrunDue).map fun b => .overrun b.id)
  ++ s.presentedTo.map .engineCommandAccept
  ++ s.retirees.flatMap (fun b => [.boardRetire b.id, .retire b.id])
  ++ (List.range 32).flatMap s.bayDue

/-! ### Steps that may come about -/

/-- A failure of an operation as a step. -/
def failStep (r : OpRef) (f : Nat × Nat) : Instr := .operationFail r (BitVec.ofNat 8 f.1) (BitVec.ofNat 64 f.2)

/-- Steps of an operation of a board's memory path. -/
def State.opSteps (s : State) (b : Board) (o : MemOp) : List Instr :=
  (List.range o.lines.length).flatMap (fun k => [.homeWritePerformed b.id o.id k, .memoryLineReturn (.acc b.id o.id k) (.ok [])])
  ++ (if o.lines.isEmpty then [.memoryLineReturn (.acc b.id o.id 0) (.ok [])] else [])
  ++ (match o.space with | .scr => [.scratchpadWave b.id o.id] | .glob => [.l1StorageTimeout b.id o.id])
  ++ (match o.kind with | .arm _ => [.watchArmComplete b.id o.id] | _ => [])
  ++ ((match o.kind with | .arm _ => if o.fail.isSome then s.opFailure b o else s.armFailure b o | _ => s.opFailure b o).toList).map
      (failStep (.acc b.id o.id))

/-- Steps of a board. -/
def State.boardSteps (s : State) (b : Board) : List Instr :=
  b.path.flatMap (s.opSteps b)
  ++ b.rgates.flatMap (fun g => .remoteGateArrival g.id :: ((s.gateFailure b g).toList).map (failStep (.acc b.id g.id)))
  ++ (if b.rgates.isEmpty then [] else [.gateWaiterPoll b.id])
  ++ (if b.slotA.fetching then [.bundleFetch b.id false] else []) ++ (if b.slotB.fetching then [.bundleFetch b.id true] else [])
  ++ (if b.slotA.park.isSome then [.bindParkPoll b.id false] else []) ++ (if b.slotB.park.isSome then [.bindParkPoll b.id true] else [])
  ++ (match b.frozen with | some f => if f.held then [.pagingService b.id] else [] | none => [])

/-- Steps of a core's copy commands. -/
def State.copySteps (s : State) (c : Cmd) : List Instr :=
  .copyCommandComplete c.core c.id :: ((c.plan c.tab).gates.map fun g => .cpbGateArrival c.core c.id g.1)
  ++ ((s.copyFailure c).toList).map (failStep (.copy c.core c.id))

/-- Steps of a frame's route commands. -/
def State.routeSteps (s : State) (f : Nat) (c : Cmd) : List Instr :=
  [.routeCommandComplete f c.id, .xchgWaitEnd f c.id, .combineGateWaitEnd f c.id] ++ (if c.waiting then [.gateWaiterPoll c.id] else [])
  ++ (match c.instr with | .routeScatter .. => (List.range c.ndev).map fun d => .scatterArrival f c.id d | _ => [])
  ++ ((s.routeFailure f c.id).map fun r => failStep (.route f c.id) r.2.2).toList

/-- Steps of a frame's engines. -/
def State.engineSteps (s : State) : List Instr :=
  let cores := ((s.allCmds.filter fun c => cmdPath c.instr == 3).map (·.core)).eraseDups
  (s.allCmds.filter fun c => cmdPath c.instr == 2).flatMap s.copySteps
  ++ cores.flatMap (fun k => .matrixCommandComplete k ::
      ((s.failMatrix k).map fun r => failStep (.matrix k r.1.id) (r.2.1, r.2.2.1)).toList)
  ++ (s.allCmds.filter fun c => cmdPath c.instr == 4).flatMap fun c => s.routeSteps (c.core / 16) c

/-- One of several, as the machine chooses; none of none. -/
def pick {α : Type} (ctr : Nat) : List α → List α
  | [] => []
  | [x] => [x]
  | x :: t => (((x :: t)[Config.place ctr (t.length + 1) % (t.length + 1)]?).toList)

/-- Bays in which the work of a grid may run. -/
def State.baysFor (s : State) (g : Grid) : List Nat := (List.range 32).filter (s.claimHolds g)

/-- Steps that create the bents of a grid. -/
def State.gridSteps (s : State) (g : Grid) : List Instr :=
  if !s.wants g then []
  else (s.baysFor g).flatMap fun k =>
    (pick s.freeCtr (s.groupPlaces k [] (List.replicate g.nextCount g.block.need))).map fun ps => .bentCreate g.uid ps

/-- Steps that move a bent. -/
def State.bentSteps (s : State) (x : Bent) : List Instr :=
  match s.grid? x.grid with
  | none => []
  | some g =>
    let xs := s.groupBents x
    let ns := xs.map fun _ => g.block.need
    if x.away then
      (s.baysFor g).flatMap fun k => (pick s.freeCtr (s.groupPlaces k [] ns)).map fun ps => .bentRestore x.uid ps
    else match xs.mapM (·.moving) with
      | some ps => [.bentRestore x.uid ps, .migrationAbandon x.uid]
      | none =>
        [.bentSwitchOut x.uid]
        ++ if (s.bay x.bay).warm then
            ((s.baysFor g).filter (· != x.bay)).flatMap fun k =>
              (pick s.freeCtr (s.groupPlaces k [] ns)).map fun ps => .thermalMigration x.uid ps
          else []

/-- Steps of a frame's watch table and rings. -/
def State.watchSteps (s : State) (f : Nat) (w : Watch) : List Instr :=
  match w.pend with
  | none => []
  | some _ =>
    .recordEligible f w.idx :: (s.baysFor (w.claim f)).flatMap fun k =>
      (pick s.freeCtr (s.placesIn [] k (w.claim f).block.need)).map fun p => .handlerStart f w.idx p

/-- Steps by which work enters. -/
def State.workSteps (s : State) : List Instr :=
  (if s.bestWaiting.isSome then (List.range 32).map .queueSlotFill else [])
  ++ (s.mapped.map fun m => .queueBlockAccept m.2)
  ++ s.launches.flatMap (fun r =>
    [.launchAccept r.id, .graphInstanceAccept r.id, .dependenceWatchTimeout r.id]
    ++ ((s.launchFailure r).map fun x => failStep (.launch r.id) (x.2.cause, x.2.addr.getD r.addr)).toList)
  ++ s.graphs.flatMap (fun g => (List.range g.nodes.length).map fun n => .graphNodeReady g.id n)
  ++ s.grids.flatMap s.gridSteps ++ s.bents.flatMap s.bentSteps
  ++ (List.range s.frames.length).flatMap fun f => (s.frame f).watches.flatMap (s.watchSteps f)

/-- The identifier that the module picks for a new context: any that no live one holds (17 R355). -/
def State.freeCtxid (s : State) : BitVec 16 :=
  let k := Config.choose s.freeCtr 65535
  ((List.range 257).map fun n => BitVec.ofNat 16 (1 + (k + n) % 65535)).find? (fun c => s.ctxs.all (·.ctxid != c)) |>.getD 0

/-- The completion of a function's mailbox command (17 R355). What the target module of a CTX.MOVE answers is a free value. -/
def State.mailSteps (s : State) (fn : Nat) : List Instr :=
  if !(s.fn fn).mbBusy then []
  else match s.operand fn 0 2 with
    | 1 => [.ctxCreate fn s.freeCtxid]
    | 2 => [.ctxDestroy fn]
    | 3 => [.capSet fn]
    | 4 => [.stepRead fn]
    | 5 => [.ctxMove fn (if Config.chooseBit s.freeCtr then some (Config.freeWord s.freeCtr) else none)]
    | _ => [.mailboxUnassignedCode fn]

/-- The start, and the rest of one in early service; which frames finish later is not stated (17 R359, R360). -/
def State.startSteps (s : State) : List Instr :=
  if (s.rails && s.late.isEmpty) || s.down then []
  else [.powerOn { fails := Config.bringUp s.freeCtr, late := (List.range 8).filter (Config.choose s.freeCtr 256).testBit }]

/-- Steps of the module as a whole. -/
def State.moduleSteps (s : State) : List Instr :=
  s.startSteps ++ (List.range s.fns.length).flatMap s.mailSteps
  ++ ((List.range s.fns.length).filter fun f => (s.fn f).tibusy.isSome).map .tlbInvalidateComplete
  ++ ((List.range 32).flatMap fun k =>
    let y := s.bay k
    if y.running < y.granted then [.clockSwitch k] else [])
  ++ (s.wakes.map fun w => .gateWake w)
  ++ (List.range s.rings.length).flatMap fun k => (s.ring k).retry.flatMap fun r =>
    if 2 ≤ r.2.2.refusals then [.ringSlotResend k r.1 r.2.1 r.2.2]
    else [.ringSlotArrival k r.1 r.2.1 r.2.2 false false, .ringSlotArrival k r.1 r.2.1 r.2.2 true false,
      .ringSlotArrival k r.1 r.2.1 r.2.2 false true]

/-- Bents that are forced out: not while a bundle has still to issue in this tick (21 R381), and before time passes (13 R290). -/
def State.forceSteps (s : State) (issue : Bool) : List Instr :=
  if issue then [] else ((s.bents.filter fun x => !x.away && !x.forced).map fun x => .forcedPreemption x.uid).filter s.can

/-- Every step of the device itself that can come about now, apart from issue and the clocks. -/
def State.async (s : State) : List Instr :=
  (s.allBoards.flatMap s.boardSteps ++ s.engineSteps ++ s.workSteps ++ s.moduleSteps).filter s.can

/-! ### The next step -/

/-- What the module does next. -/
inductive Todo
  /-- A step of the device or its surroundings. -/
  | event (i : Instr) (s : State)
  /-- The slots of a bundle in their order, then its end; ticks of its bay are of this length. -/
  | bundle (is : List Instr) (period : Nat) (s : State)
  /-- Nothing but time passes, or a step of the surroundings could not come about. -/
  | idle (s : State)
  | stop
deriving DecidableEq

/-- One of the things that may come next. -/
inductive Item
  | issue (part : Nat) (one : Bool) (board : Nat)
  | ev (i : Instr)
  /-- Wall time passes. -/
  | wait (w : Nat)
deriving DecidableEq, Repr

/-- The trap of a bundle as a step (21 R369). -/
def trapInstr (board : Nat) (t : Trap) : Instr :=
  let slot : TrapSlot := match t.slot with
    | 0 => .vec
    | 1 => .mem
    | 2 => .cmx
    | 3 => .ctl
    | _ => .none
  if t.cls == clsWindow then .window slot t.code t.addr
  else if t.cls == clsIllegal then .illegal slot t.code t.addr
  else if t.cls == clsPriv then .priv slot t.code t.addr
  else if t.cls == clsBudget then .budget slot t.code t.addr
  else if t.cls == clsStack then .stack slot t.code t.addr
  else if t.cls == clsMachine then .machine slot (t.code.extractLsb' 0 8) (t.code.extractLsb' 8 8) (t.code.extractLsb' 16 16)
  else .broken board

/-- The trap of a bundle that names a broken peg, taken in the first tick in which its board is ready but for its pegs (21 R374): the lowest class
that holds for it (R370). -/
def State.brokenTrap (s : State) : Option Todo := do
  let b ← s.brokenNow
  let (t, b) ← s.present b.id
  let f ← t.frontTrap b
  some (.event (trapInstr b.id f) t)

/-- The steps of a bundle: its slots in order, and the switch of a switch point, which a TRAP or an ERET follows (05 R91, 16 R335). -/
def State.bundleSteps (s : State) (b : Board) (is : List Instr) : List Instr :=
  if (s.switchOf b).isNone then is
  else
    let last (i : Instr) : Bool := match i with
      | .trap _ | .eret => true
      | _ => false
    is.filter (fun i => !last i) ++ [.switchPoint] ++ is.filter last

/-- A port's bundle issues: its trap, or its slots (13 R293, 21 R369). -/
def State.issueFrom (s : State) (n : Nat) (one : Bool) (id : Nat) : Todo :=
  match s.present id with
  | none => .idle s
  | some (t, b) =>
    match t.frontTrap b with
    | some f => .event (trapInstr id f) (t.clearPort n one id 0 0)
    | none =>
      let period := periodOf (s.bay (n / 48)).running
      match t.front b t.cur.pc with
      | .bundle w =>
        let x := b.start (w.extractLsb' 5 8)
        let is := slotsOf w
        let t : State := { t with bd := some x }
        .bundle (t.bundleSteps x is) period
          (t.leavePort n one id (((decodeBundle w).vec.isSome).toNat * ((is.find? fun i => slotNumOf i == 0).map occupancy).getD 0) (x.bankHold is))
      | .bind => .bundle [.bindBundle] period (t.leavePort n one id 0 0)
      | _ => .idle (t.clearPort n one id 0 0)

/-- The clocked bay whose boundary comes first. -/
def State.nextBay (s : State) : Option Nat :=
  s.running.foldl (fun best k => match best with
    | none => some k
    | some j => if (s.bay k).nextEdge < (s.bay j).nextEdge then some k else some j) none

/-- The wall time at which TIME reaches a count, but for slewing. -/
def State.wallOf (s : State) (t : Nat) : Nat := s.wall + (6552 * t - s.time)

/-- Wall times at which something that only time brings about comes due, while no bay is clocked. -/
def State.deadlines (s : State) : List Nat :=
  s.inputs.map (·.at_) ++ s.capEnd.toList
  ++ ((List.range 32).filter fun k => (s.bay k).stopped).map (fun k => (s.bay k).heldFrom + 6552000000)
  ++ (if s.linkReset then [] else s.linkLost.toList.map fun t => s.wallOf (t + 10000000))
  ++ s.paces.map fun p => s.wallOf (1000000 * (p.window + 1))

/-- Time passes to the next deadline while no bay is clocked. -/
def State.idleOn (s : State) : Todo :=
  match ascending (s.deadlines.filter (s.wall < ·)) with
  | [] => .stop
  | w :: _ => .idle (s.elapse w)

/-- One of the items, as the machine chooses. DESIGN CHOICE: log 6. -/
def State.choose (s : State) : List Item → Todo
  | [] => s.idleOn
  | [.issue n one id] => s.issueFrom n one id
  | [.ev i] => .event i s.free
  | [.wait w] => .idle (s.elapse w)
  | l =>
    match l[Config.choose s.freeCtr l.length % l.length]? with
    | some (.issue n one id) => s.free.issueFrom n one id
    | some (.ev i) => .event i s.free
    | some (.wait w) => .idle (s.elapse w).free
    | none => .idle s.free

/-- The next boundary of a bay, or the moment before it at which a step of the surroundings comes. -/
def State.nextEdge (s : State) : List Item :=
  (s.nextBay.toList.filter fun k => s.can (.coreClockPeriod k)).map fun k => match s.inputs with
    | x :: _ => if x.at_ < (s.bay k).nextEdge then .wait x.at_ else .ev (.coreClockPeriod k)
    | [] => .ev (.coreClockPeriod k)

/-- What may come next when nothing is due: the next issue of the current periods, or else the next boundary; and the device's own steps. -/
def State.whatMayCome (s : State) : Todo :=
  let (s, d) := s.dueIssue
  let clock := match d with
    | some (n, one, id) => [Item.issue n one id]
    | none => s.nextEdge
  match s.forceSteps d.isSome with
  | i :: _ => .event i s
  | [] => s.choose (clock ++ s.async.map .ev)

/-- A step of the surroundings whose time has come; it is dropped when it cannot come about. DESIGN CHOICE: log 3. -/
def State.outside (s : State) : Option Todo :=
  match s.inputs with
  | [] => none
  | x :: t =>
    if s.wall < x.at_ then none
    else
      let s := { s with inputs := t }
      some (if s.can x.ev then .event x.ev s else .idle s)

/-- What the module does next. -/
def State.todo (s : State) : Todo :=
  match s.outside with
  | some t => t
  | none =>
    match s.landings.find? s.can, s.brokenTrap with
    | some i, _ => .event i s
    | none, some t => t
    | none, none =>
      match s.dues.find? s.can with
      | some i => .event i s
      | none => s.whatMayCome

/-! ### Taking it -/

/-- The steps of a bundle one after the other. -/
def runSlots : List Instr → State → Out
  | [], s => .next s
  | i :: t, s =>
    match exec i s with
    | .next s => runSlots t s
    | o => o

/-- The state as it stands before the next step. -/
def settled : Out → Out
  | .next s => .next s.advance
  | o => o

/-- What the module does next, done. -/
def Todo.take : Todo → Out
  | .event i s => settled (exec i s)
  | .bundle is period s =>
    match runSlots is s with
    | .next t => .next (t.endBundle is period).advance
    | o => o
  | .idle s => .next s.advance
  | .stop => .refused .quiet

end Sys2Proof.Machine
end

