-- ==== Sys2Proof/Machine/Probe.lean ====
section
/-!
DEFINITION. A bundle put where the module fetches next: at the index of the board that issues next, or in a program loaded from outside, one
grid of one bent of one board (DESIGN CHOICE, log 41).
-/
namespace Sys2Proof.Machine

/-- The bytes of the bundle that holds a control-slot word, lowest address first (05 R88). -/
def fetchBytes (w : Nat) : List Byte := bundleBytes (ctlBundle (BitVec.ofNat 32 w))

/-- Physical address of the loaded program's level-3 table; the level-2 table follows at 4 KiB, the code at 64 KiB. -/
def probeRoot : Nat := 0x10000
/-- Bundle index of the loaded program. -/
def probeCode : Nat := 0x1000

/-- The bundle written at a board's next index. -/
def State.placeAt (s : State) (id w : Nat) : State :=
  match s.present id with
  | none => s
  | some (t, b) =>
    match s.translate b.env.ctx (32 * t.cur.pc.toNat) .x with
    | .ok (.loc a) => { s with mem := s.mem.write a (fetchBytes w) }
    | _ => s

/-- The tables of the loaded program: one page of 1 GiB at 0 with R, W and X. -/
def probeTables : Mem := Mem.write (Mem.write [] probeRoot (leBytes 8 (probeRoot + 0x1001))) (probeRoot + 0x1000) (leBytes 8 0x1F)

/-- The grid of the loaded program. -/
def probeGrid : Grid :=
  { uid := 1, gridid := 1, ctx := 1, origin := .board 0, runnable := true, nextBent := 1, rank := 0
    block := { code := BitVec.ofNat 48 probeCode, extent := 1, boards := 1, bud := 0x88, sbud := 15, acc := 16, scr := 1024, cbud := 8
               param := BitVec.ofNat 64 probeCode }
    codebase := BitVec.ofNat 48 probeCode, nbun := 0x10000, entry := BitVec.ofNat 48 probeCode }

/-- A context, its tables and the code, and one board in its place: a program loaded from outside. -/
def State.load (s : State) (w : Nat) : State :=
  let c : Ctx :=
    { ctxid := 1, fn := 0, window := 0, root := BitVec.ofNat 64 probeRoot, frames := [0], reach := 1, features := featureWord }
  let t : State := { s with nextUid := 3 }
  let b := newBoard t probeGrid 2 0 0 0 0 false
  let frames := modAt 0 (fun f => { f with
    inService := true, bays := f.bays.map fun y => { y with lvlmax := 1, nextEdge := 6552 } }) s.frames
  let bent : Bent :=
    { uid := 2, grid := 1, idx := 0, cores := [0], slots := [0], boards := [3], gates := List.replicate 16 { target := some 1 } }
  let s : State := { s with
    rails := true, ctrl := true, mem := Mem.write probeTables (32 * probeCode) (fetchBytes w), ctxs := [c], grids := [probeGrid]
    bents := [bent], boards := [{ b with priv := true }], nextUid := 4, frames := frames }
  s.modPart 0 fun p => { p with ticking := true }

end Sys2Proof.Machine
end

