-- ==== Sys2Proof/Machine/Step.lean ====
section
/-!
DEFINITION. One step of the module, and a word placed where it fetches next.
-/
namespace Sys2Proof.Machine

/-- One step: what comes next, done, and what goes on by itself after it. -/
def step (s : State) : Host.Outcome State Fault Refusal := s.todo.take

/-- The bundle whose control slot is the word `w` stands where the module fetches next: at the index of the board that issues next, or, where
none does, in a program loaded from outside (DESIGN CHOICE, log 41). The table gives control-slot rows 32 bits. -/
def State.withFetchWord (s : State) (_nbits w : Nat) : State :=
  match s.dueIssue.2 with
  | some (_, _, id) => s.placeAt id w
  | none => s.load w

end Sys2Proof.Machine
end

