-- ==== Sys2Proof/Safety.lean ====
section
/-!
DEFINITION. The terms in which claims about the module are made: memory in its canonical form, what a step leaves alone, and what it means
that an instruction of a slot completes with a result.
-/
namespace Sys2Proof.Machine

/-! ### Invariants -/

/-- Local memory and host memory stand in their canonical form: addresses strictly rising, no byte listed that an unlisted address reads as. -/
def State.memOk (s : State) : Prop := s.mem.wf = true ∧ s.hostMem.wf = true

/-! ### What stays -/

/-- Two boards differ at most in their window records, their pending destinations and their results in flight: every register, latch, peg,
path, stack entry, clock and memory-path operation is the same. -/
def Board.sameButFlight (b c : Board) : Prop :=
  c = { b with
    vwins := c.vwins, pending := c.pending, pipe := c.pipe
    slotA := { b.slotA with wins := c.slotA.wins, mine := c.slotA.mine }
    slotB := { b.slotB with wins := c.slotB.wins, mine := c.slotB.mine } }

/-- A step has changed the board in focus alone, and of it only what `Board.sameButFlight` lets change: memory, every other board, every
context, queue, engine and register of the module is the same. -/
def State.flightOnly (s : State) (b : Board) (t : State) : Prop :=
  ∃ c, t = { s with bd := some c } ∧ b.sameButFlight c

/-- A step has changed no board but the one in focus, and nothing else but the bundle in issue. -/
def State.focusOnly (s t : State) : Prop := t = { s with bd := t.bd, cur := t.cur }

/-! ### Completing -/

/-- The instruction acts on board `b`, and none of the conditions of 22 R384 to R399 keeps it from its effect. -/
def State.clear (s : State) (b : Board) (i : Instr) : Prop := s.bd = some b ∧ judge s b i = none

/-- The board with the windows and pending destinations of an instruction noted (03 R53). -/
def State.noted (s : State) (b : Board) (i : Instr) : Board := b.note s.cur.slotB s.cur.mask i

/-- The flags of a result are those that its active lanes raise together (22 R401). -/
def State.raisesIn (s : State) (flags : Word) (f : Nat → Word) : Prop :=
  ∀ k, flags.getLsbD k = true ↔ ∃ l, l < 128 ∧ s.cur.mask.getLsbD l = true ∧ (f l).getLsbD k = true

/-- Whenever the instruction is clear it completes, and its result leaves for operand `d` with latency `lat`, raising no flag (22 R401): `f l` in
each active lane `l`. -/
def givesLanes (s : State) (b : Board) (i : Instr) (d : Opd) (lat : Nat) (f : Nat → Word) : Prop :=
  s.clear b i → ∃ vals,
    exec i s = .next { s with bd := some ((s.noted b i).outV s.cur.slotB s.cur.mask d lat vals 0) }
    ∧ ∀ l, l < 128 → s.cur.mask.getLsbD l = true → laneAt vals l = f l

/-- The same, bit by bit: bit `k` of the result in active lane `l` is `g l k`. -/
def givesBits (s : State) (b : Board) (i : Instr) (d : Opd) (lat : Nat) (g : Nat → Nat → Bool) : Prop :=
  s.clear b i → ∃ vals,
    exec i s = .next { s with bd := some ((s.noted b i).outV s.cur.slotB s.cur.mask d lat vals 0) }
    ∧ ∀ l k, l < 128 → s.cur.mask.getLsbD l = true → k < 32 → (laneAt vals l).getLsbD k = g l k

/-- The same, with the flags that the result raises: those of the active lanes together (22 R401). -/
def givesFloat (s : State) (b : Board) (i : Instr) (d : Opd) (lat : Nat) (f : Nat → Res) : Prop :=
  s.clear b i → ∃ vals flags,
    exec i s = .next { s with bd := some ((s.noted b i).outV s.cur.slotB s.cur.mask d lat vals flags) }
    ∧ (∀ l, l < 128 → s.cur.mask.getLsbD l = true → laneAt vals l = (f l).val)
    ∧ s.raisesIn flags fun l => (f l).flags

/-- A signed or an unsigned number in 32 bits. -/
def numOf (uns : Bool) (x : Word) : Int := if uns then x.toNat else x.toInt

/-- A comparison of integers; ORD and UNO are none. -/
def Cond.holds (c : Cond) (x y : Int) : Bool :=
  match c with
  | .eq => x = y
  | .ne => x ≠ y
  | .lt => x < y
  | .le => x ≤ y
  | .gt => y < x
  | .ge => y ≤ x
  | .ord | .uno => false

/-- Whenever the instruction is clear it completes, and its result leaves for mask register `d`: bit `l` is `p l` in each active lane `l`, which raises
the flags `f l` (22 R401). -/
def givesTest (s : State) (b : Board) (i : Instr) (d : BitVec 3) (lat : Nat) (p : Nat → Bool) (f : Nat → Word) : Prop :=
  s.clear b i → ∃ v flags,
    exec i s = .next { s with bd := some ((s.noted b i).outM s.cur.slotB s.cur.mask d lat v flags) }
    ∧ (∀ l, l < 128 → s.cur.mask.getLsbD l = true → v.getLsbD l = p l)
    ∧ s.raisesIn flags f

/-- The same, raising no flag. -/
def givesMask (s : State) (b : Board) (i : Instr) (d : BitVec 3) (lat : Nat) (p : Nat → Bool) : Prop :=
  s.clear b i → ∃ v,
    exec i s = .next { s with bd := some ((s.noted b i).outM s.cur.slotB s.cur.mask d lat v 0) }
    ∧ ∀ l, l < 128 → s.cur.mask.getLsbD l = true → v.getLsbD l = p l

/-- Whenever the instruction is clear it completes, and the word `w` leaves for uniform register `d` with latency `lat` and these flags. -/
def givesUni (s : State) (b : Board) (i : Instr) (d : BitVec 9) (lat : Nat) (w flags : Word) : Prop :=
  s.clear b i → exec i s = .next { s with bd := some ((s.noted b i).emit
    { dest := .s d.toNat, slotB := s.cur.slotB, lanes := allLanes, rem := lat, sval := w.setWidth 128, flags := flags }) }

/-- Whenever the instruction is clear it completes, and the word `w` leaves as a control-slot result for uniform register `d` (09 R190). -/
def givesCtl (s : State) (b : Board) (i : Instr) (d : BitVec 9) (w : Word) : Prop :=
  s.clear b i → exec i s = .next { s with bd := some ((s.noted b i).outC s.cur.slotB (.s d.toNat) (w.setWidth 64)) }

/-- The same with 64 bits for the pair whose low half is register `n`. -/
def givesPair (s : State) (b : Board) (i : Instr) (n : Nat) (w : DWord) : Prop :=
  s.clear b i → exec i s = .next { s with bd := some ((s.noted b i).outC s.cur.slotB (.pair n) w) }

/-- Whenever the instruction is clear it completes, and the state is then `t` of the noted board. -/
def completes (s : State) (b : Board) (i : Instr) (t : Board → State) : Prop :=
  s.clear b i → exec i s = .next (t (s.noted b i))

/-- Whenever the instruction is clear it completes, and `P` holds of the state it leaves and of the board in focus there; no other board,
and nothing else of the module but the bundle in issue, has changed. -/
def turns (s : State) (b : Board) (i : Instr) (P : State → Board → Prop) : Prop :=
  s.clear b i → ∃ t c, exec i s = .next t ∧ t.bd = some c ∧ s.focusOnly t ∧ P t c

/-- Whenever the instruction is clear it completes and enters the operation `o` at the end of the board's memory path (07 R160), with the
next number, the board's stop behind a failure (21 R374) where it reaches a byte, its scope as a split bent has it (02 R26), and its 128-byte lines,
translated now, none where it has failed (07 R143), whose leaves the TLBs take (14 R296); the requests of the lines are charged to the board's context
(16 R341); beyond that the noted board has changed in its pegs alone, and of the peg it names the count is one higher. -/
def issues (s : State) (b : Board) (i : Instr) (o : MemOp) : Prop :=
  let lines := if o.space = .glob ∧ o.fail = none then (linesOfLanes o.lanes).map (s.placeLine b.env.ctx o.kind) else []
  s.clear b i → ∃ c pegs,
    exec i s = .next (State.charge (State.fillLines { s with bd := some c, nextUid := s.nextUid + 1 } b.env.ctx lines) b.env.ctx (b.core / 4) 2
      lines.length)
    ∧ c = { s.noted b i with
        pegs := pegs
        path := b.path ++ [{ o with
          id := s.nextUid, insn := insnOf i, peg := pegOf i, epoch := b.epoch, t0 := b.tick.toNat, scope := b.scopeFor o.scope
          stopped := b.stopped && !o.suppressed, lines := lines }] }
    ∧ ∀ k : BitVec 3, k.toNat < b.pegs.length →
        (c.peg k.toNat).cnt = (b.peg k.toNat).cnt + if pegOf i = some k then 1 else 0

/-- The effect of the instruction is a result of fixed latency, or nothing: the vector slot (06 R112), the uniform operations (09 R190), records, mpc,
system registers, TIME, TICK and NOP. -/
def givesResult (i : Instr) : Bool :=
  match i with
  | .brset .. | .brget .. | .setmpc .. | .getsys .. | .setsys .. | .time .. | .tick .. | .nop
  | .sadd .. | .ssub .. | .smul .. | .smulh .. | .sand .. | .sor .. | .sxor .. | .sshl .. | .sshr .. | .ssar .. | .smin .. | .smax ..
  | .sminu .. | .smaxu .. | .sslt .. | .ssltu .. | .saddImm .. | .ssubImm .. | .smulImm .. | .smulhImm .. | .sandImm .. | .sorImm ..
  | .sxorImm .. | .sshlImm .. | .sshrImm .. | .ssarImm .. | .sminImm .. | .smaxImm .. | .sminuImm .. | .smaxuImm .. | .ssltImm ..
  | .ssltuImm .. | .smovl .. | .smovh .. | .dadd .. | .dsub .. | .daddi .. => true
  | _ => slotNumOf i == 0

/-- Instructions of the control slot that act beyond their board at the issue tick: gates, TRIGGER, TRAP and ERET, and LAUNCH, whose release may
perform earlier writes (09 R203). -/
def actsAtOnce : Instr → Bool
  | .barAw .. | .barArr .. | .barWait .. | .barInit .. | .trigger | .trap .. | .eret | .launch .. | .launchG .. => true
  | _ => false

end Sys2Proof.Machine
end

