-- ==== Sys2Proof/Certificates/Slice0/Obligations.lean ====
section
/-!
DEFINITION. The statements for the provers.
-/

open Sys2Proof Sys2Proof.Machine

/-! ### The vector slot -/

/-- 06 R117: MOV, MOVI and SEL complete with their values in the active lanes, latency 4 (R115). -/
def Obligations.MovesAndSelectsComplete : Prop :=
  ∀ (s : State) (b : Board) (d x y : Opd) (c : BitVec 3) (imm : Word),
    givesLanes s b (.mov d x) d 4 (fun l => s.src b x l)
    ∧ givesLanes s b (.movi d imm) d 4 (fun _ => imm)
    ∧ givesLanes s b (.sel d x y c) d 4 (fun l => if (b.mreg c.toNat).getLsbD l then s.src b x l else s.src b y l)

/-- 06 R124, R125: integer sums, products, minima, maxima and comparisons, with the clamp and its flag SAT (22 R400) under SAT. -/
def Obligations.IntegerArithmeticCompletes : Prop :=
  ∀ (s : State) (b : Board) (d x y z : Opd) (md : BitVec 3) (uns : Bool) (c : Cond),
    let A := s.src b x
    let B := s.src b y
    let C := s.src b z
    givesLanes s b (.iadd d x y false uns) d 4 (fun l => A l + B l)
    ∧ givesLanes s b (.isub d x y false uns) d 4 (fun l => A l - B l)
    ∧ givesFloat s b (.iadd d x y true false) d 4 (fun l =>
        let t := (A l).toInt + (B l).toInt
        { val := BitVec.ofInt 32 (max (-2147483648) (min 2147483647 t))
          flags := if t < -2147483648 ∨ 2147483647 < t then 0x20 else 0 })
    ∧ givesFloat s b (.isub d x y true false) d 4 (fun l =>
        let t := (A l).toInt - (B l).toInt
        { val := BitVec.ofInt 32 (max (-2147483648) (min 2147483647 t))
          flags := if t < -2147483648 ∨ 2147483647 < t then 0x20 else 0 })
    ∧ givesFloat s b (.iadd d x y true true) d 4 (fun l =>
        let t := (A l).toNat + (B l).toNat
        { val := BitVec.ofNat 32 (min 4294967295 t), flags := if 4294967295 < t then 0x20 else 0 })
    ∧ givesFloat s b (.isub d x y true true) d 4 (fun l =>
        { val := BitVec.ofNat 32 ((A l).toNat - (B l).toNat), flags := if (A l).toNat < (B l).toNat then 0x20 else 0 })
    ∧ givesLanes s b (.imul d x y) d 6 (fun l => A l * B l)
    ∧ givesLanes s b (.imad d x y z) d 6 (fun l => A l * B l + C l)
    ∧ givesLanes s b (.imulh d x y false) d 6 (fun l => ((A l).signExtend 64 * (B l).signExtend 64).extractLsb' 32 32)
    ∧ givesLanes s b (.imulh d x y true) d 6 (fun l => ((A l).setWidth 64 * (B l).setWidth 64).extractLsb' 32 32)
    ∧ givesLanes s b (.imin d x y uns) d 4 (fun l => BitVec.ofInt 32 (min (numOf uns (A l)) (numOf uns (B l))))
    ∧ givesLanes s b (.imax d x y uns) d 4 (fun l => BitVec.ofInt 32 (max (numOf uns (A l)) (numOf uns (B l))))
    ∧ givesMask s b (.icmp md x y c uns) md 4 (fun l => Cond.holds c (numOf uns (A l)) (numOf uns (B l)))

/-- 06 R126: AND, OR, XOR, NOT, and shifts by `n`, the second operand read as unsigned; a shift of 32 or more gives 0, and of SAR the sign. -/
def Obligations.LogicAndShiftsComplete : Prop :=
  ∀ (s : State) (b : Board) (d x y : Opd),
    let A := s.src b x
    let n := fun l => (s.src b y l).toNat
    givesBits s b (.and d x y) d 4 (fun l k => (A l).getLsbD k && (s.src b y l).getLsbD k)
    ∧ givesBits s b (.or d x y) d 4 (fun l k => (A l).getLsbD k || (s.src b y l).getLsbD k)
    ∧ givesBits s b (.xor d x y) d 4 (fun l k => (A l).getLsbD k != (s.src b y l).getLsbD k)
    ∧ givesBits s b (.not d x) d 4 (fun l k => !(A l).getLsbD k)
    ∧ givesLanes s b (.shl d x y) d 4 (fun l => if n l < 32 then BitVec.ofNat 32 ((A l).toNat * 2 ^ n l) else 0)
    ∧ givesLanes s b (.shr d x y) d 4 (fun l => if n l < 32 then BitVec.ofNat 32 ((A l).toNat / 2 ^ n l) else 0)
    ∧ givesLanes s b (.sar d x y) d 4 (fun l => BitVec.ofInt 32 ((A l).toInt / 2 ^ min (n l) 31))

/-- 06 R127: counts of bits, BREV, and the fields of BFE and BFI. -/
def Obligations.BitFieldsComplete : Prop :=
  ∀ (s : State) (b : Board) (d x y z : Opd),
    let A := s.src b x
    givesLanes s b (.popc d x) d 4 (fun l => BitVec.ofNat 32 ((List.range 32).countP fun k => (A l).getLsbD k))
    ∧ givesLanes s b (.clz d x) d 4 (fun l =>
        BitVec.ofNat 32 (((List.range 32).find? fun k => (A l).getLsbD (31 - k)).getD 32))
    ∧ givesBits s b (.brev d x) d 4 (fun l k => (A l).getLsbD (31 - k))
    ∧ givesBits s b (.bfe d x y z true) d 4 (fun l k =>
        let p := min ((s.src b y l).toNat % 256) 32
        let w := min ((s.src b z l).toNat % 256) (32 - p)
        decide (k < w) && (A l).getLsbD (p + k))
    ∧ givesBits s b (.bfe d x y z false) d 4 (fun l k =>
        let p := min ((s.src b y l).toNat % 256) 32
        let w := min ((s.src b z l).toNat % 256) (32 - p)
        w != 0 && (A l).getLsbD (p + min k (w - 1)))
    ∧ givesBits s b (.bfi d x y z) d 4 (fun l k =>
        let p := min ((s.src b z l).toNat % 256) 32
        let w := min ((s.src b z l).toNat / 256 % 256) (32 - p)
        if p ≤ k ∧ k < p + w then (A l).getLsbD (k - p) else (s.src b y l).getLsbD k)

/-- 06 R118 to R121, R115, 22 R401: binary32 arithmetic under RM, minima and maxima, signs, comparisons and classes, with the flags they raise: FCMP
raises NV for a signalling NaN, and for any NaN under an ordering condition; FABS, FNEG and FCLASS raise none. How a fused multiply-add of an invalid
product and a NaN flags is the model's choice (log 43). -/
def Obligations.Binary32Completes : Prop :=
  ∀ (s : State) (b : Board) (d x y z : Opd) (md : BitVec 3) (rm : RMode) (c : Cond),
    let A := s.fsrc b x
    let B := s.fsrc b y
    let C := s.fsrc b z
    givesFloat s b (.fadd d x y rm) d 6 (fun l => fAdd .f32 rm (A l).toNat (B l).toNat)
    ∧ givesFloat s b (.fsub d x y rm) d 6 (fun l => fSub .f32 rm (A l).toNat (B l).toNat)
    ∧ givesFloat s b (.fmul d x y rm) d 6 (fun l => fMul .f32 rm (A l).toNat (B l).toNat)
    ∧ givesFloat s b (.ffma d x y z rm) d 6 (fun l => fFma .f32 rm (A l).toNat (B l).toNat (C l).toNat)
    ∧ givesFloat s b (.fmin d x y) d 6 (fun l => fMin .f32 (A l).toNat (B l).toNat)
    ∧ givesFloat s b (.fmax d x y) d 6 (fun l => fMax .f32 (A l).toNat (B l).toNat)
    ∧ givesBits s b (.fabs d x) d 6 (fun l k =>
        decide (k ≠ 31) && ((A l).getLsbD k || (decide (k = 22) && Fmt.f32.isNaN (A l).toNat)))
    ∧ givesBits s b (.fneg d x) d 6 (fun l k =>
        ((A l).getLsbD k || (decide (k = 22) && Fmt.f32.isNaN (A l).toNat)) != decide (k = 31))
    ∧ givesTest s b (.fcmp md x y c) md 6 (fun l => fCmp c (A l).toNat (B l).toNat) (fun l =>
        let nan := Fmt.f32.isNaN (A l).toNat || Fmt.f32.isNaN (B l).toNat
        if Fmt.f32.isSNaN (A l).toNat || Fmt.f32.isSNaN (B l).toNat || (nan && (c = .lt || c = .le || c = .gt || c = .ge)) then 1 else 0)
    ∧ givesLanes s b (.fclass d x) d 6 (fun l => fClass (A l).toNat)

/-- 06 R122: the transcendental instructions complete with their lane functions, latency 12, and FSQRT with 14 (R115). -/
def Obligations.TranscendentalsComplete : Prop :=
  ∀ (s : State) (b : Board) (d x : Opd) (rm : RMode),
    let A := s.fsrc b x
    givesFloat s b (.frcp d x) d 12 (fun l => fRcp (A l))
    ∧ givesFloat s b (.frsq d x) d 12 (fun l => fRsq (A l))
    ∧ givesFloat s b (.fexp2 d x) d 12 (fun l => fExp2 (A l))
    ∧ givesFloat s b (.flog2 d x) d 12 (fun l => fLog2 (A l))
    ∧ givesFloat s b (.fsin d x) d 12 (fun l => fSin (A l))
    ∧ givesFloat s b (.fcos d x) d 12 (fun l => fCos (A l))
    ∧ givesFloat s b (.ftanh d x) d 12 (fun l => fTanh (A l))
    ∧ givesFloat s b (.fsqrt d x rm) d 14 (fun l => fSqrt rm (A l).toNat)

/-- 06 R123: the packed instructions act on the two 16-bit elements alone: each half of the result is the format's operation on the halves. -/
def Obligations.PackedHalvesComplete : Prop :=
  ∀ (s : State) (b : Board) (d x y z : Opd) (rm : RMode) (f : Fmt),
    let lo := fun o l => (s.src b o l).toNat % 65536
    let hi := fun o l => (s.src b o l).toNat / 65536
    let both := fun (g h : Res) => ({ val := h.val.setWidth 16 ++ g.val.setWidth 16, flags := g.flags ||| h.flags } : Res)
    givesFloat s b (.hadd2 d x y rm f) d 6 (fun l => both (fAdd f rm (lo x l) (lo y l)) (fAdd f rm (hi x l) (hi y l)))
    ∧ givesFloat s b (.hsub2 d x y rm f) d 6 (fun l => both (fSub f rm (lo x l) (lo y l)) (fSub f rm (hi x l) (hi y l)))
    ∧ givesFloat s b (.hmul2 d x y rm f) d 6 (fun l => both (fMul f rm (lo x l) (lo y l)) (fMul f rm (hi x l) (hi y l)))
    ∧ givesFloat s b (.hfma2 d x y z rm f) d 6 (fun l =>
        both (fFma f rm (lo x l) (lo y l) (lo z l)) (fFma f rm (hi x l) (hi y l) (hi z l)))
    ∧ givesFloat s b (.hmin2 d x y f) d 6 (fun l => both (fMin f (lo x l) (lo y l)) (fMin f (hi x l) (hi y l)))
    ∧ givesFloat s b (.hmax2 d x y f) d 6 (fun l => both (fMax f (lo x l) (lo y l)) (fMax f (hi x l) (hi y l)))

/-- 06 R128, R129, 22 R401: CVT, the codes and the scale word of NARROW in one landing, and QSCALE, each with the flags it raises. -/
def Obligations.ConversionsComplete : Prop :=
  ∀ (s : State) (b : Board) (d x : Opd) (u : BitVec 9) (rm : RMode) (sat fb : Bool) (f t : Fmt),
    givesFloat s b (.cvt d x rm sat t f) d 6 (fun l => convert t f rm sat (if f = .f32 then s.fsrc b x l else s.src b x l))
    ∧ (s.clear b (.narrow d x u rm sat f fb) → ∃ c flags,
        exec (.narrow d x u rm sat f fb) s = .next { s with bd := some (Board.emit c
          { dest := (match d with | .v i n => .v (b.vnum i n) | _ => .none), slotB := s.cur.slotB, lanes := s.cur.mask, rem := 10
            vals := lanesOf fun l => (look l { val := 0 } (s.narrowed b x rm sat fb f (s.scales b x f))).val
            sval := (scaleWord (s.scales b x f)).setWidth 128, dest2 := some u.toNat, dv := [(s.cur.mask, 0)], flags := flags }) }
        ∧ b.sameButFlight c
        ∧ ∀ k, flags.getLsbD k = true ↔ (∃ q ∈ s.scales b x f, q.2.getLsbD k = true)
            ∨ ∃ r ∈ s.narrowed b x rm sat fb f (s.scales b x f), r.2.flags.getLsbD k = true)
    ∧ givesUni s b (.qscale u x f) u 10 (scaleWord (s.scales b x f)) ((s.scales b x f).foldl (fun w v => w ||| v.2) 0)

/-- 06 R130 to R132: values come from other lanes, active or not (R116), and SORT2 orders each pair of lanes. -/
def Obligations.LaneExchangeCompletes : Prop :=
  ∀ (s : State) (b : Board) (d x y : Opd) (key : SortKey) (desc : Bool),
    let A := s.src b x
    let B := fun l => (s.src b y l).toNat
    let K := fun l => if key = .f32 then s.fsrc b x l else s.src b x l
    givesLanes s b (.shflIdx d x y) d 8 (fun l => A (B l % 128))
    ∧ givesLanes s b (.shflUp d x y) d 8 (fun l => if B l % 256 ≤ l then A (l - B l % 256) else A l)
    ∧ givesLanes s b (.shflDown d x y) d 8 (fun l => if l + B l % 256 ≤ 127 then A (l + B l % 256) else A l)
    ∧ givesLanes s b (.shflXor d x y) d 8 (fun l => A (l ^^^ B l % 128))
    ∧ givesLanes s b (.bcast d x y) d 8 (fun l => A (B l % 128))
    ∧ givesLanes s b (.rot d x y) d 8 (fun l => A ((l + B l % 128) % 128))
    ∧ givesLanes s b (.sort2 d x y key desc) d 8 (fun l =>
        let j := B l % 8
        let lo := min l (l ^^^ 2 ^ j)
        let up := if B l / 8 % 2 = 1 ∧ lo / 2 ^ (B l / 16 % 8) % 2 = 1 then desc else !desc
        let least := if sortKeyOf key (K lo) ≤ sortKeyOf key (K (lo ^^^ 2 ^ j)) then K lo else K (lo ^^^ 2 ^ j)
        let greatest := if sortKeyOf key (K lo) ≤ sortKeyOf key (K (lo ^^^ 2 ^ j)) then K (lo ^^^ 2 ^ j) else K lo
        if decide (l = lo) = up then least else greatest)

/-- 06 R133, 22 R401: the values of the active lanes combined in ascending order: those below a lane for the exclusive scan, those up to it for the
inclusive one, all of them for REDUCE; the flags are those of all the steps. -/
def Obligations.ScansComplete : Prop :=
  ∀ (s : State) (b : Board) (d x : Opd) (op : ScanOp),
    let A := fun l => if scanFloat op then s.fsrc b x l else s.src b x l
    let among := fun (p : Nat → Bool) => (((List.range 128).filter fun k => s.cur.mask.getLsbD k && p k).foldl
      (fun acc k => (scanStep op acc (A k)).val) (scanIdentity op))
    let flags := fun l => (scanStep op (among fun k => k < l) (A l)).flags
    givesFloat s b (.scan d x op true) d 14 (fun l => { val := among fun k => k < l, flags := flags l })
    ∧ givesFloat s b (.scan d x op false) d 14 (fun l => { val := among fun k => k ≤ l, flags := flags l })
    ∧ givesFloat s b (.reduce d x op) d 14 (fun l => { val := among fun _ => true, flags := flags l })

/-- 06 R134, R135: votes under the active mask, and the hash of key and counter. -/
def Obligations.VotesAndHashComplete : Prop :=
  ∀ (s : State) (b : Board) (d x y : Opd) (u : BitVec 9) (a : BitVec 3) (q : BitVec 2),
    let V := b.mreg a.toNat &&& s.cur.mask
    givesUni s b (.vote u a .any) u 6 (if V = 0 then 0 else 1) 0
    ∧ givesUni s b (.vote u a .all) u 6 (if V = s.cur.mask then 1 else 0) 0
    ∧ givesUni s b (.vote u a (.bal q)) u 6 (V.extractLsb' (32 * q.toNat) 32) 0
    ∧ givesUni s b (.vote u a .count) u 6 (BitVec.ofNat 32 ((List.range 128).countP fun k => V.getLsbD k)) 0
    ∧ givesUni s b (.vote u a .first) u 6 (BitVec.ofNat 32 (((List.range 128).find? fun k => V.getLsbD k).getD 128)) 0
    ∧ givesLanes s b (.hash d x y) d 10 (fun l =>
        let h := s.src b x l ^^^ s.src b y l * 0x9E3779B9#32
        let h := (h ^^^ h >>> 16) * 0x85EBCA6B#32
        let h := (h ^^^ h >>> 13) * 0xC2B2AE35#32
        h ^^^ h >>> 16)

/-- 06 R136: the mask instructions write the bits of the active lanes, latency 4. -/
def Obligations.MaskLogicCompletes : Prop :=
  ∀ (s : State) (b : Board) (d a c : BitVec 3) (x y : Opd),
    let A := fun l => (b.mreg a.toNat).getLsbD l
    let B := fun l => (b.mreg c.toNat).getLsbD l
    givesMask s b (.mand d a c) d 4 (fun l => A l && B l)
    ∧ givesMask s b (.mor d a c) d 4 (fun l => A l || B l)
    ∧ givesMask s b (.mxor d a c) d 4 (fun l => A l != B l)
    ∧ givesMask s b (.mandn d a c) d 4 (fun l => A l && !B l)
    ∧ givesMask s b (.mnot d a) d 4 (fun l => !A l)
    ∧ givesMask s b (.mmov d a) d 4 (fun l => A l)
    ∧ givesMask s b (.mlane d x y) d 4 (fun l => decide ((s.src b x l).toNat ≤ l ∧ l < (s.src b y l).toNat))
    ∧ givesMask s b (.mbal d x) d 4 (fun l => decide (s.src b x l ≠ 0))

/-! ### The control slot -/

/-- 09 R192: the sixteen uniform operations on two registers, and on a register and the sign-extended 7-bit immediate. -/
def Obligations.UniformOperationsComplete : Prop :=
  ∀ (s : State) (b : Board) (d x y : BitVec 9) (i : BitVec 7),
    let X := b.sreg x.toNat
    givesCtl s b (.sadd d x y) d (let Y := b.sreg y.toNat; X + Y)
    ∧ givesCtl s b (.saddImm d x i) d (let Y := i.signExtend 32; X + Y)
    ∧ givesCtl s b (.ssub d x y) d (let Y := b.sreg y.toNat; X - Y)
    ∧ givesCtl s b (.ssubImm d x i) d (let Y := i.signExtend 32; X - Y)
    ∧ givesCtl s b (.smul d x y) d (let Y := b.sreg y.toNat; X * Y)
    ∧ givesCtl s b (.smulImm d x i) d (let Y := i.signExtend 32; X * Y)
    ∧ givesCtl s b (.smulh d x y) d (let Y := b.sreg y.toNat; (X.signExtend 64 * Y.signExtend 64).extractLsb' 32 32)
    ∧ givesCtl s b (.smulhImm d x i) d (let Y := i.signExtend 32; (X.signExtend 64 * Y.signExtend 64).extractLsb' 32 32)
    ∧ givesCtl s b (.sand d x y) d (let Y := b.sreg y.toNat; X &&& Y)
    ∧ givesCtl s b (.sandImm d x i) d (let Y := i.signExtend 32; X &&& Y)
    ∧ givesCtl s b (.sor d x y) d (let Y := b.sreg y.toNat; X ||| Y)
    ∧ givesCtl s b (.sorImm d x i) d (let Y := i.signExtend 32; X ||| Y)
    ∧ givesCtl s b (.sxor d x y) d (let Y := b.sreg y.toNat; X ^^^ Y)
    ∧ givesCtl s b (.sxorImm d x i) d (let Y := i.signExtend 32; X ^^^ Y)
    ∧ givesCtl s b (.sshl d x y) d (let Y := b.sreg y.toNat; if Y.toNat < 32 then X <<< Y.toNat else 0)
    ∧ givesCtl s b (.sshlImm d x i) d (let Y := i.signExtend 32; if Y.toNat < 32 then X <<< Y.toNat else 0)
    ∧ givesCtl s b (.sshr d x y) d (let Y := b.sreg y.toNat; if Y.toNat < 32 then X >>> Y.toNat else 0)
    ∧ givesCtl s b (.sshrImm d x i) d (let Y := i.signExtend 32; if Y.toNat < 32 then X >>> Y.toNat else 0)
    ∧ givesCtl s b (.ssar d x y) d (let Y := b.sreg y.toNat; X.sshiftRight (min Y.toNat 31))
    ∧ givesCtl s b (.ssarImm d x i) d (let Y := i.signExtend 32; X.sshiftRight (min Y.toNat 31))
    ∧ givesCtl s b (.smin d x y) d (let Y := b.sreg y.toNat; if X.toInt ≤ Y.toInt then X else Y)
    ∧ givesCtl s b (.sminImm d x i) d (let Y := i.signExtend 32; if X.toInt ≤ Y.toInt then X else Y)
    ∧ givesCtl s b (.smax d x y) d (let Y := b.sreg y.toNat; if X.toInt < Y.toInt then Y else X)
    ∧ givesCtl s b (.smaxImm d x i) d (let Y := i.signExtend 32; if X.toInt < Y.toInt then Y else X)
    ∧ givesCtl s b (.sminu d x y) d (let Y := b.sreg y.toNat; if X.toNat ≤ Y.toNat then X else Y)
    ∧ givesCtl s b (.sminuImm d x i) d (let Y := i.signExtend 32; if X.toNat ≤ Y.toNat then X else Y)
    ∧ givesCtl s b (.smaxu d x y) d (let Y := b.sreg y.toNat; if X.toNat < Y.toNat then Y else X)
    ∧ givesCtl s b (.smaxuImm d x i) d (let Y := i.signExtend 32; if X.toNat < Y.toNat then Y else X)
    ∧ givesCtl s b (.sslt d x y) d (let Y := b.sreg y.toNat; if X.toInt < Y.toInt then 1 else 0)
    ∧ givesCtl s b (.ssltImm d x i) d (let Y := i.signExtend 32; if X.toInt < Y.toInt then 1 else 0)
    ∧ givesCtl s b (.ssltu d x y) d (let Y := b.sreg y.toNat; if X.toNat < Y.toNat then 1 else 0)
    ∧ givesCtl s b (.ssltuImm d x i) d (let Y := i.signExtend 32; if X.toNat < Y.toNat then 1 else 0)

/-- 09 R193, R194: SMOVL, SMOVH, and the arithmetic of uniform pairs. -/
def Obligations.UniformMovesAndPairsComplete : Prop :=
  ∀ (s : State) (b : Board) (d : BitVec 9) (i : BitVec 16) (p x y : BitVec 8) (j : BitVec 9),
    givesCtl s b (.smovl d i) d (i.setWidth 32)
    ∧ givesCtl s b (.smovh d i) d (i ++ (b.sreg d.toNat).extractLsb' 0 16)
    ∧ givesPair s b (.dadd p x y) (2 * p.toNat) (b.pair (2 * x.toNat) + b.pair (2 * y.toNat))
    ∧ givesPair s b (.dsub p x y) (2 * p.toNat) (b.pair (2 * x.toNat) - b.pair (2 * y.toNat))
    ∧ givesPair s b (.daddi p x j) (2 * p.toNat) (b.pair (2 * x.toNat) + j.signExtend 64)

/-- 09 R195: a branch that is taken moves slot X to its target with the mask unchanged; one that is not continues at P + 1; LOOP also writes
its register, one less exactly when it branches. -/
def Obligations.BranchesRedirect : Prop :=
  ∀ (s : State) (b : Board) (r : BitVec 9) (p : BitVec 8) (far : BitVec 25) (near : BitVec 16),
    let goes := fun (c : Board) (t : BitVec 48) => (c.slotOf s.cur.slotB).path = some ⟨t, s.cur.mask⟩
    let target := s.cur.pc + near.signExtend 48
    let v := b.sreg r.toNat
    turns s b (.bra far) (fun _ c => goes c (s.cur.pc + far.signExtend 48))
    ∧ turns s b (.brx p) (fun _ c => goes c ((b.pair (2 * p.toNat)).setWidth 48))
    ∧ (v ≠ 0 → turns s b (.brcNz r near) (fun _ c => goes c target))
    ∧ (v = 0 → turns s b (.brcZ r near) (fun _ c => goes c target))
    ∧ (s.cur.done = false → v = 0 → turns s b (.brcNz r near) (fun _ c => goes c (s.cur.pc + 1)))
    ∧ (s.cur.done = false → v ≠ 0 → turns s b (.brcZ r near) (fun _ c => goes c (s.cur.pc + 1)))
    ∧ (1 < v.toNat → turns s b (.loop r near) (fun _ c => goes c target
        ∧ ∃ e ∈ c.pipe, e.dest = .s r.toNat ∧ e.sval = (v - 1).setWidth 128))
    ∧ (s.cur.done = false → v.toNat ≤ 1 → turns s b (.loop r near) (fun _ c => goes c (s.cur.pc + 1)
        ∧ ∃ e ∈ c.pipe, e.dest = .s r.toNat ∧ e.sval = v.setWidth 128))

/-- 02 R30, 09 R196: DIV pushes the JOIN entry and sends the lanes whose condition holds to the target; when some hold and some do not, both
paths get a slot, and the other slot's path goes on the stack beneath the JOIN entry. -/
def Obligations.DivSplitsLanes : Prop :=
  ∀ (s : State) (b : Board) (mk : BitVec 3) (ng : Bool) (toff : BitVec 10) (joff : BitVec 11),
    let cond := if ng then ~~~(b.mreg mk.toNat) else b.mreg mk.toNat
    let yes := s.cur.mask &&& cond
    let no := s.cur.mask &&& ~~~cond
    let T := s.cur.pc + toff.signExtend 48
    let J := s.cur.pc + joff.signExtend 48
    let other := (b.slotOf (!s.cur.slotB)).path
    turns s b (.div mk ng toff joff) (fun _ c =>
      (yes = 0 → c.stack = joinEntry J s.cur.mask false :: b.stack
        ∧ (c.slotOf s.cur.slotB).path = some ⟨s.cur.pc + 1, s.cur.mask⟩ ∧ (c.slotOf (!s.cur.slotB)).path = other)
      ∧ (yes ≠ 0 → no = 0 → c.stack = joinEntry J s.cur.mask false :: b.stack
        ∧ (c.slotOf s.cur.slotB).path = some ⟨T, s.cur.mask⟩ ∧ (c.slotOf (!s.cur.slotB)).path = other)
      ∧ (yes ≠ 0 → no ≠ 0 →
        c.stack = joinEntry J s.cur.mask true :: ((other.map Path.entry).toList ++ b.stack)
        ∧ (c.slotOf s.cur.slotB).path = some ⟨s.cur.pc + 1, no⟩ ∧ (c.slotOf (!s.cur.slotB)).path = some ⟨T, yes⟩))

/-- 02 R31: lanes that reach the JOIN of the top entry arrive there; when all of its lanes have, they go on together after it, and a PATH
entry beneath it takes an empty other slot. The board holds its whole stack. -/
def Obligations.JoinReconverges : Prop :=
  ∀ (s : State) (b : Board) (e : StackEntry) (rest : List StackEntry), b.stack = e :: rest → b.spilled = 0 →
    let other := (b.slotOf (!s.cur.slotB)).path
    (e.arrived ||| s.cur.mask ≠ e.mask → turns s b .join (fun _ c =>
      (c.slotOf s.cur.slotB).path = none ∧ c.stack.length = b.stack.length ∧ c.stack.tail = rest
      ∧ (c.stack.head?.map fun x => (x.arrived, x.mask, x.pc, x.kind)) = some (e.arrived ||| s.cur.mask, e.mask, e.pc, e.kind)))
    ∧ (e.arrived ||| s.cur.mask = e.mask → turns s b .join (fun _ c =>
      (c.slotOf s.cur.slotB).path = some ⟨e.pc + 1, e.mask⟩
      ∧ ((other.isSome = true ∨ (rest.head?.map (·.kind)) ≠ some kindPath) →
          c.stack = rest ∧ (c.slotOf (!s.cur.slotB)).path = other)
      ∧ (∀ p t, other = none → rest = p :: t → p.kind = kindPath →
          c.stack = t ∧ (c.slotOf (!s.cur.slotB)).path = some ⟨p.pc, p.mask⟩)))

/-- 09 R197: CALL pushes a JOIN entry that names its own bundle, over the other slot's path if there is one, and goes to the callee. -/
def Obligations.CallPushesItsJoin : Prop :=
  ∀ (s : State) (b : Board) (off : BitVec 25),
    let other := (b.slotOf (!s.cur.slotB)).path
    turns s b (.call off) (fun _ c =>
      c.stack = joinEntry s.cur.pc s.cur.mask other.isSome :: ((other.map Path.entry).toList ++ b.stack)
      ∧ (c.slotOf s.cur.slotB).path = some ⟨s.cur.pc + off.signExtend 48, s.cur.mask⟩
      ∧ (c.slotOf (!s.cur.slotB)).path = none)

/-- 09 R198, R199, 02 R31, R32: CALLI pushes a JOIN entry over the other slot's path, parts the lanes by their targets in the order of their lowest lanes,
gives the first two groups the slots and pushes the others, the third on top. RET lets its lanes arrive at the highest JOIN entry; then a PATH entry above
is popped, or the call completes. EXIT takes its lanes from every mask and from the board, and the slot takes what comes to the top. JOIN completes with
its flow. For RET and EXIT the board holds its whole stack. -/
def Obligations.StackInstructionsComplete : Prop :=
  ∀ (s : State) (b : Board) (f : Opd),
    let m := s.cur.mask
    let other := (b.slotOf (!s.cur.slotB)).path
    let at_ := fun (c : Board) => (c.slotOf s.cur.slotB).path
    let at' := fun (c : Board) => (c.slotOf (!s.cur.slotB)).path
    turns s b (.calli f) (fun _ c => ∃ gs : List (BitVec 48 × Mask),
      (∀ l, l < 128 → m.getLsbD l = true → ∃ g ∈ gs, g.1 = b.calliTarget f l)
      ∧ (∀ g ∈ gs, ∀ l, l < 128 → (g.2.getLsbD l = true ↔ m.getLsbD l = true ∧ b.calliTarget f l = g.1))
      ∧ gs.Pairwise (fun g h => g.1 ≠ h.1 ∧ ∃ l, g.2.getLsbD l = true ∧ ∀ k, k ≤ l → h.2.getLsbD k = false)
      ∧ c.stack = ((gs.drop 2).map fun g => Path.entry ⟨g.1, g.2⟩)
          ++ joinEntry s.cur.pc m (other.isSome || decide (2 ≤ gs.length)) :: ((other.map Path.entry).toList ++ b.stack)
      ∧ at_ c = gs.head?.map (fun g => ⟨g.1, g.2⟩) ∧ at' c = gs[1]?.map (fun g => ⟨g.1, g.2⟩))
    ∧ (b.spilled = 0 → ∀ above e rest, b.stack = above ++ e :: rest → (∀ p ∈ above, p.kind = kindPath) → e.kind = kindJoin →
      (∀ p ps, above = p :: ps → turns s b .ret (fun _ c => at_ c = some ⟨p.pc, p.mask⟩ ∧ at' c = other
        ∧ c.stack.length = ps.length + 1 + rest.length ∧ c.stack.take ps.length = ps ∧ c.stack.drop (ps.length + 1) = rest
        ∧ (c.stack[ps.length]?.map fun x => (x.arrived, x.mask, x.pc, x.kind)) = some (e.arrived ||| m, e.mask, e.pc, e.kind)))
      ∧ (above = [] → e.arrived ||| m ≠ e.mask → turns s b .ret (fun _ c => at_ c = none ∧ at' c = other
        ∧ c.stack.length = b.stack.length ∧ c.stack.tail = rest
        ∧ (c.stack.head?.map fun x => (x.arrived, x.mask, x.pc, x.kind)) = some (e.arrived ||| m, e.mask, e.pc, e.kind)))
      ∧ (above = [] → e.arrived ||| m = e.mask → turns s b .ret (fun _ c => at_ c = some ⟨e.pc + 1, e.mask⟩
        ∧ ((other.isSome = true ∨ (rest.head?.map (·.kind)) ≠ some kindPath) → c.stack = rest ∧ at' c = other)
        ∧ (∀ p t, other = none → rest = p :: t → p.kind = kindPath → c.stack = t ∧ at' c = some ⟨p.pc, p.mask⟩))))
    ∧ completes s b .ret (fun c => s.popFlow c fun stk x => retFlow stk (s.otherPath b) m x)
    ∧ completes s b .join (fun c => s.popFlow c fun stk x => joinFlow stk (s.otherPath b) s.cur.pc m x)
    ∧ (s.clear b .exit → ∃ t c, exec .exit s = .next t ∧ t.bd = some c ∧ c.lanesLeft = b.lanesLeft &&& ~~~m)
    ∧ (b.spilled = 0 →
      let left := (b.stack.map fun e =>
          if e.kind = kindJoin then { e with mask := e.mask &&& ~~~m, arrived := e.arrived &&& ~~~m }
          else if e.kind = kindPath then { e with mask := e.mask &&& ~~~m } else e).filter fun e => e.kind != kindPath || e.mask != 0
      turns s b .exit (fun _ c => c.stack <:+ left
        ∧ (left = [] → at_ c = none ∧ at' c = other)
        ∧ (∀ e t, left = e :: t →
          (e.kind = kindPath → c.stack = t ∧ at_ c = some ⟨e.pc, e.mask⟩ ∧ at' c = other)
          ∧ (e.kind = kindJoin → e.mask ≠ 0 → e.arrived ≠ e.mask → c.stack = left ∧ at_ c = none ∧ at' c = other)
          ∧ (e.kind = kindJoin → e.mask ≠ 0 → e.arrived = e.mask → c.stack <:+ t ∧ at_ c = some ⟨e.pc + 1, e.mask⟩
            ∧ ((other.isSome = true ∨ (t.head?.map (·.kind)) ≠ some kindPath) → at' c = other)
            ∧ (∀ p u, other = none → t = p :: u → p.kind = kindPath → c.stack <:+ u ∧ at' c = some ⟨p.pc, p.mask⟩))
          ∧ (e.kind = kindJoin → e.mask = 0 → c.stack <:+ t))))
    ∧ completes s b .exit (fun c =>
        let u := s.popFlow c fun stk _ => exitFlow stk (s.otherPath b) m
        { u with bd := u.bd.map fun d => { d with lanesLeft := d.lanesLeft &&& ~~~m } })

/-- 09 R201, R202, 02 R34, 10 R228, 22 R399: BAR on a gate of the bent or the bay. The board's earlier writes are performed as far as they can be; its
later writes follow those that are left, as behind a fence. An arrival is counted in the gate's phase, which dc1 receives. A wait whose phase has ended
ends at once, and the board's later accesses follow the releases of that phase that are left; another makes it wait; `.init` sets the target of a gate.
A remote gate's operation is entered for its home. That an arrival counts at once and later accesses of a waiter follow its release is the model's choice
(log 28), and so is that a wait at a bay gate without a target waits whatever its phase bit (log 90). -/
def Obligations.GateInstructionsComplete : Prop :=
  ∀ (s : State) (b : Board) (k : GateKind) (g : BitVec 6) (a : BitVec 9) (sc : Scope),
    let rel := fun (c : Board) => s.releaseAt c (if k = .bay then .bay else .bent)
    let counted := fun (c : Board) =>
      let d := (rel c).2
      let r := ({ (rel c).1 with bd := some d } : State).arrive d k g.toNat d.openWrites
      (r.1.modBoard d.id fun x => x.outC (rel c).1.cur.slotB .none (if r.2 then 1 else 0), r.2)
    let awaits := fun (t : State) (d : Board) (p : Bool) =>
      let y := t.gateOf d k g.toNat
      if y.phase = p ∨ (k = .bay ∧ y.target = none) then
        t.modBoard d.id fun x => { x with gateWait := some { kind := k, num := g.toNat, phase := p } }
      else ({ t with nextUid := t.nextUid + 1 } : State).modBoard d.id fun x =>
        let late := ((y.late.filter (·.ended)).filter t.unreleased).filter (·.board != x.id)
        let f : MemOp := { id := t.nextUid, insn := 0, kind := .fence .board .board .acq, space := .glob, scope := .system, peg := none, foreign := late }
        { x with gateWait := none, epoch := x.epoch + 1, copyAcqs := x.copyAcqs + 1, path := x.path ++ if late = [] then [] else [f] }
    (k = .remote → completes s b (.barAw k g a) (fun c => s.barRemote c (.barAw k g a) 0 a)
        ∧ completes s b (.barArr k g a) (fun c => s.barRemote c (.barArr k g a) 1 a)
        ∧ completes s b (.barWait k g a) (fun c => s.barRemote c (.barWait k g a) 2 a)
        ∧ completes s b (.barInit k g a) (fun c => s.barRemote c (.barInit k g a) 3 a))
    ∧ (k ≠ .remote → completes s b (.barArr k g a) (fun c => (counted c).1)
        ∧ completes s b (.barAw k g a) (fun c => awaits (counted c).1 (rel c).2 (counted c).2)
        ∧ completes s b (.barWait k g a) (fun c => awaits { s with bd := some c } c ((b.sreg a.toNat).getLsbD 0))
        ∧ completes s b (.barInit k g a) (fun c => ({ s with bd := some c }).initGate c k g.toNat (b.sreg a.toNat).toNat))
    ∧ (let t := ({ s with bd := some b } : State).release b.id
       let d := t.bd.getD b
       let f : MemOp := { id := t.nextUid, insn := 0, kind := .fence .board .board .rel, space := .glob, scope := sc, peg := none }
       s.releaseAt b sc = if d.openWrites = [] then (t, d) else ({ t with nextUid := t.nextUid + 1 }, { d with path := d.path ++ [f] }))

/-- 09 R203, R204, R206, 10 R228: LAUNCH and LAUNCH.G release at system scope and submit a request that waits for acceptance, with the peg and the
board's commands one up; TRIGGER marks the bent behind the same release, and stays owed while earlier writes are not performed; YIELD states a run
from this bundle's TICK. That what a release leaves open is followed so is the model's choice (log 28). -/
def Obligations.WorkInstructionsComplete : Prop :=
  ∀ (s : State) (b : Board) (a : BitVec 9) (p : Option (BitVec 3)) (graph : Bool) (n : BitVec 25),
    let i : Instr := if graph then .launchG a p else .launch a p
    (s.clear b i →
      let t := (s.releaseAt (s.noted b i) .system).1
      let d := (s.releaseAt (s.noted b i) .system).2
      ∃ c r, exec i s = .next { t with bd := some c, launches := t.launches ++ [r], nextUid := t.nextUid + 1 }
      ∧ c.cmdsOut = d.cmdsOut + 1 ∧ c.path = d.path
      ∧ (∀ k : BitVec 3, k.toNat < d.pegs.length → (c.peg k.toNat).cnt = (d.peg k.toNat).cnt + if p = some k then 1 else 0)
      ∧ r.id = t.nextUid ∧ r.board = d.id ∧ r.addr = (d.pair a.toNat).toNat ∧ r.graph = graph ∧ r.peg = p ∧ r.ctx = d.env.ctx
      ∧ r.after = (d.path.filter fun o => (o.kind.writes || !o.foreign.isEmpty) && o.open).map (·.id))
    ∧ completes s b .trigger (fun c =>
        let t := (s.releaseAt c .system).1
        let d := (s.releaseAt c .system).2
        let u : State := { t with bd := some d }
        if d.openWrites = [] ∧ d.owed = [] then u.markTriggered d.env.bent
        else u.modBoard d.id fun x => { x with owed := x.owed ++ [{ act := .trigger, after := d.openWrites }] })
    ∧ completes s b (.yield n) (fun c => { s with bd := some { c with run := some { n := n.toNat, start := b.tick.toNat } } })

/-- 09 R207 to R211, R214, 03 R59: SETIX pends its value, which applies from the third bundle after it on and not before; GETSYS, TIME and TICK give their register's value; a SETSYS value
leaves for its register; NOP has no effect. -/
def Obligations.SystemInstructionsComplete : Prop :=
  ∀ (s : State) (b : Board) (x : BitVec 2) (v : BitVec 4) (y : BitVec 12) (d : BitVec 9) (r : SysReg),
    completes s b (.setix x v) (fun c => { s with bd := some { c with pendIx := b.pendIx ++ [⟨3, x, v⟩] } })
    ∧ (∀ (c : Board) (w1 w2 w3 : BitVec 8), c = { b with pendIx := b.pendIx ++ [⟨3, x, v⟩] } →
        (c.start w1).ix = (b.start w1).ix ∧ ((c.start w1).start w2).ix = ((b.start w1).start w2).ix
        ∧ (x.toNat < b.ix.length → (((c.start w1).start w2).start w3).ix[x.toNat]? = some v))
    ∧ (SysReg.ofNum y = some r → r ≠ .laneid → r.pair = true → givesPair s b (.getsys y d) d.toNat (s.sysVal b r))
    ∧ (SysReg.ofNum y = some r → r ≠ .laneid → r.pair = false → givesCtl s b (.getsys y d) d ((s.sysVal b r).setWidth 32))
    ∧ (SysReg.ofNum y = some .laneid → completes s b (.getsys y d) (fun c => { s with bd := some (c.emit
        { dest := .v (d.toNat % 64), slotB := s.cur.slotB, lanes := s.cur.mask, rem := 2
          vals := lanesOf fun l => BitVec.ofNat 32 l }) }))
    ∧ completes s b (.setsys y d) (fun c => { s with bd := some (c.outX s.cur.slotB (.sys (SysReg.ofNum y == some .fstat)) ((b.sreg d.toNat).setWidth 128)) })
    ∧ givesPair s b (.time d) d.toNat (BitVec.ofNat 64 s.now)
    ∧ givesPair s b (.tick d) d.toNat b.tick
    ∧ completes s b .nop (fun _ => { s with bd := some b })

/-- 09 R209, R23: the values of the system registers. -/
def Obligations.SystemRegisterValues : Prop :=
  ∀ (s : State) (b : Board) (c : Ctx), s.ctx? b.env.ctx = some c →
    s.sysVal b .boardid = BitVec.ofNat 64 b.env.index ∧ s.sysVal b .boards = BitVec.ofNat 64 b.env.boards
    ∧ s.sysVal b .bentid = b.env.bentIdx.setWidth 64 ∧ s.sysVal b .gridext = b.env.extent.setWidth 64
    ∧ s.sysVal b .gridid = b.env.gridid.setWidth 64 ∧ s.sysVal b .ctxid = b.env.ctx.setWidth 64
    ∧ s.sysVal b .features = c.features ∧ s.sysVal b .coreid = BitVec.ofNat 64 b.core
    ∧ s.sysVal b .frameid = BitVec.ofNat 64 (b.core / 16) ∧ s.sysVal b .bayid = BitVec.ofNat 64 (b.core / 4 % 4)
    ∧ s.sysVal b .slotid = BitVec.ofNat 64 b.slot ∧ s.sysVal b .modid = s.modid.setWidth 64
    ∧ s.sysVal b .dsp = BitVec.ofNat 64 b.stack.length ∧ s.sysVal b .dsbase = c.dsbase
    ∧ s.sysVal b .codebase = b.env.codebase.setWidth 64 ∧ s.sysVal b .cbud = BitVec.ofNat 64 b.env.cbud
    ∧ s.sysVal b .grant = BitVec.ofNat 64 (s.bay (b.core / 4)).running ∧ s.sysVal b .variant = b.variant.setWidth 64
    ∧ s.sysVal b .window = (if c.chkWindow then 1 else 0) ∧ s.sysVal b .fstat = c.fstat.setWidth 64
    ∧ s.sysVal b .priv = (if b.priv then 1 else 0)
    ∧ s.sysVal b .edyn = c.edyn.setWidth 64 ∧ s.sysVal b .estat = c.estat.setWidth 64

/-! ### The memory slot -/

/-- 07 R142, R147 to R149: loads and stores enter the memory path with the accesses that their lanes resolve to, and the energy of their lines is charged
to the context (16 R341). That it is charged whole at the issue tick is the model's choice (log 47). -/
def Obligations.LoadsAndStoresIssue : Prop :=
  ∀ (s : State) (b : Board) (d x : Opd) (u : BitVec 9) (br : BitVec 5) (off : BitVec 18) (p : Option (BitVec 3)) (w : Width)
    (sc : Option Scope),
    let r := b.brec br.toNat
    let sx := widthSx w
    let lanes := fun data => s.laneReqs b x off.toInt data noWords
    let data := s.words b d w.regs
    issues s b (.ld d br x off p w sc) (opOf (.load w.bytes sx) .glob (scopeOr r sc) (r.img.getLsbD 113) (b.fillV d)
      (resolveGlob r 124 w.bytes (lanes noWords)))
    ∧ issues s b (.st d br x off p w sc) (opOf (.store w.bytes) .glob (scopeOr r sc) (r.img.getLsbD 113) .none
      (resolveGlob r 125 w.bytes (lanes data)))
    ∧ issues s b (.ldu u br x off p w sc) (opOf (.load w.bytes sx) .glob (scopeOr r sc) (r.img.getLsbD 113) (.s u.toNat)
      (resolveGlob r 124 w.bytes (s.uniReq b x off.toInt [] [])))
    ∧ issues s b (.stu d br x off p w sc) (opOf (.store w.bytes) .glob (scopeOr r sc) (r.img.getLsbD 113) .none
      (resolveGlob r 125 w.bytes (s.uniReq b x off.toInt (data 0) [])))
    ∧ issues s b (.lds d x off p w) (opOf (.load w.bytes sx) .scr .bent false (b.fillV d)
      (resolveScr b.env.scr w.bytes (lanes noWords)))
    ∧ issues s b (.sts d x off p w) (opOf (.store w.bytes) .scr .bent false .none (resolveScr b.env.scr w.bytes (lanes data)))

/-- 07 R151, R152: atomics enter the memory path with their operand and compare words, and the energy of their lines is charged to the context (16
R341). That it is charged whole at the issue tick is the model's choice (log 47). -/
def Obligations.AtomicsIssue : Prop :=
  ∀ (s : State) (b : Board) (d a x : Opd) (u : BitVec 9) (br : BitVec 5) (off : BitVec 6) (p : Option (BitVec 3)) (op : AtomOp)
    (sc : Option Scope) (sp : Scope) (wd : Bool),
    let r := b.brec br.toNat
    let n : Nat := if wd then 8 else 4
    let k : Nat := if wd then 2 else 1
    let o : Int := off.toInt * (n : Int)
    issues s b (.atom d a br x off p op sc wd) (opOf (.atomic op wd true) .glob (scopeOr r sc) (r.img.getLsbD 113) (b.fillV d)
      (resolveGlob r 126 n (s.laneReqs b x o (s.words b a k) (s.words b d k))))
    ∧ issues s b (.red a br x off p op sc wd) (opOf (.atomic op wd false) .glob (scopeOr r sc) (r.img.getLsbD 113) .none
      (resolveGlob r 126 n (s.laneReqs b x o (s.words b a k) noWords)))
    ∧ issues s b (.atoms d a x off p op sp wd) (opOf (.atomic op wd true) .scr sp false (b.fillV d)
      (resolveScr b.env.scr n (s.laneReqs b x o (s.words b a k) (s.words b d k))))
    ∧ issues s b (.reds a x off p op sp wd) (opOf (.atomic op wd false) .scr sp false .none
      (resolveScr b.env.scr n (s.laneReqs b x o (s.words b a k) noWords)))
    ∧ issues s b (.atomu u a br x off p op sc wd) (opOf (.atomic op wd true) .glob (scopeOr r sc) (r.img.getLsbD 113) (.s u.toNat)
      (resolveGlob r 126 n (s.uniReq b x o (s.words b a k 0) (s.words b (.s u) k 0))))
    ∧ issues s b (.redu a br x off p op sc wd) (opOf (.atomic op wd false) .glob (scopeOr r sc) (r.img.getLsbD 113) .none
      (resolveGlob r 126 n (s.uniReq b x o (s.words b a k 0) [])))

/-- 07 R141, R156 to R158, 12 R269, R272: the other instructions of the memory slot. A prefetch changes nothing, and its requests are charged to the
context (16 R341); a fence at lane scope orders nothing more, and a release fence on a board with nothing in its path ends at once. That charge is
the model's choice (log 47). -/
def Obligations.OtherMemoryInstructionsComplete : Prop :=
  ∀ (s : State) (b : Board) (br : BitVec 5) (x : Opd) (off : BitVec 18) (l2 : Bool) (ord : Order) (sc : Scope) (pa pb : PathK) (d u : BitVec 9)
    (p : Option (BitVec 3)),
    completes s b (.pref br x off l2)
      (fun c => State.charge { s with bd := some c } b.env.ctx (b.core / 4) 2 (s.prefLines c br x off).length)
    ∧ completes s b (.brset br u) (fun c => { s with bd := some (c.outX s.cur.slotB (.b br.toNat) (b.sreg (u.toNat + 3) ++ b.sreg (u.toNat + 2) ++ b.sreg (u.toNat + 1) ++ b.sreg u.toNat)) })
    ∧ completes s b (.brget br d) (fun c => { s with bd := some (c.outX s.cur.slotB (.quad d.toNat) (b.brec br.toNat).img) })
    ∧ completes s b (.fence ord sc) (fun c => s.fence c (.fence ord sc) .board .board ord sc)
    ∧ completes s b (.fenceX pa pb ord sc) (fun c => s.fence c (.fenceX pa pb ord sc) pa pb ord sc)
    ∧ completes s b (.fence ord .lane) (fun c => { s with bd := some c })
    ∧ (b.path = [] → completes s b (.fence .rel sc) (fun c => { s with bd := some c }))
    ∧ issues s b (.watchArm d u p) (opOf (.arm (b.pair u.toNat)) .glob .system false (.s d.toNat)
        { fail := if (b.pair u.toNat).toNat % 64 ≠ 0 then some (0x14#8, b.pair u.toNat) else none })
    ∧ issues s b (.watchDisarm u p) (opOf (.disarm (b.sreg u.toNat)) .glob .system false .none {})
    ∧ issues s b (.ldtr d p) (opOf .ldtr .glob .bent false (.s d.toNat) {})

/-! ### The copy/matrix slot -/

/-- 08 R162 to R164, 11 R238, R239: a command is accepted by its engine with the operands it read, the peg and the board's count of commands
rise, and MMAS moves mpc; SETMPC is a result of latency 2. -/
def Obligations.EngineCommandsAreAccepted : Prop :=
  ∀ (s : State) (b : Board) (f g : Opd) (br : BitVec 5) (w : CpaWidth) (p : Option (BitVec 3)) (u gu : BitVec 9) (n : BitVec 2)
    (fl : BitVec 5) (ft : Fmt) (fr : BitVec 7) (t : BitVec 5) (tb : Bool) (sel : StatSel),
    let F := b.lanesVal s.cur.slotB f
    let G := b.lanesVal s.cur.slotB g
    completes s b (.cpa f g br w p) (fun c => s.copyCmd c { s.cmdOf c (.cpa f g br w p) b.core .copy with
        fv := F, gv := G, brec := b.brec br.toNat })
    ∧ completes s b (.cpb u n fl p) (fun c => s.copyCmd c { s.cmdOf c (.cpb u n fl p) b.core .copy with grp := b.group u.toNat 14 })
    ∧ completes s b (.cpr u ft fr p) (fun c => s.copyCmd c { s.cmdOf c (.cpr u ft fr p) b.core .copy with grp := b.group u.toNat 10 })
    ∧ completes s b (.mma f u t p) (fun c => s.matrixCmd c { s.tileCmd c (.mma f u t p) t with fv := F, grp := b.group u.toNat 10 } 16)
    ∧ completes s b (.mmas f u t p) (fun c => s.matrixCmd
        { c with mpc := b.mpc + BitVec.ofNat 64 (16 * mmaK ((laneAt F 0).toNat % 16) true) }
        { s.tileCmd c (.mmas f u t p) t with fv := F, grp := b.group u.toNat 10 } 16)
    ∧ completes s b (.accClr t p) (fun c => s.matrixCmd c (s.tileCmd c (.accClr t p) t) 2)
    ∧ completes s b (.accLd u t p) (fun c => s.matrixCmd c { s.tileCmd c (.accLd u t p) t with grp := b.group u.toNat 4 } 32)
    ∧ completes s b (.accSt u t p) (fun c => s.matrixCmd c { s.tileCmd c (.accSt u t p) t with grp := b.group u.toNat 4 } 32)
    ∧ completes s b (.accRdv g f t p) (fun c => s.matrixCmd c
        { s.tileCmd c (.accRdv g f t p) t with gv := [b.uniVal s.cur.slotB f], dest := b.fillReg g } 2)
    ∧ completes s b (.accWrv f g t p) (fun c => s.matrixCmd c
        { s.tileCmd c (.accWrv f g t p) t with fv := F, gv := [b.uniVal s.cur.slotB g] } 2)
    ∧ completes s b (.setmpc u) (fun c => { s with bd := some (c.emit
        { dest := .mpc, slotB := s.cur.slotB, lanes := allLanes, rem := 2, sval := (b.pair u.toNat).setWidth 128 }) })
    ∧ completes s b (.cbtLd u tb p) (fun c => s.matrixCmd c
        { s.cmdOf c (.cbtLd u tb p) b.core .matrix with grp := b.group u.toNat 2 } 8)
    ∧ completes s b (.routeCount u p) (fun c => s.routeCmd c (.routeCount u p) u)
    ∧ completes s b (.routeXchg u p) (fun c => s.routeCmd c (.routeXchg u p) u)
    ∧ completes s b (.routePlace u p) (fun c => s.routeCmd c (.routePlace u p) u)
    ∧ completes s b (.routeScatter u p) (fun c => s.routeCmd c (.routeScatter u p) u)
    ∧ completes s b (.routeCombine u p) (fun c => s.routeCmd c (.routeCombine u p) u)
    ∧ completes s b (.routeStat gu u sel p) (fun c => s.routeCmd c (.routeStat gu u sel p) u)

/-! ### Encodings -/

/-- Every well-formed instruction of the four slots has a word in its slot, and that word reads as the instruction, with every operand
at every value that its field admits (05 R88 to R105). -/
def Obligations.DecodeOfEncode : Prop :=
  ∀ i : Instr, i.wf = true → slotNumOf i < 4 → ∃ w, encode i = some w ∧ decodeSlot w = .ok i

/-- A word that reads as an instruction reads as a well-formed one, and it is the one word of its slot that does: no bit of a slot is
passed over. -/
def Obligations.EncodeOfDecode : Prop :=
  ∀ (w : SlotWord) (i : Instr), decodeSlot w = .ok i → i.wf = true ∧ encode i = some w

/-- Words written out from the tables of 05: a few forms of each of the four slots, and not every form. -/
def Obligations.WordsDecode : Prop :=
  decodeSlot (.ctl (1#1 ++ 1#4 ++ 5#9 ++ 6#9 ++ 7#9)) = .ok (.ssub 5 6 7)
  ∧ decodeSlot (.ctl (0#1 ++ 0x7F#7 ++ 9#9 ++ 8#9 ++ 0x10#6)) = .ok (.saddImm 8 9 0x7F)
  ∧ decodeSlot (.ctl (0#1 ++ 0xFFFE#16 ++ 12#9 ++ 0x0A#6)) = .ok (.loop 12 0xFFFE)
  ∧ decodeSlot (.ctl (0#1 ++ 4#11 ++ 2#10 ++ 1#1 ++ 3#3 ++ 0x08#6)) = .ok (.div 3 true 2 4)
  ∧ decodeSlot (.ctl (0#5 ++ 0x021#12 ++ 4#9 ++ 0x23#6)) = .ok (.setsys 0x021 4)
  ∧ decodeSlot (.vec (0#2 ++ 0#4 ++ 0#4 ++ 0#1 ++ 1#2 ++ 0#11 ++ (1#2 ++ 300#9) ++ (0#4 ++ 1#1 ++ 5#6) ++ (0#5 ++ 63#6) ++ 0x08#7))
      = .ok (.fadd (.v false 63) (.v true 5) (.s 300) .rz)
  ∧ decodeSlot (.vec (0#3 ++ 0x80000001#32 ++ 0#11 ++ (2#2 ++ 0#9) ++ 0x02#7)) = .ok (.movi .nil 0x80000001)
  ∧ decodeSlot (.mem (0x3FFFC#18 ++ 0xF#4 ++ 4#4 ++ (1#1 ++ 2#3) ++ (0#5 ++ 1#6) ++ 3#5 ++ (0#5 ++ 2#6) ++ 0x01#7))
      = .ok (.ld (.v false 2) 3 (.v false 1) 0x3FFFC (some 2) .w32 none)
  ∧ decodeSlot (.cmx (0#8 ++ 0#5 ++ 0#11 ++ 0#4 ++ (1#1 ++ 1#3) ++ 6#5 ++ 20#9 ++ (0#5 ++ 4#6) ++ 0x08#7))
      = .ok (.mma (.v false 4) 20 6 (some 1))
  ∧ decodeSlot (.ctl 0x3F#32) = .error ⟨0x01, 0, 0x3F⟩

/-! ### Memory, reset and the step -/

/-- The memory operations: a byte read after a write is the byte written, every other byte is as before, and the canonical form stays. -/
def Obligations.MemoryReadAfterWrite : Prop :=
  ∀ (m : Mem) (a c : Nat) (l : List Byte), m.wf = true →
    (m.write a l).get c = (if a ≤ c ∧ c < a + l.length then l.getD (c - a) 0 else m.get c)
    ∧ (m.write a l).wf = true
    ∧ (m.write a l).read a l.length = l

/-- Two memories in canonical form that read the same at every address are the same data. -/
def Obligations.CanonicalMemoriesAreEqual : Prop :=
  ∀ m n : Mem, m.wf = true → n.wf = true → (∀ a, m.get a = n.get a) → m = n

/-- Memory at reset is in its canonical form, nothing is in issue, and these registers have the reset value that the spec gives them: SAFECAP 3,000 W and
PTHR 3,277 (17 R357), MODID and UAEN 0, every bay's LVLMAX 7 and droop alarm on at 40 mV with no count, of every function HWBASE, TIBASE, TISTAT, MBCMD,
MBSTAT and FQCFG 0, and of every queue QOWN and QCFG 0. That QBASE, QHEAD and QTAIL of every queue, and FQBASE, FQHEAD, FQTAIL and FQLOST of every function,
are 0 at reset is the model's choice: R276 and R373 give them no reset value (log 5). That the main rails are off and no frame is in service or hung is
the model's choice (log 12). -/
def Obligations.ResetValues : Prop :=
  State.reset.memOk ∧ State.reset.bd = none ∧ State.reset.boards = [] ∧ State.reset.ctxs = []
  ∧ State.reset.safecap = 3000 ∧ State.reset.pth = 3277 ∧ State.reset.modid = 0 ∧ State.reset.uaen = 0 ∧ State.reset.capSeq = 0
  ∧ State.reset.rails = false ∧ State.reset.time = 0
  ∧ (∀ k, k < 32 → (State.reset.bay k).lvlmax = 7 ∧ (State.reset.bay k).drpEn = true ∧ (State.reset.bay k).drpMv = 40
      ∧ (State.reset.bay k).drpCnt = 0)
  ∧ (∀ k, k < 8 → (State.reset.frame k).inService = false ∧ (State.reset.frame k).hung = false)
  ∧ (∀ k, (State.reset.fn k).hwbase = 0 ∧ (State.reset.fn k).tibase = 0 ∧ (State.reset.fn k).tiErr = false ∧ (State.reset.fn k).tibusy = none
      ∧ (State.reset.fn k).mbcmd = [] ∧ (State.reset.fn k).mbResult = 0 ∧ (State.reset.fn k).mbDone = false ∧ (State.reset.fn k).mbBusy = false
      ∧ (State.reset.fn k).fqbase = 0 ∧ (State.reset.fn k).fqEn = false ∧ (State.reset.fn k).fqSize = 0 ∧ (State.reset.fn k).fqhead = 0
      ∧ (State.reset.fn k).fqtail = 0 ∧ (State.reset.fn k).fqlost = 0)
  ∧ (∀ q, (State.reset.queue q).own = 0 ∧ (State.reset.queue q).base = 0 ∧ (State.reset.queue q).en = false ∧ (State.reset.queue q).maxr = 0
      ∧ (State.reset.queue q).size = 0 ∧ (State.reset.queue q).ctx = 0 ∧ (State.reset.queue q).head = 0 ∧ (State.reset.queue q).tail = 0)

/-- Every step keeps local and host memory in their canonical form. -/
def Obligations.StepsKeepMemoryCanonical : Prop :=
  ∀ s t : State, s.memOk → step s = .next t → t.memOk

/-- What a step does. Where an event comes next, the step is `exec` of it. Where a port's bundle issues, at a state `p`, the bundle that stands at the
board's index is read and the instructions of its slots are done one after the other, each as `exec` does it, up to one that gives no next state; then
the bundle ends, and in both cases what goes on by itself goes on. A bundle that meets a trap is the step of that trap. At the end of a bundle that has
not ended yet its slot goes to P + 1, its latches shift, in the active lanes for `dv`, its encoded clock moves by the gap, and the other slot's turn
comes after the effective gap (02 R29, 03 R45, R54, R55). -/
def Obligations.StepRunsDecodedBundle : Prop :=
  ∀ (s p t u : State) (n id : Nat) (one : Bool) (b : Board),
    (∀ i, s.todo = .event i p → exec i p = .next u → step s = .next u.advance)
    ∧ (s.todo = p.issueFrom n one id → p.present id = some (t, b) →
      (∀ f, t.frontTrap b = some f → exec (trapInstr id f) (t.clearPort n one id 0 0) = .next u → step s = .next u.advance)
      ∧ (∀ w, t.frontTrap b = none → t.front b t.cur.pc = .bundle w →
        let x := b.start (w.extractLsb' 5 8)
        let t' : State := { t with bd := some x }
        let is := t'.bundleSteps x (slotsOf w)
        let vec := (slotsOf w).find? fun i => slotNumOf i == 0
        let r := t'.leavePort n one id (if (decodeBundle w).vec.isSome then (vec.map occupancy).getD 0 else 0) (x.bankHold (slotsOf w))
        (runSlots is r = .next u → step s = .next (u.endBundle is (periodOf (p.bay (n / 48)).running)).advance)
        ∧ (∀ i, is = [i] → runSlots is r = exec i r)))
    ∧ (∀ x : State, runSlots [] x = .next x ∧ ∀ i is,
        (∀ v, exec i x = .next v → runSlots (i :: is) x = runSlots is v) ∧ ((∀ v, exec i x ≠ .next v) → runSlots (i :: is) x = exec i x))
    ∧ (∀ is period, u.bd = some b → ∃ d, (u.endBundle is period).bd = some d ∧ (u.endBundle is period).cur.done = true
        ∧ (u.endBundle is period).mem = u.mem ∧ d.v = b.v ∧ d.s = b.s ∧ d.m = b.m ∧ d.b = b.b ∧ d.mpc = b.mpc ∧ d.ix = b.ix
        ∧ d.pegs = b.pegs ∧ d.stack = b.stack ∧ d.lanesLeft = b.lanesLeft
        ∧ (u.cur.done = false →
          let x := b.slotOf u.cur.slotB
          let y := d.slotOf u.cur.slotB
          y.path = some ⟨u.cur.pc + 1, u.cur.mask⟩ ∧ y.dc1 = 0 ∧ y.dc2 = x.dc1 ∧ y.clk = x.clk + BitVec.ofNat 32 u.cur.gap
          ∧ d.slotOf (!u.cur.slotB) = b.slotOf (!u.cur.slotB) ∧ d.turnB = !u.cur.slotB ∧ d.gapRem = max u.cur.gap 1
          ∧ (∀ l, l < 128 → laneAt (d.dv.getD 0 []) l = if u.cur.mask.getLsbD l then 0 else laneAt (b.dv.getD 0 []) l)
          ∧ (∀ l k, l < 128 → k < 3 → laneAt (d.dv.getD (k + 1) []) l
              = if u.cur.mask.getLsbD l then laneAt (b.dv.getD k []) l else laneAt (b.dv.getD (k + 1) []) l)))


/-! ### Operands, results in flight and landings -/

/-- 05 R92, R93, 03 R58: what a source operand stands for in a lane: a vector register, indexed or not, a uniform register, a latch of the
lane or of the slot, or the sign-extended immediate; a source read as binary32 takes an immediate as its integer's value. -/
def Obligations.OperandsHaveTheirValues : Prop :=
  ∀ (s : State) (b : Board) (n : BitVec 6) (u i : BitVec 9) (k : BitVec 2) (l : Nat),
    s.src b (.v false n) l = laneAt (b.vreg n.toNat) l
    ∧ s.src b (.v true n) l = laneAt (b.vreg (4 * ((n.toNat / 4 + (b.ix.getD (n.toNat % 4) 0).toNat) % 16) + n.toNat % 4)) l
    ∧ s.src b (.s u) l = b.sreg u.toNat
    ∧ s.src b (.dv k) l = laneAt (b.dv.getD k.toNat []) l
    ∧ s.src b (.dc 0) l = (b.slotOf s.cur.slotB).dc1
    ∧ s.src b (.dc 1) l = (b.slotOf s.cur.slotB).dc2
    ∧ (s.src b (.imm i) l).toInt = i.toInt
    ∧ Fmt.f32.val (s.fsrc b (.imm i) l).toNat = Fmt.f32.val (Fmt.f32.round .rn false (.num (decide (i.toInt < 0)) i.toInt.natAbs 0)).val.toNat
    ∧ (∀ o, (∀ j, o ≠ .imm j) → s.fsrc b o l = s.src b o l)

/-- 03 R47, R52: a result leaves with its latency and lands after it, unless an earlier result of the same location is to land at that tick or
later: then it lands one tick after the latest of those, and its latch entry lands at the latency. One result is one entry of the pipeline. -/
def Obligations.ResultsLandInOrder : Prop :=
  ∀ (b : Board) (e : PipeEntry),
    ((∀ f ∈ b.pipe, f.meets e = true → f.rem < e.rem) → (b.emit e).pipe = b.pipe ++ [{ e with late := 0 }])
    ∧ (∀ f ∈ b.pipe, f.meets e = true → e.rem ≤ f.rem →
        ∃ n, f.rem < n ∧ (∀ g ∈ b.pipe, g.meets e = true → g.rem < n) ∧ (∃ g ∈ b.pipe, g.meets e = true ∧ n = g.rem + 1)
          ∧ (b.emit e).pipe = b.pipe ++ [{ e with rem := n, late := n - e.rem }])
    ∧ b.emit e = { b with pipe := (b.emit e).pipe }

/-- 03 R48, R52, R55, 22 R402: a result whose tick has come lands: its registers take it, in its lanes, the latch entries at which it stands take it, and the
context's FSTAT gathers its flags, or takes what a SETSYS writes; every other register, the paths, pegs, stack and memory path of the board, every other
board and memory stay. A latch entry whose register lands later lands alone. -/
def Obligations.LandingsWriteTheirRegister : Prop :=
  ∀ (s : State) (id k : Nat) (b : Board) (e : PipeEntry) (c : Ctx),
    s.board? id = some b → b.pipe[k]? = some e → s.stands b = false → s.ctx? b.env.ctx = some c →
    let keeps := fun (t : State) (x : Board) => t.mem = s.mem ∧ t.hostMem = s.hostMem ∧ (∀ j, j ≠ id → t.board? j = s.board? j)
      ∧ x.pegs = b.pegs ∧ x.stack = b.stack ∧ x.path = b.path ∧ x.slotA.path = b.slotA.path ∧ x.slotB.path = b.slotB.path
      ∧ x.ix = b.ix ∧ x.tick = b.tick
    let latches := fun (x : Board) =>
      (∀ l j, l < 128 → j < 4 → b.dv.length = 4 → laneAt (x.dv.getD j []) l =
        if e.latched = false ∧ ∃ p ∈ e.dv, p.2 = j + 1 ∧ p.1.getLsbD l = true then laneAt e.vals l else laneAt (b.dv.getD j []) l)
      ∧ ∀ sB, (x.slotOf sB).dc1 = (if e.latched = false ∧ (sB, 1) ∈ e.dc then e.sval.setWidth 32 else (b.slotOf sB).dc1)
        ∧ (x.slotOf sB).dc2 = (if e.latched = false ∧ (sB, 2) ∈ e.dc then e.sval.setWidth 32 else (b.slotOf sB).dc2)
    (e.rem = 0 → ∃ t x d, exec (.fixedLatencyLanding id k) s = .next t ∧ t.board? id = some x ∧ t.ctx? b.env.ctx = some d
      ∧ x.pipe = b.pipe.eraseIdx k ∧ keeps t x ∧ latches x
      ∧ (∀ n, e.dest = .v n → e.dest2 = none → x.s = b.s ∧ x.m = b.m ∧ x.b = b.b ∧ x.mpc = b.mpc
          ∧ (∀ j, j ≠ n → x.vreg j = b.vreg j)
          ∧ (n < b.v.length → ∀ l, l < 128 →
              laneAt (x.vreg n) l = if e.lanes.getLsbD l then laneAt e.vals l else laneAt (b.vreg n) l))
      ∧ (∀ n u, e.dest = .v n → e.dest2 = some u → x.m = b.m ∧ x.b = b.b ∧ x.mpc = b.mpc
          ∧ (∀ j, j ≠ n → x.vreg j = b.vreg j) ∧ (∀ j, j ≠ u → x.sreg j = b.sreg j) ∧ (u < b.s.length → x.sreg u = e.sval.setWidth 32)
          ∧ (n < b.v.length → ∀ l, l < 128 →
              laneAt (x.vreg n) l = if e.lanes.getLsbD l then laneAt e.vals l else laneAt (b.vreg n) l))
      ∧ (∀ n, e.dest = .s n → e.dest2 = none → x.v = b.v ∧ x.m = b.m ∧ x.b = b.b ∧ x.mpc = b.mpc
          ∧ (∀ j, j ≠ n → x.sreg j = b.sreg j) ∧ (n < b.s.length → x.sreg n = e.sval.setWidth 32))
      ∧ (∀ n, e.dest = .pair n → e.dest2 = none → x.v = b.v ∧ x.m = b.m ∧ x.b = b.b ∧ x.mpc = b.mpc
          ∧ (∀ j, j ≠ n → j ≠ n + 1 → x.sreg j = b.sreg j)
          ∧ (n + 1 < b.s.length → x.sreg n = e.sval.extractLsb' 0 32 ∧ x.sreg (n + 1) = e.sval.extractLsb' 32 32))
      ∧ (∀ n, e.dest = .quad n → e.dest2 = none → x.v = b.v ∧ x.m = b.m ∧ x.b = b.b ∧ x.mpc = b.mpc
          ∧ (∀ j, j < n ∨ n + 3 < j → x.sreg j = b.sreg j)
          ∧ (n + 3 < b.s.length → ∀ j, j < 4 → x.sreg (n + j) = e.sval.extractLsb' (32 * j) 32))
      ∧ (∀ n, e.dest = .b n → e.dest2 = none → x.v = b.v ∧ x.s = b.s ∧ x.m = b.m ∧ x.mpc = b.mpc
          ∧ (∀ j, j ≠ n → x.brec j = b.brec j) ∧ (n < b.b.length → x.brec n = ⟨e.sval, wellFormedRecord e.sval⟩))
      ∧ (∀ n, e.dest = .m n → e.dest2 = none → x.v = b.v ∧ x.s = b.s ∧ x.b = b.b ∧ x.mpc = b.mpc
          ∧ (∀ j, j ≠ n → x.mreg j = b.mreg j)
          ∧ (n < b.m.length → ∀ l, l < 128 →
              (x.mreg n).getLsbD l = if e.lanes.getLsbD l then e.sval.getLsbD l else (b.mreg n).getLsbD l))
      ∧ (e.dest = .mpc → e.dest2 = none → x.mpc = e.sval.setWidth 64 ∧ x.v = b.v ∧ x.s = b.s ∧ x.m = b.m ∧ x.b = b.b)
      ∧ ((e.dest = .none ∨ ∃ f, e.dest = .sys f) → e.dest2 = none → x.v = b.v ∧ x.s = b.s ∧ x.m = b.m ∧ x.b = b.b ∧ x.mpc = b.mpc)
      ∧ ((∀ f, e.dest ≠ .sys f) → d = { c with fstat := c.fstat ||| e.flags.setWidth 7 })
      ∧ (e.dest = .sys true → d = { c with fstat := e.sval.setWidth 7 ||| e.flags.setWidth 7 })
      ∧ (e.dest = .sys false → d = { c with chkWindow := e.sval.getLsbD 0, fstat := c.fstat ||| e.flags.setWidth 7 }))
    ∧ (e.rem ≠ 0 → e.rem = e.late → ∃ t x, exec (.fixedLatencyLanding id k) s = .next t ∧ t.board? id = some x
      ∧ x.pipe[k]? = some { e with late := 0, latched := true } ∧ keeps t x ∧ latches x ∧ t.ctxs = s.ctxs
      ∧ x.v = b.v ∧ x.s = b.s ∧ x.m = b.m ∧ x.b = b.b ∧ x.mpc = b.mpc)

/-! ### Traps -/

/-- 21 R369, 22 R384: when a condition of 22 holds of an instruction of the slots, it has none of its effects: the trap is taken. -/
def Obligations.JudgedTrapsAreTaken : Prop :=
  ∀ (s : State) (b : Board) (i : Instr) (t : Trap), slotNumOf i < 4 → s.bd = some b → judge s b i = some t →
    exec i s = .next (s.raise b t)

/-- 03 R67, 21 R375: taking a trap freezes the board with its class, slot, CODE, ADDR, bundle index, TIME, TICK and the context's next FRID,
which moves on by one; the board changes in nothing else, but that a stated run that has elapsed is noted as such (25 R434); no other board changes, and
the first six words of its record stand in memory. -/
def Obligations.TrapsFreezeTheBoard : Prop :=
  ∀ (s : State) (b : Board) (c : Ctx) (t : Trap), s.memOk → s.bd = some b → s.ctx? b.env.ctx = some c → t.cls < 256 → t.slot < 256 →
    let u := s.raise b t
    ∃ f d, u.bd = some { b with frozen := some f, spilled := b.stack.length
                                run := b.run.map fun r => { r with fallen := r.fallen || decide (r.start + r.n + 1 ≤ b.tick.toNat) } }
      ∧ u.boards = s.boards
      ∧ f.cls.toNat = t.cls ∧ f.slot.toNat = t.slot ∧ f.code = t.code ∧ f.addr = t.addr ∧ f.tpc = s.cur.pc
      ∧ f.slotB = s.cur.slotB ∧ f.frid = c.nextFrid ∧ f.time = BitVec.ofNat 64 s.now ∧ f.tick = b.tick
      ∧ u.ctx? b.env.ctx = some d ∧ d.nextFrid = c.nextFrid + 1
      ∧ (let a := c.savebase.toNat + 32768 * (96 * b.core + b.slot)
         u.mem.num a 1 = t.cls ∧ u.mem.num (a + 1) 1 = t.slot ∧ u.mem.num (a + 4) 4 = t.code.toNat
         ∧ u.mem.num (a + 8) 4 = c.nextFrid.toNat ∧ u.mem.num (a + 0x10) 8 = s.cur.pc.toNat ∧ u.mem.num (a + 0x18) 8 = t.addr.toNat
         ∧ u.mem.num (a + 0x20) 8 = s.now % 2 ^ 64 ∧ u.mem.num (a + 0x28) 8 = b.tick.toNat)

/-- 09 R212: TRAP ends its bundle and freezes the board with class SOFT, its path at P + 1. -/
def Obligations.TrapInstructionFreezes : Prop :=
  ∀ (s : State) (b : Board) (code : BitVec 16), s.clear b (.trap code) → s.cur.done = false →
    ∃ t c f, exec (.trap code) s = .next t ∧ t.bd = some c ∧ c.frozen = some f ∧ f.cls = 1 ∧ f.slot = 3 ∧ f.code = code.setWidth 32
      ∧ f.addr = 0 ∧ f.tpc = s.cur.pc ∧ (c.slotOf s.cur.slotB).path = some ⟨s.cur.pc + 1, s.cur.mask⟩
      ∧ (c.slotOf (!s.cur.slotB)).path = (b.slotOf (!s.cur.slotB)).path ∧ t.boards = s.boards

/-- 22 R396: ERET, and SETSYS of WINDOW, on a board that is not privileged raise PRIV with REASON 1 and 2; on a privileged one neither does. -/
def Obligations.PrivilegeIsChecked : Prop :=
  ∀ (s : State) (b : Board) (d : BitVec 9), s.bd = some b →
    (b.priv = false → exec .eret s = .next (s.raise b { cls := 4, slot := 3, code := 1 }))
    ∧ (b.priv = false → (s.ctxOf b.env.ctx).chkWindow = false →
        exec (.setsys 0x020 d) s = .next (s.raise b { cls := 4, slot := 3, code := 0x00200002 }))
    ∧ (b.priv = true → ∀ i t, judge s b i = some t → t.cls ≠ 4)
    ∧ (∀ i t, i ≠ .eret → (∀ r, i ≠ .setsys 0x020 r) → judge s b i = some t → t.cls ≠ 4)

/-- 09 R213, 21 R379, R383: ERET on a privileged board performs the board's earlier writes and ends its lanes; once those writes are performed it
restores the board it serves with the ACTION of its record as the handler has left it, if that board's freeze is still the one the handler was made for.
That the restore waits so is the model's choice (log 28). -/
def Obligations.EretReturns : Prop :=
  ∀ (s : State) (b : Board), b.priv = true → s.clear b .eret →
    let r := ({ s with bd := some (s.noted b .eret) } : State).release b.id
    ∀ c, r.bd = some c →
      let e := r.endWith (r.ended c).exitAll
      (c.openWrites = [] → c.owed = [] → exec .eret s = .next (match e.servedBy c with
        | some (x, f) => e.restore x f (e.actionOf x) 1
        | none => e))
      ∧ (c.openWrites ≠ [] ∨ c.owed ≠ [] → exec .eret s = .next (e.modBoard c.id fun x =>
          { x with owed := x.owed ++ [{ act := .restore, after := c.openWrites }] }))
      ∧ (∀ x a, a = e.recordAt x + 2 →
          ((∀ d ∈ e.edits, d.addr ≠ a) → e.memOk → e.actionOf x = (e.mem.get a).toNat)
          ∧ (∀ v w, e.edits = [{ addr := a, dev := v, host := some w }] → e.memOk → e.actionOf x = v.toNat)
          ∧ (∀ v w h, e.edits = [{ addr := a, dev := v, host := h, handler := some w }] → e.memOk → e.actionOf x = w.toNat))

/-! ### Frames -/

/-- The instructions whose effect is a result of fixed latency leave every register, latch, peg, path, stack entry and clock of the board, every
byte of memory, and everything else of the module, as it is until the result lands: only windows, pending destinations and the
results in flight change. -/
def Obligations.ResultInstructionsFrame : Prop :=
  ∀ (s t : State) (b : Board) (i : Instr), givesResult i = true → s.clear b i → exec i s = .next t →
    s.flightOnly b t
    ∧ (∀ a, t.mem.get a = s.mem.get a) ∧ (∀ a, t.hostMem.get a = s.hostMem.get a) ∧ t.boards = s.boards ∧ t.ctxs = s.ctxs
    ∧ (∀ c, t.bd = some c → c.v = b.v ∧ c.s = b.s ∧ c.m = b.m ∧ c.b = b.b ∧ c.mpc = b.mpc ∧ c.dv = b.dv ∧ c.ix = b.ix ∧ c.pegs = b.pegs
        ∧ c.path = b.path ∧ c.stack = b.stack ∧ c.lanesLeft = b.lanesLeft ∧ c.slotA.path = b.slotA.path ∧ c.slotB.path = b.slotB.path)

/-- No instruction of the vector, memory or copy/matrix slot, and of the control slot none but BAR, TRIGGER, LAUNCH, ERET and TRAP, changes memory, the
host's memory, another board, a bent, a grid, a queue, a function or a register of the board at issue, while it does not trap: stores are performed later, by steps of
the memory path and the engines. Of the board's registers only mpc moves, by MMAS; of a bent, FENCE.X may show its matrix engine bytes that copies have
written (`unseen`). The stack stays within its 64 entries (02 R33). -/
def Obligations.SlotInstructionsFrame : Prop :=
  ∀ (s t : State) (b : Board) (i : Instr), slotNumOf i < 4 → actsAtOnce i = false → s.clear b i → exec i s = .next t →
    (∀ a, t.mem.get a = s.mem.get a) ∧ (∀ a, t.hostMem.get a = s.hostMem.get a)
    ∧ t.boards = s.boards ∧ t.grids = s.grids ∧ t.queues = s.queues ∧ t.fns = s.fns ∧ t.time = s.time
    ∧ t.bents.map (fun x => { x with unseen := [] }) = s.bents.map (fun x => { x with unseen := [] })
    ∧ ((∀ pa pb ord sc, i ≠ .fenceX pa pb ord sc) → t.bents = s.bents)
    ∧ ∃ c, t.bd = some c ∧ c.id = b.id ∧ c.v = b.v ∧ c.s = b.s ∧ c.m = b.m ∧ c.b = b.b ∧ c.ix = b.ix ∧ c.tick = b.tick
      ∧ (b.stack.length ≤ 64 → c.stack.length ≤ 64)
      ∧ ((∀ f u a p, i ≠ .mmas f u a p) → c.mpc = b.mpc)

/-- 04 R74, R75: a number that a floating-point format holds exactly rounds to itself in every mode and raises no flag, an infinity too where results
are not saturated. -/
def Obligations.ExactValuesRoundToThemselves : Prop :=
  ∀ (f : Fmt) (rm : RMode) (sat : Bool) (w : Nat), f.isFloat = true → w < 2 ^ f.width → f.isNaN w = false →
    (sat = false ∨ ∀ n, f.val w ≠ .inf n) → f.round rm sat (f.val w) = { val := BitVec.ofNat 32 w, flags := 0 }


/-! ### Steps of the device and its surroundings: where they come about, and what they leave -/

/-- 21 R369, R370, 23 R403, R415, 25 R434: the trap that the bundle in issue meets is taken in its step, whatever its class; BROKEN, RETIRE and OVERRUN
are taken between bundles, and the run that was stated is stated again by the board's next yield bundle (09 R206). That MACHINE, while no trap shows
yet, marks a location in error is the model's choice (log 66). -/
def Obligations.TrapStepsComplete : Prop :=
  ∀ (s : State) (b : Board) (slot : TrapSlot) (code : BitVec 32) (addr : BitVec 64) (store lane : BitVec 8) (num : BitVec 16),
    (s.bd = some b → b.frozen = none → s.cur.done = false →
      (let t := fun cls => ({ cls := cls, slot := trapSlotNum slot, code := code, addr := addr } : Trap)
       (s.frontTrap b = some (t 2) → exec (.window slot code addr) s = .next (s.raise b (t 2)))
       ∧ (s.frontTrap b = some (t 3) → exec (.illegal slot code addr) s = .next (s.raise b (t 3)))
       ∧ (s.frontTrap b = some (t 4) → exec (.priv slot code addr) s = .next (s.raise b (t 4)))
       ∧ (s.frontTrap b = some (t 5) → exec (.budget slot code addr) s = .next (s.raise b (t 5)))
       ∧ (s.frontTrap b = some (t 6) → exec (.stack slot code addr) s = .next (s.raise b (t 6))))
      ∧ (1 ≤ store.toNat → store.toNat ≤ 6 →
        (let t : Trap := { cls := 10, slot := trapSlotNum slot, code := num ++ lane ++ store }
         s.frontTrap b = some t → exec (.machine slot store lane num) s = .next (s.raise b t))
        ∧ (s.frontTrap b = none →
          exec (.machine slot store lane num) s = .next { s with bd := some (if store = 5 ∧ 16 ≤ num.toNat
            then { b with pipe := modAt (num.toNat - 16) (fun e => { e with bad := some lane }) b.pipe }
            else { b with bad := ⟨store, lane, num⟩ :: b.bad }) })))
    ∧ (∀ id u t, s.present id = some (u, b) → u.frontTrap b = some t → t.cls = 7 → exec (.broken id) s = .next (u.raise b t))
    ∧ (∀ id, s.board? id = some b → s.stands b = false → s.drained b = true → b.soundPegsZero = true → b.hasFailure = true →
        exec (.retire id) s = .next (s.freeze b { cls := 8, slot := 7, code := b.brokenCode false b.brokenMask, addr := b.brokenAddr } false 0))
    ∧ (∀ id r isB p, s.board? id = some b → b.run = some r → r.spent = false → 1 ≤ r.n → r.start + r.n + 1 ≤ b.tick.toNat → s.stands b = false →
        (isB = b.turnB ∨ (isB = !b.turnB ∧ (b.slotOf b.turnB).path = none)) → (b.slotOf isB).path = some p →
        exec (.overrun id) s = .next (s.freeze { b with run := some { r with spent := true } } { cls := 9, slot := 7, code := BitVec.ofNat 32 r.n } isB p.pc))

/-- 03 R43, 14 R308, R309, 15 R319, 16 R335, 25 R433: a fetch ends the hold on its slot; a bind bundle that finds BOUND takes its branch, one that finds
CLAIMED parks, one that finds UNBOUND claims, and one whose entry lies at a peer asks for it; a parked slot without a watch entry polls, in each microsecond; a service request resolves; a switch point changes the variant. What a parked
bundle counts, and the cause of a FAILED entry, are the model's (log 36, log 57). -/
def Obligations.FrontStepsComplete : Prop :=
  ∀ (s : State) (b : Board) (id : Nat),
    (∀ isB p, s.board? id = some b → (b.slotOf isB).path = some p → (b.slotOf isB).fetching = true → s.front b p.pc ≠ .unfetched →
      ∃ t, exec (.bundleFetch id isB) s = .next t
        ∧ t.board? id = some (b.setSlot isB { b.slotOf isB with fetching := false }) ∧ t.mem = s.mem)
    ∧ (∀ a, s.bd = some b → b.frozen = none → s.cur.done = false → s.front b s.cur.pc = .bind → s.frontTrap b = none →
        s.translate b.env.ctx (32 * s.cur.pc.toNat) .r = .ok (.loc a) → s.badAt a = false →
        (∀ f ∈ s.fetches, f.reader ≠ bindReader b.id s.cur.slotB) →
        let q := s.acquire b
        (s.mem.num a 1 % 4 = 2 → exec .bindBundle s = .next (q.1.jump (q.2.start 0) (BitVec.ofNat 48 (s.mem.num (a + 8) 6))))
        ∧ (s.mem.num a 1 % 4 = 1 → exec .bindBundle s = .next (q.1.parkBind q.2 (.loc a) false))
        ∧ (s.mem.num a 1 % 4 = 0 → s.translate b.env.ctx (32 * s.cur.pc.toNat) .rw = .ok (.loc a) →
          exec .bindBundle s = .next ((((q.1.writeLocal (some (q.1.writerOf q.2)) [(a, 1)]).modFrame (b.core / 16) fun f =>
            { f with binds := f.binds ++ [(b.env.ctx, 32 * s.cur.pc.toNat)] }).parkBind q.2 (.loc a) false))))
    ∧ (∀ m a, s.bd = some b → b.frozen = none → s.cur.done = false → s.front b s.cur.pc = .bind → s.frontTrap b = none →
        s.bindAt b .r = .ok (.peer m a) → (∀ f ∈ s.fetches, f.reader ≠ bindReader b.id s.cur.slotB) →
        exec .bindBundle s = .next ((s.acquire b).1.askBind (s.acquire b).2 (.peer m a) .line))
    ∧ (∀ isB (p : BindPark) a, s.board? id = some b → (b.slotOf isB).park = some p → p.watch = none → p.asked = false →
        s.translate b.env.ctx p.entry.toNat .r = .ok (.loc a) → s.mem.num a 1 % 4 ≠ 1 →
        exec (.bindParkPoll id isB) s = .next (s.setBoard (b.setSlot isB { b.slotOf isB with park := none })))
    ∧ (∀ isB (p : BindPark) a, s.board? id = some b → (b.slotOf isB).park = some p → p.watch = none → p.asked = false →
        s.translate b.env.ctx p.entry.toNat .r = .ok (.loc a) → s.mem.num a 1 % 4 = 1 → p.since + 1000 ≤ s.now →
        exec (.bindParkPoll id isB) s = .next (s.setBoard (b.setSlot isB { b.slotOf isB with park := some { p with since := s.now } })))
    ∧ (∀ f k c entry t v, (s.frame f).binds[k]? = some (c, entry) →
        let w := fun (x : State) (o : Nat) (l : List Byte) => (x.devWriteLine c (entry + o) l).toOption.getD x
        exec (.bindRequestService f k (.found t v)) s = .next
          (w (w (w (s.modFrame f fun x => { x with binds := x.binds.eraseIdx k }) 8 (leBytes 8 t.toNat)) 20 [v]) 0 [2]))
    ∧ (∀ v t, s.bd = some b → b.frozen = none → s.cur.done = false → s.switchOf b = some (v, t) →
        ∃ u c, exec .switchPoint s = .next u ∧ u.bd = some c ∧ c.variant = v
          ∧ (c.slotOf s.cur.slotB).path = some ⟨t, s.cur.mask⟩ ∧ u.cur.done = true ∧ s.focusOnly u)

/-- 01 R9, 07 R143, R150, 10 R219, R222, R225, 21 R374: a write that nothing bars is performed at its home; a load that nothing bars returns with its line;
an access of the scratchpad is served in its last wave; a load too long without L1 storage fails; a failure is taken; a peer's answer to a line that
reaches its frame ends the line. The board's own copy of the line, and a line that it still waits for, take what it has written. One step for all waves
of a scratchpad access, the count of the wait for L1 storage from issue, and errors of the scratchpad by words are the model's (log 96, log 27,
log 106). -/
def Obligations.MemoryPathStepsComplete : Prop :=
  ∀ (s : State) (b : Board) (o : MemOp) (id op : Nat), s.board? id = some b → b.op? op = some o →
    (∀ n l a w, o.lines[n]? = some l → l.st = .idle → o.kind = .store w → b.mayPerform o (o.inLine l.va) = true →
      s.lineAt b o l = .ok (.loc a) → s.lineWaits b l = false →
      let d := b.overlay (.loc a) (o.storeBytes l.va)
      exec (.homeWritePerformed id op n) s = .next (((s.writeLocal (some (s.writerOf b))
          ((o.storeBytes l.va).map fun p => (a + p.1, p.2))).updateCopy d (.loc a) (o.storeBytes l.va)).putBoard
        (d.modOp o.id (setLine n fun l => { l with st := .performed, old := [], queued := false }))))
    ∧ (∀ n l a w sx, o.lines[n]? = some l → l.st = .idle → o.kind = .load w sx → b.mayPerform o (o.inLine l.va) = true → b.fillHeld o = false →
      s.lineAt b o l = .ok (.loc a) → s.lineWaits b l = false → s.l1Waits b o (.loc a) = false →
      exec (.memoryLineReturn (.acc id op n) (.ok [])) s = .next (s.loadLine b o n l (.loc a) []))
    ∧ (∀ n l, o.lines[n]? = some l → l.st = .performed → b.fillHeld o = false →
      exec (.memoryLineReturn (.acc id op n) (.ok [])) s = .next (s.putBoard
        (((fillOld b o l.old).modOp o.id (setLine n fun l => { l with st := .done })).settleOp o.id)))
    ∧ (∀ w x, o.space = .scr → o.lanes ≠ [] → o.kind = .store w → b.mayPerform o o.lanes = true → s.bent? b.env.bent = some x →
      let t := s.charge b.env.ctx (b.core / 4) 2 (wavesOf b o)
      t.scrError b o = none → exec (.scratchpadWave id op) s = .next ((t.modBent x.uid fun y =>
        { y with
          scratch := o.lanes.foldl (fun m a => m.write a.va (wordBytes w a.data)) x.scratch
          badScr := whole y.badScr o.scrBytes
          unseen := o.sees y.unseen }).putBoard (b.complete o)))
    ∧ (∀ l, s.l1Late b o = some l → exec (.l1StorageTimeout id op) s = .next (s.putBoard (b.modOp op fun o =>
        { o with lines := o.lines.map fun x => if x.va == l.va then { x with st := .failed 0x1E } else x })))
    ∧ (∀ w cause addr, o.kind = .store w → (∀ g ∈ b.rgates, g.id ≠ op) → s.opFailure b o = some (cause.toNat, addr.toNat) →
      let o' := s.lostAtoms b o
      exec (.operationFail (.acc id op) cause addr) s = .next (s.putBoard ((b.modOp o.id fun _ => o').failOp o' cause addr)))
    ∧ (∀ (r : OutReq) n l w, s.outReqs.find? (·.id == r.id) = some r → r.at_ = .sent → r.plane = r.source → r.mod ∉ s.lost → r.group ≠ 0 →
      r.board = id → r.line = some (op, n) → r.kind = .write w → o.kind.fills = false → o.lines[n]? = some l → l.st = .sent r.id →
      let t : State := { s with heard := put r.mod s.now s.heard, outReqs := s.outReqs.filter (·.id != r.id) }
      (∀ m, o.kind = .store m →
        exec (.memoryLineReturn (.out r.id) (.ok [])) s = .next ((t.updateCopy b l.tgt (o.storeBytes l.va)).putBoard
            (((b.overlay l.tgt (o.storeBytes l.va)).modOp o.id (setLine n fun l => { l with st := .done })).settleOp o.id)))
      ∧ exec (.memoryLineReturn (.out r.id) (.fault 0x1C)) s = .next
          (t.putBoard (b.modOp o.id (setLine n fun l => { l with st := .failed 0x1C }))))

/-- 15 R321, R327, R328, 25 R432: an arrival at a remote gate here is performed once the release before it is; a wake of its gate ends the wait of a
board or a COMBINE, unless it comes of a `.init`: then PHASE is read again, here at once, at a peer by a request; so does a waiter that the list does
not hold. A wake that comes before the answer that registers its waiter counts then, one for a wait that is over is dropped, and a peer's wake crosses
a ring to the frame of its waiter; none comes by a station that is off (17 R357). That wakes go in order, on the plane of ordered traffic, is the model's choice (log 108). -/
def Obligations.GateStepsComplete : Prop :=
  ∀ (s : State) (b : Board) (g : RGate) (w : Wake) (id a : Nat),
    (s.rgate? id = some (b, g) → g.parked = false → g.made = false → g.opr ≤ 1 → g.stage = .start → b.performed g.after = true →
      s.noEntry b.core = false → s.rgateAt b g = .ok (.loc a) → exec (.remoteGateArrival id) s = .next ((s.fillTlb b.env.ctx g.va.toNat).arriveRemote b g a))
    ∧ (s.board? w.board = some b → (w ∈ s.wakes ∨ (w.peer ≠ none ∧ s.wakePasses w = none ∧ s.wakeComes w = true)) →
        let t : State := { s with wakes := s.wakes.erase w }
        let own := b.rgates.find? fun x => !x.parked && x.opr != 1 && x.opr != 3 && t.gateIs b x w
        let g' := { g with woken := none }
        (own = none → w ∈ s.wakes → exec (.gateWake w) s = .next t)
        ∧ (own = some g →
          (g.stage = .wait true → w.again = false → exec (.gateWake w) s = .next (t.endRemote b g))
          ∧ (g.stage = .wait true → w.again = true → t.rgateAt b g = .ok (.loc a) →
              exec (.gateWake w) s = .next (if t.gatePhase a = g.phase then t.setBoard (b.modGate g.id fun g => { g with polled := s.now })
                else t.endRemote b g))
          ∧ (∀ m, g.stage = .wait true → w.again = true → g.req = none → t.rgateAt b g = .ok (.peer m a) →
              exec (.gateWake w) s = .next (t.gateRequest (b.modGate g.id fun _ => g') g' m a (.phaseRead g.phase b.id)))
          ∧ (g.stage = .wait false → w ∈ s.wakes → exec (.gateWake w) s = .next t)
          ∧ (g.stage = .start → g.req ≠ none →
              exec (.gateWake w) s = .next (t.setBoard (b.modGate g.id fun g => { g with woken := some w.again })))))
    ∧ (∀ m, s.board? w.board = some b → w ∉ s.wakes → w.peer = some m → s.wakeComes w = true →
        let p := (s.planesFrom m s.modid.toNat).headD (s.modid.toNat % 8)
        b.core / 16 ≠ p → exec (.gateWake w) s = .next (s.sendSlot p (b.core / 16) true (.wake w)))
    ∧ (s.board? id = some b → b.waiting? = some g → g.stage = .wait false →
        let g' := { g with woken := none }
        (s.rgateAt b g = .ok (.loc a) → exec (.gateWaiterPoll id) s = .next (if s.gatePhase a = g.phase then
          s.setBoard (b.modGate g.id fun g => { g with polled := s.now }) else s.endRemote b g))
        ∧ (∀ m, g.req = none → s.rgateAt b g = .ok (.peer m a) →
            exec (.gateWaiterPoll id) s = .next (s.gateRequest (b.modGate g.id fun _ => g') g' m a (.phaseRead g.phase b.id))))
    ∧ (∀ c m, s.board? w.board = none → s.wakePasses w = none → s.wakeComes w = true →
        let t : State := { s with wakes := s.wakes.erase w }
        t.routeCmds.find? (·.id == w.board) = some c → t.cmdAt c c.cgate .r = .ok (.peer m w.gate) → w.peer = some m →
        c.waiting = true → c.written = true → c.failed = false →
        exec (.gateWake w) s = .next (if w.again = true ∧ c.out = 0 then t.modCmd w.board fun c => { c with written := false, woken := none }
          else t.modCmd w.board fun c => { c with woken := some w.again }))
    ∧ (∀ c p, s.board? id = none → s.routeCmds.find? (·.id == id) = some c → s.peerPhase c = some p → (p.2 = false ∨ c.woken = some true) →
        exec (.gateWaiterPoll id) s = .next (s.modCmd id fun c => { c with written := false, woken := none }))

/-- 08 R165, R168, R172, R187, 11 R245, R250, R252: arrivals behind data are made, waits of routing commands end, and a command that is through is
taken from its engine, its peg one lower. Nothing is charged then: bytes are charged as they are performed (16 R341). That a command writes as a whole
is the model's choice (log 14). -/
def Obligations.EngineStepsComplete : Prop :=
  ∀ (s t : State) (c : Cmd) (core f cmd dev : Nat),
    (s.readyCopy core cmd = some (t, c) →
      (∀ g, (c.plan c.tab).gates.find? (·.1 == dev) = some g → dev ∉ c.arrivals → (∀ f ∈ c.fails, f.2.toNat ≠ g.2) → t.destDone c dev = true →
        t.noEntry core = false → exec (.cpbGateArrival core cmd dev) s = .next (t.engineArrive c 1 dev g.2))
      ∧ (c.out = 0 → c.failed = false → (∀ g ∈ (c.plan c.tab).gates, g.1 ∈ c.arrivals) →
        exec (.copyCommandComplete core cmd) s = .next (t.endCmd c)))
    ∧ (∀ x y u tl tb p, s.readyMatrix core = some (t, c, none) → c.busy = 0 → t.rdvHeld c = false →
        (c.instr = .accSt u tl p → exec (.matrixCommandComplete core) s = .next (t.endCmd c))
        ∧ (c.instr = .accLd u tl p ∨ c.instr = .mma x u tl p ∨ c.instr = .mmas x u tl p →
            exec (.matrixCommandComplete core) s = .next ((t.doRows c 128).endCmd c))
        ∧ (c.instr = .accClr tl p ∨ c.instr = .accRdv x y tl p ∨ c.instr = .accWrv x y tl p ∨ c.instr = .cbtLd u tb p →
            exec (.matrixCommandComplete core) s = .next ((t.doWhole c).endCmd c)))
    ∧ (∀ u p, s.routeCmd? f cmd = some (t, c) →
        (c.instr = .routeXchg u p → c.waiting = true → (∀ d, d < c.ndev → t.cm c (c.arg % 2) d c.nexp = c.arg) →
          exec (.xchgWaitEnd f cmd) s = .next (t.modCmd cmd fun c => { c with waiting := false }))
        ∧ (c.instr = .routeCombine u p → c.waiting = true → t.combineMay c = true →
          exec (.combineGateWaitEnd f cmd) s = .next (t.modCmd cmd fun c => { c with waiting := false }))
        ∧ (c.instr = .routeScatter u p → dev < c.ndev → dev ∉ c.arrivals → t.rowsDone c dev = true → t.gateLost c dev = false →
          (∀ r ∈ t.outReqs, r.cmd = some c.id → r.kind ≠ .arrive) → (∀ d, d < dev → d ∈ c.arrivals) →
          exec (.scatterArrival f cmd dev) s = .next (t.engineArrive c 3 dev (c.devF dev 8)))
        ∧ (∀ x, c.out = 0 → t.runFail c = none → t.finishRoute c = some x → exec (.routeCommandComplete f cmd) s = .next (x.endCmd c)))

/-- 15 R313, R314, R319, R321, 23 R412, 26 R438 to R445: a request of a peer whose home lies in the frame of its station is performed there and answered,
any other goes on by a ring; a slot of a ring is accepted, goes round or returns to its sender; a link that fails, a plane that goes down here, and a
lost and a returning peer are recorded by a DEVICE entry (0x80 to 0x84). The queue of requests at a station, and how a plane that is down at a peer
becomes known, are the model's (log 91, log 88). -/
def Obligations.FabricStepsComplete : Prop :=
  ∀ (s : State) (r : PeerReq) (k src dst p m : Nat) (x : RingSlot) (full : Bool),
    (wellPlaced r = true → r.plane < 8 → s.usable.getLsbD r.plane = true →
      let q := s.resolveReq r
      let key := (r.mod, r.agent)
      let tells := fun (t : State) (a : LineResp) => ({ t with toPeers := ⟨r.mod, r.agent, r.plane, .answer a⟩ :: t.toPeers } : State)
      (s.homeOf r = r.plane → (∀ y ∈ s.inReqs, (y.req.mod, y.req.agent) ≠ key) →
        (r.ordered = false → exec (.remoteRequest r) s = .next (tells q.1 q.2))
        ∧ (r.ordered = true → key ∈ s.barredAgents → r.replay = false → exec (.remoteRequest r) s = .next (tells s .stopped))
        ∧ (r.ordered = true → key ∉ s.barredAgents → r.replay = false →
            (∀ d, q.2 = .ok d → exec (.remoteRequest r) s = .next (tells q.1 q.2))
            ∧ (∀ c, q.2 = .fault c → ∃ t, exec (.remoteRequest r) s = .next (tells t q.2) ∧ key ∈ t.barredAgents ∧ t.mem = q.1.mem))
        ∧ (r.ordered = true → r.replay = true → ∀ d, q.2 = .ok d →
            ∃ t, exec (.remoteRequest r) s = .next (tells t q.2) ∧ key ∉ t.barredAgents ∧ t.mem = q.1.mem))
      ∧ (s.homeOf r ≠ r.plane ∨ (∃ y ∈ s.inReqs, (y.req.mod, y.req.agent) = key) →
        exec (.remoteRequest r) s
          = .next { s with inReqs := s.inReqs ++ [{ id := s.nextUid, req := r }], nextUid := s.nextUid + 1 }))
    ∧ ((s.ring k).up = true → (src, dst, x) ∈ (s.ring k).retry →
        let taken := (isAnswer x.load ∨ full = false) ∧ (x.seq = none ∨ x.seq = some ((s.ring k).next src dst))
        (x.refusals < 2 → taken → ∀ t, (s.modRing k fun q => q.accept src dst x).unload dst x.load = some t →
          exec (.ringSlotArrival k src dst x full false) s = .next t)
        ∧ (x.refusals < 2 → ¬taken → exec (.ringSlotArrival k src dst x full false) s = .next (s.modRing k fun q =>
            { q with retry := q.retry.map fun y => if y = (src, dst, x) then (src, dst, { x with refusals := x.refusals + 1 }) else y }))
        ∧ (2 ≤ x.refusals → exec (.ringSlotResend k src dst x) s = .next (s.modRing k fun q =>
            { q with retry := q.retry.map fun y => if y = (src, dst, x) then (src, dst, { x with refusals := 0 }) else y })))
    ∧ (k < 2 → dst < 8 → (s.ring k).up = true → 64 ≤ (s.ring k).refusals dst (s.now / 1000000) →
        ((s.ring (1 - k)).up = true → ∃ u : State, exec (.ringLinkFail k dst) s
            = .next (u.deviceEntry 0x80 (16 * k + dst) ((s.ring k).refusals dst (s.now / 1000000)))
          ∧ (s.rings.length = 2 → (u.ring k).up = false ∧ (u.ring k).retry = [] ∧ (u.ring (1 - k)).up = true
            ∧ (u.ring (1 - k)).retry.length = (s.ring (1 - k)).retry.length + (s.ring k).retry.length))
        ∧ ((s.ring (1 - k)).up = false → ∃ u : State, u.halted = true
          ∧ exec (.ringSecondLinkFail k dst) s = .next ((u.deviceEntry 0x81 (16 * k + dst) 0).abortAll 5)))
    ∧ (p < 8 → s.planes.getLsbD p = true → ∃ u : State, exec (.ualinkPlaneDown p) s = .next (u.deviceEntry 0x82 p 0)
        ∧ u.planes = s.planes &&& ~~~(BitVec.ofNat 8 (2 ^ p)))
    ∧ (p < 8 → m < 1024 → (m, p) ∉ s.farDown → exec (.ualinkPlaneDown (8 + 8 * m + p)) s = .next { s with farDown := (m, p) :: s.farDown })
    ∧ (m ∉ s.lost → ((∀ p, p < 8 → s.planes.getLsbD p = false ∨ (m, p) ∈ s.farDown)
          ∨ (look m 0 s.heard + 1000000 ≤ s.now ∧ ∃ r ∈ s.outReqs, r.mod = m ∧ r.at_ ≠ .back ∧ r.since + 1000000 ≤ s.now)) →
        ∃ u : State, exec (.peerLost m) s = .next (u.deviceEntry 0x83 0 m) ∧ m ∈ u.lost
          ∧ ∀ f ∈ u.frames, ∀ w ∈ f.waiters, w.peer ≠ some m)
    ∧ (m ∈ s.lost → exec (.peerAnsweringAgain m) s = .next
        ({ s with lost := s.lost.filter (· != m) }.deviceEntry 0x84 0 m))

/-- 13 R276 to R286, 25 R421 to R426, 26 R458: a notify write moves QTAIL and queues the entries it names, unless the queue is disabled; an active slot
takes the best waiting queue; a slice begins; blocks, graphs and nodes are accepted; an acceptance waits for watch entries, and dependences that are
met, or that find no entry for 1 ms, end their wait. A wait holds the entries that it has found (25 R425, log 55). That a notify write to a disabled queue
changes nothing is the model's choice (log 15): R277 lets the write set QTAIL. -/
def Obligations.WorkEntryStepsComplete : Prop :=
  ∀ (s : State) (fn queue slot bay id : Nat) (v : BitVec 32) (r : LaunchReq),
    (s.linkUp = true → queue < 1024 → fn < 32 → (s.queue queue).owner = some fn →
      (v - (s.queue queue).head).toNat ≤ 2 ^ (s.queue queue).size.toNat →
      ((s.queue queue).en = true → exec (.notifyWrite fn queue v) s = .next ({ s with nextUid := s.nextUid + 1 }.modQueue queue fun q =>
        { q with tail := v, notified := if v = q.head then [] else q.notified ++ [(v, s.nextUid)] }))
      ∧ ((s.queue queue).en = false → exec (.notifyWrite fn queue v) s = .next s))
    ∧ (∀ w, s.bestWaiting = some w → slot < 32 → s.slotQueue slot = none → exec (.queueSlotFill slot) s = .next (s.mapSlot slot w.1))
    ∧ (bay < 32 → (s.bay bay).slice < s.now / 200000 →
        ∃ t, exec (.sliceBoundary bay) s = .next t ∧ (bay ≠ 0 → t = s.modBay bay fun y => { y with slice := s.now / 200000 }))
    ∧ (s.launches.find? (·.id == id) = some r → s.launchReady r = true →
        (r.graph = false → ∀ l b k ds, s.tryLaunch r = .ok (l, b, k, ds) →
          (s.restFits r ds = true → exec (.launchAccept id) s = .next ((s.addGrid r.ctx b k (s.originOf r) r.cap ds).endLaunch r))
          ∧ (s.restFits r ds = false → r.waiting = none → exec (.launchAccept id) s = .next { s with launches := s.launches.map fun x =>
              if x.id = r.id then
                { r with bytes := l, waiting := some s.now, taken := (s.fitting { r with bytes := l } ds).map fun d => homeFrame d.addr }
              else x }))
        ∧ (r.graph = true → ∀ t, s.tryGraph r = .done t → exec (.graphInstanceAccept id) s = .next (t.endLaunch r)))
    ∧ ((s.queue queue).pending = true → s.linkUp = true → (s.ctx? (s.queue queue).ctx).any (fun c => (s.queue queue).owner == some c.fn) = true → s.mapped.any (·.2 == queue) = true →
        (∀ r ∈ s.launches, r.queue = some queue → r.stale = true) →
        let q := s.queue queue
        let at_ := q.base.toNat + 64 * (q.head.toNat % 2 ^ q.size.toNat)
        let own := s.asReader (queueReader queue)
        ∀ l b k ds, own.block q.ctx at_ 64 = .ok l → fieldAt l 13 1 ≠ 0 → own.tryBlock q.ctx .queue l = .ok (b, k, ds) → s.depsFit ds = true →
        exec (.queueBlockAccept queue) s
          = .next ((s.addGrid q.ctx b k (.queue (s.ctxOf q.ctx).fn queue) q.maxr.toNat ds).advanceHead queue))
    ∧ (∀ g, s.grid? id = some g → g.runnable = false → g.aborted = false → g.deps.all (·.met) = true →
        exec (.dependenceSatisfied id) s = .next (s.makeRunnable id))
    ∧ (∀ x n node l b k, s.graph? id = some x → x.nodes[node]? = some n → x.aborted = false → n.read = false → n.deps.all (·.met) = true →
        (s.asReader (nodeReader id node)).block x.ctx (x.nodesAt + 64 * node) 64 = .ok l →
        (s.asReader (nodeReader id node)).judgeBlock x.ctx .node l = .ok (b, k) →
        exec (.graphNodeReady id node) s = .next (((s.unfetch (nodeReader id node)).modGraph id fun y =>
            { y with nodes := modAt node (fun n => { n with read := true, grid := some s.nextUid }) y.nodes }).addGrid
          x.ctx (nodeBlock x.area b) k (.node id node) x.rank []))
    ∧ (∀ t l b k ds, s.launches.find? (·.id == id) = some r → r.waiting = some t → t + 1000000 ≤ s.now → r.graph = false →
        s.tryLaunch r = .ok (l, b, k, ds) → s.restFits r ds = false →
        exec (.dependenceWatchTimeout id) s = .next (s.failAccept r { cause := 0x35, detail := (s.fitting r ds).length }))

/-- 02 R24, R28, R36, 13 R289 to R291, 16 R345, 25 R436: a bent is created in places that suit its grid; a board that has nothing outstanding
retires; a bent that is parked or forced leaves, and returns to places that suit it unless the next bent of its grid, for which it has made way, comes
first; one is forced out; one migrates, or its migration is abandoned and not begun again for 10 ms; an uncorrectable error in what a bent takes with it
aborts its grid.
A bent enters no place in the scope of a release that orders nothing, before what that release covers has been performed (log 95). The layout of an image,
and what a record without a trap holds, are the model's (log 49, log 100). -/
def Obligations.BentStepsComplete : Prop :=
  ∀ (s : State) (x : Bent) (g : Grid) (b : Board) (id : Nat) (ps : List Place),
    (s.grid? id = some g → s.mayAdmit g ps = true → s.laxAt ps = false → exec (.bentCreate id ps) s = .next (s.enterBent g none ps))
    ∧ (s.board? id = some b → s.retires b = true → s.lateFor b = false → exec (.boardRetire id) s = .next ((s.hadTurn b).removeBoard b))
    ∧ (s.bent? id = some x →
      let xs := s.groupBents x
      (x.away = false → x.moving = none → (∀ y ∈ xs, y.forced = true ∨ s.allParked y = true) → (∀ y ∈ xs, s.trapFrozen y = false) →
        (∀ y ∈ xs, s.saveBlocked y false = false) → (if x.forced then s.imagesFit xs else s.imagesReserve xs) = true →
        let own := ((s.grid? x.grid).map fun g => s.waitsIn g x.bay).getD false
        exec (.bentSwitchOut id) s = .next (xs.foldl (fun s y =>
          ((if y.forced then s else s.captureBent y).saveBent y).modBent y.uid fun y => { y with madeWay := own }) s))
      ∧ (∀ g, s.grid? x.grid = some g → (∀ y ∈ xs, s.writesOpen y = false) → (∀ y ∈ xs, y.moving ≠ none ∧ s.saveBlocked y true = false) → x.away = false →
        xs.map (·.moving) = ps.map some → s.laxAt ps = false → (s.lifted xs).mayReturn xs ps = true →
        exec (.bentRestore id ps) s = .next (if xs.any s.stateBad then s.abortGrid g.uid 3 none else s.comeBack xs ps))
      ∧ (∀ p t, s.grid? x.grid = some g → (∀ y ∈ xs, s.writesOpen y = false) → x.away = true → ps = p :: t → s.laxAt ps = false → s.mayReturn xs ps = true →
        s.firstIn g (p.core / 4) = true → s.yields x g (p.core / 4) = false → (x.group = 0 ∨ s.bayGatesFree (p.core / 4) x.group = true) →
        exec (.bentRestore id ps) s = .next (if s.imageBad g.ctx = true ∨ xs.any s.free.stateBad = true
          then s.free.abortGrid g.uid 3 none else s.free.comeBack xs ps))
      ∧ (s.forceable x = true → (∀ y ∈ s.bents, y.bay = x.bay → s.forceable y = true → y.uid ≠ x.uid → s.forcedBefore y x = false) →
        exec (.forcedPreemption id) s = .next (xs.foldl (fun s y => (s.captureBent y).modBent y.uid fun y => { y with forced := true }) s))
      ∧ (∀ p t, ps = p :: t → x.away = false → (∀ y ∈ xs, y.forced = false ∧ y.noMove ≤ s.now ∧ s.trapFrozen y = false) →
        (∀ y ∈ s.bents, y.bay = x.bay → y.moving = none) →
        p.core / 4 ≠ x.bay → s.tooWarm x.bay (p.core / 4) = true → s.mayReturn xs ps = true → x.group = 0 →
        exec (.thermalMigration id ps) s = .next ((xs.zip ps).foldl (fun s q => (s.captureBent q.1).modBent q.1.uid fun y =>
          { y with moving := some q.2 }) s))
      ∧ (s.grid? x.grid = some g → xs.mapM (·.moving) = some ps → (s.lifted xs).mayReturn xs ps = false →
        ∃ t, exec (.migrationAbandon id) s = .next t ∧ (xs.any s.stateBad = false →
          ∀ y ∈ t.bents, y.uid ∈ xs.map (·.uid) → y.moving = none ∧ y.noMove = s.now + 10000000)))

/-- 12 R266, R267, R270, 23 R413: an arming that is judged well enters its entry and fills its handle; a record becomes eligible; a handler starts; the
service cores answer a paging trap: the leaves of PGMAP's map are written, their range invalidated, every DISP set to 0 and the broken bits cleared,
PGCNT counts, and the board is restored with ACTION 0; without a map the trap is delivered. -/
def Obligations.WatchStepsComplete : Prop :=
  ∀ (s : State) (b : Board) (id op f k : Nat),
    (∀ (o : MemOp) x fr w pins, s.board? id = some b → b.op? op = some o → o.kind = .arm x → o.fail = none → b.fillHeld o = false →
      b.mayPerform o [] = true → (s.asReader op).judgeArm b x.toNat = .ok (fr, w, pins) → s.pinsFit fr b.env.ctx pins = true →
      ∃ t, exec (.watchArmComplete id op) s = .next t
        ∧ (b.frozen = none → s.leaving b = false → t.mem = s.mem
          ∧ t.board? id = some ((b.fill o.dest 0 [handleOf fr ((s.frame fr).nextGen (s.freeSlot fr)) (s.freeSlot fr)]).complete o)
          ∧ (fr < s.frames.length → (t.frame fr).watches
              = (s.frame fr).watches ++ [{ w with idx := s.freeSlot fr, gen := (s.frame fr).nextGen (s.freeSlot fr) }])))
    ∧ (∀ w p, (s.frame f).watches.find? (·.idx == k) = some w → w.pend = some p → p.eligible = false → p.wtime + 64 * w.win ≤ s.now →
        exec (.recordEligible f k) s = .next ({ s with nextUid := s.nextUid + 1 }.modWatch f k fun w =>
          { w with pend := some { p with eligible := true, order := s.nextUid } }))
    ∧ (∀ w p e place, (s.frame f).watches.find? (·.idx == k) = some w → w.pend = some p → w.startable s.now = true →
        let who := watchReader f k
        ((s.asReader who).judgeBlock w.ctx .handler w.blockBytes = .error e → e.waits = false →
          exec (.handlerStart f k place) s = .next (((s.unfetch who).modWatch f k fun w => { w with pend := none }).engineEntry w.ctx e.cause e.detail 1
            (e.addr.getD w.hblk) (handleOf f w.gen w.idx).toNat))
        ∧ (∀ blk kn g, (s.asReader who).judgeBlock w.ctx .handler w.blockBytes = .ok (blk, kn) → s.mayAdmit (w.claim f) [place] = true →
          s.laxAt [place] = false →
          let t := ((s.unfetch who).modWatch f k fun w => { w with pend := none, starts := s.now :: w.starts.filter fun t => s.now < t + 1024 }).addGrid
            w.ctx blk kn (.watch f k p.depth) w.cap []
          t.grid? s.nextUid = some g →
          exec (.handlerStart f k place) s = .next (t.enterBent g (some ⟨recordWords f w p⟩) [place])))
    ∧ (∀ fr, s.board? id = some b → b.frozen = some fr → fr.held = true → (s.ctxOf b.env.ctx).pgmap = 0 →
        let c := { b with frozen := some { fr with held := false } }
        exec (.pagingService id) s = .next ((s.setBoard c).deliver c { fr with held := false }))
    ∧ (∀ fr ls, s.board? id = some b → b.frozen = some fr → fr.held = true → (s.ctxOf b.env.ctx).pgmap ≠ 0 →
        let f' := { fr with held := false }
        let c := { b with frozen := some f' }
        s.leavesFor c = some ls →
        let t := ls.foldl (fun (s : State) l => s.writeLocal none (bytesAt l.1 (leBytes 8 l.2.1.toNat))) s
        let t : State := { t with tlb := t.tlb.filter fun e =>
          !(e.ctx == b.env.ctx && ls.any fun l => e.base < l.2.2.1 + l.2.2.2 && l.2.2.1 < e.base + e.size) }
        let a := t.recordAt c
        let w := bytesAt (a + 0x68) (tab 8 fun k => BitVec.ofNat 8 (bits (t.mem.num (a + 0x68) 8) (8 * k) 7)) ++ [(a + 2, 0)]
          ++ (List.range (min b.parked.length 16)).map fun k => (a + 0x302 + 64 * k, 0)
        exec (.pagingService id) s
          = .next ((((t.writeLocal none w).modCtx b.env.ctx fun x => { x with pgcnt := x.pgcnt + 1 }).setBoard c).restore c f' 0 0))

/-- 03 R42, 01 R11, 16 R333, R337, R338, 23 R414: a bay's period comes at its boundary when nothing of the bay comes before it, and wall time stands
at the boundary after it; an engine takes the command first presented; droop phases and correction freezes begin and end, and corrections are counted.
Counting a response in periods of the bay, and the numbers of units that are no cores, are the model's (log 78, log 106). -/
def Obligations.ClockStepsComplete : Prop :=
  ∀ (s : State) (bay core : Nat) (e : EngineId),
    (s.mayTick bay = true → ∃ t, exec (.coreClockPeriod bay) s = .next t ∧ t.wall = max (s.bay bay).nextEdge s.wall ∧ t.mem = s.mem
      ∧ t.hostMem = s.hostMem)
    ∧ (∀ h n one q, firstHeld (s.heldFor e) = some (h, n, one, q, true) → (s.partAt n).ticking = true →
        (∀ x, s.board? q = some x → s.lateFor x = true → s.arrivesNext q = false) → exec (.engineCommandAccept e) s = .next (s.modPart n fun p => p.modPort one fun q => { q with grant := true }))
    ∧ (∀ d, (s.bay bay).droop = some d → s.atEdge bay = true →
        (d.stretch = 1 → exec (.droopStretchEnd bay) s = .next
          (s.modBay bay fun y => { y with droop := some { stretch := 0, window := 64, skip := false, half := true } }))
        ∧ (d.stretch = 0 → d.half = true → d.window = 0 → d.skip = false → exec (.droopWindowEnd bay) s = .next (s.modBay bay fun y => { y with droop := none })))
    ∧ (core < 128 → s.runs (core / 4) = true → exec (.eccCorrection core) s
        = .next ((s.modCore core fun c => { c with freeze := 25 }).countCorrected (core / 16) (core % 16)))
    ∧ (∀ f k, f < 8 → k < 6 → s.rails = true → exec (.eccCorrection (128 + 8 * f + k)) s = .next (s.countCorrected f (16 + k)))
    ∧ (core < 128 → (s.core core).freeze = 1 → exec (.correctionFreezeEnd core) s = .next (s.modCore core fun c => { c with freeze := 0 }))

/-- 16 R333, R337 to R340, R344 to R349, 26 R449 to R451: the grant follows the lowest limit and the clock follows the rail; alarms, readings,
leases, measurements, pacing windows and reports, and time exchanges have the effect of their rules; a brownout stops its bay, aborts every grid with a
resident bent in it, and writes EVENT 0x85 with the bay and the number of those bents; the bay restarts.
Where the limits and the groups stand, the clock of a lease, the rate of slewing and when a stopped rail has reached its target are the model's (log 62,
log 63, log 69, log 71, log 85). -/
def Obligations.PowerStepsComplete : Prop :=
  ∀ (s : State) (bay mv temp watts group mod window slack master : Nat),
    (s.runs bay = true → (s.bay bay).granted ≠ s.limit bay → s.bayQuiet bay = true →
      ∃ r, exec (.grantChange bay) s = .next (s.free.modBay bay fun y =>
        { y with granted := s.limit bay, running := min y.running (s.limit bay), rail := r, railAt := s.wall }))
    ∧ (s.runs bay = true → (s.bay bay).running < (s.bay bay).granted → (s.bay bay).granted = s.limit bay → s.bayQuiet bay = true →
        targetOf (s.bay bay).granted ≤ (s.bay bay).rail + 10 * ((s.bay bay).nextEdge - (s.bay bay).railAt) / 6552 →
        exec (.clockSwitch bay) s = .next (s.modBay bay fun y =>
          { y with running := y.granted, rail := max y.rail (targetOf (s.bay bay).granted), railAt := s.wall }))
    ∧ (s.runs bay = true → exec (.droopAlarm bay mv) s = .next (
        if targetOf (s.bay bay).running ≤ 1000 * (mv + (s.bay bay).drpMv.toNat) then s
        else s.modBay bay fun y => { y with
          drpCnt := if y.drpCnt = 255 then 255 else y.drpCnt + 1
          droop := if y.drpEn = true ∧ ∀ d, y.droop = some d → d.stretch = 0 then some { stretch := 7, window := 0 } else y.droop }))
    ∧ (bay < 32 → s.rails = true → exec (.thermalSample bay temp) s = .next (s.modBay bay fun y => y.sampled s.tmig s.tcap temp).boundPace)
    ∧ (∀ t, s.capEnd = some t → t ≤ s.wall →
        exec .capLeaseExpiry s = .next ({ s with cap := s.safecap.toNat, capEnd := none }.deviceEntry 0x87 0 (s.safecap.toNat / 4)))
    ∧ (s.rails = true → watts ≤ s.cap → 95 * s.cap < 100 * watts →
        exec (.powerMeasurement watts) s = .next { s.boundPace with power := watts, overCap := 0, capEvent := none })
    ∧ (∀ p, s.paces.find? (·.num == group) = some p →
        (s.now / 1000000 ≠ p.window → ∃ t q, exec (.paceWindowEnd group) s = .next t ∧ t.paces.find? (·.num == group) = some q
          ∧ (let slack := min 65536 (p.waited * 65536 / 6552000000)
             q = { p with waited := 0, window := s.now / 1000000, slacks := (slack :: p.slacks).take 5 }
             ∧ t.paceSent = ((p.members.filter fun m => !(s.planesFrom m 0).isEmpty).map fun m => (m, group, p.window, slack)) ++ s.paceSent)
          ∧ (∀ f ∈ t.frames, ∀ y ∈ f.bays, y.pace ≤ y.paceTop)
          ∧ (bay / 4 < s.frames.length → bay % 4 < (s.frame (bay / 4)).bays.length →
            let y := s.bay bay
            let z := t.bay bay
            (s.now < y.paceHold → z.pace = min y.pace y.paceTop)
            ∧ (y.paceHold ≤ s.now → y.pace ≤ y.paceTop → z.pace ≤ y.pace + 1 ∧ y.pace ≤ z.pace + 1)
            ∧ (z.pace ≠ y.pace → z.paceHold = s.now + 2000000)))
        ∧ (s.planesFrom mod 0 ≠ [] → exec (.paceReport group mod window slack) s = .next
          (s.modPace group fun p => { p with reports := ((mod, window, slack) :: p.reports).take 8192 })))
    ∧ (s.linkUp = true → ∃ t, exec (.ptmExchange master) s = .next t ∧ t.synced = true
        ∧ (s.synced = false → s.time < 6552 * master → t.now = master ∧ t.timeErr = 0)
        ∧ (s.synced = true → t.time = s.time ∧ t.timeErr = 6552 * (master : Int) - s.time))
    ∧ (s.runs bay = true → mv < 570 → ∃ t : State, exec (.brownout bay mv) s
          = .next (t.deviceEntry 0x85 (bay / 4 * 16 + bay % 4) (s.bents.filter fun x => !x.away && x.bay == bay).length)
        ∧ (bay / 4 < s.frames.length → bay % 4 < (s.frame (bay / 4)).bays.length → (t.bay bay).stopped = true)
        ∧ (∀ x ∈ s.bents, x.away = false → x.bay = bay → ∀ g, t.grid? x.grid = some g → g.aborted = true))
    ∧ (bay < 32 → (s.bay bay).stopped = true → (s.bay bay).heldFrom + 6552000000 ≤ s.wall →
        exec (.bayRestart bay) s = .next (s.modBay bay fun y =>
          { y with stopped := false, granted := 0, running := 0, rail := 600000, railAt := s.wall, nextEdge := s.wall }))

/-- 17 R352, R355, R356, 14 R298, 26 R450: the commands of the mailbox complete with their results, TLB invalidations run until no page of their
range is pinned, and an unassigned code gives 0x10. That operands are read at the completion is the model's (log 77). -/
def Obligations.MailboxStepsComplete : Prop :=
  ∀ (s : State) (fn : Nat) (id : BitVec 16) (v : BitVec 64), s.hostAt fn = true →
    let code := if (s.fn fn).mbBusy then some (fieldAt (s.fn fn).mbcmd 0 2) else none
    (∀ w, code = some 1 → s.synced = true → s.createOk fn = true → s.operand fn 40 2 = 0 → s.freeWindow fn = some w → s.ctxs.length < 256 →
      id ≠ 0 → (∀ c ∈ s.ctxs, c.ctxid ≠ id) →
      ∃ t c, exec (.ctxCreate fn id) s = .next t ∧ t.ctx? id = some c ∧ c.fn = fn ∧ c.window = w ∧ c.root = BitVec.ofNat 64 (s.operand fn 8 8)
        ∧ c.dsbase = BitVec.ofNat 64 (s.operand fn 16 8) ∧ c.savebase = BitVec.ofNat 64 (s.operand fn 24 8) ∧ c.podgrp = 0 ∧ c.nextFrid = 1
        ∧ c.vmap = BitVec.ofNat 32 (s.operand fn 44 4 % 65536))
    ∧ (code = some 2 → exec (.ctxDestroy fn) s = .next (match s.ctxOfFn fn (BitVec.ofNat 16 (s.operand fn 8 2)) with
        | none => s.mailDone fn 0x10 []
        | some _ => (s.endContext (BitVec.ofNat 16 (s.operand fn 8 2))).mailDone fn 0 []))
    ∧ (code = some 3 → exec (.capSet fn) s = .next (if fn = 0 then
        let r := s.applyCap (BitVec.ofNat 128 (s.operand fn 8 16)); r.1.mailDone fn r.2 [] else s.mailDone fn 0x13 []))
    ∧ (code = some 4 → exec (.stepRead fn) s = .next (match s.records[s.operand fn 8 4]? with
        | none => s.mailDone fn 0x10 []
        | some r => s.mailDone fn 0 r.bytes))
    ∧ (∀ c, code = some 5 → s.ctxOfFn fn (BitVec.ofNat 16 (s.operand fn 8 2)) = some c → c.podgrp ≠ 0 → s.operand fn 10 2 < 1024 →
        s.operand fn 12 2 ≠ 0 → exec (.ctxMove fn (some v)) s = .next (if covers c.features v then
          (s.modCtx (BitVec.ofNat 16 (s.operand fn 8 2)) fun c => { c with
            movedTo := some (BitVec.ofNat 10 (s.operand fn 10 2), BitVec.ofNat 16 (s.operand fn 12 2)) }).mailDone fn 0 []
          else s.mailDone fn 0x12 []))
    ∧ (∀ k, code = some k → k = 0 ∨ 5 < k → exec (.mailboxUnassignedCode fn) s = .next (s.mailDone fn 0x10 []))
    ∧ ((s.fn fn).tibusy = none → s.ctxOfFn fn (v.extractLsb' 0 16) ≠ none → v.extractLsb' 16 32 ≠ 0 →
        exec (.tlbInvalidate fn v) s = .next (s.modFn fn fun f => { f with tiErr := false, tibusy := some {
          ctx := v.extractLsb' 0 16, base := f.tibase.toNat / 65536 % 2 ^ 32 * 65536, pages := (v.extractLsb' 16 32).toNat } }))
    ∧ (∀ t, (s.fn fn).tibusy = some t → (∀ f ∈ s.frames, ∀ p ∈ f.pins, t.meets p.ctx p.base p.size = false) →
        exec (.tlbInvalidateComplete fn) s = .next
          ({ s with tlb := s.tlb.filter fun e => !t.meets e.ctx e.base e.size }.modFn fn fun f => { f with tibusy := none }))

/-- 13 R276, 16 R337, R343, 17 R354, R357, 21 R373, R380, R383, 26 R458: writes of the host registers, AtomicOps on device memory, the two reads
that clear with the values they return, and FRESUME, which the ERET of the freeze's handler shuts out once it has been issued. The offsets of BAR4, its
grants and the vectors are the model's (log 4), and so is that a queue which is disabled leaves its active slot at once (log 15). -/
def Obligations.RegisterStepsComplete : Prop :=
  ∀ (s : State) (fn q bay win off n : Nat) (v : BitVec 32) (v8 : BitVec 8) (v64 cmp : BitVec 64) (wd : Bool), s.hostAt fn = true →
    (q < 1024 → (s.queue q).owner = some fn → (s.queue q).en = true →
      exec (.qcfgWrite fn q v) s = .next (if v.getLsbD 8 then s
        else { s.modQueue q fun x => { x with en := false } with mapped := s.mapped.filter (·.2 != q) }))
    ∧ (q < 1024 → (s.queue q).owner = some fn → (s.queue q).en = false →
        ∃ t, exec (.qcfgWrite fn q v) s = .next t ∧ (t.queue q).ctx = v.extractLsb' 16 16 ∧ (t.queue q).maxr = v.extractLsb' 5 3
          ∧ (t.queue q).size = v.extractLsb' 0 5
          ∧ ((t.queue q).en = true ↔ v.getLsbD 8 = true ∧ 1 ≤ (v.extractLsb' 0 5).toNat ∧ (v.extractLsb' 0 5).toNat ≤ 20
              ∧ (s.queue q).base.toNat % 64 = 0 ∧ (s.ctxOfFn fn (v.extractLsb' 16 16)).isSome = true)
          ∧ ((t.queue q).en = true → (t.queue q).head = 0 ∧ (t.queue q).tail = 0))
    ∧ exec (.fqcfgWrite fn v) s = .next (s.modFn fn fun f =>
        if f.fqEn then { f with fqEn := v.getLsbD 8 }
        else { f with fqSize := v.extractLsb' 0 5, fqEn := v.getLsbD 8 && decide (4 ≤ (v.extractLsb' 0 5).toNat)
                        && decide ((v.extractLsb' 0 5).toNat ≤ 16) && (f.fqbase.toNat % 64 == 0) })
    ∧ (q < 1024 → fn ≠ 0 → exec (.qownWrite fn q v8) s = .next s)
    ∧ (q < 1024 → fn = 0 → ∃ t, exec (.qownWrite fn q v8) s = .next t ∧ (t.queue q).own = v8 &&& 0x9F)
    ∧ exec (.modsetWrite fn v) s = .next (if fn = 0 ∧ s.uaen = 0 then { s with modid := v.extractLsb' 0 10 } else s)
    ∧ (∀ c, win < 256 → s.ctxAt fn win = some c → exec (.estWrite fn win v) s = .next (s.modCtx c.ctxid fun c =>
        { c with
          est := c.est &&& ~~~(v.extractLsb' 0 2)
          edyn := if v.getLsbD 0 then 0 else c.edyn
          estat := if v.getLsbD 1 then 0 else c.estat }))
    ∧ (bay < 32 →
        let y := s.bay bay
        let t := fun (v : Nat) => ({ s with completions := (fn, 0x1F8000 + 4 * bay, BitVec.ofNat 64 v) :: s.completions } : State)
        exec (.drpthRead fn bay) s = .next (if fn = 0 then
          (t (y.drpMv.toNat + 65536 * y.drpCnt.toNat + 2 ^ 31 * y.drpEn.toNat)).modBay bay fun y => { y with drpCnt := 0 } else t 0))
    ∧ exec (.fqlostRead fn) s = .next
        (({ s with completions := (fn, 0x1F2014, BitVec.ofNat 64 (s.fn fn).fqlost.toNat) :: s.completions } : State).modFn fn fun f => { f with fqlost := 0 })
    ∧ exec (.registerWrite fn off (.write n v64)) s = .next (s.barWrite fn off v64 n)
    ∧ (bar4 ≤ off → off < grants →
        exec (.registerWrite fn off (.fetchAdd wd v64)) s = .next (s.hostAtomic fn (off - bar4) .add wd v64 0)
        ∧ exec (.registerWrite fn off (.swap wd v64)) s = .next (s.hostAtomic fn (off - bar4) .exch wd v64 0)
        ∧ exec (.registerWrite fn off (.cas wd v64 cmp)) s = .next (s.hostAtomic fn (off - bar4) .cas wd v64 cmp))
    ∧ (∀ c b f, win < 256 → s.ctxAt fn win = some c →
        s.allBoards.find? (fun b => b.env.ctx == c.ctxid && b.slotIdx == v64.toNat % 2 ^ 14 && b.frozen.isSome) = some b → b.frozen = some f →
        exec (.fresume fn win v64) s = .next
          (if f.frid = v64.extractLsb' 32 32 ∧ s.eretTaken b = false then s.restore b f (v64.toNat >>> 16 % 2 ^ 8) 2 else s))

/-- 17 R358 to R361, 26 R450, R453 to R457: resets, the host link, the sideband port and power. What a start runs in one step, what a reset keeps,
and the form of STATUS are the model's (log 12, log 73, log 74, log 76). -/
def Obligations.ResetLinkAndSidebandStepsComplete : Prop :=
  ∀ (s : State) (fn idx f : Nat) (m : BitVec 128) (fails : List StepFail),
    (s.hostAt fn = true → fn ≠ 0 →
      exec (.functionLevelReset fn) s = .next ((s.clearFn fn).1.deviceEntry 0x88 fn (s.clearFn fn).2))
    ∧ (s.hostAt 0 = true → exec .pfFunctionLevelReset s = .next s.resetAll)
    ∧ (s.rails = true → s.linkUp = true → ∃ t, exec .surpriseLinkLoss s = .next t ∧ t.linkUp = false ∧ t.linkLost = some s.now ∧ t.mem = s.mem)
    ∧ (∀ t, s.linkLost = some t → s.linkUp = false → s.linkReset = false →
        (t + 10000000 ≤ s.now → exec .linkLossTimeout s = .next { s.resetAll with linkReset := true })
        ∧ (s.rails = true → s.now < t + 10000000 → exec .linkRetrain s = .next
          ({ s with linkUp := true, linkLost := none, linkReset := false }.deviceEntry 0x89 0 (min 65535 ((s.now - t) / 1000000)))))
    ∧ (∃ l, exec .sidebandStatus s = .next { s with sideband := l :: s.sideband } ∧ l.length = 3 + s.frames.length)
    ∧ (s.ctrl = true →
        (∃ r k, exec (.sidebandCap m) s = .next { r with sideband := [k] :: r.sideband } ∧ (r, k.toNat) = s.applyCap m)
        ∧ exec (.sidebandStepRead idx) s = .next { s with sideband := ((s.records[idx]?).map StepRec.bytes).getD [] :: s.sideband }
        ∧ exec (.logRead idx) s = .next { s with sideband := (s.devLog[idx]?).getD [] :: s.sideband }
        ∧ exec .funcReset s = .next ((if s.rails then s.resetAll else s).reply [0])
        ∧ exec .capseqClear s = .next { s with capSeq := 0, sideband := [0] :: s.sideband }
        ∧ (∃ lo hi c d, exec .firmwareUpdate s = .next { s.free.free with records := [], fwCtrl := c, fwCores := d, tmig := lo, tcap := hi })
        ∧ ∃ t, exec .moduleReset s = .next t ∧ t.sideband = [0] :: s.sideband ∧ t.rails = false ∧ t.ctxs = [] ∧ t.boards = [] ∧ t.records = s.records ∧ t.wall = s.wall)
    ∧ (s.rails = true → f < 8 → (s.frame f).inService = true → (s.frame f).hung = false →
        exec (.frameHung f) s = .next ((s.modFrame f fun x => { x with hung := true }).deviceEntry 0x8A f 0))
    ∧ (s.rails = true → ∃ t, exec .mainRailsOff s = .next t ∧ t.rails = false ∧ t.mem = [] ∧ t.bd = none ∧ t.ctrl = s.ctrl)
    ∧ (∀ late, s.late ≠ [] → (∃ f ∈ s.late, f ∉ late) → ∃ t, exec (.powerOn { fails, late }) s = .next t ∧ t.late = s.late.filter late.contains)
    ∧ (s.rails = false → s.late = [] → ∃ t, exec (.powerOn { fails }) s = .next t ∧ t.starts = s.starts + 1
        ∧ (fails = [] → s.records = [] → (∀ r ∈ s.rings, r.link = none) → t.rails = true ∧ t.ctrl = true ∧ t.linkUp = true ∧ t.planes = 255
            ∧ t.time = 0 ∧ (∀ k, k < 8 → (t.frame k).inService = true)))
end

