-- ==== Sys2Proof/Laws/Arms.lean ====
section
/-!
SUPPORT. Each arm of exec as an equation: the step is its meaning.
-/
namespace Sys2Proof.Machine

variable (s : State)

theorem exec_mov {d} {a} : exec (.mov d a) s = execMov d a s := rfl
theorem exec_movi {d} {imm} : exec (.movi d imm) s = execMovi d imm s := rfl
theorem exec_sel {d} {a} {b} {c} : exec (.sel d a b c) s = execSel d a b c s := rfl
theorem exec_fadd {d} {a} {b} {rm} : exec (.fadd d a b rm) s = execFadd d a b rm s := rfl
theorem exec_fsub {d} {a} {b} {rm} : exec (.fsub d a b rm) s = execFsub d a b rm s := rfl
theorem exec_fmul {d} {a} {b} {rm} : exec (.fmul d a b rm) s = execFmul d a b rm s := rfl
theorem exec_ffma {d} {a} {b} {c} {rm} : exec (.ffma d a b c rm) s = execFfma d a b c rm s := rfl
theorem exec_fmin {d} {a} {b} : exec (.fmin d a b) s = execFmin d a b s := rfl
theorem exec_fmax {d} {a} {b} : exec (.fmax d a b) s = execFmax d a b s := rfl
theorem exec_fabs {d} {a} : exec (.fabs d a) s = execFabs d a s := rfl
theorem exec_fneg {d} {a} : exec (.fneg d a) s = execFneg d a s := rfl
theorem exec_fcmp {d} {a} {b} {cond} : exec (.fcmp d a b cond) s = execFcmp d a b cond s := rfl
theorem exec_fclass {d} {a} : exec (.fclass d a) s = execFclass d a s := rfl
theorem exec_frcp {d} {a} : exec (.frcp d a) s = execFrcp d a s := rfl
theorem exec_frsq {d} {a} : exec (.frsq d a) s = execFrsq d a s := rfl
theorem exec_fsqrt {d} {a} {rm} : exec (.fsqrt d a rm) s = execFsqrt d a rm s := rfl
theorem exec_fexp2 {d} {a} : exec (.fexp2 d a) s = execFexp2 d a s := rfl
theorem exec_flog2 {d} {a} : exec (.flog2 d a) s = execFlog2 d a s := rfl
theorem exec_fsin {d} {a} : exec (.fsin d a) s = execFsin d a s := rfl
theorem exec_fcos {d} {a} : exec (.fcos d a) s = execFcos d a s := rfl
theorem exec_ftanh {d} {a} : exec (.ftanh d a) s = execFtanh d a s := rfl
theorem exec_hadd2 {d} {a} {b} {rm} {fmt} : exec (.hadd2 d a b rm fmt) s = execHadd2 d a b rm fmt s := rfl
theorem exec_hsub2 {d} {a} {b} {rm} {fmt} : exec (.hsub2 d a b rm fmt) s = execHsub2 d a b rm fmt s := rfl
theorem exec_hmul2 {d} {a} {b} {rm} {fmt} : exec (.hmul2 d a b rm fmt) s = execHmul2 d a b rm fmt s := rfl
theorem exec_hfma2 {d} {a} {b} {c} {rm} {fmt} : exec (.hfma2 d a b c rm fmt) s = execHfma2 d a b c rm fmt s := rfl
theorem exec_hmin2 {d} {a} {b} {fmt} : exec (.hmin2 d a b fmt) s = execHmin2 d a b fmt s := rfl
theorem exec_hmax2 {d} {a} {b} {fmt} : exec (.hmax2 d a b fmt) s = execHmax2 d a b fmt s := rfl
theorem exec_iadd {d} {a} {b} {sat} {uns} : exec (.iadd d a b sat uns) s = execIadd d a b sat uns s := rfl
theorem exec_isub {d} {a} {b} {sat} {uns} : exec (.isub d a b sat uns) s = execIsub d a b sat uns s := rfl
theorem exec_imul {d} {a} {b} : exec (.imul d a b) s = execImul d a b s := rfl
theorem exec_imad {d} {a} {b} {c} : exec (.imad d a b c) s = execImad d a b c s := rfl
theorem exec_imulh {d} {a} {b} {uns} : exec (.imulh d a b uns) s = execImulh d a b uns s := rfl
theorem exec_imin {d} {a} {b} {uns} : exec (.imin d a b uns) s = execImin d a b uns s := rfl
theorem exec_imax {d} {a} {b} {uns} : exec (.imax d a b uns) s = execImax d a b uns s := rfl
theorem exec_icmp {d} {a} {b} {cond} {uns} : exec (.icmp d a b cond uns) s = execIcmp d a b cond uns s := rfl
theorem exec_and {d} {a} {b} : exec (.and d a b) s = execAnd d a b s := rfl
theorem exec_or {d} {a} {b} : exec (.or d a b) s = execOr d a b s := rfl
theorem exec_xor {d} {a} {b} : exec (.xor d a b) s = execXor d a b s := rfl
theorem exec_not {d} {a} : exec (.not d a) s = execNot d a s := rfl
theorem exec_shl {d} {a} {b} : exec (.shl d a b) s = execShl d a b s := rfl
theorem exec_shr {d} {a} {b} : exec (.shr d a b) s = execShr d a b s := rfl
theorem exec_sar {d} {a} {b} : exec (.sar d a b) s = execSar d a b s := rfl
theorem exec_popc {d} {a} : exec (.popc d a) s = execPopc d a s := rfl
theorem exec_clz {d} {a} : exec (.clz d a) s = execClz d a s := rfl
theorem exec_bfe {d} {a} {b} {c} {uns} : exec (.bfe d a b c uns) s = execBfe d a b c uns s := rfl
theorem exec_bfi {d} {a} {b} {c} : exec (.bfi d a b c) s = execBfi d a b c s := rfl
theorem exec_brev {d} {a} : exec (.brev d a) s = execBrev d a s := rfl
theorem exec_cvt {d} {a} {rm} {sat} {target} {source} : exec (.cvt d a rm sat target source) s = execCvt d a rm sat target source s := rfl
theorem exec_narrow {d} {a} {c} {rm} {sat} {fmt} {fb} : exec (.narrow d a c rm sat fmt fb) s = execNarrow d a c rm sat fmt fb s := rfl
theorem exec_qscale {d} {a} {fmt} : exec (.qscale d a fmt) s = execQscale d a fmt s := rfl
theorem exec_shflIdx {d} {a} {b} : exec (.shflIdx d a b) s = execShflIdx d a b s := rfl
theorem exec_shflUp {d} {a} {b} : exec (.shflUp d a b) s = execShflUp d a b s := rfl
theorem exec_shflDown {d} {a} {b} : exec (.shflDown d a b) s = execShflDown d a b s := rfl
theorem exec_shflXor {d} {a} {b} : exec (.shflXor d a b) s = execShflXor d a b s := rfl
theorem exec_bcast {d} {a} {b} : exec (.bcast d a b) s = execBcast d a b s := rfl
theorem exec_rot {d} {a} {b} : exec (.rot d a b) s = execRot d a b s := rfl
theorem exec_sort2 {d} {a} {b} {key} {desc} : exec (.sort2 d a b key desc) s = execSort2 d a b key desc s := rfl
theorem exec_scan {d} {a} {op} {excl} : exec (.scan d a op excl) s = execScan d a op excl s := rfl
theorem exec_reduce {d} {a} {op} : exec (.reduce d a op) s = execReduce d a op s := rfl
theorem exec_vote {d} {a} {op} : exec (.vote d a op) s = execVote d a op s := rfl
theorem exec_hash {d} {a} {b} : exec (.hash d a b) s = execHash d a b s := rfl
theorem exec_mand {d} {a} {b} : exec (.mand d a b) s = execMand d a b s := rfl
theorem exec_mor {d} {a} {b} : exec (.mor d a b) s = execMor d a b s := rfl
theorem exec_mxor {d} {a} {b} : exec (.mxor d a b) s = execMxor d a b s := rfl
theorem exec_mandn {d} {a} {b} : exec (.mandn d a b) s = execMandn d a b s := rfl
theorem exec_mnot {d} {a} : exec (.mnot d a) s = execMnot d a s := rfl
theorem exec_mmov {d} {a} : exec (.mmov d a) s = execMmov d a s := rfl
theorem exec_mlane {d} {a} {b} : exec (.mlane d a b) s = execMlane d a b s := rfl
theorem exec_mbal {d} {a} : exec (.mbal d a) s = execMbal d a s := rfl
theorem exec_ld {d} {br} {x} {off} {peg} {w} {sc} : exec (.ld d br x off peg w sc) s = execLd d br x off peg w sc s := rfl
theorem exec_st {d} {br} {x} {off} {peg} {w} {sc} : exec (.st d br x off peg w sc) s = execSt d br x off peg w sc s := rfl
theorem exec_ldu {d} {br} {x} {off} {peg} {w} {sc} : exec (.ldu d br x off peg w sc) s = execLdu d br x off peg w sc s := rfl
theorem exec_stu {d} {br} {x} {off} {peg} {w} {sc} : exec (.stu d br x off peg w sc) s = execStu d br x off peg w sc s := rfl
theorem exec_lds {d} {x} {off} {peg} {w} : exec (.lds d x off peg w) s = execLds d x off peg w s := rfl
theorem exec_sts {d} {x} {off} {peg} {w} : exec (.sts d x off peg w) s = execSts d x off peg w s := rfl
theorem exec_pref {br} {x} {off} {l2} : exec (.pref br x off l2) s = execPref br x off l2 s := rfl
theorem exec_atom {d} {a} {br} {x} {off} {peg} {op} {sc} {wd} : exec (.atom d a br x off peg op sc wd) s = execAtom d a br x off peg op sc wd s := rfl
theorem exec_red {a} {br} {x} {off} {peg} {op} {sc} {wd} : exec (.red a br x off peg op sc wd) s = execRed a br x off peg op sc wd s := rfl
theorem exec_atoms {d} {a} {x} {off} {peg} {op} {sc} {wd} : exec (.atoms d a x off peg op sc wd) s = execAtoms d a x off peg op sc wd s := rfl
theorem exec_reds {a} {x} {off} {peg} {op} {sc} {wd} : exec (.reds a x off peg op sc wd) s = execReds a x off peg op sc wd s := rfl
theorem exec_atomu {d} {a} {br} {x} {off} {peg} {op} {sc} {wd} : exec (.atomu d a br x off peg op sc wd) s = execAtomu d a br x off peg op sc wd s := rfl
theorem exec_redu {a} {br} {x} {off} {peg} {op} {sc} {wd} : exec (.redu a br x off peg op sc wd) s = execRedu a br x off peg op sc wd s := rfl
theorem exec_fence {ord} {sc} : exec (.fence ord sc) s = execFence ord sc s := rfl
theorem exec_fenceX {pa} {pb} {ord} {sc} : exec (.fenceX pa pb ord sc) s = execFenceX pa pb ord sc s := rfl
theorem exec_brset {br} {x} : exec (.brset br x) s = execBrset br x s := rfl
theorem exec_brget {br} {d} : exec (.brget br d) s = execBrget br d s := rfl
theorem exec_watchArm {d} {x} {peg} : exec (.watchArm d x peg) s = execWatchArm d x peg s := rfl
theorem exec_watchDisarm {x} {peg} : exec (.watchDisarm x peg) s = execWatchDisarm x peg s := rfl
theorem exec_ldtr {d} {peg} : exec (.ldtr d peg) s = execLdtr d peg s := rfl
theorem exec_cpa {f} {g} {br} {w} {peg} : exec (.cpa f g br w peg) s = execCpa f g br w peg s := rfl
theorem exec_cpb {u} {dims} {fl} {peg} : exec (.cpb u dims fl peg) s = execCpb u dims fl peg s := rfl
theorem exec_cpr {u} {fmt} {fl} {peg} : exec (.cpr u fmt fl peg) s = execCpr u fmt fl peg s := rfl
theorem exec_mma {f} {u} {t} {peg} : exec (.mma f u t peg) s = execMma f u t peg s := rfl
theorem exec_mmas {f} {u} {t} {peg} : exec (.mmas f u t peg) s = execMmas f u t peg s := rfl
theorem exec_accClr {t} {peg} : exec (.accClr t peg) s = execAccClr t peg s := rfl
theorem exec_accLd {u} {t} {peg} : exec (.accLd u t peg) s = execAccLd u t peg s := rfl
theorem exec_accSt {u} {t} {peg} : exec (.accSt u t peg) s = execAccSt u t peg s := rfl
theorem exec_accRdv {g} {f} {t} {peg} : exec (.accRdv g f t peg) s = execAccRdv g f t peg s := rfl
theorem exec_accWrv {f} {g} {t} {peg} : exec (.accWrv f g t peg) s = execAccWrv f g t peg s := rfl
theorem exec_setmpc {u} : exec (.setmpc u) s = execSetmpc u s := rfl
theorem exec_cbtLd {u} {tblB} {peg} : exec (.cbtLd u tblB peg) s = execCbtLd u tblB peg s := rfl
theorem exec_routeCount {u} {peg} : exec (.routeCount u peg) s = execRouteCount u peg s := rfl
theorem exec_routeXchg {u} {peg} : exec (.routeXchg u peg) s = execRouteXchg u peg s := rfl
theorem exec_routePlace {u} {peg} : exec (.routePlace u peg) s = execRoutePlace u peg s := rfl
theorem exec_routeScatter {u} {peg} : exec (.routeScatter u peg) s = execRouteScatter u peg s := rfl
theorem exec_routeCombine {u} {peg} : exec (.routeCombine u peg) s = execRouteCombine u peg s := rfl
theorem exec_routeStat {g} {u} {sel} {peg} : exec (.routeStat g u sel peg) s = execRouteStat g u sel peg s := rfl
theorem exec_sadd {d} {a} {b} : exec (.sadd d a b) s = execSadd d a b s := rfl
theorem exec_ssub {d} {a} {b} : exec (.ssub d a b) s = execSsub d a b s := rfl
theorem exec_smul {d} {a} {b} : exec (.smul d a b) s = execSmul d a b s := rfl
theorem exec_smulh {d} {a} {b} : exec (.smulh d a b) s = execSmulh d a b s := rfl
theorem exec_sand {d} {a} {b} : exec (.sand d a b) s = execSand d a b s := rfl
theorem exec_sor {d} {a} {b} : exec (.sor d a b) s = execSor d a b s := rfl
theorem exec_sxor {d} {a} {b} : exec (.sxor d a b) s = execSxor d a b s := rfl
theorem exec_sshl {d} {a} {b} : exec (.sshl d a b) s = execSshl d a b s := rfl
theorem exec_sshr {d} {a} {b} : exec (.sshr d a b) s = execSshr d a b s := rfl
theorem exec_ssar {d} {a} {b} : exec (.ssar d a b) s = execSsar d a b s := rfl
theorem exec_smin {d} {a} {b} : exec (.smin d a b) s = execSmin d a b s := rfl
theorem exec_smax {d} {a} {b} : exec (.smax d a b) s = execSmax d a b s := rfl
theorem exec_sminu {d} {a} {b} : exec (.sminu d a b) s = execSminu d a b s := rfl
theorem exec_smaxu {d} {a} {b} : exec (.smaxu d a b) s = execSmaxu d a b s := rfl
theorem exec_sslt {d} {a} {b} : exec (.sslt d a b) s = execSslt d a b s := rfl
theorem exec_ssltu {d} {a} {b} : exec (.ssltu d a b) s = execSsltu d a b s := rfl
theorem exec_saddImm {d} {a} {imm} : exec (.saddImm d a imm) s = execSaddImm d a imm s := rfl
theorem exec_ssubImm {d} {a} {imm} : exec (.ssubImm d a imm) s = execSsubImm d a imm s := rfl
theorem exec_smulImm {d} {a} {imm} : exec (.smulImm d a imm) s = execSmulImm d a imm s := rfl
theorem exec_smulhImm {d} {a} {imm} : exec (.smulhImm d a imm) s = execSmulhImm d a imm s := rfl
theorem exec_sandImm {d} {a} {imm} : exec (.sandImm d a imm) s = execSandImm d a imm s := rfl
theorem exec_sorImm {d} {a} {imm} : exec (.sorImm d a imm) s = execSorImm d a imm s := rfl
theorem exec_sxorImm {d} {a} {imm} : exec (.sxorImm d a imm) s = execSxorImm d a imm s := rfl
theorem exec_sshlImm {d} {a} {imm} : exec (.sshlImm d a imm) s = execSshlImm d a imm s := rfl
theorem exec_sshrImm {d} {a} {imm} : exec (.sshrImm d a imm) s = execSshrImm d a imm s := rfl
theorem exec_ssarImm {d} {a} {imm} : exec (.ssarImm d a imm) s = execSsarImm d a imm s := rfl
theorem exec_sminImm {d} {a} {imm} : exec (.sminImm d a imm) s = execSminImm d a imm s := rfl
theorem exec_smaxImm {d} {a} {imm} : exec (.smaxImm d a imm) s = execSmaxImm d a imm s := rfl
theorem exec_sminuImm {d} {a} {imm} : exec (.sminuImm d a imm) s = execSminuImm d a imm s := rfl
theorem exec_smaxuImm {d} {a} {imm} : exec (.smaxuImm d a imm) s = execSmaxuImm d a imm s := rfl
theorem exec_ssltImm {d} {a} {imm} : exec (.ssltImm d a imm) s = execSsltImm d a imm s := rfl
theorem exec_ssltuImm {d} {a} {imm} : exec (.ssltuImm d a imm) s = execSsltuImm d a imm s := rfl
theorem exec_smovl {d} {imm} : exec (.smovl d imm) s = execSmovl d imm s := rfl
theorem exec_smovh {d} {imm} : exec (.smovh d imm) s = execSmovh d imm s := rfl
theorem exec_dadd {d} {a} {b} : exec (.dadd d a b) s = execDadd d a b s := rfl
theorem exec_dsub {d} {a} {b} : exec (.dsub d a b) s = execDsub d a b s := rfl
theorem exec_daddi {d} {a} {imm} : exec (.daddi d a imm) s = execDaddi d a imm s := rfl
theorem exec_bra {off} : exec (.bra off) s = execBra off s := rfl
theorem exec_brcNz {r} {off} : exec (.brcNz r off) s = execBrcNz r off s := rfl
theorem exec_brcZ {r} {off} : exec (.brcZ r off) s = execBrcZ r off s := rfl
theorem exec_brx {a} : exec (.brx a) s = execBrx a s := rfl
theorem exec_call {off} : exec (.call off) s = execCall off s := rfl
theorem exec_calli {f} : exec (.calli f) s = execCalli f s := rfl
theorem exec_ret : exec (.ret) s = execRet s := rfl
theorem exec_div {mk} {ng} {toff} {joff} : exec (.div mk ng toff joff) s = execDiv mk ng toff joff s := rfl
theorem exec_join : exec (.join) s = execJoin s := rfl
theorem exec_loop {r} {off} : exec (.loop r off) s = execLoop r off s := rfl
theorem exec_exit : exec (.exit) s = execExit s := rfl
theorem exec_barAw {k} {g} {a} : exec (.barAw k g a) s = execBarAw k g a s := rfl
theorem exec_barArr {k} {g} {a} : exec (.barArr k g a) s = execBarArr k g a s := rfl
theorem exec_barWait {k} {g} {a} : exec (.barWait k g a) s = execBarWait k g a s := rfl
theorem exec_barInit {k} {g} {a} : exec (.barInit k g a) s = execBarInit k g a s := rfl
theorem exec_launch {a} {peg} : exec (.launch a peg) s = execLaunch a peg s := rfl
theorem exec_launchG {a} {peg} : exec (.launchG a peg) s = execLaunchG a peg s := rfl
theorem exec_trigger : exec (.trigger) s = execTrigger s := rfl
theorem exec_yield {n} : exec (.yield n) s = execYield n s := rfl
theorem exec_setix {x} {v} : exec (.setix x v) s = execSetix x v s := rfl
theorem exec_getsys {y} {d} : exec (.getsys y d) s = execGetsys y d s := rfl
theorem exec_setsys {y} {d} : exec (.setsys y d) s = execSetsys y d s := rfl
theorem exec_time {d} : exec (.time d) s = execTime d s := rfl
theorem exec_tick {d} : exec (.tick d) s = execTick d s := rfl
theorem exec_trap {code} : exec (.trap code) s = execTrap code s := rfl
theorem exec_eret : exec (.eret) s = execEret s := rfl
theorem exec_nop : exec (.nop) s = execNop s := rfl
theorem exec_bindBundle : exec (.bindBundle) s = execBindBundle s := rfl
theorem exec_switchPoint : exec (.switchPoint) s = execSwitchPoint s := rfl
theorem exec_fixedLatencyLanding {board} {k} : exec (.fixedLatencyLanding board k) s = execFixedLatencyLanding board k s := rfl
theorem exec_engineCommandAccept {eng} : exec (.engineCommandAccept eng) s = execEngineCommandAccept eng s := rfl
theorem exec_memoryLineReturn {ref} {resp} : exec (.memoryLineReturn ref resp) s = execMemoryLineReturn ref resp s := rfl
theorem exec_copyCommandComplete {core} {cmd} : exec (.copyCommandComplete core cmd) s = execCopyCommandComplete core cmd s := rfl
theorem exec_cpbGateArrival {core} {cmd} {dest} : exec (.cpbGateArrival core cmd dest) s = execCpbGateArrival core cmd dest s := rfl
theorem exec_matrixCommandComplete {core} : exec (.matrixCommandComplete core) s = execMatrixCommandComplete core s := rfl
theorem exec_routeCommandComplete {frame} {cmd} : exec (.routeCommandComplete frame cmd) s = execRouteCommandComplete frame cmd s := rfl
theorem exec_xchgWaitEnd {frame} {cmd} : exec (.xchgWaitEnd frame cmd) s = execXchgWaitEnd frame cmd s := rfl
theorem exec_combineGateWaitEnd {frame} {cmd} : exec (.combineGateWaitEnd frame cmd) s = execCombineGateWaitEnd frame cmd s := rfl
theorem exec_scatterArrival {frame} {cmd} {dev} : exec (.scatterArrival frame cmd dev) s = execScatterArrival frame cmd dev s := rfl
theorem exec_operationFail {ref} {cause} {addr} : exec (.operationFail ref cause addr) s = execOperationFail ref cause addr s := rfl
theorem exec_homeWritePerformed {board} {op} {line} : exec (.homeWritePerformed board op line) s = execHomeWritePerformed board op line s := rfl
theorem exec_recordEligible {frame} {entry} : exec (.recordEligible frame entry) s = execRecordEligible frame entry s := rfl
theorem exec_handlerStart {frame} {entry} {place} : exec (.handlerStart frame entry place) s = execHandlerStart frame entry place s := rfl
theorem exec_watchArmComplete {board} {op} : exec (.watchArmComplete board op) s = execWatchArmComplete board op s := rfl
theorem exec_remoteGateArrival {id} : exec (.remoteGateArrival id) s = execRemoteGateArrival id s := rfl
theorem exec_gateWake {wake} : exec (.gateWake wake) s = execGateWake wake s := rfl
theorem exec_gateWaiterPoll {waiter} : exec (.gateWaiterPoll waiter) s = execGateWaiterPoll waiter s := rfl
theorem exec_ringSlotResend {ring} {src} {dst} {slot} : exec (.ringSlotResend ring src dst slot) s = execRingSlotResend ring src dst slot s := rfl
theorem exec_queueSlotFill {slot} : exec (.queueSlotFill slot) s = execQueueSlotFill slot s := rfl
theorem exec_queueBlockAccept {queue} : exec (.queueBlockAccept queue) s = execQueueBlockAccept queue s := rfl
theorem exec_launchAccept {id} : exec (.launchAccept id) s = execLaunchAccept id s := rfl
theorem exec_graphInstanceAccept {id} : exec (.graphInstanceAccept id) s = execGraphInstanceAccept id s := rfl
theorem exec_graphNodeReady {inst} {node} : exec (.graphNodeReady inst node) s = execGraphNodeReady inst node s := rfl
theorem exec_dependenceSatisfied {grid} : exec (.dependenceSatisfied grid) s = execDependenceSatisfied grid s := rfl
theorem exec_dependenceWatchTimeout {id} : exec (.dependenceWatchTimeout id) s = execDependenceWatchTimeout id s := rfl
theorem exec_bentCreate {grid} {places} : exec (.bentCreate grid places) s = execBentCreate grid places s := rfl
theorem exec_boardRetire {board} : exec (.boardRetire board) s = execBoardRetire board s := rfl
theorem exec_sliceBoundary {bay} : exec (.sliceBoundary bay) s = execSliceBoundary bay s := rfl
theorem exec_forcedPreemption {bent} : exec (.forcedPreemption bent) s = execForcedPreemption bent s := rfl
theorem exec_bentSwitchOut {bent} : exec (.bentSwitchOut bent) s = execBentSwitchOut bent s := rfl
theorem exec_bentRestore {bent} {places} : exec (.bentRestore bent places) s = execBentRestore bent places s := rfl
theorem exec_thermalMigration {bent} {places} : exec (.thermalMigration bent places) s = execThermalMigration bent places s := rfl
theorem exec_migrationAbandon {bent} : exec (.migrationAbandon bent) s = execMigrationAbandon bent s := rfl
theorem exec_grantChange {bay} : exec (.grantChange bay) s = execGrantChange bay s := rfl
theorem exec_clockSwitch {bay} : exec (.clockSwitch bay) s = execClockSwitch bay s := rfl
theorem exec_droopStretchEnd {bay} : exec (.droopStretchEnd bay) s = execDroopStretchEnd bay s := rfl
theorem exec_droopWindowEnd {bay} : exec (.droopWindowEnd bay) s = execDroopWindowEnd bay s := rfl
theorem exec_capLeaseExpiry : exec (.capLeaseExpiry) s = execCapLeaseExpiry s := rfl
theorem exec_paceWindowEnd {group} : exec (.paceWindowEnd group) s = execPaceWindowEnd group s := rfl
theorem exec_correctionFreezeEnd {core} : exec (.correctionFreezeEnd core) s = execCorrectionFreezeEnd core s := rfl
theorem exec_l1StorageTimeout {board} {op} : exec (.l1StorageTimeout board op) s = execL1StorageTimeout board op s := rfl
theorem exec_window {slot} {code} {addr} : exec (.window slot code addr) s = execWindow slot code addr s := rfl
theorem exec_illegal {slot} {code} {addr} : exec (.illegal slot code addr) s = execIllegal slot code addr s := rfl
theorem exec_priv {slot} {code} {addr} : exec (.priv slot code addr) s = execPriv slot code addr s := rfl
theorem exec_budget {slot} {code} {addr} : exec (.budget slot code addr) s = execBudget slot code addr s := rfl
theorem exec_stack {slot} {code} {addr} : exec (.stack slot code addr) s = execStack slot code addr s := rfl
theorem exec_machine {slot} {store} {lane} {num} : exec (.machine slot store lane num) s = execMachine slot store lane num s := rfl
theorem exec_broken {board} : exec (.broken board) s = execBroken board s := rfl
theorem exec_retire {board} : exec (.retire board) s = execRetire board s := rfl
theorem exec_overrun {board} : exec (.overrun board) s = execOverrun board s := rfl
theorem exec_pagingService {board} : exec (.pagingService board) s = execPagingService board s := rfl
theorem exec_tlbInvalidateComplete {fn} : exec (.tlbInvalidateComplete fn) s = execTlbInvalidateComplete fn s := rfl
theorem exec_pfFunctionLevelReset : exec (.pfFunctionLevelReset) s = execPfFunctionLevelReset s := rfl
theorem exec_surpriseLinkLoss : exec (.surpriseLinkLoss) s = execSurpriseLinkLoss s := rfl
theorem exec_linkLossTimeout : exec (.linkLossTimeout) s = execLinkLossTimeout s := rfl
theorem exec_linkRetrain : exec (.linkRetrain) s = execLinkRetrain s := rfl
theorem exec_sidebandStatus : exec (.sidebandStatus) s = execSidebandStatus s := rfl
theorem exec_funcReset : exec (.funcReset) s = execFuncReset s := rfl
theorem exec_moduleReset : exec (.moduleReset) s = execModuleReset s := rfl
theorem exec_capseqClear : exec (.capseqClear) s = execCapseqClear s := rfl
theorem exec_firmwareUpdate : exec .firmwareUpdate s = execFirmwareUpdate s := rfl
theorem exec_powerOn {start} : exec (.powerOn start) s = execPowerOn start s := rfl
theorem exec_coreClockPeriod {bay} : exec (.coreClockPeriod bay) s = execCoreClockPeriod bay s := rfl
theorem exec_bundleFetch {board} {b} : exec (.bundleFetch board b) s = execBundleFetch board b s := rfl
theorem exec_scratchpadWave {board} {op} : exec (.scratchpadWave board op) s = execScratchpadWave board op s := rfl
theorem exec_bindParkPoll {board} {b} : exec (.bindParkPoll board b) s = execBindParkPoll board b s := rfl
theorem exec_bayRestart {bay} : exec (.bayRestart bay) s = execBayRestart bay s := rfl
theorem exec_mainRailsOff : exec (.mainRailsOff) s = execMainRailsOff s := rfl
theorem exec_remoteRequest {req} : exec (.remoteRequest req) s = execRemoteRequest req s := rfl
theorem exec_ringSlotArrival {ring} {src} {dst} {slot} {full} {corrupt} : exec (.ringSlotArrival ring src dst slot full corrupt) s = execRingSlotArrival ring src dst slot full corrupt s := rfl
theorem exec_ringLinkFail {ring} {frame} : exec (.ringLinkFail ring frame) s = execRingLinkFail ring frame s := rfl
theorem exec_ringSecondLinkFail {ring} {frame} : exec (.ringSecondLinkFail ring frame) s = execRingSecondLinkFail ring frame s := rfl
theorem exec_ualinkPlaneDown {plane} : exec (.ualinkPlaneDown plane) s = execUalinkPlaneDown plane s := rfl
theorem exec_peerLost {mod} : exec (.peerLost mod) s = execPeerLost mod s := rfl
theorem exec_peerAnsweringAgain {mod} : exec (.peerAnsweringAgain mod) s = execPeerAnsweringAgain mod s := rfl
theorem exec_notifyWrite {fn} {queue} {value} : exec (.notifyWrite fn queue value) s = execNotifyWrite fn queue value s := rfl
theorem exec_thermalSample {bay} {temp} : exec (.thermalSample bay temp) s = execThermalSample bay temp s := rfl
theorem exec_droopAlarm {bay} {mv} : exec (.droopAlarm bay mv) s = execDroopAlarm bay mv s := rfl
theorem exec_brownout {bay} {mv} : exec (.brownout bay mv) s = execBrownout bay mv s := rfl
theorem exec_powerMeasurement {watts} : exec (.powerMeasurement watts) s = execPowerMeasurement watts s := rfl
theorem exec_paceReport {group} {mod} {window} {slack} : exec (.paceReport group mod window slack) s = execPaceReport group mod window slack s := rfl
theorem exec_ptmExchange {master} : exec (.ptmExchange master) s = execPtmExchange master s := rfl
theorem exec_eccCorrection {core} : exec (.eccCorrection core) s = execEccCorrection core s := rfl
theorem exec_bindRequestService {frame} {idx} {res} : exec (.bindRequestService frame idx res) s = execBindRequestService frame idx res s := rfl
theorem exec_fresume {fn} {window} {value} : exec (.fresume fn window value) s = execFresume fn window value s := rfl
theorem exec_ctxCreate {fn} {ctxid} : exec (.ctxCreate fn ctxid) s = execCtxCreate fn ctxid s := rfl
theorem exec_ctxDestroy {fn} : exec (.ctxDestroy fn) s = execCtxDestroy fn s := rfl
theorem exec_capSet {fn} : exec (.capSet fn) s = execCapSet fn s := rfl
theorem exec_stepRead {fn} : exec (.stepRead fn) s = execStepRead fn s := rfl
theorem exec_ctxMove {fn} {target} : exec (.ctxMove fn target) s = execCtxMove fn target s := rfl
theorem exec_tlbInvalidate {fn} {value} : exec (.tlbInvalidate fn value) s = execTlbInvalidate fn value s := rfl
theorem exec_qcfgWrite {fn} {queue} {value} : exec (.qcfgWrite fn queue value) s = execQcfgWrite fn queue value s := rfl
theorem exec_fqcfgWrite {fn} {value} : exec (.fqcfgWrite fn value) s = execFqcfgWrite fn value s := rfl
theorem exec_qownWrite {fn} {queue} {value} : exec (.qownWrite fn queue value) s = execQownWrite fn queue value s := rfl
theorem exec_modsetWrite {fn} {value} : exec (.modsetWrite fn value) s = execModsetWrite fn value s := rfl
theorem exec_estWrite {fn} {window} {value} : exec (.estWrite fn window value) s = execEstWrite fn window value s := rfl
theorem exec_drpthRead {fn} {bay} : exec (.drpthRead fn bay) s = execDrpthRead fn bay s := rfl
theorem exec_fqlostRead {fn} : exec (.fqlostRead fn) s = execFqlostRead fn s := rfl
theorem exec_registerWrite {fn} {off} {op} : exec (.registerWrite fn off op) s = execRegisterWrite fn off op s := rfl
theorem exec_functionLevelReset {fn} : exec (.functionLevelReset fn) s = execFunctionLevelReset fn s := rfl
theorem exec_sidebandCap {msg} : exec (.sidebandCap msg) s = execSidebandCap msg s := rfl
theorem exec_sidebandStepRead {idx} : exec (.sidebandStepRead idx) s = execSidebandStepRead idx s := rfl
theorem exec_logRead {idx} : exec (.logRead idx) s = execLogRead idx s := rfl
theorem exec_frameHung {frame} : exec (.frameHung frame) s = execFrameHung frame s := rfl
theorem exec_mailboxUnassignedCode {fn} : exec (.mailboxUnassignedCode fn) s = execMailboxUnassignedCode fn s := rfl

end Sys2Proof.Machine
end

