-- ==== Sys2Proof/Laws/Mem.lean ====
section
/-!
SUPPORT. The byte memory: every operation keeps its canonical form, and what a byte reads as after one byte is written.
-/
namespace Sys2Proof.Machine

/-- Standing above a bound implies standing above a lower one. -/
theorem Mem.above_mono {m : Mem} {lo hi : Option Nat} (h : ∀ a, lo = some a → ∃ b, hi = some b ∧ a ≤ b) (w : Mem.above hi m = true) :
    Mem.above lo m = true := by
  cases m with
  | nil => rfl
  | cons p t =>
    simp only [Mem.above, Bool.and_eq_true] at w ⊢
    refine ⟨⟨?_, w.1.2⟩, w.2⟩
    cases lo with
    | none => rfl
    | some a =>
      obtain ⟨b, rfl, hb⟩ := h a rfl
      have := w.1.1
      simp only [decide_eq_true_eq] at this ⊢
      omega

theorem Mem.wf_of_above {m : Mem} {lo : Option Nat} (w : Mem.above lo m = true) : m.wf = true :=
  Mem.above_mono (by simp) w

/-- One byte written keeps the form. -/
theorem Mem.above_set {m : Mem} {lo : Option Nat} {a : Nat} {x : Byte} (w : Mem.above lo m = true)
    (h : ∀ b, lo = some b → b < a) : Mem.above lo (m.set a x) = true := by
  induction m generalizing lo with
  | nil => simp only [Mem.set]; split <;> cases lo <;> simp_all [Mem.above]
  | cons p t ih =>
    obtain ⟨k, y⟩ := p
    simp only [Mem.above, Bool.and_eq_true] at w
    simp only [Mem.set]
    split
    · split
      · simp [Mem.above, w.1.1, w.1.2, w.2]
      · cases lo <;> simp_all [Mem.above]
    · split
      · rename_i h1 h2
        have e : a = k := by simpa using h2
        subst e
        split
        · exact Mem.above_mono (fun b hb => ⟨a, rfl, Nat.le_of_lt (h b hb)⟩) w.2
        · cases lo <;> simp_all [Mem.above]
      · rename_i h1 h2
        have hk : k < a := by simp at h2; omega
        have := ih w.2 (by simpa using hk)
        simp [Mem.above, w.1.1, w.1.2, this]

@[simp] theorem Mem.wf_nil : Mem.wf [] = true := rfl

theorem Mem.wf_set {m : Mem} (w : m.wf = true) (a : Nat) (x : Byte) : (m.set a x).wf = true :=
  Mem.above_set w (by simp)

theorem Mem.wf_write {m : Mem} (w : m.wf = true) (a : Nat) (l : List Byte) : (m.write a l).wf = true := by
  induction l generalizing m a with
  | nil => exact w
  | cons x t ih => exact ih (Mem.wf_set w a x) _

theorem Mem.wf_writeAll {m : Mem} (w : m.wf = true) (l : List (Nat × Byte)) : (m.writeAll l).wf = true := by
  induction l generalizing m with
  | nil => exact w
  | cons p t ih => exact ih (Mem.wf_set w p.1 p.2)

/-- Below the bound nothing is listed. -/
theorem Mem.get_of_above {m : Mem} {b a : Nat} (w : Mem.above (some b) m = true) (h : a ≤ b) : m.get a = unwritten := by
  cases m with
  | nil => rfl
  | cons p t =>
    simp only [Mem.above, Bool.and_eq_true, decide_eq_true_eq] at w
    have : a < p.1 := by omega
    simp [Mem.get, this]

/-- One byte written: it reads as written, every other as before. -/
theorem Mem.get_set {m : Mem} (w : m.wf = true) (a c : Nat) (x : Byte) : (m.set a x).get c = if c = a then x else m.get c := by
  have gen : ∀ (lo : Option Nat), Mem.above lo m = true → (m.set a x).get c = if c = a then x else m.get c := by
    clear w
    induction m with
    | nil =>
      intro lo _
      simp only [Mem.set]
      split
      · rename_i h
        have : x = unwritten := by simpa using h
        by_cases hc : c = a <;> simp [Mem.get, hc, this]
      · by_cases hc : c = a
        · simp [Mem.get, hc]
        · by_cases hl : c < a <;> simp [Mem.get, hc, hl]
    | cons p t ih =>
      obtain ⟨k, y⟩ := p
      intro lo w
      simp only [Mem.above, Bool.and_eq_true] at w
      have hg : ∀ b, b ≤ k → Mem.get t b = unwritten := fun b hb => Mem.get_of_above w.2 hb
      simp only [Mem.set]
      split
      · rename_i h1
        split
        · rename_i h2
          have : x = unwritten := by simpa using h2
          by_cases hc : c = a
          · subst hc; simp [Mem.get, h1, this]
          · simp [hc]
        · by_cases hc : c = a
          · subst hc; simp [Mem.get]
          · by_cases hl : c < a
            · have : c < k := by omega
              simp [Mem.get, hc, hl, this]
            · simp [Mem.get, hc, hl]
      · split
        · rename_i h1 h2
          have e : a = k := by simpa using h2
          subst e
          split
          · rename_i h3
            have e3 : x = unwritten := by simpa using h3
            by_cases hc : c = a
            · subst hc; simp [hg, e3]
            · by_cases hl : c < a
              · simp [Mem.get, hc, hl, hg c (Nat.le_of_lt hl)]
              · simp [Mem.get, hc, hl]
          · by_cases hc : c = a
            · subst hc; simp [Mem.get]
            · simp [Mem.get, hc]
        · rename_i h1 h2
          have hk : k < a := by simp at h2; omega
          have := ih (some k) w.2
          by_cases hl : c < k
          · have : c ≠ a := by omega
            simp [Mem.get, hl, this]
          · by_cases hc : c = k
            · subst hc
              have : c ≠ a := by omega
              simp [Mem.get, this]
            · simp only [Mem.get, hl, if_false, hc, beq_iff_eq, this]
  exact gen none w

end Sys2Proof.Machine
end

