-- ==== Sys2Proof/Laws/Note.lean ====
section
/-!
SUPPORT. What noting an instruction's writes changes, and what it leaves: windows and pending destinations alone.
-/
namespace Sys2Proof.Machine

theorem Board.sameButFlight_refl (b : Board) : b.sameButFlight b := by simp [Board.sameButFlight]

theorem Board.sameButFlight_trans {a b c : Board} (h : a.sameButFlight b) (k : b.sameButFlight c) : a.sameButFlight c := by
  unfold Board.sameButFlight at *
  rw [k, h]

theorem Board.sameButFlight_noteUse (b : Board) (sB : Bool) (m : Mask) (u : Use) : b.sameButFlight (b.noteUse sB m u) := by
  unfold Board.noteUse
  cases sB <;> (repeat' split) <;> (try dsimp only) <;> (repeat' split) <;> simp [Board.sameButFlight, Board.setSlot, Board.slotOf]

theorem Board.sameButFlight_foldl (sB : Bool) (m : Mask) (us : List Use) (b : Board) :
    b.sameButFlight (us.foldl (Board.noteUse sB m) b) := by
  induction us generalizing b with
  | nil => exact Board.sameButFlight_refl b
  | cons u t ih => exact Board.sameButFlight_trans (Board.sameButFlight_noteUse b sB m u) (ih _)

/-- Noting changes windows and pending destinations alone. -/
theorem Board.sameButFlight_note (b : Board) (sB : Bool) (m : Mask) (i : Instr) : b.sameButFlight (b.note sB m i) :=
  Board.sameButFlight_foldl sB m (b.uses i) b

theorem Board.sameButFlight_emit (b : Board) (e : PipeEntry) : b.sameButFlight (b.emit e) := by
  simp [Board.emit, Board.sameButFlight]

theorem Board.sameButFlight_outV (b : Board) (sB : Bool) (m : Mask) (d : Opd) (lat : Nat) (vals : Lanes) (fl : BitVec 32) :
    b.sameButFlight (b.outV sB m d lat vals fl) := by
  unfold Board.outV
  exact Board.sameButFlight_trans (b := { b with vwins := _ }) (by simp [Board.sameButFlight]) (Board.sameButFlight_emit _ _)

theorem Board.sameButFlight_outM (b : Board) (sB : Bool) (m : Mask) (d : BitVec 3) (lat : Nat) (v : Mask) (fl : BitVec 32) :
    b.sameButFlight (b.outM sB m d lat v fl) := Board.sameButFlight_emit _ _

theorem Board.sameButFlight_outX (b : Board) (sB : Bool) (d : Dest) (v : BitVec 128) : b.sameButFlight (b.outX sB d v) :=
  Board.sameButFlight_emit _ _

theorem Board.sameButFlight_outC (b : Board) (sB : Bool) (d : Dest) (v : BitVec 64) : b.sameButFlight (b.outC sB d v) := by
  unfold Board.outC
  refine Board.sameButFlight_trans ?_ (Board.sameButFlight_emit _ _)
  cases sB <;> simp [Board.sameButFlight, Board.setSlot, Board.slotOf]

/-- What a board that is the same but for its results in flight reads. -/
theorem Board.sameButFlight_reads {b c : Board} (h : b.sameButFlight c) :
    c.v = b.v ∧ c.s = b.s ∧ c.m = b.m ∧ c.b = b.b ∧ c.ix = b.ix ∧ c.dv = b.dv ∧ c.mpc = b.mpc ∧ c.tick = b.tick ∧ c.env = b.env
    ∧ c.id = b.id ∧ c.core = b.core ∧ c.slot = b.slot ∧ c.path = b.path ∧ c.stack = b.stack ∧ c.spilled = b.spilled
    ∧ c.slotA.path = b.slotA.path ∧ c.slotB.path = b.slotB.path ∧ c.slotA.dc1 = b.slotA.dc1 ∧ c.slotA.dc2 = b.slotA.dc2
    ∧ c.slotB.dc1 = b.slotB.dc1 ∧ c.slotB.dc2 = b.slotB.dc2 ∧ c.variant = b.variant ∧ c.priv = b.priv := by
  unfold Board.sameButFlight at h
  rw [h]
  simp

theorem Board.laneVal_flight {b c : Board} (h : b.sameButFlight c) (sB : Bool) (o : Opd) (k l : Nat) :
    c.laneVal sB o k l = b.laneVal sB o k l := by
  unfold Board.sameButFlight at h
  rw [h]
  cases o <;> cases sB <;> rfl

variable (s : State) (b : Board) (i : Instr)

theorem State.sameButFlight_noted : b.sameButFlight (s.noted b i) := Board.sameButFlight_note b _ _ i

@[simp] theorem State.src_noted (o : Opd) (l : Nat) : s.src (s.noted b i) o l = s.src b o l :=
  Board.laneVal_flight (s.sameButFlight_noted b i) _ _ _ _

@[simp] theorem State.fsrc_noted (o : Opd) (l : Nat) : s.fsrc (s.noted b i) o l = s.fsrc b o l := by
  cases o <;> simp only [State.fsrc] <;> exact Board.laneVal_flight (s.sameButFlight_noted b i) _ _ _ _

@[simp] theorem State.mreg_noted (n : Nat) : (s.noted b i).mreg n = b.mreg n := by
  simp [Board.mreg, (Board.sameButFlight_reads (s.sameButFlight_noted b i)).2.2.1]

@[simp] theorem State.sreg_noted (n : Nat) : (s.noted b i).sreg n = b.sreg n := by
  simp [Board.sreg, (Board.sameButFlight_reads (s.sameButFlight_noted b i)).2.1]

@[simp] theorem State.pair_noted (n : Nat) : (s.noted b i).pair n = b.pair n := by
  simp [Board.pair]

@[simp] theorem State.brec_noted (n : Nat) : (s.noted b i).brec n = b.brec n := by
  simp [Board.brec, (Board.sameButFlight_reads (s.sameButFlight_noted b i)).2.2.2.1]

@[simp] theorem State.laneVal_noted (sB : Bool) (o : Opd) (k l : Nat) : (s.noted b i).laneVal sB o k l = b.laneVal sB o k l :=
  Board.laneVal_flight (s.sameButFlight_noted b i) _ _ _ _

/-- A clear instruction acts on the noted board. -/
theorem onBoard_clear {s : State} {b : Board} {i : Instr} (h : s.clear b i) (k : Board → State) :
    onBoard s i k = .next (k (s.noted b i)) := by
  simp only [onBoard, h.1, h.2]
  rfl

/-- An instruction that a condition of 22 R384 holds for takes its trap before any effect. -/
theorem onBoard_trap {s : State} {b : Board} {i : Instr} {t : Trap} (h : s.bd = some b) (j : judge s b i = some t) (k : Board → State) :
    onBoard s i k = .next (s.raise b t) := by
  simp only [onBoard, h, j]

end Sys2Proof.Machine
end

