-- ==== Sys2Proof/Laws/Splice.lean ====
section
/-!
SUPPORT. The freeze record's bytes stand in rising order within its 32,768 bytes, none of them zero, so that writing the record keeps memory
canonical.
-/
namespace Sys2Proof.Machine

/-- Bytes in rising order from `lo` to below `hi`, none zero. -/
def Within (lo hi : Nat) (w : List (Nat × Byte)) : Prop :=
  w.Pairwise (fun p q => p.1 < q.1) ∧ ∀ p ∈ w, lo ≤ p.1 ∧ p.1 < hi ∧ p.2 ≠ 0

theorem Within.nil {lo hi : Nat} : Within lo hi [] := ⟨.nil, by simp⟩

theorem Within.widen {lo hi lo' hi' : Nat} {w : List (Nat × Byte)} (h : Within lo hi w) (a : lo' ≤ lo) (b : hi ≤ hi') : Within lo' hi' w :=
  ⟨h.1, fun p hp => by have := h.2 p hp; exact ⟨by omega, by omega, this.2.2⟩⟩

theorem Within.append {lo mid mid' hi : Nat} {v w : List (Nat × Byte)} (h : Within lo mid v) (k : Within mid' hi w) (m : mid ≤ mid')
    (a : lo ≤ mid') (b : mid ≤ hi) : Within lo hi (v ++ w) := by
  refine ⟨List.pairwise_append.2 ⟨h.1, k.1, fun p hp q hq => ?_⟩, fun p hp => ?_⟩
  · have := (h.2 p hp).2.1
    have := (k.2 q hq).1
    omega
  · rcases List.mem_append.1 hp with hp | hp
    · have := h.2 p hp
      exact ⟨this.1, by omega, this.2.2⟩
    · have := k.2 p hp
      exact ⟨by omega, this.2.1, this.2.2⟩

theorem Within.sparse (o n v : Nat) : Within o (o + n) (sparse o n v) := by
  refine ⟨List.Pairwise.filter _ (List.pairwise_map.2 ?_), fun p hp => ?_⟩
  · exact List.pairwise_lt_range.imp fun h => by simpa using h
  · simp only [Machine.sparse, List.mem_filter, List.mem_map, List.mem_range] at hp
    obtain ⟨⟨k, hk, rfl⟩, h⟩ := hp
    exact ⟨by simp, by simpa using hk, by simpa using h⟩

/-- Equal pieces one after the other from `o` on. -/
theorem Within.pieces (o c n : Nat) {lo hi : Nat} {f : Nat → List (Nat × Byte)}
    (h : ∀ k, k < n → Within (o + c * k) (o + c * (k + 1)) (f k)) (a : lo ≤ o) (b : o + c * n ≤ hi) :
    Within lo hi ((List.range n).flatMap f) := by
  suffices Within o (o + c * n) ((List.range n).flatMap f) from this.widen a b
  clear b
  induction n with
  | zero => exact .nil
  | succ n ih =>
    rw [List.range_succ, List.flatMap_append]
    refine Within.append (ih fun k hk => h k (by omega)) (mid' := o + c * n) ?_ (Nat.le_refl _) (by omega) ?_
    · simpa using h n (by omega)
    · rw [Nat.mul_succ]; omega

theorem Mem.wf_iff {m : Mem} : m.wf = true ↔ m.Pairwise (fun p q => p.1 < q.1) ∧ ∀ p ∈ m, p.2 ≠ 0 := by
  have gen : ∀ lo, Mem.above lo m = true ↔
      (∀ b, lo = some b → ∀ p ∈ m, b < p.1) ∧ m.Pairwise (fun p q => p.1 < q.1) ∧ ∀ p ∈ m, p.2 ≠ 0 := by
    induction m with
    | nil => simp [Mem.above]
    | cons p t ih =>
      intro lo
      simp only [Mem.above, Bool.and_eq_true, ih, List.pairwise_cons, List.mem_cons, forall_eq_or_imp, bne_iff_ne, unwritten]
      constructor
      · rintro ⟨⟨h1, h2⟩, h3, h4, h5⟩
        have h3 := h3 p.1 rfl
        refine ⟨?_, ⟨h3, h4⟩, h2, h5⟩
        rintro b rfl
        have h1 : b < p.1 := by simpa using h1
        exact ⟨h1, fun q hq => Nat.lt_trans h1 (h3 q hq)⟩
      · rintro ⟨h1, ⟨h3, h4⟩, h2, h5⟩
        refine ⟨⟨?_, h2⟩, ?_, h4, h5⟩
        · cases lo with
          | none => rfl
          | some b => simpa using (h1 b rfl).1
        · rintro b ⟨⟩
          exact h3
  unfold Mem.wf
  simpa using gen none

theorem Mem.wf_splice {m : Mem} (w : m.wf = true) {a n : Nat} {l : List (Nat × Byte)} (h : Within 0 n l) : (m.splice a n l).wf = true := by
  rw [Mem.wf_iff] at w ⊢
  refine ⟨?_, ?_⟩
  · refine List.pairwise_append.2 ⟨List.pairwise_append.2 ⟨w.1.filter _, List.pairwise_map.2 (h.1.imp fun q => by simpa using q), ?_⟩,
      w.1.filter _, ?_⟩
    · intro p hp q hq
      simp only [List.mem_filter, List.mem_map, decide_eq_true_eq] at hp hq
      obtain ⟨x, -, rfl⟩ := hq
      simp only
      omega
    · intro p hp q hq
      simp only [List.mem_append, List.mem_filter, List.mem_map, decide_eq_true_eq] at hp hq
      rcases hp with hp | ⟨x, hx, rfl⟩
      · omega
      · have := (h.2 x hx).2.1
        simp only
        omega
  · intro p hp
    simp only [Mem.splice, List.mem_append, List.mem_filter, List.mem_map] at hp
    rcases hp with (hp | ⟨x, hx, rfl⟩) | hp
    · exact w.2 p hp.1
    · exact (h.2 x hx).2.2
    · exact w.2 p hp.1

/-! ### The record's pieces -/

theorem Parked.within (p : Parked) (k : Nat) : Within (0x300 + 64 * k) (0x300 + 64 * (k + 1)) (p.bytes k) := by
  unfold Parked.bytes
  refine Within.append (mid := 0x300 + 64 * k + 28) (mid' := 0x300 + 64 * k + 28) ?_
    ((Within.sparse _ 4 p.nind).widen (by omega) (by omega)) (by omega) (by omega) (by omega)
  refine Within.append ?_ (Within.sparse _ 4 _) (Nat.le_refl _) (by omega) (by omega)
  refine Within.append ?_ (Within.sparse _ 8 _) (Nat.le_refl _) (by omega) (by omega)
  refine Within.append ?_ (Within.sparse _ 8 _) (Nat.le_refl _) (by omega) (by omega)
  refine Within.append ?_ (Within.sparse _ 4 _) (Nat.le_refl _) (by omega) (by omega)
  refine Within.append (mid := 0x300 + 64 * k + 2) ?_ (Within.sparse _ 1 _) (by omega) (by omega) (by omega)
  exact Within.append (Within.sparse _ 1 _) (Within.sparse _ 1 _) (Nat.le_refl _) (by omega) (by omega)

theorem PipeEntry.within (e : PipeEntry) (k : Nat) : Within (0x1000 + 640 * k) (0x1000 + 640 * (k + 1)) (e.bytes k) := by
  unfold PipeEntry.bytes
  refine Within.append (mid := 0x1000 + 640 * k + 48) (mid' := 0x1000 + 640 * k + 64) ?_
    (Within.pieces (0x1000 + 640 * k + 64) 4 128 (fun l _ => (Within.sparse _ 4 _).widen (by omega) (by omega)) (by omega) (by omega)) (by omega) (by omega)
    (by omega)
  refine Within.append ?_ ((Within.sparse _ 16 _).widen (Nat.le_refl _) (by omega)) (Nat.le_refl _) (by omega) (by omega)
  refine Within.append (mid := 0x1000 + 640 * k + 8) ?_ (Within.sparse _ 16 _) (by omega) (by omega) (by omega)
  refine Within.append (mid := 0x1000 + 640 * k + 5) ?_ ((Within.sparse _ 2 _).widen (Nat.le_refl _) (by omega)) (by omega) (by omega)
    (by omega)
  refine Within.append ?_ ((Within.sparse _ 1 _).widen (Nat.le_refl _) (by omega)) (Nat.le_refl _) (by omega) (by omega)
  refine Within.append (mid := 0x1000 + 640 * k + 2) ?_ ((Within.sparse _ 2 _).widen (Nat.le_refl _) (by omega)) (by omega) (by omega)
    (by omega)
  exact Within.append (Within.sparse _ 1 _) ((Within.sparse _ 1 _).widen (Nat.le_refl _) (by omega)) (Nat.le_refl _) (by omega) (by omega)

theorem Board.laneMap_within (b : Board) (o : Nat) (v : VLoc) : Within o (o + 128) (b.laneMap o v) := by
  simp only [Board.laneMap]
  split
  · exact .nil
  · exact Within.pieces o 1 128 (fun l _ => (Within.sparse _ 1 _).widen (by omega) (by omega)) (by omega) (by omega)

theorem PcSlot.mapBytes_within (x : PcSlot) (o : Nat) :
    Within (0x6E00 + o) (0x7000 + o) (x.mapBytes o).1 ∧ Within (0x7000 + o) (0x702B + o) (x.mapBytes o).2 := by
  have one : ∀ (a : Nat) (l : SLoc), Within a (a + 1) (x.winByte a l) := fun a l => Within.sparse a 1 _
  unfold PcSlot.mapBytes
  split
  · exact ⟨.nil, .nil⟩
  · dsimp only
    refine ⟨Within.pieces (0x6E00 + o) 1 512 (fun n _ => (one _ _).widen (by omega) (by omega)) (by omega) (by omega), ?_⟩
    refine Within.append (mid := 0x702A + o) ?_ ((one _ _).widen (Nat.le_refl _) (by omega)) (by omega) (by omega) (by omega)
    refine Within.append (mid := 0x7029 + o) ?_ ((one _ _).widen (Nat.le_refl _) (by omega)) (by omega) (by omega) (by omega)
    refine Within.append (mid := 0x7028 + o) ?_ ((one _ _).widen (Nat.le_refl _) (by omega)) (by omega) (by omega) (by omega)
    exact Within.append (mid := 0x7008 + o) (mid' := 0x7008 + o)
      (Within.pieces (0x7000 + o) 1 8 (fun n _ => (one _ _).widen (by omega) (by omega)) (by omega) (by omega))
      (Within.pieces (0x7008 + o) 1 32 (fun n _ => (one _ _).widen (by omega) (by omega)) (by omega) (by omega)) (by omega) (by omega) (by omega)

theorem Board.mapBytes_within (b : Board) : Within 0x4C00 0x732B b.mapBytes := by
  unfold Board.mapBytes
  have p := b.slotA.mapBytes_within 0
  have q := b.slotB.mapBytes_within 0x300
  refine Within.append (mid := 0x7300) ?_ q.2 (by omega) (by omega) (by omega)
  refine Within.append (mid := 0x702B) ?_ q.1 (by omega) (by omega) (by omega)
  refine Within.append (mid := 0x7000) ?_ p.2 (by omega) (by omega) (by omega)
  refine Within.append (mid := 0x6E00) ?_ p.1 (by omega) (by omega) (by omega)
  exact Within.append (mid := 0x6C00) (mid' := 0x6C00)
    (Within.pieces 0x4C00 128 64 (fun n _ => (b.laneMap_within _ _).widen (by omega) (by omega)) (by omega) (by omega))
    (Within.pieces 0x6C00 128 4 (fun n _ => (b.laneMap_within _ _).widen (by omega) (by omega)) (by omega) (by omega)) (by omega) (by omega) (by omega)

/-- The record's bytes rise within 32,768 and are not zero. -/
theorem Board.record_within (b : Board) (f : Freeze) : Within 0 32768 (b.record f) := by
  unfold Board.record
  refine Within.append (mid := 0x4C00) ?_ (b.mapBytes_within.widen (Nat.le_refl _) (by omega)) (by omega) (by omega) (by omega)
  refine Within.append (mid := 0x1000) (mid' := 0x1000) ?_
    (Within.pieces 0x1000 640 (min b.pipe.length 24) (fun k _ => ?_) (by omega) (by omega)) (by omega) (by omega) (by omega)
  refine Within.append (mid := 0x700) (mid' := 0x800) ?_
    (Within.pieces 0x800 512 4 (fun k _ => Within.pieces (0x800 + 512 * k) 4 128
      (fun l _ => (Within.sparse _ 4 _).widen (by omega) (by omega)) (by omega) (by omega)) (by omega) (by omega))
    (by omega) (by omega) (by omega)
  refine Within.append (mid := 0x300) (mid' := 0x300) ?_
    (Within.pieces 0x300 64 (min b.parked.length 16) (fun k _ => ?_) (by omega) (by omega)) (by omega) (by omega) (by omega)
  refine Within.append (mid := 0x98) (mid' := 0x100) ?_
    (Within.pieces 0x100 4 128 (fun l _ => (Within.sparse _ 4 _).widen (by omega) (by omega)) (by omega) (by omega))
    (by omega) (by omega) (by omega)
  · iterate 19 refine Within.append ?_ ((Within.sparse _ _ _).widen (Nat.le_refl _) (by omega)) (Nat.le_refl _) (by omega) (by omega)
    exact Within.sparse 0 8 _
  · split
    · exact Parked.within _ k
    · exact .nil
  · split
    · exact PipeEntry.within _ k
    · exact .nil

/-- Memory with a record in its place is canonical. -/
theorem Mem.wf_record {m : Mem} (w : m.wf = true) (a : Nat) (b : Board) (f : Freeze) : (m.splice a 32768 (b.record f)).wf = true :=
  Mem.wf_splice w (b.record_within f)

/-- Several writes keep memory canonical. -/
theorem Mem.wf_writes {α : Type} (g : α → Nat) (e : α → List Byte) (l : List α) {m : Mem} (w : m.wf = true) :
    (l.foldl (fun m k => m.write (g k) (e k)) m).wf = true := by
  induction l generalizing m with
  | nil => exact w
  | cons k t ih => exact ih (Mem.wf_write w _ _)

end Sys2Proof.Machine
end

