-- ==== Sys2Proof/Laws/State.lean ====
section
/-!
SUPPORT. For each update of the state and each of its fields: what the field is after the update. Most fields are as they were.
-/
namespace Sys2Proof.Machine

variable (s : State)

@[simp] theorem State.put_bd (b : Board) : (s.put b).bd = some b := rfl
@[simp] theorem State.put_boards (b : Board) : (s.put b).boards = s.boards := rfl
@[simp] theorem State.put_cur (b : Board) : (s.put b).cur = s.cur := rfl
@[simp] theorem State.put_bents (b : Board) : (s.put b).bents = s.bents := rfl
@[simp] theorem State.put_grids (b : Board) : (s.put b).grids = s.grids := rfl
@[simp] theorem State.put_graphs (b : Board) : (s.put b).graphs = s.graphs := rfl
@[simp] theorem State.put_launches (b : Board) : (s.put b).launches = s.launches := rfl
@[simp] theorem State.put_ctxs (b : Board) : (s.put b).ctxs = s.ctxs := rfl
@[simp] theorem State.put_fns (b : Board) : (s.put b).fns = s.fns := rfl
@[simp] theorem State.put_queues (b : Board) : (s.put b).queues = s.queues := rfl
@[simp] theorem State.put_mapped (b : Board) : (s.put b).mapped = s.mapped := rfl
@[simp] theorem State.put_frames (b : Board) : (s.put b).frames = s.frames := rfl
@[simp] theorem State.put_parkedCmds (b : Board) : (s.put b).parkedCmds = s.parkedCmds := rfl
@[simp] theorem State.put_mem (b : Board) : (s.put b).mem = s.mem := rfl
@[simp] theorem State.put_edits (b : Board) : (s.put b).edits = s.edits := rfl
@[simp] theorem State.put_badLines (b : Board) : (s.put b).badLines = s.badLines := rfl
@[simp] theorem State.put_hostMem (b : Board) : (s.put b).hostMem = s.hostMem := rfl
@[simp] theorem State.put_tlb (b : Board) : (s.put b).tlb = s.tlb := rfl
@[simp] theorem State.put_l1 (b : Board) : (s.put b).l1 = s.l1 := rfl
@[simp] theorem State.put_outReqs (b : Board) : (s.put b).outReqs = s.outReqs := rfl
@[simp] theorem State.put_fetches (b : Board) : (s.put b).fetches = s.fetches := rfl
@[simp] theorem State.put_inReqs (b : Board) : (s.put b).inReqs = s.inReqs := rfl
@[simp] theorem State.put_toPeers (b : Board) : (s.put b).toPeers = s.toPeers := rfl
@[simp] theorem State.put_barredAgents (b : Board) : (s.put b).barredAgents = s.barredAgents := rfl
@[simp] theorem State.put_wakes (b : Board) : (s.put b).wakes = s.wakes := rfl
@[simp] theorem State.put_wakesOut (b : Board) : (s.put b).wakesOut = s.wakesOut := rfl
@[simp] theorem State.put_rings (b : Board) : (s.put b).rings = s.rings := rfl
@[simp] theorem State.put_planes (b : Board) : (s.put b).planes = s.planes := rfl
@[simp] theorem State.put_farDown (b : Board) : (s.put b).farDown = s.farDown := rfl
@[simp] theorem State.put_lost (b : Board) : (s.put b).lost = s.lost := rfl
@[simp] theorem State.put_heard (b : Board) : (s.put b).heard = s.heard := rfl
@[simp] theorem State.put_modid (b : Board) : (s.put b).modid = s.modid := rfl
@[simp] theorem State.put_uaen (b : Board) : (s.put b).uaen = s.uaen := rfl
@[simp] theorem State.put_safecap (b : Board) : (s.put b).safecap = s.safecap := rfl
@[simp] theorem State.put_pth (b : Board) : (s.put b).pth = s.pth := rfl
@[simp] theorem State.put_capSeq (b : Board) : (s.put b).capSeq = s.capSeq := rfl
@[simp] theorem State.put_cap (b : Board) : (s.put b).cap = s.cap := rfl
@[simp] theorem State.put_capEnd (b : Board) : (s.put b).capEnd = s.capEnd := rfl
@[simp] theorem State.put_power (b : Board) : (s.put b).power = s.power := rfl
@[simp] theorem State.put_tmig (b : Board) : (s.put b).tmig = s.tmig := rfl
@[simp] theorem State.put_tcap (b : Board) : (s.put b).tcap = s.tcap := rfl
@[simp] theorem State.put_overCap (b : Board) : (s.put b).overCap = s.overCap := rfl
@[simp] theorem State.put_capEvent (b : Board) : (s.put b).capEvent = s.capEvent := rfl
@[simp] theorem State.put_paces (b : Board) : (s.put b).paces = s.paces := rfl
@[simp] theorem State.put_paceSent (b : Board) : (s.put b).paceSent = s.paceSent := rfl
@[simp] theorem State.put_time (b : Board) : (s.put b).time = s.time := rfl
@[simp] theorem State.put_timeErr (b : Board) : (s.put b).timeErr = s.timeErr := rfl
@[simp] theorem State.put_slewRem (b : Board) : (s.put b).slewRem = s.slewRem := rfl
@[simp] theorem State.put_synced (b : Board) : (s.put b).synced = s.synced := rfl
@[simp] theorem State.put_exchanged (b : Board) : (s.put b).exchanged = s.exchanged := rfl
@[simp] theorem State.put_wall (b : Board) : (s.put b).wall = s.wall := rfl
@[simp] theorem State.put_records (b : Board) : (s.put b).records = s.records := rfl
@[simp] theorem State.put_starts (b : Board) : (s.put b).starts = s.starts := rfl
@[simp] theorem State.put_late (b : Board) : (s.put b).late = s.late := rfl
@[simp] theorem State.put_devLog (b : Board) : (s.put b).devLog = s.devLog := rfl
@[simp] theorem State.put_linkUp (b : Board) : (s.put b).linkUp = s.linkUp := rfl
@[simp] theorem State.put_linkLost (b : Board) : (s.put b).linkLost = s.linkLost := rfl
@[simp] theorem State.put_linkReset (b : Board) : (s.put b).linkReset = s.linkReset := rfl
@[simp] theorem State.put_ctrl (b : Board) : (s.put b).ctrl = s.ctrl := rfl
@[simp] theorem State.put_rails (b : Board) : (s.put b).rails = s.rails := rfl
@[simp] theorem State.put_down (b : Board) : (s.put b).down = s.down := rfl
@[simp] theorem State.put_fwCtrl (b : Board) : (s.put b).fwCtrl = s.fwCtrl := rfl
@[simp] theorem State.put_fwCores (b : Board) : (s.put b).fwCores = s.fwCores := rfl
@[simp] theorem State.put_halted (b : Board) : (s.put b).halted = s.halted := rfl
@[simp] theorem State.put_sideband (b : Board) : (s.put b).sideband = s.sideband := rfl
@[simp] theorem State.put_completions (b : Board) : (s.put b).completions = s.completions := rfl
@[simp] theorem State.put_inputs (b : Board) : (s.put b).inputs = s.inputs := rfl
@[simp] theorem State.put_freeCtr (b : Board) : (s.put b).freeCtr = s.freeCtr := rfl
@[simp] theorem State.put_nextUid (b : Board) : (s.put b).nextUid = s.nextUid := rfl

@[simp] theorem State.setBoard_cur (b : Board) : (s.setBoard b).cur = s.cur := by unfold State.setBoard; (repeat' split) <;> rfl
@[simp] theorem State.setBoard_bents (b : Board) : (s.setBoard b).bents = s.bents := by unfold State.setBoard; (repeat' split) <;> rfl
@[simp] theorem State.setBoard_grids (b : Board) : (s.setBoard b).grids = s.grids := by unfold State.setBoard; (repeat' split) <;> rfl
@[simp] theorem State.setBoard_graphs (b : Board) : (s.setBoard b).graphs = s.graphs := by unfold State.setBoard; (repeat' split) <;> rfl
@[simp] theorem State.setBoard_launches (b : Board) : (s.setBoard b).launches = s.launches := by unfold State.setBoard; (repeat' split) <;> rfl
@[simp] theorem State.setBoard_ctxs (b : Board) : (s.setBoard b).ctxs = s.ctxs := by unfold State.setBoard; (repeat' split) <;> rfl
@[simp] theorem State.setBoard_fns (b : Board) : (s.setBoard b).fns = s.fns := by unfold State.setBoard; (repeat' split) <;> rfl
@[simp] theorem State.setBoard_queues (b : Board) : (s.setBoard b).queues = s.queues := by unfold State.setBoard; (repeat' split) <;> rfl
@[simp] theorem State.setBoard_mapped (b : Board) : (s.setBoard b).mapped = s.mapped := by unfold State.setBoard; (repeat' split) <;> rfl
@[simp] theorem State.setBoard_frames (b : Board) : (s.setBoard b).frames = s.frames := by unfold State.setBoard; (repeat' split) <;> rfl
@[simp] theorem State.setBoard_parkedCmds (b : Board) : (s.setBoard b).parkedCmds = s.parkedCmds := by unfold State.setBoard; (repeat' split) <;> rfl
@[simp] theorem State.setBoard_mem (b : Board) : (s.setBoard b).mem = s.mem := by unfold State.setBoard; (repeat' split) <;> rfl
@[simp] theorem State.setBoard_edits (b : Board) : (s.setBoard b).edits = s.edits := by unfold State.setBoard; (repeat' split) <;> rfl
@[simp] theorem State.setBoard_badLines (b : Board) : (s.setBoard b).badLines = s.badLines := by unfold State.setBoard; (repeat' split) <;> rfl
@[simp] theorem State.setBoard_hostMem (b : Board) : (s.setBoard b).hostMem = s.hostMem := by unfold State.setBoard; (repeat' split) <;> rfl
@[simp] theorem State.setBoard_tlb (b : Board) : (s.setBoard b).tlb = s.tlb := by unfold State.setBoard; (repeat' split) <;> rfl
@[simp] theorem State.setBoard_l1 (b : Board) : (s.setBoard b).l1 = s.l1 := by unfold State.setBoard; (repeat' split) <;> rfl
@[simp] theorem State.setBoard_outReqs (b : Board) : (s.setBoard b).outReqs = s.outReqs := by unfold State.setBoard; (repeat' split) <;> rfl
@[simp] theorem State.setBoard_fetches (b : Board) : (s.setBoard b).fetches = s.fetches := by unfold State.setBoard; (repeat' split) <;> rfl
@[simp] theorem State.setBoard_inReqs (b : Board) : (s.setBoard b).inReqs = s.inReqs := by unfold State.setBoard; (repeat' split) <;> rfl
@[simp] theorem State.setBoard_toPeers (b : Board) : (s.setBoard b).toPeers = s.toPeers := by unfold State.setBoard; (repeat' split) <;> rfl
@[simp] theorem State.setBoard_barredAgents (b : Board) : (s.setBoard b).barredAgents = s.barredAgents := by unfold State.setBoard; (repeat' split) <;> rfl
@[simp] theorem State.setBoard_wakes (b : Board) : (s.setBoard b).wakes = s.wakes := by unfold State.setBoard; (repeat' split) <;> rfl
@[simp] theorem State.setBoard_wakesOut (b : Board) : (s.setBoard b).wakesOut = s.wakesOut := by unfold State.setBoard; (repeat' split) <;> rfl
@[simp] theorem State.setBoard_rings (b : Board) : (s.setBoard b).rings = s.rings := by unfold State.setBoard; (repeat' split) <;> rfl
@[simp] theorem State.setBoard_planes (b : Board) : (s.setBoard b).planes = s.planes := by unfold State.setBoard; (repeat' split) <;> rfl
@[simp] theorem State.setBoard_farDown (b : Board) : (s.setBoard b).farDown = s.farDown := by unfold State.setBoard; (repeat' split) <;> rfl
@[simp] theorem State.setBoard_lost (b : Board) : (s.setBoard b).lost = s.lost := by unfold State.setBoard; (repeat' split) <;> rfl
@[simp] theorem State.setBoard_heard (b : Board) : (s.setBoard b).heard = s.heard := by unfold State.setBoard; (repeat' split) <;> rfl
@[simp] theorem State.setBoard_modid (b : Board) : (s.setBoard b).modid = s.modid := by unfold State.setBoard; (repeat' split) <;> rfl
@[simp] theorem State.setBoard_uaen (b : Board) : (s.setBoard b).uaen = s.uaen := by unfold State.setBoard; (repeat' split) <;> rfl
@[simp] theorem State.setBoard_safecap (b : Board) : (s.setBoard b).safecap = s.safecap := by unfold State.setBoard; (repeat' split) <;> rfl
@[simp] theorem State.setBoard_pth (b : Board) : (s.setBoard b).pth = s.pth := by unfold State.setBoard; (repeat' split) <;> rfl
@[simp] theorem State.setBoard_capSeq (b : Board) : (s.setBoard b).capSeq = s.capSeq := by unfold State.setBoard; (repeat' split) <;> rfl
@[simp] theorem State.setBoard_cap (b : Board) : (s.setBoard b).cap = s.cap := by unfold State.setBoard; (repeat' split) <;> rfl
@[simp] theorem State.setBoard_capEnd (b : Board) : (s.setBoard b).capEnd = s.capEnd := by unfold State.setBoard; (repeat' split) <;> rfl
@[simp] theorem State.setBoard_power (b : Board) : (s.setBoard b).power = s.power := by unfold State.setBoard; (repeat' split) <;> rfl
@[simp] theorem State.setBoard_tmig (b : Board) : (s.setBoard b).tmig = s.tmig := by unfold State.setBoard; (repeat' split) <;> rfl
@[simp] theorem State.setBoard_tcap (b : Board) : (s.setBoard b).tcap = s.tcap := by unfold State.setBoard; (repeat' split) <;> rfl
@[simp] theorem State.setBoard_overCap (b : Board) : (s.setBoard b).overCap = s.overCap := by unfold State.setBoard; (repeat' split) <;> rfl
@[simp] theorem State.setBoard_capEvent (b : Board) : (s.setBoard b).capEvent = s.capEvent := by unfold State.setBoard; (repeat' split) <;> rfl
@[simp] theorem State.setBoard_paces (b : Board) : (s.setBoard b).paces = s.paces := by unfold State.setBoard; (repeat' split) <;> rfl
@[simp] theorem State.setBoard_paceSent (b : Board) : (s.setBoard b).paceSent = s.paceSent := by unfold State.setBoard; (repeat' split) <;> rfl
@[simp] theorem State.setBoard_time (b : Board) : (s.setBoard b).time = s.time := by unfold State.setBoard; (repeat' split) <;> rfl
@[simp] theorem State.setBoard_timeErr (b : Board) : (s.setBoard b).timeErr = s.timeErr := by unfold State.setBoard; (repeat' split) <;> rfl
@[simp] theorem State.setBoard_slewRem (b : Board) : (s.setBoard b).slewRem = s.slewRem := by unfold State.setBoard; (repeat' split) <;> rfl
@[simp] theorem State.setBoard_synced (b : Board) : (s.setBoard b).synced = s.synced := by unfold State.setBoard; (repeat' split) <;> rfl
@[simp] theorem State.setBoard_exchanged (b : Board) : (s.setBoard b).exchanged = s.exchanged := by unfold State.setBoard; (repeat' split) <;> rfl
@[simp] theorem State.setBoard_wall (b : Board) : (s.setBoard b).wall = s.wall := by unfold State.setBoard; (repeat' split) <;> rfl
@[simp] theorem State.setBoard_records (b : Board) : (s.setBoard b).records = s.records := by unfold State.setBoard; (repeat' split) <;> rfl
@[simp] theorem State.setBoard_starts (b : Board) : (s.setBoard b).starts = s.starts := by unfold State.setBoard; (repeat' split) <;> rfl
@[simp] theorem State.setBoard_late (b : Board) : (s.setBoard b).late = s.late := by unfold State.setBoard; (repeat' split) <;> rfl
@[simp] theorem State.setBoard_devLog (b : Board) : (s.setBoard b).devLog = s.devLog := by unfold State.setBoard; (repeat' split) <;> rfl
@[simp] theorem State.setBoard_linkUp (b : Board) : (s.setBoard b).linkUp = s.linkUp := by unfold State.setBoard; (repeat' split) <;> rfl
@[simp] theorem State.setBoard_linkLost (b : Board) : (s.setBoard b).linkLost = s.linkLost := by unfold State.setBoard; (repeat' split) <;> rfl
@[simp] theorem State.setBoard_linkReset (b : Board) : (s.setBoard b).linkReset = s.linkReset := by unfold State.setBoard; (repeat' split) <;> rfl
@[simp] theorem State.setBoard_ctrl (b : Board) : (s.setBoard b).ctrl = s.ctrl := by unfold State.setBoard; (repeat' split) <;> rfl
@[simp] theorem State.setBoard_rails (b : Board) : (s.setBoard b).rails = s.rails := by unfold State.setBoard; (repeat' split) <;> rfl
@[simp] theorem State.setBoard_down (b : Board) : (s.setBoard b).down = s.down := by unfold State.setBoard; (repeat' split) <;> rfl
@[simp] theorem State.setBoard_fwCtrl (b : Board) : (s.setBoard b).fwCtrl = s.fwCtrl := by unfold State.setBoard; (repeat' split) <;> rfl
@[simp] theorem State.setBoard_fwCores (b : Board) : (s.setBoard b).fwCores = s.fwCores := by unfold State.setBoard; (repeat' split) <;> rfl
@[simp] theorem State.setBoard_halted (b : Board) : (s.setBoard b).halted = s.halted := by unfold State.setBoard; (repeat' split) <;> rfl
@[simp] theorem State.setBoard_sideband (b : Board) : (s.setBoard b).sideband = s.sideband := by unfold State.setBoard; (repeat' split) <;> rfl
@[simp] theorem State.setBoard_completions (b : Board) : (s.setBoard b).completions = s.completions := by unfold State.setBoard; (repeat' split) <;> rfl
@[simp] theorem State.setBoard_inputs (b : Board) : (s.setBoard b).inputs = s.inputs := by unfold State.setBoard; (repeat' split) <;> rfl
@[simp] theorem State.setBoard_freeCtr (b : Board) : (s.setBoard b).freeCtr = s.freeCtr := by unfold State.setBoard; (repeat' split) <;> rfl
@[simp] theorem State.setBoard_nextUid (b : Board) : (s.setBoard b).nextUid = s.nextUid := by unfold State.setBoard; (repeat' split) <;> rfl

@[simp] theorem State.modBoard_cur (id : Nat) (f : Board → Board) : (s.modBoard id f).cur = s.cur := by unfold State.modBoard; split <;> simp
@[simp] theorem State.modBoard_bents (id : Nat) (f : Board → Board) : (s.modBoard id f).bents = s.bents := by unfold State.modBoard; split <;> simp
@[simp] theorem State.modBoard_grids (id : Nat) (f : Board → Board) : (s.modBoard id f).grids = s.grids := by unfold State.modBoard; split <;> simp
@[simp] theorem State.modBoard_graphs (id : Nat) (f : Board → Board) : (s.modBoard id f).graphs = s.graphs := by unfold State.modBoard; split <;> simp
@[simp] theorem State.modBoard_launches (id : Nat) (f : Board → Board) : (s.modBoard id f).launches = s.launches := by unfold State.modBoard; split <;> simp
@[simp] theorem State.modBoard_ctxs (id : Nat) (f : Board → Board) : (s.modBoard id f).ctxs = s.ctxs := by unfold State.modBoard; split <;> simp
@[simp] theorem State.modBoard_fns (id : Nat) (f : Board → Board) : (s.modBoard id f).fns = s.fns := by unfold State.modBoard; split <;> simp
@[simp] theorem State.modBoard_queues (id : Nat) (f : Board → Board) : (s.modBoard id f).queues = s.queues := by unfold State.modBoard; split <;> simp
@[simp] theorem State.modBoard_mapped (id : Nat) (f : Board → Board) : (s.modBoard id f).mapped = s.mapped := by unfold State.modBoard; split <;> simp
@[simp] theorem State.modBoard_frames (id : Nat) (f : Board → Board) : (s.modBoard id f).frames = s.frames := by unfold State.modBoard; split <;> simp
@[simp] theorem State.modBoard_parkedCmds (id : Nat) (f : Board → Board) : (s.modBoard id f).parkedCmds = s.parkedCmds := by unfold State.modBoard; split <;> simp
@[simp] theorem State.modBoard_mem (id : Nat) (f : Board → Board) : (s.modBoard id f).mem = s.mem := by unfold State.modBoard; split <;> simp
@[simp] theorem State.modBoard_edits (id : Nat) (f : Board → Board) : (s.modBoard id f).edits = s.edits := by unfold State.modBoard; split <;> simp
@[simp] theorem State.modBoard_badLines (id : Nat) (f : Board → Board) : (s.modBoard id f).badLines = s.badLines := by unfold State.modBoard; split <;> simp
@[simp] theorem State.modBoard_hostMem (id : Nat) (f : Board → Board) : (s.modBoard id f).hostMem = s.hostMem := by unfold State.modBoard; split <;> simp
@[simp] theorem State.modBoard_tlb (id : Nat) (f : Board → Board) : (s.modBoard id f).tlb = s.tlb := by unfold State.modBoard; split <;> simp
@[simp] theorem State.modBoard_l1 (id : Nat) (f : Board → Board) : (s.modBoard id f).l1 = s.l1 := by unfold State.modBoard; split <;> simp
@[simp] theorem State.modBoard_outReqs (id : Nat) (f : Board → Board) : (s.modBoard id f).outReqs = s.outReqs := by unfold State.modBoard; split <;> simp
@[simp] theorem State.modBoard_fetches (id : Nat) (f : Board → Board) : (s.modBoard id f).fetches = s.fetches := by unfold State.modBoard; split <;> simp
@[simp] theorem State.modBoard_inReqs (id : Nat) (f : Board → Board) : (s.modBoard id f).inReqs = s.inReqs := by unfold State.modBoard; split <;> simp
@[simp] theorem State.modBoard_toPeers (id : Nat) (f : Board → Board) : (s.modBoard id f).toPeers = s.toPeers := by unfold State.modBoard; split <;> simp
@[simp] theorem State.modBoard_barredAgents (id : Nat) (f : Board → Board) : (s.modBoard id f).barredAgents = s.barredAgents := by unfold State.modBoard; split <;> simp
@[simp] theorem State.modBoard_wakes (id : Nat) (f : Board → Board) : (s.modBoard id f).wakes = s.wakes := by unfold State.modBoard; split <;> simp
@[simp] theorem State.modBoard_wakesOut (id : Nat) (f : Board → Board) : (s.modBoard id f).wakesOut = s.wakesOut := by unfold State.modBoard; split <;> simp
@[simp] theorem State.modBoard_rings (id : Nat) (f : Board → Board) : (s.modBoard id f).rings = s.rings := by unfold State.modBoard; split <;> simp
@[simp] theorem State.modBoard_planes (id : Nat) (f : Board → Board) : (s.modBoard id f).planes = s.planes := by unfold State.modBoard; split <;> simp
@[simp] theorem State.modBoard_farDown (id : Nat) (f : Board → Board) : (s.modBoard id f).farDown = s.farDown := by unfold State.modBoard; split <;> simp
@[simp] theorem State.modBoard_lost (id : Nat) (f : Board → Board) : (s.modBoard id f).lost = s.lost := by unfold State.modBoard; split <;> simp
@[simp] theorem State.modBoard_heard (id : Nat) (f : Board → Board) : (s.modBoard id f).heard = s.heard := by unfold State.modBoard; split <;> simp
@[simp] theorem State.modBoard_modid (id : Nat) (f : Board → Board) : (s.modBoard id f).modid = s.modid := by unfold State.modBoard; split <;> simp
@[simp] theorem State.modBoard_uaen (id : Nat) (f : Board → Board) : (s.modBoard id f).uaen = s.uaen := by unfold State.modBoard; split <;> simp
@[simp] theorem State.modBoard_safecap (id : Nat) (f : Board → Board) : (s.modBoard id f).safecap = s.safecap := by unfold State.modBoard; split <;> simp
@[simp] theorem State.modBoard_pth (id : Nat) (f : Board → Board) : (s.modBoard id f).pth = s.pth := by unfold State.modBoard; split <;> simp
@[simp] theorem State.modBoard_capSeq (id : Nat) (f : Board → Board) : (s.modBoard id f).capSeq = s.capSeq := by unfold State.modBoard; split <;> simp
@[simp] theorem State.modBoard_cap (id : Nat) (f : Board → Board) : (s.modBoard id f).cap = s.cap := by unfold State.modBoard; split <;> simp
@[simp] theorem State.modBoard_capEnd (id : Nat) (f : Board → Board) : (s.modBoard id f).capEnd = s.capEnd := by unfold State.modBoard; split <;> simp
@[simp] theorem State.modBoard_power (id : Nat) (f : Board → Board) : (s.modBoard id f).power = s.power := by unfold State.modBoard; split <;> simp
@[simp] theorem State.modBoard_tmig (id : Nat) (f : Board → Board) : (s.modBoard id f).tmig = s.tmig := by unfold State.modBoard; split <;> simp
@[simp] theorem State.modBoard_tcap (id : Nat) (f : Board → Board) : (s.modBoard id f).tcap = s.tcap := by unfold State.modBoard; split <;> simp
@[simp] theorem State.modBoard_overCap (id : Nat) (f : Board → Board) : (s.modBoard id f).overCap = s.overCap := by unfold State.modBoard; split <;> simp
@[simp] theorem State.modBoard_capEvent (id : Nat) (f : Board → Board) : (s.modBoard id f).capEvent = s.capEvent := by unfold State.modBoard; split <;> simp
@[simp] theorem State.modBoard_paces (id : Nat) (f : Board → Board) : (s.modBoard id f).paces = s.paces := by unfold State.modBoard; split <;> simp
@[simp] theorem State.modBoard_paceSent (id : Nat) (f : Board → Board) : (s.modBoard id f).paceSent = s.paceSent := by unfold State.modBoard; split <;> simp
@[simp] theorem State.modBoard_time (id : Nat) (f : Board → Board) : (s.modBoard id f).time = s.time := by unfold State.modBoard; split <;> simp
@[simp] theorem State.modBoard_timeErr (id : Nat) (f : Board → Board) : (s.modBoard id f).timeErr = s.timeErr := by unfold State.modBoard; split <;> simp
@[simp] theorem State.modBoard_slewRem (id : Nat) (f : Board → Board) : (s.modBoard id f).slewRem = s.slewRem := by unfold State.modBoard; split <;> simp
@[simp] theorem State.modBoard_synced (id : Nat) (f : Board → Board) : (s.modBoard id f).synced = s.synced := by unfold State.modBoard; split <;> simp
@[simp] theorem State.modBoard_exchanged (id : Nat) (f : Board → Board) : (s.modBoard id f).exchanged = s.exchanged := by unfold State.modBoard; split <;> simp
@[simp] theorem State.modBoard_wall (id : Nat) (f : Board → Board) : (s.modBoard id f).wall = s.wall := by unfold State.modBoard; split <;> simp
@[simp] theorem State.modBoard_records (id : Nat) (f : Board → Board) : (s.modBoard id f).records = s.records := by unfold State.modBoard; split <;> simp
@[simp] theorem State.modBoard_starts (id : Nat) (f : Board → Board) : (s.modBoard id f).starts = s.starts := by unfold State.modBoard; split <;> simp
@[simp] theorem State.modBoard_late (id : Nat) (f : Board → Board) : (s.modBoard id f).late = s.late := by unfold State.modBoard; split <;> simp
@[simp] theorem State.modBoard_devLog (id : Nat) (f : Board → Board) : (s.modBoard id f).devLog = s.devLog := by unfold State.modBoard; split <;> simp
@[simp] theorem State.modBoard_linkUp (id : Nat) (f : Board → Board) : (s.modBoard id f).linkUp = s.linkUp := by unfold State.modBoard; split <;> simp
@[simp] theorem State.modBoard_linkLost (id : Nat) (f : Board → Board) : (s.modBoard id f).linkLost = s.linkLost := by unfold State.modBoard; split <;> simp
@[simp] theorem State.modBoard_linkReset (id : Nat) (f : Board → Board) : (s.modBoard id f).linkReset = s.linkReset := by unfold State.modBoard; split <;> simp
@[simp] theorem State.modBoard_ctrl (id : Nat) (f : Board → Board) : (s.modBoard id f).ctrl = s.ctrl := by unfold State.modBoard; split <;> simp
@[simp] theorem State.modBoard_rails (id : Nat) (f : Board → Board) : (s.modBoard id f).rails = s.rails := by unfold State.modBoard; split <;> simp
@[simp] theorem State.modBoard_down (id : Nat) (f : Board → Board) : (s.modBoard id f).down = s.down := by unfold State.modBoard; split <;> simp
@[simp] theorem State.modBoard_fwCtrl (id : Nat) (f : Board → Board) : (s.modBoard id f).fwCtrl = s.fwCtrl := by unfold State.modBoard; split <;> simp
@[simp] theorem State.modBoard_fwCores (id : Nat) (f : Board → Board) : (s.modBoard id f).fwCores = s.fwCores := by unfold State.modBoard; split <;> simp
@[simp] theorem State.modBoard_halted (id : Nat) (f : Board → Board) : (s.modBoard id f).halted = s.halted := by unfold State.modBoard; split <;> simp
@[simp] theorem State.modBoard_sideband (id : Nat) (f : Board → Board) : (s.modBoard id f).sideband = s.sideband := by unfold State.modBoard; split <;> simp
@[simp] theorem State.modBoard_completions (id : Nat) (f : Board → Board) : (s.modBoard id f).completions = s.completions := by unfold State.modBoard; split <;> simp
@[simp] theorem State.modBoard_inputs (id : Nat) (f : Board → Board) : (s.modBoard id f).inputs = s.inputs := by unfold State.modBoard; split <;> simp
@[simp] theorem State.modBoard_freeCtr (id : Nat) (f : Board → Board) : (s.modBoard id f).freeCtr = s.freeCtr := by unfold State.modBoard; split <;> simp
@[simp] theorem State.modBoard_nextUid (id : Nat) (f : Board → Board) : (s.modBoard id f).nextUid = s.nextUid := by unfold State.modBoard; split <;> simp

@[simp] theorem State.mapBoards_bd (f : Board → Board) : (s.mapBoards f).bd = s.bd.map f := rfl
@[simp] theorem State.mapBoards_boards (f : Board → Board) : (s.mapBoards f).boards = s.boards.map f := rfl
@[simp] theorem State.mapBoards_cur (f : Board → Board) : (s.mapBoards f).cur = s.cur := rfl
@[simp] theorem State.mapBoards_bents (f : Board → Board) : (s.mapBoards f).bents = s.bents := rfl
@[simp] theorem State.mapBoards_grids (f : Board → Board) : (s.mapBoards f).grids = s.grids := rfl
@[simp] theorem State.mapBoards_graphs (f : Board → Board) : (s.mapBoards f).graphs = s.graphs := rfl
@[simp] theorem State.mapBoards_launches (f : Board → Board) : (s.mapBoards f).launches = s.launches := rfl
@[simp] theorem State.mapBoards_ctxs (f : Board → Board) : (s.mapBoards f).ctxs = s.ctxs := rfl
@[simp] theorem State.mapBoards_fns (f : Board → Board) : (s.mapBoards f).fns = s.fns := rfl
@[simp] theorem State.mapBoards_queues (f : Board → Board) : (s.mapBoards f).queues = s.queues := rfl
@[simp] theorem State.mapBoards_mapped (f : Board → Board) : (s.mapBoards f).mapped = s.mapped := rfl
@[simp] theorem State.mapBoards_frames (f : Board → Board) : (s.mapBoards f).frames = s.frames := rfl
@[simp] theorem State.mapBoards_parkedCmds (f : Board → Board) : (s.mapBoards f).parkedCmds = s.parkedCmds := rfl
@[simp] theorem State.mapBoards_mem (f : Board → Board) : (s.mapBoards f).mem = s.mem := rfl
@[simp] theorem State.mapBoards_edits (f : Board → Board) : (s.mapBoards f).edits = s.edits := rfl
@[simp] theorem State.mapBoards_badLines (f : Board → Board) : (s.mapBoards f).badLines = s.badLines := rfl
@[simp] theorem State.mapBoards_hostMem (f : Board → Board) : (s.mapBoards f).hostMem = s.hostMem := rfl
@[simp] theorem State.mapBoards_tlb (f : Board → Board) : (s.mapBoards f).tlb = s.tlb := rfl
@[simp] theorem State.mapBoards_l1 (f : Board → Board) : (s.mapBoards f).l1 = s.l1 := rfl
@[simp] theorem State.mapBoards_outReqs (f : Board → Board) : (s.mapBoards f).outReqs = s.outReqs := rfl
@[simp] theorem State.mapBoards_fetches (f : Board → Board) : (s.mapBoards f).fetches = s.fetches := rfl
@[simp] theorem State.mapBoards_inReqs (f : Board → Board) : (s.mapBoards f).inReqs = s.inReqs := rfl
@[simp] theorem State.mapBoards_toPeers (f : Board → Board) : (s.mapBoards f).toPeers = s.toPeers := rfl
@[simp] theorem State.mapBoards_barredAgents (f : Board → Board) : (s.mapBoards f).barredAgents = s.barredAgents := rfl
@[simp] theorem State.mapBoards_wakes (f : Board → Board) : (s.mapBoards f).wakes = s.wakes := rfl
@[simp] theorem State.mapBoards_wakesOut (f : Board → Board) : (s.mapBoards f).wakesOut = s.wakesOut := rfl
@[simp] theorem State.mapBoards_rings (f : Board → Board) : (s.mapBoards f).rings = s.rings := rfl
@[simp] theorem State.mapBoards_planes (f : Board → Board) : (s.mapBoards f).planes = s.planes := rfl
@[simp] theorem State.mapBoards_farDown (f : Board → Board) : (s.mapBoards f).farDown = s.farDown := rfl
@[simp] theorem State.mapBoards_lost (f : Board → Board) : (s.mapBoards f).lost = s.lost := rfl
@[simp] theorem State.mapBoards_heard (f : Board → Board) : (s.mapBoards f).heard = s.heard := rfl
@[simp] theorem State.mapBoards_modid (f : Board → Board) : (s.mapBoards f).modid = s.modid := rfl
@[simp] theorem State.mapBoards_uaen (f : Board → Board) : (s.mapBoards f).uaen = s.uaen := rfl
@[simp] theorem State.mapBoards_safecap (f : Board → Board) : (s.mapBoards f).safecap = s.safecap := rfl
@[simp] theorem State.mapBoards_pth (f : Board → Board) : (s.mapBoards f).pth = s.pth := rfl
@[simp] theorem State.mapBoards_capSeq (f : Board → Board) : (s.mapBoards f).capSeq = s.capSeq := rfl
@[simp] theorem State.mapBoards_cap (f : Board → Board) : (s.mapBoards f).cap = s.cap := rfl
@[simp] theorem State.mapBoards_capEnd (f : Board → Board) : (s.mapBoards f).capEnd = s.capEnd := rfl
@[simp] theorem State.mapBoards_power (f : Board → Board) : (s.mapBoards f).power = s.power := rfl
@[simp] theorem State.mapBoards_tmig (f : Board → Board) : (s.mapBoards f).tmig = s.tmig := rfl
@[simp] theorem State.mapBoards_tcap (f : Board → Board) : (s.mapBoards f).tcap = s.tcap := rfl
@[simp] theorem State.mapBoards_overCap (f : Board → Board) : (s.mapBoards f).overCap = s.overCap := rfl
@[simp] theorem State.mapBoards_capEvent (f : Board → Board) : (s.mapBoards f).capEvent = s.capEvent := rfl
@[simp] theorem State.mapBoards_paces (f : Board → Board) : (s.mapBoards f).paces = s.paces := rfl
@[simp] theorem State.mapBoards_paceSent (f : Board → Board) : (s.mapBoards f).paceSent = s.paceSent := rfl
@[simp] theorem State.mapBoards_time (f : Board → Board) : (s.mapBoards f).time = s.time := rfl
@[simp] theorem State.mapBoards_timeErr (f : Board → Board) : (s.mapBoards f).timeErr = s.timeErr := rfl
@[simp] theorem State.mapBoards_slewRem (f : Board → Board) : (s.mapBoards f).slewRem = s.slewRem := rfl
@[simp] theorem State.mapBoards_synced (f : Board → Board) : (s.mapBoards f).synced = s.synced := rfl
@[simp] theorem State.mapBoards_exchanged (f : Board → Board) : (s.mapBoards f).exchanged = s.exchanged := rfl
@[simp] theorem State.mapBoards_wall (f : Board → Board) : (s.mapBoards f).wall = s.wall := rfl
@[simp] theorem State.mapBoards_records (f : Board → Board) : (s.mapBoards f).records = s.records := rfl
@[simp] theorem State.mapBoards_starts (f : Board → Board) : (s.mapBoards f).starts = s.starts := rfl
@[simp] theorem State.mapBoards_late (f : Board → Board) : (s.mapBoards f).late = s.late := rfl
@[simp] theorem State.mapBoards_devLog (f : Board → Board) : (s.mapBoards f).devLog = s.devLog := rfl
@[simp] theorem State.mapBoards_linkUp (f : Board → Board) : (s.mapBoards f).linkUp = s.linkUp := rfl
@[simp] theorem State.mapBoards_linkLost (f : Board → Board) : (s.mapBoards f).linkLost = s.linkLost := rfl
@[simp] theorem State.mapBoards_linkReset (f : Board → Board) : (s.mapBoards f).linkReset = s.linkReset := rfl
@[simp] theorem State.mapBoards_ctrl (f : Board → Board) : (s.mapBoards f).ctrl = s.ctrl := rfl
@[simp] theorem State.mapBoards_rails (f : Board → Board) : (s.mapBoards f).rails = s.rails := rfl
@[simp] theorem State.mapBoards_down (f : Board → Board) : (s.mapBoards f).down = s.down := rfl
@[simp] theorem State.mapBoards_fwCtrl (f : Board → Board) : (s.mapBoards f).fwCtrl = s.fwCtrl := rfl
@[simp] theorem State.mapBoards_fwCores (f : Board → Board) : (s.mapBoards f).fwCores = s.fwCores := rfl
@[simp] theorem State.mapBoards_halted (f : Board → Board) : (s.mapBoards f).halted = s.halted := rfl
@[simp] theorem State.mapBoards_sideband (f : Board → Board) : (s.mapBoards f).sideband = s.sideband := rfl
@[simp] theorem State.mapBoards_completions (f : Board → Board) : (s.mapBoards f).completions = s.completions := rfl
@[simp] theorem State.mapBoards_inputs (f : Board → Board) : (s.mapBoards f).inputs = s.inputs := rfl
@[simp] theorem State.mapBoards_freeCtr (f : Board → Board) : (s.mapBoards f).freeCtr = s.freeCtr := rfl
@[simp] theorem State.mapBoards_nextUid (f : Board → Board) : (s.mapBoards f).nextUid = s.nextUid := rfl

@[simp] theorem State.modBent_bd (id : Nat) (f : Bent → Bent) : (s.modBent id f).bd = s.bd := rfl
@[simp] theorem State.modBent_boards (id : Nat) (f : Bent → Bent) : (s.modBent id f).boards = s.boards := rfl
@[simp] theorem State.modBent_cur (id : Nat) (f : Bent → Bent) : (s.modBent id f).cur = s.cur := rfl
@[simp] theorem State.modBent_bents (id : Nat) (f : Bent → Bent) : (s.modBent id f).bents = s.bents.map fun x => if x.uid == id then f x else x := rfl
@[simp] theorem State.modBent_grids (id : Nat) (f : Bent → Bent) : (s.modBent id f).grids = s.grids := rfl
@[simp] theorem State.modBent_graphs (id : Nat) (f : Bent → Bent) : (s.modBent id f).graphs = s.graphs := rfl
@[simp] theorem State.modBent_launches (id : Nat) (f : Bent → Bent) : (s.modBent id f).launches = s.launches := rfl
@[simp] theorem State.modBent_ctxs (id : Nat) (f : Bent → Bent) : (s.modBent id f).ctxs = s.ctxs := rfl
@[simp] theorem State.modBent_fns (id : Nat) (f : Bent → Bent) : (s.modBent id f).fns = s.fns := rfl
@[simp] theorem State.modBent_queues (id : Nat) (f : Bent → Bent) : (s.modBent id f).queues = s.queues := rfl
@[simp] theorem State.modBent_mapped (id : Nat) (f : Bent → Bent) : (s.modBent id f).mapped = s.mapped := rfl
@[simp] theorem State.modBent_frames (id : Nat) (f : Bent → Bent) : (s.modBent id f).frames = s.frames := rfl
@[simp] theorem State.modBent_parkedCmds (id : Nat) (f : Bent → Bent) : (s.modBent id f).parkedCmds = s.parkedCmds := rfl
@[simp] theorem State.modBent_mem (id : Nat) (f : Bent → Bent) : (s.modBent id f).mem = s.mem := rfl
@[simp] theorem State.modBent_edits (id : Nat) (f : Bent → Bent) : (s.modBent id f).edits = s.edits := rfl
@[simp] theorem State.modBent_badLines (id : Nat) (f : Bent → Bent) : (s.modBent id f).badLines = s.badLines := rfl
@[simp] theorem State.modBent_hostMem (id : Nat) (f : Bent → Bent) : (s.modBent id f).hostMem = s.hostMem := rfl
@[simp] theorem State.modBent_tlb (id : Nat) (f : Bent → Bent) : (s.modBent id f).tlb = s.tlb := rfl
@[simp] theorem State.modBent_l1 (id : Nat) (f : Bent → Bent) : (s.modBent id f).l1 = s.l1 := rfl
@[simp] theorem State.modBent_outReqs (id : Nat) (f : Bent → Bent) : (s.modBent id f).outReqs = s.outReqs := rfl
@[simp] theorem State.modBent_fetches (id : Nat) (f : Bent → Bent) : (s.modBent id f).fetches = s.fetches := rfl
@[simp] theorem State.modBent_inReqs (id : Nat) (f : Bent → Bent) : (s.modBent id f).inReqs = s.inReqs := rfl
@[simp] theorem State.modBent_toPeers (id : Nat) (f : Bent → Bent) : (s.modBent id f).toPeers = s.toPeers := rfl
@[simp] theorem State.modBent_barredAgents (id : Nat) (f : Bent → Bent) : (s.modBent id f).barredAgents = s.barredAgents := rfl
@[simp] theorem State.modBent_wakes (id : Nat) (f : Bent → Bent) : (s.modBent id f).wakes = s.wakes := rfl
@[simp] theorem State.modBent_wakesOut (id : Nat) (f : Bent → Bent) : (s.modBent id f).wakesOut = s.wakesOut := rfl
@[simp] theorem State.modBent_rings (id : Nat) (f : Bent → Bent) : (s.modBent id f).rings = s.rings := rfl
@[simp] theorem State.modBent_planes (id : Nat) (f : Bent → Bent) : (s.modBent id f).planes = s.planes := rfl
@[simp] theorem State.modBent_farDown (id : Nat) (f : Bent → Bent) : (s.modBent id f).farDown = s.farDown := rfl
@[simp] theorem State.modBent_lost (id : Nat) (f : Bent → Bent) : (s.modBent id f).lost = s.lost := rfl
@[simp] theorem State.modBent_heard (id : Nat) (f : Bent → Bent) : (s.modBent id f).heard = s.heard := rfl
@[simp] theorem State.modBent_modid (id : Nat) (f : Bent → Bent) : (s.modBent id f).modid = s.modid := rfl
@[simp] theorem State.modBent_uaen (id : Nat) (f : Bent → Bent) : (s.modBent id f).uaen = s.uaen := rfl
@[simp] theorem State.modBent_safecap (id : Nat) (f : Bent → Bent) : (s.modBent id f).safecap = s.safecap := rfl
@[simp] theorem State.modBent_pth (id : Nat) (f : Bent → Bent) : (s.modBent id f).pth = s.pth := rfl
@[simp] theorem State.modBent_capSeq (id : Nat) (f : Bent → Bent) : (s.modBent id f).capSeq = s.capSeq := rfl
@[simp] theorem State.modBent_cap (id : Nat) (f : Bent → Bent) : (s.modBent id f).cap = s.cap := rfl
@[simp] theorem State.modBent_capEnd (id : Nat) (f : Bent → Bent) : (s.modBent id f).capEnd = s.capEnd := rfl
@[simp] theorem State.modBent_power (id : Nat) (f : Bent → Bent) : (s.modBent id f).power = s.power := rfl
@[simp] theorem State.modBent_tmig (id : Nat) (f : Bent → Bent) : (s.modBent id f).tmig = s.tmig := rfl
@[simp] theorem State.modBent_tcap (id : Nat) (f : Bent → Bent) : (s.modBent id f).tcap = s.tcap := rfl
@[simp] theorem State.modBent_overCap (id : Nat) (f : Bent → Bent) : (s.modBent id f).overCap = s.overCap := rfl
@[simp] theorem State.modBent_capEvent (id : Nat) (f : Bent → Bent) : (s.modBent id f).capEvent = s.capEvent := rfl
@[simp] theorem State.modBent_paces (id : Nat) (f : Bent → Bent) : (s.modBent id f).paces = s.paces := rfl
@[simp] theorem State.modBent_paceSent (id : Nat) (f : Bent → Bent) : (s.modBent id f).paceSent = s.paceSent := rfl
@[simp] theorem State.modBent_time (id : Nat) (f : Bent → Bent) : (s.modBent id f).time = s.time := rfl
@[simp] theorem State.modBent_timeErr (id : Nat) (f : Bent → Bent) : (s.modBent id f).timeErr = s.timeErr := rfl
@[simp] theorem State.modBent_slewRem (id : Nat) (f : Bent → Bent) : (s.modBent id f).slewRem = s.slewRem := rfl
@[simp] theorem State.modBent_synced (id : Nat) (f : Bent → Bent) : (s.modBent id f).synced = s.synced := rfl
@[simp] theorem State.modBent_exchanged (id : Nat) (f : Bent → Bent) : (s.modBent id f).exchanged = s.exchanged := rfl
@[simp] theorem State.modBent_wall (id : Nat) (f : Bent → Bent) : (s.modBent id f).wall = s.wall := rfl
@[simp] theorem State.modBent_records (id : Nat) (f : Bent → Bent) : (s.modBent id f).records = s.records := rfl
@[simp] theorem State.modBent_starts (id : Nat) (f : Bent → Bent) : (s.modBent id f).starts = s.starts := rfl
@[simp] theorem State.modBent_late (id : Nat) (f : Bent → Bent) : (s.modBent id f).late = s.late := rfl
@[simp] theorem State.modBent_devLog (id : Nat) (f : Bent → Bent) : (s.modBent id f).devLog = s.devLog := rfl
@[simp] theorem State.modBent_linkUp (id : Nat) (f : Bent → Bent) : (s.modBent id f).linkUp = s.linkUp := rfl
@[simp] theorem State.modBent_linkLost (id : Nat) (f : Bent → Bent) : (s.modBent id f).linkLost = s.linkLost := rfl
@[simp] theorem State.modBent_linkReset (id : Nat) (f : Bent → Bent) : (s.modBent id f).linkReset = s.linkReset := rfl
@[simp] theorem State.modBent_ctrl (id : Nat) (f : Bent → Bent) : (s.modBent id f).ctrl = s.ctrl := rfl
@[simp] theorem State.modBent_rails (id : Nat) (f : Bent → Bent) : (s.modBent id f).rails = s.rails := rfl
@[simp] theorem State.modBent_down (id : Nat) (f : Bent → Bent) : (s.modBent id f).down = s.down := rfl
@[simp] theorem State.modBent_fwCtrl (id : Nat) (f : Bent → Bent) : (s.modBent id f).fwCtrl = s.fwCtrl := rfl
@[simp] theorem State.modBent_fwCores (id : Nat) (f : Bent → Bent) : (s.modBent id f).fwCores = s.fwCores := rfl
@[simp] theorem State.modBent_halted (id : Nat) (f : Bent → Bent) : (s.modBent id f).halted = s.halted := rfl
@[simp] theorem State.modBent_sideband (id : Nat) (f : Bent → Bent) : (s.modBent id f).sideband = s.sideband := rfl
@[simp] theorem State.modBent_completions (id : Nat) (f : Bent → Bent) : (s.modBent id f).completions = s.completions := rfl
@[simp] theorem State.modBent_inputs (id : Nat) (f : Bent → Bent) : (s.modBent id f).inputs = s.inputs := rfl
@[simp] theorem State.modBent_freeCtr (id : Nat) (f : Bent → Bent) : (s.modBent id f).freeCtr = s.freeCtr := rfl
@[simp] theorem State.modBent_nextUid (id : Nat) (f : Bent → Bent) : (s.modBent id f).nextUid = s.nextUid := rfl

@[simp] theorem State.modGrid_bd (id : Nat) (f : Grid → Grid) : (s.modGrid id f).bd = s.bd := rfl
@[simp] theorem State.modGrid_boards (id : Nat) (f : Grid → Grid) : (s.modGrid id f).boards = s.boards := rfl
@[simp] theorem State.modGrid_cur (id : Nat) (f : Grid → Grid) : (s.modGrid id f).cur = s.cur := rfl
@[simp] theorem State.modGrid_bents (id : Nat) (f : Grid → Grid) : (s.modGrid id f).bents = s.bents := rfl
@[simp] theorem State.modGrid_grids (id : Nat) (f : Grid → Grid) : (s.modGrid id f).grids = s.grids.map fun x => if x.uid == id then f x else x := rfl
@[simp] theorem State.modGrid_graphs (id : Nat) (f : Grid → Grid) : (s.modGrid id f).graphs = s.graphs := rfl
@[simp] theorem State.modGrid_launches (id : Nat) (f : Grid → Grid) : (s.modGrid id f).launches = s.launches := rfl
@[simp] theorem State.modGrid_ctxs (id : Nat) (f : Grid → Grid) : (s.modGrid id f).ctxs = s.ctxs := rfl
@[simp] theorem State.modGrid_fns (id : Nat) (f : Grid → Grid) : (s.modGrid id f).fns = s.fns := rfl
@[simp] theorem State.modGrid_queues (id : Nat) (f : Grid → Grid) : (s.modGrid id f).queues = s.queues := rfl
@[simp] theorem State.modGrid_mapped (id : Nat) (f : Grid → Grid) : (s.modGrid id f).mapped = s.mapped := rfl
@[simp] theorem State.modGrid_frames (id : Nat) (f : Grid → Grid) : (s.modGrid id f).frames = s.frames := rfl
@[simp] theorem State.modGrid_parkedCmds (id : Nat) (f : Grid → Grid) : (s.modGrid id f).parkedCmds = s.parkedCmds := rfl
@[simp] theorem State.modGrid_mem (id : Nat) (f : Grid → Grid) : (s.modGrid id f).mem = s.mem := rfl
@[simp] theorem State.modGrid_edits (id : Nat) (f : Grid → Grid) : (s.modGrid id f).edits = s.edits := rfl
@[simp] theorem State.modGrid_badLines (id : Nat) (f : Grid → Grid) : (s.modGrid id f).badLines = s.badLines := rfl
@[simp] theorem State.modGrid_hostMem (id : Nat) (f : Grid → Grid) : (s.modGrid id f).hostMem = s.hostMem := rfl
@[simp] theorem State.modGrid_tlb (id : Nat) (f : Grid → Grid) : (s.modGrid id f).tlb = s.tlb := rfl
@[simp] theorem State.modGrid_l1 (id : Nat) (f : Grid → Grid) : (s.modGrid id f).l1 = s.l1 := rfl
@[simp] theorem State.modGrid_outReqs (id : Nat) (f : Grid → Grid) : (s.modGrid id f).outReqs = s.outReqs := rfl
@[simp] theorem State.modGrid_fetches (id : Nat) (f : Grid → Grid) : (s.modGrid id f).fetches = s.fetches := rfl
@[simp] theorem State.modGrid_inReqs (id : Nat) (f : Grid → Grid) : (s.modGrid id f).inReqs = s.inReqs := rfl
@[simp] theorem State.modGrid_toPeers (id : Nat) (f : Grid → Grid) : (s.modGrid id f).toPeers = s.toPeers := rfl
@[simp] theorem State.modGrid_barredAgents (id : Nat) (f : Grid → Grid) : (s.modGrid id f).barredAgents = s.barredAgents := rfl
@[simp] theorem State.modGrid_wakes (id : Nat) (f : Grid → Grid) : (s.modGrid id f).wakes = s.wakes := rfl
@[simp] theorem State.modGrid_wakesOut (id : Nat) (f : Grid → Grid) : (s.modGrid id f).wakesOut = s.wakesOut := rfl
@[simp] theorem State.modGrid_rings (id : Nat) (f : Grid → Grid) : (s.modGrid id f).rings = s.rings := rfl
@[simp] theorem State.modGrid_planes (id : Nat) (f : Grid → Grid) : (s.modGrid id f).planes = s.planes := rfl
@[simp] theorem State.modGrid_farDown (id : Nat) (f : Grid → Grid) : (s.modGrid id f).farDown = s.farDown := rfl
@[simp] theorem State.modGrid_lost (id : Nat) (f : Grid → Grid) : (s.modGrid id f).lost = s.lost := rfl
@[simp] theorem State.modGrid_heard (id : Nat) (f : Grid → Grid) : (s.modGrid id f).heard = s.heard := rfl
@[simp] theorem State.modGrid_modid (id : Nat) (f : Grid → Grid) : (s.modGrid id f).modid = s.modid := rfl
@[simp] theorem State.modGrid_uaen (id : Nat) (f : Grid → Grid) : (s.modGrid id f).uaen = s.uaen := rfl
@[simp] theorem State.modGrid_safecap (id : Nat) (f : Grid → Grid) : (s.modGrid id f).safecap = s.safecap := rfl
@[simp] theorem State.modGrid_pth (id : Nat) (f : Grid → Grid) : (s.modGrid id f).pth = s.pth := rfl
@[simp] theorem State.modGrid_capSeq (id : Nat) (f : Grid → Grid) : (s.modGrid id f).capSeq = s.capSeq := rfl
@[simp] theorem State.modGrid_cap (id : Nat) (f : Grid → Grid) : (s.modGrid id f).cap = s.cap := rfl
@[simp] theorem State.modGrid_capEnd (id : Nat) (f : Grid → Grid) : (s.modGrid id f).capEnd = s.capEnd := rfl
@[simp] theorem State.modGrid_power (id : Nat) (f : Grid → Grid) : (s.modGrid id f).power = s.power := rfl
@[simp] theorem State.modGrid_tmig (id : Nat) (f : Grid → Grid) : (s.modGrid id f).tmig = s.tmig := rfl
@[simp] theorem State.modGrid_tcap (id : Nat) (f : Grid → Grid) : (s.modGrid id f).tcap = s.tcap := rfl
@[simp] theorem State.modGrid_overCap (id : Nat) (f : Grid → Grid) : (s.modGrid id f).overCap = s.overCap := rfl
@[simp] theorem State.modGrid_capEvent (id : Nat) (f : Grid → Grid) : (s.modGrid id f).capEvent = s.capEvent := rfl
@[simp] theorem State.modGrid_paces (id : Nat) (f : Grid → Grid) : (s.modGrid id f).paces = s.paces := rfl
@[simp] theorem State.modGrid_paceSent (id : Nat) (f : Grid → Grid) : (s.modGrid id f).paceSent = s.paceSent := rfl
@[simp] theorem State.modGrid_time (id : Nat) (f : Grid → Grid) : (s.modGrid id f).time = s.time := rfl
@[simp] theorem State.modGrid_timeErr (id : Nat) (f : Grid → Grid) : (s.modGrid id f).timeErr = s.timeErr := rfl
@[simp] theorem State.modGrid_slewRem (id : Nat) (f : Grid → Grid) : (s.modGrid id f).slewRem = s.slewRem := rfl
@[simp] theorem State.modGrid_synced (id : Nat) (f : Grid → Grid) : (s.modGrid id f).synced = s.synced := rfl
@[simp] theorem State.modGrid_exchanged (id : Nat) (f : Grid → Grid) : (s.modGrid id f).exchanged = s.exchanged := rfl
@[simp] theorem State.modGrid_wall (id : Nat) (f : Grid → Grid) : (s.modGrid id f).wall = s.wall := rfl
@[simp] theorem State.modGrid_records (id : Nat) (f : Grid → Grid) : (s.modGrid id f).records = s.records := rfl
@[simp] theorem State.modGrid_starts (id : Nat) (f : Grid → Grid) : (s.modGrid id f).starts = s.starts := rfl
@[simp] theorem State.modGrid_late (id : Nat) (f : Grid → Grid) : (s.modGrid id f).late = s.late := rfl
@[simp] theorem State.modGrid_devLog (id : Nat) (f : Grid → Grid) : (s.modGrid id f).devLog = s.devLog := rfl
@[simp] theorem State.modGrid_linkUp (id : Nat) (f : Grid → Grid) : (s.modGrid id f).linkUp = s.linkUp := rfl
@[simp] theorem State.modGrid_linkLost (id : Nat) (f : Grid → Grid) : (s.modGrid id f).linkLost = s.linkLost := rfl
@[simp] theorem State.modGrid_linkReset (id : Nat) (f : Grid → Grid) : (s.modGrid id f).linkReset = s.linkReset := rfl
@[simp] theorem State.modGrid_ctrl (id : Nat) (f : Grid → Grid) : (s.modGrid id f).ctrl = s.ctrl := rfl
@[simp] theorem State.modGrid_rails (id : Nat) (f : Grid → Grid) : (s.modGrid id f).rails = s.rails := rfl
@[simp] theorem State.modGrid_down (id : Nat) (f : Grid → Grid) : (s.modGrid id f).down = s.down := rfl
@[simp] theorem State.modGrid_fwCtrl (id : Nat) (f : Grid → Grid) : (s.modGrid id f).fwCtrl = s.fwCtrl := rfl
@[simp] theorem State.modGrid_fwCores (id : Nat) (f : Grid → Grid) : (s.modGrid id f).fwCores = s.fwCores := rfl
@[simp] theorem State.modGrid_halted (id : Nat) (f : Grid → Grid) : (s.modGrid id f).halted = s.halted := rfl
@[simp] theorem State.modGrid_sideband (id : Nat) (f : Grid → Grid) : (s.modGrid id f).sideband = s.sideband := rfl
@[simp] theorem State.modGrid_completions (id : Nat) (f : Grid → Grid) : (s.modGrid id f).completions = s.completions := rfl
@[simp] theorem State.modGrid_inputs (id : Nat) (f : Grid → Grid) : (s.modGrid id f).inputs = s.inputs := rfl
@[simp] theorem State.modGrid_freeCtr (id : Nat) (f : Grid → Grid) : (s.modGrid id f).freeCtr = s.freeCtr := rfl
@[simp] theorem State.modGrid_nextUid (id : Nat) (f : Grid → Grid) : (s.modGrid id f).nextUid = s.nextUid := rfl

@[simp] theorem State.modGraph_bd (id : Nat) (f : GraphInst → GraphInst) : (s.modGraph id f).bd = s.bd := rfl
@[simp] theorem State.modGraph_boards (id : Nat) (f : GraphInst → GraphInst) : (s.modGraph id f).boards = s.boards := rfl
@[simp] theorem State.modGraph_cur (id : Nat) (f : GraphInst → GraphInst) : (s.modGraph id f).cur = s.cur := rfl
@[simp] theorem State.modGraph_bents (id : Nat) (f : GraphInst → GraphInst) : (s.modGraph id f).bents = s.bents := rfl
@[simp] theorem State.modGraph_grids (id : Nat) (f : GraphInst → GraphInst) : (s.modGraph id f).grids = s.grids := rfl
@[simp] theorem State.modGraph_graphs (id : Nat) (f : GraphInst → GraphInst) : (s.modGraph id f).graphs = s.graphs.map fun x => if x.id == id then f x else x := rfl
@[simp] theorem State.modGraph_launches (id : Nat) (f : GraphInst → GraphInst) : (s.modGraph id f).launches = s.launches := rfl
@[simp] theorem State.modGraph_ctxs (id : Nat) (f : GraphInst → GraphInst) : (s.modGraph id f).ctxs = s.ctxs := rfl
@[simp] theorem State.modGraph_fns (id : Nat) (f : GraphInst → GraphInst) : (s.modGraph id f).fns = s.fns := rfl
@[simp] theorem State.modGraph_queues (id : Nat) (f : GraphInst → GraphInst) : (s.modGraph id f).queues = s.queues := rfl
@[simp] theorem State.modGraph_mapped (id : Nat) (f : GraphInst → GraphInst) : (s.modGraph id f).mapped = s.mapped := rfl
@[simp] theorem State.modGraph_frames (id : Nat) (f : GraphInst → GraphInst) : (s.modGraph id f).frames = s.frames := rfl
@[simp] theorem State.modGraph_parkedCmds (id : Nat) (f : GraphInst → GraphInst) : (s.modGraph id f).parkedCmds = s.parkedCmds := rfl
@[simp] theorem State.modGraph_mem (id : Nat) (f : GraphInst → GraphInst) : (s.modGraph id f).mem = s.mem := rfl
@[simp] theorem State.modGraph_edits (id : Nat) (f : GraphInst → GraphInst) : (s.modGraph id f).edits = s.edits := rfl
@[simp] theorem State.modGraph_badLines (id : Nat) (f : GraphInst → GraphInst) : (s.modGraph id f).badLines = s.badLines := rfl
@[simp] theorem State.modGraph_hostMem (id : Nat) (f : GraphInst → GraphInst) : (s.modGraph id f).hostMem = s.hostMem := rfl
@[simp] theorem State.modGraph_tlb (id : Nat) (f : GraphInst → GraphInst) : (s.modGraph id f).tlb = s.tlb := rfl
@[simp] theorem State.modGraph_l1 (id : Nat) (f : GraphInst → GraphInst) : (s.modGraph id f).l1 = s.l1 := rfl
@[simp] theorem State.modGraph_outReqs (id : Nat) (f : GraphInst → GraphInst) : (s.modGraph id f).outReqs = s.outReqs := rfl
@[simp] theorem State.modGraph_fetches (id : Nat) (f : GraphInst → GraphInst) : (s.modGraph id f).fetches = s.fetches := rfl
@[simp] theorem State.modGraph_inReqs (id : Nat) (f : GraphInst → GraphInst) : (s.modGraph id f).inReqs = s.inReqs := rfl
@[simp] theorem State.modGraph_toPeers (id : Nat) (f : GraphInst → GraphInst) : (s.modGraph id f).toPeers = s.toPeers := rfl
@[simp] theorem State.modGraph_barredAgents (id : Nat) (f : GraphInst → GraphInst) : (s.modGraph id f).barredAgents = s.barredAgents := rfl
@[simp] theorem State.modGraph_wakes (id : Nat) (f : GraphInst → GraphInst) : (s.modGraph id f).wakes = s.wakes := rfl
@[simp] theorem State.modGraph_wakesOut (id : Nat) (f : GraphInst → GraphInst) : (s.modGraph id f).wakesOut = s.wakesOut := rfl
@[simp] theorem State.modGraph_rings (id : Nat) (f : GraphInst → GraphInst) : (s.modGraph id f).rings = s.rings := rfl
@[simp] theorem State.modGraph_planes (id : Nat) (f : GraphInst → GraphInst) : (s.modGraph id f).planes = s.planes := rfl
@[simp] theorem State.modGraph_farDown (id : Nat) (f : GraphInst → GraphInst) : (s.modGraph id f).farDown = s.farDown := rfl
@[simp] theorem State.modGraph_lost (id : Nat) (f : GraphInst → GraphInst) : (s.modGraph id f).lost = s.lost := rfl
@[simp] theorem State.modGraph_heard (id : Nat) (f : GraphInst → GraphInst) : (s.modGraph id f).heard = s.heard := rfl
@[simp] theorem State.modGraph_modid (id : Nat) (f : GraphInst → GraphInst) : (s.modGraph id f).modid = s.modid := rfl
@[simp] theorem State.modGraph_uaen (id : Nat) (f : GraphInst → GraphInst) : (s.modGraph id f).uaen = s.uaen := rfl
@[simp] theorem State.modGraph_safecap (id : Nat) (f : GraphInst → GraphInst) : (s.modGraph id f).safecap = s.safecap := rfl
@[simp] theorem State.modGraph_pth (id : Nat) (f : GraphInst → GraphInst) : (s.modGraph id f).pth = s.pth := rfl
@[simp] theorem State.modGraph_capSeq (id : Nat) (f : GraphInst → GraphInst) : (s.modGraph id f).capSeq = s.capSeq := rfl
@[simp] theorem State.modGraph_cap (id : Nat) (f : GraphInst → GraphInst) : (s.modGraph id f).cap = s.cap := rfl
@[simp] theorem State.modGraph_capEnd (id : Nat) (f : GraphInst → GraphInst) : (s.modGraph id f).capEnd = s.capEnd := rfl
@[simp] theorem State.modGraph_power (id : Nat) (f : GraphInst → GraphInst) : (s.modGraph id f).power = s.power := rfl
@[simp] theorem State.modGraph_tmig (id : Nat) (f : GraphInst → GraphInst) : (s.modGraph id f).tmig = s.tmig := rfl
@[simp] theorem State.modGraph_tcap (id : Nat) (f : GraphInst → GraphInst) : (s.modGraph id f).tcap = s.tcap := rfl
@[simp] theorem State.modGraph_overCap (id : Nat) (f : GraphInst → GraphInst) : (s.modGraph id f).overCap = s.overCap := rfl
@[simp] theorem State.modGraph_capEvent (id : Nat) (f : GraphInst → GraphInst) : (s.modGraph id f).capEvent = s.capEvent := rfl
@[simp] theorem State.modGraph_paces (id : Nat) (f : GraphInst → GraphInst) : (s.modGraph id f).paces = s.paces := rfl
@[simp] theorem State.modGraph_paceSent (id : Nat) (f : GraphInst → GraphInst) : (s.modGraph id f).paceSent = s.paceSent := rfl
@[simp] theorem State.modGraph_time (id : Nat) (f : GraphInst → GraphInst) : (s.modGraph id f).time = s.time := rfl
@[simp] theorem State.modGraph_timeErr (id : Nat) (f : GraphInst → GraphInst) : (s.modGraph id f).timeErr = s.timeErr := rfl
@[simp] theorem State.modGraph_slewRem (id : Nat) (f : GraphInst → GraphInst) : (s.modGraph id f).slewRem = s.slewRem := rfl
@[simp] theorem State.modGraph_synced (id : Nat) (f : GraphInst → GraphInst) : (s.modGraph id f).synced = s.synced := rfl
@[simp] theorem State.modGraph_exchanged (id : Nat) (f : GraphInst → GraphInst) : (s.modGraph id f).exchanged = s.exchanged := rfl
@[simp] theorem State.modGraph_wall (id : Nat) (f : GraphInst → GraphInst) : (s.modGraph id f).wall = s.wall := rfl
@[simp] theorem State.modGraph_records (id : Nat) (f : GraphInst → GraphInst) : (s.modGraph id f).records = s.records := rfl
@[simp] theorem State.modGraph_starts (id : Nat) (f : GraphInst → GraphInst) : (s.modGraph id f).starts = s.starts := rfl
@[simp] theorem State.modGraph_late (id : Nat) (f : GraphInst → GraphInst) : (s.modGraph id f).late = s.late := rfl
@[simp] theorem State.modGraph_devLog (id : Nat) (f : GraphInst → GraphInst) : (s.modGraph id f).devLog = s.devLog := rfl
@[simp] theorem State.modGraph_linkUp (id : Nat) (f : GraphInst → GraphInst) : (s.modGraph id f).linkUp = s.linkUp := rfl
@[simp] theorem State.modGraph_linkLost (id : Nat) (f : GraphInst → GraphInst) : (s.modGraph id f).linkLost = s.linkLost := rfl
@[simp] theorem State.modGraph_linkReset (id : Nat) (f : GraphInst → GraphInst) : (s.modGraph id f).linkReset = s.linkReset := rfl
@[simp] theorem State.modGraph_ctrl (id : Nat) (f : GraphInst → GraphInst) : (s.modGraph id f).ctrl = s.ctrl := rfl
@[simp] theorem State.modGraph_rails (id : Nat) (f : GraphInst → GraphInst) : (s.modGraph id f).rails = s.rails := rfl
@[simp] theorem State.modGraph_down (id : Nat) (f : GraphInst → GraphInst) : (s.modGraph id f).down = s.down := rfl
@[simp] theorem State.modGraph_fwCtrl (id : Nat) (f : GraphInst → GraphInst) : (s.modGraph id f).fwCtrl = s.fwCtrl := rfl
@[simp] theorem State.modGraph_fwCores (id : Nat) (f : GraphInst → GraphInst) : (s.modGraph id f).fwCores = s.fwCores := rfl
@[simp] theorem State.modGraph_halted (id : Nat) (f : GraphInst → GraphInst) : (s.modGraph id f).halted = s.halted := rfl
@[simp] theorem State.modGraph_sideband (id : Nat) (f : GraphInst → GraphInst) : (s.modGraph id f).sideband = s.sideband := rfl
@[simp] theorem State.modGraph_completions (id : Nat) (f : GraphInst → GraphInst) : (s.modGraph id f).completions = s.completions := rfl
@[simp] theorem State.modGraph_inputs (id : Nat) (f : GraphInst → GraphInst) : (s.modGraph id f).inputs = s.inputs := rfl
@[simp] theorem State.modGraph_freeCtr (id : Nat) (f : GraphInst → GraphInst) : (s.modGraph id f).freeCtr = s.freeCtr := rfl
@[simp] theorem State.modGraph_nextUid (id : Nat) (f : GraphInst → GraphInst) : (s.modGraph id f).nextUid = s.nextUid := rfl

@[simp] theorem State.modCtx_bd (id : BitVec 16) (f : Ctx → Ctx) : (s.modCtx id f).bd = s.bd := rfl
@[simp] theorem State.modCtx_boards (id : BitVec 16) (f : Ctx → Ctx) : (s.modCtx id f).boards = s.boards := rfl
@[simp] theorem State.modCtx_cur (id : BitVec 16) (f : Ctx → Ctx) : (s.modCtx id f).cur = s.cur := rfl
@[simp] theorem State.modCtx_bents (id : BitVec 16) (f : Ctx → Ctx) : (s.modCtx id f).bents = s.bents := rfl
@[simp] theorem State.modCtx_grids (id : BitVec 16) (f : Ctx → Ctx) : (s.modCtx id f).grids = s.grids := rfl
@[simp] theorem State.modCtx_graphs (id : BitVec 16) (f : Ctx → Ctx) : (s.modCtx id f).graphs = s.graphs := rfl
@[simp] theorem State.modCtx_launches (id : BitVec 16) (f : Ctx → Ctx) : (s.modCtx id f).launches = s.launches := rfl
@[simp] theorem State.modCtx_ctxs (id : BitVec 16) (f : Ctx → Ctx) : (s.modCtx id f).ctxs = s.ctxs.map fun x => if x.ctxid == id then f x else x := rfl
@[simp] theorem State.modCtx_fns (id : BitVec 16) (f : Ctx → Ctx) : (s.modCtx id f).fns = s.fns := rfl
@[simp] theorem State.modCtx_queues (id : BitVec 16) (f : Ctx → Ctx) : (s.modCtx id f).queues = s.queues := rfl
@[simp] theorem State.modCtx_mapped (id : BitVec 16) (f : Ctx → Ctx) : (s.modCtx id f).mapped = s.mapped := rfl
@[simp] theorem State.modCtx_frames (id : BitVec 16) (f : Ctx → Ctx) : (s.modCtx id f).frames = s.frames := rfl
@[simp] theorem State.modCtx_parkedCmds (id : BitVec 16) (f : Ctx → Ctx) : (s.modCtx id f).parkedCmds = s.parkedCmds := rfl
@[simp] theorem State.modCtx_mem (id : BitVec 16) (f : Ctx → Ctx) : (s.modCtx id f).mem = s.mem := rfl
@[simp] theorem State.modCtx_edits (id : BitVec 16) (f : Ctx → Ctx) : (s.modCtx id f).edits = s.edits := rfl
@[simp] theorem State.modCtx_badLines (id : BitVec 16) (f : Ctx → Ctx) : (s.modCtx id f).badLines = s.badLines := rfl
@[simp] theorem State.modCtx_hostMem (id : BitVec 16) (f : Ctx → Ctx) : (s.modCtx id f).hostMem = s.hostMem := rfl
@[simp] theorem State.modCtx_tlb (id : BitVec 16) (f : Ctx → Ctx) : (s.modCtx id f).tlb = s.tlb := rfl
@[simp] theorem State.modCtx_l1 (id : BitVec 16) (f : Ctx → Ctx) : (s.modCtx id f).l1 = s.l1 := rfl
@[simp] theorem State.modCtx_outReqs (id : BitVec 16) (f : Ctx → Ctx) : (s.modCtx id f).outReqs = s.outReqs := rfl
@[simp] theorem State.modCtx_fetches (id : BitVec 16) (f : Ctx → Ctx) : (s.modCtx id f).fetches = s.fetches := rfl
@[simp] theorem State.modCtx_inReqs (id : BitVec 16) (f : Ctx → Ctx) : (s.modCtx id f).inReqs = s.inReqs := rfl
@[simp] theorem State.modCtx_toPeers (id : BitVec 16) (f : Ctx → Ctx) : (s.modCtx id f).toPeers = s.toPeers := rfl
@[simp] theorem State.modCtx_barredAgents (id : BitVec 16) (f : Ctx → Ctx) : (s.modCtx id f).barredAgents = s.barredAgents := rfl
@[simp] theorem State.modCtx_wakes (id : BitVec 16) (f : Ctx → Ctx) : (s.modCtx id f).wakes = s.wakes := rfl
@[simp] theorem State.modCtx_wakesOut (id : BitVec 16) (f : Ctx → Ctx) : (s.modCtx id f).wakesOut = s.wakesOut := rfl
@[simp] theorem State.modCtx_rings (id : BitVec 16) (f : Ctx → Ctx) : (s.modCtx id f).rings = s.rings := rfl
@[simp] theorem State.modCtx_planes (id : BitVec 16) (f : Ctx → Ctx) : (s.modCtx id f).planes = s.planes := rfl
@[simp] theorem State.modCtx_farDown (id : BitVec 16) (f : Ctx → Ctx) : (s.modCtx id f).farDown = s.farDown := rfl
@[simp] theorem State.modCtx_lost (id : BitVec 16) (f : Ctx → Ctx) : (s.modCtx id f).lost = s.lost := rfl
@[simp] theorem State.modCtx_heard (id : BitVec 16) (f : Ctx → Ctx) : (s.modCtx id f).heard = s.heard := rfl
@[simp] theorem State.modCtx_modid (id : BitVec 16) (f : Ctx → Ctx) : (s.modCtx id f).modid = s.modid := rfl
@[simp] theorem State.modCtx_uaen (id : BitVec 16) (f : Ctx → Ctx) : (s.modCtx id f).uaen = s.uaen := rfl
@[simp] theorem State.modCtx_safecap (id : BitVec 16) (f : Ctx → Ctx) : (s.modCtx id f).safecap = s.safecap := rfl
@[simp] theorem State.modCtx_pth (id : BitVec 16) (f : Ctx → Ctx) : (s.modCtx id f).pth = s.pth := rfl
@[simp] theorem State.modCtx_capSeq (id : BitVec 16) (f : Ctx → Ctx) : (s.modCtx id f).capSeq = s.capSeq := rfl
@[simp] theorem State.modCtx_cap (id : BitVec 16) (f : Ctx → Ctx) : (s.modCtx id f).cap = s.cap := rfl
@[simp] theorem State.modCtx_capEnd (id : BitVec 16) (f : Ctx → Ctx) : (s.modCtx id f).capEnd = s.capEnd := rfl
@[simp] theorem State.modCtx_power (id : BitVec 16) (f : Ctx → Ctx) : (s.modCtx id f).power = s.power := rfl
@[simp] theorem State.modCtx_tmig (id : BitVec 16) (f : Ctx → Ctx) : (s.modCtx id f).tmig = s.tmig := rfl
@[simp] theorem State.modCtx_tcap (id : BitVec 16) (f : Ctx → Ctx) : (s.modCtx id f).tcap = s.tcap := rfl
@[simp] theorem State.modCtx_overCap (id : BitVec 16) (f : Ctx → Ctx) : (s.modCtx id f).overCap = s.overCap := rfl
@[simp] theorem State.modCtx_capEvent (id : BitVec 16) (f : Ctx → Ctx) : (s.modCtx id f).capEvent = s.capEvent := rfl
@[simp] theorem State.modCtx_paces (id : BitVec 16) (f : Ctx → Ctx) : (s.modCtx id f).paces = s.paces := rfl
@[simp] theorem State.modCtx_paceSent (id : BitVec 16) (f : Ctx → Ctx) : (s.modCtx id f).paceSent = s.paceSent := rfl
@[simp] theorem State.modCtx_time (id : BitVec 16) (f : Ctx → Ctx) : (s.modCtx id f).time = s.time := rfl
@[simp] theorem State.modCtx_timeErr (id : BitVec 16) (f : Ctx → Ctx) : (s.modCtx id f).timeErr = s.timeErr := rfl
@[simp] theorem State.modCtx_slewRem (id : BitVec 16) (f : Ctx → Ctx) : (s.modCtx id f).slewRem = s.slewRem := rfl
@[simp] theorem State.modCtx_synced (id : BitVec 16) (f : Ctx → Ctx) : (s.modCtx id f).synced = s.synced := rfl
@[simp] theorem State.modCtx_exchanged (id : BitVec 16) (f : Ctx → Ctx) : (s.modCtx id f).exchanged = s.exchanged := rfl
@[simp] theorem State.modCtx_wall (id : BitVec 16) (f : Ctx → Ctx) : (s.modCtx id f).wall = s.wall := rfl
@[simp] theorem State.modCtx_records (id : BitVec 16) (f : Ctx → Ctx) : (s.modCtx id f).records = s.records := rfl
@[simp] theorem State.modCtx_starts (id : BitVec 16) (f : Ctx → Ctx) : (s.modCtx id f).starts = s.starts := rfl
@[simp] theorem State.modCtx_late (id : BitVec 16) (f : Ctx → Ctx) : (s.modCtx id f).late = s.late := rfl
@[simp] theorem State.modCtx_devLog (id : BitVec 16) (f : Ctx → Ctx) : (s.modCtx id f).devLog = s.devLog := rfl
@[simp] theorem State.modCtx_linkUp (id : BitVec 16) (f : Ctx → Ctx) : (s.modCtx id f).linkUp = s.linkUp := rfl
@[simp] theorem State.modCtx_linkLost (id : BitVec 16) (f : Ctx → Ctx) : (s.modCtx id f).linkLost = s.linkLost := rfl
@[simp] theorem State.modCtx_linkReset (id : BitVec 16) (f : Ctx → Ctx) : (s.modCtx id f).linkReset = s.linkReset := rfl
@[simp] theorem State.modCtx_ctrl (id : BitVec 16) (f : Ctx → Ctx) : (s.modCtx id f).ctrl = s.ctrl := rfl
@[simp] theorem State.modCtx_rails (id : BitVec 16) (f : Ctx → Ctx) : (s.modCtx id f).rails = s.rails := rfl
@[simp] theorem State.modCtx_down (id : BitVec 16) (f : Ctx → Ctx) : (s.modCtx id f).down = s.down := rfl
@[simp] theorem State.modCtx_fwCtrl (id : BitVec 16) (f : Ctx → Ctx) : (s.modCtx id f).fwCtrl = s.fwCtrl := rfl
@[simp] theorem State.modCtx_fwCores (id : BitVec 16) (f : Ctx → Ctx) : (s.modCtx id f).fwCores = s.fwCores := rfl
@[simp] theorem State.modCtx_halted (id : BitVec 16) (f : Ctx → Ctx) : (s.modCtx id f).halted = s.halted := rfl
@[simp] theorem State.modCtx_sideband (id : BitVec 16) (f : Ctx → Ctx) : (s.modCtx id f).sideband = s.sideband := rfl
@[simp] theorem State.modCtx_completions (id : BitVec 16) (f : Ctx → Ctx) : (s.modCtx id f).completions = s.completions := rfl
@[simp] theorem State.modCtx_inputs (id : BitVec 16) (f : Ctx → Ctx) : (s.modCtx id f).inputs = s.inputs := rfl
@[simp] theorem State.modCtx_freeCtr (id : BitVec 16) (f : Ctx → Ctx) : (s.modCtx id f).freeCtr = s.freeCtr := rfl
@[simp] theorem State.modCtx_nextUid (id : BitVec 16) (f : Ctx → Ctx) : (s.modCtx id f).nextUid = s.nextUid := rfl

@[simp] theorem State.charge_bd (id : BitVec 16) (bay cls n : Nat) : (s.charge id bay cls n).bd = s.bd := rfl
@[simp] theorem State.charge_boards (id : BitVec 16) (bay cls n : Nat) : (s.charge id bay cls n).boards = s.boards := rfl
@[simp] theorem State.charge_cur (id : BitVec 16) (bay cls n : Nat) : (s.charge id bay cls n).cur = s.cur := rfl
@[simp] theorem State.charge_bents (id : BitVec 16) (bay cls n : Nat) : (s.charge id bay cls n).bents = s.bents := rfl
@[simp] theorem State.charge_grids (id : BitVec 16) (bay cls n : Nat) : (s.charge id bay cls n).grids = s.grids := rfl
@[simp] theorem State.charge_graphs (id : BitVec 16) (bay cls n : Nat) : (s.charge id bay cls n).graphs = s.graphs := rfl
@[simp] theorem State.charge_launches (id : BitVec 16) (bay cls n : Nat) : (s.charge id bay cls n).launches = s.launches := rfl
@[simp] theorem State.charge_fns (id : BitVec 16) (bay cls n : Nat) : (s.charge id bay cls n).fns = s.fns := rfl
@[simp] theorem State.charge_queues (id : BitVec 16) (bay cls n : Nat) : (s.charge id bay cls n).queues = s.queues := rfl
@[simp] theorem State.charge_mapped (id : BitVec 16) (bay cls n : Nat) : (s.charge id bay cls n).mapped = s.mapped := rfl
@[simp] theorem State.charge_frames (id : BitVec 16) (bay cls n : Nat) : (s.charge id bay cls n).frames = s.frames := rfl
@[simp] theorem State.charge_parkedCmds (id : BitVec 16) (bay cls n : Nat) : (s.charge id bay cls n).parkedCmds = s.parkedCmds := rfl
@[simp] theorem State.charge_mem (id : BitVec 16) (bay cls n : Nat) : (s.charge id bay cls n).mem = s.mem := rfl
@[simp] theorem State.charge_edits (id : BitVec 16) (bay cls n : Nat) : (s.charge id bay cls n).edits = s.edits := rfl
@[simp] theorem State.charge_badLines (id : BitVec 16) (bay cls n : Nat) : (s.charge id bay cls n).badLines = s.badLines := rfl
@[simp] theorem State.charge_hostMem (id : BitVec 16) (bay cls n : Nat) : (s.charge id bay cls n).hostMem = s.hostMem := rfl
@[simp] theorem State.charge_tlb (id : BitVec 16) (bay cls n : Nat) : (s.charge id bay cls n).tlb = s.tlb := rfl
@[simp] theorem State.charge_l1 (id : BitVec 16) (bay cls n : Nat) : (s.charge id bay cls n).l1 = s.l1 := rfl
@[simp] theorem State.charge_outReqs (id : BitVec 16) (bay cls n : Nat) : (s.charge id bay cls n).outReqs = s.outReqs := rfl
@[simp] theorem State.charge_fetches (id : BitVec 16) (bay cls n : Nat) : (s.charge id bay cls n).fetches = s.fetches := rfl
@[simp] theorem State.charge_inReqs (id : BitVec 16) (bay cls n : Nat) : (s.charge id bay cls n).inReqs = s.inReqs := rfl
@[simp] theorem State.charge_toPeers (id : BitVec 16) (bay cls n : Nat) : (s.charge id bay cls n).toPeers = s.toPeers := rfl
@[simp] theorem State.charge_barredAgents (id : BitVec 16) (bay cls n : Nat) : (s.charge id bay cls n).barredAgents = s.barredAgents := rfl
@[simp] theorem State.charge_wakes (id : BitVec 16) (bay cls n : Nat) : (s.charge id bay cls n).wakes = s.wakes := rfl
@[simp] theorem State.charge_wakesOut (id : BitVec 16) (bay cls n : Nat) : (s.charge id bay cls n).wakesOut = s.wakesOut := rfl
@[simp] theorem State.charge_rings (id : BitVec 16) (bay cls n : Nat) : (s.charge id bay cls n).rings = s.rings := rfl
@[simp] theorem State.charge_planes (id : BitVec 16) (bay cls n : Nat) : (s.charge id bay cls n).planes = s.planes := rfl
@[simp] theorem State.charge_farDown (id : BitVec 16) (bay cls n : Nat) : (s.charge id bay cls n).farDown = s.farDown := rfl
@[simp] theorem State.charge_lost (id : BitVec 16) (bay cls n : Nat) : (s.charge id bay cls n).lost = s.lost := rfl
@[simp] theorem State.charge_heard (id : BitVec 16) (bay cls n : Nat) : (s.charge id bay cls n).heard = s.heard := rfl
@[simp] theorem State.charge_modid (id : BitVec 16) (bay cls n : Nat) : (s.charge id bay cls n).modid = s.modid := rfl
@[simp] theorem State.charge_uaen (id : BitVec 16) (bay cls n : Nat) : (s.charge id bay cls n).uaen = s.uaen := rfl
@[simp] theorem State.charge_safecap (id : BitVec 16) (bay cls n : Nat) : (s.charge id bay cls n).safecap = s.safecap := rfl
@[simp] theorem State.charge_pth (id : BitVec 16) (bay cls n : Nat) : (s.charge id bay cls n).pth = s.pth := rfl
@[simp] theorem State.charge_capSeq (id : BitVec 16) (bay cls n : Nat) : (s.charge id bay cls n).capSeq = s.capSeq := rfl
@[simp] theorem State.charge_cap (id : BitVec 16) (bay cls n : Nat) : (s.charge id bay cls n).cap = s.cap := rfl
@[simp] theorem State.charge_capEnd (id : BitVec 16) (bay cls n : Nat) : (s.charge id bay cls n).capEnd = s.capEnd := rfl
@[simp] theorem State.charge_power (id : BitVec 16) (bay cls n : Nat) : (s.charge id bay cls n).power = s.power := rfl
@[simp] theorem State.charge_tmig (id : BitVec 16) (bay cls n : Nat) : (s.charge id bay cls n).tmig = s.tmig := rfl
@[simp] theorem State.charge_tcap (id : BitVec 16) (bay cls n : Nat) : (s.charge id bay cls n).tcap = s.tcap := rfl
@[simp] theorem State.charge_overCap (id : BitVec 16) (bay cls n : Nat) : (s.charge id bay cls n).overCap = s.overCap := rfl
@[simp] theorem State.charge_capEvent (id : BitVec 16) (bay cls n : Nat) : (s.charge id bay cls n).capEvent = s.capEvent := rfl
@[simp] theorem State.charge_paces (id : BitVec 16) (bay cls n : Nat) : (s.charge id bay cls n).paces = s.paces := rfl
@[simp] theorem State.charge_paceSent (id : BitVec 16) (bay cls n : Nat) : (s.charge id bay cls n).paceSent = s.paceSent := rfl
@[simp] theorem State.charge_time (id : BitVec 16) (bay cls n : Nat) : (s.charge id bay cls n).time = s.time := rfl
@[simp] theorem State.charge_timeErr (id : BitVec 16) (bay cls n : Nat) : (s.charge id bay cls n).timeErr = s.timeErr := rfl
@[simp] theorem State.charge_slewRem (id : BitVec 16) (bay cls n : Nat) : (s.charge id bay cls n).slewRem = s.slewRem := rfl
@[simp] theorem State.charge_synced (id : BitVec 16) (bay cls n : Nat) : (s.charge id bay cls n).synced = s.synced := rfl
@[simp] theorem State.charge_exchanged (id : BitVec 16) (bay cls n : Nat) : (s.charge id bay cls n).exchanged = s.exchanged := rfl
@[simp] theorem State.charge_wall (id : BitVec 16) (bay cls n : Nat) : (s.charge id bay cls n).wall = s.wall := rfl
@[simp] theorem State.charge_records (id : BitVec 16) (bay cls n : Nat) : (s.charge id bay cls n).records = s.records := rfl
@[simp] theorem State.charge_starts (id : BitVec 16) (bay cls n : Nat) : (s.charge id bay cls n).starts = s.starts := rfl
@[simp] theorem State.charge_late (id : BitVec 16) (bay cls n : Nat) : (s.charge id bay cls n).late = s.late := rfl
@[simp] theorem State.charge_devLog (id : BitVec 16) (bay cls n : Nat) : (s.charge id bay cls n).devLog = s.devLog := rfl
@[simp] theorem State.charge_linkUp (id : BitVec 16) (bay cls n : Nat) : (s.charge id bay cls n).linkUp = s.linkUp := rfl
@[simp] theorem State.charge_linkLost (id : BitVec 16) (bay cls n : Nat) : (s.charge id bay cls n).linkLost = s.linkLost := rfl
@[simp] theorem State.charge_linkReset (id : BitVec 16) (bay cls n : Nat) : (s.charge id bay cls n).linkReset = s.linkReset := rfl
@[simp] theorem State.charge_ctrl (id : BitVec 16) (bay cls n : Nat) : (s.charge id bay cls n).ctrl = s.ctrl := rfl
@[simp] theorem State.charge_rails (id : BitVec 16) (bay cls n : Nat) : (s.charge id bay cls n).rails = s.rails := rfl
@[simp] theorem State.charge_down (id : BitVec 16) (bay cls n : Nat) : (s.charge id bay cls n).down = s.down := rfl
@[simp] theorem State.charge_fwCtrl (id : BitVec 16) (bay cls n : Nat) : (s.charge id bay cls n).fwCtrl = s.fwCtrl := rfl
@[simp] theorem State.charge_fwCores (id : BitVec 16) (bay cls n : Nat) : (s.charge id bay cls n).fwCores = s.fwCores := rfl
@[simp] theorem State.charge_halted (id : BitVec 16) (bay cls n : Nat) : (s.charge id bay cls n).halted = s.halted := rfl
@[simp] theorem State.charge_sideband (id : BitVec 16) (bay cls n : Nat) : (s.charge id bay cls n).sideband = s.sideband := rfl
@[simp] theorem State.charge_completions (id : BitVec 16) (bay cls n : Nat) : (s.charge id bay cls n).completions = s.completions := rfl
@[simp] theorem State.charge_inputs (id : BitVec 16) (bay cls n : Nat) : (s.charge id bay cls n).inputs = s.inputs := rfl
@[simp] theorem State.charge_freeCtr (id : BitVec 16) (bay cls n : Nat) : (s.charge id bay cls n).freeCtr = s.freeCtr := rfl
@[simp] theorem State.charge_nextUid (id : BitVec 16) (bay cls n : Nat) : (s.charge id bay cls n).nextUid = s.nextUid := rfl

@[simp] theorem State.modFrame_bd (n : Nat) (f : Frame → Frame) : (s.modFrame n f).bd = s.bd := rfl
@[simp] theorem State.modFrame_boards (n : Nat) (f : Frame → Frame) : (s.modFrame n f).boards = s.boards := rfl
@[simp] theorem State.modFrame_cur (n : Nat) (f : Frame → Frame) : (s.modFrame n f).cur = s.cur := rfl
@[simp] theorem State.modFrame_bents (n : Nat) (f : Frame → Frame) : (s.modFrame n f).bents = s.bents := rfl
@[simp] theorem State.modFrame_grids (n : Nat) (f : Frame → Frame) : (s.modFrame n f).grids = s.grids := rfl
@[simp] theorem State.modFrame_graphs (n : Nat) (f : Frame → Frame) : (s.modFrame n f).graphs = s.graphs := rfl
@[simp] theorem State.modFrame_launches (n : Nat) (f : Frame → Frame) : (s.modFrame n f).launches = s.launches := rfl
@[simp] theorem State.modFrame_ctxs (n : Nat) (f : Frame → Frame) : (s.modFrame n f).ctxs = s.ctxs := rfl
@[simp] theorem State.modFrame_fns (n : Nat) (f : Frame → Frame) : (s.modFrame n f).fns = s.fns := rfl
@[simp] theorem State.modFrame_queues (n : Nat) (f : Frame → Frame) : (s.modFrame n f).queues = s.queues := rfl
@[simp] theorem State.modFrame_mapped (n : Nat) (f : Frame → Frame) : (s.modFrame n f).mapped = s.mapped := rfl
@[simp] theorem State.modFrame_frames (n : Nat) (f : Frame → Frame) : (s.modFrame n f).frames = modAt n f s.frames := rfl
@[simp] theorem State.modFrame_parkedCmds (n : Nat) (f : Frame → Frame) : (s.modFrame n f).parkedCmds = s.parkedCmds := rfl
@[simp] theorem State.modFrame_mem (n : Nat) (f : Frame → Frame) : (s.modFrame n f).mem = s.mem := rfl
@[simp] theorem State.modFrame_edits (n : Nat) (f : Frame → Frame) : (s.modFrame n f).edits = s.edits := rfl
@[simp] theorem State.modFrame_badLines (n : Nat) (f : Frame → Frame) : (s.modFrame n f).badLines = s.badLines := rfl
@[simp] theorem State.modFrame_hostMem (n : Nat) (f : Frame → Frame) : (s.modFrame n f).hostMem = s.hostMem := rfl
@[simp] theorem State.modFrame_tlb (n : Nat) (f : Frame → Frame) : (s.modFrame n f).tlb = s.tlb := rfl
@[simp] theorem State.modFrame_l1 (n : Nat) (f : Frame → Frame) : (s.modFrame n f).l1 = s.l1 := rfl
@[simp] theorem State.modFrame_outReqs (n : Nat) (f : Frame → Frame) : (s.modFrame n f).outReqs = s.outReqs := rfl
@[simp] theorem State.modFrame_fetches (n : Nat) (f : Frame → Frame) : (s.modFrame n f).fetches = s.fetches := rfl
@[simp] theorem State.modFrame_inReqs (n : Nat) (f : Frame → Frame) : (s.modFrame n f).inReqs = s.inReqs := rfl
@[simp] theorem State.modFrame_toPeers (n : Nat) (f : Frame → Frame) : (s.modFrame n f).toPeers = s.toPeers := rfl
@[simp] theorem State.modFrame_barredAgents (n : Nat) (f : Frame → Frame) : (s.modFrame n f).barredAgents = s.barredAgents := rfl
@[simp] theorem State.modFrame_wakes (n : Nat) (f : Frame → Frame) : (s.modFrame n f).wakes = s.wakes := rfl
@[simp] theorem State.modFrame_wakesOut (n : Nat) (f : Frame → Frame) : (s.modFrame n f).wakesOut = s.wakesOut := rfl
@[simp] theorem State.modFrame_rings (n : Nat) (f : Frame → Frame) : (s.modFrame n f).rings = s.rings := rfl
@[simp] theorem State.modFrame_planes (n : Nat) (f : Frame → Frame) : (s.modFrame n f).planes = s.planes := rfl
@[simp] theorem State.modFrame_farDown (n : Nat) (f : Frame → Frame) : (s.modFrame n f).farDown = s.farDown := rfl
@[simp] theorem State.modFrame_lost (n : Nat) (f : Frame → Frame) : (s.modFrame n f).lost = s.lost := rfl
@[simp] theorem State.modFrame_heard (n : Nat) (f : Frame → Frame) : (s.modFrame n f).heard = s.heard := rfl
@[simp] theorem State.modFrame_modid (n : Nat) (f : Frame → Frame) : (s.modFrame n f).modid = s.modid := rfl
@[simp] theorem State.modFrame_uaen (n : Nat) (f : Frame → Frame) : (s.modFrame n f).uaen = s.uaen := rfl
@[simp] theorem State.modFrame_safecap (n : Nat) (f : Frame → Frame) : (s.modFrame n f).safecap = s.safecap := rfl
@[simp] theorem State.modFrame_pth (n : Nat) (f : Frame → Frame) : (s.modFrame n f).pth = s.pth := rfl
@[simp] theorem State.modFrame_capSeq (n : Nat) (f : Frame → Frame) : (s.modFrame n f).capSeq = s.capSeq := rfl
@[simp] theorem State.modFrame_cap (n : Nat) (f : Frame → Frame) : (s.modFrame n f).cap = s.cap := rfl
@[simp] theorem State.modFrame_capEnd (n : Nat) (f : Frame → Frame) : (s.modFrame n f).capEnd = s.capEnd := rfl
@[simp] theorem State.modFrame_power (n : Nat) (f : Frame → Frame) : (s.modFrame n f).power = s.power := rfl
@[simp] theorem State.modFrame_tmig (n : Nat) (f : Frame → Frame) : (s.modFrame n f).tmig = s.tmig := rfl
@[simp] theorem State.modFrame_tcap (n : Nat) (f : Frame → Frame) : (s.modFrame n f).tcap = s.tcap := rfl
@[simp] theorem State.modFrame_overCap (n : Nat) (f : Frame → Frame) : (s.modFrame n f).overCap = s.overCap := rfl
@[simp] theorem State.modFrame_capEvent (n : Nat) (f : Frame → Frame) : (s.modFrame n f).capEvent = s.capEvent := rfl
@[simp] theorem State.modFrame_paces (n : Nat) (f : Frame → Frame) : (s.modFrame n f).paces = s.paces := rfl
@[simp] theorem State.modFrame_paceSent (n : Nat) (f : Frame → Frame) : (s.modFrame n f).paceSent = s.paceSent := rfl
@[simp] theorem State.modFrame_time (n : Nat) (f : Frame → Frame) : (s.modFrame n f).time = s.time := rfl
@[simp] theorem State.modFrame_timeErr (n : Nat) (f : Frame → Frame) : (s.modFrame n f).timeErr = s.timeErr := rfl
@[simp] theorem State.modFrame_slewRem (n : Nat) (f : Frame → Frame) : (s.modFrame n f).slewRem = s.slewRem := rfl
@[simp] theorem State.modFrame_synced (n : Nat) (f : Frame → Frame) : (s.modFrame n f).synced = s.synced := rfl
@[simp] theorem State.modFrame_exchanged (n : Nat) (f : Frame → Frame) : (s.modFrame n f).exchanged = s.exchanged := rfl
@[simp] theorem State.modFrame_wall (n : Nat) (f : Frame → Frame) : (s.modFrame n f).wall = s.wall := rfl
@[simp] theorem State.modFrame_records (n : Nat) (f : Frame → Frame) : (s.modFrame n f).records = s.records := rfl
@[simp] theorem State.modFrame_starts (n : Nat) (f : Frame → Frame) : (s.modFrame n f).starts = s.starts := rfl
@[simp] theorem State.modFrame_late (n : Nat) (f : Frame → Frame) : (s.modFrame n f).late = s.late := rfl
@[simp] theorem State.modFrame_devLog (n : Nat) (f : Frame → Frame) : (s.modFrame n f).devLog = s.devLog := rfl
@[simp] theorem State.modFrame_linkUp (n : Nat) (f : Frame → Frame) : (s.modFrame n f).linkUp = s.linkUp := rfl
@[simp] theorem State.modFrame_linkLost (n : Nat) (f : Frame → Frame) : (s.modFrame n f).linkLost = s.linkLost := rfl
@[simp] theorem State.modFrame_linkReset (n : Nat) (f : Frame → Frame) : (s.modFrame n f).linkReset = s.linkReset := rfl
@[simp] theorem State.modFrame_ctrl (n : Nat) (f : Frame → Frame) : (s.modFrame n f).ctrl = s.ctrl := rfl
@[simp] theorem State.modFrame_rails (n : Nat) (f : Frame → Frame) : (s.modFrame n f).rails = s.rails := rfl
@[simp] theorem State.modFrame_down (n : Nat) (f : Frame → Frame) : (s.modFrame n f).down = s.down := rfl
@[simp] theorem State.modFrame_fwCtrl (n : Nat) (f : Frame → Frame) : (s.modFrame n f).fwCtrl = s.fwCtrl := rfl
@[simp] theorem State.modFrame_fwCores (n : Nat) (f : Frame → Frame) : (s.modFrame n f).fwCores = s.fwCores := rfl
@[simp] theorem State.modFrame_halted (n : Nat) (f : Frame → Frame) : (s.modFrame n f).halted = s.halted := rfl
@[simp] theorem State.modFrame_sideband (n : Nat) (f : Frame → Frame) : (s.modFrame n f).sideband = s.sideband := rfl
@[simp] theorem State.modFrame_completions (n : Nat) (f : Frame → Frame) : (s.modFrame n f).completions = s.completions := rfl
@[simp] theorem State.modFrame_inputs (n : Nat) (f : Frame → Frame) : (s.modFrame n f).inputs = s.inputs := rfl
@[simp] theorem State.modFrame_freeCtr (n : Nat) (f : Frame → Frame) : (s.modFrame n f).freeCtr = s.freeCtr := rfl
@[simp] theorem State.modFrame_nextUid (n : Nat) (f : Frame → Frame) : (s.modFrame n f).nextUid = s.nextUid := rfl

@[simp] theorem State.modBay_bd (n : Nat) (f : Bay → Bay) : (s.modBay n f).bd = s.bd := rfl
@[simp] theorem State.modBay_boards (n : Nat) (f : Bay → Bay) : (s.modBay n f).boards = s.boards := rfl
@[simp] theorem State.modBay_cur (n : Nat) (f : Bay → Bay) : (s.modBay n f).cur = s.cur := rfl
@[simp] theorem State.modBay_bents (n : Nat) (f : Bay → Bay) : (s.modBay n f).bents = s.bents := rfl
@[simp] theorem State.modBay_grids (n : Nat) (f : Bay → Bay) : (s.modBay n f).grids = s.grids := rfl
@[simp] theorem State.modBay_graphs (n : Nat) (f : Bay → Bay) : (s.modBay n f).graphs = s.graphs := rfl
@[simp] theorem State.modBay_launches (n : Nat) (f : Bay → Bay) : (s.modBay n f).launches = s.launches := rfl
@[simp] theorem State.modBay_ctxs (n : Nat) (f : Bay → Bay) : (s.modBay n f).ctxs = s.ctxs := rfl
@[simp] theorem State.modBay_fns (n : Nat) (f : Bay → Bay) : (s.modBay n f).fns = s.fns := rfl
@[simp] theorem State.modBay_queues (n : Nat) (f : Bay → Bay) : (s.modBay n f).queues = s.queues := rfl
@[simp] theorem State.modBay_mapped (n : Nat) (f : Bay → Bay) : (s.modBay n f).mapped = s.mapped := rfl
@[simp] theorem State.modBay_parkedCmds (n : Nat) (f : Bay → Bay) : (s.modBay n f).parkedCmds = s.parkedCmds := rfl
@[simp] theorem State.modBay_mem (n : Nat) (f : Bay → Bay) : (s.modBay n f).mem = s.mem := rfl
@[simp] theorem State.modBay_edits (n : Nat) (f : Bay → Bay) : (s.modBay n f).edits = s.edits := rfl
@[simp] theorem State.modBay_badLines (n : Nat) (f : Bay → Bay) : (s.modBay n f).badLines = s.badLines := rfl
@[simp] theorem State.modBay_hostMem (n : Nat) (f : Bay → Bay) : (s.modBay n f).hostMem = s.hostMem := rfl
@[simp] theorem State.modBay_tlb (n : Nat) (f : Bay → Bay) : (s.modBay n f).tlb = s.tlb := rfl
@[simp] theorem State.modBay_l1 (n : Nat) (f : Bay → Bay) : (s.modBay n f).l1 = s.l1 := rfl
@[simp] theorem State.modBay_outReqs (n : Nat) (f : Bay → Bay) : (s.modBay n f).outReqs = s.outReqs := rfl
@[simp] theorem State.modBay_fetches (n : Nat) (f : Bay → Bay) : (s.modBay n f).fetches = s.fetches := rfl
@[simp] theorem State.modBay_inReqs (n : Nat) (f : Bay → Bay) : (s.modBay n f).inReqs = s.inReqs := rfl
@[simp] theorem State.modBay_toPeers (n : Nat) (f : Bay → Bay) : (s.modBay n f).toPeers = s.toPeers := rfl
@[simp] theorem State.modBay_barredAgents (n : Nat) (f : Bay → Bay) : (s.modBay n f).barredAgents = s.barredAgents := rfl
@[simp] theorem State.modBay_wakes (n : Nat) (f : Bay → Bay) : (s.modBay n f).wakes = s.wakes := rfl
@[simp] theorem State.modBay_wakesOut (n : Nat) (f : Bay → Bay) : (s.modBay n f).wakesOut = s.wakesOut := rfl
@[simp] theorem State.modBay_rings (n : Nat) (f : Bay → Bay) : (s.modBay n f).rings = s.rings := rfl
@[simp] theorem State.modBay_planes (n : Nat) (f : Bay → Bay) : (s.modBay n f).planes = s.planes := rfl
@[simp] theorem State.modBay_farDown (n : Nat) (f : Bay → Bay) : (s.modBay n f).farDown = s.farDown := rfl
@[simp] theorem State.modBay_lost (n : Nat) (f : Bay → Bay) : (s.modBay n f).lost = s.lost := rfl
@[simp] theorem State.modBay_heard (n : Nat) (f : Bay → Bay) : (s.modBay n f).heard = s.heard := rfl
@[simp] theorem State.modBay_modid (n : Nat) (f : Bay → Bay) : (s.modBay n f).modid = s.modid := rfl
@[simp] theorem State.modBay_uaen (n : Nat) (f : Bay → Bay) : (s.modBay n f).uaen = s.uaen := rfl
@[simp] theorem State.modBay_safecap (n : Nat) (f : Bay → Bay) : (s.modBay n f).safecap = s.safecap := rfl
@[simp] theorem State.modBay_pth (n : Nat) (f : Bay → Bay) : (s.modBay n f).pth = s.pth := rfl
@[simp] theorem State.modBay_capSeq (n : Nat) (f : Bay → Bay) : (s.modBay n f).capSeq = s.capSeq := rfl
@[simp] theorem State.modBay_cap (n : Nat) (f : Bay → Bay) : (s.modBay n f).cap = s.cap := rfl
@[simp] theorem State.modBay_capEnd (n : Nat) (f : Bay → Bay) : (s.modBay n f).capEnd = s.capEnd := rfl
@[simp] theorem State.modBay_power (n : Nat) (f : Bay → Bay) : (s.modBay n f).power = s.power := rfl
@[simp] theorem State.modBay_tmig (n : Nat) (f : Bay → Bay) : (s.modBay n f).tmig = s.tmig := rfl
@[simp] theorem State.modBay_tcap (n : Nat) (f : Bay → Bay) : (s.modBay n f).tcap = s.tcap := rfl
@[simp] theorem State.modBay_overCap (n : Nat) (f : Bay → Bay) : (s.modBay n f).overCap = s.overCap := rfl
@[simp] theorem State.modBay_capEvent (n : Nat) (f : Bay → Bay) : (s.modBay n f).capEvent = s.capEvent := rfl
@[simp] theorem State.modBay_paces (n : Nat) (f : Bay → Bay) : (s.modBay n f).paces = s.paces := rfl
@[simp] theorem State.modBay_paceSent (n : Nat) (f : Bay → Bay) : (s.modBay n f).paceSent = s.paceSent := rfl
@[simp] theorem State.modBay_time (n : Nat) (f : Bay → Bay) : (s.modBay n f).time = s.time := rfl
@[simp] theorem State.modBay_timeErr (n : Nat) (f : Bay → Bay) : (s.modBay n f).timeErr = s.timeErr := rfl
@[simp] theorem State.modBay_slewRem (n : Nat) (f : Bay → Bay) : (s.modBay n f).slewRem = s.slewRem := rfl
@[simp] theorem State.modBay_synced (n : Nat) (f : Bay → Bay) : (s.modBay n f).synced = s.synced := rfl
@[simp] theorem State.modBay_exchanged (n : Nat) (f : Bay → Bay) : (s.modBay n f).exchanged = s.exchanged := rfl
@[simp] theorem State.modBay_wall (n : Nat) (f : Bay → Bay) : (s.modBay n f).wall = s.wall := rfl
@[simp] theorem State.modBay_records (n : Nat) (f : Bay → Bay) : (s.modBay n f).records = s.records := rfl
@[simp] theorem State.modBay_starts (n : Nat) (f : Bay → Bay) : (s.modBay n f).starts = s.starts := rfl
@[simp] theorem State.modBay_late (n : Nat) (f : Bay → Bay) : (s.modBay n f).late = s.late := rfl
@[simp] theorem State.modBay_devLog (n : Nat) (f : Bay → Bay) : (s.modBay n f).devLog = s.devLog := rfl
@[simp] theorem State.modBay_linkUp (n : Nat) (f : Bay → Bay) : (s.modBay n f).linkUp = s.linkUp := rfl
@[simp] theorem State.modBay_linkLost (n : Nat) (f : Bay → Bay) : (s.modBay n f).linkLost = s.linkLost := rfl
@[simp] theorem State.modBay_linkReset (n : Nat) (f : Bay → Bay) : (s.modBay n f).linkReset = s.linkReset := rfl
@[simp] theorem State.modBay_ctrl (n : Nat) (f : Bay → Bay) : (s.modBay n f).ctrl = s.ctrl := rfl
@[simp] theorem State.modBay_rails (n : Nat) (f : Bay → Bay) : (s.modBay n f).rails = s.rails := rfl
@[simp] theorem State.modBay_down (n : Nat) (f : Bay → Bay) : (s.modBay n f).down = s.down := rfl
@[simp] theorem State.modBay_fwCtrl (n : Nat) (f : Bay → Bay) : (s.modBay n f).fwCtrl = s.fwCtrl := rfl
@[simp] theorem State.modBay_fwCores (n : Nat) (f : Bay → Bay) : (s.modBay n f).fwCores = s.fwCores := rfl
@[simp] theorem State.modBay_halted (n : Nat) (f : Bay → Bay) : (s.modBay n f).halted = s.halted := rfl
@[simp] theorem State.modBay_sideband (n : Nat) (f : Bay → Bay) : (s.modBay n f).sideband = s.sideband := rfl
@[simp] theorem State.modBay_completions (n : Nat) (f : Bay → Bay) : (s.modBay n f).completions = s.completions := rfl
@[simp] theorem State.modBay_inputs (n : Nat) (f : Bay → Bay) : (s.modBay n f).inputs = s.inputs := rfl
@[simp] theorem State.modBay_freeCtr (n : Nat) (f : Bay → Bay) : (s.modBay n f).freeCtr = s.freeCtr := rfl
@[simp] theorem State.modBay_nextUid (n : Nat) (f : Bay → Bay) : (s.modBay n f).nextUid = s.nextUid := rfl

@[simp] theorem State.modCore_bd (n : Nat) (f : Core → Core) : (s.modCore n f).bd = s.bd := rfl
@[simp] theorem State.modCore_boards (n : Nat) (f : Core → Core) : (s.modCore n f).boards = s.boards := rfl
@[simp] theorem State.modCore_cur (n : Nat) (f : Core → Core) : (s.modCore n f).cur = s.cur := rfl
@[simp] theorem State.modCore_bents (n : Nat) (f : Core → Core) : (s.modCore n f).bents = s.bents := rfl
@[simp] theorem State.modCore_grids (n : Nat) (f : Core → Core) : (s.modCore n f).grids = s.grids := rfl
@[simp] theorem State.modCore_graphs (n : Nat) (f : Core → Core) : (s.modCore n f).graphs = s.graphs := rfl
@[simp] theorem State.modCore_launches (n : Nat) (f : Core → Core) : (s.modCore n f).launches = s.launches := rfl
@[simp] theorem State.modCore_ctxs (n : Nat) (f : Core → Core) : (s.modCore n f).ctxs = s.ctxs := rfl
@[simp] theorem State.modCore_fns (n : Nat) (f : Core → Core) : (s.modCore n f).fns = s.fns := rfl
@[simp] theorem State.modCore_queues (n : Nat) (f : Core → Core) : (s.modCore n f).queues = s.queues := rfl
@[simp] theorem State.modCore_mapped (n : Nat) (f : Core → Core) : (s.modCore n f).mapped = s.mapped := rfl
@[simp] theorem State.modCore_parkedCmds (n : Nat) (f : Core → Core) : (s.modCore n f).parkedCmds = s.parkedCmds := rfl
@[simp] theorem State.modCore_mem (n : Nat) (f : Core → Core) : (s.modCore n f).mem = s.mem := rfl
@[simp] theorem State.modCore_edits (n : Nat) (f : Core → Core) : (s.modCore n f).edits = s.edits := rfl
@[simp] theorem State.modCore_badLines (n : Nat) (f : Core → Core) : (s.modCore n f).badLines = s.badLines := rfl
@[simp] theorem State.modCore_hostMem (n : Nat) (f : Core → Core) : (s.modCore n f).hostMem = s.hostMem := rfl
@[simp] theorem State.modCore_tlb (n : Nat) (f : Core → Core) : (s.modCore n f).tlb = s.tlb := rfl
@[simp] theorem State.modCore_l1 (n : Nat) (f : Core → Core) : (s.modCore n f).l1 = s.l1 := rfl
@[simp] theorem State.modCore_outReqs (n : Nat) (f : Core → Core) : (s.modCore n f).outReqs = s.outReqs := rfl
@[simp] theorem State.modCore_fetches (n : Nat) (f : Core → Core) : (s.modCore n f).fetches = s.fetches := rfl
@[simp] theorem State.modCore_inReqs (n : Nat) (f : Core → Core) : (s.modCore n f).inReqs = s.inReqs := rfl
@[simp] theorem State.modCore_toPeers (n : Nat) (f : Core → Core) : (s.modCore n f).toPeers = s.toPeers := rfl
@[simp] theorem State.modCore_barredAgents (n : Nat) (f : Core → Core) : (s.modCore n f).barredAgents = s.barredAgents := rfl
@[simp] theorem State.modCore_wakes (n : Nat) (f : Core → Core) : (s.modCore n f).wakes = s.wakes := rfl
@[simp] theorem State.modCore_wakesOut (n : Nat) (f : Core → Core) : (s.modCore n f).wakesOut = s.wakesOut := rfl
@[simp] theorem State.modCore_rings (n : Nat) (f : Core → Core) : (s.modCore n f).rings = s.rings := rfl
@[simp] theorem State.modCore_planes (n : Nat) (f : Core → Core) : (s.modCore n f).planes = s.planes := rfl
@[simp] theorem State.modCore_farDown (n : Nat) (f : Core → Core) : (s.modCore n f).farDown = s.farDown := rfl
@[simp] theorem State.modCore_lost (n : Nat) (f : Core → Core) : (s.modCore n f).lost = s.lost := rfl
@[simp] theorem State.modCore_heard (n : Nat) (f : Core → Core) : (s.modCore n f).heard = s.heard := rfl
@[simp] theorem State.modCore_modid (n : Nat) (f : Core → Core) : (s.modCore n f).modid = s.modid := rfl
@[simp] theorem State.modCore_uaen (n : Nat) (f : Core → Core) : (s.modCore n f).uaen = s.uaen := rfl
@[simp] theorem State.modCore_safecap (n : Nat) (f : Core → Core) : (s.modCore n f).safecap = s.safecap := rfl
@[simp] theorem State.modCore_pth (n : Nat) (f : Core → Core) : (s.modCore n f).pth = s.pth := rfl
@[simp] theorem State.modCore_capSeq (n : Nat) (f : Core → Core) : (s.modCore n f).capSeq = s.capSeq := rfl
@[simp] theorem State.modCore_cap (n : Nat) (f : Core → Core) : (s.modCore n f).cap = s.cap := rfl
@[simp] theorem State.modCore_capEnd (n : Nat) (f : Core → Core) : (s.modCore n f).capEnd = s.capEnd := rfl
@[simp] theorem State.modCore_power (n : Nat) (f : Core → Core) : (s.modCore n f).power = s.power := rfl
@[simp] theorem State.modCore_tmig (n : Nat) (f : Core → Core) : (s.modCore n f).tmig = s.tmig := rfl
@[simp] theorem State.modCore_tcap (n : Nat) (f : Core → Core) : (s.modCore n f).tcap = s.tcap := rfl
@[simp] theorem State.modCore_overCap (n : Nat) (f : Core → Core) : (s.modCore n f).overCap = s.overCap := rfl
@[simp] theorem State.modCore_capEvent (n : Nat) (f : Core → Core) : (s.modCore n f).capEvent = s.capEvent := rfl
@[simp] theorem State.modCore_paces (n : Nat) (f : Core → Core) : (s.modCore n f).paces = s.paces := rfl
@[simp] theorem State.modCore_paceSent (n : Nat) (f : Core → Core) : (s.modCore n f).paceSent = s.paceSent := rfl
@[simp] theorem State.modCore_time (n : Nat) (f : Core → Core) : (s.modCore n f).time = s.time := rfl
@[simp] theorem State.modCore_timeErr (n : Nat) (f : Core → Core) : (s.modCore n f).timeErr = s.timeErr := rfl
@[simp] theorem State.modCore_slewRem (n : Nat) (f : Core → Core) : (s.modCore n f).slewRem = s.slewRem := rfl
@[simp] theorem State.modCore_synced (n : Nat) (f : Core → Core) : (s.modCore n f).synced = s.synced := rfl
@[simp] theorem State.modCore_exchanged (n : Nat) (f : Core → Core) : (s.modCore n f).exchanged = s.exchanged := rfl
@[simp] theorem State.modCore_wall (n : Nat) (f : Core → Core) : (s.modCore n f).wall = s.wall := rfl
@[simp] theorem State.modCore_records (n : Nat) (f : Core → Core) : (s.modCore n f).records = s.records := rfl
@[simp] theorem State.modCore_starts (n : Nat) (f : Core → Core) : (s.modCore n f).starts = s.starts := rfl
@[simp] theorem State.modCore_late (n : Nat) (f : Core → Core) : (s.modCore n f).late = s.late := rfl
@[simp] theorem State.modCore_devLog (n : Nat) (f : Core → Core) : (s.modCore n f).devLog = s.devLog := rfl
@[simp] theorem State.modCore_linkUp (n : Nat) (f : Core → Core) : (s.modCore n f).linkUp = s.linkUp := rfl
@[simp] theorem State.modCore_linkLost (n : Nat) (f : Core → Core) : (s.modCore n f).linkLost = s.linkLost := rfl
@[simp] theorem State.modCore_linkReset (n : Nat) (f : Core → Core) : (s.modCore n f).linkReset = s.linkReset := rfl
@[simp] theorem State.modCore_ctrl (n : Nat) (f : Core → Core) : (s.modCore n f).ctrl = s.ctrl := rfl
@[simp] theorem State.modCore_rails (n : Nat) (f : Core → Core) : (s.modCore n f).rails = s.rails := rfl
@[simp] theorem State.modCore_down (n : Nat) (f : Core → Core) : (s.modCore n f).down = s.down := rfl
@[simp] theorem State.modCore_fwCtrl (n : Nat) (f : Core → Core) : (s.modCore n f).fwCtrl = s.fwCtrl := rfl
@[simp] theorem State.modCore_fwCores (n : Nat) (f : Core → Core) : (s.modCore n f).fwCores = s.fwCores := rfl
@[simp] theorem State.modCore_halted (n : Nat) (f : Core → Core) : (s.modCore n f).halted = s.halted := rfl
@[simp] theorem State.modCore_sideband (n : Nat) (f : Core → Core) : (s.modCore n f).sideband = s.sideband := rfl
@[simp] theorem State.modCore_completions (n : Nat) (f : Core → Core) : (s.modCore n f).completions = s.completions := rfl
@[simp] theorem State.modCore_inputs (n : Nat) (f : Core → Core) : (s.modCore n f).inputs = s.inputs := rfl
@[simp] theorem State.modCore_freeCtr (n : Nat) (f : Core → Core) : (s.modCore n f).freeCtr = s.freeCtr := rfl
@[simp] theorem State.modCore_nextUid (n : Nat) (f : Core → Core) : (s.modCore n f).nextUid = s.nextUid := rfl

@[simp] theorem State.modFn_bd (n : Nat) (f : Fn → Fn) : (s.modFn n f).bd = s.bd := rfl
@[simp] theorem State.modFn_boards (n : Nat) (f : Fn → Fn) : (s.modFn n f).boards = s.boards := rfl
@[simp] theorem State.modFn_cur (n : Nat) (f : Fn → Fn) : (s.modFn n f).cur = s.cur := rfl
@[simp] theorem State.modFn_bents (n : Nat) (f : Fn → Fn) : (s.modFn n f).bents = s.bents := rfl
@[simp] theorem State.modFn_grids (n : Nat) (f : Fn → Fn) : (s.modFn n f).grids = s.grids := rfl
@[simp] theorem State.modFn_graphs (n : Nat) (f : Fn → Fn) : (s.modFn n f).graphs = s.graphs := rfl
@[simp] theorem State.modFn_launches (n : Nat) (f : Fn → Fn) : (s.modFn n f).launches = s.launches := rfl
@[simp] theorem State.modFn_ctxs (n : Nat) (f : Fn → Fn) : (s.modFn n f).ctxs = s.ctxs := rfl
@[simp] theorem State.modFn_fns (n : Nat) (f : Fn → Fn) : (s.modFn n f).fns = modAt n f s.fns := rfl
@[simp] theorem State.modFn_queues (n : Nat) (f : Fn → Fn) : (s.modFn n f).queues = s.queues := rfl
@[simp] theorem State.modFn_mapped (n : Nat) (f : Fn → Fn) : (s.modFn n f).mapped = s.mapped := rfl
@[simp] theorem State.modFn_frames (n : Nat) (f : Fn → Fn) : (s.modFn n f).frames = s.frames := rfl
@[simp] theorem State.modFn_parkedCmds (n : Nat) (f : Fn → Fn) : (s.modFn n f).parkedCmds = s.parkedCmds := rfl
@[simp] theorem State.modFn_mem (n : Nat) (f : Fn → Fn) : (s.modFn n f).mem = s.mem := rfl
@[simp] theorem State.modFn_edits (n : Nat) (f : Fn → Fn) : (s.modFn n f).edits = s.edits := rfl
@[simp] theorem State.modFn_badLines (n : Nat) (f : Fn → Fn) : (s.modFn n f).badLines = s.badLines := rfl
@[simp] theorem State.modFn_hostMem (n : Nat) (f : Fn → Fn) : (s.modFn n f).hostMem = s.hostMem := rfl
@[simp] theorem State.modFn_tlb (n : Nat) (f : Fn → Fn) : (s.modFn n f).tlb = s.tlb := rfl
@[simp] theorem State.modFn_l1 (n : Nat) (f : Fn → Fn) : (s.modFn n f).l1 = s.l1 := rfl
@[simp] theorem State.modFn_outReqs (n : Nat) (f : Fn → Fn) : (s.modFn n f).outReqs = s.outReqs := rfl
@[simp] theorem State.modFn_fetches (n : Nat) (f : Fn → Fn) : (s.modFn n f).fetches = s.fetches := rfl
@[simp] theorem State.modFn_inReqs (n : Nat) (f : Fn → Fn) : (s.modFn n f).inReqs = s.inReqs := rfl
@[simp] theorem State.modFn_toPeers (n : Nat) (f : Fn → Fn) : (s.modFn n f).toPeers = s.toPeers := rfl
@[simp] theorem State.modFn_barredAgents (n : Nat) (f : Fn → Fn) : (s.modFn n f).barredAgents = s.barredAgents := rfl
@[simp] theorem State.modFn_wakes (n : Nat) (f : Fn → Fn) : (s.modFn n f).wakes = s.wakes := rfl
@[simp] theorem State.modFn_wakesOut (n : Nat) (f : Fn → Fn) : (s.modFn n f).wakesOut = s.wakesOut := rfl
@[simp] theorem State.modFn_rings (n : Nat) (f : Fn → Fn) : (s.modFn n f).rings = s.rings := rfl
@[simp] theorem State.modFn_planes (n : Nat) (f : Fn → Fn) : (s.modFn n f).planes = s.planes := rfl
@[simp] theorem State.modFn_farDown (n : Nat) (f : Fn → Fn) : (s.modFn n f).farDown = s.farDown := rfl
@[simp] theorem State.modFn_lost (n : Nat) (f : Fn → Fn) : (s.modFn n f).lost = s.lost := rfl
@[simp] theorem State.modFn_heard (n : Nat) (f : Fn → Fn) : (s.modFn n f).heard = s.heard := rfl
@[simp] theorem State.modFn_modid (n : Nat) (f : Fn → Fn) : (s.modFn n f).modid = s.modid := rfl
@[simp] theorem State.modFn_uaen (n : Nat) (f : Fn → Fn) : (s.modFn n f).uaen = s.uaen := rfl
@[simp] theorem State.modFn_safecap (n : Nat) (f : Fn → Fn) : (s.modFn n f).safecap = s.safecap := rfl
@[simp] theorem State.modFn_pth (n : Nat) (f : Fn → Fn) : (s.modFn n f).pth = s.pth := rfl
@[simp] theorem State.modFn_capSeq (n : Nat) (f : Fn → Fn) : (s.modFn n f).capSeq = s.capSeq := rfl
@[simp] theorem State.modFn_cap (n : Nat) (f : Fn → Fn) : (s.modFn n f).cap = s.cap := rfl
@[simp] theorem State.modFn_capEnd (n : Nat) (f : Fn → Fn) : (s.modFn n f).capEnd = s.capEnd := rfl
@[simp] theorem State.modFn_power (n : Nat) (f : Fn → Fn) : (s.modFn n f).power = s.power := rfl
@[simp] theorem State.modFn_tmig (n : Nat) (f : Fn → Fn) : (s.modFn n f).tmig = s.tmig := rfl
@[simp] theorem State.modFn_tcap (n : Nat) (f : Fn → Fn) : (s.modFn n f).tcap = s.tcap := rfl
@[simp] theorem State.modFn_overCap (n : Nat) (f : Fn → Fn) : (s.modFn n f).overCap = s.overCap := rfl
@[simp] theorem State.modFn_capEvent (n : Nat) (f : Fn → Fn) : (s.modFn n f).capEvent = s.capEvent := rfl
@[simp] theorem State.modFn_paces (n : Nat) (f : Fn → Fn) : (s.modFn n f).paces = s.paces := rfl
@[simp] theorem State.modFn_paceSent (n : Nat) (f : Fn → Fn) : (s.modFn n f).paceSent = s.paceSent := rfl
@[simp] theorem State.modFn_time (n : Nat) (f : Fn → Fn) : (s.modFn n f).time = s.time := rfl
@[simp] theorem State.modFn_timeErr (n : Nat) (f : Fn → Fn) : (s.modFn n f).timeErr = s.timeErr := rfl
@[simp] theorem State.modFn_slewRem (n : Nat) (f : Fn → Fn) : (s.modFn n f).slewRem = s.slewRem := rfl
@[simp] theorem State.modFn_synced (n : Nat) (f : Fn → Fn) : (s.modFn n f).synced = s.synced := rfl
@[simp] theorem State.modFn_exchanged (n : Nat) (f : Fn → Fn) : (s.modFn n f).exchanged = s.exchanged := rfl
@[simp] theorem State.modFn_wall (n : Nat) (f : Fn → Fn) : (s.modFn n f).wall = s.wall := rfl
@[simp] theorem State.modFn_records (n : Nat) (f : Fn → Fn) : (s.modFn n f).records = s.records := rfl
@[simp] theorem State.modFn_starts (n : Nat) (f : Fn → Fn) : (s.modFn n f).starts = s.starts := rfl
@[simp] theorem State.modFn_late (n : Nat) (f : Fn → Fn) : (s.modFn n f).late = s.late := rfl
@[simp] theorem State.modFn_devLog (n : Nat) (f : Fn → Fn) : (s.modFn n f).devLog = s.devLog := rfl
@[simp] theorem State.modFn_linkUp (n : Nat) (f : Fn → Fn) : (s.modFn n f).linkUp = s.linkUp := rfl
@[simp] theorem State.modFn_linkLost (n : Nat) (f : Fn → Fn) : (s.modFn n f).linkLost = s.linkLost := rfl
@[simp] theorem State.modFn_linkReset (n : Nat) (f : Fn → Fn) : (s.modFn n f).linkReset = s.linkReset := rfl
@[simp] theorem State.modFn_ctrl (n : Nat) (f : Fn → Fn) : (s.modFn n f).ctrl = s.ctrl := rfl
@[simp] theorem State.modFn_rails (n : Nat) (f : Fn → Fn) : (s.modFn n f).rails = s.rails := rfl
@[simp] theorem State.modFn_down (n : Nat) (f : Fn → Fn) : (s.modFn n f).down = s.down := rfl
@[simp] theorem State.modFn_fwCtrl (n : Nat) (f : Fn → Fn) : (s.modFn n f).fwCtrl = s.fwCtrl := rfl
@[simp] theorem State.modFn_fwCores (n : Nat) (f : Fn → Fn) : (s.modFn n f).fwCores = s.fwCores := rfl
@[simp] theorem State.modFn_halted (n : Nat) (f : Fn → Fn) : (s.modFn n f).halted = s.halted := rfl
@[simp] theorem State.modFn_sideband (n : Nat) (f : Fn → Fn) : (s.modFn n f).sideband = s.sideband := rfl
@[simp] theorem State.modFn_completions (n : Nat) (f : Fn → Fn) : (s.modFn n f).completions = s.completions := rfl
@[simp] theorem State.modFn_inputs (n : Nat) (f : Fn → Fn) : (s.modFn n f).inputs = s.inputs := rfl
@[simp] theorem State.modFn_freeCtr (n : Nat) (f : Fn → Fn) : (s.modFn n f).freeCtr = s.freeCtr := rfl
@[simp] theorem State.modFn_nextUid (n : Nat) (f : Fn → Fn) : (s.modFn n f).nextUid = s.nextUid := rfl

@[simp] theorem State.modQueue_bd (n : Nat) (f : Queue → Queue) : (s.modQueue n f).bd = s.bd := rfl
@[simp] theorem State.modQueue_boards (n : Nat) (f : Queue → Queue) : (s.modQueue n f).boards = s.boards := rfl
@[simp] theorem State.modQueue_cur (n : Nat) (f : Queue → Queue) : (s.modQueue n f).cur = s.cur := rfl
@[simp] theorem State.modQueue_bents (n : Nat) (f : Queue → Queue) : (s.modQueue n f).bents = s.bents := rfl
@[simp] theorem State.modQueue_grids (n : Nat) (f : Queue → Queue) : (s.modQueue n f).grids = s.grids := rfl
@[simp] theorem State.modQueue_graphs (n : Nat) (f : Queue → Queue) : (s.modQueue n f).graphs = s.graphs := rfl
@[simp] theorem State.modQueue_launches (n : Nat) (f : Queue → Queue) : (s.modQueue n f).launches = s.launches := rfl
@[simp] theorem State.modQueue_ctxs (n : Nat) (f : Queue → Queue) : (s.modQueue n f).ctxs = s.ctxs := rfl
@[simp] theorem State.modQueue_fns (n : Nat) (f : Queue → Queue) : (s.modQueue n f).fns = s.fns := rfl
@[simp] theorem State.modQueue_queues (n : Nat) (f : Queue → Queue) : (s.modQueue n f).queues = Machine.put n (f (s.queue n)) s.queues := rfl
@[simp] theorem State.modQueue_mapped (n : Nat) (f : Queue → Queue) : (s.modQueue n f).mapped = s.mapped := rfl
@[simp] theorem State.modQueue_frames (n : Nat) (f : Queue → Queue) : (s.modQueue n f).frames = s.frames := rfl
@[simp] theorem State.modQueue_parkedCmds (n : Nat) (f : Queue → Queue) : (s.modQueue n f).parkedCmds = s.parkedCmds := rfl
@[simp] theorem State.modQueue_mem (n : Nat) (f : Queue → Queue) : (s.modQueue n f).mem = s.mem := rfl
@[simp] theorem State.modQueue_edits (n : Nat) (f : Queue → Queue) : (s.modQueue n f).edits = s.edits := rfl
@[simp] theorem State.modQueue_badLines (n : Nat) (f : Queue → Queue) : (s.modQueue n f).badLines = s.badLines := rfl
@[simp] theorem State.modQueue_hostMem (n : Nat) (f : Queue → Queue) : (s.modQueue n f).hostMem = s.hostMem := rfl
@[simp] theorem State.modQueue_tlb (n : Nat) (f : Queue → Queue) : (s.modQueue n f).tlb = s.tlb := rfl
@[simp] theorem State.modQueue_l1 (n : Nat) (f : Queue → Queue) : (s.modQueue n f).l1 = s.l1 := rfl
@[simp] theorem State.modQueue_outReqs (n : Nat) (f : Queue → Queue) : (s.modQueue n f).outReqs = s.outReqs := rfl
@[simp] theorem State.modQueue_fetches (n : Nat) (f : Queue → Queue) : (s.modQueue n f).fetches = s.fetches := rfl
@[simp] theorem State.modQueue_inReqs (n : Nat) (f : Queue → Queue) : (s.modQueue n f).inReqs = s.inReqs := rfl
@[simp] theorem State.modQueue_toPeers (n : Nat) (f : Queue → Queue) : (s.modQueue n f).toPeers = s.toPeers := rfl
@[simp] theorem State.modQueue_barredAgents (n : Nat) (f : Queue → Queue) : (s.modQueue n f).barredAgents = s.barredAgents := rfl
@[simp] theorem State.modQueue_wakes (n : Nat) (f : Queue → Queue) : (s.modQueue n f).wakes = s.wakes := rfl
@[simp] theorem State.modQueue_wakesOut (n : Nat) (f : Queue → Queue) : (s.modQueue n f).wakesOut = s.wakesOut := rfl
@[simp] theorem State.modQueue_rings (n : Nat) (f : Queue → Queue) : (s.modQueue n f).rings = s.rings := rfl
@[simp] theorem State.modQueue_planes (n : Nat) (f : Queue → Queue) : (s.modQueue n f).planes = s.planes := rfl
@[simp] theorem State.modQueue_farDown (n : Nat) (f : Queue → Queue) : (s.modQueue n f).farDown = s.farDown := rfl
@[simp] theorem State.modQueue_lost (n : Nat) (f : Queue → Queue) : (s.modQueue n f).lost = s.lost := rfl
@[simp] theorem State.modQueue_heard (n : Nat) (f : Queue → Queue) : (s.modQueue n f).heard = s.heard := rfl
@[simp] theorem State.modQueue_modid (n : Nat) (f : Queue → Queue) : (s.modQueue n f).modid = s.modid := rfl
@[simp] theorem State.modQueue_uaen (n : Nat) (f : Queue → Queue) : (s.modQueue n f).uaen = s.uaen := rfl
@[simp] theorem State.modQueue_safecap (n : Nat) (f : Queue → Queue) : (s.modQueue n f).safecap = s.safecap := rfl
@[simp] theorem State.modQueue_pth (n : Nat) (f : Queue → Queue) : (s.modQueue n f).pth = s.pth := rfl
@[simp] theorem State.modQueue_capSeq (n : Nat) (f : Queue → Queue) : (s.modQueue n f).capSeq = s.capSeq := rfl
@[simp] theorem State.modQueue_cap (n : Nat) (f : Queue → Queue) : (s.modQueue n f).cap = s.cap := rfl
@[simp] theorem State.modQueue_capEnd (n : Nat) (f : Queue → Queue) : (s.modQueue n f).capEnd = s.capEnd := rfl
@[simp] theorem State.modQueue_power (n : Nat) (f : Queue → Queue) : (s.modQueue n f).power = s.power := rfl
@[simp] theorem State.modQueue_tmig (n : Nat) (f : Queue → Queue) : (s.modQueue n f).tmig = s.tmig := rfl
@[simp] theorem State.modQueue_tcap (n : Nat) (f : Queue → Queue) : (s.modQueue n f).tcap = s.tcap := rfl
@[simp] theorem State.modQueue_overCap (n : Nat) (f : Queue → Queue) : (s.modQueue n f).overCap = s.overCap := rfl
@[simp] theorem State.modQueue_capEvent (n : Nat) (f : Queue → Queue) : (s.modQueue n f).capEvent = s.capEvent := rfl
@[simp] theorem State.modQueue_paces (n : Nat) (f : Queue → Queue) : (s.modQueue n f).paces = s.paces := rfl
@[simp] theorem State.modQueue_paceSent (n : Nat) (f : Queue → Queue) : (s.modQueue n f).paceSent = s.paceSent := rfl
@[simp] theorem State.modQueue_time (n : Nat) (f : Queue → Queue) : (s.modQueue n f).time = s.time := rfl
@[simp] theorem State.modQueue_timeErr (n : Nat) (f : Queue → Queue) : (s.modQueue n f).timeErr = s.timeErr := rfl
@[simp] theorem State.modQueue_slewRem (n : Nat) (f : Queue → Queue) : (s.modQueue n f).slewRem = s.slewRem := rfl
@[simp] theorem State.modQueue_synced (n : Nat) (f : Queue → Queue) : (s.modQueue n f).synced = s.synced := rfl
@[simp] theorem State.modQueue_exchanged (n : Nat) (f : Queue → Queue) : (s.modQueue n f).exchanged = s.exchanged := rfl
@[simp] theorem State.modQueue_wall (n : Nat) (f : Queue → Queue) : (s.modQueue n f).wall = s.wall := rfl
@[simp] theorem State.modQueue_records (n : Nat) (f : Queue → Queue) : (s.modQueue n f).records = s.records := rfl
@[simp] theorem State.modQueue_starts (n : Nat) (f : Queue → Queue) : (s.modQueue n f).starts = s.starts := rfl
@[simp] theorem State.modQueue_late (n : Nat) (f : Queue → Queue) : (s.modQueue n f).late = s.late := rfl
@[simp] theorem State.modQueue_devLog (n : Nat) (f : Queue → Queue) : (s.modQueue n f).devLog = s.devLog := rfl
@[simp] theorem State.modQueue_linkUp (n : Nat) (f : Queue → Queue) : (s.modQueue n f).linkUp = s.linkUp := rfl
@[simp] theorem State.modQueue_linkLost (n : Nat) (f : Queue → Queue) : (s.modQueue n f).linkLost = s.linkLost := rfl
@[simp] theorem State.modQueue_linkReset (n : Nat) (f : Queue → Queue) : (s.modQueue n f).linkReset = s.linkReset := rfl
@[simp] theorem State.modQueue_ctrl (n : Nat) (f : Queue → Queue) : (s.modQueue n f).ctrl = s.ctrl := rfl
@[simp] theorem State.modQueue_rails (n : Nat) (f : Queue → Queue) : (s.modQueue n f).rails = s.rails := rfl
@[simp] theorem State.modQueue_down (n : Nat) (f : Queue → Queue) : (s.modQueue n f).down = s.down := rfl
@[simp] theorem State.modQueue_fwCtrl (n : Nat) (f : Queue → Queue) : (s.modQueue n f).fwCtrl = s.fwCtrl := rfl
@[simp] theorem State.modQueue_fwCores (n : Nat) (f : Queue → Queue) : (s.modQueue n f).fwCores = s.fwCores := rfl
@[simp] theorem State.modQueue_halted (n : Nat) (f : Queue → Queue) : (s.modQueue n f).halted = s.halted := rfl
@[simp] theorem State.modQueue_sideband (n : Nat) (f : Queue → Queue) : (s.modQueue n f).sideband = s.sideband := rfl
@[simp] theorem State.modQueue_completions (n : Nat) (f : Queue → Queue) : (s.modQueue n f).completions = s.completions := rfl
@[simp] theorem State.modQueue_inputs (n : Nat) (f : Queue → Queue) : (s.modQueue n f).inputs = s.inputs := rfl
@[simp] theorem State.modQueue_freeCtr (n : Nat) (f : Queue → Queue) : (s.modQueue n f).freeCtr = s.freeCtr := rfl
@[simp] theorem State.modQueue_nextUid (n : Nat) (f : Queue → Queue) : (s.modQueue n f).nextUid = s.nextUid := rfl

@[simp] theorem State.free_bd : (s.free).bd = s.bd := rfl
@[simp] theorem State.free_boards : (s.free).boards = s.boards := rfl
@[simp] theorem State.free_cur : (s.free).cur = s.cur := rfl
@[simp] theorem State.free_bents : (s.free).bents = s.bents := rfl
@[simp] theorem State.free_grids : (s.free).grids = s.grids := rfl
@[simp] theorem State.free_graphs : (s.free).graphs = s.graphs := rfl
@[simp] theorem State.free_launches : (s.free).launches = s.launches := rfl
@[simp] theorem State.free_ctxs : (s.free).ctxs = s.ctxs := rfl
@[simp] theorem State.free_fns : (s.free).fns = s.fns := rfl
@[simp] theorem State.free_queues : (s.free).queues = s.queues := rfl
@[simp] theorem State.free_mapped : (s.free).mapped = s.mapped := rfl
@[simp] theorem State.free_frames : (s.free).frames = s.frames := rfl
@[simp] theorem State.free_parkedCmds : (s.free).parkedCmds = s.parkedCmds := rfl
@[simp] theorem State.free_mem : (s.free).mem = s.mem := rfl
@[simp] theorem State.free_edits : (s.free).edits = s.edits := rfl
@[simp] theorem State.free_badLines : (s.free).badLines = s.badLines := rfl
@[simp] theorem State.free_hostMem : (s.free).hostMem = s.hostMem := rfl
@[simp] theorem State.free_tlb : (s.free).tlb = s.tlb := rfl
@[simp] theorem State.free_l1 : (s.free).l1 = s.l1 := rfl
@[simp] theorem State.free_outReqs : (s.free).outReqs = s.outReqs := rfl
@[simp] theorem State.free_fetches : (s.free).fetches = s.fetches := rfl
@[simp] theorem State.free_inReqs : (s.free).inReqs = s.inReqs := rfl
@[simp] theorem State.free_toPeers : (s.free).toPeers = s.toPeers := rfl
@[simp] theorem State.free_barredAgents : (s.free).barredAgents = s.barredAgents := rfl
@[simp] theorem State.free_wakes : (s.free).wakes = s.wakes := rfl
@[simp] theorem State.free_wakesOut : (s.free).wakesOut = s.wakesOut := rfl
@[simp] theorem State.free_rings : (s.free).rings = s.rings := rfl
@[simp] theorem State.free_planes : (s.free).planes = s.planes := rfl
@[simp] theorem State.free_farDown : (s.free).farDown = s.farDown := rfl
@[simp] theorem State.free_lost : (s.free).lost = s.lost := rfl
@[simp] theorem State.free_heard : (s.free).heard = s.heard := rfl
@[simp] theorem State.free_modid : (s.free).modid = s.modid := rfl
@[simp] theorem State.free_uaen : (s.free).uaen = s.uaen := rfl
@[simp] theorem State.free_safecap : (s.free).safecap = s.safecap := rfl
@[simp] theorem State.free_pth : (s.free).pth = s.pth := rfl
@[simp] theorem State.free_capSeq : (s.free).capSeq = s.capSeq := rfl
@[simp] theorem State.free_cap : (s.free).cap = s.cap := rfl
@[simp] theorem State.free_capEnd : (s.free).capEnd = s.capEnd := rfl
@[simp] theorem State.free_power : (s.free).power = s.power := rfl
@[simp] theorem State.free_tmig : (s.free).tmig = s.tmig := rfl
@[simp] theorem State.free_tcap : (s.free).tcap = s.tcap := rfl
@[simp] theorem State.free_overCap : (s.free).overCap = s.overCap := rfl
@[simp] theorem State.free_capEvent : (s.free).capEvent = s.capEvent := rfl
@[simp] theorem State.free_paces : (s.free).paces = s.paces := rfl
@[simp] theorem State.free_paceSent : (s.free).paceSent = s.paceSent := rfl
@[simp] theorem State.free_time : (s.free).time = s.time := rfl
@[simp] theorem State.free_timeErr : (s.free).timeErr = s.timeErr := rfl
@[simp] theorem State.free_slewRem : (s.free).slewRem = s.slewRem := rfl
@[simp] theorem State.free_synced : (s.free).synced = s.synced := rfl
@[simp] theorem State.free_exchanged : (s.free).exchanged = s.exchanged := rfl
@[simp] theorem State.free_wall : (s.free).wall = s.wall := rfl
@[simp] theorem State.free_records : (s.free).records = s.records := rfl
@[simp] theorem State.free_starts : (s.free).starts = s.starts := rfl
@[simp] theorem State.free_late : (s.free).late = s.late := rfl
@[simp] theorem State.free_devLog : (s.free).devLog = s.devLog := rfl
@[simp] theorem State.free_linkUp : (s.free).linkUp = s.linkUp := rfl
@[simp] theorem State.free_linkLost : (s.free).linkLost = s.linkLost := rfl
@[simp] theorem State.free_linkReset : (s.free).linkReset = s.linkReset := rfl
@[simp] theorem State.free_ctrl : (s.free).ctrl = s.ctrl := rfl
@[simp] theorem State.free_rails : (s.free).rails = s.rails := rfl
@[simp] theorem State.free_down : (s.free).down = s.down := rfl
@[simp] theorem State.free_fwCtrl : (s.free).fwCtrl = s.fwCtrl := rfl
@[simp] theorem State.free_fwCores : (s.free).fwCores = s.fwCores := rfl
@[simp] theorem State.free_halted : (s.free).halted = s.halted := rfl
@[simp] theorem State.free_sideband : (s.free).sideband = s.sideband := rfl
@[simp] theorem State.free_completions : (s.free).completions = s.completions := rfl
@[simp] theorem State.free_inputs : (s.free).inputs = s.inputs := rfl
@[simp] theorem State.free_freeCtr : (s.free).freeCtr = s.freeCtr + 1 := rfl
@[simp] theorem State.free_nextUid : (s.free).nextUid = s.nextUid := rfl

end Sys2Proof.Machine
end

