-- ==== Sys2Proof/Laws/Ops.lean ====
section
/-!
SUPPORT. What the shared operations do: how a meaning can answer, where a board stands after it is replaced, what an entry of a fault queue, a write
at home, a freeze and a landing leave alone, and that memory stays canonical under them.
-/
namespace Sys2Proof.Machine

/-! ### Answers -/

/-- An event answers a next state exactly where it comes about. -/
theorem event_next {name : String} {x : Option State} {t : State} : event name x = .next t ↔ x = some t := by
  cases x <;> simp [event, notEnabled]

/-- All that a slot instruction can answer with a next state: its trap, or its effect on the noted board. -/
theorem onBoard_next {s t : State} {i : Instr} {k : Board → State} (h : onBoard s i k = .next t) :
    ∃ b, s.bd = some b ∧ ((∃ r, judge s b i = some r ∧ t = s.raise b r) ∨ (judge s b i = none ∧ t = k (s.noted b i))) := by
  unfold onBoard at h
  split at h
  · cases h
  · rename_i b hb
    refine ⟨b, hb, ?_⟩
    split at h
    · rename_i r hr
      exact .inl ⟨r, hr, by injection h with h; exact h.symm⟩
    · rename_i hr
      exact .inr ⟨hr, by injection h with h; exact h.symm⟩

/-- A fold of steps that each leave something alone leaves it alone. -/
theorem foldl_keeps {α β : Type} {P : State → β} {f : State → α → State} (h : ∀ s x, P (f s x) = P s) (l : List α) (s : State) :
    P (l.foldl f s) = P s := by
  induction l generalizing s with
  | nil => rfl
  | cons x t ih => rw [List.foldl_cons, ih, h]

/-- A fold of steps that each keep a property keeps it. -/
theorem foldl_inv {α : Type} {P : State → Prop} {f : State → α → State} (h : ∀ s x, P s → P (f s x)) (l : List α) (s : State) (hs : P s) :
    P (l.foldl f s) := by
  induction l generalizing s with
  | nil => exact hs
  | cons x t ih => exact ih _ (h s x hs)

/-! ### Boards -/

theorem State.board?_id {s : State} {id : Nat} {b : Board} (h : s.board? id = some b) : b.id = id := by
  unfold State.board? at h
  split at h
  · split at h
    · rename_i e
      injection h with h
      subst h
      simpa using e
    · simpa using List.find?_some h
  · simpa using List.find?_some h

theorem find_map_board (l : List Board) (c : Board) {x : Board} (h : l.find? (·.id == c.id) = some x) :
    (l.map fun y => if y.id == c.id then c else y).find? (·.id == c.id) = some c := by
  induction l with
  | nil => simp at h
  | cons y t ih =>
    by_cases e : y.id = c.id
    · simp [e]
    · have hf : (y.id == c.id) = false := by simpa using e
      simp only [List.find?_cons, hf] at h
      simp only [List.map_cons, hf, Bool.false_eq_true, if_false, List.find?_cons]
      exact ih h

/-- A board that stands somewhere, replaced: it stands there. -/
theorem State.board?_setBoard {s : State} {b c : Board} (h : s.board? c.id = some b) : (s.setBoard c).board? c.id = some c := by
  unfold State.board? at h
  unfold State.setBoard State.board?
  split at h
  · rename_i x hx
    split at h
    · rename_i e
      simp [e]
    · rename_i e
      have e' : x.id ≠ c.id := by simpa using e
      simp only [e, Bool.false_eq_true, if_false, hx]
      exact find_map_board _ _ h
  · rename_i hx
    simp only [hx]
    exact find_map_board _ _ h

/-- A result leaves: one entry joins the pipeline, as late as an earlier landing of its location makes it, and nothing else of the
board changes. -/
theorem Board.emit_pipe (b : Board) (e : PipeEntry) :
    ∃ rem, b.emit e = { b with pipe := b.pipe ++ [{ e with rem := rem, late := rem - e.rem }] } := ⟨_, rfl⟩

/-! ### Fault queues -/

theorem State.faultEntry_keeps (s : State) (fn : Nat) (w : List Nat) :
    (s.faultEntry fn w).mem = s.mem ∧ (s.faultEntry fn w).bd = s.bd ∧ (s.faultEntry fn w).boards = s.boards
    ∧ (s.faultEntry fn w).ctxs = s.ctxs ∧ (s.faultEntry fn w).frames = s.frames ∧ (s.faultEntry fn w).cur = s.cur
    ∧ (s.faultEntry fn w).bents = s.bents ∧ (s.faultEntry fn w).grids = s.grids := by
  unfold State.faultEntry
  dsimp only
  split <;> simp

theorem State.faultEntry_hostMem_wf {s : State} (h : s.hostMem.wf = true) (fn : Nat) (w : List Nat) :
    (s.faultEntry fn w).hostMem.wf = true := by
  unfold State.faultEntry
  dsimp only
  split
  · exact h
  · exact Mem.wf_write h _ _

theorem State.faultEntry_memOk {s : State} (h : s.memOk) (fn : Nat) (w : List Nat) : (s.faultEntry fn w).memOk :=
  ⟨by rw [(s.faultEntry_keeps fn w).1]; exact h.1, State.faultEntry_hostMem_wf h.2 fn w⟩

theorem State.engineEntry_keeps (s : State) (c : BitVec 16) (cause detail count addr tpc : Nat) :
    let t := s.engineEntry c cause detail count addr tpc
    t.mem = s.mem ∧ t.bd = s.bd ∧ t.boards = s.boards ∧ t.ctxs = s.ctxs ∧ t.frames = s.frames ∧ t.cur = s.cur ∧ t.bents = s.bents
    ∧ t.grids = s.grids := s.faultEntry_keeps _ _

theorem State.engineEntry_memOk {s : State} (h : s.memOk) (c : BitVec 16) (cause detail count addr tpc : Nat) :
    (s.engineEntry c cause detail count addr tpc).memOk := State.faultEntry_memOk h _ _

theorem State.deviceEntry_keeps (s : State) (ev unit detail : Nat) :
    let t := s.deviceEntry ev unit detail
    t.mem = s.mem ∧ t.bd = s.bd ∧ t.boards = s.boards ∧ t.ctxs = s.ctxs ∧ t.frames = s.frames := by
  unfold State.deviceEntry
  exact ⟨foldl_keeps (P := State.mem) (fun s f => (s.faultEntry_keeps f _).1) _ _,
    foldl_keeps (P := State.bd) (fun s f => (s.faultEntry_keeps f _).2.1) _ _,
    foldl_keeps (P := State.boards) (fun s f => (s.faultEntry_keeps f _).2.2.1) _ _,
    foldl_keeps (P := State.ctxs) (fun s f => (s.faultEntry_keeps f _).2.2.2.1) _ _,
    foldl_keeps (P := State.frames) (fun s f => (s.faultEntry_keeps f _).2.2.2.2.1) _ _⟩

theorem State.deviceEntry_memOk {s : State} (h : s.memOk) (ev unit detail : Nat) : (s.deviceEntry ev unit detail).memOk := by
  unfold State.deviceEntry
  dsimp only
  exact foldl_inv (P := State.memOk) (fun s f hs => State.faultEntry_memOk hs _ _) _ _ h

/-! ### Writes at home -/

theorem State.change_memOk {s : State} (h : s.memOk) (f : Nat) (w : Watch) (i : Nat) (wr : Writer) : (s.change f w i wr).memOk := by
  unfold State.change
  dsimp only
  split
  · split
    · exact h
    · exact State.engineEntry_memOk (s := s.modWatch f w.idx _) h _ _ _ _ _ _
  · exact h

theorem State.change_mem (s : State) (f : Nat) (w : Watch) (i : Nat) (wr : Writer) : (s.change f w i wr).mem = s.mem := by
  unfold State.change
  dsimp only
  split
  · split
    · rfl
    · exact (State.engineEntry_keeps (s.modWatch f w.idx _) _ _ _ _ _ _).1
  · rfl

/-- The comparison of a written line changes no memory here. -/
theorem State.compare_mem (s : State) (wr : Writer) (pa : Nat) (old new : List Byte) : (s.compare wr pa old new).mem = s.mem := by
  unfold State.compare
  split
  · rfl
  · dsimp only
    refine foldl_keeps (P := State.mem) (fun s w => ?_) _ _
    split
    · refine foldl_keeps (P := State.mem) (fun s i => ?_) _ _
      split
      · exact State.change_mem _ _ _ _ _
      · rfl
    · rfl

theorem State.compare_memOk {s : State} (h : s.memOk) (wr : Writer) (pa : Nat) (old new : List Byte) : (s.compare wr pa old new).memOk := by
  unfold State.compare
  split
  · exact h
  · dsimp only
    refine foldl_inv (P := State.memOk) (fun s w hs => ?_) _ _ h
    split
    · refine foldl_inv (P := State.memOk) (fun s i hs => ?_) _ _ hs
      split
      · exact State.change_memOk hs _ _ _ _
      · exact hs
    · exact hs

/-- Noting who has edited a record changes the edits alone. -/
theorem State.noteEdits_eq (s : State) (wr : Option Writer) (l : Nat) (w : List (Nat × Byte)) :
    ∃ es, s.noteEdits wr l w = { s with edits := es } := by
  unfold State.noteEdits
  refine foldl_inv (P := fun t => ∃ es, t = { s with edits := es }) (fun t b ⟨es, ht⟩ => ?_) _ _ ⟨s.edits, rfl⟩
  subst ht
  repeat' split
  all_goals exact ⟨_, rfl⟩

theorem State.noteEdits_memOk {s : State} (h : s.memOk) (wr : Option Writer) (l : Nat) (w : List (Nat × Byte)) : (s.noteEdits wr l w).memOk := by
  obtain ⟨es, e⟩ := s.noteEdits_eq wr l w
  rw [e]
  exact h

theorem State.writeLine_memOk {s : State} (h : s.memOk) (wr : Option Writer) (l : Nat) (w : List (Nat × Byte)) :
    (s.writeLine wr l w).memOk := by
  unfold State.writeLine
  extract_lets old s t
  have hs : s.memOk := State.noteEdits_memOk h wr l w
  have ht : t.memOk := ⟨Mem.wf_writeAll hs.1 w, hs.2⟩
  cases wr with
  | none =>
    dsimp only
    by_cases e : t.watched (128 * l) 128
    · rw [if_pos e]
      exact State.compare_memOk ht _ _ _ _
    · rw [if_neg e]
      exact ht
  | some wr => exact State.compare_memOk ht _ _ _ _

/-- A write at home keeps memory canonical, with all that it sets off. -/
theorem State.writeLocal_memOk {s : State} (h : s.memOk) (wr : Option Writer) (w : List (Nat × Byte)) : (s.writeLocal wr w).memOk := by
  unfold State.writeLocal
  exact foldl_inv (P := State.memOk) (fun s l hs => State.writeLine_memOk hs wr l _) _ _ h

/-- The device's own write keeps memory canonical, with all that it sets off. -/
theorem State.ownMem_memOk {s : State} (h : s.memOk) (a n : Nat) {m : Mem} (w : m.wf = true) : (s.ownMem a n m).memOk := by
  unfold State.ownMem State.compareOwn
  split
  · exact foldl_inv (P := State.memOk) (fun s k hs => State.compare_memOk hs _ _ _ _) _ _ (⟨w, h.2⟩ : State.memOk { s with mem := m })
  · exact ⟨w, h.2⟩

theorem State.writeTarget_memOk {s : State} (h : s.memOk) (wr : Option Writer) (t : Target) (w : List (Nat × Byte)) :
    (s.writeTarget wr t w).memOk := by
  cases t with
  | loc a => exact State.writeLocal_memOk h wr _
  | host a =>
    simp only [State.writeTarget]
    split
    · exact ⟨h.1, Mem.wf_writeAll h.2 _⟩
    · exact h
  | peer _ _ => exact h

/-! ### Boards put back, with their records -/

theorem State.setBoard_memOk {s : State} (h : s.memOk) (b : Board) : (s.setBoard b).memOk := by
  unfold State.memOk at *
  simpa using h

theorem State.writeRecord_memOk {s : State} (h : s.memOk) (b : Board) (f : Freeze) : (s.writeRecord b f).memOk := by
  unfold State.writeRecord
  exact State.ownMem_memOk (by exact h) _ _ (Mem.wf_record h.1 _ b f)

theorem State.updateRecord_memOk {s : State} (h : s.memOk) (b : Board) : (s.updateRecord b).memOk := by
  unfold State.updateRecord
  split
  · exact h
  · exact State.ownMem_memOk (by exact h) _ _ (Mem.wf_write (Mem.wf_write (Mem.wf_write (Mem.wf_writeAll (Mem.wf_splice h.1 .nil) _) _ _) _ _) _ _)

theorem State.spill_memOk {s : State} (h : s.memOk) (b : Board) : (s.spill b).memOk :=
  State.ownMem_memOk h _ _ (Mem.wf_writes _ _ _ h.1)

theorem State.putBoard_memOk {s : State} (h : s.memOk) (b : Board) : (s.putBoard b).memOk :=
  State.updateRecord_memOk (s.setBoard_memOk h b) b

end Sys2Proof.Machine
end

