-- ==== Sys2Proof/Laws/Results.lean ====
section
/-!
SUPPORT. Values and flags of the active lanes, masks made of a predicate, and what a meaning of the vector slot needs to be shown to give its
result: the forms of Safety for a meaning over `State.vec` or `Board.outM`.
-/
namespace Sys2Proof.Machine

theorem laneAt_tab (f : Nat → Word) (l : Nat) (h : l < 128) : laneAt (tab 128 f) l = f l := by
  simp [laneAt, tab, h]

theorem laneAt_lanesOf (f : Nat → Word) (l : Nat) (h : l < 128) : laneAt (lanesOf f) l = f l := laneAt_tab f l h

theorem laneAt_mergeLanes (m : Mask) (new old : Lanes) (l : Nat) (h : l < 128) :
    laneAt (mergeLanes m new old) l = if m.getLsbD l then laneAt new l else laneAt old l :=
  laneAt_tab (fun l => if m.getLsbD l then laneAt new l else laneAt old l) l h

/-- The flags of several results are those that some result raises. -/
theorem allFlags_bit (rs : List Res) (k : Nat) : (allFlags rs).getLsbD k = true ↔ ∃ r ∈ rs, r.flags.getLsbD k = true := by
  have gen : ∀ (rs : List Res) (a : Word), (rs.foldl (fun a r => a ||| r.flags) a).getLsbD k = true ↔
      a.getLsbD k = true ∨ ∃ r ∈ rs, r.flags.getLsbD k = true := by
    intro rs
    induction rs with
    | nil => simp
    | cons r t ih =>
      intro a
      simp only [List.foldl_cons, ih]
      simp [or_assoc]
  unfold allFlags
  rw [gen]
  simp

/-- Those of the active lanes. -/
theorem allFlags_active (s : State) (g : Nat → Res) (k : Nat) :
    (allFlags (s.active g)).getLsbD k = true ↔ ∃ l, l < 128 ∧ s.cur.mask.getLsbD l = true ∧ (g l).flags.getLsbD k = true := by
  rw [allFlags_bit]
  simp only [State.active, tab, List.mem_map, List.mem_range]
  constructor
  · rintro ⟨r, ⟨l, hl, rfl⟩, h⟩
    by_cases hm : s.cur.mask.getLsbD l
    · simp only [hm, if_true] at h
      exact ⟨l, hl, hm, h⟩
    · simp [hm] at h
  · rintro ⟨l, hl, hm, h⟩
    exact ⟨_, ⟨l, hl, rfl⟩, by simp [hm, h]⟩

theorem laneAt_active (s : State) (g : Nat → Res) (l : Nat) (h : l < 128) (m : s.cur.mask.getLsbD l = true) :
    laneAt ((s.active g).map (·.val)) l = (g l).val := by
  simp only [State.active, tab, List.map_map]
  have := laneAt_tab (fun l => (if s.cur.mask.getLsbD l then g l else { val := 0 }).val) l h
  simp only [tab] at this
  simp only [Function.comp_def]
  rw [this]
  simp [m]

theorem maskOf_bit (p : Nat → Bool) (l : Nat) (h : l < 128) : (maskOf p).getLsbD l = p l := by
  have gen : ∀ n k i, k < n → ((List.range' i n).foldr (fun l acc => 2 * acc + if p l then 1 else 0) 0).testBit k = p (i + k) := by
    intro n
    induction n with
    | zero => intro k i h; omega
    | succ n ih =>
      intro k i h
      simp only [List.range'_succ, List.foldr_cons]
      cases k with
      | zero => cases p i <;> simp [Nat.testBit_zero, Nat.add_mod]
      | succ k =>
        have := ih k (i + 1) (by omega)
        rw [← Nat.testBit_div_two]
        rw [show (2 * ((List.range' (i + 1) n).foldr (fun l acc => 2 * acc + if p l then 1 else 0) 0) + if p i then 1 else 0) / 2
          = (List.range' (i + 1) n).foldr (fun l acc => 2 * acc + if p l then 1 else 0) 0 by split <;> omega]
        rw [this]
        congr 1
        omega
  have := gen 128 l 0 h
  simp only [maskOf, BitVec.getLsbD_ofNat, List.range_eq_range', h, decide_true, Bool.true_and]
  simpa using this

/-! ### The forms of a vector result -/

theorem givesFloat_of_vec {s : State} {b : Board} {i : Instr} {d : Opd} {lat : Nat} {f : Nat → Res} (g : Board → Nat → Res)
    (h : exec i s = onBoard s i fun b => s.vec b d lat (g b)) (e : ∀ l, l < 128 → g (s.noted b i) l = f l) : givesFloat s b i d lat f := by
  intro hc
  rw [h, onBoard_clear hc]
  refine ⟨_, _, rfl, fun l hl hm => ?_, fun k => ?_⟩
  · rw [laneAt_active s _ l hl hm, e l hl]
  · rw [allFlags_active]
    constructor <;> (rintro ⟨l, hl, hm, h⟩; refine ⟨l, hl, hm, ?_⟩; have := e l hl; simp_all)

/-- Where no active lane raises a flag, the flags that leave with the result are 0. -/
theorem flags_zero {s : State} {fl : Word} {f : Nat → Word} (h : s.raisesIn fl f) (z : ∀ l, l < 128 → f l = 0) : fl = 0 := by
  apply BitVec.eq_of_getLsbD_eq
  intro k _
  rw [Bool.eq_iff_iff, h k]
  constructor
  · rintro ⟨l, hl, _, hk⟩
    rwa [z l hl] at hk
  · simp

theorem givesLanes_of_vec {s : State} {b : Board} {i : Instr} {d : Opd} {lat : Nat} {f : Nat → Word} (g : Board → Nat → Res)
    (h : exec i s = onBoard s i fun b => s.vec b d lat (g b)) (e : ∀ l, l < 128 → (g (s.noted b i) l).val = f l)
    (z : ∀ l, l < 128 → (g (s.noted b i) l).flags = 0) : givesLanes s b i d lat f := by
  intro hc
  obtain ⟨v, fl, h1, h2, h3⟩ := givesFloat_of_vec g h (fun _ _ => rfl) hc
  rw [flags_zero h3 z] at h1
  exact ⟨v, h1, fun l hl hm => by rw [h2 l hl hm, e l hl]⟩

theorem givesBits_of_vec {s : State} {b : Board} {i : Instr} {d : Opd} {lat : Nat} {f : Nat → Nat → Bool} (g : Board → Nat → Res)
    (h : exec i s = onBoard s i fun b => s.vec b d lat (g b))
    (e : ∀ l k, l < 128 → k < 32 → (g (s.noted b i) l).val.getLsbD k = f l k)
    (z : ∀ l, l < 128 → (g (s.noted b i) l).flags = 0) : givesBits s b i d lat f := by
  intro hc
  obtain ⟨v, fl, h1, h2, h3⟩ := givesFloat_of_vec g h (fun _ _ => rfl) hc
  rw [flags_zero h3 z] at h1
  exact ⟨v, h1, fun l k hl hm hk => by rw [h2 l hl hm, e l k hl hk]⟩

theorem givesMask_of_outM {s : State} {b : Board} {i : Instr} {d : BitVec 3} {lat : Nat} {p : Nat → Bool} (g : Board → Nat → Bool)
    (h : exec i s = onBoard s i fun b => s.put (b.outM s.cur.slotB s.cur.mask d lat (maskOf (g b)) 0))
    (e : ∀ l, l < 128 → g (s.noted b i) l = p l) : givesMask s b i d lat p := by
  intro hc
  rw [h, onBoard_clear hc]
  exact ⟨_, rfl, fun l hl _ => by rw [maskOf_bit _ _ hl, e l hl]⟩

end Sys2Proof.Machine
end

