-- ==== Sys2Proof/Tests/Slice0.lean ====
section
/-!
SUPPORT. Tests: words of the spec's encodings, ill-formed operands, steps on small states, and a witness for the hypotheses of every statement.
-/
namespace Sys2Proof.Tests
open Sys2Proof.Machine

/-! ### Encodings, from the tables of 05 -/

/-- A register, a special and an immediate in an operand field (05 R92). -/
def fv (n : BitVec 6) : BitVec 11 := 0#2 ++ 0#3 ++ n
def fx (n : BitVec 6) : BitVec 11 := 0#2 ++ 0#2 ++ 1#1 ++ n
def fs (n : BitVec 9) : BitVec 11 := 1#2 ++ n
def fp (n : BitVec 9) : BitVec 11 := 2#2 ++ n
def fi (n : BitVec 9) : BitVec 11 := 3#2 ++ n

/-- The vector slot's V3 form (05 R95). -/
def wV (op : BitVec 7) (d : BitVec 11) (a : BitVec 11 := 0) (b : BitVec 11 := 0) (c : BitVec 11 := 0) (rm : BitVec 2 := 0)
    (sat : BitVec 1 := 0) (fa : BitVec 4 := 0) (fb : BitVec 4 := 0) : SlotWord :=
  .vec (0#2 ++ fb ++ fa ++ sat ++ rm ++ c ++ b ++ a ++ d ++ op)

/-- The memory slot's M form (05 R97). -/
def wM (op : BitVec 7) (d : BitVec 11) (br : BitVec 5) (x : BitVec 11) (peg : BitVec 4) (sub : BitVec 4) (sc : BitVec 4) (off : BitVec 18) :
    SlotWord := .mem (off ++ sc ++ sub ++ peg ++ x ++ br ++ d ++ op)

/-- The memory slot's MA form. -/
def wA (op : BitVec 7) (d : BitVec 11) (br : BitVec 5) (x : BitVec 11) (peg : BitVec 4) (sub : BitVec 4) (sc : BitVec 4) (a : BitVec 11)
    (wd : BitVec 1) (off : BitVec 6) : SlotWord := .mem (off ++ wd ++ a ++ sc ++ sub ++ peg ++ x ++ br ++ d ++ op)

/-- The memory slot's MF form. -/
def wF (op : BitVec 7) (pa pb : BitVec 2) (sub sc : BitVec 4) : SlotWord :=
  .mem (0#18 ++ sc ++ sub ++ 0#27 ++ pb ++ pa ++ op)

/-- The copy/matrix slot (05 R100). -/
def wX (op : BitVec 7) (f : BitVec 11 := 0) (u : BitVec 9 := 0) (t : BitVec 5 := 0) (peg : BitVec 4 := 0) (sub : BitVec 4 := 0)
    (g : BitVec 11 := 0) (br : BitVec 5 := 0) (fl : BitVec 8 := 0) : SlotWord :=
  .cmx (fl ++ br ++ g ++ sub ++ peg ++ t ++ u ++ f ++ op)

/-- The control slot's register form and its forms with bit 31 zero (05 R102, R103). -/
def wR (fn : BitVec 4) (d a b : BitVec 9) : SlotWord := .ctl (1#1 ++ fn ++ d ++ a ++ b)
def wI (op : BitVec 6) (d a : BitVec 9) (i : BitVec 7) : SlotWord := .ctl (0#1 ++ i ++ a ++ d ++ op)
def wB (op : BitVec 6) (off : BitVec 25) : SlotWord := .ctl (0#1 ++ off ++ op)
def wC (op : BitVec 6) (r : BitVec 9) (off : BitVec 16) : SlotWord := .ctl (0#1 ++ off ++ r ++ op)
def wP (op : BitVec 6) (pd pa pb : BitVec 8) : SlotWord := .ctl (0#2 ++ pb ++ pa ++ pd ++ op)
def wS (op : BitVec 6) (d : BitVec 9) (sys : BitVec 12) : SlotWord := .ctl (0#5 ++ sys ++ d ++ op)
def wG (g : BitVec 6) (k opr : BitVec 2) (a : BitVec 9) : SlotWord := .ctl (0#7 ++ a ++ opr ++ k ++ g ++ 0x0C#6)
def wL (op : BitVec 6) (a : BitVec 9) (peg : BitVec 4) : SlotWord := .ctl (0#13 ++ peg ++ a ++ op)

abbrev reads (t : List (SlotWord × Instr)) : Prop := t.map (fun p => decodeSlot p.1) = t.map fun p => .ok p.2

/-- 05 R96: moves, binary32 and transcendental instructions. -/
theorem test_decode_float : reads [
  (wV 0x01 (fv 1) (fx 2), .mov (.v false 1) (.v true 2)),
  (wV 0x03 (fp 0) (fs 511) (fi 256) (fp 15), .sel .nil (.s 511) (.imm 256) 7),
  (wV 0x08 (fv 1) (fv 2) (fp 4) 0 1, .fadd (.v false 1) (.v false 2) (.dv 3) .rz),
  (wV 0x09 (fv 1) (fv 2) (fv 3) 0 2, .fsub (.v false 1) (.v false 2) (.v false 3) .rd),
  (wV 0x0A (fv 1) (fv 2) (fv 3) 0 3, .fmul (.v false 1) (.v false 2) (.v false 3) .ru),
  (wV 0x0B (fv 1) (fv 2) (fv 3) (fv 4), .ffma (.v false 1) (.v false 2) (.v false 3) (.v false 4) .rn),
  (wV 0x0C (fv 1) (fv 2) (fv 3), .fmin (.v false 1) (.v false 2) (.v false 3)),
  (wV 0x0D (fv 1) (fv 2) (fv 3), .fmax (.v false 1) (.v false 2) (.v false 3)),
  (wV 0x0E (fv 1) (fv 2), .fabs (.v false 1) (.v false 2)),
  (wV 0x0F (fv 1) (fv 2), .fneg (.v false 1) (.v false 2)),
  (wV 0x10 (fp 9) (fv 2) (fv 3) 0 0 0 7, .fcmp 1 (.v false 2) (.v false 3) .uno),
  (wV 0x11 (fv 1) (fv 2), .fclass (.v false 1) (.v false 2)),
  (wV 0x18 (fv 1) (fv 2), .frcp (.v false 1) (.v false 2)),
  (wV 0x19 (fv 1) (fv 2), .frsq (.v false 1) (.v false 2)),
  (wV 0x1A (fv 1) (fv 2) 0 0 1, .fsqrt (.v false 1) (.v false 2) .rz),
  (wV 0x1B (fv 1) (fv 2), .fexp2 (.v false 1) (.v false 2)),
  (wV 0x1C (fv 1) (fv 2), .flog2 (.v false 1) (.v false 2)),
  (wV 0x1D (fv 1) (fv 2), .fsin (.v false 1) (.v false 2)),
  (wV 0x1E (fv 1) (fv 2), .fcos (.v false 1) (.v false 2)),
  (wV 0x1F (fv 1) (fv 2), .ftanh (.v false 1) (.v false 2)),
  (wV 0x20 (fv 1) (fv 2) (fv 3) 0 1 0 1, .hadd2 (.v false 1) (.v false 2) (.v false 3) .rz .f16),
  (wV 0x21 (fv 1) (fv 2) (fv 3) 0 0 0 2, .hsub2 (.v false 1) (.v false 2) (.v false 3) .rn .bf16),
  (wV 0x22 (fv 1) (fv 2) (fv 3) 0 0 0 1, .hmul2 (.v false 1) (.v false 2) (.v false 3) .rn .f16),
  (wV 0x23 (fv 1) (fv 2) (fv 3) (fv 4) 0 0 2, .hfma2 (.v false 1) (.v false 2) (.v false 3) (.v false 4) .rn .bf16),
  (wV 0x24 (fv 1) (fv 2) (fv 3) 0 0 0 1, .hmin2 (.v false 1) (.v false 2) (.v false 3) .f16),
  (wV 0x25 (fv 1) (fv 2) (fv 3) 0 0 0 2, .hmax2 (.v false 1) (.v false 2) (.v false 3) .bf16)] := rfl

/-- 05 R95, R96: MOVI, and the integer and logic instructions. -/
theorem test_decode_integer : reads [
  (.vec (0#3 ++ 0x12345678#32 ++ 0#11 ++ fv 9 ++ 0x02#7), .movi (.v false 9) 0x12345678),
  (wV 0x28 (fv 1) (fv 2) (fv 3) 0 0 1 0 1, .iadd (.v false 1) (.v false 2) (.v false 3) true true),
  (wV 0x29 (fv 1) (fv 2) (fv 3) 0 0 1, .isub (.v false 1) (.v false 2) (.v false 3) true false),
  (wV 0x2A (fv 1) (fv 2) (fv 3), .imul (.v false 1) (.v false 2) (.v false 3)),
  (wV 0x2B (fv 1) (fv 2) (fv 3) (fv 4), .imad (.v false 1) (.v false 2) (.v false 3) (.v false 4)),
  (wV 0x2C (fv 1) (fv 2) (fv 3) 0 0 0 0 1, .imulh (.v false 1) (.v false 2) (.v false 3) true),
  (wV 0x2D (fv 1) (fv 2) (fv 3), .imin (.v false 1) (.v false 2) (.v false 3) false),
  (wV 0x2E (fv 1) (fv 2) (fv 3) 0 0 0 0 1, .imax (.v false 1) (.v false 2) (.v false 3) true),
  (wV 0x2F (fp 8) (fv 2) (fv 3) 0 0 0 5 1, .icmp 0 (.v false 2) (.v false 3) .ge true),
  (wV 0x30 (fv 1) (fv 2) (fv 3), .and (.v false 1) (.v false 2) (.v false 3)),
  (wV 0x31 (fv 1) (fv 2) (fv 3), .or (.v false 1) (.v false 2) (.v false 3)),
  (wV 0x32 (fv 1) (fv 2) (fv 3), .xor (.v false 1) (.v false 2) (.v false 3)),
  (wV 0x33 (fv 1) (fv 2), .not (.v false 1) (.v false 2)),
  (wV 0x34 (fv 1) (fv 2) (fv 3), .shl (.v false 1) (.v false 2) (.v false 3)),
  (wV 0x35 (fv 1) (fv 2) (fv 3), .shr (.v false 1) (.v false 2) (.v false 3)),
  (wV 0x36 (fv 1) (fv 2) (fv 3), .sar (.v false 1) (.v false 2) (.v false 3)),
  (wV 0x37 (fv 1) (fv 2), .popc (.v false 1) (.v false 2)),
  (wV 0x38 (fv 1) (fv 2), .clz (.v false 1) (.v false 2)),
  (wV 0x39 (fv 1) (fv 2) (fv 3) (fv 4) 0 0 0 1, .bfe (.v false 1) (.v false 2) (.v false 3) (.v false 4) true),
  (wV 0x3A (fv 1) (fv 2) (fv 3) (fv 4), .bfi (.v false 1) (.v false 2) (.v false 3) (.v false 4)),
  (wV 0x3B (fv 1) (fv 2), .brev (.v false 1) (.v false 2))] := rfl

/-- 05 R96: conversions, exchange between lanes, votes and masks. The first word is that of 06 R128. -/
theorem test_decode_lanes : reads [
  (.vec 0x00E00000000802C0, .cvt (.v false 5) (.v false 2) .rn true .e4m3 .f32),
  (wV 0x41 (fv 1) (fv 2) 0 (fs 3) 1 1 5 1, .narrow (.v false 1) (.v false 2) 3 .rz true .e2m1 true),
  (wV 0x42 (fs 1) (fv 2) 0 0 0 0 4, .qscale 1 (.v false 2) .e5m2),
  (wV 0x48 (fv 1) (fv 2) (fv 3), .shflIdx (.v false 1) (.v false 2) (.v false 3)),
  (wV 0x49 (fv 1) (fv 2) (fv 3), .shflUp (.v false 1) (.v false 2) (.v false 3)),
  (wV 0x4A (fv 1) (fv 2) (fv 3), .shflDown (.v false 1) (.v false 2) (.v false 3)),
  (wV 0x4B (fv 1) (fv 2) (fv 3), .shflXor (.v false 1) (.v false 2) (.v false 3)),
  (wV 0x4C (fv 1) (fv 2) (fs 3), .bcast (.v false 1) (.v false 2) (.s 3)),
  (wV 0x4D (fv 1) (fv 2) (fp 6), .rot (.v false 1) (.v false 2) (.dc 1)),
  (wV 0x4E (fv 1) (fv 2) (fi 3) 0 0 0 5, .sort2 (.v false 1) (.v false 2) (.imm 3) .f32 true),
  (wV 0x50 (fv 1) (fv 2) 0 0 0 0 0xA 1, .scan (.v false 1) (.v false 2) .xor true),
  (wV 0x51 (fv 1) (fv 2) 0 0 0 0 4, .reduce (.v false 1) (.v false 2) .umin),
  (wV 0x52 (fs 1) (fp 10) 0 0 0 0 5, .vote 1 2 (.bal 3)),
  (wV 0x54 (fv 1) (fv 2) (fv 3), .hash (.v false 1) (.v false 2) (.v false 3)),
  (wV 0x58 (fp 9) (fp 10) (fp 11), .mand 1 2 3),
  (wV 0x59 (fp 9) (fp 10) (fp 11), .mor 1 2 3),
  (wV 0x5A (fp 9) (fp 10) (fp 11), .mxor 1 2 3),
  (wV 0x5B (fp 9) (fp 10) (fp 11), .mandn 1 2 3),
  (wV 0x5C (fp 9) (fp 10), .mnot 1 2),
  (wV 0x5D (fp 9) (fp 10), .mmov 1 2),
  (wV 0x5E (fp 9) (fs 2) (fi 64), .mlane 1 (.s 2) (.imm 64)),
  (wV 0x5F (fp 9) (fv 2), .mbal 1 (.v false 2))] := rfl

/-- 05 R98, R99. Words written as numbers stand in 07 R152, R157 and 12 R269. -/
theorem test_decode_memory : reads [
  (.mem 0x00103D2800040401, .ld (.v false 8) 1 (.v false 0) 64 (some 2) .w32 none),
  (wM 0x02 (fs 4) 1 (fv 2) 0 5 9 0x20000, .st (.s 4) 1 (.v false 2) 0x20000 none .w64 (some .system)),
  (wM 0x03 (fs 4) 1 (fs 2) 8 6 0 3, .ldu 4 1 (.s 2) 3 (some 0) .w128 (some .lane)),
  (wM 0x04 (fp 5) 1 (fi 2) 9 0 3 0, .stu (.dc 0) 1 (.imm 2) 0 (some 1) .w8 (some .core)),
  (wM 0x05 (fv 4) 0 (fv 2) 10 3 0 4, .lds (.v false 4) (.v false 2) 4 (some 2) .w16sx),
  (wM 0x06 (fi 4) 0 (fv 2) 0 2 0 4, .sts (.imm 4) (.v false 2) 4 none .w16),
  (wM 0x07 0 31 (fv 2) 0 1 0 4, .pref 31 (.v false 2) 4 true),
  (.mem 0x0001BC2800100388, .atom (.v false 7) (.v false 6) 4 (.v false 0) 0 (some 2) .add none false),
  (wA 0x09 0 4 (fv 2) 0 1 4 (fv 6) 1 0x3F, .red (.v false 6) 4 (.v false 2) 0x3F none .smin (some .bay) true),
  (wA 0x0A (fv 8) 0 (fv 2) 8 9 2 (fv 6) 0 1, .atoms (.v false 8) (.v false 6) (.v false 2) 1 (some 0) .cas .bent false),
  (wA 0x0B 0 0 (fv 2) 0 2 1 (fi 6) 0 1, .reds (.imm 6) (.v false 2) 1 none .smax .board false),
  (wA 0x0C (fs 8) 3 (fs 2) 8 8 9 (fs 6) 1 1, .atomu 8 (.s 6) 3 (.s 2) 1 (some 0) .exch (some .system) true),
  (wA 0x0D 0 3 (fs 2) 0 11 9 (fs 6) 0 1, .redu (.s 6) 3 (.s 2) 1 none .fmax (some .system) false),
  (wF 0x10 0 0 3 9, .fence .sc .system),
  (.mem 0x00000C0000000091, .fenceX .copy .board .acq .core),
  (.mem 0x000000010A040018, .brset 1 20),
  (wM 0x19 (fs 24) 3 0 0 0 0 0, .brget 3 24),
  (.mem 0x000000350A010F20, .watchArm 30 20 (some 5)),
  (wM 0x21 0 0 (fs 20) 0 0 0 0, .watchDisarm 20 none),
  (wM 0x22 (fs 8) 0 0 9 0 0 0, .ldtr 8 (some 1))] := rfl

/-- 05 R101. Words written as numbers stand in 08 R169, R178, 11 R239 and R253. -/
theorem test_decode_copy_matrix : reads [
  (wX 0x01 (fv 4) 0 0 9 2 (fv 0) 2, .cpa (.v false 4) (.v false 0) 2 .w16 (some 1)),
  (.cmx 0x0200002C00A00002, .cpb 40 2 2 (some 4)),
  (wX 0x03 0 40 0 8 4 0 0 0x7F, .cpr 40 .e5m2 0x7F (some 0)),
  (.cmx 0x0000000918C80608, .mma (.v false 12) 50 3 (some 1)),
  (wX 0x09 (fv 12) 50 31, .mmas (.v false 12) 50 31 none),
  (wX 0x10 0 0 7 15, .accClr 7 (some 7)),
  (wX 0x11 0 4 7, .accLd 4 7 none),
  (wX 0x12 0 4 7, .accSt 4 7 none),
  (wX 0x13 (fi 3) 0 7 8 0 (fv 5), .accRdv (.v false 5) (.imm 3) 7 (some 0)),
  (wX 0x14 (fv 5) 0 7 0 0 (fp 6), .accWrv (.v false 5) (.dc 1) 7 none),
  (wX 0x18 0 6, .setmpc 6),
  (wX 0x19 0 6 0 8 1, .cbtLd 6 true (some 0)),
  (wX 0x20 0 40, .routeCount 40 none),
  (wX 0x21 0 40, .routeXchg 40 none),
  (.cmx 0x0000000B00A00022, .routePlace 40 (some 3)),
  (wX 0x23 0 40, .routeScatter 40 none),
  (wX 0x24 0 40, .routeCombine 40 none),
  (.cmx 0x0002071B00A00025, .routeStat 7 40 .ldrop (some 3))] := rfl

/-- 05 R102: the uniform operations. -/
theorem test_decode_uniform : reads [
  (.ctl 0x8028160C, .sadd 10 11 12), (wR 1 1 2 3, .ssub 1 2 3), (wR 2 1 2 3, .smul 1 2 3), (wR 3 1 2 3, .smulh 1 2 3),
  (wR 4 1 2 3, .sand 1 2 3), (wR 5 1 2 3, .sor 1 2 3), (wR 6 1 2 3, .sxor 1 2 3), (wR 7 1 2 3, .sshl 1 2 3),
  (wR 8 1 2 3, .sshr 1 2 3), (wR 9 1 2 3, .ssar 1 2 3), (wR 10 1 2 3, .smin 1 2 3), (wR 11 1 2 3, .smax 1 2 3),
  (wR 12 1 2 3, .sminu 1 2 3), (wR 13 1 2 3, .smaxu 1 2 3), (wR 14 1 2 3, .sslt 1 2 3), (wR 15 511 256 3, .ssltu 511 256 3),
  (.ctl 0x01050290, .saddImm 10 10 1), (wI 0x11 1 2 3, .ssubImm 1 2 3), (wI 0x12 1 2 3, .smulImm 1 2 3),
  (wI 0x13 1 2 3, .smulhImm 1 2 3), (wI 0x14 1 2 3, .sandImm 1 2 3), (wI 0x15 1 2 3, .sorImm 1 2 3),
  (wI 0x16 1 2 3, .sxorImm 1 2 3), (wI 0x17 1 2 3, .sshlImm 1 2 3), (wI 0x18 1 2 3, .sshrImm 1 2 3),
  (wI 0x19 1 2 3, .ssarImm 1 2 3), (wI 0x1A 1 2 3, .sminImm 1 2 3), (wI 0x1B 1 2 3, .smaxImm 1 2 3),
  (wI 0x1C 1 2 3, .sminuImm 1 2 3), (wI 0x1D 1 2 3, .smaxuImm 1 2 3), (wI 0x1E 1 2 3, .ssltImm 1 2 3),
  (wI 0x1F 1 2 0x40, .ssltuImm 1 2 0x40),
  (.ctl (0#1 ++ 0xBEEF#16 ++ 9#9 ++ 0x29#6), .smovl 9 0xBEEF), (.ctl (0#1 ++ 0xBEEF#16 ++ 9#9 ++ 0x2A#6), .smovh 9 0xBEEF),
  (wP 0x2B 1 2 3, .dadd 1 2 3), (wP 0x2C 1 2 255, .dsub 1 2 255),
  (.ctl (0#1 ++ 0x1FF#9 ++ 2#8 ++ 1#8 ++ 0x2D#6), .daddi 1 2 0x1FF)] := rfl

/-- 05 R103, R104: the other control forms. Words written as numbers stand in 09 and 15 R327. -/
theorem test_decode_control : reads [
  (wB 0x01 0x1FFFFFF, .bra 0x1FFFFFF), (wC 0x02 7 0x8000, .brcNz 7 0x8000), (wC 0x03 7 4, .brcZ 7 4), (wP 0x04 0 9 0, .brx 9),
  (wB 0x05 16, .call 16), (.ctl 0x00000146, .calli (.v false 5)), (.ctl 0x07, .ret),
  (.ctl 0x01402288, .div 2 true 8 20), (.ctl 0x09, .join), (.ctl 0x7FFE850A, .loop 20 0xFFFD),
  (.ctl 0x0B, .exit), (.ctl 0x0000008C, .barAw .bent 2 0), (wG 5 1 1 0, .barArr .bay 5 0), (wG 5 1 2 7, .barWait .bay 5 7),
  (.ctl 0x0014E00C, .barInit .remote 0 20), (.ctl 0x0014200C, .barAw .remote 0 20), (wL 0x0D 8 9, .launch 8 (some 1)),
  (wL 0x0E 8 0, .launchG 8 none), (.ctl 0x0F, .trigger), (wB 0x20 4, .yield 4),
  (.ctl (0#20 ++ 15#4 ++ 3#2 ++ 0x21#6), .setix 3 15), (wS 0x22 6 0x003, .getsys 0x003 6), (wS 0x23 6 0x020, .setsys 0x020 6),
  (wS 0x24 6 0, .time 6), (wS 0x25 6 0, .tick 6), (.ctl (0#10 ++ 0xABCD#16 ++ 0x26#6), .trap 0xABCD), (.ctl 0x27, .eret),
  (.ctl 0x28, .nop)] := rfl

/-- 05 R90, R92, R98: opcode 0, an unassigned opcode, a reserved special and a reserved scope are turned away. -/
theorem test_decode_refuses :
    (decodeSlot (.vec 0)).toOption = none ∧ (decodeSlot (wV 0x04 (fv 1))).toOption = none ∧ (decodeSlot (wX 0x04)).toOption = none
    ∧ (decodeSlot (wV 0x01 (fv 1) (fp 7))).toOption = none ∧ (decodeSlot (wM 0x01 (fv 8) 1 (fv 0) 8 4 10 0)).toOption = none
    ∧ (decodeSlot (.ctl 0x2E)).toOption = none := ⟨rfl, rfl, rfl, rfl, rfl, rfl⟩

/-- 05, "Encoding one bundle": the header fields and the instructions of the worked bundle. -/
theorem test_decode_bundle :
    let w : BundleWord := 0x01050290#32 ++ 0#64 ++ 0x00103D2800040401#64 ++ 0x000003804004020B#64 ++ 0x000B2145#32
    slotsOf w = [.ffma (.v false 4) (.v false 1) (.dv 1) (.v false 3) .rn, .ld (.v false 8) 1 (.v false 0) 64 (some 2) .w32 none,
      .saddImm 10 10 1]
    ∧ (decodeBundle w).hdr.gap = 5 ∧ (decodeBundle w).hdr.wait = 0x0A ∧ (decodeBundle w).hdr.y = true := ⟨rfl, rfl, rfl, rfl⟩

/-! ### Well-formed and ill-formed terms -/

abbrev v1 : Opd := .v false 1
abbrev u2 : Opd := .s 2

/-- Each operand rule of the vector slot turns its ill-formed term away (06 R113, R123 to R132). -/
theorem test_wf_vector : ∀ i ∈ ([
  .mov (.imm 1) v1, .mov v1 .nil, .mov v1 (.m 1), .movi (.s 1) 5, .sel (.dv 1) v1 v1 0, .fadd v1 v1 .nil .rn, .ffma v1 v1 v1 (.m 0) .rn,
  .fcmp 0 .nil v1 .eq, .fsqrt (.dc 0) v1 .rn, .hadd2 v1 v1 v1 .rn .f32, .hfma2 v1 v1 v1 v1 .rn .e4m3, .hmin2 v1 v1 v1 .s8,
  .iadd v1 v1 v1 false true, .imad v1 v1 v1 .nil, .imulh (.imm 0) v1 v1 true, .icmp 0 v1 v1 .ord false, .bfe v1 v1 v1 .nil true,
  .cvt v1 v1 .rn false .e8m0 .f32, .cvt v1 v1 .rn false .f16 .e8m0, .cvt v1 v1 .rn false .cb2 .f32, .narrow v1 v1 0 .rn false .f16 false,
  .qscale 0 v1 .f32, .qscale 0 .nil .e4m3, .bcast v1 v1 v1, .sort2 v1 v1 (.dv 0) .u32 false, .scan v1 .nil .iadd true,
  .mlane 0 v1 (.imm 4), .mbal 0 (.m 1)] : List Instr), i.wf = false := by decide

/-- The rules of the memory slot (07 R147 to R153, R157). -/
theorem test_wf_memory : ∀ i ∈ ([
  .ld .nil 0 v1 0 (some 0) .w32 none, .ld v1 0 v1 0 none .w32 none, .ld v1 0 v1 0 (some 0) .w64 none, .ld v1 0 .nil 0 (some 0) .w32 none,
  .st v1 0 v1 0 none .w8sx none, .st (.v false 2) 0 v1 0 none .w128 none, .st (.imm 2) 0 v1 0 none .w64 none,
  .ldu 2 0 u2 0 (some 0) .w128 none, .ldu 2 0 v1 0 (some 0) .w32 none, .stu v1 0 u2 0 none .w32 none, .stu (.dc 0) 0 u2 0 none .w64 none,
  .lds v1 .nil 0 (some 0) .w32, .sts .nil v1 0 none .w32, .pref 0 .nil 0 true,
  .atom v1 v1 0 v1 0 none .add none false, .atom v1 v1 0 v1 0 (some 0) .add none true, .atom (.v false 2) v1 0 v1 0 (some 0) .add none true,
  .atom v1 v1 0 v1 0 (some 0) .fadd none true, .red v1 0 v1 0 none .cas none false, .atoms v1 v1 v1 0 (some 0) .add .core false,
  .reds v1 v1 0 none .cas .bent false, .reds v1 v1 0 none .add .system false, .atomu 2 v1 0 u2 0 (some 0) .add none false,
  .redu (.s 3) 0 u2 0 none .add none true, .brset 0 2, .brget 0 6, .watchArm 0 3 (some 0), .watchArm 0 2 none, .ldtr 4 (some 0),
  .ldtr 8 none] : List Instr), i.wf = false := by decide

/-- The rules of the copy/matrix and control slots (08, 09 R198, R201, R208, R209). -/
theorem test_wf_copy_matrix_control : ∀ i ∈ ([
  .cpa .nil v1 0 .w4 none, .cpb 3 1 0 none, .cpb 2 0 0 none, .cpb 2 1 0x0A none, .cpr 3 .f32 0 none, .cpr 2 .e2m1 0 none, .mma u2 2 0 none,
  .mmas v1 3 0 none, .accLd 3 0 none, .accSt 5 0 none, .accRdv u2 u2 0 (some 0), .accRdv v1 u2 0 none, .accRdv v1 v1 0 (some 0),
  .accWrv v1 v1 0 none, .setmpc 3, .cbtLd 5 false none, .routePlace 41 none, .routeStat 0 3 .kept (some 0), .routeStat 0 2 .kept none,
  .calli u2, .barAw .bent 16 0, .barAw .bent 0 1, .barArr .bay 0 1, .barWait .remote 0 3, .barInit .remote 1 2, .launch 3 none, .launchG 5 none,
  .getsys 0x014 0, .getsys 0x000 64, .getsys 0x003 5, .setsys 0x003 4, .setsys 0x014 4, .time 3, .tick 5] : List Instr), i.wf = false := by
  decide

/-- Operands at the edges of their ranges are well-formed. -/
theorem test_wf_edges : ∀ i ∈ ([
  .mov .nil (.imm 0x100), .ld (.v true 60) 31 (.dv 3) 0x20000 (some 7) .w128 (some .system), .ldu 508 0 (.dc 1) 0 (some 0) .w128 none,
  .atom (.v false 62) (.s 510) 0 v1 0x20 (some 0) .cas none true, .getsys 0x000 63, .getsys 0x031 510, .barAw .bay 63 0, .barAw .bent 15 0,
  .barInit .remote 0 510, .ldtr 504 (some 0), .cpb 510 3 0x15 none] : List Instr), i.wf = true := by decide

/-! ### A small state on which the instructions of the slots complete -/

/-- A board alone in its bent: registers that hold what targets and operand groups need, one JOIN entry, and privilege. -/
def wBoard : Board :=
  { id := 3
    env := { ctx := 1, grid := 1, bent := 2, place := 1, acc := 32, scr := 1024, cbud := 64, codebase := 0x1000, nbun := 0x10000, gridid := 1 }
    v := [List.replicate 128 0, List.replicate 128 0x11], s := [0x1001, 0, 1, 0, 0, 0, 1, 0, 1], m := [5, 0]
    pegs := List.replicate 8 {}, ix := [0, 0, 0, 0], priv := true
    slotA := { path := some ⟨0x1000, allLanes⟩ }, stack := [joinEntry 0x1000 allLanes false], lanesLeft := allLanes }

def wCtx : Ctx :=
  { ctxid := 1, fn := 0, window := 0, root := BitVec.ofNat 64 probeRoot, dsbase := 0x200000, savebase := 0x400000, savesz := 0x1C000000
    frames := [0], reach := 1 }

def wBent : Bent := { uid := 2, grid := 1, idx := 0, cores := [0], slots := [0], boards := [3], gates := List.replicate 16 { target := some 1 } }

/-- Memory: one page of 1 GiB, and a code object whose one kernel is a callee at its first bundle (14 R303, R304). -/
def wMem : Mem := (probeTables.write 0x1FFC0 (leBytes 8 0x1000000000000 ++ leBytes 8 0x30000)).write 0x30000 (leBytes 8 0x8000100000000)

def w0 : State :=
  { State.reset with
    rails := true, linkUp := true, ctrl := true, synced := true, ctxs := [wCtx], grids := [probeGrid], bents := [wBent], bd := some wBoard
    cur := { pc := 0x1000, mask := allLanes, y := true }, mem := wMem, nextUid := 4 }

theorem clear_of (s : State) (b : Board) (is : List Instr) (h : s.bd = some b)
    (h' : (is.all fun i => (judge s b i).isNone) = true) : ∀ i ∈ is, s.clear b i := by
  intro i hi
  exact ⟨h, Option.isNone_iff_eq_none.mp (List.all_eq_true.mp h' i hi)⟩

abbrev v0 : Opd := .v false 0
abbrev x63 : Opd := .v true 63
abbrev u4 : Opd := .s 4


theorem witness_MovesAndSelectsComplete : ∀ i ∈ ([.mov x63 (.imm 0x100), .movi .nil 0xFFFFFFFF, .sel v0 v1 (.dc 1) 7] : List Instr),
    w0.clear wBoard i := clear_of _ _ _ rfl (by decide)

theorem witness_IntegerArithmeticCompletes : ∀ i ∈ ([.iadd v0 v0 x63 false true, .isub v0 v0 v0 false false, .iadd v0 v0 v0 true true, .isub v0 v0 v0 true true, .iadd v0 v0 v0 true false,
    .isub v0 v0 v0 true false, .imul v0 v0 v0, .imad v0 v0 v0 v0, .imulh v0 v0 v0 true, .imulh v0 v0 v0 false, .imin v0 v0 v0 true, .imax v0 v0 v0 false,
    .icmp 7 v0 v0 .ge true] : List Instr),
    w0.clear wBoard i := clear_of _ _ _ rfl (by decide)

theorem witness_LogicAndShiftsComplete : ∀ i ∈ ([.and v0 v0 v0, .or v0 v0 v0, .xor v0 v0 v0, .not v0 v0, .shl v0 v0 (.imm 31), .shr v0 v0 (.imm 32), .sar v0 v0 (.imm 0x1FF)] : List Instr),
    w0.clear wBoard i := clear_of _ _ _ rfl (by decide)

theorem witness_BitFieldsComplete : ∀ i ∈ ([.popc v0 v0, .clz v0 v0, .brev v0 v0, .bfe v0 v0 (.imm 31) (.imm 1) true, .bfe v0 v0 (.imm 32) v0 false, .bfi v0 v0 v0 v0] : List Instr),
    w0.clear wBoard i := clear_of _ _ _ rfl (by decide)

theorem witness_Binary32Completes : ∀ i ∈ ([.fadd v0 v0 v0 .ru, .fsub v0 v0 v0 .rn, .fmul v0 v0 v0 .rz, .ffma v0 v0 v0 v0 .rd, .fmin v0 v0 v0, .fmax v0 v0 v0, .fabs v0 v0, .fneg v0 v0,
    .fcmp 7 v0 v0 .uno, .fclass v0 v0] : List Instr),
    w0.clear wBoard i := clear_of _ _ _ rfl (by decide)

theorem witness_TranscendentalsComplete : ∀ i ∈ ([.frcp v0 v0, .frsq v0 v0, .fexp2 v0 v0, .flog2 v0 v0, .fsin v0 v0, .fcos v0 v0, .ftanh v0 v0, .fsqrt v0 v0 .ru] : List Instr),
    w0.clear wBoard i := clear_of _ _ _ rfl (by decide)

theorem witness_PackedHalvesComplete : ∀ i ∈ ([.hadd2 v0 v0 v0 .rn .f16, .hsub2 v0 v0 v0 .rn .bf16, .hmul2 v0 v0 v0 .rn .f16, .hfma2 v0 v0 v0 v0 .rn .bf16, .hmin2 v0 v0 v0 .f16,
    .hmax2 v0 v0 v0 .bf16] : List Instr),
    w0.clear wBoard i := clear_of _ _ _ rfl (by decide)

theorem witness_ConversionsComplete : ∀ i ∈ ([.cvt v0 v0 .rn true .e4m3 .f32, .cvt v0 v0 .rn false .f32 .e8m0, .narrow .nil v0 511 .rn false .e2m1 true, .narrow x63 v0 0 .rz true .e4m3 false, .qscale 511 v0 .e5m2] : List Instr),
    w0.clear wBoard i := clear_of _ _ _ rfl (by decide)

theorem witness_LaneExchangeCompletes : ∀ i ∈ ([.shflIdx v0 v0 v0, .shflUp v0 v0 v0, .shflDown v0 v0 v0, .shflXor v0 v0 v0, .bcast v0 v0 (.imm 127), .rot v0 v0 (.dc 0),
    .sort2 v0 v0 (.imm 0x7E) .f32 true, .sort2 v0 v0 (.imm 0) .u32 false] : List Instr),
    w0.clear wBoard i := clear_of _ _ _ rfl (by decide)

theorem witness_ScansComplete : ∀ i ∈ ([.scan v0 v0 .fadd true, .scan v0 v0 .xor false, .reduce v0 v0 .umin] : List Instr),
    w0.clear wBoard i := clear_of _ _ _ rfl (by decide)

theorem witness_VotesAndHashComplete : ∀ i ∈ ([.vote 511 7 .any, .vote 0 0 .all, .vote 0 0 (.bal 3), .vote 0 0 .count, .vote 0 0 .first, .hash v0 v0 v0] : List Instr),
    w0.clear wBoard i := clear_of _ _ _ rfl (by decide)

theorem witness_MaskLogicCompletes : ∀ i ∈ ([.mand 7 0 0, .mor 0 0 0, .mxor 0 0 0, .mandn 0 0 0, .mnot 0 0, .mmov 0 7, .mlane 0 (.imm 0) (.imm 128), .mbal 0 v0] : List Instr),
    w0.clear wBoard i := clear_of _ _ _ rfl (by decide)

theorem witness_UniformOperationsComplete : ∀ i ∈ ([.sadd 511 0 0, .saddImm 0 0 0x40, .ssub 0 0 0, .ssubImm 0 0 0, .smul 0 0 0, .smulImm 0 0 0, .smulh 0 0 0, .smulhImm 0 0 0, .sand 0 0 0,
    .sandImm 0 0 0, .sor 0 0 0, .sorImm 0 0 0, .sxor 0 0 0, .sxorImm 0 0 0, .sshl 0 0 0, .sshlImm 0 0 31, .sshr 0 0 0, .sshrImm 0 0 32, .ssar 0 0 0,
    .ssarImm 0 0 0, .smin 0 0 0, .sminImm 0 0 0, .smax 0 0 0, .smaxImm 0 0 0, .sminu 0 0 0, .sminuImm 0 0 0, .smaxu 0 0 0, .smaxuImm 0 0 0, .sslt 0 0 0,
    .ssltImm 0 0 0, .ssltu 0 0 0, .ssltuImm 0 0 0] : List Instr),
    w0.clear wBoard i := clear_of _ _ _ rfl (by decide)

theorem witness_UniformMovesAndPairsComplete : ∀ i ∈ ([.smovl 511 0xFFFF, .smovh 0 0, .dadd 255 0 0, .dsub 0 255 0, .daddi 0 0 0x100] : List Instr),
    w0.clear wBoard i := clear_of _ _ _ rfl (by decide)

theorem witness_StackInstructionsComplete : ∀ i ∈ ([.calli v0, .ret, .join, .exit] : List Instr),
    w0.clear wBoard i := clear_of _ _ _ rfl (by decide)

theorem witness_GateInstructionsComplete : ∀ i ∈ ([.barAw .bent 15 0, .barAw .remote 0 0, .barAw .bay 63 0, .barArr .bent 0 0, .barArr .remote 0 0, .barWait .bent 0 2, .barWait .bay 0 511,
    .barWait .remote 0 0, .barInit .bent 15 2, .barInit .bay 0 2, .barInit .remote 0 0] : List Instr),
    w0.clear wBoard i := clear_of _ _ _ rfl (by decide)

theorem witness_WorkInstructionsComplete : ∀ i ∈ ([.launch 0 (some 7), .launchG 510 none, .trigger, .yield 0x1FFFFFF] : List Instr),
    w0.clear wBoard i := clear_of _ _ _ rfl (by decide)

theorem witness_SystemInstructionsComplete : ∀ i ∈ ([.setix 3 15, .getsys 0x031 510, .getsys 0x001 511, .getsys 0x000 63, .setsys 0x020 0, .setsys 0x021 511, .time 510, .tick 0, .nop] : List Instr),
    w0.clear wBoard i := clear_of _ _ _ rfl (by decide)

theorem witness_LoadsAndStoresIssue : ∀ i ∈ ([.ld (.v false 60) 31 x63 0x20000 (some 7) .w128 (some .system), .st (.s 510) 0 v0 0x1FFFF none .w64 none, .ldu 508 0 u4 0 (some 0) .w128 none,
    .stu (.dc 1) 0 (.imm 0) 0 none .w8 none, .lds v0 v0 0 (some 0) .w8sx, .sts (.imm 1) v0 0 none .w16] : List Instr),
    w0.clear wBoard i := clear_of _ _ _ rfl (by decide)

theorem witness_AtomicsIssue : ∀ i ∈ ([.atom v0 v0 31 v0 0x20 (some 7) .cas none true, .red v0 0 v0 0 none .fmax none false, .atoms v0 v0 v0 0 (some 0) .add .bent false,
    .reds v0 v0 31 none .xor .lane true, .atomu 510 u4 0 u4 0 (some 0) .exch (some .system) true, .redu u4 0 u4 0 none .fadd none false] : List Instr),
    w0.clear wBoard i := clear_of _ _ _ rfl (by decide)

theorem witness_OtherMemoryInstructionsComplete : ∀ i ∈ ([.pref 31 v0 0 true, .brset 31 508, .brget 0 508, .fence .ar .lane, .fence .sc .system, .fenceX .route .copy .ar .system, .watchArm 511 510 (some 7),
    .watchDisarm 511 none, .ldtr 504 (some 0)] : List Instr),
    w0.clear wBoard i := clear_of _ _ _ rfl (by decide)

theorem witness_EngineCommandsAreAccepted : ∀ i ∈ ([.cpa v0 v0 31 .w16 (some 7), .cpb 2 1 0 none, .cpr 2 .s32 0x7F none, .mma v1 12 31 none, .mmas v1 12 0 (some 0), .accClr 31 none, .accLd 12 0 none,
    .accSt 12 31 none, .accRdv v0 u4 0 (some 0), .accWrv v0 (.imm 127) 0 none, .setmpc 510, .cbtLd 0 true none, .routeCount 12 none, .routeXchg 6 none,
    .routePlace 6 none, .routeScatter 12 none, .routeCombine 12 none, .routeStat 511 12 .total none, .routeStat 0 12 .lkept (some 7)] : List Instr),
    w0.clear wBoard i := clear_of _ _ _ rfl (by decide)


/-! ### Witnesses for the statements with more hypotheses -/

theorem witness_BranchesRedirect :
    (∀ i ∈ ([.bra 0xFFFF, .brx 0, .brcNz 0 1, .brcZ 1 1, .brcNz 1 1, .brcZ 0 1, .loop 0 1, .loop 2 1] : List Instr), w0.clear wBoard i)
    ∧ wBoard.sreg 0 ≠ 0 ∧ wBoard.sreg 1 = 0 ∧ 1 < (wBoard.sreg 0).toNat ∧ (wBoard.sreg 2).toNat = 1 ∧ w0.cur.done = false :=
  ⟨clear_of _ _ _ rfl (by decide), by decide, by decide, by decide, by decide, rfl⟩

/-- Some lanes and not others hold the condition of m0; no lane that of m1, and every lane its negation. -/
theorem witness_DivSplitsLanes :
    (∀ i ∈ ([.div 0 false 0x1FF 1, .div 1 false 1 1, .div 1 true 1 0x3FF] : List Instr), w0.clear wBoard i)
    ∧ w0.cur.mask &&& wBoard.mreg 0 ≠ 0 ∧ w0.cur.mask &&& ~~~wBoard.mreg 0 ≠ 0 ∧ w0.cur.mask &&& wBoard.mreg 1 = 0
    ∧ w0.cur.mask &&& wBoard.mreg 1 = 0 :=
  ⟨clear_of _ _ _ rfl (by decide), by decide, by decide, by decide, by decide⟩

/-- A JOIN entry over a PATH entry; one lane of two has arrived. -/
def joinBoard : Board :=
  { wBoard with
    stack := [{ joinEntry 0x1000 3 true with arrived := 1 }, Path.entry ⟨0x1002, 4⟩], slotA := { path := some ⟨0x1000, 2⟩ } }

def joinState (m : Mask) : State := { w0 with bd := some joinBoard, cur := { pc := 0x1000, mask := m } }

theorem witness_JoinReconverges :
    (joinState 1).clear joinBoard .join ∧ (joinState 2).clear joinBoard .join ∧ joinBoard.spilled = 0
    ∧ (∃ e rest, joinBoard.stack = e :: rest ∧ e.arrived ||| 1 ≠ e.mask ∧ e.arrived ||| 2 = e.mask
      ∧ ∃ p t, rest = p :: t ∧ p.kind = kindPath) ∧ (joinBoard.slotOf true).path = none :=
  ⟨⟨rfl, by decide⟩, ⟨rfl, by decide⟩, rfl, ⟨_, _, rfl, by decide, by decide, _, _, rfl, by decide⟩, rfl⟩

/-- A board whose stack is `stk`, its path with lane 1 in slot A. -/
def stackBoard (stk : List StackEntry) : Board := { wBoard with stack := stk, slotA := { path := some ⟨0x1000, 2⟩ } }
def stackState (stk : List StackEntry) : State := { w0 with bd := some (stackBoard stk), cur := { pc := 0x1000, mask := 2 } }

/-- RET below a PATH entry, at a call whose lane 0 has not arrived, and at one whose lane 0 has, over a PATH entry and over none; a call of two groups. -/
theorem witness_StackInstructionsComplete_ret :
    let e : StackEntry := joinEntry 0x1000 3 true
    let p : StackEntry := Path.entry ⟨0x1002, 4⟩
    (∀ stk ∈ ([[p, e], [e], [{ e with arrived := 1 }], [{ e with arrived := 1 }, p]] : List (List StackEntry)), (stackState stk).clear (stackBoard stk) .ret)
    ∧ e.kind = kindJoin ∧ p.kind = kindPath ∧ e.arrived ||| 2 ≠ e.mask ∧ (1 : Mask) ||| 2 = e.mask ∧ ((stackBoard [e]).slotOf true).path = none
    ∧ ((stackState [e]).calliGroups (stackBoard [e]) v0).length = 1
    ∧ (w0.calliGroups { wBoard with v := [[0, 0x10]] } v0).length = 2 := by
  refine ⟨?_, rfl, rfl, by decide, by decide, rfl, rfl, by decide⟩
  intro stk h
  simp only [List.mem_cons, List.not_mem_nil, or_false] at h
  rcases h with rfl | rfl | rfl | rfl <;> exact ⟨rfl, by decide⟩

/-- EXIT of lane 1: nothing is left on the stack; a PATH entry is; a JOIN entry waits for lane 0, is complete over a PATH entry, or is left empty. -/
theorem witness_StackInstructionsComplete_exit :
    let e : StackEntry := joinEntry 0x1000 3 true
    let p : StackEntry := Path.entry ⟨0x1002, 4⟩
    ∀ stk ∈ ([[Path.entry ⟨0x1002, 2⟩], [p], [e], [{ e with arrived := 1 }, p], [{ e with mask := 2 }]] : List (List StackEntry)),
      (stackState stk).clear (stackBoard stk) .exit := by
  intro e p stk h
  simp only [List.mem_cons, List.not_mem_nil, or_false] at h
  rcases h with rfl | rfl | rfl | rfl | rfl <;> exact ⟨rfl, by decide⟩

theorem witness_CallPushesItsJoin : w0.clear wBoard (.call 0xFFFF) := ⟨rfl, by decide⟩

theorem witness_SystemRegisterValues : w0.ctx? wBoard.env.ctx = some wCtx := rfl

theorem witness_DecodeOfEncode : (.routeStat 511 510 .offset (some 7) : Instr).wf = true
    ∧ slotNumOf (.routeStat 511 510 .offset (some 7)) < 4 := by decide

theorem witness_EncodeOfDecode : decodeSlot (.ctl 0x28) = .ok .nop := rfl

theorem witness_MemoryReadAfterWrite : Mem.wf [(0, 1), (5, 255)] = true := by decide

theorem witness_CanonicalMemoriesAreEqual : Mem.wf [(0, 1), (5, 255)] = true ∧ Mem.wf ((Mem.write [(5, 255)] 0 [2]).write 0 [1]) = true
    ∧ ∀ a, Mem.get [(0, 1), (5, 255)] a = ((Mem.write [(5, 255)] 0 [2]).write 0 [1]).get a := ⟨by decide, by decide, fun _ => rfl⟩

theorem witness_OperandsHaveTheirValues : ∀ j, (.dc 1 : Opd) ≠ .imm j := by intro j; nofun

/-- An earlier result of the same location, to land at the same tick, and one to land before. -/
theorem witness_ResultsLandInOrder :
    let f : PipeEntry := { dest := .s 511, slotB := false, lanes := allLanes, rem := 6 }
    (f.meets { f with rem := 6 } = true ∧ (f.rem < ({ f with rem := 7 } : PipeEntry).rem)) := by decide

/-- A result for each kind of register, landing in lanes 0 and 127 of the last register of two. -/
def landing (d : Dest) : PipeEntry :=
  { dest := d, slotB := false, lanes := 1 ||| 1 <<< 127, rem := 0, sval := 7, vals := List.replicate 128 9, flags := 0x20 }

def landingBoard : Board :=
  { wBoard with b := List.replicate 32 {}, pipe := [landing (.v 1), landing (.s 8), landing (.m 1), landing .mpc, landing (.sys true), landing (.pair 7), landing (.quad 5),
    landing (.b 31), landing .none, landing (.sys false)] }

/-- A NARROW's result with its scale word, a result at two latch entries that lands in the same tick, and one whose register lands later. -/
def latching (late : Nat) : PipeEntry := { landing (.v 1) with rem := late, late := late, dv := [(1 <<< 127, 4)], dc := [(true, 2)] }
def latchBoard : Board := { wBoard with pipe := [{ landing (.v 1) with dest2 := some 8 }, latching 0, latching 3] }

theorem witness_LandingsWriteTheirRegister_latches :
    let s : State := { w0 with bd := none, boards := [latchBoard] }
    s.board? 3 = some latchBoard ∧ s.stands latchBoard = false ∧ s.ctx? latchBoard.env.ctx = some wCtx
    ∧ (∃ e, latchBoard.pipe[0]? = some e ∧ e.rem = 0 ∧ e.dest = .v 1 ∧ e.dest2 = some 8)
    ∧ latchBoard.pipe[1]? = some (latching 0) ∧ (latching 0).rem = 0 ∧ (latching 0).latched = false
    ∧ latchBoard.pipe[2]? = some (latching 3) ∧ (latching 3).rem ≠ 0 ∧ (latching 3).rem = (latching 3).late :=
  ⟨rfl, by decide, rfl, ⟨_, rfl, rfl, rfl, rfl⟩, rfl, rfl, rfl, rfl, by decide, rfl⟩

theorem witness_LandingsWriteTheirRegister :
    let s : State := { w0 with bd := none, boards := [landingBoard] }
    s.board? 3 = some landingBoard ∧ s.stands landingBoard = false ∧ s.ctx? landingBoard.env.ctx = some wCtx
    ∧ (∀ k, k < 10 → ∃ e, landingBoard.pipe[k]? = some e ∧ e.rem = 0 ∧ e.dest2 = none)
    ∧ 1 < landingBoard.v.length ∧ 8 < landingBoard.s.length ∧ 1 < landingBoard.m.length ∧ 31 < landingBoard.b.length := by
  refine ⟨rfl, by decide, rfl, ?_, by decide, by decide, by decide, by decide⟩
  intro k hk
  match k, hk with
  | 0, _ => exact ⟨_, rfl, rfl, rfl⟩
  | 1, _ => exact ⟨_, rfl, rfl, rfl⟩
  | 2, _ => exact ⟨_, rfl, rfl, rfl⟩
  | 3, _ => exact ⟨_, rfl, rfl, rfl⟩
  | 4, _ | 5, _ | 6, _ | 7, _ | 8, _ | 9, _ => exact ⟨_, rfl, rfl, rfl⟩

theorem witness_JudgedTrapsAreTaken : ∃ t, judge w0 wBoard (.sort2 v0 v0 (.imm 7) .u32 false) = some t ∧ t.cls = 3 := ⟨_, rfl, rfl⟩

theorem wMem_wf : wMem.wf = true := by decide

theorem witness_TrapsFreezeTheBoard : w0.memOk ∧ w0.bd = some wBoard ∧ w0.ctx? wBoard.env.ctx = some wCtx
    ∧ ({ cls := 10, slot := 7, code := 0 } : Trap).cls < 256 := ⟨⟨wMem_wf, rfl⟩, rfl, rfl, by decide⟩

theorem witness_TrapInstructionFreezes : w0.clear wBoard (.trap 0xFFFF) ∧ w0.cur.done = false := ⟨⟨rfl, by decide⟩, rfl⟩

/-- Without privilege, and with it: an instruction that is judged. -/
theorem witness_PrivilegeIsChecked :
    ({ w0 with bd := some { wBoard with priv := false } } : State).bd = some { wBoard with priv := false }
    ∧ (w0.ctxOf wBoard.env.ctx).chkWindow = false ∧ wBoard.priv = true
    ∧ (judge w0 wBoard (.sort2 v0 v0 (.imm 7) .u32 false)).isSome = true := ⟨rfl, rfl, rfl, by decide⟩

theorem witness_EretReturns : wBoard.priv = true ∧ w0.clear wBoard .eret
    ∧ ∃ c, (({ w0 with bd := some (w0.noted wBoard .eret) } : State).release wBoard.id).bd = some c := ⟨rfl, ⟨rfl, by decide⟩, _, rfl⟩

/-- ACTION in the record of the board, edited by no one, by the host, and by the handler. -/
theorem witness_EretReturns_edits : w0.recordAt wBoard = 0x400000 ∧ w0.edits = [] ∧ w0.memOk
    ∧ ({ w0 with edits := [{ addr := 0x400002, dev := 0, host := some 1 }] } : State).actionOf wBoard = 0
    ∧ ({ w0 with edits := [{ addr := 0x400002, dev := 0, handler := some 1 }] } : State).actionOf wBoard = 1 :=
  ⟨rfl, rfl, ⟨wMem_wf, rfl⟩, by decide, by decide⟩

theorem witness_ResultInstructionsFrame : (∀ i ∈ ([.nop, .ssltu 511 0 0, .fadd v0 v0 v0 .rn, .setsys 0x021 0] : List Instr),
    w0.clear wBoard i ∧ givesResult i = true) ∧ ∃ t, exec .nop w0 = .next t :=
  ⟨fun i hi => ⟨clear_of w0 wBoard _ rfl (by decide) i hi, by revert i; decide⟩, _, rfl⟩

theorem witness_SlotInstructionsFrame : (∀ i ∈ ([.mmas v1 12 0 none, .exit, .ld v0 0 v0 0 (some 0) .w32 none, .hash v0 v0 v0] : List Instr),
    w0.clear wBoard i ∧ slotNumOf i < 4 ∧ actsAtOnce i = false) ∧ ∃ t, exec .nop w0 = .next t :=
  ⟨fun i hi => ⟨clear_of w0 wBoard _ rfl (by decide) i hi, by revert i; decide⟩, _, rfl⟩

/-- The greatest number of E2M1, and binary32's smallest subnormal and infinity. -/
theorem witness_ExactValuesRoundToThemselves : Fmt.e2m1.isFloat = true ∧ 7 < 2 ^ Fmt.e2m1.width ∧ Fmt.e2m1.isNaN 7 = false
    ∧ (∀ n, Fmt.e2m1.val 7 ≠ .inf n) ∧ Fmt.f32.isNaN 1 = false ∧ Fmt.f32.isNaN 0xFF800000 = false := by
  refine ⟨rfl, by decide, by decide, ?_, by decide, by decide⟩
  intro n h
  revert h
  cases n <;> decide

/-! ### Steps -/

/-- A program of one bundle whose control slot is NOP, and one whose control slot is an unassigned code. -/
def nopState : State := State.reset.withFetchWord 32 0x28
def badState : State := State.reset.withFetchWord 32 0x3F

set_option maxRecDepth 20000 in
theorem witness_StepRunsDecodedBundle_bundle : ∃ t b, nopState.present 3 = some (t, b) ∧ nopState.todo = nopState.issueFrom 0 false 3
    ∧ t.frontTrap b = none ∧ t.front b t.cur.pc = .bundle (ctlBundle 0x28)
    ∧ let t' : State := { t with bd := some (b.start ((ctlBundle 0x28).extractLsb' 5 8)) }
      t'.bundleSteps (b.start ((ctlBundle 0x28).extractLsb' 5 8)) (slotsOf (ctlBundle 0x28)) = [.nop]
      ∧ ∃ u, runSlots [.nop] (t'.leavePort 0 false 3 0 0) = .next u :=
  ⟨_, _, rfl, rfl, rfl, rfl, rfl, _, rfl⟩

set_option maxRecDepth 20000 in
theorem witness_StepRunsDecodedBundle_trap : ∃ t b f, badState.present 3 = some (t, b) ∧ badState.todo = badState.issueFrom 0 false 3
    ∧ t.frontTrap b = some f ∧ f.cls = 3 ∧ ∃ u, exec (trapInstr 3 f) (t.clearPort 0 false 3 0 0) = .next u :=
  ⟨_, _, _, rfl, rfl, rfl, rfl, _, rfl⟩

set_option maxRecDepth 20000 in
theorem witness_StepRunsDecodedBundle_event :
    let s : State := { State.reset with inputs := [⟨0, .powerOn {}⟩] }
    s.todo = .event (.powerOn {}) State.reset ∧ ∃ u, exec (.powerOn {}) State.reset = .next u := ⟨rfl, _, rfl⟩

set_option maxRecDepth 20000 in
theorem witness_StepsKeepMemoryCanonical : nopState.memOk ∧ ∃ t, step nopState = .next t := ⟨⟨by decide, rfl⟩, _, rfl⟩

/-! ### Worked examples of the spec -/

/-- Lanes of the result that left last; the value that left for a uniform register; and the board after a step. -/
def result (o : Out) : Lanes := match o with | .next s => ((s.bd.bind fun b => b.pipe.getLast?).map (·.vals)).getD [] | _ => []
def uniform (o : Out) : Nat := match o with | .next s => ((s.bd.bind fun b => b.pipe.getLast?).map (·.sval.toNat)).getD 0 | _ => 0
def after (o : Out) : Board := match o with | .next s => s.bd.getD wBoard | _ => wBoard

def withV (l : Lanes) : State := { w0 with bd := some { wBoard with v := [l, List.replicate 128 0x11] } }
def withS (l : List Word) : State := { w0 with bd := some { wBoard with s := l } }

/-- 04 R76 and 06 R128: 464.0 to E4M3 and binary16, and 65,520 to binary16. -/
theorem test_convert :
    (convert .e4m3 .f32 .rn false 0x43E80000).val = 0x7F ∧ (convert .e4m3 .f32 .rn true 0x43E80000).val = 0x7E
    ∧ (convert .f16 .f32 .rn false 0x43E80000).val = 0x5F40 ∧ (convert .f16 .f32 .rn false 0x477FF000).val = 0x7C00
    ∧ (convert .f16 .f32 .rn true 0x477FF000).val = 0x7BFF := by decide

/-- 15, the reduction of 1.0 and twice 2^-8 in BF16 in both orders. -/
theorem test_add_bf16 : (fAdd .bf16 .rn 0x3F80 0x3B80).val = 0x3F80 ∧ (fAdd .bf16 .rn 0x3B80 0x3B80).val = 0x3C00
    ∧ (fAdd .bf16 .rn 0x3F80 0x3C00).val = 0x3F81 := by decide

/-- 05 R93: the immediate −3 where a binary32 value is read, and its raw bits elsewhere. -/
theorem test_immediate : w0.fsrc wBoard (.imm 0x1FD) 5 = 0xC0400000 ∧ w0.src wBoard (.imm 0x1FD) 5 = 0xFFFFFFFD := by decide

set_option maxRecDepth 20000 in
/-- 06 R133: the tie at 2^24 + 1 rounds to even at each step. -/
theorem test_reduce : laneAt (result (exec (.reduce (.v false 5) v0 .fadd) (withV [0x4B800000, 0x3F800000, 0x3F800000]))) 127 = 0x4B800000 := by
  decide

theorem test_scan_exclusive : (result (exec (.scan (.v false 5) v0 .fadd true) (withV [0x4B800000, 0x3F800000, 0x3F800000]))).take 3
    = [0, 0x4B800000, 0x4B800000] := by decide

/-- 06 R132: the three stages that sort 5, 9, 4 and 7. -/
theorem test_sort2 :
    (result (exec (.sort2 (.v false 5) v0 (.imm 0x18) .u32 false) (withV [5, 9, 4, 7]))).take 4 = [5, 9, 7, 4]
    ∧ (result (exec (.sort2 (.v false 5) v0 (.imm 0x01) .u32 false) (withV [5, 9, 7, 4]))).take 4 = [5, 4, 7, 9]
    ∧ (result (exec (.sort2 (.v false 5) v0 (.imm 0x00) .u32 false) (withV [5, 4, 7, 9]))).take 4 = [4, 5, 7, 9] := by decide

/-- 04 R86, R87: a block of four times 1.25 and zeros to E2M1, without feedback and with it. -/
theorem test_narrow :
    let l : Lanes := [0x3FA00000, 0x3FA00000, 0x3FA00000, 0x3FA00000]
    (result (exec (.narrow (.v false 5) v0 9 .rn false .e2m1 false) (withV l))).take 5 = [6, 6, 6, 6, 0]
    ∧ (result (exec (.narrow (.v false 5) v0 9 .rn false .e2m1 true) (withV l))).take 5 = [6, 7, 6, 7, 0]
    ∧ uniform (exec (.qscale 9 v0 .e2m1) (withV l)) = 0x7F7F7F7D := by decide

/-- 04 R80 to R82: table B entry 18 under index 0x8512, eight weights before their scale. -/
theorem test_codebook : (List.range 8).map (cb2Of [] (List.replicate 18 0 ++ [0x0045F10A]) [0x12, 0x85])
    = [0xA, 1, 0xC, 0, 7, 3, 1, 2].map Fmt.e2m1.val := by decide

set_option maxRecDepth 20000 in
/-- 04 R85: the integer example, wrapping and saturating. -/
theorem test_matrix_integer :
    let a := fun (_ : Nat) => exInt 125 0
    let plus := fun (_ : Nat) => some (exInt 125 0)
    let minus := fun (_ : Nat) => some (exInt (-125) 0)
    intAcc ⟨false, 0x66⟩ a plus 2147000000 = (BitVec.ofInt 32 (-2146467296)).toNat
    ∧ intAcc ⟨false, 0x66⟩ a minus (BitVec.ofInt 32 (-2146467296)).toNat = 2147000000
    ∧ intAcc ⟨false, 0x266⟩ a plus 2147000000 = 2147483647 ∧ intAcc ⟨false, 0x266⟩ a minus 2147483647 = 2145983647 := by decide

/-- 07 R142, R143: loads of a clamped buffer of 400 bytes; lanes 84 and 127 lie past it. -/
theorem test_load_lanes :
    let r : BufRec := { img := 0xB908000000000064 <<< 64 ||| 0x20000000 }
    let q := resolveGlob r 124 4 ([0, 15, 16, 47, 48, 80, 83, 84, 127].map fun l => { lane := l, idx := l, off := 64 })
    q.lanes.map (fun l => (l.lane, l.va - 0x20000000)) = [(0, 64), (15, 124), (16, 128), (47, 252), (48, 256), (80, 384), (83, 396)]
    ∧ q.fail = none ∧ (linesOfLanes q.lanes).map (·.va) = [0x20000000, 0x20000080, 0x20000100, 0x20000180] := by decide

/-- 14 R297: a leaf of 2 MiB at level 1. -/
theorem test_translate :
    let tables : Mem := ((Mem.write [] (0x10000 + 8) (leBytes 8 0x20001)).write (0x20000 + 40) (leBytes 8 0x30001)).write (0x30000 + 24)
      (leBytes 8 (0x340200000 + 0xF))
    ({ w0 with mem := tables } : State).translate 1 0x8140671234 .w = .ok (.loc 0x340271234) := by rfl

/-- 02 R30: DIV at bundle 10, lanes 0 to 63 true. -/
theorem test_div :
    let b := after (exec (.div 0 false 10 20) { w0 with
      cur := { pc := 0x100A, mask := allLanes }, bd := some { wBoard with m := [0xFFFFFFFFFFFFFFFF], stack := [] } })
    b.slotA.path = some ⟨0x100B, ~~~0xFFFFFFFFFFFFFFFF⟩ ∧ b.slotB.path = some ⟨0x1014, 0xFFFFFFFFFFFFFFFF⟩
    ∧ b.stack.map (fun e => (e.pc, e.mask)) = [(0x101E, allLanes)] := by decide

/-- 09 R192, R193: SMULH, SSAR and SMOVH at the ends of their ranges, from the table's operations. -/
theorem test_uniform :
    uniform (exec (.smulh 5 0 1) (withS [0x80000000, 0x80000000])) = 0x40000000
    ∧ uniform (exec (.ssarImm 5 0 0x7F) (withS [0x80000000])) = 0xFFFFFFFF
    ∧ uniform (exec (.sshlImm 5 0 0x7F) (withS [0x80000000])) = 0
    ∧ uniform (exec (.smovh 0 0xBEEF) (withS [0x12345678])) = 0xBEEF5678
    ∧ uniform (exec (.daddi 2 0 0x1FF) (withS [0, 1])) = 0xFFFFFFFF := by decide

/-- 09 R195 and the LOOP example: s20 = 3 branches and leaves 2; 1 falls through and leaves 1. -/
theorem test_loop :
    let go := fun n => exec (.loop 0 0xFFFD) { withS [n] with cur := { pc := 0x1003, mask := allLanes } }
    uniform (go 3) = 2 ∧ (after (go 3)).slotA.path = some ⟨0x1000, allLanes⟩
    ∧ uniform (go 1) = 1 ∧ (after (go 1)).slotA.path = some ⟨0x1004, allLanes⟩ := by decide

/-- 06 R124, R126, R127: a clamp, shifts by 32 and more, and a field cut at bit 31. -/
theorem test_integer :
    (iSum false true false 0x7FFFFFFF 1).val = 0x7FFFFFFF ∧ (iSum false false false 0x7FFFFFFF 1).val = 0x80000000
    ∧ shiftL 1 32 = 0 ∧ shiftR 0x80000000 31 = 1 ∧ shiftA 0x80000000 0xFFFFFFFF = 0xFFFFFFFF
    ∧ bitExtract false 0x80000000 28 8 = 0xFFFFFFF8 ∧ bitExtract true 0x80000000 28 8 = 8 := by decide

set_option maxRecDepth 20000 in
/-- A step of the loaded program: NOP moves the board to the next bundle; TRAP freezes it with class SOFT (09 R212, R214). -/
theorem test_step_nop : (match step nopState with
    | .next t => t.allBoards.map fun b => (b.slotA.path.map (·.pc), b.frozen.isSome)
    | _ => []) = [(some 0x1001, false)] := by decide

set_option maxRecDepth 20000 in
theorem test_step_trap : (match step (State.reset.withFetchWord 32 (0x26 + 0x1234 * 64)) with
    | .next t => t.allBoards.map fun b => b.frozen.map fun f => (f.cls, f.code, f.tpc)
    | _ => []) = [some (1, 0x1234, 0x1000)] := by decide

/-! ### Witnesses for the steps of the device -/

set_option maxRecDepth 20000

/-- The loaded program in a module whose link is up and whose TIME is set; its board; and that board in issue, changed by `f`. -/
def run (w : Nat) : State := { State.reset.load w with linkUp := true, synced := true }
def rb : Board := (run 0x28).boards.headD wBoard
def issuing (w : Nat) (f : Board → Board) : State :=
  { run w with boards := [], bd := some (f rb), cur := { pc := 0x1000, mask := allLanes } }
def standing (f : Board → Board) : State := { run 0x28 with boards := [f rb] }

/-- What the board in issue meets before its bundle, by class and slot. -/
def meets (s : State) : Option (Nat × Nat) := (s.bd.bind fun b => s.frontTrap b).map fun t => (t.cls, t.slot)

/-- Each class in one bundle: SADD s0, s0, s0 behind an open window, opcode 0x3F, ERET without privilege, s511 beyond the budget, JOIN on an empty stack,
s0 in error; and none in a NOP. The board is neither frozen nor through with its bundle. -/
theorem witness_TrapStepsComplete_classes :
    meets { issuing 0x80000000 (fun b => { b with slotA := { b.slotA with wins := [{ loc := .s 0, rem := 1 }] } }) with
      ctxs := [{ wCtx with chkWindow := true }] } = some (2, 3)
    ∧ meets (issuing 0x3F id) = some (3, 3)
    ∧ meets (issuing 0x27 (fun b => { b with priv := false })) = some (4, 3)
    ∧ meets (issuing 0x8003FE00 (fun b => { b with env := { b.env with sbud := 480 } })) = some (5, 3)
    ∧ meets (issuing 0x09 id) = some (6, 3)
    ∧ meets (issuing 0x80000000 (fun b => { b with bad := [⟨2, 0, 0⟩] })) = some (10, 3)
    ∧ meets (issuing 0x28 id) = none
    ∧ rb.frozen = none ∧ (issuing 0x28 id).cur.done = false := by decide

def brokenBoard (b : Board) : Board := { b with noPeg := true }
def retiredBoard (b : Board) : Board := { b with lanesLeft := 0, slotA := {}, pegs := { cnt := 3, broken := true } :: b.pegs.tail }
def lateBoard (b : Board) : Board := { b with run := some { n := 1, start := 10 }, tick := 12 }

theorem witness_TrapStepsComplete_broken : ∃ u t, (standing brokenBoard).present 3 = some (u, brokenBoard rb)
    ∧ u.frontTrap (brokenBoard rb) = some t ∧ t.cls = 7 := ⟨_, _, rfl, rfl, rfl⟩

theorem witness_TrapStepsComplete_retire : (standing retiredBoard).board? 3 = some (retiredBoard rb)
    ∧ (standing retiredBoard).stands (retiredBoard rb) = false ∧ (standing retiredBoard).drained (retiredBoard rb) = true
    ∧ (retiredBoard rb).soundPegsZero = true ∧ (retiredBoard rb).hasFailure = true := ⟨rfl, rfl, rfl, by decide, by decide⟩

theorem witness_TrapStepsComplete_overrun : (standing lateBoard).board? 3 = some (lateBoard rb) ∧ (lateBoard rb).run = some { n := 1, start := 10 }
    ∧ 10 + 1 + 1 ≤ (lateBoard rb).tick.toNat ∧ (standing lateBoard).stands (lateBoard rb) = false ∧ (lateBoard rb).turnB = false
    ∧ ((lateBoard rb).slotOf false).path.isSome = true := ⟨rfl, rfl, by decide, rfl, rfl, rfl⟩

def fetchingBoard (b : Board) : Board := { b with slotA := { b.slotA with fetching := true } }

theorem witness_FrontStepsComplete_fetch : (standing fetchingBoard).board? 3 = some (fetchingBoard rb)
    ∧ ((fetchingBoard rb).slotOf false).path = some ⟨0x1000, allLanes⟩ ∧ ((fetchingBoard rb).slotOf false).fetching = true
    ∧ (standing fetchingBoard).front (fetchingBoard rb) 0x1000 = .bundle (ctlBundle 0x28) := ⟨rfl, rfl, rfl, rfl⟩

/-- Bundle 0x1000 is the one entry of the bind region, with a STATE. -/
def binding (state : Byte) : State :=
  { issuing 0x28 id with mem := ((run 0x28).mem.write 0x1FFD8 (leBytes 8 0x100000000)).write 0x20000 (state :: List.replicate 31 0) }

theorem witness_FrontStepsComplete_bind : (∀ k : BitVec 2, k ≠ 3 →
      (binding (k.setWidth 8)).front rb 0x1000 = .bind ∧ (binding (k.setWidth 8)).frontTrap rb = none
      ∧ (binding (k.setWidth 8)).mem.num 0x20000 1 % 4 = k.toNat)
    ∧ (binding 0).translate 1 0x20000 .r = .ok (.loc 0x20000) ∧ (binding 0).translate 1 0x20000 .rw = .ok (.loc 0x20000)
    ∧ (binding 0).badAt 0x20000 = false ∧ (binding 0).fetches = [] := by
  refine ⟨?_, rfl, rfl, rfl, rfl⟩
  intro k
  match k with
  | 0#2 => exact fun _ => ⟨rfl, rfl, rfl⟩
  | 1#2 => exact fun _ => ⟨rfl, rfl, rfl⟩
  | 2#2 => exact fun _ => ⟨rfl, rfl, rfl⟩
  | 3#2 => exact fun h => absurd rfl h

def parkedBoard (b : Board) : Board := { b with slotA := { b.slotA with park := some { entry := 0x20000 } } }

theorem witness_FrontStepsComplete_park :
    let s : State := { binding 2 with bd := none, boards := [parkedBoard rb] }
    s.board? 3 = some (parkedBoard rb) ∧ ((parkedBoard rb).slotOf false).park = some { entry := 0x20000 }
    ∧ s.translate 1 0x20000 .r = .ok (.loc 0x20000) ∧ s.mem.num 0x20000 1 % 4 ≠ 1 := ⟨rfl, rfl, rfl, by decide⟩

/-- A code object at 1 GiB, whose descriptor lies before it; its one bind entry lies on module 1. -/
def peerBoard : Board := { rb with env := { rb.env with codebase := 0x2000000 } }
def peerBinding : State :=
  { run 0x28 with
    boards := [], bd := some peerBoard, cur := { pc := 0x2000000, mask := allLanes }, ctxs := [{ (run 0x28).ctxOf 1 with podgrp := 1 }]
    mem := ((run 0x28).mem.write 0x11008 (leBytes 8 (2 ^ 62 + 2 ^ 52 + 0xF))).write 0x3FFFFFD8 (leBytes 8 0x100000000) }

theorem witness_FrontStepsComplete_peer : peerBinding.front peerBoard 0x2000000 = .bind ∧ peerBinding.frontTrap peerBoard = none
    ∧ peerBinding.bindAt peerBoard .r = .ok (.peer 1 0) ∧ peerBinding.fetches = [] := ⟨rfl, rfl, rfl, rfl⟩

theorem witness_FrontStepsComplete_request :
    let s := (binding 1).modFrame 0 fun f => { f with binds := [(1, 0x20000)] }
    (s.frame 0).binds[0]? = some (1, 0x20000) ∧ s.translate 1 0x20000 .w = .ok (.loc 0x20000) := ⟨rfl, rfl⟩

/-- A switch point at offset 0 of the dense variant, with its place in the variant of level 1 at offset 5. -/
def switching : State :=
  { issuing 0x28 (fun b => { b with variant := 0 }) with
    cur := { pc := 0x1000, mask := allLanes, w := true }, grids := [{ probeGrid with ktab := 0x30000 }]
    mem := (((run 0x28).mem.write 0x1FFD0 (leBytes 8 0x31000)).write 0x30014 (leBytes 2 1)).write 0x31008 (leBytes 4 5) }


/-! A memory path with one operation. -/

def pathOp (k : MemKind) (sp : Space) : MemOp :=
  { id := 7, insn := 0, kind := k, space := sp, scope := .bent, peg := some 7, dest := .v 1
    lanes := [{ lane := 127, va := 0x2007C, data := [5] }], lines := if sp = .glob then [{ va := 0x20000, tgt := .loc 0x20000 }] else [] }
def pathBoard (o : MemOp) (b : Board) : Board := { b with path := [o] }
def pathState (o : MemOp) : State := standing (pathBoard o)

theorem witness_MemoryPathStepsComplete_write :
    let o := pathOp (.store 4) .glob
    (pathState o).board? 3 = some (pathBoard o rb) ∧ (pathBoard o rb).op? 7 = some o ∧ (pathBoard o rb).mayPerform o (o.inLine 0x20000) = true
    ∧ (pathState o).lineAt (pathBoard o rb) o { va := 0x20000, tgt := .loc 0x20000 } = .ok (.loc 0x20000)
    ∧ (pathState o).lineWaits (pathBoard o rb) { va := 0x20000, tgt := .loc 0x20000 } = false := ⟨rfl, rfl, rfl, rfl, rfl⟩

theorem witness_MemoryPathStepsComplete_load :
    let o := pathOp (.load 4 false) .glob
    (pathBoard o rb).mayPerform o (o.inLine 0x20000) = true ∧ (pathBoard o rb).fillHeld o = false
    ∧ (pathState o).lineAt (pathBoard o rb) o { va := 0x20000, tgt := .loc 0x20000 } = .ok (.loc 0x20000)
    ∧ (pathState o).lineWaits (pathBoard o rb) { va := 0x20000, tgt := .loc 0x20000 } = false
    ∧ (pathState o).l1Waits (pathBoard o rb) o (.loc 0x20000) = false := ⟨rfl, rfl, rfl, rfl, rfl⟩

theorem witness_MemoryPathStepsComplete_done :
    let o := { pathOp (.store 4) .glob with lines := [{ va := 0x20000, tgt := .loc 0x20000, st := .performed }] }
    (pathBoard o rb).op? 7 = some o ∧ o.lines[0]? = some { va := 0x20000, tgt := .loc 0x20000, st := .performed }
    ∧ (pathBoard o rb).fillHeld o = false := ⟨rfl, rfl, rfl⟩

theorem witness_MemoryPathStepsComplete_scratch :
    let o := pathOp (.store 4) .scr
    (pathBoard o rb).mayPerform o o.lanes = true ∧ o.lanes ≠ [] ∧ ((pathState o).bent? (pathBoard o rb).env.bent).isSome = true :=
  ⟨rfl, by decide, rfl⟩

theorem witness_FrontStepsComplete_switch : (switching.bd.bind fun b => switching.switchOf b) = some (2, 0x1006) := by rfl

theorem witness_MemoryPathStepsComplete_fail :
    let o := { pathOp (.store 4) .glob with fail := some (0x13#8, 0x1234#64) }
    (pathState o).opFailure (pathBoard o rb) o = some (0x13, 0x1234) ∧ (pathBoard o rb).rgates = [] := ⟨rfl, rfl⟩

theorem eraseDups_self {α : Type} [BEq α] [LawfulBEq α] : ∀ (l : List α), l.Nodup → l.eraseDups = l
  | [], _ => by simp
  | a :: t, h => by
    rw [List.nodup_cons] at h
    rw [List.eraseDups_cons, List.filter_eq_self.mpr, eraseDups_self t h.2]
    intro b hb
    simp only [Bool.not_eq_true', beq_eq_false_iff_ne]
    rintro rfl
    exact h.1 hb

/-- A load 65,536 ticks after its issue, with the core's L1 full of 1,024 other lines. -/
def lateOp : MemOp := pathOp (.load 4 false) .glob
def lateLoad (b : Board) : Board := { pathBoard lateOp b with tick := 65536 }
def lateState : State :=
  { standing lateLoad with l1 := (List.range 1024).map fun k => { board := 3, line := .loc (0x100000 + k), bytes := [], epoch := 0 } }

theorem lateState_l1 :
    lateState.l1 = (List.range 1024).map fun k => { board := 3, line := .loc (0x100000 + k), bytes := [], epoch := 0 } := rfl

theorem lateState_copies : lateState.copiesIn (lateState.holdingCore (lateLoad rb).core (.loc 0x20000)) = lateState.l1 := by
  have hf : ∀ n, lateState.fused n = false := fun _ => by
    simp only [State.fused, List.any_eq_false]
    intro x hx
    rcases List.mem_singleton.mp (show x ∈ [_] from hx) with rfl
    have hg : ((lateState.grid? 1).map (·.block.fuse)).getD false = false := rfl
    simp [hg]
  have hb : lateState.board? 3 = some (lateLoad rb) := rfl
  have ha : ((lateState.bent? (lateLoad rb).env.bent).map (·.away)).getD true = false := rfl
  have he : (lateLoad rb).epoch = 0 := rfl
  refine List.filter_eq_self.mpr ?_
  intro c hc
  rw [lateState_l1] at hc
  obtain ⟨k, _, rfl⟩ := List.mem_map.mp hc
  simp [hb, ha, he, State.holdingCore, hf]

theorem lateState_full : lateState.l1Full (lateLoad rb) (.loc 0x20000) = true := by
  have hl := lateState_l1
  have hn : (lateState.l1.map fun c => (c.line, c.bytes)).Nodup := by
    rw [hl, List.map_map, List.Nodup, List.pairwise_map]
    refine List.nodup_range.imp ?_
    intro a b h hab
    simp only [Function.comp_apply, Prod.mk.injEq, Target.loc.injEq] at hab
    omega
  unfold State.l1Full
  rw [lateState_copies, eraseDups_self _ hn, List.length_map, hl, List.length_map, List.length_range]
  rfl

theorem witness_MemoryPathStepsComplete_late : ∃ l, lateState.l1Late (lateLoad rb) lateOp = some l := by
  have h1 : lateState.lineAt (lateLoad rb) lateOp { va := 0x20000, tgt := .loc 0x20000 } = .ok (.loc 0x20000) := rfl
  have h2 : lateState.copyOf (lateLoad rb) lateOp (.loc 0x20000) = none := by
    refine List.find?_eq_none.mpr ?_
    intro c hc
    rw [lateState_l1] at hc
    obtain ⟨k, _, rfl⟩ := List.mem_map.mp hc
    simp
    omega
  refine ⟨{ va := 0x20000, tgt := .loc 0x20000 }, ?_⟩
  have h3 : lateState.l1Waits (lateLoad rb) lateOp (.loc 0x20000) = true := by
    simp only [State.l1Waits, h2, lateState_full, lateState_copies, lateState_l1, List.any_map]
    simp [cached, lateOp, pathOp]
    omega
  have h4 : (lateLoad rb).mayPerform lateOp (lateOp.inLine 0x20000) = true := rfl
  have h5 : lateOp.lines = [{ va := 0x20000, tgt := .loc 0x20000 }] := rfl
  have h6 : ¬ (lateLoad rb).tick.toNat < lateOp.t0 + 65536 := by decide
  have h7 : lateOp.kind = .load 4 false := rfl
  simp [State.l1Late, h1, h3, h4, h5, h6, h7]

/-! Gates, engines and routing. -/

def gateBoard (g : RGate) (b : Board) : Board := { b with rgates := [g] }
def arrivingGate : RGate := { id := 9, insn := 0, va := 0x20040, opr := 1 }
def waitingGate (reg : Bool) : RGate := { id := 9, insn := 0, va := 0x20040, opr := 0, stage := .wait reg }

theorem witness_GateStepsComplete_arrival :
    (standing (gateBoard arrivingGate)).rgate? 9 = some (gateBoard arrivingGate rb, arrivingGate)
    ∧ (gateBoard arrivingGate rb).performed arrivingGate.after = true
    ∧ (standing (gateBoard arrivingGate)).noEntry (gateBoard arrivingGate rb).core = false
    ∧ (standing (gateBoard arrivingGate)).rgateAt (gateBoard arrivingGate rb) arrivingGate = .ok (.loc 0x20040) := ⟨rfl, rfl, rfl, rfl⟩

/-- A wake of the gate at 0x20040, and of its neighbour. PHASE is 0, the phase waited on; and 1, after it. -/
def gateWakeAt (gate : Nat) : Wake := { board := 3, again := true, gate := gate }
def woken (g : RGate) : State := { standing (gateBoard g) with wakes := [gateWakeAt 0x20040] }
/-- The operation of a board that a wake meets. -/
def metBy (s : State) (b : Board) (w : Wake) : Option RGate :=
  b.rgates.find? fun x => !x.parked && x.opr != 1 && x.opr != 3 && s.gateIs b x w

theorem witness_GateStepsComplete_wait : ∀ reg : Bool,
    let g := waitingGate reg
    let s := woken g
    let t : State := { s with mem := s.mem.write 0x20048 [1] }
    s.board? 3 = some (gateBoard g rb) ∧ (gateBoard g rb).waiting? = some g ∧ gateWakeAt 0x20040 ∈ s.wakes
    ∧ metBy s (gateBoard g rb) (gateWakeAt 0x20040) = some g ∧ metBy s (gateBoard g rb) (gateWakeAt 0x20050) = none
    ∧ s.rgateAt (gateBoard g rb) g = .ok (.loc 0x20040) ∧ s.gatePhase 0x20040 = g.phase
    ∧ t.rgateAt (gateBoard g rb) g = .ok (.loc 0x20040) ∧ t.gatePhase 0x20040 ≠ g.phase
  | true | false => ⟨rfl, rfl, List.mem_cons_self, rfl, rfl, rfl, rfl, rfl, by decide⟩

/-- The loaded program with a page of 1 GiB at 1 GiB that lies on module 1. -/
def withPeer (s : State) : State := { s with mem := s.mem.write 0x11008 (leBytes 8 (2 ^ 62 + 2 ^ 52 + 0xF)) }

def peerWake (board : Nat) : Wake := { board := board, again := true, gate := 0x40, peer := some 1 }

/-- A wait at a gate of a peer, registered and not; its wake has reached the frame; and one whose registration is asked for. -/
theorem witness_GateStepsComplete_peer : ∀ reg : Bool,
    let g : RGate := { waitingGate reg with va := 0x40000040 }
    let r : RGate := { arrivingGate with va := 0x40000040, opr := 2, req := some 4 }
    let s := withPeer (standing (gateBoard g))
    s.board? 3 = some (gateBoard g rb) ∧ (gateBoard g rb).waiting? = some g ∧ g.req = none
    ∧ s.rgateAt (gateBoard g rb) g = .ok (.peer 1 0x40) ∧ g.stage = .wait reg ∧ metBy s (gateBoard g rb) (peerWake 3) = some g
    ∧ metBy (withPeer (standing (gateBoard r))) (gateBoard r rb) (peerWake 3) = some r ∧ r.stage = .start
  | true | false => ⟨rfl, rfl, rfl, rfl, rfl, rfl, rfl, rfl⟩

/-- A peer's wake at the station of frame 0 for a board of frame 1. -/
theorem witness_GateStepsComplete_ring :
    let s : State := { standing fun b => { b with core := 31 } with uaen := 1 }
    s.board? 3 = some { rb with core := 31 } ∧ s.wakes = [] ∧ (s.planesFrom 1 s.modid.toNat).headD (s.modid.toNat % 8) = 0
    ∧ s.wakeComes (peerWake 3) = true := ⟨rfl, rfl, rfl, rfl⟩

/-- A write on its way to a peer, which a release leaves open; its request, and the request with the peer's frame as its own. -/
def sentOp : MemOp :=
  { pathOp (.store 4) .glob with lines := [{ va := 0x20000, tgt := .peer 1 0x20000, st := .sent 4 }] }
def owingBoard : Board := { wBoard with path := [sentOp] }
def owingState : State := { w0 with bd := some owingBoard }
def sentReq : OutReq :=
  { id := 4, mod := 1, addr := 0x20000, group := 9, board := 3, line := some (7, 0), source := 0, at_ := .sent, ordered := true, kind := .write [] }

theorem witness_ReleasesThatWait : ∀ i ∈ ([.barAw .bent 15 0, .barArr .bay 63 0, .trigger, .eret] : List Instr),
    owingState.clear owingBoard i
    ∧ ∃ c, (({ owingState with bd := some (owingState.noted owingBoard i) } : State).release 3).bd = some c ∧ c.openWrites = [7] ∧ c.owed = [] := by
  intro i hi
  refine ⟨clear_of owingState owingBoard _ rfl (by decide) i hi, ?_⟩
  simp only [List.mem_cons, List.not_mem_nil, or_false] at hi
  rcases hi with rfl | rfl | rfl | rfl <;> exact ⟨_, rfl, rfl, rfl⟩

theorem witness_MemoryPathStepsComplete_peer :
    let s : State := { standing (pathBoard sentOp) with outReqs := [sentReq] }
    s.board? 3 = some (pathBoard sentOp rb) ∧ (pathBoard sentOp rb).op? 7 = some sentOp
    ∧ s.outReqs.find? (·.id == sentReq.id) = some sentReq ∧ sentReq.plane = sentReq.source ∧ sentReq.mod ∉ s.lost ∧ sentReq.group ≠ 0
    ∧ sentOp.kind.fills = false ∧ sentOp.lines[0]? = some { va := 0x20000, tgt := .peer 1 0x20000, st := .sent sentReq.id } :=
  ⟨rfl, rfl, rfl, rfl, by decide, by decide, rfl, rfl⟩

/-- A command of board 3 with the registers of its group. -/
def cmdFor (i : Instr) (grp : List Word) : Cmd :=
  { id := 5, board := 3, core := 0, ctx := 1, bent := 2, instr := i, peg := some 0, grp := grp, started := true, written := true }
def copying (c : Cmd) : State := (standing id).modCore 0 fun x => { x with cq := [c] }
def stepping (c : Cmd) : State := (standing id).modCore 0 fun x => { x with mq := [c] }
def routing (c : Cmd) : State := (standing id).modFrame 0 fun f => { f with rq := [c] }

/-- CPR that has written its lines, with an arrival at the gate of its group, before and after the arrival. -/
def cprCmd (arrived : List Nat) : Cmd :=
  let c := cmdFor (.cpr 2 .f32 8 (some 0)) [0x21000, 0, 0x22000, 0, 0x23000, 0, 1, 0, 0x24000, 0]
  { c with arrivals := arrived, sent := linesOfTouches (c.plan c.tab).writes }

theorem witness_EngineStepsComplete_copy :
    (∃ t c, (copying (cprCmd [])).readyCopy 0 5 = some (t, c) ∧ (c.plan c.tab).gates.find? (·.1 == 0) = some (0, 0x24000) ∧ 0 ∉ c.arrivals
      ∧ c.fails = [] ∧ t.destDone c 0 = true ∧ t.noEntry 0 = false)
    ∧ ∃ t c, (copying (cprCmd [0])).readyCopy 0 5 = some (t, c) ∧ c.out = 0 ∧ c.failed = false ∧ ∀ g ∈ (c.plan c.tab).gates, g.1 ∈ c.arrivals :=
  ⟨⟨_, _, rfl, rfl, by decide, rfl, rfl, rfl⟩, _, _, rfl, rfl, rfl, by decide⟩

/-- The head of a matrix engine, its periods over, at its last row. -/
def headReady (i : Instr) : Prop :=
  ∃ t c, (stepping { cmdFor i [0x21000, 0, 512, 0] with prog := 127 }).readyMatrix 0 = some (t, c, none) ∧ c.busy = 0 ∧ t.rdvHeld c = false ∧ c.instr = i

theorem witness_EngineStepsComplete_matrix :
    headReady (.accSt 0 31 none) ∧ headReady (.accLd 0 0 (some 7)) ∧ headReady (.accClr 0 none) :=
  ⟨⟨_, _, rfl, rfl, rfl, rfl⟩, ⟨_, _, rfl, rfl, rfl, rfl⟩, _, _, rfl, rfl, rfl, rfl⟩

theorem witness_EngineStepsComplete_tile :
    headReady (.accRdv v0 v0 0 none) ∧ headReady (.accWrv v0 v0 0 none) := ⟨⟨_, _, rfl, rfl, rfl, rfl⟩, _, _, rfl, rfl, rfl, rfl⟩

/-- A route table of one expert on one device, without tokens: its device's gates stand at 0x27000. -/
def wTable : List Byte :=
  (leBytes 8 0x1_0000_0001_0001 ++ List.replicate 56 0 ++ leBytes 8 0x26000 ++ List.replicate 56 0)
  ++ (List.replicate 8 0 ++ leBytes 8 0x27000 ++ leBytes 8 0x27000 ++ List.replicate 8 0) ++ List.replicate 32 0

/-- A routing command with that table, ARG 1, and a count matrix that carries 1 in every word. -/
def routeCmd (i : Instr) (waits : Bool) : Cmd := { cmdFor i [0x25000, 0, 1, 0] with tab := wTable, listed := .done, waiting := waits }
def routeState (i : Instr) (waits : Bool) : State :=
  { routing (routeCmd i waits) with mem := (run 0x28).mem.write 0x26000 (leBytes 8 0x100000001 ++ leBytes 8 0x100000001) }

theorem witness_EngineStepsComplete_exchange : ∃ t c, (routeState (.routeXchg 6 none) true).routeCmd? 0 5 = some (t, c)
    ∧ c.instr = .routeXchg 6 none ∧ c.waiting = true ∧ c.ndev = 1 ∧ t.cm c (c.arg % 2) 0 c.nexp = c.arg := ⟨_, _, rfl, rfl, rfl, rfl, rfl⟩

theorem witness_EngineStepsComplete_combine : ∃ t c, (routeState (.routeCombine 6 none) true).routeCmd? 0 5 = some (t, c)
    ∧ c.instr = .routeCombine 6 none ∧ c.waiting = true ∧ t.combineMay c = true := ⟨_, _, rfl, rfl, rfl, rfl⟩

/-- A COMBINE that waits at a peer's gate, registered there and not. -/
theorem witness_GateStepsComplete_combine : ∀ reg : Bool,
    let c : Cmd := { routeCmd (.routeCombine 6 none) true with
      tab := wTable.take 144 ++ leBytes 8 0x40000040 ++ wTable.drop 152, got := if reg then Mem.write [] (peerKey 1 0x41) [1] else [] }
    let s : State := { withPeer (routing c) with wakes := [peerWake 5] }
    s.board? 5 = none ∧ s.routeCmds.find? (·.id == 5) = some c ∧ s.peerPhase c = some (false, reg) ∧ s.wakePasses (peerWake 5) = none ∧ s.wakeComes (peerWake 5) = true
    ∧ s.cmdAt c c.cgate .r = .ok (.peer 1 (peerWake 5).gate) ∧ c.waiting = true ∧ c.written = true ∧ c.failed = false ∧ c.out = 0
  | true | false => ⟨rfl, rfl, rfl, rfl, rfl, rfl, rfl, rfl, rfl, rfl⟩

theorem witness_EngineStepsComplete_scatter : ∃ t c, (routeState (.routeScatter 6 none) false).routeCmd? 0 5 = some (t, c)
    ∧ 0 < c.ndev ∧ 0 ∉ c.arrivals ∧ t.rowsDone c 0 = true ∧ t.gateLost c 0 = false ∧ t.outReqs = [] ∧ c.devF 0 8 % 16 = 0 ∧ t.translate c.ctx (c.devF 0 8) .rw = .ok (.loc 0x27000) :=
  ⟨_, _, rfl, by decide, by decide, rfl, rfl, rfl, rfl, rfl⟩

theorem witness_EngineStepsComplete_route : ∃ t c x, (routeState (.routeCount 6 none) false).routeCmd? 0 5 = some (t, c)
    ∧ c.out = 0 ∧ t.runFail c = none ∧ t.finishRoute c = some x := ⟨_, _, _, rfl, rfl, rfl, rfl⟩

/-! Fabric. -/

theorem witness_FabricStepsComplete_request :
    let r : PeerReq := { mod := 1023, agent := 0, plane := 7, group := 9, ordered := true, replay := false, addr := 127, depth := 0, kind := .read 1 }
    let s : State := { run 0x28 with uaen := 0x81, ctxs := [{ wCtx with podgrp := 9 }] }
    let t : State := { s with barredAgents := [(1023, 0)] }
    s.usable.getLsbD r.plane = true ∧ wellPlaced r = true ∧ wellPlaced { r with addr := 16, kind := .arrive } = true
    ∧ (r.mod, r.agent) ∉ s.barredAgents ∧ (r.mod, r.agent) ∈ t.barredAgents
    ∧ (s.resolveReq { r with group := 1 }).2 = .fault 0x72 ∧ (s.resolveReq { r with addr := 0x27000 }).2 = .ok [0]
    ∧ s.homeOf { r with group := 1 } = 7 ∧ s.homeOf { r with addr := 0x27000 } = 0 ∧ s.inReqs = [] ∧ s.usable.getLsbD 0 = true :=
  ⟨rfl, by decide, by decide, by decide, by decide, rfl, rfl, rfl, rfl, rfl, rfl⟩

/-- A slot refused once whose number is the lane's next, and one refused twice; links with 64 refusals in the present window, with the other
ring up and down. -/
theorem witness_FabricStepsComplete_ring :
    let x : RingSlot := { load := .request 4, seq := some 5, refusals := 1 }
    let y : RingSlot := { load := .wake (gateWakeAt 0x20040), seq := some 6, refusals := 2 }
    let r : Ring := { lanes := [(0, 7, 5)], retry := [(0, 7, x), (0, 7, y)], corrupt := [(7, 0, 64)] }
    let s : State := { run 0x28 with rings := [r, {}] }
    let t : State := { run 0x28 with rings := [r, { up := false }] }
    (s.ring 0).up = true ∧ x.seq = some ((s.ring 0).next 0 7) ∧ (0, 7, x) ∈ (s.ring 0).retry ∧ (0, 7, y) ∈ (s.ring 0).retry ∧ y.seq ≠ some ((s.ring 0).next 0 7) ∧ 64 ≤ (s.ring 0).refusals 7 (s.now / 1000000)
    ∧ (s.ring 1).up = true ∧ s.rings.length = 2
    ∧ (t.ring 0).up = true ∧ 64 ≤ (t.ring 0).refusals 7 (t.now / 1000000) ∧ (t.ring 1).up = false := by decide

theorem witness_FabricStepsComplete_planes :
    (run 0x28).planes.getLsbD 7 = true ∧ 5 ∉ ({ run 0x28 with planes := 0 } : State).lost ∧ ({ run 0x28 with planes := 0 } : State).planes.getLsbD 7 = false
    ∧ (5, 7) ∉ (run 0x28).farDown ∧ look 5 0 (run 0x28).heard = 0
    ∧ 1000000 ≤ ({ run 0x28 with time := 6552 * 1000000, outReqs := [{ sentReq with mod := 5 }] } : State).now ∧ sentReq.since = 0
    ∧ 5 ∈ ({ run 0x28 with lost := [5] } : State).lost := by decide

/-! Work. -/

/-- A code object with an entry kernel, launch blocks without and with a dependence on 0x50000, and a graph descriptor of one node. -/
def blockBytes (ndep : Nat) : List Byte :=
  leBytes 8 0x1000 ++ leBytes 8 (1 + 2 ^ 40 + 2 * 2 ^ 48) ++ leBytes 8 (ndep * 2 ^ 24) ++ List.replicate 8 0
  ++ leBytes 8 (if ndep = 0 then 0 else 0x50000 + 2 ^ 48) ++ List.replicate 24 0

def workMem : Mem :=
  (((((run 0x28).mem.write 0x1FFC0 (leBytes 8 (2 ^ 48 + 0x100) ++ leBytes 8 0x30000 ++ List.replicate 16 0 ++ leBytes 2 0x0104)).write
    0x30000 (leBytes 8 (2 * 2 ^ 48))).write 0x40000 (blockBytes 0)).write 0x40040 (blockBytes 1)).write
    0x48000 (leBytes 8 0x49000 ++ leBytes 8 0x4A000 ++ leBytes 8 0x4B000 ++ leBytes 4 1 ++ leBytes 4 64 ++ leBytes 4 1)

def workState : State := { run 0x28 with mem := workMem }

def wQueue : Queue := { base := 0x40000, en := true, size := 1, ctx := 1, tail := 1, own := 0x80 }

theorem witness_WorkEntryStepsComplete_notify :
    let s : State := { workState with queues := [(1023, wQueue)] }
    (s.queue 1023).owner = some 0 ∧ ((2 : BitVec 32) - (s.queue 1023).head).toNat ≤ 2 ^ (s.queue 1023).size.toNat ∧ s.linkUp = true
    ∧ (s.queue 1023).en = true ∧ ((s.modQueue 1023 fun q => { q with en := false }).queue 1023).en = false := by decide

theorem witness_WorkEntryStepsComplete_slot :
    let s : State := { workState with queues := [(1023, wQueue)] }
    s.bestWaiting = some (1023, wQueue) ∧ s.slotQueue 31 = none := ⟨rfl, rfl⟩

theorem witness_WorkEntryStepsComplete_slice :
    let s : State := { workState with time := 6552 * 200000 }
    (s.bay 31).slice < s.now / 200000 := by decide

def wLaunch (addr : Nat) (graph : Bool) : LaunchReq :=
  { id := 5, board := 3, addr := addr, graph := graph, peg := some 7, insn := 0, cap := 7, ctx := 1 }

theorem witness_WorkEntryStepsComplete_launch :
    let s : State := { workState with launches := [wLaunch 0x40040 false] }
    s.launches.find? (·.id == 5) = some (wLaunch 0x40040 false) ∧ s.launchReady (wLaunch 0x40040 false) = true
    ∧ ∃ l b k ds, s.tryLaunch (wLaunch 0x40040 false) = .ok (l, b, k, ds) ∧ s.restFits (wLaunch 0x40040 false) ds = true ∧ ds.length = 1 :=
  ⟨rfl, rfl, _, _, _, _, rfl, rfl, rfl⟩

theorem witness_WorkEntryStepsComplete_graph :
    let s : State := { workState with launches := [wLaunch 0x48000 true] }
    s.launches.find? (·.id == 5) = some (wLaunch 0x48000 true) ∧ s.launchReady (wLaunch 0x48000 true) = true
    ∧ ∃ t, s.tryGraph (wLaunch 0x48000 true) = .done t := ⟨rfl, rfl, _, rfl⟩

theorem witness_WorkEntryStepsComplete_queue :
    let s : State := { workState with queues := [(0, wQueue)], mapped := [(31, 0)] }
    (s.queue 0).pending = true ∧ (s.ctx? (s.queue 0).ctx).isSome = true ∧ s.mapped.any (·.2 == 0) = true ∧ s.launches = []
    ∧ ∃ l b k ds, s.block 1 0x40000 64 = .ok l ∧ fieldAt l 13 1 ≠ 0 ∧ s.tryBlock 1 .queue l = .ok (b, k, ds) ∧ s.depsFit ds = true :=
  ⟨rfl, rfl, rfl, rfl, _, _, _, _, rfl, by decide, rfl, rfl⟩

theorem witness_WorkEntryStepsComplete_dependence :
    let g : Grid := { probeGrid with uid := 9, runnable := false, deps := [{ addr := 0x50000, value := 1, met := true }] }
    ({ workState with grids := [g] } : State).grid? 9 = some g ∧ g.runnable = false ∧ g.aborted = false ∧ g.deps.all (·.met) = true :=
  ⟨rfl, rfl, rfl, rfl⟩

def wGraph : GraphInst :=
  { id := 8, ctx := 1, desc := 0x48000, nodesAt := 0x40000, area := 0x4B000, gcomp := 0, rank := 0, origin := .board 3, nodes := [{ deps := [] }] }

theorem witness_WorkEntryStepsComplete_node :
    let s : State := { workState with graphs := [wGraph] }
    s.graph? 8 = some wGraph ∧ wGraph.nodes[0]? = some { deps := [] }
    ∧ ∃ l b k, s.block 1 0x40000 64 = .ok l ∧ s.judgeBlock 1 .node l = .ok (b, k) := ⟨rfl, rfl, _, _, _, rfl, rfl⟩

/-- 4,096 watches in frame 0, where the dependence's counter has its home. -/
def anyWatch : Watch :=
  { idx := 0, gen := 0, ctx := 1, base := 0, pages := [], nlines := 1, mode := 0, scope := .package, dmax := 0, win := 0, rate := 0, value := 0
    hblk := 0, block := {}, cap := 0 }

def crowded (w : Option Nat) : State :=
  { workState with
    frames := modAt 0 (fun f => { f with watches := List.replicate 4096 anyWatch }) workState.frames, time := 6552 * 1000000
    launches := [{ wLaunch 0x40040 false with waiting := w }] }

theorem crowded_used (w : Option Nat) : 4096 ≤ (crowded w).watchesUsed 0 := by
  have : ((crowded w).frame 0).watches = List.replicate 4096 anyWatch := rfl
  simp only [State.watchesUsed, this, List.length_replicate]
  omega

theorem crowded_unfit (w : Option Nat) (d : Dep) (h : d.addr = 0x50000) :
    (crowded w).restFits { wLaunch 0x40040 false with waiting := w } [d] = false := by
  show (crowded w).depsFit [d] = false
  have hu := crowded_used w
  have hh : (homeFrame 0x50000 == 0) = true := by decide
  rw [← h] at hh
  simp only [State.depsFit, List.all_eq_false]
  refine ⟨0, by decide, ?_⟩
  simp [List.filter, hh]
  omega

/-- A launch that finds no entry begins to wait; one that has waited for 1 ms. -/
theorem witness_WorkEntryStepsComplete_waiting :
    let r : LaunchReq := wLaunch 0x40040 false
    (crowded none).launches.find? (·.id == 5) = some r ∧ (crowded none).launchReady r = true
    ∧ ∃ l b k ds, (crowded none).tryLaunch r = .ok (l, b, k, ds) ∧ (crowded none).restFits r ds = false :=
  ⟨rfl, rfl, _, _, _, _, rfl, crowded_unfit none _ rfl⟩

theorem witness_WorkEntryStepsComplete_timeout :
    let r : LaunchReq := { wLaunch 0x40040 false with waiting := some 0 }
    (crowded (some 0)).launches.find? (·.id == 5) = some r ∧ 0 + 1000000 ≤ (crowded (some 0)).now
    ∧ ∃ l b k ds, (crowded (some 0)).tryLaunch r = .ok (l, b, k, ds) ∧ (crowded (some 0)).restFits r ds = false :=
  ⟨rfl, by decide, _, _, _, _, rfl, crowded_unfit (some 0) _ rfl⟩

/-! Bents. -/

theorem witness_BentStepsComplete_create :
    let g : Grid := { probeGrid with block := { probeGrid.block with extent := 2 } }
    let s : State := { run 0x28 with grids := [g] }
    s.grid? 1 = some g ∧ s.mayAdmit g [⟨3, none, [95], [0]⟩] = true ∧ s.laxAt [⟨3, none, [95], [0]⟩] = false := ⟨rfl, rfl, rfl⟩

theorem witness_BentStepsComplete_retire :
    (standing fun b => { b with lanesLeft := 0, slotA := {} }).retires { rb with lanesLeft := 0, slotA := {} } = true
    ∧ (standing fun b => { b with lanesLeft := 0, slotA := {} }).lateFor { rb with lanesLeft := 0, slotA := {} } = false := ⟨rfl, rfl⟩

/-- The board's bent, changed, in the loaded module with a save area. -/
def bentState (f : Bent → Bent) : State :=
  { standing (fun b => { b with parkedY := true }) with ctxs := [wCtx], bents := [f wBent] }

theorem witness_BentStepsComplete_out :
    let s := bentState id
    s.bent? 2 = some wBent ∧ s.groupBents wBent = [wBent] ∧ s.allParked wBent = true ∧ s.trapFrozen wBent = false
    ∧ s.saveBlocked wBent false = false ∧ s.imagesFit [wBent] = true ∧ s.imagesReserve [wBent] = true := ⟨rfl, rfl, rfl, rfl, rfl, by decide, by decide⟩

theorem witness_BentStepsComplete_back :
    let x : Bent := { wBent with away := true }
    let s := bentState fun b => { b with away := true }
    s.bent? 2 = some x ∧ s.grid? x.grid = some probeGrid ∧ s.mayReturn [x] [⟨3, none, [0], [4096]⟩] = true ∧ s.firstIn probeGrid 0 = true
    ∧ s.writesOpen x = false ∧ s.yields x probeGrid 0 = false ∧ s.imageBad probeGrid.ctx = false ∧ s.stateBad x = false ∧ s.laxAt [⟨3, none, [0], [4096]⟩] = false :=
  ⟨rfl, rfl, rfl, rfl, rfl, rfl, rfl, rfl, rfl⟩

/-- A co-placed grid of a higher rank waits in the bay for the gates that a group holds, 20 us into the slice. -/
theorem witness_BentStepsComplete_forced :
    let s : State := { (bentState id).modBay 0 (fun y => { y with slice := 1, waits := [(9, 200000)], gates := [(77, freshGates)] }) with
      bents := [wBent, { wBent with uid := 20, group := 77, boards := [] }]
      grids := [probeGrid, { probeGrid with uid := 9, rank := 1, nextBent := 0, block := { probeGrid.block with place := 1 } }], time := 6552 * 220000 }
    s.forceable wBent = true
    ∧ ∀ y ∈ s.bents, y.bay = wBent.bay → s.forceable y = true → y.uid ≠ wBent.uid → s.forcedBefore y wBent = false := by
  refine ⟨rfl, ?_⟩
  intro y hy
  rcases List.mem_cons.mp hy with rfl | hy
  · exact fun _ _ _ => rfl
  · rcases List.mem_singleton.mp hy with rfl
    exact fun _ _ _ => rfl

/-- A bent with nothing on its way whose migration may end. -/
theorem witness_BentStepsComplete_moved :
    let p : Place := ⟨4, none, [0], [0]⟩
    let x : Bent := { wBent with moving := some p }
    let s := bentState fun b => { b with moving := some p }
    s.bent? 2 = some x ∧ s.groupBents x = [x] ∧ s.writesOpen x = false ∧ s.saveBlocked x true = false ∧ x.away = false
    ∧ (s.lifted [x]).mayReturn [x] [p] = true ∧ s.laxAt [p] = false := ⟨rfl, rfl, rfl, rfl, rfl, rfl, rfl⟩

theorem witness_BentStepsComplete_thermal :
    let s : State := (bentState id).modBay 0 fun y => { y with warm := true, temp := 960 }
    s.tooWarm 0 1 = true ∧ s.mayReturn [wBent] [⟨4, none, [0], [0]⟩] = true ∧ s.trapFrozen wBent = false ∧ wBent.noMove ≤ s.now ∧ wBent.bay = 0
    ∧ ∀ y ∈ s.bents, y.bay = wBent.bay → y.moving = none := by
  decide

theorem witness_BentStepsComplete_abandon :
    let p : Place := ⟨127, none, [0], [0]⟩
    let x : Bent := { wBent with moving := some p }
    let s := bentState fun b => { b with moving := some p }
    s.bent? 2 = some x ∧ s.groupBents x = [x] ∧ [x].mapM (·.moving) = some [p]
    ∧ (s.lifted [x]).mayReturn [x] [p] = false := ⟨rfl, rfl, rfl, rfl⟩

/-! Watches. -/

/-- A watch descriptor on one line at 0x50000 with the block at 0x40000. -/
def armState : State :=
  { standing (pathBoard { pathOp (.arm 0x41000) .glob with dest := .s 9, lanes := [], lines := [] }) with
    mem := workMem.write 0x41000 (leBytes 8 0x50000 ++ leBytes 8 (1 + 5 * 2 ^ 24 + 2 ^ 32 + 2 ^ 48) ++ leBytes 8 0 ++ leBytes 8 0x40000 ++ List.replicate 32 0) }

theorem witness_WatchStepsComplete_arm : ∃ b o fr w pins, armState.board? 3 = some b ∧ b.op? 7 = some o ∧ o.kind = .arm 0x41000 ∧ o.fail = none
    ∧ b.fillHeld o = false ∧ b.mayPerform o [] = true ∧ b.frozen = none ∧ (armState.asReader 7).judgeArm b (0x41000 : BitVec 64).toNat = .ok (fr, w, pins)
    ∧ armState.pinsFit fr b.env.ctx pins = true ∧ fr < armState.frames.length ∧ armState.leaving b = false :=
  ⟨_, _, _, _, _, rfl, rfl, rfl, rfl, rfl, rfl, rfl, rfl, rfl, by decide, rfl⟩

def pending (e : Bool) : PendRec := { seq := 1, bitmap := 1, count := 1, depth := 1, storer := 0, kind := 0, wtime := 0, eligible := e }
def watching (w : Watch) (t : Nat) : State :=
  { workState with frames := modAt 0 (fun f => { f with watches := [w] }) workState.frames, time := 6552 * t }

theorem witness_WatchStepsComplete_eligible :
    let w : Watch := { anyWatch with idx := 4095, win := 4, pend := some (pending false) }
    ((watching w 256).frame 0).watches.find? (·.idx == 4095) = some w ∧ w.pend = some (pending false) ∧ 0 + 64 * 4 ≤ (watching w 256).now :=
  ⟨rfl, rfl, by decide⟩

/-- An eligible record of an entry whose block judges badly, and of one whose block judges well and finds a place. -/
theorem witness_WatchStepsComplete_start :
    (let w : Watch := { anyWatch with rate := 1, pend := some (pending true) }
     w.startable (watching w 0).now = true
      ∧ ∃ e, ((watching w 0).asReader (watchReader 0 0)).judgeBlock 1 .handler w.blockBytes = .error e ∧ e.waits = false)
    ∧ (let w : Watch := { anyWatch with rate := 1, pend := some (pending true), blockBytes := blockBytes 0, block := parseBlock (blockBytes 0) }
      let s := watching w 0
      ∃ blk kn g, (s.asReader (watchReader 0 0)).judgeBlock 1 .handler w.blockBytes = .ok (blk, kn)
        ∧ s.mayAdmit (w.claim 0) [⟨1, none, [0], [0]⟩] = true ∧ s.laxAt [⟨1, none, [0], [0]⟩] = false
        ∧ (((s.unfetch (watchReader 0 0)).modWatch 0 0 fun w => { w with pend := none, starts := s.now :: w.starts.filter fun t => s.now < t + 1024 }).addGrid
          1 blk kn (.watch 0 0 1) w.cap []).grid? s.nextUid = some g) :=
  ⟨⟨rfl, _, rfl, rfl⟩, _, _, _, rfl, rfl, rfl, rfl⟩

def heldFreeze : Freeze := { cls := 7, slot := 7, slotB := false, code := 0, frid := 1, tpc := 0x1000, addr := 0, time := 0, tick := 0, held := true }

theorem witness_WatchStepsComplete_paging :
    let s := standing fun b => { b with frozen := some heldFreeze }
    s.board? 3 = some { rb with frozen := some heldFreeze } ∧ heldFreeze.held = true ∧ (s.ctxOf rb.env.ctx).pgmap = 0 := ⟨rfl, rfl, rfl⟩

/-- A context whose PGMAP names a map of one page of 1 GiB at 1 GiB; a frozen board with a load of that page among its parked operations. -/
def pagedState : State :=
  { standing fun b => { b with
      frozen := some heldFreeze
      parked := [{ id := 7, path := 0, peg := some 7, cause := 0x18, insn := 0, addr := 0x40000040, prog := 0 }] } with
    ctxs := [{ (run 0x28).ctxOf 1 with pgmap := 0x28000 }]
    mem := ((run 0x28).mem.write 0x28000 [1]).write 0x28040 (leBytes 8 0x40000002 ++ leBytes 8 0x4000000F) }

theorem witness_WatchStepsComplete_served : ∃ b l, pagedState.board? 3 = some b ∧ b.frozen = some heldFreeze
    ∧ (pagedState.ctxOf b.env.ctx).pgmap ≠ 0
    ∧ pagedState.leavesFor { b with frozen := some { heldFreeze with held := false } } = some [(0x11008, l, 0x40000000, 0x40000000)] :=
  ⟨_, _, rfl, rfl, by decide, rfl⟩

/-! Clocks and power. -/

/-- The loaded module with its board parked, so that nothing of bay 0 comes before its next period. -/
def resting : State := standing fun b => { b with parkedY := true }

theorem witness_ClockStepsComplete_period : resting.mayTick 0 = true := rfl

/-- ACC.CLR presented to the matrix engine by port 0 of partition 0. -/
def presenting : State :=
  ({ standing (fun b => { b with presenting := true }) with
      mem := (run 0x28).mem.write 0x20000 (bundleBytes (0#32 ++ 0x10#64 ++ 0#64 ++ 0#64 ++ 0x40000#32)) }).modPart 0 fun p =>
    { p with p0 := { p.p0 with pres := some (3, 1) } }

theorem witness_ClockStepsComplete_accept : firstHeld (presenting.heldFor (.matrix 0)) = some (1, 0, false, 3, true)
    ∧ (presenting.partAt 0).ticking = true
    ∧ ∀ x, presenting.board? 3 = some x → presenting.lateFor x = true → presenting.arrivesNext 3 = false :=
  ⟨rfl, rfl, fun _ h => by cases h; nofun⟩

theorem witness_ClockStepsComplete_droop :
    let s (d : Droop) : State := resting.modBay 0 fun y => { y with droop := some d }
    ((s ⟨1, 0, false, false⟩).bay 0).droop = some ⟨1, 0, false, false⟩ ∧ (s ⟨1, 0, false, false⟩).atEdge 0 = true
    ∧ ((s ⟨0, 0, false, true⟩).bay 0).droop = some ⟨0, 0, false, true⟩ ∧ (s ⟨0, 0, false, true⟩).atEdge 0 = true := ⟨rfl, rfl, rfl, rfl⟩

theorem witness_ClockStepsComplete_correction : resting.runs (15 / 4) = true
    ∧ ((resting.modCore 127 fun c => { c with freeze := 1 }).core 127).freeze = 1 := ⟨rfl, rfl⟩

theorem witness_PowerStepsComplete_grant :
    let s := resting.modBay 0 fun y => { y with granted := 0 }
    s.runs 0 = true ∧ (s.bay 0).granted ≠ s.limit 0 ∧ s.bayQuiet 0 = true := ⟨rfl, by decide, rfl⟩

theorem witness_PowerStepsComplete_switch :
    let s := resting.modBay 0 fun y => { y with running := 0 }
    (s.bay 0).running < (s.bay 0).granted ∧ (s.bay 0).granted = s.limit 0 ∧ s.bayQuiet 0 = true
    ∧ targetOf (s.bay 0).granted ≤ (s.bay 0).rail + 10 * ((s.bay 0).nextEdge - (s.bay 0).railAt) / 6552 :=
  ⟨by decide, rfl, rfl, by decide⟩

theorem witness_PowerStepsComplete_alarm : (resting.bay 0).drpEn = true
    ∧ 1000 * (599 + (resting.bay 0).drpMv.toNat) < targetOf (resting.bay 0).running := ⟨rfl, by decide⟩

theorem witness_PowerStepsComplete_cap :
    ({ resting with capEnd := some 0 } : State).capEnd = some 0 ∧ 0 ≤ resting.wall ∧ 5600 ≤ resting.cap ∧ 95 * resting.cap < 100 * 5600 ∧ resting.rails = true := by
  decide

theorem witness_PowerStepsComplete_pace :
    let p : Pace := { num := 3, gates := [], members := [1023], window := 1 }
    let s : State := { (resting.modBay 31 fun y => { y with paceHold := 1 }).modBay 0 (fun y => { y with pace := 1 }) with paces := [p], uaen := 1 }
    s.paces.find? (·.num == 3) = some p ∧ s.now / 1000000 ≠ p.window ∧ s.planesFrom 1023 0 ≠ []
    ∧ 31 / 4 < s.frames.length ∧ 31 % 4 < (s.frame 7).bays.length ∧ s.now < (s.bay 31).paceHold ∧ (s.bay 0).paceHold ≤ s.now
    ∧ (s.bay 0).pace ≤ (s.bay 0).paceTop := ⟨rfl, by decide, by decide, by decide, by decide, by decide, by decide, by decide⟩

theorem witness_PowerStepsComplete_time :
    ({ resting with synced := false } : State).time < 6552 * 1 ∧ resting.synced = true ∧ resting.linkUp = true := by decide

theorem witness_PowerStepsComplete_brownout : resting.runs 3 = true ∧ 3 / 4 < resting.frames.length ∧ 3 % 4 < (resting.frame 0).bays.length := by
  decide

theorem witness_PowerStepsComplete_restart :
    let s : State := { resting.modBay 31 (fun y => { y with stopped := true }) with wall := 6552000000 }
    (s.bay 31).stopped = true ∧ (s.bay 31).heldFrom + 6552000000 ≤ s.wall := ⟨rfl, by decide⟩

/-! Host. -/

def mailing (fn : Nat) (cmd : List Byte) : State := resting.modFn fn fun f => { f with mbcmd := cmd, mbBusy := true }

theorem witness_MailboxStepsComplete_create :
    let s := mailing 31 (leBytes 8 1 ++ leBytes 8 0x10000 ++ leBytes 8 0x20000 ++ leBytes 8 0x40000 ++ leBytes 8 0x1C000000
      ++ leBytes 8 0x10000 ++ leBytes 8 0 ++ leBytes 8 0)
    s.hostAt 31 = true ∧ (s.fn 31).mbBusy = true ∧ fieldAt (s.fn 31).mbcmd 0 2 = 1 ∧ s.synced = true ∧ s.createOk 31 = true ∧ s.operand 31 40 2 = 0
    ∧ s.freeWindow 31 = some 0 ∧ s.ctxs.length < 256 ∧ ∀ c ∈ s.ctxs, c.ctxid ≠ 0xFFFF := by
  refine ⟨rfl, rfl, rfl, rfl, by decide, rfl, rfl, by decide, by decide⟩

theorem witness_MailboxStepsComplete_codes : (∀ k : Fin 8, fieldAt ((mailing 0 (leBytes 8 k)).fn 0).mbcmd 0 2 = k
      ∧ ((mailing 0 (leBytes 8 k)).fn 0).mbBusy = true)
    ∧ (mailing 0 (leBytes 8 4)).hostAt 0 = true := by decide

theorem witness_MailboxStepsComplete_move :
    let s : State := { mailing 0 (leBytes 8 5 ++ leBytes 8 (1 + 1023 * 2 ^ 16 + 7 * 2 ^ 32)) with ctxs := [{ wCtx with podgrp := 1 }] }
    s.ctxOfFn 0 (BitVec.ofNat 16 (s.operand 0 8 2)) = some { wCtx with podgrp := 1 } ∧ fieldAt (s.fn 0).mbcmd 0 2 = 5
    ∧ s.operand 0 10 2 = 1023 ∧ s.operand 0 12 2 = 7 := ⟨rfl, rfl, rfl, rfl⟩

theorem witness_MailboxStepsComplete_tlb :
    (resting.fn 0).tibusy = none ∧ resting.ctxOfFn 0 ((0x10001 : BitVec 64).extractLsb' 0 16) ≠ none
    ∧ (0x10001 : BitVec 64).extractLsb' 16 32 ≠ 0
    ∧ ((resting.modFn 0 fun f => { f with tibusy := some ⟨1, 0, 1⟩ }).fn 0).tibusy = some ⟨1, 0, 1⟩
    ∧ ∀ f ∈ (resting.modFn 0 fun f => { f with tibusy := some ⟨1, 0, 1⟩ }).frames, ∀ p ∈ f.pins,
        (⟨1, 0, 1⟩ : Tlbinv).meets p.ctx p.base p.size = false := by
  refine ⟨rfl, by decide, by decide, rfl, by decide⟩

theorem witness_RegisterStepsComplete_queues :
    let s : State := { resting with queues := [(1023, wQueue), (0, { wQueue with en := false })] }
    s.hostAt 0 = true ∧ (s.queue 1023).owner = some 0 ∧ (s.queue 1023).en = true ∧ (s.queue 0).owner = some 0 ∧ (s.queue 0).en = false := by
  decide

theorem witness_RegisterStepsComplete_window : resting.ctxAt 0 0 = resting.ctx? 1 ∧ (resting.ctxAt 0 0).isSome = true ∧ resting.hostAt 31 = true :=
  ⟨rfl, rfl, rfl⟩

theorem witness_RegisterStepsComplete_resume :
    let s := standing fun b => { b with frozen := some heldFreeze }
    ∃ c b f, s.ctxAt 0 0 = some c
      ∧ s.allBoards.find? (fun b => b.env.ctx == c.ctxid && b.slotIdx == (0x100000000 : BitVec 64).toNat % 2 ^ 14 && b.frozen.isSome) = some b
      ∧ b.frozen = some f ∧ f.frid = (0x100000000 : BitVec 64).extractLsb' 32 32 ∧ s.eretTaken b = false := ⟨_, _, _, rfl, rfl, rfl, rfl, rfl⟩

theorem witness_ResetLinkAndSidebandStepsComplete :
    resting.hostAt 31 = true ∧ resting.hostAt 0 = true ∧ resting.rails = true ∧ resting.linkUp = true ∧ resting.ctrl = true
    ∧ (resting.frame 0).inService = true ∧ (resting.frame 0).hung = false
    ∧ State.reset.rails = false ∧ State.reset.late = [] ∧ State.reset.records = [] ∧ (∀ r ∈ State.reset.rings, r.link = none)
    ∧ ∃ f ∈ ({ State.reset with late := [7] } : State).late, f ∉ ([] : List Nat) := by
  refine ⟨rfl, rfl, rfl, rfl, rfl, rfl, rfl, rfl, rfl, rfl, by decide, by decide⟩

/-- The link lost at 0: at the last instant it may retrain, and at the first at which the functions are reset. -/
theorem witness_ResetLinkAndSidebandStepsComplete_link :
    let s : State := { resting with linkUp := false, linkLost := some 0, time := 6552 * 9999999 }
    let t : State := { resting with linkUp := false, linkLost := some 0, time := 6552 * 10000000 }
    s.linkLost = some 0 ∧ s.linkUp = false ∧ s.linkReset = false ∧ s.now < 0 + 10000000 ∧ 0 + 10000000 ≤ t.now := by decide

end Sys2Proof.Tests
end

