-- ==== Sys2Proof/Proofs/MemoryReadAfterWrite.lean ====
section
/-!
What the byte memory in canonical form (log 1) reads as after a range of bytes is written.
-/
namespace Sys2Proof.Machine

/-- Each byte of the range written reads as the byte written there; every byte outside it is as before. -/
theorem Mem.get_write {m : Mem} (w : m.wf = true) (a c : Nat) (l : List Byte) :
    (m.write a l).get c = if a ≤ c ∧ c < a + l.length then l.getD (c - a) 0 else m.get c := by
  induction l generalizing m a with
  | nil =>
    have hout : ¬ (a ≤ c ∧ c < a + ([] : List Byte).length) := by simp
    rw [if_neg hout, Mem.write]
  | cons x t ih =>
    rw [Mem.write, ih (Mem.wf_set w a x), Mem.get_set w, List.length_cons]
    rcases Nat.lt_trichotomy c a with hlt | rfl | hgt
    · rw [if_neg (by omega), if_neg (by omega), if_neg (by omega)]
    · rw [if_neg (by omega), if_pos rfl, if_pos (by omega), Nat.sub_self, List.getD_cons_zero]
    · obtain ⟨k, rfl⟩ : ∃ k, c = a + 1 + k := ⟨c - (a + 1), by omega⟩
      have htail : a + 1 + k - (a + 1) = k := by omega
      have hcons : a + 1 + k - a = k + 1 := by omega
      rw [if_neg (show a + 1 + k ≠ a by omega), htail, hcons, List.getD_cons_succ]
      exact ite_congr (propext (by omega)) (fun _ => rfl) (fun _ => rfl)

/-- The range just written reads as the bytes written. -/
theorem Mem.read_write {m : Mem} (w : m.wf = true) (a : Nat) (l : List Byte) : (m.write a l).read a l.length = l := by
  refine List.ext_getElem (by simp [Mem.read, tab]) fun k _ hk => ?_
  have hin : a ≤ a + k ∧ a + k < a + l.length := by omega
  calc ((m.write a l).read a l.length)[k] = (m.write a l).get (a + k) := by simp [Mem.read, tab]
    _ = l.getD (a + k - a) 0 := by rw [Mem.get_write w, if_pos hin]
    _ = l[k] := by rw [Nat.add_sub_cancel_left, List.getD_eq_getElem?_getD, List.getElem?_eq_getElem hk, Option.getD_some]

/-- Settles O31: by induction on the bytes written, each step one byte written. -/
theorem memoryReadAfterWrite : Obligations.MemoryReadAfterWrite := by
  intro m a c l w
  exact ⟨Mem.get_write w a c l, Mem.wf_write w a l, Mem.read_write w a l⟩

end Sys2Proof.Machine
end

