-- ==== Sys2Proof/Proofs/MemoryPathSteps.lean ====
section
/-!
The steps of a board's memory path, each as an equation where its condition holds: a write at its home, a line that returns, a scratchpad access, a
load without L1 storage, a failure, and a peer's answer to a line.
-/
namespace Sys2Proof.Machine

variable {s : State} {b : Board} {o : MemOp} {id op n : Nat} {l : Line}

/-! ### Writes at home (10 R225) -/

/-- A store's idle line here that nothing bars: its bytes are written at home, and the board's copy and its lines on the way take them. -/
theorem State.perform_store_loc {a w : Nat} (hst : l.st = .idle) (hk : o.kind = .store w) (hm : b.mayPerform o (o.inLine l.va) = true)
    (ha : s.lineAt b o l = .ok (.loc a)) (hw : s.lineWaits b l = false) :
    let d := b.overlay (.loc a) (o.storeBytes l.va)
    s.perform b o n l = some (((s.writeLocal (some (s.writerOf b)) ((o.storeBytes l.va).map fun p => (a + p.1, p.2))).updateCopy d (.loc a)
      (o.storeBytes l.va)).putBoard (d.modOp o.id (setLine n fun l => { l with st := .performed, old := [], queued := false }))) := by
  simp [State.perform, ha, hst, hw, hm, hk, Board.ownTarget, State.writeTarget]

theorem execHomeWritePerformed_next {t : State} (hb : s.board? id = some b) (ho : b.op? op = some o) (hl : o.lines[n]? = some l)
    (ht : s.perform b o n l = some t) : execHomeWritePerformed id op n s = .next t := by
  simp [execHomeWritePerformed, event_next, hb, ho, hl, ht]

/-! ### Lines that return (07 R143, R150) -/

/-- An operation that fills no register waits for no landing (03 R52). -/
theorem Board.fillHeld_of_not_fills (h : o.kind.fills = false) : b.fillHeld o = false := by simp [Board.fillHeld, h]

/-- A load's idle line here that nothing bars returns with its bytes. -/
theorem State.lineReturn_load_loc {a w : Nat} {sx : Bool} (hst : l.st = .idle) (hk : o.kind = .load w sx)
    (hm : b.mayPerform o (o.inLine l.va) = true) (hf : b.fillHeld o = false) (ha : s.lineAt b o l = .ok (.loc a)) (hw : s.lineWaits b l = false)
    (h1 : s.l1Waits b o (.loc a) = false) : s.lineReturn b o n l = some (s.loadLine b o n l (.loc a) []) := by
  simp [State.lineReturn, hf, hst, hw, hm, ha, hk, h1, Board.ownTarget]

/-- A line performed at its home is acknowledged: an atomic's old values fill, and the line is done. -/
theorem State.lineReturn_performed (hst : l.st = .performed) (hf : b.fillHeld o = false) :
    s.lineReturn b o n l
      = some (s.putBoard (((fillOld b o l.old).modOp o.id (setLine n fun l => { l with st := .done })).settleOp o.id)) := by
  simp [State.lineReturn, hf, hst]

theorem execMemoryLineReturn_acc {t : State} (hb : s.board? id = some b) (ho : b.op? op = some o) (hl : o.lines[n]? = some l)
    (ht : s.lineReturn b o n l = some t) : execMemoryLineReturn (.acc id op n) (.ok []) s = .next t := by
  simp [execMemoryLineReturn, event_next, hb, ho, hl, ht]

/-! ### Scratchpad accesses (10 R219) -/

/-- A store to the scratchpad is served with all its lanes, in lane order. -/
theorem execScratchpadWave_store {w : Nat} {x : Bent} (hb : s.board? id = some b) (ho : b.op? op = some o) (hs : o.space = .scr)
    (hn : o.lanes ≠ []) (hk : o.kind = .store w) (hm : b.mayPerform o o.lanes = true) (hx : s.bent? b.env.bent = some x)
    (he : (s.charge b.env.ctx (b.core / 4) 2 (wavesOf b o)).scrError b o = none) :
    execScratchpadWave id op s = .next (((s.charge b.env.ctx (b.core / 4) 2 (wavesOf b o)).modBent x.uid fun y =>
      { y with
        scratch := o.lanes.foldl (fun m a => m.write a.va (wordBytes w a.data)) x.scratch
        badScr := whole y.badScr o.scrBytes
        unseen := o.sees y.unseen }).putBoard (b.complete o)) := by
  have hf : b.fillHeld o = false := Board.fillHeld_of_not_fills (by rw [hk]; rfl)
  simp [execScratchpadWave, event_next, hb, ho, hx, hs, hn, hf, hm, he, hk]

/-! ### Failures (10 R222, 21 R374) -/

theorem execL1StorageTimeout_late (hb : s.board? id = some b) (ho : b.op? op = some o) (hl : s.l1Late b o = some l) :
    execL1StorageTimeout id op s = .next (s.putBoard (b.modOp op fun o =>
      { o with lines := o.lines.map fun x => if x.va == l.va then { x with st := .failed 0x1E } else x })) := by
  simp [execL1StorageTimeout, event_next, hb, ho, hl]

/-- A failure is named by the cause and the address that the state gives it. -/
theorem named_toNat (cause : BitVec 8) (addr : BitVec 64) : named (cause.toNat, addr.toNat) cause addr = true := by simp [named]

@[simp] theorem State.lostAtoms_id : (s.lostAtoms b o).id = o.id := rfl

/-- A store that the state fails, with the failure named, is failed with it. -/
theorem execOperationFail_store {w : Nat} {cause : BitVec 8} {addr : BitVec 64} (hb : s.board? id = some b) (ho : b.op? op = some o)
    (hk : o.kind = .store w) (hg : ∀ g ∈ b.rgates, g.id ≠ op) (hf : s.opFailure b o = some (cause.toNat, addr.toNat)) :
    execOperationFail (.acc id op) cause addr s
      = .next (s.putBoard ((b.modOp o.id fun _ => s.lostAtoms b o).failOp (s.lostAtoms b o) cause addr)) := by
  have hgate : b.rgates.find? (·.id == op) = none := by simpa [List.find?_eq_none] using hg
  simp [execOperationFail, event_next, hb, ho, hgate, hk, hf, named_toNat]

/-! ### A peer's answer to a line (15 R319) -/

/-- The module has heard the peer that answers a request, and the request stands no more. -/
def State.afterAnswer (s : State) (r : OutReq) : State :=
  { s with heard := Machine.put r.mod s.now s.heard, outReqs := s.outReqs.filter (·.id != r.id) }

/-- The answer to a request that a board's line has sent goes to that line. -/
theorem State.answer_line {r : OutReq} {x : LineResp} (hb : s.board? r.board = some b) (ho : b.op? op = some o) (hl : o.lines[n]? = some l)
    (hst : l.st = .sent r.id) (hline : r.line = some (op, n)) :
    ({ s with heard := Machine.put r.mod s.now s.heard } : State).answer r x = (s.afterAnswer r).lineAnswer b o n l x := by
  have hb' : (s.afterAnswer r).board? r.board = some b := hb
  simp only [State.afterAnswer] at hb'
  simp [State.answer, State.afterAnswer, hline, hb', ho, hl, hst]

/-- An answer that may come, at the plane of its source's frame, answers its request at once. -/
theorem execMemoryLineReturn_out {r : OutReq} {x : LineResp} (hr : s.outReqs.find? (·.id == r.id) = some r) (hs : r.at_ = .sent)
    (hp : r.plane = r.source) (hm : r.mod ∉ s.lost) (hx : r.admits x = true) :
    execMemoryLineReturn (.out r.id) x s
      = event "MEMORY_LINE_RETURN" (({ s with heard := Machine.put r.mod s.now s.heard } : State).answer r x) := by
  simp [execMemoryLineReturn, hr, hs, hx, hm, State.answerAt, hp]

/-- The answer to a store ends its line; the board's copy and its lines on the way take what it has written. -/
theorem State.lineAnswer_store {w : Nat} (hk : o.kind = .store w) :
    s.lineAnswer b o n l (.ok []) = some ((s.updateCopy b l.tgt (o.storeBytes l.va)).putBoard
      (((b.overlay l.tgt (o.storeBytes l.va)).modOp o.id (setLine n fun l => { l with st := .done })).settleOp o.id)) := by
  have hf : b.fillHeld o = false := Board.fillHeld_of_not_fills (by rw [hk]; rfl)
  simp [State.lineAnswer, hf, hk]

/-- A fault of the peer fails the line with its cause. -/
theorem State.lineAnswer_fault (c : BitVec 8) :
    s.lineAnswer b o n l (.fault c) = some (s.putBoard (b.modOp o.id (setLine n fun l => { l with st := .failed c }))) := rfl

/-- A write of a pod group may be acknowledged. -/
theorem OutReq.admits_write {r : OutReq} {w : List (Nat × Byte)} (hg : r.group ≠ 0) (hk : r.kind = .write w) : r.admits (.ok []) = true := by
  simpa [OutReq.admits, hk, answerLen] using hg

/-- A request of a pod group may be refused for want of rights. -/
theorem OutReq.admits_fault {r : OutReq} (hg : r.group ≠ 0) : r.admits (.fault 0x1C) = true := by
  simpa [OutReq.admits] using hg

/-- Settles O49: each step of a memory path comes about where its condition holds, with its effect. -/
theorem memoryPathStepsComplete : Obligations.MemoryPathStepsComplete := by
  intro s b o id op hb ho
  refine ⟨fun n l a w hl hst hk hm ha hw => ?write, fun n l a w sx hl hst hk hm hf ha hw h1 => ?load, fun n l hl hst hf => ?acknowledged,
    fun w x hs hn hk hm hx he => ?scratchpad, fun l hl => ?late, fun w cause addr hk hg hf => ?failure,
    fun r n l w hr hs hp hm hg hid hline hk _ hl hst => ?answer⟩
  case write => exact execHomeWritePerformed_next hb ho hl (State.perform_store_loc hst hk hm ha hw)
  case load => exact execMemoryLineReturn_acc hb ho hl (State.lineReturn_load_loc hst hk hm hf ha hw h1)
  case acknowledged => exact execMemoryLineReturn_acc hb ho hl (State.lineReturn_performed hst hf)
  case scratchpad => exact execScratchpadWave_store hb ho hs hn hk hm hx he
  case late => exact execL1StorageTimeout_late hb ho hl
  case failure => exact execOperationFail_store hb ho hk hg hf
  case answer =>
    have hanswer : ∀ x, r.admits x = true →
        exec (.memoryLineReturn (.out r.id) x) s = event "MEMORY_LINE_RETURN" ((s.afterAnswer r).lineAnswer b o n l x) := fun x hx => by
      rw [exec_memoryLineReturn, execMemoryLineReturn_out hr hs hp hm hx, State.answer_line (hid ▸ hb) ho hl hst hline]
    refine ⟨fun m hkind => ?_, ?_⟩
    · rw [hanswer _ (OutReq.admits_write hg hk), State.lineAnswer_store hkind]
      rfl
    · rw [hanswer _ (OutReq.admits_fault hg), State.lineAnswer_fault]
      rfl

end Sys2Proof.Machine
end

