-- ==== Sys2Proof/Proofs/ClockPeriods.lean ====
section
/-!
Clock periods, engine acceptance, droop phases and correction freezes: what the parts of a period leave alone, and each step of the clocks as an
equation where its condition holds.
-/
namespace Sys2Proof.Machine

variable {s : State} {bay : Nat}

/-! ### What the parts of a period leave alone -/

@[simp] theorem State.elapse_wall (w : Nat) : (s.elapse w).wall = max w s.wall := rfl
@[simp] theorem State.elapse_mem (w : Nat) : (s.elapse w).mem = s.mem := rfl
@[simp] theorem State.elapse_hostMem (w : Nat) : (s.elapse w).hostMem = s.hostMem := rfl

@[simp] theorem State.enterParts_wall : (s.enterParts bay).wall = s.wall := rfl
@[simp] theorem State.enterParts_mem : (s.enterParts bay).mem = s.mem := rfl
@[simp] theorem State.enterParts_hostMem : (s.enterParts bay).hostMem = s.hostMem := rfl

@[simp] theorem State.chargeStatic_wall : (s.chargeStatic bay).wall = s.wall := rfl
@[simp] theorem State.chargeStatic_mem : (s.chargeStatic bay).mem = s.mem := rfl
@[simp] theorem State.chargeStatic_hostMem : (s.chargeStatic bay).hostMem = s.hostMem := rfl

/-! ### The period of a bay (03 R42) -/

/-- A period that may begin begins: time passes to the boundary, the partitions enter it, and its static energy is charged once or, in a stretched
tick, twice, before the bay's droop and boundary move on. -/
theorem execCoreClockPeriod_of_mayTick (h : s.mayTick bay = true) :
    let u := ((s.elapse (s.bay bay).nextEdge).enterParts bay).chargeStatic bay
    ∃ v f, (v = u ∨ v = u.chargeStatic bay) ∧ execCoreClockPeriod bay s = .next (v.modBay bay f) := by
  simp only [execCoreClockPeriod, h, Bool.not_true, Bool.false_eq_true, if_false, event]
  refine ⟨_, _, ?_, rfl⟩
  split
  · split
    · exact .inr rfl
    · exact .inl rfl
  · exact .inl rfl

/-- Wall time stands at the boundary after the period's step, which changes no memory. -/
theorem execCoreClockPeriod_wall_mem (h : s.mayTick bay = true) :
    ∃ t, execCoreClockPeriod bay s = .next t ∧ t.wall = max (s.bay bay).nextEdge s.wall ∧ t.mem = s.mem ∧ t.hostMem = s.hostMem := by
  obtain ⟨v, f, hv, he⟩ := execCoreClockPeriod_of_mayTick h
  refine ⟨_, he, ?_⟩
  rcases hv with rfl | rfl <;> simp

/-! ### Commands of held ports (01 R11) -/

/-- In a partition whose period is a tick already, the engine's acceptance grants the port and does no more. -/
theorem execEngineCommandAccept_ticking {e : EngineId} {h n q : Nat} {one : Bool} (hf : firstHeld (s.heldFor e) = some (h, n, one, q, true))
    (ht : (s.partAt n).ticking = true) (hg : ∀ x, s.board? q = some x → s.lateFor x = true → s.arrivesNext q = false) :
    execEngineCommandAccept e s = .next (s.modPart n fun p => p.modPort one fun q => { q with grant := true }) := by
  have hturn : (s.board? q).any s.lateFor = true → s.arrivesNext q = false := by
    rw [Option.any_eq_true]
    rintro ⟨x, hx, hl⟩
    exact hg x hx hl
  simpa [execEngineCommandAccept, event_next, hf, ht] using hturn

/-! ### Droop phases (16 R338) -/

theorem execDroopStretchEnd_eq {d : Droop} (hd : (s.bay bay).droop = some d) (he : s.atEdge bay = true) (h1 : d.stretch = 1) :
    execDroopStretchEnd bay s
      = .next (s.modBay bay fun y => { y with droop := some { stretch := 0, window := 64, skip := false, half := true } }) := by
  simp [execDroopStretchEnd, event_next, hd, he, h1]

theorem execDroopWindowEnd_eq {d : Droop} (hd : (s.bay bay).droop = some d) (he : s.atEdge bay = true) (h0 : d.stretch = 0)
    (hh : d.half = true) (hw : d.window = 0) (hs : d.skip = false) :
    execDroopWindowEnd bay s = .next (s.modBay bay fun y => { y with droop := none }) := by
  simp [execDroopWindowEnd, event_next, hd, he, h0, hh, hw, hs]

/-! ### Corrections (23 R414) -/

theorem execEccCorrection_core {core : Nat} (hc : core < 128) (hr : s.runs (core / 4) = true) :
    execEccCorrection core s = .next ((s.modCore core fun c => { c with freeze := 25 }).countCorrected (core / 16) (core % 16)) := by
  simp [execEccCorrection, event_next, show ¬ 128 ≤ core by omega, hr]

/-- The unit of number 128 + 8f + k is unit 16 + k of frame f. -/
theorem execEccCorrection_frameUnit {f k : Nat} (hf : f < 8) (hk : k < 6) (hr : s.rails = true) :
    execEccCorrection (128 + 8 * f + k) s = .next (s.countCorrected f (16 + k)) := by
  have hge : 128 ≤ 128 + 8 * f + k := by omega
  have hsub : 128 + 8 * f + k - 128 = 8 * f + k := by omega
  have hdiv : (8 * f + k) / 8 = f := by omega
  have hmod : (8 * f + k) % 8 = k := by omega
  simp [execEccCorrection, event_next, hge, hsub, hr, hdiv, hmod, show ¬ 64 ≤ 8 * f + k by omega, show ¬ 6 ≤ k by omega]

theorem execCorrectionFreezeEnd_eq {core : Nat} (hc : core < 128) (hf : (s.core core).freeze = 1) :
    execCorrectionFreezeEnd core s = .next (s.modCore core fun c => { c with freeze := 0 }) := by
  simp [execCorrectionFreezeEnd, event_next, hc, hf]

/-- Settles O56: each step of the clocks comes about where its condition holds, with its effect. -/
theorem clockStepsComplete : Obligations.ClockStepsComplete := by
  intro s bay core e
  refine ⟨fun h => ?period, fun h n one q hf ht hg => ?accept, fun d hd he => ⟨fun h1 => ?stretch, fun h0 hh hw hs => ?window⟩,
    fun hc hr => ?correction, fun f k hf hk hr => ?unit, fun hc hf => ?freezeEnd⟩
  case period => exact execCoreClockPeriod_wall_mem h
  case accept => exact execEngineCommandAccept_ticking hf ht hg
  case stretch => exact execDroopStretchEnd_eq hd he h1
  case window => exact execDroopWindowEnd_eq hd he h0 hh hw hs
  case correction => exact execEccCorrection_core hc hr
  case unit => exact execEccCorrection_frameUnit hf hk hr
  case freezeEnd => exact execCorrectionFreezeEnd_eq hc hf

end Sys2Proof.Machine
end

