-- ==== Sys2Proof/Proofs/ExactRounding.lean ====
section
/-!
Rounding of exact values (04 R75): an encoding is its sign, exponent and mantissa fields, a value on a format's grid needs no rounding, and the result puts
the fields together again.
-/
namespace Sys2Proof

open Machine

variable {f : Fmt} {w : Nat}

/-! ### The fields of an encoding (04 R70, R71) -/

/-- The sign bit of an encoding. -/
def Fmt.signOf (f : Fmt) (w : Nat) : Bool := w.testBit (f.width - 1)
/-- The exponent field of an encoding. -/
def Fmt.expOf (f : Fmt) (w : Nat) : Nat := bits w f.mbits f.ebits
/-- The mantissa field of an encoding. -/
def Fmt.manOf (f : Fmt) (w : Nat) : Nat := bits w 0 f.mbits

theorem Fmt.width_eq (hf : f.isFloat = true) : f.width = f.mbits + f.ebits + 1 := by
  revert hf
  cases f <;> decide

theorem Fmt.manOf_lt (f : Fmt) (w : Nat) : f.manOf w < 2 ^ f.mbits := Nat.mod_lt _ (Nat.two_pow_pos _)

theorem Fmt.expOf_lt (f : Fmt) (w : Nat) : f.expOf w < 2 ^ f.ebits := Nat.mod_lt _ (Nat.two_pow_pos _)

/-- The sign bit in its place is what stands above the other two fields. -/
theorem Fmt.signBit_signOf (hf : f.isFloat = true) (hw : w < 2 ^ f.width) :
    f.signBit (f.signOf w) = w / 2 ^ (f.mbits + f.ebits) * 2 ^ (f.mbits + f.ebits) := by
  have hlt : w / 2 ^ (f.mbits + f.ebits) < 2 := by
    rw [Fmt.width_eq hf, Nat.pow_succ] at hw
    exact Nat.div_lt_of_lt_mul hw
  rw [Fmt.signBit, Fmt.signOf, Fmt.width_eq hf, Nat.add_sub_cancel, Nat.testBit_eq_decide_div_mod_eq, Nat.mod_eq_of_lt hlt]
  obtain h | h := Nat.le_one_iff_eq_zero_or_eq_one.mp (Nat.le_of_lt_succ hlt)
  · simp [h]
  · simp [h]

/-- An encoding is its three fields in their places. -/
theorem Fmt.fields_eq (hf : f.isFloat = true) (hw : w < 2 ^ f.width) :
    f.signBit (f.signOf w) + f.expOf w * 2 ^ f.mbits + f.manOf w = w := by
  have hexp : w / 2 ^ (f.mbits + f.ebits) * 2 ^ f.ebits + f.expOf w = w / 2 ^ f.mbits := by
    rw [Fmt.expOf, bits, Nat.shiftRight_eq_div_pow, Nat.pow_add, ← Nat.div_div_eq_div_mul, Nat.div_add_mod']
  calc f.signBit (f.signOf w) + f.expOf w * 2 ^ f.mbits + f.manOf w
      = (w / 2 ^ (f.mbits + f.ebits) * 2 ^ f.ebits + f.expOf w) * 2 ^ f.mbits + f.manOf w := by
        rw [Fmt.signBit_signOf hf hw, Nat.add_mul, Nat.mul_assoc, ← Nat.pow_add, Nat.add_comm f.ebits]
    _ = w / 2 ^ f.mbits * 2 ^ f.mbits + w % 2 ^ f.mbits := by rw [hexp]; rfl
    _ = w := Nat.div_add_mod' w _

/-! ### Values on the grid -/

/-- A magnitude cut in its own units leaves no rest. -/
@[simp] theorem cut_self (m : Nat) (e : Int) : cut m e e = (m, 0) := by simp [cut]

/-- No mode rounds up where there is no rest. -/
@[simp] theorem roundsUp_zero (rm : RMode) (neg : Bool) (n : Nat) (tieUp : Bool) : roundsUp rm neg n 0 tieUp = false := by
  cases rm <;> simp [roundsUp]

theorem Fmt.roundMag_zero (rm : RMode) (sat neg : Bool) (e : Int) :
    f.roundMag rm sat neg 0 e = { val := BitVec.ofNat 32 (f.signBit neg) } := rfl

/-- A magnitude in units of its format's last place, and not above the greatest, is put into its fields as it stands. -/
theorem Fmt.roundMag_exact {m : Nat} {e : Int} (rm : RMode) (sat neg : Bool) (hm : m ≠ 0)
    (hgrid : max ((Nat.log2 m : Int) + e) f.emin - f.mbits = e) (hmax : e ≤ f.emax - f.mbits)
    (htop : e = f.emax - f.mbits → m ≤ f.maxMant) :
    f.roundMag rm sat neg m e =
      { val := BitVec.ofNat 32 (f.signBit neg + ((e - (f.emin - f.mbits)).toNat <<< f.mbits) + m) } := by
  have hfits : ¬(f.emax - f.mbits < e ∨ e = f.emax - f.mbits ∧ f.maxMant < m) := by
    rintro (h | ⟨h, h'⟩)
    · omega
    · exact absurd (htop h) (by omega)
  simp [Fmt.roundMag, hm, hgrid, hfits, flagIf]

/-! ### The value of an encoding -/

/-- What an encoding of a floating-point format stands for, from its fields (04 R71, R72). -/
theorem Fmt.val_eq (hf : f.isFloat = true) (hw : w < 2 ^ f.width) :
    f.val w =
      if f == .e4m3 && f.expOf w == 15 && f.manOf w == 7 then .nan
      else if f.hasInf && f.expOf w == 2 ^ f.ebits - 1 then (if f.manOf w == 0 then .inf (f.signOf w) else .nan)
      else if f.expOf w == 0 then .num (f.signOf w) (f.manOf w) (f.emin - f.mbits)
      else .num (f.signOf w) (2 ^ f.mbits + f.manOf w) ((f.expOf w : Int) - f.bias - f.mbits) := by
  have hmod := Nat.mod_eq_of_lt hw
  cases f <;> cases hf <;> (unfold Fmt.val; rw [hmod]; rfl)

/-- The exponent field of a format's greatest number, and that number's mantissa (04 R70): in a format with infinities the field stands below all ones, in
the other two it is all ones, and E4M3 has its NaN above. -/
theorem Fmt.greatest_fields (hf : f.isFloat = true) :
    f.emax + f.bias = (2 ^ f.ebits - 1 : Nat) - (if f.hasInf = true then 1 else 0)
    ∧ f.maxMant = 2 ^ (f.mbits + 1) - (if f = .e4m3 then 2 else 1) := by
  revert hf
  cases f <;> decide

/-- The fields of an encoding that is neither infinite nor a NaN lie within the format's range. -/
theorem Fmt.fields_le (hf : f.isFloat = true) (hnan : ¬(f = .e4m3 ∧ f.expOf w = 15 ∧ f.manOf w = 7))
    (hinf : ¬(f.hasInf = true ∧ f.expOf w = 2 ^ f.ebits - 1)) :
    (f.expOf w : Int) ≤ f.emax + f.bias ∧ ((f.expOf w : Int) = f.emax + f.bias → 2 ^ f.mbits + f.manOf w ≤ f.maxMant) := by
  obtain ⟨htop, hmant⟩ := Fmt.greatest_fields hf
  have he := f.expOf_lt w
  have hm := f.manOf_lt w
  have hpow : 2 ^ (f.mbits + 1) = 2 * 2 ^ f.mbits := Nat.pow_succ'
  rw [htop, hmant, hpow]
  constructor
  · split
    case isTrue hi =>
      have hne : f.expOf w ≠ 2 ^ f.ebits - 1 := fun h => hinf ⟨hi, h⟩
      omega
    case isFalse => omega
  · intro hE
    split
    case isTrue h4 =>
      subst h4
      have hE15 : Fmt.expOf .e4m3 w = 15 := by
        simp only [Fmt.hasInf, Fmt.ebits, Bool.false_eq_true, if_false] at hE
        omega
      have hm7 : Fmt.manOf .e4m3 w ≠ 7 := fun h => hnan ⟨rfl, hE15, h⟩
      change Fmt.manOf .e4m3 w < 8 at hm
      change 8 + Fmt.manOf .e4m3 w ≤ 14
      omega
    case isFalse => omega

/-- An encoding that is no NaN is an infinity, a zero or subnormal number, or a normal number within the format's range. -/
theorem Fmt.val_cases (hf : f.isFloat = true) (hw : w < 2 ^ f.width) (hnan : f.val w ≠ .nan) :
    (f.val w = .inf (f.signOf w) ∧ f.hasInf = true ∧ f.expOf w = 2 ^ f.ebits - 1 ∧ f.manOf w = 0)
    ∨ (f.val w = .num (f.signOf w) (f.manOf w) (f.emin - f.mbits) ∧ f.expOf w = 0)
    ∨ (f.val w = .num (f.signOf w) (2 ^ f.mbits + f.manOf w) ((f.expOf w : Int) - f.bias - f.mbits) ∧ f.expOf w ≠ 0
      ∧ (f.expOf w : Int) ≤ f.emax + f.bias ∧ ((f.expOf w : Int) = f.emax + f.bias → 2 ^ f.mbits + f.manOf w ≤ f.maxMant)) := by
  have hval := Fmt.val_eq hf hw
  split at hval
  case isTrue => exact absurd hval hnan
  case isFalse hN =>
    split at hval
    case isTrue hI =>
      split at hval
      case isTrue hm => exact .inl ⟨hval, by simpa [and_assoc] using And.intro hI hm⟩
      case isFalse => exact absurd hval hnan
    case isFalse hI =>
      split at hval
      case isTrue he => exact .inr (.inl ⟨hval, by simpa using he⟩)
      case isFalse he => exact .inr (.inr ⟨hval, by simpa using he, Fmt.fields_le hf (by simpa [and_assoc] using hN) (by simpa using hI)⟩)

/-! ### Encodings round to themselves -/

theorem Fmt.round_inf_self (rm : RMode) (hf : f.isFloat = true) (hw : w < 2 ^ f.width) (hinf : f.hasInf = true)
    (he : f.expOf w = 2 ^ f.ebits - 1) (hm : f.manOf w = 0) : f.round rm false (.inf (f.signOf w)) = { val := BitVec.ofNat 32 w } := by
  have hfields := Fmt.fields_eq hf hw
  rw [he, hm, ← Nat.shiftLeft_eq, ← Fmt.infBits, Nat.add_zero] at hfields
  have h4 : f ≠ .e4m3 := by rintro rfl; exact absurd hinf (by decide)
  have h2 : f ≠ .e2m1 := by rintro rfl; exact absurd hinf (by decide)
  simp [Fmt.round, h4, h2, hfields]

theorem Fmt.roundMag_subnormal_self (rm : RMode) (sat : Bool) (hf : f.isFloat = true) (hw : w < 2 ^ f.width) (he : f.expOf w = 0) :
    f.roundMag rm sat (f.signOf w) (f.manOf w) (f.emin - f.mbits) = { val := BitVec.ofNat 32 w } := by
  have hfields := Fmt.fields_eq hf hw
  rw [he, Nat.zero_mul, Nat.add_zero] at hfields
  by_cases hm : f.manOf w = 0
  · rw [hm, Nat.add_zero] at hfields
    rw [hm, Fmt.roundMag_zero, hfields]
  · have hlog : Nat.log2 (f.manOf w) < f.mbits := (Nat.log2_lt hm).mpr (f.manOf_lt w)
    have hrange : f.emin < f.emax := by
      revert hf
      cases f <;> decide
    rw [Fmt.roundMag_exact rm sat _ hm (by omega) (by omega) (by omega), Int.sub_self, Int.toNat_zero, Nat.zero_shiftLeft, Nat.add_zero, hfields]

theorem Fmt.roundMag_normal_self (rm : RMode) (sat : Bool) (hf : f.isFloat = true) (hw : w < 2 ^ f.width) (he : f.expOf w ≠ 0)
    (hle : (f.expOf w : Int) ≤ f.emax + f.bias) (htop : (f.expOf w : Int) = f.emax + f.bias → 2 ^ f.mbits + f.manOf w ≤ f.maxMant) :
    f.roundMag rm sat (f.signOf w) (2 ^ f.mbits + f.manOf w) ((f.expOf w : Int) - f.bias - f.mbits) = { val := BitVec.ofNat 32 w } := by
  have hpos := Nat.two_pow_pos f.mbits
  have hm := f.manOf_lt w
  have hlog : Nat.log2 (2 ^ f.mbits + f.manOf w) = f.mbits := by
    rw [Nat.log2_eq_iff (by omega), Nat.pow_succ]
    omega
  have hemin : f.emin = 1 - (f.bias : Int) := rfl
  have hunits : ((f.expOf w : Int) - f.bias - f.mbits - (f.emin - f.mbits)).toNat + 1 = f.expOf w := by omega
  have hfields := Fmt.fields_eq hf hw
  rw [← hunits, Nat.succ_mul] at hfields
  rw [Fmt.roundMag_exact rm sat _ (by omega) (by rw [hlog]; omega) (by omega) (fun h => htop (by omega)), Nat.shiftLeft_eq]
  congr 2
  omega

/-- Settles O46: by the three kinds of encodings that are no NaN. -/
theorem exactValuesRoundToThemselves : Obligations.ExactValuesRoundToThemselves := by
  intro f rm sat w hf hw hnan hsat
  have hval : f.val w ≠ .nan := by simpa [Fmt.isNaN] using hnan
  obtain ⟨hv, hinf, he, hm⟩ | ⟨hv, he⟩ | ⟨hv, he, hle, htop⟩ := Fmt.val_cases hf hw hval
  · obtain rfl | hfin := hsat
    · rw [hv]
      exact Fmt.round_inf_self rm hf hw hinf he hm
    · exact absurd hv (hfin _)
  · rw [hv]
    exact Fmt.roundMag_subnormal_self rm sat hf hw he
  · rw [hv]
    exact Fmt.roundMag_normal_self rm sat hf hw he hle htop

end Sys2Proof
end

