-- ==== Sys2Proof/Proofs/IntegerArithmetic.lean ====
section
/-!
Integer arithmetic of one lane in terms of the numbers that its words stand for: the clamp of SAT, high products, and the orders of IMIN, IMAX and ICMP.
-/
namespace Sys2Proof.Machine

/-! ### The number of a word -/

theorem ofInt_numOf (uns : Bool) (a : Word) : BitVec.ofInt 32 (numOf uns a) = a := by
  cases uns
  · exact BitVec.ofInt_toInt
  · rw [numOf, if_pos rfl, BitVec.ofInt_natCast, BitVec.ofNat_toNat, BitVec.setWidth_eq]

theorem numOf_inj {uns : Bool} {a b : Word} : numOf uns a = numOf uns b ↔ a = b :=
  ⟨fun h => by rw [← ofInt_numOf uns a, h, ofInt_numOf], fun h => by rw [h]⟩

theorem iLess_eq (uns : Bool) (a b : Word) : iLess uns a b = decide (numOf uns a < numOf uns b) := by
  cases uns
  · exact BitVec.slt_eq_decide
  · simp [iLess, numOf, BitVec.ult_eq_decide]

theorem iCmp_eq_holds (c : Cond) (uns : Bool) (a b : Word) : iCmp c uns a b = Cond.holds c (numOf uns a) (numOf uns b) := by
  rw [Bool.eq_iff_iff]
  cases c <;> simp [iCmp, Cond.holds, iLess_eq, numOf_inj]

/-- The choice of IMIN is the lesser number. -/
theorem ite_iLess_min (uns : Bool) (a b : Word) :
    (if iLess uns b a then b else a) = BitVec.ofInt 32 (min (numOf uns a) (numOf uns b)) := by
  rw [iLess_eq]
  rcases Int.lt_or_le (numOf uns b) (numOf uns a) with h | h
  · rw [if_pos (decide_eq_true h), Int.min_eq_right (Int.le_of_lt h), ofInt_numOf]
  · rw [if_neg (by simpa using h), Int.min_eq_left h, ofInt_numOf]

/-- The choice of IMAX is the greater number. -/
theorem ite_iLess_max (uns : Bool) (a b : Word) :
    (if iLess uns a b then b else a) = BitVec.ofInt 32 (max (numOf uns a) (numOf uns b)) := by
  rw [iLess_eq]
  rcases Int.lt_or_le (numOf uns a) (numOf uns b) with h | h
  · rw [if_pos (decide_eq_true h), Int.max_eq_right (Int.le_of_lt h), ofInt_numOf]
  · rw [if_neg (by simpa using h), Int.max_eq_left h, ofInt_numOf]

/-! ### Sums under SAT -/

theorem clampInt_eq {lo hi : Int} (h : lo ≤ hi) (t : Int) : clampInt lo hi t = (max lo (min hi t), decide (t < lo ∨ hi < t)) := by
  unfold clampInt
  split
  case isTrue hlo => rw [Int.min_eq_right (by omega), Int.max_eq_left (Int.le_of_lt hlo), decide_eq_true (Or.inl hlo)]
  case isFalse hlo =>
    split
    case isTrue hhi => rw [Int.min_eq_left (Int.le_of_lt hhi), Int.max_eq_right h, decide_eq_true (Or.inr hhi)]
    case isFalse hhi => rw [Int.min_eq_right (by omega), Int.max_eq_right (by omega), decide_eq_false (by omega)]

@[simp] theorem iSum_wrap (sub uns : Bool) (a b : Word) : iSum sub false uns a b = { val := if sub then a - b else a + b } := rfl

/-- With SAT the exact sum or difference is clamped to the range of the type (04 R69), and SAT tells that it lies outside. -/
theorem iSum_sat (sub uns : Bool) (a b : Word) :
    iSum sub true uns a b =
      let t := if sub then numOf uns a - numOf uns b else numOf uns a + numOf uns b
      let lo : Int := if uns then 0 else -2147483648
      let hi : Int := if uns then 4294967295 else 2147483647
      { val := BitVec.ofInt 32 (max lo (min hi t)), flags := if t < lo ∨ hi < t then 0x20 else 0 } := by
  cases uns <;> simp [iSum, numOf, flagIf, flSAT, clampInt_eq]

/-- A sum of unsigned numbers can only exceed the range. -/
theorem iSum_sat_unsigned_add (a b : Word) :
    iSum false true true a b =
      { val := BitVec.ofNat 32 (min 4294967295 (a.toNat + b.toNat)), flags := if 4294967295 < a.toNat + b.toNat then 0x20 else 0 } := by
  have hval : max 0 (min 4294967295 ((a.toNat : Int) + b.toNat)) = ((min 4294967295 (a.toNat + b.toNat) : Nat) : Int) := by omega
  have hflag : ((a.toNat : Int) + b.toNat < 0 ∨ (4294967295 : Int) < a.toNat + b.toNat) ↔ 4294967295 < a.toNat + b.toNat := by omega
  simp only [iSum_sat, numOf, Bool.false_eq_true, if_true, if_false, hval, hflag, BitVec.ofInt_natCast]

/-- A difference of unsigned numbers can only fall below it. -/
theorem iSum_sat_unsigned_sub (a b : Word) :
    iSum true true true a b = { val := BitVec.ofNat 32 (a.toNat - b.toNat), flags := if a.toNat < b.toNat then 0x20 else 0 } := by
  have ha : a.toNat < 4294967296 := a.isLt
  have hval : max 0 (min 4294967295 ((a.toNat : Int) - b.toNat)) = ((a.toNat - b.toNat : Nat) : Int) := by omega
  have hflag : ((a.toNat : Int) - b.toNat < 0 ∨ (4294967295 : Int) < a.toNat - b.toNat) ↔ a.toNat < b.toNat := by omega
  simp only [iSum_sat, numOf, if_true, hval, hflag, BitVec.ofInt_natCast]

/-! ### High products -/

/-- The high half of a number's 64-bit word is the number divided by 2^32, rounded down. -/
theorem extractHigh_ofInt (z : Int) : (BitVec.ofInt 64 z).extractLsb' 32 32 = BitVec.ofInt 32 (z / 2 ^ 32) := by
  apply BitVec.eq_of_toNat_eq
  simp only [BitVec.extractLsb'_toNat, BitVec.toNat_ofInt, Nat.shiftRight_eq_div_pow]
  omega

theorem mulHigh_signed (a b : Word) : mulHigh false a b = (a.signExtend 64 * b.signExtend 64).extractLsb' 32 32 := by
  have hprod : a.signExtend 64 * b.signExtend 64 = BitVec.ofInt 64 (a.toInt * b.toInt) := by
    rw [BitVec.signExtend, BitVec.signExtend, ← BitVec.ofInt_mul]
  rw [hprod, extractHigh_ofInt]
  rfl

theorem mulHigh_unsigned (a b : Word) : mulHigh true a b = (a.setWidth 64 * b.setWidth 64).extractLsb' 32 32 := by
  have hprod : a.setWidth 64 * b.setWidth 64 = BitVec.ofInt 64 ((a.toNat * b.toNat : Nat) : Int) := by
    rw [BitVec.ofInt_natCast, BitVec.ofNat_mul, BitVec.ofNat_toNat, BitVec.ofNat_toNat]
  rw [hprod, extractHigh_ofInt, mulHigh, if_pos rfl, Nat.shiftRight_eq_div_pow, ← BitVec.ofInt_natCast]
  rfl

/-! ### The instructions -/

/-- Settles O2: each lane function of the integer instructions, written as the arithmetic of the numbers in its words. -/
theorem integerArithmeticCompletes : Obligations.IntegerArithmeticCompletes := by
  intro s b d x y z md uns c
  refine ⟨?iadd, ?isub, ?iaddSat, ?isubSat, ?iaddSatU, ?isubSatU, ?imul, ?imad, ?imulh, ?imulhU, ?imin, ?imax, ?icmp⟩
  case iadd => exact givesLanes_of_vec _ (exec_iadd s) (fun l _ => by simp) (fun _ _ => rfl)
  case isub => exact givesLanes_of_vec _ (exec_isub s) (fun l _ => by simp) (fun _ _ => rfl)
  case iaddSat => exact givesFloat_of_vec _ (exec_iadd s) fun l _ => by simp [iSum_sat, numOf]
  case isubSat => exact givesFloat_of_vec _ (exec_isub s) fun l _ => by simp [iSum_sat, numOf]
  case iaddSatU => exact givesFloat_of_vec _ (exec_iadd s) fun l _ => by simp [iSum_sat_unsigned_add]
  case isubSatU => exact givesFloat_of_vec _ (exec_isub s) fun l _ => by simp [iSum_sat_unsigned_sub]
  case imul => exact givesLanes_of_vec _ (exec_imul s) (fun l _ => by simp) (fun _ _ => rfl)
  case imad => exact givesLanes_of_vec _ (exec_imad s) (fun l _ => by simp) (fun _ _ => rfl)
  case imulh => exact givesLanes_of_vec _ (exec_imulh s) (fun l _ => by simp [mulHigh_signed]) (fun _ _ => rfl)
  case imulhU => exact givesLanes_of_vec _ (exec_imulh s) (fun l _ => by simp [mulHigh_unsigned]) (fun _ _ => rfl)
  case imin => exact givesLanes_of_vec _ (exec_imin s) (fun l _ => by simp [ite_iLess_min]) (fun _ _ => rfl)
  case imax => exact givesLanes_of_vec _ (exec_imax s) (fun l _ => by simp [ite_iLess_max]) (fun _ _ => rfl)
  case icmp => exact givesMask_of_outM _ (exec_icmp s) fun l _ => by simp [iCmp_eq_holds]

end Sys2Proof.Machine
end

