-- ==== Sys2Proof/Proofs/Conversions.lean ====
section
/-!
CVT, NARROW and QSCALE (06 R128, R129): what they read of the noted board is what they read of the board itself, and the flags that the blocks raise.
-/
namespace Sys2Proof.Machine

variable (s : State) (b : Board) (i : Instr)

/-! ### What the noted board shows -/

theorem Board.vnum_flight {b c : Board} (h : b.sameButFlight c) (idx : Bool) (n : BitVec 6) : c.vnum idx n = b.vnum idx n := by
  obtain ⟨_, _, _, _, hix, _⟩ := Board.sameButFlight_reads h
  simp [Board.vnum, Board.indexed, hix]

@[simp] theorem State.scales_noted (x : Opd) (f : Fmt) : s.scales (s.noted b i) x f = s.scales b x f := by simp [State.scales]

@[simp] theorem State.narrowed_noted (x : Opd) (rm : RMode) (sat fb : Bool) (f : Fmt) (sc : List (Nat × Word)) :
    s.narrowed (s.noted b i) x rm sat fb f sc = s.narrowed b x rm sat fb f sc := by simp [State.narrowed]

/-! ### NARROW's entry of dv and its flags -/

/-- The window of the dv entry that NARROW writes, noted (03 R53). -/
def Board.noteNarrowDv (b : Board) (m : Mask) : Board :=
  { b with vwins := { loc := .dv 0, lanes := m, rem := 10, fresh := true } :: b.vwins }

theorem State.sameButFlight_noteNarrowDv (m : Mask) : b.sameButFlight ((s.noted b i).noteNarrowDv m) :=
  Board.sameButFlight_trans (s.sameButFlight_noted b i) (by simp [Board.noteNarrowDv, Board.sameButFlight])

/-- Flags of scales joined to others: those of either. -/
theorem foldl_scaleFlags_bit (sc : List (Nat × Word)) (w : Word) (k : Nat) :
    (sc.foldl (fun w q => w ||| q.2) w).getLsbD k = true ↔ w.getLsbD k = true ∨ ∃ q ∈ sc, q.2.getLsbD k = true := by
  induction sc generalizing w with
  | nil => simp
  | cons q t ih => rw [List.foldl_cons, ih]; simp [or_assoc]

/-- The flags of NARROW are those of its blocks' scales and of its elements (22 R401). -/
theorem narrowFlags_bit (sc : List (Nat × Word)) (rs : List (Nat × Res)) (k : Nat) :
    (sc.foldl (fun w q => w ||| q.2) (allFlags (rs.map (·.2)))).getLsbD k = true
      ↔ (∃ q ∈ sc, q.2.getLsbD k = true) ∨ ∃ r ∈ rs, r.2.flags.getLsbD k = true := by
  have helems : (∃ r ∈ rs.map (·.2), r.flags.getLsbD k = true) ↔ ∃ r ∈ rs, r.2.flags.getLsbD k = true :=
    ⟨fun ⟨_, hmem, h⟩ => by obtain ⟨r, hr, rfl⟩ := List.mem_map.mp hmem; exact ⟨r, hr, h⟩, fun ⟨r, hr, h⟩ => ⟨r.2, List.mem_map_of_mem hr, h⟩⟩
  rw [foldl_scaleFlags_bit, allFlags_bit, helems, or_comm]

/-! ### The instructions -/

/-- Settles O8: each meaning on the noted board, which reads as the board itself. -/
theorem conversionsComplete : Obligations.ConversionsComplete := by
  intro s b d x u rm sat fb f t
  refine ⟨?cvt, fun hc => ?narrow, fun hc => ?qscale⟩
  case cvt => exact givesFloat_of_vec _ (exec_cvt s) fun l _ => by simp
  case narrow =>
    have hflight := s.sameButFlight_noteNarrowDv b (.narrow d x u rm sat f fb) s.cur.mask
    refine ⟨_, _, ?_, hflight, narrowFlags_bit _ _⟩
    rw [exec_narrow, execNarrow, onBoard_clear hc]
    simp only [State.scales_noted, State.narrowed_noted, ← Board.vnum_flight hflight]
    rfl
  case qscale =>
    rw [exec_qscale, execQscale, onBoard_clear hc, State.scales_noted]
    rfl

end Sys2Proof.Machine
end

