-- ==== Sys2Proof/Proofs/MovesAndLogic.lean ====
section
/-!
Moves, logic and shifts of one lane, and the mask instructions (06 R117, R126, R136).
-/
namespace Sys2Proof.Machine

/-! ### Shifts as arithmetic -/

theorem shiftL_eq (a n : Word) : shiftL a n = if n.toNat < 32 then BitVec.ofNat 32 (a.toNat * 2 ^ n.toNat) else 0 := by
  have hmul : a <<< n.toNat = BitVec.ofNat 32 (a.toNat * 2 ^ n.toNat) :=
    BitVec.eq_of_toNat_eq (by rw [BitVec.toNat_shiftLeft, BitVec.toNat_ofNat, Nat.shiftLeft_eq])
  rw [shiftL, hmul]

theorem shiftR_eq (a n : Word) : shiftR a n = if n.toNat < 32 then BitVec.ofNat 32 (a.toNat / 2 ^ n.toNat) else 0 := by
  have hdiv : a >>> n.toNat = BitVec.ofNat 32 (a.toNat / 2 ^ n.toNat) := by
    rw [← Nat.shiftRight_eq_div_pow, ← BitVec.toNat_ushiftRight, BitVec.ofNat_toNat, BitVec.setWidth_eq]
  rw [shiftR, hdiv]

theorem shiftA_eq (a n : Word) : shiftA a n = BitVec.ofInt 32 (a.toInt / 2 ^ min n.toNat 31) := by
  rw [shiftA, BitVec.sshiftRight, Int.shiftRight_eq_div_pow]
  norm_cast

/-! ### Tests of a word -/

theorem bne_zero_eq_decide (a : Word) : (a != 0) = decide (a ≠ 0) := by rw [Bool.eq_iff_iff, bne_iff_ne, decide_eq_true_iff]

/-! ### The instructions -/

/-- Settles O1: the meanings themselves, read on the noted board. -/
theorem movesAndSelectsComplete : Obligations.MovesAndSelectsComplete := by
  intro s b d x y c imm
  refine ⟨?mov, ?movi, ?sel⟩
  case mov => exact givesLanes_of_vec _ (exec_mov s) (fun l _ => by simp) (fun _ _ => rfl)
  case movi => exact givesLanes_of_vec _ (exec_movi s) (fun _ _ => rfl) (fun _ _ => rfl)
  case sel => exact givesLanes_of_vec _ (exec_sel s) (fun l _ => by simp) (fun _ _ => rfl)

/-- Settles O3: logic bit by bit, and shifts as products and quotients by powers of two. -/
theorem logicAndShiftsComplete : Obligations.LogicAndShiftsComplete := by
  intro s b d x y
  refine ⟨?and, ?or, ?xor, ?not, ?shl, ?shr, ?sar⟩
  case and => exact givesBits_of_vec _ (exec_and s) (fun l k _ _ => by simp) (fun _ _ => rfl)
  case or => exact givesBits_of_vec _ (exec_or s) (fun l k _ _ => by simp) (fun _ _ => rfl)
  case xor => exact givesBits_of_vec _ (exec_xor s) (fun l k _ _ => by simp) (fun _ _ => rfl)
  case not => exact givesBits_of_vec _ (exec_not s) (fun l k _ hk => by simp [hk]) (fun _ _ => rfl)
  case shl => exact givesLanes_of_vec _ (exec_shl s) (fun l _ => by simp [shiftL_eq]) (fun _ _ => rfl)
  case shr => exact givesLanes_of_vec _ (exec_shr s) (fun l _ => by simp [shiftR_eq]) (fun _ _ => rfl)
  case sar => exact givesLanes_of_vec _ (exec_sar s) (fun l _ => by simp [shiftA_eq]) (fun _ _ => rfl)

/-- Settles O12: each bit is its meaning's predicate, read on the noted board. -/
theorem maskLogicCompletes : Obligations.MaskLogicCompletes := by
  intro s b d a c x y
  refine ⟨?mand, ?mor, ?mxor, ?mandn, ?mnot, ?mmov, ?mlane, ?mbal⟩
  case mand => exact givesMask_of_outM _ (exec_mand s) fun l _ => by simp
  case mor => exact givesMask_of_outM _ (exec_mor s) fun l _ => by simp
  case mxor => exact givesMask_of_outM _ (exec_mxor s) fun l _ => by simp
  case mandn => exact givesMask_of_outM _ (exec_mandn s) fun l _ => by simp
  case mnot => exact givesMask_of_outM _ (exec_mnot s) fun l _ => by simp
  case mmov => exact givesMask_of_outM _ (exec_mmov s) fun l _ => by simp
  case mlane => exact givesMask_of_outM _ (exec_mlane s) fun l _ => by simp
  case mbal => exact givesMask_of_outM _ (exec_mbal s) fun l _ => by simp only [State.src_noted, bne_zero_eq_decide]

end Sys2Proof.Machine
end

