-- ==== Sys2Proof/Proofs/BitFields.lean ====
section
/-!
Counts, reversal and fields of the bits of a word (06 R127): each bit loop of the model as the bits it reads.
-/
namespace Sys2Proof.Machine

/-! ### Fields of a number -/

theorem bits_low (x n : Nat) : bits x 0 n = x % 2 ^ n := rfl

theorem bits_eq_div_mod (x lo n : Nat) : bits x lo n = x / 2 ^ lo % 2 ^ n := by rw [bits, Nat.shiftRight_eq_div_pow]

/-! ### Counts -/

theorem popCount_toNat {w : Nat} (x : BitVec w) : popCount w x.toNat = (List.range w).countP fun k => x.getLsbD k := by
  rw [List.countP_eq_length_filter]
  rfl

/-- The first one from the top stands at the logarithm. -/
theorem leadZeros_eq_find (x : Word) : leadZeros x = ((List.range 32).find? fun k => x.getLsbD (31 - k)).getD 32 := by
  by_cases hx : x = 0
  · subst hx; rfl
  · have hne : x.toNat ≠ 0 := fun h => hx (BitVec.eq_of_toNat_eq h)
    have htop : x.toNat.log2 < 32 := (Nat.log2_lt hne).mpr x.isLt
    have hfind : (List.range 32).find? (fun k => x.getLsbD (31 - k)) = some (31 - x.toNat.log2) := by
      rw [List.find?_range_eq_some]
      refine ⟨?_, by simp; omega, fun j hj => ?_⟩
      · rw [show 31 - (31 - x.toNat.log2) = x.toNat.log2 by omega]
        exact Nat.testBit_log2 hne
      · have hlt : x.toNat < 2 ^ (31 - j) := (Nat.log2_lt hne).mp (by omega)
        rw [BitVec.getLsbD, Nat.testBit_lt_two_pow hlt]
        rfl
    rw [hfind, leadZeros, if_neg (by simpa using hx)]
    rfl

/-! ### Reversal -/

/-- A number put together from its bits, the lowest first, has these bits. -/
theorem testBit_foldr_bits (p : Nat → Bool) (n k : Nat) :
    ((List.range n).foldr (fun k acc => 2 * acc + if p k then 1 else 0) 0).testBit k = (decide (k < n) && p k) := by
  induction n generalizing p k with
  | zero => simp
  | succ n ih =>
    rw [List.range_succ_eq_map, List.foldr_cons, List.foldr_map]
    cases k with
    | zero => cases p 0 <;> simp [Nat.testBit_zero, Nat.add_mod]
    | succ k =>
      rw [Nat.testBit_succ, Nat.mul_add_div (by decide), Nat.div_eq_of_lt (by split <;> decide), Nat.add_zero, ih fun k => p (k + 1)]
      simp

theorem bitRev_bit (x : Word) {k : Nat} (hk : k < 32) : (bitRev x).getLsbD k = x.getLsbD (31 - k) := by
  rw [bitRev, BitVec.getLsbD_ofNat, testBit_foldr_bits fun k => x.getLsbD (31 - k)]
  simp [hk]

/-! ### Fields -/

/-- `w` bits of a word from bit `p` on, as a number: the model's field. -/
theorem toNat_extract (a : Word) (p w : Nat) : (a.extractLsb' p w).toNat = bits a.toNat p w := BitVec.extractLsb'_toNat ..

/-- BFE unsigned: the field with zeros above. -/
theorem bitExtract_unsigned (a b c : Word) :
    let p := min (bits b.toNat 0 8) 32
    bitExtract true a b c = (a.extractLsb' p (min (bits c.toNat 0 8) (32 - p))).setWidth 32 := by
  simp only [bitExtract]
  generalize min (bits b.toNat 0 8) 32 = p
  generalize min (bits c.toNat 0 8) (32 - p) = w
  rw [← BitVec.ofNat_toNat, toNat_extract]
  by_cases hw : w = 0
  · simp [hw, bits, Nat.mod_one]
  · simp [hw]

/-- BFE signed: the field with its highest bit above. -/
theorem bitExtract_signed (a b c : Word) :
    let p := min (bits b.toNat 0 8) 32
    bitExtract false a b c = (a.extractLsb' p (min (bits c.toNat 0 8) (32 - p))).signExtend 32 := by
  simp only [bitExtract]
  generalize min (bits b.toNat 0 8) 32 = p
  generalize min (bits c.toNat 0 8) (32 - p) = w
  by_cases hw : w = 0
  · subst hw; simp [BitVec.of_length_zero]
  · have hmsb : (a.extractLsb' p w).msb = (bits a.toNat p w).testBit (w - 1) := by
      rw [BitVec.msb_eq_getLsbD_last, BitVec.getLsbD, toNat_extract]
    rw [BitVec.signExtend, BitVec.toInt_eq_msb_cond, hmsb, toNat_extract]
    cases (bits a.toNat p w).testBit (w - 1) <;> simp [hw]

/-- A bit of a field extended with its highest bit: that of the word, or the highest one. -/
theorem signExtend_extract_bit (a : Word) (p w : Nat) {k : Nat} (hk : k < 32) :
    ((a.extractLsb' p w).signExtend 32).getLsbD k = (w != 0 && a.getLsbD (p + min k (w - 1))) := by
  rw [BitVec.getLsbD_signExtend, BitVec.msb_eq_getLsbD_last, BitVec.getLsbD_extractLsb', BitVec.getLsbD_extractLsb']
  by_cases hkw : k < w
  · rw [Nat.min_eq_left (by omega)]
    simp [hk, hkw, Nat.ne_of_gt (Nat.zero_lt_of_lt hkw)]
  · rw [Nat.min_eq_right (by omega)]
    by_cases hw : w = 0
    · simp [hw]
    · have hlast : w - 1 < w := by omega
      have hnz : (w != 0) = true := bne_iff_ne.mpr hw
      rw [decide_eq_true hk, if_neg hkw, decide_eq_true hlast, hnz, Bool.true_and]

/-- BFI: the bits of the field come from A, the others from B. -/
theorem bitInsert_bit (a b c : Word) {k : Nat} (hk : k < 32) :
    let p := min (bits c.toNat 0 8) 32
    let w := min (bits c.toNat 8 8) (32 - p)
    (bitInsert a b c).getLsbD k = if p ≤ k ∧ k < p + w then a.getLsbD (k - p) else b.getLsbD k := by
  simp only [bitInsert]
  generalize min (bits c.toNat 0 8) 32 = p
  generalize min (bits c.toNat 8 8) (32 - p) = w
  have hfield : (BitVec.ofNat 32 ((2 ^ w - 1) <<< p)).getLsbD k = decide (p ≤ k ∧ k < p + w) := by
    rw [BitVec.getLsbD_ofNat, Nat.testBit_shiftLeft, Nat.testBit_two_pow_sub_one, Bool.eq_iff_iff]
    simp [hk]
    omega
  rw [BitVec.getLsbD_or, BitVec.getLsbD_and, BitVec.getLsbD_and, BitVec.getLsbD_not, hfield, BitVec.getLsbD_shiftLeft]
  by_cases h : p ≤ k ∧ k < p + w <;> simp [h, hk]

/-! ### The instructions -/

/-- Settles O4: each function of bits as the bits of its operands. -/
theorem bitFieldsComplete : Obligations.BitFieldsComplete := by
  intro s b d x y z
  refine ⟨?popc, ?clz, ?brev, ?bfeU, ?bfe, ?bfi⟩
  case popc => exact givesLanes_of_vec _ (exec_popc s) (fun l _ => by simp [popCount_toNat]) (fun _ _ => rfl)
  case clz => exact givesLanes_of_vec _ (exec_clz s) (fun l _ => by simp [leadZeros_eq_find]) (fun _ _ => rfl)
  case brev => exact givesBits_of_vec _ (exec_brev s) (fun l k _ hk => by simp [bitRev_bit _ hk]) (fun _ _ => rfl)
  case bfeU =>
    refine givesBits_of_vec _ (exec_bfe s) (fun l k _ hk => ?_) (fun _ _ => rfl)
    simp [bitExtract_unsigned, bits_low, hk]
  case bfe =>
    refine givesBits_of_vec _ (exec_bfe s) (fun l k _ hk => ?_) (fun _ _ => rfl)
    simp [bitExtract_signed, signExtend_extract_bit _ _ _ hk, bits_low]
  case bfi =>
    refine givesBits_of_vec _ (exec_bfi s) (fun l k _ hk => ?_) (fun _ _ => rfl)
    simp [bitInsert_bit _ _ _ hk, bits_eq_div_mod]

end Sys2Proof.Machine
end

