-- ==== Sys2Proof/Proofs/FloatLanes.lean ====
section
/-!
Floating point in the lanes: signs and comparisons of binary32, the transcendental instructions, and packed halves (06 R118 to R123).
-/
namespace Sys2Proof.Machine

/-! ### Signs -/

theorem quieted_bit (x : Word) (k : Nat) :
    (quieted x).getLsbD k = (x.getLsbD k || (decide (k = 22) && Fmt.f32.isNaN x.toNat)) := by
  have hquiet : (0x00400000#32).getLsbD k = decide (k = 22) := by
    rw [show (0x00400000#32) = BitVec.twoPow 32 22 from rfl, BitVec.getLsbD_twoPow]
    simp [eq_comm]
  rw [quieted]
  cases Fmt.f32.isNaN x.toNat <;> simp [hquiet]

theorem fAbs_bit (x : Word) {k : Nat} (hk : k < 32) :
    (fAbs x).getLsbD k = (decide (k ≠ 31) && (x.getLsbD k || (decide (k = 22) && Fmt.f32.isNaN x.toNat))) := by
  have hmag : ∀ k < 32, (0x7FFFFFFF#32).getLsbD k = decide (k ≠ 31) := by decide
  rw [fAbs, BitVec.getLsbD_and, quieted_bit, hmag k hk, Bool.and_comm]

theorem fNeg_bit (x : Word) (k : Nat) :
    (fNeg x).getLsbD k = ((x.getLsbD k || (decide (k = 22) && Fmt.f32.isNaN x.toNat)) != decide (k = 31)) := by
  have hsign : (0x80000000#32).getLsbD k = decide (k = 31) := by
    rw [show (0x80000000#32) = BitVec.twoPow 32 31 from rfl, BitVec.getLsbD_twoPow]
    simp [eq_comm]
  rw [fNeg, BitVec.getLsbD_xor, quieted_bit, hsign]

/-! ### Flags of the active lanes -/

theorem mem_lanesIn {m : Mask} {l : Nat} : l ∈ lanesIn m ↔ l < 128 ∧ m.getLsbD l = true := by
  rw [lanesIn, List.mem_filter, List.mem_range]

/-- Flag words joined over the active lanes are what these lanes raise. -/
theorem State.raisesIn_foldl (s : State) (g : Nat → Word) :
    s.raisesIn ((lanesIn s.cur.mask).foldl (fun w l => w ||| g l) 0) g := by
  intro k
  have hjoin : (lanesIn s.cur.mask).foldl (fun w l => w ||| g l) 0 = allFlags ((lanesIn s.cur.mask).map fun l => { val := 0, flags := g l }) := by
    rw [allFlags, List.foldl_map]
  rw [hjoin, allFlags_bit]
  simp only [List.mem_map, mem_lanesIn]
  constructor
  · rintro ⟨_, ⟨l, ⟨hl, hm⟩, rfl⟩, h⟩
    exact ⟨l, hl, hm, h⟩
  · rintro ⟨l, hl, hm, h⟩
    exact ⟨_, ⟨l, ⟨hl, hm⟩, rfl⟩, h⟩

theorem fCmpFlags_eq (c : Cond) (x y : Nat) :
    fCmpFlags c x y =
      let nan := Fmt.f32.isNaN x || Fmt.f32.isNaN y
      if Fmt.f32.isSNaN x || Fmt.f32.isSNaN y || (nan && (c = .lt || c = .le || c = .gt || c = .ge)) then 1 else 0 := by
  cases c <;> simp [fCmpFlags, flagIf, flNV]

/-! ### Packed halves -/

/-- A packed operation by its halves, as numbers. -/
theorem packed_eq (k : Nat → Nat → Nat → Res) (a b c : Word) :
    packed k a b c =
      let r0 := k (a.toNat % 65536) (b.toNat % 65536) (c.toNat % 65536)
      let r1 := k (a.toNat / 65536) (b.toNat / 65536) (c.toNat / 65536)
      { val := r1.val.setWidth 16 ++ r0.val.setWidth 16, flags := r0.flags ||| r1.flags } := by
  have hhigh : ∀ x : Word, bits x.toNat 16 16 = x.toNat / 65536 := fun x => by
    rw [bits_eq_div_mod]
    exact Nat.mod_eq_of_lt (by omega)
  simp only [packed, hhigh]
  rfl

/-! ### The instructions -/

/-- Settles O5: the lane functions on the noted board, with the bits of FABS and FNEG and the flags of FCMP written out. -/
theorem binary32Completes : Obligations.Binary32Completes := by
  intro s b d x y z md rm c
  refine ⟨?fadd, ?fsub, ?fmul, ?ffma, ?fmin, ?fmax, ?fabs, ?fneg, ?fcmp, ?fclass⟩
  case fadd => exact givesFloat_of_vec _ (exec_fadd s) fun l _ => by simp
  case fsub => exact givesFloat_of_vec _ (exec_fsub s) fun l _ => by simp
  case fmul => exact givesFloat_of_vec _ (exec_fmul s) fun l _ => by simp
  case ffma => exact givesFloat_of_vec _ (exec_ffma s) fun l _ => by simp
  case fmin => exact givesFloat_of_vec _ (exec_fmin s) fun l _ => by simp
  case fmax => exact givesFloat_of_vec _ (exec_fmax s) fun l _ => by simp
  case fabs => exact givesBits_of_vec _ (exec_fabs s) (fun l k _ hk => by simp [fAbs_bit _ hk]) (fun _ _ => rfl)
  case fneg => exact givesBits_of_vec _ (exec_fneg s) (fun l k _ _ => by simp [fNeg_bit]) (fun _ _ => rfl)
  case fclass => exact givesLanes_of_vec _ (exec_fclass s) (fun l _ => by simp) (fun _ _ => rfl)
  case fcmp =>
    intro hc
    rw [exec_fcmp, execFcmp, onBoard_clear hc]
    refine ⟨_, _, rfl, fun l hl _ => ?_, ?_⟩
    · rw [maskOf_bit _ _ hl, State.fsrc_noted, State.fsrc_noted]
    · simp only [State.fsrc_noted, fCmpFlags_eq]
      exact s.raisesIn_foldl _

/-- Settles O6: the lane functions on the noted board. -/
theorem transcendentalsComplete : Obligations.TranscendentalsComplete := by
  intro s b d x rm
  refine ⟨?frcp, ?frsq, ?fexp2, ?flog2, ?fsin, ?fcos, ?ftanh, ?fsqrt⟩
  case frcp => exact givesFloat_of_vec _ (exec_frcp s) fun l _ => by simp
  case frsq => exact givesFloat_of_vec _ (exec_frsq s) fun l _ => by simp
  case fexp2 => exact givesFloat_of_vec _ (exec_fexp2 s) fun l _ => by simp
  case flog2 => exact givesFloat_of_vec _ (exec_flog2 s) fun l _ => by simp
  case fsin => exact givesFloat_of_vec _ (exec_fsin s) fun l _ => by simp
  case fcos => exact givesFloat_of_vec _ (exec_fcos s) fun l _ => by simp
  case ftanh => exact givesFloat_of_vec _ (exec_ftanh s) fun l _ => by simp
  case fsqrt => exact givesFloat_of_vec _ (exec_fsqrt s) fun l _ => by simp

/-- Settles O7: each packed meaning by its halves. -/
theorem packedHalvesComplete : Obligations.PackedHalvesComplete := by
  intro s b d x y z rm f
  refine ⟨?hadd2, ?hsub2, ?hmul2, ?hfma2, ?hmin2, ?hmax2⟩
  case hadd2 => exact givesFloat_of_vec _ (exec_hadd2 s) fun l _ => by simp [packed_eq]
  case hsub2 => exact givesFloat_of_vec _ (exec_hsub2 s) fun l _ => by simp [packed_eq]
  case hmul2 => exact givesFloat_of_vec _ (exec_hmul2 s) fun l _ => by simp [packed_eq]
  case hfma2 => exact givesFloat_of_vec _ (exec_hfma2 s) fun l _ => by simp [packed_eq]
  case hmin2 => exact givesFloat_of_vec _ (exec_hmin2 s) fun l _ => by simp [packed_eq]
  case hmax2 => exact givesFloat_of_vec _ (exec_hmax2 s) fun l _ => by simp [packed_eq]

end Sys2Proof.Machine
end

