-- ==== Sys2Proof/Proofs/LaneExchangeAndVotes.lean ====
section
/-!
Values of other lanes (06 R130 to R132), and votes and HASH (06 R134, R135).
-/
namespace Sys2Proof.Machine

/-! ### The stage of SORT2 -/

theorem beq_decide {α : Type} [DecidableEq α] (x y : α) : (x == y) = decide (x = y) := rfl

/-- The upper lane of a pair is the partner of its lower one. -/
theorem max_xor_eq_min_xor (l n : Nat) : max l (l ^^^ n) = min l (l ^^^ n) ^^^ n := by
  rcases Nat.le_total l (l ^^^ n) with h | h
  · rw [Nat.max_eq_right h, Nat.min_eq_left h]
  · rw [Nat.max_eq_left h, Nat.min_eq_right h, Nat.xor_assoc, Nat.xor_self, Nat.xor_zero]

/-- The direction of a pair: turned by DESC, and by the bit of its lower lane that the stage names. -/
theorem sort2_up (desc : Bool) (v lo : Nat) :
    ((!desc) != (v.testBit 3 && lo.testBit (bits v 4 3))) = if v / 8 % 2 = 1 ∧ lo / 2 ^ (v / 16 % 8) % 2 = 1 then desc else !desc := by
  have hcond : (v.testBit 3 && lo.testBit (bits v 4 3)) = decide (v / 8 % 2 = 1 ∧ lo / 2 ^ (v / 16 % 8) % 2 = 1) := by
    simp [Nat.testBit_eq_decide_div_mod_eq, bits_eq_div_mod]
  rw [hcond]
  split
  case isTrue h => rw [decide_eq_true h]; cases desc <;> rfl
  case isFalse h => rw [decide_eq_false h, Bool.bne_false]

/-! ### Votes -/

theorem lowLane_eq_find (m : Mask) : lowLane m = ((List.range 128).find? fun k => m.getLsbD k).getD 0 := by
  rw [lowLane, lanesIn, List.headD_eq_head?_getD, List.head?_filter]

theorem mask_eq_zero_of_find_none {m : Mask} (h : ((List.range 128).find? fun k => m.getLsbD k) = none) : m = 0 := by
  refine BitVec.eq_of_getLsbD_eq fun k hk => ?_
  have := List.find?_eq_none.mp h k (List.mem_range.mpr hk)
  simpa using this

theorem voteOf_first (v m : Mask) :
    voteOf .first v m = BitVec.ofNat 32 (((List.range 128).find? fun k => v.getLsbD k).getD 128) := by
  rw [voteOf, lowLane_eq_find]
  cases hf : (List.range 128).find? fun k => v.getLsbD k with
  | none => rw [mask_eq_zero_of_find_none hf]; rfl
  | some k =>
    have hv : v ≠ 0 := by
      rintro rfl
      simpa using List.find?_some hf
    rw [if_neg (by simpa using hv)]
    rfl

/-- VOTE gives its operation's word of the mask under the active lanes. -/
theorem givesUni_vote {s : State} {b : Board} {u : BitVec 9} {a : BitVec 3} {op : VoteOp} {w : Word}
    (h : voteOf op (b.mreg a.toNat &&& s.cur.mask) s.cur.mask = w) : givesUni s b (.vote u a op) u 6 w 0 := by
  intro hc
  rw [exec_vote, execVote, onBoard_clear hc, State.mreg_noted, h]
  rfl

/-! ### The instructions -/

/-- Settles O9: the lane that each exchange names, and the order of SORT2's pairs. -/
theorem laneExchangeCompletes : Obligations.LaneExchangeCompletes := by
  intro s b d x y key desc
  refine ⟨?idx, ?up, ?down, ?xor, ?bcast, ?rot, ?sort2⟩
  case idx => exact givesLanes_of_vec _ (exec_shflIdx s) (fun l _ => by simp [State.from, bits]) (fun _ _ => rfl)
  case up => exact givesLanes_of_vec _ (exec_shflUp s) (fun l _ => by simp [State.from, bits]) (fun _ _ => rfl)
  case down => exact givesLanes_of_vec _ (exec_shflDown s) (fun l _ => by simp [State.from, bits]) (fun _ _ => rfl)
  case xor => exact givesLanes_of_vec _ (exec_shflXor s) (fun l _ => by simp [State.from, bits]) (fun _ _ => rfl)
  case bcast => exact givesLanes_of_vec _ (exec_bcast s) (fun l _ => by simp [State.from, bits]) (fun _ _ => rfl)
  case rot => exact givesLanes_of_vec _ (exec_rot s) (fun l _ => by simp [State.from, bits]) (fun _ _ => rfl)
  case sort2 =>
    refine givesLanes_of_vec _ (exec_sort2 s) (fun l _ => ?_) (fun _ _ => rfl)
    simp only [State.src_noted, State.fsrc_noted, max_xor_eq_min_xor, sort2_up, beq_decide, decide_eq_true_eq]

/-- Settles O11: the word of each vote, and the rounds of HASH. -/
theorem votesAndHashComplete : Obligations.VotesAndHashComplete := by
  intro s b d x y u a q
  refine ⟨?any, ?all, ?bal, ?count, ?first, ?hash⟩
  case any => exact givesUni_vote (by simp [voteOf])
  case all => exact givesUni_vote (by simp [voteOf])
  case bal => exact givesUni_vote rfl
  case count => exact givesUni_vote (by rw [voteOf, popCount_toNat])
  case first => exact givesUni_vote (voteOf_first _ _)
  case hash => exact givesLanes_of_vec _ (exec_hash s) (fun l _ => by simp [hashStep]) (fun _ _ => rfl)

end Sys2Proof.Machine
end

