-- ==== Sys2Proof/Proofs/Scans.lean ====
section
/-!
SCAN and REDUCE (06 R133): the running results of the model, entry by entry, as folds over the active lanes below.
-/
namespace Sys2Proof.Machine

/-! ### Folds over lanes -/

/-- The values of some lanes combined into a running value, in their order. -/
def scanFold (op : ScanOp) (A : Nat → Word) (acc : Word) (ls : List Nat) : Word :=
  ls.foldl (fun acc k => (scanStep op acc (A k)).val) acc

variable {op : ScanOp} {A : Nat → Word} {a l : Nat} {ls : List Nat}

@[simp] theorem scanFold_nil (acc : Word) : scanFold op A acc [] = acc := rfl

@[simp] theorem scanFold_cons (acc : Word) : scanFold op A acc (a :: ls) = scanFold op A (scanStep op acc (A a)).val ls := rfl

/-! ### Ascending lanes -/

theorem lanesIn_ascending (m : Mask) : (lanesIn m).Pairwise (· < ·) := List.pairwise_lt_range.filter _

/-- No lane stands below the first one. -/
theorem filter_lt_first (h : (a :: ls).Pairwise (· < ·)) : (a :: ls).filter (fun k => k < a) = [] := by
  rw [List.pairwise_cons] at h
  simpa [List.filter_eq_nil_iff] using fun k hk => Nat.le_of_lt (h.1 k hk)

/-- Up to the first lane there is that lane alone. -/
theorem filter_le_first (h : (a :: ls).Pairwise (· < ·)) : (a :: ls).filter (fun k => k ≤ a) = [a] := by
  rw [List.pairwise_cons] at h
  simpa [List.filter_eq_nil_iff] using h.1

/-! ### The running results -/

/-- The result after a lane, with the flags of the steps so far. -/
def scanNext (op : ScanOp) (acc : Res) (v : Word) : Res :=
  { val := (scanStep op acc.val v).val, flags := acc.flags ||| (scanStep op acc.val v).flags }

theorem scanRun_cons (acc : Res) (v : Word) (t : List Word) :
    scanRun op acc (v :: t) = (acc, scanNext op acc v) :: scanRun op (scanNext op acc v) t := rfl

/-- The entry of a lane: before it the values of the lanes below are combined, after it those of the lanes up to it. -/
theorem look_scanRun (excl : Bool) (h : ls.Pairwise (· < ·)) (hl : l ∈ ls) (acc : Res) :
    look l 0 (ls.zip ((scanRun op acc (ls.map A)).map fun r => if excl then r.1.val else r.2.val))
      = scanFold op A acc.val (ls.filter fun k => if excl then k < l else k ≤ l) := by
  induction ls generalizing acc with
  | nil => cases hl
  | cons a t ih =>
    rw [List.map_cons, scanRun_cons, List.map_cons, List.zip_cons_cons, look]
    rcases List.mem_cons.mp hl with rfl | hmem
    · cases excl <;> simp [filter_lt_first h, filter_le_first h, scanNext]
    · rw [List.pairwise_cons] at h
      have hlt : a < l := h.1 l hmem
      rw [if_neg (by simpa using Nat.ne_of_lt hlt), ih h.2 hmem, List.filter_cons_of_pos (by cases excl <;> simp <;> omega)]
      rfl

/-- The last of the running results, or the first value where there is none. -/
def scanLast (op : ScanOp) (acc : Res) (vs : List Word) : Res := (((scanRun op acc vs).getLast?).map (·.2)).getD acc

@[simp] theorem scanLast_nil (acc : Res) : scanLast op acc [] = acc := rfl

@[simp] theorem scanLast_cons (acc : Res) (v : Word) (t : List Word) :
    scanLast op acc (v :: t) = scanLast op (scanNext op acc v) t := by
  rw [scanLast, scanLast, scanRun_cons, List.getLast?_cons]
  cases (scanRun op (scanNext op acc v) t).getLast? <;> rfl

theorem scanLast_val (acc : Res) : (scanLast op acc (ls.map A)).val = scanFold op A acc.val ls := by
  induction ls generalizing acc with
  | nil => rfl
  | cons a t ih => rw [List.map_cons, scanLast_cons, ih]; rfl

/-- The last result carries the flags of every step. -/
theorem scanLast_flags (h : ls.Pairwise (· < ·)) (acc : Res) (n : Nat) :
    (scanLast op acc (ls.map A)).flags.getLsbD n = true ↔ acc.flags.getLsbD n = true
      ∨ ∃ l ∈ ls, (scanStep op (scanFold op A acc.val (ls.filter fun k => k < l)) (A l)).flags.getLsbD n = true := by
  induction ls generalizing acc with
  | nil => simp
  | cons a t ih =>
    have hfirst := filter_lt_first h
    rw [List.pairwise_cons] at h
    have hrest : ∀ l ∈ t, (a :: t).filter (fun k => k < l) = a :: t.filter fun k => k < l := fun l hl =>
      List.filter_cons_of_pos (by simpa using h.1 l hl)
    rw [List.map_cons, scanLast_cons, ih h.2]
    have htail : (∃ l ∈ t, (scanStep op (scanFold op A acc.val ((a :: t).filter fun k => k < l)) (A l)).flags.getLsbD n = true)
        ↔ ∃ l ∈ t, (scanStep op (scanFold op A (scanNext op acc (A a)).val (t.filter fun k => k < l)) (A l)).flags.getLsbD n = true :=
      exists_congr fun l => and_congr_right fun hl => by rw [hrest l hl]; rfl
    simp only [List.mem_cons, or_and_right, exists_or, exists_eq_left]
    rw [htail, hfirst, scanNext, BitVec.getLsbD_or, Bool.or_eq_true, or_assoc]
    rfl

/-! ### The instructions -/

section
variable {s : State} {b : Board} {i : Instr}

@[simp] theorem State.scanned_noted (x : Opd) : s.scanned (s.noted b i) x op = s.scanned b x op := by simp [State.scanned]

/-- The value of each active lane under the operation. -/
def State.scanVal (s : State) (b : Board) (x : Opd) (op : ScanOp) (l : Nat) : Word :=
  if scanFloat op then s.fsrc b x l else s.src b x l

/-- The values of the active lanes that `p` holds of, combined in ascending order. -/
def State.scanAmong (s : State) (b : Board) (x : Opd) (op : ScanOp) (p : Nat → Bool) : Word :=
  ((List.range 128).filter fun k => s.cur.mask.getLsbD k && p k).foldl (fun acc k => (scanStep op acc (s.scanVal b x op k)).val) (scanIdentity op)

theorem State.scanAmong_eq (x : Opd) (p : Nat → Bool) :
    s.scanAmong b x op p = scanFold op (s.scanVal b x op) (scanIdentity op) ((lanesIn s.cur.mask).filter p) := by
  simp only [lanesIn, List.filter_filter, Bool.and_comm (p _)]
  rfl

/-- The entry of an active lane in the running results. -/
theorem State.look_scanned (x : Opd) (excl : Bool) {l : Nat} (hl : l < 128) (hm : s.cur.mask.getLsbD l = true) :
    look l 0 ((lanesIn s.cur.mask).zip ((s.scanned b x op).map fun r => if excl then r.1.val else r.2.val))
      = s.scanAmong b x op fun k => if excl then k < l else k ≤ l := by
  rw [State.scanAmong_eq]
  exact look_scanRun excl (lanesIn_ascending _) (mem_lanesIn.mpr ⟨hl, hm⟩) _

/-- The last of the running results combines all active lanes. -/
theorem State.lastScan_val (x : Opd) : (lastScan op (s.scanned b x op)).val = s.scanAmong b x op fun _ => true := by
  rw [State.scanAmong_eq, List.filter_eq_self.mpr fun _ _ => rfl]
  exact scanLast_val _

/-- Its flags are those of the steps of the active lanes. -/
theorem State.lastScan_raises (x : Opd) : s.raisesIn (lastScan op (s.scanned b x op)).flags fun l =>
    (scanStep op (s.scanAmong b x op fun k => k < l) (s.scanVal b x op l)).flags := by
  intro n
  simp only [State.scanAmong_eq]
  refine (scanLast_flags (A := s.scanVal b x op) (lanesIn_ascending _) { val := scanIdentity op } n).trans ?_
  simp [mem_lanesIn, and_assoc]

theorem givesFloat_scan (d x : Opd) (excl : Bool) : givesFloat s b (.scan d x op excl) d 14 fun l =>
    { val := s.scanAmong b x op fun k => if excl then k < l else k ≤ l
      flags := (scanStep op (s.scanAmong b x op fun k => k < l) (s.scanVal b x op l)).flags } := by
  intro hc
  rw [exec_scan, execScan, onBoard_clear hc, State.scanned_noted]
  exact ⟨_, _, rfl, fun l hl hm => by rw [laneAt_lanesOf _ _ hl, State.look_scanned x excl hl hm], State.lastScan_raises x⟩

theorem givesFloat_reduce (d x : Opd) : givesFloat s b (.reduce d x op) d 14 fun l =>
    { val := s.scanAmong b x op fun _ => true
      flags := (scanStep op (s.scanAmong b x op fun k => k < l) (s.scanVal b x op l)).flags } := by
  intro hc
  rw [exec_reduce, execReduce, onBoard_clear hc, State.scanned_noted]
  exact ⟨_, _, rfl, fun l hl _ => by rw [laneAt_lanesOf _ _ hl, State.lastScan_val], State.lastScan_raises x⟩

end

/-- Settles O10: the two forms of SCAN, and REDUCE. -/
theorem scansComplete : Obligations.ScansComplete := fun _ _ d x _ =>
  ⟨givesFloat_scan d x true, givesFloat_scan d x false, givesFloat_reduce d x⟩

end Sys2Proof.Machine
end

