-- ==== Sys2Proof/Proofs/MemorySlot.lean ====
section
/-!
The memory slot (07 R141 to R158, 12 R269, R272): what its instructions read of the noted board is what they read of the board itself, and what
entering an operation in the memory path (07 R160) does to the board and its pegs.
-/
namespace Sys2Proof.Machine

/-! ### Pegs (03 R61) -/

section
variable (b : Board) (p : Option (BitVec 3))

theorem modAt_eq_modify {α : Type} (n : Nat) (f : α → α) (l : List α) : modAt n f l = l.modify n f := by
  induction l generalizing n with
  | nil => simp [modAt]
  | cons x t ih => cases n <;> simp [modAt, ih]

/-- Of the pegs a board has, the one named counts one more. -/
theorem Board.incPeg_cnt {k : BitVec 3} (hk : k.toNat < b.pegs.length) :
    ((b.incPeg p).peg k.toNat).cnt = (b.peg k.toNat).cnt + if p = some k then 1 else 0 := by
  cases p with
  | none => simp [Board.incPeg]
  | some j =>
    by_cases hj : j = k
    · simp [Board.incPeg, Board.peg, modAt_eq_modify, hj, hk]
    · have hne : j.toNat ≠ k.toNat := fun h => hj (BitVec.eq_of_toNat_eq h)
      simp [Board.incPeg, Board.peg, modAt_eq_modify, hj, hne, hk]

/-- A broken peg keeps its count. -/
theorem Board.breakPeg_cnt (n : Nat) : ((b.breakPeg p).peg n).cnt = (b.peg n).cnt := by
  cases p with
  | none => rfl
  | some j =>
    simp only [Board.breakPeg, Board.peg, modAt_eq_modify, List.getD_eq_getElem?_getD, List.getElem?_modify]
    cases b.pegs[n]? with
    | none => rfl
    | some q => by_cases hj : j.toNat = n <;> simp [hj]

end

/-! ### What the noted board shows -/

section
variable (s : State) (b : Board) (i : Instr)

/-- Noting changes windows and pending destinations alone, written out. -/
theorem State.noted_eq : s.noted b i = { b with
    vwins := (s.noted b i).vwins, pending := (s.noted b i).pending, pipe := (s.noted b i).pipe
    slotA := { b.slotA with wins := (s.noted b i).slotA.wins, mine := (s.noted b i).slotA.mine }
    slotB := { b.slotB with wins := (s.noted b i).slotB.wins, mine := (s.noted b i).slotB.mine } } := s.sameButFlight_noted b i

@[simp] theorem State.pegs_noted : (s.noted b i).pegs = b.pegs := by rw [State.noted_eq]
@[simp] theorem State.path_noted : (s.noted b i).path = b.path := by rw [State.noted_eq]
@[simp] theorem State.env_noted : (s.noted b i).env = b.env := by rw [State.noted_eq]
@[simp] theorem State.core_noted : (s.noted b i).core = b.core := by rw [State.noted_eq]
@[simp] theorem State.tick_noted : (s.noted b i).tick = b.tick := by rw [State.noted_eq]
@[simp] theorem State.epoch_noted : (s.noted b i).epoch = b.epoch := by rw [State.noted_eq]
@[simp] theorem State.stopped_noted : (s.noted b i).stopped = b.stopped := by rw [State.noted_eq]

@[simp] theorem State.scopeFor_noted (sc : Scope) : (s.noted b i).scopeFor sc = b.scopeFor sc := by simp [Board.scopeFor]

@[simp] theorem State.scrSize_noted : (s.noted b i).scrSize = b.env.scr := by simp [Board.scrSize]

@[simp] theorem State.fillV_noted (d : Opd) : (s.noted b i).fillV d = b.fillV d := by
  cases d with
  | v idx n => exact congrArg FillDest.v (Board.vnum_flight (s.sameButFlight_noted b i) idx n)
  | _ => rfl

@[simp] theorem State.words_noted (d : Opd) (k : Nat) : s.words (s.noted b i) d k = s.words b d k := by
  funext l
  simp [State.words]

@[simp] theorem State.laneReqs_noted (x : Opd) (off : Int) (data cmp : Nat → List Word) :
    s.laneReqs (s.noted b i) x off data cmp = s.laneReqs b x off data cmp := by simp [State.laneReqs]

@[simp] theorem State.uniReq_noted (x : Opd) (off : Int) (data cmp : List Word) :
    s.uniReq (s.noted b i) x off data cmp = s.uniReq b x off data cmp := by simp [State.uniReq]

end

/-! ### Entering the memory path (07 R160) -/

section
variable {s : State} {b : Board} {i : Instr}

/-- The lines of an operation as it is issued: none of the scratchpad, none behind a failure (07 R143). -/
def State.issueLines (s : State) (b : Board) (o : MemOp) : List Line :=
  if o.space = .glob ∧ o.fail = none then (linesOfLanes o.lanes).map (s.placeLine b.env.ctx o.kind) else []

/-- The operation as it enters the path of the board. -/
def State.issuedOp (s : State) (b : Board) (i : Instr) (o : MemOp) : MemOp :=
  { o with
    id := s.nextUid, insn := insnOf i, peg := pegOf i, epoch := b.epoch, t0 := b.tick.toNat, scope := b.scopeFor o.scope
    stopped := b.stopped && !o.suppressed, lines := s.issueLines b o }

/-- The board with an operation at the end of its path, its peg raised and, where the operation is stopped, broken. -/
def Board.entered (b : Board) (p : Option (BitVec 3)) (o : MemOp) : Board :=
  let c := { b with path := b.path ++ [o] }.incPeg p
  if o.stopped then c.breakPeg p else c

/-- Entering changes the path and the pegs alone. -/
theorem Board.entered_eq (p : Option (BitVec 3)) (o : MemOp) :
    b.entered p o = { b with pegs := (b.entered p o).pegs, path := b.path ++ [o] } := by
  unfold Board.entered
  cases o.stopped <;> cases p <;> rfl

theorem Board.entered_env (p : Option (BitVec 3)) (o : MemOp) : (b.entered p o).env = b.env := by rw [Board.entered_eq]

theorem Board.entered_core (p : Option (BitVec 3)) (o : MemOp) : (b.entered p o).core = b.core := by rw [Board.entered_eq]

/-- Of the pegs, the one named counts one more. -/
theorem Board.entered_cnt (p : Option (BitVec 3)) (o : MemOp) {k : BitVec 3} (hk : k.toNat < b.pegs.length) :
    ((b.entered p o).peg k.toNat).cnt = (b.peg k.toNat).cnt + if p = some k then 1 else 0 := by
  have hinc : (({ b with path := b.path ++ [o] }.incPeg p).peg k.toNat).cnt = _ := Board.incPeg_cnt _ p hk
  unfold Board.entered
  cases o.stopped with
  | false => exact hinc
  | true => exact (Board.breakPeg_cnt _ p _).trans hinc

/-- The state with `c` in focus once `b` has issued an operation of these lines: the TLBs have their leaves, and the context of `b` is charged for
their requests (14 R296, 16 R341). -/
def State.requested (s : State) (b c : Board) (ls : List Line) : State :=
  (State.fillLines { s with bd := some c, nextUid := s.nextUid + 1 } b.env.ctx ls).charge b.env.ctx (b.core / 4) 2 ls.length

theorem State.issueOp_eq (s : State) (b : Board) (i : Instr) (o : MemOp) :
    s.issueOp b i o = s.requested b (b.entered (pegOf i) (s.issuedOp b i o)) (s.issueLines b o) := by
  have hlines : (if o.space == .glob && o.fail.isNone then (linesOfLanes o.lanes).map (s.placeLine b.env.ctx o.kind) else [])
      = s.issueLines b o := by simp [State.issueLines]
  have hboard (c : Board) (henv : c.env = b.env) (hcore : c.core = b.core) (ls : List Line) : s.requested c c ls = s.requested b c ls := by
    simp [State.requested, henv, hcore]
  unfold State.issueOp
  rw [hlines]
  exact hboard _ (Board.entered_env ..) (Board.entered_core ..) _

@[simp] theorem State.issueLines_noted (o : MemOp) : s.issueLines (s.noted b i) o = s.issueLines b o := by simp [State.issueLines]

@[simp] theorem State.issuedOp_noted (o : MemOp) : s.issuedOp (s.noted b i) i o = s.issuedOp b i o := by simp [State.issuedOp]

@[simp] theorem State.requested_noted (c : Board) (ls : List Line) : s.requested (s.noted b i) c ls = s.requested b c ls := by
  simp [State.requested]

/-- An instruction whose meaning is to issue an operation issues the one that it names on the noted board. -/
theorem issues_of_issueOp {o : MemOp} (f : Board → MemOp) (h : exec i s = onBoard s i fun b => s.issueOp b i (f b))
    (e : f (s.noted b i) = o) : issues s b i o := by
  intro hc
  refine ⟨(s.noted b i).entered (pegOf i) (s.issuedOp b i o), ((s.noted b i).entered (pegOf i) (s.issuedOp b i o)).pegs,
    ?next, ?board, fun k hk => ?count⟩
  case next =>
    rw [h, onBoard_clear hc, e, State.issueOp_eq, State.issueLines_noted, State.issuedOp_noted, State.requested_noted]
    rfl
  case board =>
    rw [← State.path_noted s b i]
    exact Board.entered_eq _ _
  case count => rw [Board.entered_cnt _ _ (by rwa [State.pegs_noted]), Board.peg, State.pegs_noted, ← Board.peg]

end

/-! ### Fences (07 R156) -/

theorem State.fence_lane (s : State) (b : Board) (i : Instr) (pa pb : PathK) (ord : Order) : s.fence b i pa pb ord .lane = s.put b := rfl

/-- A release fence on a board with nothing in its path has nothing to wait for. -/
theorem State.fence_release_empty {b : Board} (h : b.path = []) (s : State) (i : Instr) (sc : Scope) :
    s.fence b i .board .board .rel sc = s.put b := by
  simp [State.fence, acquires, h]

/-! ### The instructions -/

theorem completes_of_onBoard {s : State} {b : Board} {i : Instr} {k t : Board → State} (h : exec i s = onBoard s i k)
    (e : k (s.noted b i) = t (s.noted b i)) : completes s b i t := fun hc => by rw [h, onBoard_clear hc, e]

/-- Settles O24: what each issues on the noted board is what it issues on the board itself. -/
theorem loadsAndStoresIssue : Obligations.LoadsAndStoresIssue := by
  intro s b d x u br off p w sc r sx lanes data
  refine ⟨?ld, ?st, ?ldu, ?stu, ?lds, ?sts⟩
  case ld => exact issues_of_issueOp _ (exec_ld s) (by simp [r, sx, lanes])
  case st => exact issues_of_issueOp _ (exec_st s) (by simp [r, lanes, data])
  case ldu => exact issues_of_issueOp _ (exec_ldu s) (by simp [r, sx])
  case stu => exact issues_of_issueOp _ (exec_stu s) (by simp [r, data])
  case lds => exact issues_of_issueOp _ (exec_lds s) (by simp [sx, lanes])
  case sts => exact issues_of_issueOp _ (exec_sts s) (by simp [lanes, data])

/-- Settles O25: what each issues on the noted board is what it issues on the board itself. -/
theorem atomicsIssue : Obligations.AtomicsIssue := by
  intro s b d a x u br off p op sc sp wd r n k o
  have hbytes : wdBytes wd = n := rfl
  have hregs : wdRegs wd = k := rfl
  have hoff : maOff off wd = o := rfl
  refine ⟨?atom, ?red, ?atoms, ?reds, ?atomu, ?redu⟩
  case atom => exact issues_of_issueOp _ (exec_atom s) (by simp [r, hbytes, hregs, hoff])
  case red => exact issues_of_issueOp _ (exec_red s) (by simp [r, hbytes, hregs, hoff])
  case atoms => exact issues_of_issueOp _ (exec_atoms s) (by simp [hbytes, hregs, hoff])
  case reds => exact issues_of_issueOp _ (exec_reds s) (by simp [hbytes, hregs, hoff])
  case atomu => exact issues_of_issueOp _ (exec_atomu s) (by simp [r, hbytes, hregs, hoff])
  case redu => exact issues_of_issueOp _ (exec_redu s) (by simp [r, hbytes, hregs, hoff])

/-- Settles O26: those that enter the path by what they issue on the noted board, the others by their effect on it. -/
theorem otherMemoryInstructionsComplete : Obligations.OtherMemoryInstructionsComplete := by
  intro s b br x off l2 ord sc pa pb d u p
  refine ⟨?pref, ?brset, ?brget, ?fence, ?fenceX, ?lane, fun hpath => ?release, ?arm, ?disarm, ?ldtr⟩
  case pref => exact completes_of_onBoard (exec_pref s) (by simp [State.put])
  case brset => exact completes_of_onBoard (exec_brset s) (by simp [State.put, Board.image])
  case brget => exact completes_of_onBoard (exec_brget s) (by simp [State.put])
  case fence => exact completes_of_onBoard (exec_fence s) rfl
  case fenceX => exact completes_of_onBoard (exec_fenceX s) rfl
  case lane => exact completes_of_onBoard (exec_fence s) (State.fence_lane ..)
  case release => exact completes_of_onBoard (exec_fence s) (State.fence_release_empty (by simpa using hpath) ..)
  case arm => exact issues_of_issueOp _ (exec_watchArm s) (by simp)
  case disarm => exact issues_of_issueOp _ (exec_watchDisarm s) (by simp)
  case ldtr => exact issues_of_issueOp _ (exec_ldtr s) rfl

end Sys2Proof.Machine
end

