-- ==== Sys2Proof/Proofs/EngineCommands.lean ====
section
/-!
The copy/matrix slot (08 R162 to R164, R183, 11 R238, R239): the operands that a command is accepted with are those of the board itself.
-/
namespace Sys2Proof.Machine

/-! ### Operands on the noted board -/

section
variable (s : State) (b : Board) (i : Instr)

@[simp] theorem State.group_noted (u n : Nat) : (s.noted b i).group u n = b.group u n := by simp [Board.group]

@[simp] theorem State.lanesVal_noted (sB : Bool) (o : Opd) : (s.noted b i).lanesVal sB o = b.lanesVal sB o := by simp [Board.lanesVal]

@[simp] theorem State.uniVal_noted (sB : Bool) (o : Opd) : (s.noted b i).uniVal sB o = b.uniVal sB o := by simp [Board.uniVal]

@[simp] theorem State.mpc_noted : (s.noted b i).mpc = b.mpc := by rw [State.noted_eq]

@[simp] theorem State.fillReg_noted (g : Opd) : (s.noted b i).fillReg g = b.fillReg g := by
  cases g with
  | v idx n => exact congrArg FillDest.v (Board.vnum_flight (s.sameButFlight_noted b i) idx n)
  | _ => rfl

end

/-! ### The instructions -/

/-- Settles O27: each command is the one its meaning makes of the noted board, whose operands are the board's. -/
theorem engineCommandsAreAccepted : Obligations.EngineCommandsAreAccepted := by
  intro s b f g br w p u gu n fl ft fr t tb sel F G
  refine ⟨?cpa, ?cpb, ?cpr, ?mma, ?mmas, ?accClr, ?accLd, ?accSt, ?accRdv, ?accWrv, ?setmpc, ?cbtLd, ?count, ?xchg, ?place, ?scatter,
    ?combine, ?stat⟩
  case cpa => exact completes_of_onBoard (exec_cpa s) (by simp [F, G])
  case cpb => exact completes_of_onBoard (exec_cpb s) (by simp)
  case cpr => exact completes_of_onBoard (exec_cpr s) (by simp)
  case mma => exact completes_of_onBoard (exec_mma s) (by simp [F])
  case mmas => exact completes_of_onBoard (exec_mmas s) (by simp [F, bits_low])
  case accClr => exact completes_of_onBoard (exec_accClr s) rfl
  case accLd => exact completes_of_onBoard (exec_accLd s) (by simp)
  case accSt => exact completes_of_onBoard (exec_accSt s) (by simp)
  case accRdv => exact completes_of_onBoard (exec_accRdv s) (by simp)
  case accWrv => exact completes_of_onBoard (exec_accWrv s) (by simp [F])
  case setmpc => exact completes_of_onBoard (exec_setmpc s) (by simp [State.put])
  case cbtLd => exact completes_of_onBoard (exec_cbtLd s) (by simp)
  case count => exact completes_of_onBoard (exec_routeCount s) rfl
  case xchg => exact completes_of_onBoard (exec_routeXchg s) rfl
  case place => exact completes_of_onBoard (exec_routePlace s) rfl
  case scatter => exact completes_of_onBoard (exec_routeScatter s) rfl
  case combine => exact completes_of_onBoard (exec_routeCombine s) rfl
  case stat => exact completes_of_onBoard (exec_routeStat s) rfl

end Sys2Proof.Machine
end

