-- ==== Sys2Proof/Proofs/EngineSteps.lean ====
section
/-!
The engines' steps (08 R165, R168, R172, R187, 11 R245, R250, R252): arrivals behind data, the ends of waits, and completions, each as an equation for
a command whose engine has brought it so far.
-/
namespace Sys2Proof.Machine

variable {s t : State} {c : Cmd}

/-! ### Copy commands (08 R168, R172) -/

section
variable {core cmd : Nat}

/-- The arrival behind a destination whose bytes are all performed may be made, unless it has been made or has failed. -/
theorem State.mayArriveAt_of {g : Nat × Nat} (ha : g.1 ∉ c.arrivals) (hf : ∀ f ∈ c.fails, f.2.toNat ≠ g.2) (hd : t.destDone c g.1 = true) :
    t.mayArriveAt c g = true := by
  simpa [State.mayArriveAt, ha, hd] using hf

theorem execCpbGateArrival_arrives {g : Nat × Nat} {dest : Nat} (hr : s.readyCopy core cmd = some (t, c))
    (hg : (c.plan c.tab).gates.find? (·.1 == dest) = some g) (hm : t.mayArriveAt c g = true) (hn : t.noEntry core = false) :
    execCpbGateArrival core cmd dest s = .next (t.engineArrive c 1 dest g.2) := by
  simp [execCpbGateArrival, event_next, hr, hg, hm, hn]

theorem execCopyCommandComplete_through (hr : s.readyCopy core cmd = some (t, c)) (ho : c.out = 0) (hf : c.failed = false)
    (hg : ∀ g ∈ (c.plan c.tab).gates, g.1 ∈ c.arrivals) : execCopyCommandComplete core cmd s = .next (t.endCmd c) := by
  simpa [execCopyCommandComplete, event_next, hr, ho, hf] using hg

end

/-! ### Matrix commands (08 R179, R181, R182, R184) -/

/-- What a matrix command has left to do as it completes: all its rows, or all of a command without rows; ACC.ST has handed its rows over. -/
def State.matrixEffect (s : State) (c : Cmd) : State :=
  match c.instr with
  | .accSt .. => s
  | .mma .. | .mmas .. | .accLd .. => s.doRows c 128
  | _ => s.doWhole c

theorem execMatrixCommandComplete_through {core : Nat} (hr : s.readyMatrix core = some (t, c, none)) (hb : c.busy = 0)
    (hh : t.rdvHeld c = false) : execMatrixCommandComplete core s = .next ((t.matrixEffect c).endCmd c) := by
  simp only [execMatrixCommandComplete, event_next, hr, Option.bind_eq_bind, Option.bind_some, hb, hh]
  rfl

section
variable {x y : Opd} {u : BitVec 9} {tile : BitVec 5} {tb : Bool} {p : Option (BitVec 3)}

theorem State.matrixEffect_accSt (h : c.instr = .accSt u tile p) : t.matrixEffect c = t := by simp only [State.matrixEffect, h]

theorem State.matrixEffect_rows (h : c.instr = .accLd u tile p ∨ c.instr = .mma x u tile p ∨ c.instr = .mmas x u tile p) :
    t.matrixEffect c = t.doRows c 128 := by
  rcases h with h | h | h <;> simp only [State.matrixEffect, h]

theorem State.matrixEffect_whole
    (h : c.instr = .accClr tile p ∨ c.instr = .accRdv x y tile p ∨ c.instr = .accWrv x y tile p ∨ c.instr = .cbtLd u tb p) :
    t.matrixEffect c = t.doWhole c := by
  rcases h with h | h | h | h <;> simp only [State.matrixEffect, h]

end

/-! ### Routing commands (11 R245, R250, R252) -/

section
variable {f cmd dev : Nat} {u : BitVec 9} {p : Option (BitVec 3)}

/-- The wait of an XCHG ends once every row of its own bank carries SEQ. -/
theorem execXchgWaitEnd_ends (hr : s.routeCmd? f cmd = some (t, c)) (hi : c.instr = .routeXchg u p) (hw : c.waiting = true)
    (hm : ∀ d, d < c.ndev → t.cm c (c.arg % 2) d c.nexp = c.arg) :
    execXchgWaitEnd f cmd s = .next (t.modCmd cmd fun c => { c with waiting := false }) := by
  simpa [execXchgWaitEnd, event_next, hr, hi, hw] using hm

theorem execCombineGateWaitEnd_ends (hr : s.routeCmd? f cmd = some (t, c)) (hi : c.instr = .routeCombine u p) (hw : c.waiting = true)
    (hm : t.combineMay c = true) : execCombineGateWaitEnd f cmd s = .next (t.modCmd cmd fun c => { c with waiting := false }) := by
  simp [execCombineGateWaitEnd, event_next, hr, hi, hw, hm]

/-- SCATTER may arrive at the least device that it has not arrived at, once the rows there are performed and no arrival is on its way. -/
theorem State.mayArrive_of (hd : dev < c.ndev) (ha : dev ∉ c.arrivals) (hrows : t.rowsDone c dev = true) (hg : t.gateLost c dev = false)
    (hreq : ∀ r ∈ t.outReqs, r.cmd = some c.id → r.kind ≠ .arrive) (hlow : ∀ d, d < dev → d ∈ c.arrivals) : t.mayArrive c dev = true := by
  have hnone : ∀ r ∈ t.outReqs, r.cmd ≠ some c.id ∨ r.kind ≠ .arrive := fun r h => Decidable.not_or_of_imp (hreq r h)
  have hbelow : ∀ d, d < dev →
      (d ∈ c.arrivals ∨ t.gateLost c d = true) ∨ (c.failed = true ∧ c.out = 0) ∧ t.rowsDone c d = false := fun d h => .inl (.inl (hlow d h))
  simpa [State.mayArrive, hd, ha, hrows, hg] using And.intro hnone hbelow

theorem execScatterArrival_arrives (hr : s.routeCmd? f cmd = some (t, c)) (hi : c.instr = .routeScatter u p) (hm : t.mayArrive c dev = true) :
    execScatterArrival f cmd dev s = .next (t.engineArrive c 3 dev (c.devF dev 8)) := by
  simp [execScatterArrival, event_next, hr, hi, hm]

theorem execRouteCommandComplete_through {x : State} (hr : s.routeCmd? f cmd = some (t, c)) (ho : c.out = 0) (hf : t.runFail c = none)
    (hx : t.finishRoute c = some x) : execRouteCommandComplete f cmd s = .next (x.endCmd c) := by
  simp [execRouteCommandComplete, event_next, hr, ho, hf, hx]

end

/-- Settles O51: each step of an engine comes about where its command has come so far, with its effect. -/
theorem engineStepsComplete : Obligations.EngineStepsComplete := by
  intro s t c core f cmd dev
  refine ⟨fun hr => ⟨fun g hg ha hf hd hn => ?arrival, fun ho hf hg => ?copy⟩,
    fun x y u tl tb p hr hb hh => ⟨fun hi => ?accSt, fun hi => ?rows, fun hi => ?whole⟩,
    fun u p hr => ⟨fun hi hw hm => ?exchange, fun hi hw hm => ?combine, fun hi hd ha hrows hg hreq hlow => ?scatter, fun x ho hf hx => ?route⟩⟩
  case arrival =>
    have hdev : g.1 = dev := by simpa using List.find?_some hg
    exact execCpbGateArrival_arrives hr hg (State.mayArriveAt_of (hdev ▸ ha) hf (hdev ▸ hd)) hn
  case copy => exact execCopyCommandComplete_through hr ho hf hg
  case accSt => rw [exec_matrixCommandComplete, execMatrixCommandComplete_through hr hb hh, State.matrixEffect_accSt hi]
  case rows => rw [exec_matrixCommandComplete, execMatrixCommandComplete_through hr hb hh, State.matrixEffect_rows hi]
  case whole => rw [exec_matrixCommandComplete, execMatrixCommandComplete_through hr hb hh, State.matrixEffect_whole hi]
  case exchange => exact execXchgWaitEnd_ends hr hi hw hm
  case combine => exact execCombineGateWaitEnd_ends hr hi hw hm
  case scatter => exact execScatterArrival_arrives hr hi (State.mayArrive_of hd ha hrows hg hreq hlow)
  case route => exact execRouteCommandComplete_through hr ho hf hx

end Sys2Proof.Machine
end

