-- ==== Sys2Proof/Proofs/UniformArithmetic.lean ====
section
/-!
Uniform arithmetic of the control slot (09 R190, R192 to R194): the results of the shared meanings in the form that the rule gives them, for a second
operand from a register or from the sign-extended immediate alike.
-/
namespace Sys2Proof.Machine

/-! ### What a meaning of the control slot gives -/

section
variable {s : State} {b : Board} {i : Instr} {d : BitVec 9}

theorem givesCtl_of_ctl {w : Word} (v : Board → Word) (h : exec i s = onBoard s i fun c => s.ctl c d (v c)) (e : v (s.noted b i) = w) :
    givesCtl s b i d w := fun hc => by
  rw [h, onBoard_clear hc, e]
  rfl

theorem givesPair_of_ctlPair {n : Nat} {w : DWord} (v : Board → DWord) (h : exec i s = onBoard s i fun c => s.ctlPair c n (v c))
    (e : v (s.noted b i) = w) : givesPair s b i n w := fun hc => by
  rw [h, onBoard_clear hc, e]
  rfl

/-- The register form: both operands are the board's own (09 R189). -/
theorem givesCtl_regs {x y : Nat} {f : Word → Word → Word} {w : Word} (h : exec i s = onBoard s i fun c => s.ctl c d (f (c.sreg x) (c.sreg y)))
    (e : f (b.sreg x) (b.sreg y) = w) : givesCtl s b i d w :=
  givesCtl_of_ctl _ h (by rw [State.sreg_noted, State.sreg_noted, e])

/-- The immediate form: the second operand is the sign-extended immediate (09 R192). -/
theorem givesCtl_imm {x : Nat} {k : BitVec 7} {f : Word → Word → Word} {w : Word} (h : exec i s = onBoard s i fun c => s.ctl c d (f (c.sreg x) (immUni k)))
    (e : f (b.sreg x) (k.signExtend 32) = w) : givesCtl s b i d w :=
  givesCtl_of_ctl _ h (by rw [State.sreg_noted, immUni, e])

end

/-! ### The values of R192 as comparisons of numbers -/

section
variable (x y : Word)

theorem valSmulh_eq : valSmulh x y = (x.signExtend 64 * y.signExtend 64).extractLsb' 32 32 := mulHigh_signed x y

/-- The least of two words, the first where they are equal. -/
theorem valSmin_eq : valSmin x y = if x.toInt ≤ y.toInt then x else y := by
  simp only [valSmin, iLess_eq, numOf, decide_eq_true_eq, ← Int.not_le, ite_not, Bool.false_eq_true, if_false]

theorem valSmax_eq : valSmax x y = if x.toInt < y.toInt then y else x := by
  simp only [valSmax, iLess_eq, numOf, decide_eq_true_eq, Bool.false_eq_true, if_false]

theorem valSminu_eq : valSminu x y = if x.toNat ≤ y.toNat then x else y := by
  simp only [valSminu, iLess_eq, numOf, decide_eq_true_eq, if_true, Int.ofNat_lt, ← Nat.not_le, ite_not]

theorem valSmaxu_eq : valSmaxu x y = if x.toNat < y.toNat then y else x := by
  simp only [valSmaxu, iLess_eq, numOf, decide_eq_true_eq, if_true, Int.ofNat_lt]

theorem valSslt_eq : valSslt x y = if x.toInt < y.toInt then 1 else 0 := by
  simp only [valSslt, iLess_eq, numOf, decide_eq_true_eq, Bool.false_eq_true, if_false]

theorem valSsltu_eq : valSsltu x y = if x.toNat < y.toNat then 1 else 0 := by
  simp only [valSsltu, iLess_eq, numOf, decide_eq_true_eq, if_true, Int.ofNat_lt]

end

/-! ### The instructions -/

/-- Settles O13: each operation in its register form and in its immediate form, with one equation for the value of both. -/
theorem uniformOperationsComplete : Obligations.UniformOperationsComplete := by
  intro s b d x y i X
  exact ⟨givesCtl_regs (exec_sadd s) rfl, givesCtl_imm (exec_saddImm s) rfl,
    givesCtl_regs (exec_ssub s) rfl, givesCtl_imm (exec_ssubImm s) rfl,
    givesCtl_regs (exec_smul s) rfl, givesCtl_imm (exec_smulImm s) rfl,
    givesCtl_regs (exec_smulh s) (valSmulh_eq ..), givesCtl_imm (exec_smulhImm s) (valSmulh_eq ..),
    givesCtl_regs (exec_sand s) rfl, givesCtl_imm (exec_sandImm s) rfl,
    givesCtl_regs (exec_sor s) rfl, givesCtl_imm (exec_sorImm s) rfl,
    givesCtl_regs (exec_sxor s) rfl, givesCtl_imm (exec_sxorImm s) rfl,
    givesCtl_regs (exec_sshl s) rfl, givesCtl_imm (exec_sshlImm s) rfl,
    givesCtl_regs (exec_sshr s) rfl, givesCtl_imm (exec_sshrImm s) rfl,
    givesCtl_regs (exec_ssar s) rfl, givesCtl_imm (exec_ssarImm s) rfl,
    givesCtl_regs (exec_smin s) (valSmin_eq ..), givesCtl_imm (exec_sminImm s) (valSmin_eq ..),
    givesCtl_regs (exec_smax s) (valSmax_eq ..), givesCtl_imm (exec_smaxImm s) (valSmax_eq ..),
    givesCtl_regs (exec_sminu s) (valSminu_eq ..), givesCtl_imm (exec_sminuImm s) (valSminu_eq ..),
    givesCtl_regs (exec_smaxu s) (valSmaxu_eq ..), givesCtl_imm (exec_smaxuImm s) (valSmaxu_eq ..),
    givesCtl_regs (exec_sslt s) (valSslt_eq ..), givesCtl_imm (exec_ssltImm s) (valSslt_eq ..),
    givesCtl_regs (exec_ssltu s) (valSsltu_eq ..), givesCtl_imm (exec_ssltuImm s) (valSsltu_eq ..)⟩

/-- Settles O14: constants, and sums and differences of the board's own pairs. -/
theorem uniformMovesAndPairsComplete : Obligations.UniformMovesAndPairsComplete := by
  intro s b d i p x y j
  refine ⟨?smovl, ?smovh, ?dadd, ?dsub, ?daddi⟩
  case smovl => exact givesCtl_of_ctl _ (exec_smovl s) rfl
  case smovh => exact givesCtl_of_ctl _ (exec_smovh s) (by rw [State.sreg_noted, BitVec.setWidth_eq_extractLsb' (by decide)])
  case dadd => exact givesPair_of_ctlPair _ (exec_dadd s) (by simp only [State.pair_noted])
  case dsub => exact givesPair_of_ctlPair _ (exec_dsub s) (by simp only [State.pair_noted])
  case daddi => exact givesPair_of_ctlPair _ (exec_daddi s) (by rw [State.pair_noted])

end Sys2Proof.Machine
end

