-- ==== Sys2Proof/Proofs/ControlPaths.lean ====
section
/-!
Where the control slot sends a board (09 R191, R195, R197): the end of the bundle, a jump, and a flow, each by the paths and the pipeline that it leaves.
-/
namespace Sys2Proof.Machine

/-! ### Slots -/

section
variable (b : Board) (isB : Bool) (x : PcSlot)

@[simp] theorem Board.slotOf_setSlot : (b.setSlot isB x).slotOf isB = x := by cases isB <;> rfl

@[simp] theorem Board.slotOf_not_setSlot : (b.setSlot (!isB) x).slotOf isB = b.slotOf isB := by cases isB <;> rfl

@[simp] theorem Board.slotOf_setSlot_not : (b.setSlot isB x).slotOf (!isB) = b.slotOf (!isB) := by cases isB <;> rfl

@[simp] theorem Board.setSlot_id : (b.setSlot isB x).id = b.id := by cases isB <;> rfl

@[simp] theorem Board.setSlot_path : (b.setSlot isB x).path = b.path := by cases isB <;> rfl

@[simp] theorem Board.setSlot_pipe : (b.setSlot isB x).pipe = b.pipe := by cases isB <;> rfl

@[simp] theorem Board.setSlot_stack : (b.setSlot isB x).stack = b.stack := by cases isB <;> rfl

end

/-- Noting leaves every path where it is. -/
@[simp] theorem State.slotPath_noted (s : State) (b : Board) (i : Instr) (isB : Bool) : ((s.noted b i).slotOf isB).path = (b.slotOf isB).path := by
  rw [State.noted_eq]
  cases isB <;> rfl

@[simp] theorem State.stack_noted (s : State) (b : Board) (i : Instr) : (s.noted b i).stack = b.stack := by rw [State.noted_eq]

/-! ### The end of the bundle (09 R191) -/

/-- The bundle of a path ends with the path at the next bundle. -/
theorem Board.finish_path (b : Board) (c : Cur) (eff : Nat) : ((b.finish c eff).slotOf c.slotB).path = some ⟨c.pc + 1, c.mask⟩ :=
  congrArg PcSlot.path (b.slotOf_setSlot c.slotB _)

theorem Board.finish_path_other (b : Board) (c : Cur) (eff : Nat) : ((b.finish c eff).slotOf (!c.slotB)).path = (b.slotOf (!c.slotB)).path :=
  congrArg PcSlot.path (b.slotOf_setSlot_not c.slotB _)

/-- A result in flight goes on to its landing, with its value. -/
theorem Board.finish_pipe {b : Board} {e : PipeEntry} (he : e ∈ b.pipe) (c : Cur) (eff : Nat) :
    ∃ f ∈ (b.finish c eff).pipe, f.dest = e.dest ∧ f.sval = e.sval := ⟨_, List.mem_map.2 ⟨e, he, rfl⟩, rfl, rfl⟩

section
variable {s : State} {b : Board}

theorem State.ended_path (h : s.cur.done = false) : ((s.ended b).slotOf s.cur.slotB).path = some ⟨s.cur.pc + 1, s.cur.mask⟩ := by
  rw [State.ended, h]
  exact b.finish_path s.cur _

theorem State.ended_path_other : ((s.ended b).slotOf (!s.cur.slotB)).path = (b.slotOf (!s.cur.slotB)).path := by
  unfold State.ended
  split
  · rfl
  · exact b.finish_path_other s.cur _

theorem State.ended_pipe {e : PipeEntry} (he : e ∈ b.pipe) : ∃ f ∈ (s.ended b).pipe, f.dest = e.dest ∧ f.sval = e.sval := by
  unfold State.ended
  split
  · exact ⟨e, he, rfl, rfl⟩
  · exact Board.finish_pipe he s.cur _

theorem State.ended_id : (s.ended b).id = b.id := by
  unfold State.ended
  split
  · rfl
  · exact Board.setSlot_id ..

/-- The end of a bundle leaves the memory path as it is. -/
theorem State.ended_memPath : (s.ended b).path = b.path := by
  unfold State.ended
  split
  · rfl
  · exact Board.setSlot_path ..

/-- An instruction whose meaning ends the bundle turns to what it leaves: nothing but the board in focus and the bundle in issue has changed. -/
theorem turns_of_endWith {i : Instr} {k : Board → State} {c : Board} {P : State → Board → Prop} (h : exec i s = onBoard s i k)
    (e : k (s.noted b i) = s.endWith c) (hP : P (s.endWith c) c) : turns s b i P := fun hc =>
  ⟨s.endWith c, c, by rw [h, onBoard_clear hc, e], rfl, rfl, hP⟩

end

/-! ### Branches (09 R195) -/

section
variable (s : State) (b : Board)

/-- The board whose slot X has gone on at a target. -/
def State.jumped (t : BitVec 48) : Board :=
  (s.ended b).setSlot s.cur.slotB { (s.ended b).slotOf s.cur.slotB with path := some ⟨t, s.cur.mask⟩, fetching := true }

theorem State.jump_eq (t : BitVec 48) : s.jump b t = s.endWith (s.jumped b t) := rfl

theorem State.jumped_path (t : BitVec 48) : ((s.jumped b t).slotOf s.cur.slotB).path = some ⟨t, s.cur.mask⟩ :=
  congrArg PcSlot.path (Board.slotOf_setSlot ..)

theorem State.jumped_pipe (t : BitVec 48) : (s.jumped b t).pipe = (s.ended b).pipe := Board.setSlot_pipe ..

/-- A control-slot result is in the pipeline until it lands (09 R190). -/
theorem Board.outC_pipe (sB : Bool) (d : Dest) (v : BitVec 64) : ∃ e ∈ (b.outC sB d v).pipe, e.dest = d ∧ e.sval = v.setWidth 128 := by
  unfold Board.outC
  obtain ⟨rem, he⟩ := Board.emit_pipe (b.setSlot sB _)
    { dest := d, slotB := sB, lanes := allLanes, rem := 2, sval := v.setWidth 128, dc := [(sB, 0)], ctl := true }
  rw [he]
  exact ⟨_, List.mem_append_right _ (List.mem_singleton_self _), rfl, rfl⟩

/-- The word that LOOP writes is still in flight after its bundle has ended. -/
theorem State.ended_outC_pipe (r : Nat) (v : Word) :
    ∃ e ∈ (s.ended (b.outC s.cur.slotB (.s r) (v.setWidth 64))).pipe, e.dest = .s r ∧ e.sval = v.setWidth 128 := by
  obtain ⟨e, he, hd, hv⟩ := b.outC_pipe s.cur.slotB (.s r) (v.setWidth 64)
  obtain ⟨f, hf, hfd, hfv⟩ := State.ended_pipe (s := s) he
  exact ⟨f, hf, hfd.trans hd, by rw [hfv, hv, BitVec.setWidth_setWidth (by decide)]⟩

end

/-- Settles O15: a branch that is taken jumps, one that is not falls through, and LOOP's write leaves before either. -/
theorem branchesRedirect : Obligations.BranchesRedirect := by
  intro s b r p far near goes target v
  refine ⟨?bra, ?brx, fun hv => ?nz, fun hv => ?z, fun hd hv => ?nzFalls, fun hd hv => ?zFalls, fun hv => ?loop, fun hd hv => ?loopFalls⟩
  case bra => exact turns_of_endWith (exec_bra s) (s.jump_eq _ _) (s.jumped_path _ _)
  case brx => exact turns_of_endWith (exec_brx s) (by rw [State.pair_noted, State.jump_eq]) (s.jumped_path _ _)
  case nz => exact turns_of_endWith (exec_brcNz s) (by rw [State.sreg_noted, if_pos (bne_iff_ne.2 hv)]; rfl) (s.jumped_path (s.noted b _) target)
  case z => exact turns_of_endWith (exec_brcZ s) (by rw [State.sreg_noted, if_pos (beq_iff_eq.2 hv)]; rfl) (s.jumped_path (s.noted b _) target)
  case nzFalls => exact turns_of_endWith (exec_brcNz s) (by rw [State.sreg_noted, if_neg (by simpa using hv)]; rfl) (State.ended_path hd)
  case zFalls => exact turns_of_endWith (exec_brcZ s) (by rw [State.sreg_noted, if_neg (by simpa using hv)]; rfl) (State.ended_path hd)
  case loop =>
    let c := (s.noted b (.loop r near)).outC s.cur.slotB (.s r.toNat) ((v - 1).setWidth 64)
    have hjump : (s.jumped c target).pipe = (s.ended c).pipe := s.jumped_pipe c target
    exact turns_of_endWith (exec_loop s) (by simp only [State.sreg_noted]; rw [if_pos hv, if_pos hv]; rfl)
      ⟨s.jumped_path c target, hjump ▸ s.ended_outC_pipe _ _ _⟩
  case loopFalls =>
    exact turns_of_endWith (exec_loop s) (by simp only [State.sreg_noted]; rw [if_neg (Nat.not_lt.2 hv), if_neg (Nat.not_lt.2 hv)]; rfl)
      ⟨State.ended_path hd, s.ended_outC_pipe _ _ _⟩

/-! ### Flows of paths (02 R29 to R33) -/

section
variable (b : Board) (isB : Bool) (f : Flow)

theorem Board.flow_stack : (b.flow isB f).stack = f.stack := by
  unfold Board.flow
  dsimp only
  split <;> split <;> simp

/-- A path stands where it was placed, whatever its clock and records are from. -/
@[simp] theorem PcSlot.placed_path (x : PcSlot) (p : Path) (n : Nat) (form : Form) : (x.placed p n form).path = some p := by cases form <;> rfl

theorem Board.flow_path : ((b.flow isB f).slotOf isB).path = f.x.map (·.1) := by
  unfold Board.flow
  dsimp only
  split
  · rename_i hx
    rw [hx]
    exact congrArg PcSlot.path (Board.slotOf_setSlot ..)
  · rename_i p form hx
    rw [hx]
    exact (congrArg PcSlot.path (Board.slotOf_setSlot ..)).trans (PcSlot.placed_path ..)

/-- The other slot keeps its path where the flow names none for it. -/
theorem Board.flow_path_other :
    ((b.flow isB f).slotOf (!isB)).path = match f.o with
      | none => (b.slotOf (!isB)).path
      | some o => o.map (·.1) := by
  have hx (c : Board) (y : PcSlot) (p : List PipeEntry) : ({ c.setSlot isB y with pipe := p }.slotOf (!isB)).path = (c.slotOf (!isB)).path :=
    congrArg PcSlot.path (c.slotOf_setSlot_not isB y)
  have ho (c : Board) (y : PcSlot) (p : List PipeEntry) : ({ c.setSlot (!isB) y with pipe := p }.slotOf (!isB)).path = y.path :=
    congrArg PcSlot.path (c.slotOf_setSlot (!isB) y)
  rcases f with ⟨stk, x, _ | _ | ⟨q, form⟩, stacked, same⟩ <;> unfold Board.flow <;> dsimp only
  · split <;> exact hx _ _ _
  · split <;> exact (hx _ _ _).trans (ho _ _ _)
  · split <;> exact ((hx _ _ _).trans (ho _ _ _)).trans (PcSlot.placed_path ..)

end

/-! ### Calls (09 R197) -/

theorem pushJoin_eq (stk : List StackEntry) (e : StackEntry) (o : Option Path) : pushJoin stk e o = e :: ((o.map Path.entry).toList ++ stk) := by
  cases o <;> rfl

/-- Settles O18: the stack, the path and the other slot of CALL's flow. -/
theorem callPushesItsJoin : Obligations.CallPushesItsJoin := by
  intro s b off other
  have hother : s.otherPath (s.noted b (.call off)) = other := s.slotPath_noted b _ _
  refine turns_of_endWith (exec_call s) rfl ⟨?stack, ?path, ?gone⟩
  case stack => rw [Board.flow_stack, callFlow, pushJoin_eq, hother, State.stack_noted]
  case path => rw [Board.flow_path]; rfl
  case gone =>
    rw [Board.flow_path_other, callFlow, hother, State.ended_path_other, State.slotPath_noted]
    cases h : other with
    | none => exact h
    | some p => rfl

end Sys2Proof.Machine
end

