-- ==== Sys2Proof/Proofs/SystemRegisters.lean ====
section
/-!
Index bases, system registers and privilege in the control slot (09 R207 to R214, 22 R396).
-/
namespace Sys2Proof.Machine

/-! ### Index bases (03 R59, 09 R207) -/

/-- What has applied of the older settings applies before what a newer one does. -/
theorem applyIx_append (ix : List (BitVec 4)) (l m : List PendIx) : applyIx ix (l ++ m) = applyIx (applyIx ix l) m := by
  induction l generalizing ix with
  | nil => rfl
  | cons p t ih => exact ih _

theorem applyIx_length (ix : List (BitVec 4)) (l : List PendIx) : (applyIx ix l).length = ix.length := by
  induction l generalizing ix with
  | nil => rfl
  | cons p t ih =>
    rw [applyIx, ih]
    split
    · rw [modAt_eq_modify, List.length_modify]
    · rfl

/-- The settings that are left after a bundle has started. -/
def PendIx.next (l : List PendIx) : List PendIx := (l.filter fun p => 1 < p.left).map fun p => { p with left := p.left - 1 }

section
variable (b : Board) (w w' w'' : BitVec 8)

theorem Board.start_ix : (b.start w).ix = applyIx b.ix b.pendIx := rfl

theorem Board.start_pendIx : (b.start w).pendIx = PendIx.next b.pendIx := rfl

/-- A board with one more setting pending, its last. -/
def Board.setIx (n : Nat) (x : BitVec 2) (v : BitVec 4) : Board := { b with pendIx := b.pendIx ++ [⟨n, x, v⟩] }

variable {b} {x : BitVec 2} {v : BitVec 4}

/-- A setting with more than one bundle left does not apply yet, and has one fewer left. -/
theorem Board.setIx_start {n : Nat} (hn : 1 < n) : (b.setIx n x v).start w = (b.start w).setIx (n - 1) x v := by
  have hix : applyIx b.ix (b.pendIx ++ [⟨n, x, v⟩]) = applyIx b.ix b.pendIx := by
    rw [applyIx_append]
    simp [applyIx, Nat.not_le.2 hn]
  have hpend : PendIx.next (b.pendIx ++ [⟨n, x, v⟩]) = PendIx.next b.pendIx ++ [⟨n - 1, x, v⟩] := by
    simp [PendIx.next, hn]
  have hstart : (b.setIx n x v).start w = { b.start w with
      ix := applyIx b.ix (b.pendIx ++ [⟨n, x, v⟩]), pendIx := PendIx.next (b.pendIx ++ [⟨n, x, v⟩]) } := rfl
  rw [hstart, hix, hpend]
  rfl

/-- A setting with one bundle left applies as the bundle starts, after all older ones. -/
theorem Board.setIx_start_applies (hx : x.toNat < b.ix.length) : ((b.setIx 1 x v).start w).ix[x.toNat]? = some v := by
  have hlen : x.toNat < (applyIx b.ix b.pendIx).length := by rwa [applyIx_length]
  rw [Board.start_ix, Board.setIx, applyIx_append]
  simp [applyIx, modAt_eq_modify, hlen]

theorem Board.start_length : (b.start w).ix.length = b.ix.length := applyIx_length ..

end

/-! ### Instructions of the control slot that read or write a system register -/

section
variable (s : State) (b : Board) (i : Instr)

@[simp] theorem State.pendIx_noted : (s.noted b i).pendIx = b.pendIx := by rw [State.noted_eq]

@[simp] theorem State.sysVal_noted (r : SysReg) : s.sysVal (s.noted b i) r = s.sysVal b r := by
  rw [State.noted_eq]
  rfl

/-- NOP names no register. -/
theorem State.noted_nop : s.noted b .nop = b := rfl

variable {s b} {y : BitVec 12} {d : BitVec 9}

/-- LANEID goes to a vector register, and leaves no dc1 entry (09 R190). -/
theorem execGetsys_laneid (h : SysReg.ofNum y = some .laneid) :
    exec (.getsys y d) s = onBoard s (.getsys y d) fun c => s.put (c.emit
      { dest := .v (d.toNat % 64), slotB := s.cur.slotB, lanes := s.cur.mask, rem := 2, vals := lanesOf fun l => BitVec.ofNat 32 l }) := by
  rw [exec_getsys, execGetsys, h]

theorem execGetsys_uniform {r : SysReg} (h : SysReg.ofNum y = some r) (hl : r ≠ .laneid) :
    exec (.getsys y d) s = onBoard s (.getsys y d) fun c =>
      if r.pair then s.ctlPair c d.toNat (s.sysVal c r) else s.ctl c d ((s.sysVal c r).setWidth 32) := by
  rw [exec_getsys, execGetsys, h]
  cases r with
  | laneid => exact absurd rfl hl
  | _ => rfl

end

/-- Settles O22: SETIX by the count of bundles that it has left, the others by the register that they read. -/
theorem systemInstructionsComplete : Obligations.SystemInstructionsComplete := by
  intro s b x v y d r
  refine ⟨?setix, fun c w1 w2 w3 hc => ?applies, fun hy hl hp => ?pair, fun hy hl hp => ?word, fun hy => ?laneid, ?setsys, ?time, ?tick, ?nop⟩
  case setix => exact completes_of_onBoard (exec_setix s) (by rw [State.pendIx_noted]; rfl)
  case applies =>
    have h1 : c.start w1 = (b.start w1).setIx 2 x v := hc ▸ Board.setIx_start w1 (by decide)
    have h2 : (c.start w1).start w2 = ((b.start w1).start w2).setIx 1 x v := h1 ▸ Board.setIx_start w2 (by decide)
    refine ⟨by rw [h1]; rfl, by rw [h2]; rfl, fun hx => ?_⟩
    rw [h2]
    exact Board.setIx_start_applies w3 (by rwa [Board.start_length, Board.start_length])
  case pair => exact givesPair_of_ctlPair (fun c => s.sysVal c r) ((execGetsys_uniform hy hl).trans (by simp only [hp, if_true])) (State.sysVal_noted ..)
  case word =>
    have hexec : exec (.getsys y d) s = onBoard s (.getsys y d) fun c => s.ctl c d ((s.sysVal c r).setWidth 32) :=
      (execGetsys_uniform hy hl).trans (by simp only [hp, Bool.false_eq_true, if_false])
    exact givesCtl_of_ctl (fun c => (s.sysVal c r).setWidth 32) hexec (by rw [State.sysVal_noted])
  case laneid => exact completes_of_onBoard (execGetsys_laneid hy) rfl
  case setsys => exact completes_of_onBoard (exec_setsys s) (by rw [State.sreg_noted]; rfl)
  case time => exact givesPair_of_ctlPair _ (exec_time s) rfl
  case tick => exact givesPair_of_ctlPair _ (exec_tick s) (State.tick_noted ..)
  case nop => exact completes_of_onBoard (exec_nop s) rfl

/-! ### Privilege (22 R396) -/

/-- The number of WINDOW is 0x020 (09 R209). -/
theorem SysReg.ofNum_window {y : BitVec 12} (h : SysReg.ofNum y = some .window) : y = 0x020 := by
  unfold SysReg.ofNum at h
  split at h <;> simp at h
  exact BitVec.eq_of_toNat_eq ‹_›

theorem when_ne_nil {c : Bool} {f : Find} (h : when c f ≠ []) : c = true := by
  cases c with
  | false => exact absurd rfl h
  | true => rfl

/-- A condition on privilege holds of ERET, or of SETSYS of WINDOW, on a board that has none, and of nothing else. -/
theorem Board.privs_ne_nil {b : Board} {i : Instr} (h : b.privs i ≠ []) : b.priv = false ∧ (i = .eret ∨ ∃ r, i = .setsys 0x020 r) := by
  cases i with
  | eret => exact ⟨by simpa using when_ne_nil h, .inl rfl⟩
  | setsys y r =>
    obtain ⟨hpriv, hy⟩ : b.priv = false ∧ SysReg.ofNum y = some .window := by simpa using when_ne_nil h
    exact ⟨hpriv, .inr ⟨r, by rw [SysReg.ofNum_window hy]⟩⟩
  | _ => exact absurd rfl h

/-- A trap of class PRIV comes of a condition on privilege alone: every other condition raises its own class (21 R369). -/
theorem judge_priv {s : State} {b : Board} {i : Instr} {t : Trap} (h : judge s b i = some t) (hcls : t.cls = 4) : b.privs i ≠ [] := by
  intro hnil
  have other {α : Type} {x : Option α} {f : α → Trap} {n : Nat} (hf : ∀ a, (f a).cls = n) (hn : n ≠ 4) : x.map f ≠ some t := by
    intro hx
    obtain ⟨a, -, rfl⟩ := Option.map_eq_some_iff.1 hx
    exact hn ((hf a).symm.trans hcls)
  simp only [judge, Option.orElse_eq_orElse, Option.orElse_eq_or, Option.or_eq_some_iff] at h
  rcases h with h | ⟨-, h | ⟨-, h | ⟨-, h | ⟨-, h | ⟨-, h⟩⟩⟩⟩⟩
  · exact other (n := clsWindow) (fun _ => rfl) (by decide) h
  · exact other (n := clsIllegal) (fun _ => rfl) (by decide) h
  · rw [hnil] at h
    cases h
  · exact other (n := clsBudget) (fun _ => rfl) (by decide) h
  · exact other (n := clsStack) (fun _ => rfl) (by decide) h
  · exact other (n := clsMachine) (fun _ => rfl) (by decide) h

/-- ERET names no location. -/
theorem Board.windowFind_eret (b : Board) (sB : Bool) (m : Mask) : b.windowFind sB m .eret = none := by
  have huses : b.uses .eret = [] := rfl
  have hix : b.ixWin sB m .eret = none := ite_self none
  simp [Board.windowFind, Board.windowFindBut, huses, hix, firstAt]

/-- A condition on privilege is what is raised where the windows and the values are well-formed (21 R370). -/
theorem judge_of_privs {s : State} {b : Board} {i : Instr} {f : Find}
    (hw : (s.ctxOf b.env.ctx).chkWindow = false ∨ b.windowFind s.cur.slotB s.cur.mask i = none) (hi : s.illegals b i = [])
    (hp : b.privs i = [f]) : judge s b i = some { cls := 4, slot := slotNumOf i, code := privCode f } := by
  have hwin : (if (s.ctxOf b.env.ctx).chkWindow then b.windowFind s.cur.slotB s.cur.mask i else none) = none := by
    rcases hw with h | h <;> simp [h]
  rw [judge, hwin, hi, hp]
  rfl

/-- Settles O42: the two conditions on privilege raise PRIV, and no trap of that class is judged without one. -/
theorem privilegeIsChecked : Obligations.PrivilegeIsChecked := by
  intro s b d hb
  refine ⟨fun hp => ?eret, fun hp hw => ?setsys, fun hp i t hj hcls => ?privileged, fun i t he hs hj hcls => ?other⟩
  case eret =>
    have hprivs : b.privs .eret = [atPos 0 0x01 0] := by simp [Board.privs, when, hp]
    have hjudge : judge s b .eret = some { cls := 4, slot := 3, code := 1 } := judge_of_privs (.inr (b.windowFind_eret ..)) rfl hprivs
    exact (exec_eret s).trans (onBoard_trap hb hjudge _)
  case setsys =>
    have hwindow : (SysReg.ofNum 0x020 == some .window) = true := rfl
    have hprivs : b.privs (.setsys 0x020 d) = [atPos 0 0x02 0x020] := by rw [Board.privs, hwindow, hp]; rfl
    have hjudge : judge s b (.setsys 0x020 d) = some { cls := 4, slot := 3, code := 0x00200002 } := judge_of_privs (.inl hw) rfl hprivs
    exact (exec_setsys s).trans (onBoard_trap hb hjudge _)
  case privileged => exact Bool.false_ne_true ((Board.privs_ne_nil (judge_priv hj hcls)).1.symm.trans hp)
  case other =>
    obtain ⟨-, rfl | ⟨r, rfl⟩⟩ := Board.privs_ne_nil (judge_priv hj hcls)
    · exact he rfl
    · exact hs r rfl

end Sys2Proof.Machine
end

