-- ==== Sys2Proof/Proofs/WorkInstructions.lean ====
section
/-!
The control-slot instructions that start and end work (09 R203, R204, R206, R213), and what a handler's record holds as its ERET is accepted (21 R379,
R383).
-/
namespace Sys2Proof.Machine

/-! ### Launches (09 R203) -/

section
variable (s : State) (b : Board) (i : Instr) (a : BitVec 9) (graph : Bool)

theorem Board.incPeg_eq (p : Option (BitVec 3)) : b.incPeg p = { b with pegs := (b.incPeg p).pegs } := by cases p <;> rfl

/-- A board that has submitted a launch: its peg and its commands are one up. -/
def Board.submitted (p : Option (BitVec 3)) : Board := { b with pegs := (b.incPeg p).pegs, cmdsOut := b.cmdsOut + 1 }

/-- The request that a board submits. -/
def State.launchReq : LaunchReq :=
  { id := s.nextUid, board := b.id, addr := (b.pair a.toNat).toNat, graph := graph, peg := pegOf i, insn := insnOf i
    cap := ((s.grid? b.env.grid).map (·.rank)).getD 0, ctx := b.env.ctx, after := b.openWrites }

/-- A launch is submitted by the board as its release has left it. -/
theorem State.submit_eq : s.submit b i a graph =
    let t := (s.releaseAt b .system).1
    let d := (s.releaseAt b .system).2
    { t with bd := some (d.submitted (pegOf i)), launches := t.launches ++ [t.launchReq d i a graph], nextUid := t.nextUid + 1 } := by
  unfold State.submit
  dsimp only
  rw [Board.incPeg_eq]
  rfl

end

/-! ### What waits for earlier writes (10 R228) -/

section
variable {s : State} {b : Board} {act : OwedAct} {now : State → State}

theorem State.owe_now (hw : b.openWrites = []) (ho : b.owed = []) : s.owe b act now = now s := by simp [State.owe, hw, ho]

theorem State.board?_focus {x : Board} (h : s.bd = some x) : s.board? x.id = some x := by simp [State.board?, h]

theorem State.modBoard_congr {id : Nat} {x : Board} {f g : Board → Board} (hx : s.board? id = some x) (h : f x = g x) :
    s.modBoard id f = s.modBoard id g := by
  simp only [State.modBoard, hx, h]

/-- An effect that has to wait is owed behind the writes that are open, where the board in focus has the path of `b`. -/
theorem State.owe_later {x : Board} (hx : s.bd = some x) (hid : x.id = b.id) (hpath : x.path = b.path) (h : b.openWrites ≠ [] ∨ b.owed ≠ []) :
    s.owe b act now = s.modBoard b.id fun x => { x with owed := x.owed ++ [{ act := act, after := b.openWrites }] } := by
  have hne : ¬ (b.openWrites.isEmpty && b.owed.isEmpty) = true := by
    rcases h with h | h <;> simp [h]
  have hopen : x.openWrites = b.openWrites := by rw [Board.openWrites, Board.openWrites, hpath]
  rw [State.owe, if_neg hne]
  exact State.modBoard_congr (hid ▸ State.board?_focus hx) (by rw [hopen])

end

/-- Settles O21: a launch by the request that it submits, TRIGGER by whether its release leaves writes open, YIELD by the run that it states. -/
theorem workInstructionsComplete : Obligations.WorkInstructionsComplete := by
  intro s b a p graph n i
  have hlaunch : exec i s = onBoard s i fun c => s.submit c i a graph := by cases graph <;> rfl
  have hpeg : pegOf i = p := by cases graph <;> rfl
  refine ⟨fun hc => ?launch, ?trigger, ?yield⟩
  case launch =>
    have hexec := (hlaunch.trans (onBoard_clear hc _)).trans (congrArg Host.Outcome.next (State.submit_eq ..))
    rw [hpeg] at hexec
    generalize s.releaseAt (s.noted b i) .system = r at hexec ⊢
    exact ⟨r.2.submitted p, r.1.launchReq r.2 i a graph, hexec, rfl, rfl, fun k hk => Board.incPeg_cnt r.2 p hk, rfl, rfl, rfl, rfl, hpeg, rfl, rfl⟩
  case trigger =>
    refine completes_of_onBoard (exec_trigger s) ?_
    generalize s.releaseAt (s.noted b .trigger) .system = r
    obtain ⟨t, d⟩ := r
    by_cases h : d.openWrites = [] ∧ d.owed = []
    · exact (State.owe_now h.1 h.2).trans (if_pos h).symm
    · exact (State.owe_later (State.put_bd t d) rfl rfl (Classical.not_and_iff_not_or_not.1 h)).trans (if_neg h).symm
  case yield => exact completes_of_onBoard (exec_yield s) (by rw [State.tick_noted]; rfl)

/-! ### The record as an editor has left it (21 R383) -/

/-- A byte that none of the writes names is as before. -/
theorem Mem.get_writeAll_of_not_mem {m : Mem} (w : m.wf = true) {l : List (Nat × Byte)} {a : Nat} (h : ∀ p ∈ l, p.1 ≠ a) :
    (m.writeAll l).get a = m.get a := by
  induction l generalizing m with
  | nil => rfl
  | cons p t ih =>
    rw [Mem.writeAll, ih (Mem.wf_set w _ _) fun q hq => h q (List.mem_cons_of_mem _ hq), Mem.get_set w,
      if_neg (h p List.mem_cons_self).symm]

@[simp] theorem Mem.num_one (m : Mem) (a : Nat) : m.num a 1 = (m.get a).toNat := by simp [Mem.num, Mem.read, tab, leNat]

section
variable {s : State} {x : Board}

/-- ACTION is what memory holds where nobody has edited it. -/
theorem State.actionOf_unedited (hm : s.memOk) (h : ∀ d ∈ s.edits, d.addr ≠ s.recordAt x + 2) :
    s.actionOf x = (s.mem.get (s.recordAt x + 2)).toNat := by
  rw [State.actionOf, Mem.num_one, State.asEdited, Mem.get_writeAll_of_not_mem hm.1]
  simp only [List.mem_map, List.mem_filter]
  rintro p ⟨d, ⟨hd, -⟩, rfl⟩
  exact h d hd

/-- ACTION is the byte of its one edit, for the handler. -/
theorem State.actionOf_edited {d : Edit} (hm : s.memOk) (h : s.edits = [d]) (ha : d.addr = s.recordAt x + 2) : s.actionOf x = (d.of 1).toNat := by
  have hin : (s.recordAt x ≤ d.addr && d.addr < s.recordAt x + 32768) = true := by simp [ha]
  rw [State.actionOf, Mem.num_one, State.asEdited, h]
  simp only [List.filter_cons, hin, if_true, List.filter_nil, List.map_cons, List.map_nil, Mem.writeAll]
  rw [Mem.get_set hm.1, if_pos ha.symm]

end

/-! ### ERET (09 R213) -/

@[simp] theorem Board.exitAll_id (b : Board) : b.exitAll.id = b.id := rfl

@[simp] theorem Board.exitAll_path (b : Board) : b.exitAll.path = b.path := rfl

/-- ERET releases, ends its board's lanes, and restores the board that it serves, now or once its writes are performed. -/
theorem exec_eret_released {s : State} {b c : Board} (hc : s.clear b .eret)
    (h : (({ s with bd := some (s.noted b .eret) } : State).release b.id).bd = some c) :
    let r := ({ s with bd := some (s.noted b .eret) } : State).release b.id
    exec .eret s = .next ((r.endWith (r.ended c).exitAll).owe c .restore fun e => e.serveBoard c) := by
  have hid : (s.noted b .eret).id = b.id := by rw [State.noted_eq]
  intro r
  have hget : r.bd.getD (s.noted b .eret) = c := by rw [h]; rfl
  rw [exec_eret, execEret, onBoard_clear hc, hid]
  change Host.Outcome.next ((r.endWith (r.ended (r.bd.getD _)).exitAll).owe (r.bd.getD _) .restore fun e => e.serveBoard (r.bd.getD _)) = _
  rw [hget]

/-- Settles O43: the restore comes now or is owed, by whether the release leaves writes open; ACTION is read as its handler has left it. -/
theorem eretReturns : Obligations.EretReturns := by
  intro s b hp hc r c hr e
  refine ⟨fun hw ho => ?now, fun h => ?later, fun x a ha => ⟨fun hd hm => ?unedited, fun v w hd hm => ?host, fun v w h hd hm => ?handler⟩⟩
  case now =>
    rw [exec_eret_released hc hr, State.owe_now hw ho]
    rfl
  case later =>
    have hx : e.bd = some (r.ended c).exitAll := rfl
    have hid : (r.ended c).exitAll.id = c.id := (Board.exitAll_id _).trans State.ended_id
    have hpath : (r.ended c).exitAll.path = c.path := (Board.exitAll_path _).trans State.ended_memPath
    have howe := State.owe_later (act := .restore) (now := fun e => e.serveBoard c) hx hid hpath h
    exact (exec_eret_released hc hr).trans (congrArg Host.Outcome.next howe)
  case unedited => rw [ha]; exact State.actionOf_unedited hm (ha ▸ hd)
  case host => exact State.actionOf_edited hm hd ha
  case handler => exact State.actionOf_edited hm hd ha

end Sys2Proof.Machine
end

