-- ==== Sys2Proof/Proofs/TrapSteps.lean ====
section
/-!
The steps of the trap classes (21 R369, R370, R374, 23 R403, R415, 25 R434): each takes the trap that its conditions name.
-/
namespace Sys2Proof.Machine

/-! ### Traps of the bundle in issue -/

section
variable {s : State} {b : Board} (hb : s.bd = some b) (hf : b.frozen = none)
include hb hf

/-- The trap that the bundle in issue meets is taken by the step of its class. -/
theorem trapStep_raises {name : String} {cls : Nat} {slot : TrapSlot} {code : BitVec 32} {addr : BitVec 64} (hd : s.cur.done = false)
    (ht : s.frontTrap b = some { cls := cls, slot := trapSlotNum slot, code := code, addr := addr }) :
    trapStep name cls slot code addr s = .next (s.raise b { cls := cls, slot := trapSlotNum slot, code := code, addr := addr }) := by
  simp [trapStep, event_next, hb, hf, hd, ht]

variable {slot : TrapSlot} {store lane : BitVec 8} {num : BitVec 16} (hlo : 1 ≤ store.toNat) (hhi : store.toNat ≤ 6)
include hlo hhi

theorem execMachine_raises (hd : s.cur.done = false)
    (ht : s.frontTrap b = some { cls := 10, slot := trapSlotNum slot, code := num ++ lane ++ store }) :
    execMachine slot store lane num s = .next (s.raise b { cls := 10, slot := trapSlotNum slot, code := num ++ lane ++ store }) := by
  have hstore : store ≠ 0#8 := by rintro rfl; simp at hlo
  simp [execMachine, event_next, hb, hf, hd, ht, hstore, hhi, BadLoc.code, clsMachine]

/-- Where no trap shows yet, a location is in error from now on. -/
theorem execMachine_spoils (ht : s.frontTrap b = none) :
    execMachine slot store lane num s = .next { s with bd := some (b.spoilAt ⟨store, lane, num⟩) } := by
  have hstore : store ≠ 0#8 := by rintro rfl; simp at hlo
  simp [execMachine, event_next, hb, hf, ht, hstore, hhi]

end

theorem Board.spoilAt_eq (b : Board) (store lane : BitVec 8) (num : BitVec 16) :
    b.spoilAt ⟨store, lane, num⟩ = if store = 5 ∧ 16 ≤ num.toNat
      then { b with pipe := modAt (num.toNat - 16) (fun e => { e with bad := some lane }) b.pipe }
      else { b with bad := ⟨store, lane, num⟩ :: b.bad } := by
  simp [Board.spoilAt]

/-! ### Traps between bundles -/

section
variable {s u : State} {b : Board} {id : Nat}

theorem execBroken_raises {t : Trap} (hp : s.present id = some (u, b)) (ht : u.frontTrap b = some t) (hcls : t.cls = 7) :
    execBroken id s = .next (u.raise b t) := by
  simp [execBroken, event_next, hp, ht, hcls, clsBroken]

theorem execRetire_freezes (hb : s.board? id = some b) (hs : s.stands b = false) (hd : s.drained b = true) (hz : b.soundPegsZero = true)
    (hf : b.hasFailure = true) : execRetire id s =
      .next (s.freeze b { cls := 8, slot := 7, code := b.brokenCode false b.brokenMask, addr := b.brokenAddr } false 0) := by
  simp [execRetire, event_next, hb, hs, hd, hz, hf, clsRetire]

/-- A run that has elapsed is overrun while the board holds a path and stands for nothing. -/
theorem State.overran_of {r : Run} {isB : Bool} {p : Path} (hr : b.run = some r) (hsp : r.spent = false) (hn : 1 ≤ r.n) (ht : r.start + r.n + 1 ≤ b.tick.toNat)
    (hs : s.stands b = false) (hp : (b.slotOf isB).path = some p) : s.overran b = some r := by
  have hpath : b.slotA.path.isSome = true ∨ b.slotB.path.isSome = true := by
    cases isB with
    | false => exact .inl (Option.isSome_of_eq_some hp)
    | true => exact .inr (Option.isSome_of_eq_some hp)
  simp [State.overran, hr, hsp, hn, ht, hs, hpath]

/-- The slot whose turn it is names the path, or the other where that one is empty. -/
theorem execOverrun_freezes {r : Run} {isB : Bool} {p : Path} (hb : s.board? id = some b) (ho : s.overran b = some r)
    (ht : isB = b.turnB ∨ (isB = !b.turnB ∧ (b.slotOf b.turnB).path = none)) (hp : (b.slotOf isB).path = some p) :
    execOverrun id s = .next (s.freeze { b with run := some { r with spent := true } }
      { cls := 9, slot := 7, code := BitVec.ofNat 32 r.n } isB p.pc) := by
  have hturn : (if (b.slotOf b.turnB).path.isSome then b.turnB else !b.turnB) = isB := by
    rcases ht with rfl | ⟨rfl, hnone⟩
    · simp [hp]
    · simp [hnone]
  simp [execOverrun, event_next, hb, ho, hturn, hp, clsOverrun]

end

/-- Settles O47: each step by the trap that its bundle meets, or by what the board has come to between bundles. -/
theorem trapStepsComplete : Obligations.TrapStepsComplete := by
  intro s b slot code addr store lane num
  refine ⟨fun hb hf hd => ⟨⟨fun h => ?window, fun h => ?illegal, fun h => ?priv, fun h => ?budget, fun h => ?stack⟩,
      fun hlo hhi => ⟨fun h => ?machine, fun h => ?spoil⟩⟩,
    fun id u t hp ht hcls => ?broken, fun id hb hs hd hz hf => ?retire, fun id r isB p hb hr hsp hn ht hs hturn hp => ?overrun⟩
  case window => exact trapStep_raises hb hf hd h
  case illegal => exact trapStep_raises hb hf hd h
  case priv => exact trapStep_raises hb hf hd h
  case budget => exact trapStep_raises hb hf hd h
  case stack => exact trapStep_raises hb hf hd h
  case machine => exact execMachine_raises hb hf hlo hhi hd h
  case spoil => rw [← Board.spoilAt_eq]; exact execMachine_spoils hb hf hlo hhi h
  case broken => exact execBroken_raises hp ht hcls
  case retire => exact execRetire_freezes hb hs hd hz hf
  case overrun => exact execOverrun_freezes hb (State.overran_of hr hsp hn ht hs hp) hturn hp

end Sys2Proof.Machine
end

