-- ==== Sys2Proof/Proofs/Seats.lean ====
section
/-!
The boards where they stand. Writes of memory, watches, fault queues, signals and grids leave them all alone (10 R224, 12 R261, 13 R279 to R286, 21 R373),
so that a freeze is the frozen board put in its place and a delivery that marks it at most.
-/
namespace Sys2Proof.Machine

/-- The board in focus and the others. -/
def State.seats (s : State) : Option Board × List Board := (s.bd, s.boards)

/-! ### Watches and writes at home (10 R224, 12 R261) -/

section
variable (s : State)

theorem State.faultEntry_seats (fn : Nat) (w : List Nat) : (s.faultEntry fn w).seats = s.seats := by
  obtain ⟨-, hbd, hboards, -⟩ := s.faultEntry_keeps fn w
  exact Prod.ext hbd hboards

theorem State.engineEntry_seats (c : BitVec 16) (cause detail count addr tpc : Nat) :
    (s.engineEntry c cause detail count addr tpc).seats = s.seats := s.faultEntry_seats _ _

theorem State.change_seats (f : Nat) (w : Watch) (i : Nat) (wr : Writer) : (s.change f w i wr).seats = s.seats := by
  unfold State.change
  dsimp only
  split
  · split
    · rfl
    · exact State.engineEntry_seats ..
  · rfl

theorem State.compare_seats (wr : Writer) (pa : Nat) (old new : List Byte) : (s.compare wr pa old new).seats = s.seats := by
  unfold State.compare
  split
  · rfl
  · refine foldl_keeps (P := State.seats) (fun s w => ?_) _ _
    split
    · refine foldl_keeps (P := State.seats) (fun s i => ?_) _ _
      split
      · exact State.change_seats ..
      · rfl
    · rfl

theorem State.compareOwn_seats (old : Mem) (a n : Nat) : (s.compareOwn old a n).seats = s.seats := by
  unfold State.compareOwn
  split
  · exact foldl_keeps (P := State.seats) (fun _ _ => State.compare_seats ..) _ _
  · rfl

theorem State.ownMem_seats (a n : Nat) (m : Mem) : (s.ownMem a n m).seats = s.seats := State.compareOwn_seats ..

theorem State.noteEdits_seats (wr : Option Writer) (l : Nat) (w : List (Nat × Byte)) : (s.noteEdits wr l w).seats = s.seats := by
  obtain ⟨es, e⟩ := s.noteEdits_eq wr l w
  rw [e]
  rfl

theorem State.writeLine_seats (wr : Option Writer) (l : Nat) (w : List (Nat × Byte)) : (s.writeLine wr l w).seats = s.seats := by
  unfold State.writeLine
  extract_lets old t u
  have hu : u.seats = s.seats := s.noteEdits_seats wr l w
  cases wr with
  | some wr => exact (State.compare_seats ..).trans hu
  | none =>
    dsimp only
    split
    · exact (State.compare_seats ..).trans hu
    · exact hu

theorem State.writeLocal_seats (wr : Option Writer) (w : List (Nat × Byte)) : (s.writeLocal wr w).seats = s.seats :=
  foldl_keeps (P := State.seats) (fun _ _ => State.writeLine_seats ..) _ _

/-! ### Signals and grids (13 R279 to R286) -/

theorem State.counterAdd_seats {t : State} {c : BitVec 16} {va n detail : Nat} (h : s.counterAdd c va n detail = .ok t) : t.seats = s.seats := by
  unfold State.counterAdd at h
  split at h
  · cases h
  · split at h
    · cases h
    · cases h
      exact State.writeLocal_seats ..
  · split at h
    · cases h
      rfl
    · cases h
  · split at h
    · cases h
    · cases h
      rfl

theorem State.interrupt_seats (fn : Nat) (vs : List Nat) : (s.interrupt fn vs).seats = s.seats := by
  unfold State.interrupt
  split <;> rfl

theorem State.signalAt_seats (c : BitVec 16) (va n detail : Nat) : (s.signalAt c va n detail).seats = s.seats := by
  unfold State.signalAt
  split
  · rename_i h
    exact (State.interrupt_seats ..).trans (s.counterAdd_seats h)
  · exact State.engineEntry_seats ..

theorem State.signal_seats (c : BitVec 16) (va n detail : Nat) : (s.signal c va n detail).seats = s.seats := by
  unfold State.signal
  split
  · rfl
  · exact State.signalAt_seats ..

theorem State.settleGraph_seats (id : Nat) : (s.settleGraph id).seats = s.seats := by
  unfold State.settleGraph
  split
  · rfl
  · rename_i x _
    extract_lets rel ret t
    have ht : t.seats = s.seats := by
      unfold t
      split
      · exact s.signal_seats ..
      · rfl
    split
    · exact (t.signal_seats ..).trans ht
    · exact ht

theorem State.signalGrid_seats (g : Grid) (retire : Bool) : (s.signalGrid g retire).seats = s.seats := by
  unfold State.signalGrid
  extract_lets n d t u
  have ht : t.seats = s.seats := by
    unfold t
    split
    · split
      · exact State.signalAt_seats ..
      · rfl
    · rfl
  have hu : u.seats = s.seats := by
    refine Eq.trans ?_ ht
    unfold u
    split
    · exact State.signalAt_seats ..
    · exact State.signal_seats ..
  split
  · exact (State.settleGraph_seats ..).trans hu
  · exact hu

theorem State.settleGrid_seats (uid : Nat) : (s.settleGrid uid).seats = s.seats := by
  unfold State.settleGrid
  split
  · rfl
  · rename_i g _
    extract_lets all rel ret t
    have ht : t.seats = s.seats := by
      unfold t
      split
      · exact s.signalGrid_seats ..
      · rfl
    split
    · exact (t.signalGrid_seats ..).trans ht
    · exact ht

theorem State.addGrid_seats (c : BitVec 16) (b : Block) (k : Kernel) (o : Origin) (cap : Nat) (deps : List Dep) :
    (s.addGrid c b k o cap deps).seats = s.seats := by
  unfold State.addGrid
  dsimp only
  split
  · exact State.settleGrid_seats ..
  · rfl

/-! ### A line asked of a peer (15 R319) -/

theorem State.fetch_seats {t : State} {reader : Nat} {c : BitVec 16} {va : Nat} {kind : FetchKind} (h : s.fetch reader c va kind = some t) :
    t.seats = s.seats := by
  unfold State.fetch at h
  split at h
  · extract_lets line u at h
    split at h
    · cases h
    · injection h with h
      rw [← h]
      rfl
  · cases h

theorem State.awaitPeer_seats (reader : Nat) (c : BitVec 16) (f : BFail) : ((s.awaitPeer reader c f).getD s).seats = s.seats := by
  cases h : s.awaitPeer reader c f with
  | none => rfl
  | some t =>
    obtain ⟨va, -, hfetch⟩ := Option.bind_eq_some_iff.1 h
    exact s.fetch_seats hfetch

end

end Sys2Proof.Machine
end

