-- ==== Sys2Proof/Proofs/TrapFreezes.lean ====
section
/-!
A trap taken on the board in focus (21 R369 to R372, R375): the board is frozen where it stands, its delivery marks it due at most, and TRAP (09 R212)
does so after its bundle has ended.
-/
namespace Sys2Proof.Machine

/-- The board as it stands while its delivery waits for a peer (15 R319, log 22). -/
def Board.awaited (b : Board) : Board := { b with frozen := b.frozen.map fun f => { f with due := true } }

@[simp] theorem Board.awaited_slotOf (b : Board) (isB : Bool) : b.awaited.slotOf isB = b.slotOf isB := rfl

section
variable {s : State} {b : Board} {others : List Board}

theorem State.setBoard_seats {c : Board} (h : s.seats = (some b, others)) (hid : b.id = c.id) : (s.setBoard c).seats = (some c, others) := by
  obtain ⟨hbd, rfl⟩ := Prod.mk.inj h
  simp [State.setBoard, hbd, hid, State.seats]

/-- The board in focus changed in its place. -/
theorem State.modBoard_seats {f : Board → Board} (h : s.seats = (some b, others)) (hf : b.id = (f b).id) :
    (s.modBoard b.id f).seats = (some (f b), others) := by
  have hb : s.board? b.id = some b := by simp [State.board?, (Prod.mk.inj h).1]
  rw [State.modBoard, hb]
  exact State.setBoard_seats h hf

/-- A delivery leaves every board in its place, and marks the frozen one at most. -/
theorem State.deliver_seats (h : s.seats = (some b, others)) (f : Freeze) :
    ∃ c, (c = b ∨ c = b.awaited) ∧ (s.deliver b f).seats = (some c, others) := by
  have unmarked {t : State} (ht : t.seats = s.seats) : ∃ c, (c = b ∨ c = b.awaited) ∧ t.seats = (some c, others) :=
    ⟨b, .inl rfl, ht.trans h⟩
  unfold State.deliver
  extract_lets c who own turned
  have hturned (e : BFail) : ∃ c, (c = b ∨ c = b.awaited) ∧ (turned e).seats = (some c, others) := by
    unfold turned
    split
    · exact ⟨b.awaited, .inr rfl, State.modBoard_seats ((s.awaitPeer_seats ..).trans h) rfl⟩
    · exact unmarked ((State.engineEntry_seats ..).trans (State.faultEntry_seats ..))
  split
  · exact unmarked (State.faultEntry_seats ..)
  · split
    · exact hturned _
    · split
      · exact hturned _
      · exact unmarked (State.addGrid_seats ..)

/-- A board that has frozen with a trap stands in its place with its freeze, its slots as they were. -/
theorem State.freeze_seats {x : Board} (h : s.seats = (some x, others)) (hid : x.id = b.id) (t : Trap) (slotB : Bool) (tpc : BitVec 48) :
    ∃ c f, (s.freeze b t slotB tpc).seats = (some c, others) ∧ c.frozen = some f ∧ (∀ isB, c.slotOf isB = b.slotOf isB)
      ∧ f.cls = BitVec.ofNat 8 t.cls ∧ f.slot = BitVec.ofNat 8 t.slot ∧ f.code = t.code ∧ f.addr = t.addr ∧ f.tpc = tpc := by
  unfold State.freeze
  extract_lets frid f u run c v
  have hv : v.seats = (some c, others) := calc
    v.seats = ((u.setBoard c).spill c).seats := State.ownMem_seats ..
    _ = (u.setBoard c).seats := State.ownMem_seats ..
    _ = (some c, others) := State.setBoard_seats (s := u) h hid
  split
  · exact ⟨c, f, hv, rfl, fun _ => rfl, rfl, rfl, rfl, rfl, rfl⟩
  · obtain ⟨d, rfl | rfl, hd⟩ := State.deliver_seats hv f
    · exact ⟨c, f, hd, rfl, fun _ => rfl, rfl, rfl, rfl, rfl, rfl⟩
    · exact ⟨c.awaited, { f with due := true }, hd, rfl, fun _ => rfl, rfl, rfl, rfl, rfl, rfl⟩

end

/-- TRAP ends its bundle first, so that its path goes on at the next bundle when the board resumes. -/
theorem execTrap_freezes {s : State} {b : Board} {code : BitVec 16} (hc : s.clear b (.trap code)) (hd : s.cur.done = false) :
    let e := (s.noted b (.trap code)).finish s.cur s.cur.gap
    exec (.trap code) s = .next ((s.endWith e).freeze e { cls := 1, slot := 3, code := code.setWidth 32 } s.cur.slotB s.cur.pc) := by
  rw [exec_trap, execTrap, onBoard_clear hc]
  simp [hd, clsSoft]

/-- Settles O41: the bundle ends, and the board as its end leaves it freezes. -/
theorem trapInstructionFreezes : Obligations.TrapInstructionFreezes := by
  intro s b code hc hd
  let n := s.noted b (.trap code)
  let e := n.finish s.cur s.cur.gap
  obtain ⟨c, f, hseats, hfrozen, hslots, hcls, hslot, hcode, haddr, htpc⟩ :=
    State.freeze_seats (s := s.endWith e) (b := e) rfl rfl { cls := 1, slot := 3, code := code.setWidth 32 } s.cur.slotB s.cur.pc
  obtain ⟨hbd, hboards⟩ := Prod.mk.inj hseats
  refine ⟨_, c, f, execTrap_freezes hc hd, hbd, hfrozen, hcls, hslot, hcode, haddr, htpc, ?own, ?other, hboards⟩
  case own => rw [hslots]; exact n.finish_path s.cur _
  case other => rw [hslots, Board.finish_path_other, State.slotPath_noted]

end Sys2Proof.Machine
end

