-- ==== Sys2Proof/Proofs/CanonicalMemory.lean ====
section
/-!
Byte memory in its canonical form (log 1) is fixed by what it reads as.
-/
namespace Sys2Proof.Machine

/-- The bytes that canonical memory lists are those that read as something else than an unwritten byte. -/
theorem Mem.mem_iff_get {m : Mem} (w : m.wf = true) (a : Nat) (x : Byte) : (a, x) ∈ m ↔ m.get a = x ∧ x ≠ 0 := by
  rw [Mem.wf_iff] at w
  induction m with
  | nil => simpa [Mem.get, unwritten] using fun h : (0 : Byte) = x => h.symm
  | cons p t ih =>
    obtain ⟨k, y⟩ := p
    obtain ⟨hrise, hset⟩ := w
    obtain ⟨habove, htail⟩ := List.pairwise_cons.1 hrise
    obtain ⟨hy, hset⟩ := List.forall_mem_cons.1 hset
    have hlisted : (a, x) ∈ t → k < a := fun h => habove _ h
    rw [List.mem_cons, Prod.mk.injEq, Mem.get]
    rcases Nat.lt_trichotomy a k with hlt | rfl | hgt
    · rw [if_pos hlt]
      refine ⟨?_, fun ⟨h, hx⟩ => absurd h.symm hx⟩
      rintro (⟨rfl, -⟩ | h)
      · omega
      · exact absurd (hlisted h) (Nat.lt_asymm hlt)
    · rw [if_neg (Nat.lt_irrefl a), if_pos (beq_self_eq_true a)]
      refine ⟨?_, fun ⟨h, _⟩ => .inl ⟨rfl, h.symm⟩⟩
      rintro (⟨-, rfl⟩ | h)
      · exact ⟨rfl, hy⟩
      · exact absurd (hlisted h) (Nat.lt_irrefl a)
    · have hne : ¬ a = k := by omega
      simp [ih ⟨htail, hset⟩, hne, Nat.not_lt_of_gt hgt]

/-- Bytes that stand in rising order of address stand there once. -/
theorem Mem.nodup_of_rising {m : Mem} (h : m.Pairwise fun p q => p.1 < q.1) : m.Nodup :=
  h.imp fun {p q} hlt (e : p = q) => Nat.lt_irrefl q.1 (e ▸ hlt)

/-- Settles O32: both list the same bytes, each in rising order of address. -/
theorem canonicalMemoriesAreEqual : Obligations.CanonicalMemoriesAreEqual := by
  intro m n hm hn hget
  have hlist (p : Nat × Byte) : p ∈ m ↔ p ∈ n := by rw [Mem.mem_iff_get hm, Mem.mem_iff_get hn, hget]
  obtain ⟨hrisem, -⟩ := Mem.wf_iff.1 hm
  obtain ⟨hrisen, -⟩ := Mem.wf_iff.1 hn
  have hperm : m.Perm n := (List.perm_ext_iff_of_nodup (Mem.nodup_of_rising hrisem) (Mem.nodup_of_rising hrisen)).2 hlist
  exact hperm.eq_of_pairwise (fun p q _ _ hpq hqp => absurd hqp (Nat.lt_asymm hpq)) hrisem hrisen

/-! ### States -/

section
variable {s t : State} {α β : Type}

/-- `memOk` on the constructor: an update of other fields reduces away. -/
@[simp] theorem State.memOk_mk
    {bd boards cur bents grids graphs launches ctxs fns queues mapped frames parkedCmds mem edits badLines hostMem tlb l1 outReqs fetches inReqs toPeers
      barredAgents wakes wakesOut rings planes farDown lost heard modid uaen safecap pth capSeq cap capEnd power tmig tcap overCap capEvent paces
      paceSent time timeErr slewRem synced exchanged wall records starts late devLog linkUp linkLost linkReset ctrl rails down fwCtrl fwCores halted
      sideband completions inputs freeCtr nextUid} :
    State.memOk ⟨bd, boards, cur, bents, grids, graphs, launches, ctxs, fns, queues, mapped, frames, parkedCmds, mem, edits, badLines, hostMem, tlb, l1,
      outReqs, fetches, inReqs, toPeers, barredAgents, wakes, wakesOut, rings, planes, farDown, lost, heard, modid, uaen, safecap, pth, capSeq, cap,
      capEnd, power, tmig, tcap, overCap, capEvent, paces, paceSent, time, timeErr, slewRem, synced, exchanged, wall, records, starts, late, devLog,
      linkUp, linkLost, linkReset, ctrl, rails, down, fwCtrl, fwCores, halted, sideband, completions, inputs, freeCtr, nextUid⟩
      ↔ mem.wf = true ∧ hostMem.wf = true := Iff.rfl

@[simp] theorem State.wf_and_wf_iff : s.mem.wf = true ∧ s.hostMem.wf = true ↔ s.memOk := Iff.rfl

@[simp] theorem State.memOk_ite {c : Prop} [Decidable c] : (if c then s else t).memOk ↔ if c then s.memOk else t.memOk := by
  split <;> rfl

theorem State.memOk_of_ite {c : Prop} [Decidable c] (hs : s.memOk) (ht : t.memOk) : (if c then s else t).memOk := by simp [hs, ht]

@[simp] theorem State.memOk_ite_fst {c : Prop} [Decidable c] {x y : State × β} :
    (if c then x else y).1.memOk ↔ if c then x.1.memOk else y.1.memOk := by
  split <;> rfl

/-- Steps that each leave memory alone. -/
@[simp] theorem State.memOk_foldl_iff {f : State → α → State} {l : List α} (h : ∀ s x, (f s x).memOk ↔ s.memOk) :
    (l.foldl f s).memOk ↔ s.memOk :=
  iff_of_eq (foldl_keeps (P := State.memOk) (fun s x => propext (h s x)) l s)

@[simp] theorem State.memOk_foldl {f : State → α → State} {l : List α} (hs : s.memOk) (h : ∀ s x, s.memOk → (f s x).memOk) :
    (l.foldl f s).memOk := foldl_inv h l s hs

@[simp] theorem State.memOk_foldl_fst {f : State × β → α → State × β} {l : List α} {r : State × β} (hr : r.1.memOk)
    (h : ∀ r x, r.1.memOk → (f r x).1.memOk) : (l.foldl f r).1.memOk := by
  induction l generalizing r with
  | nil => exact hr
  | cons x t ih => exact ih (h r x hr)

end

/-! ### States that may come about -/

/-- What comes about, if anything does, has the property. -/
def onSome {α : Type} (P : α → Prop) (o : Option α) : Prop := ∀ x, o = some x → P x

section
variable {α β : Type} {P : α → Prop} {Q : β → Prop} {o p : Option α}

@[simp] theorem onSome_none : onSome P none := by simp [onSome]

@[simp] theorem onSome_some {x : α} : onSome P (some x) ↔ P x := by simp [onSome]

@[simp] theorem onSome_ite {c : Prop} [Decidable c] : onSome P (if c then o else p) ↔ if c then onSome P o else onSome P p := by
  split <;> rfl

theorem onSome_of_ite {c : Prop} [Decidable c] (ho : onSome P o) (hp : onSome P p) : onSome P (if c then o else p) := by
  split
  · exact ho
  · exact hp

/-- Nothing comes about under a guard. -/
theorem onSome_unless {c : Prop} [Decidable c] (ho : onSome P o) : onSome P (if c then none else o) := onSome_of_ite onSome_none ho

@[simp] theorem onSome_orElse (ho : onSome P o) (hp : onSome P p) : onSome P (o <|> p) := by
  cases o with
  | none => simpa using hp
  | some s => simpa using ho

/-- A computation that goes on from what has the property `Q`. -/
theorem onSome_bind_of {o : Option β} {f : β → Option α} (ho : onSome Q o) (h : ∀ x, Q x → onSome P (f x)) : onSome P (o >>= f) := by
  cases o with
  | none => simp
  | some x => exact h x (ho x rfl)

@[simp] theorem onSome_bind {o : Option β} {f : β → Option α} (h : ∀ x, o = some x → onSome P (f x)) : onSome P (o.bind f) :=
  onSome_bind_of (Q := fun x => o = some x) (fun _ e => e) h

@[simp] theorem onSome_bind' {o : Option β} {f : β → Option α} (h : ∀ x, o = some x → onSome P (f x)) : onSome P (o >>= f) := onSome_bind h

end

section
variable {s : State} {o : Option State}

@[simp] theorem State.memOk_getD (ho : onSome State.memOk o) (hs : s.memOk) : (o.getD s).memOk := by
  cases o with
  | none => exact hs
  | some t => exact ho t rfl

/-- Memory is canonical in the next state, where the outcome is one. -/
def outMemOk (o : Out) : Prop := ∀ t, o = .next t → t.memOk

@[simp] theorem outMemOk_next : outMemOk (.next s) ↔ s.memOk := by simp [outMemOk]

@[simp] theorem outMemOk_event {name : String} : outMemOk (event name o) ↔ onSome State.memOk o := by simp [outMemOk, onSome, event_next]

end

end Sys2Proof.Machine
end

