-- ==== Sys2Proof/Proofs/CanonicalOperations.lean ====
section
/-!
Each operation on the state keeps the memory of the module and of the host in their canonical form.
-/
namespace Sys2Proof.Machine

section
variable {s : State}

/-! ### Boards, bents and frames replaced; requests and wakes sent -/

@[simp] theorem State.memOk_setBoard {b : Board} : (s.setBoard b).memOk ↔ s.memOk := by
  unfold State.setBoard
  (repeat' split) <;> rfl

@[simp] theorem State.modBoard_memOk {id : Nat} {f : Board → Board} : (s.modBoard id f).memOk ↔ s.memOk := by
  unfold State.modBoard
  split <;> simp

@[simp] theorem State.mapBoards_memOk {f : Board → Board} : (s.mapBoards f).memOk ↔ s.memOk := Iff.rfl

@[simp] theorem State.dropBoard_memOk {id : Nat} : (s.dropBoard id).memOk ↔ s.memOk := Iff.rfl

@[simp] theorem State.focusOn_memOk {id : Nat} : (s.focusOn id).memOk ↔ s.memOk := by
  unfold State.focusOn
  (repeat' split) <;> simp

@[simp] theorem State.modBent_memOk {uid : Nat} {f : Bent → Bent} : (s.modBent uid f).memOk ↔ s.memOk := Iff.rfl

@[simp] theorem State.modGrid_memOk {uid : Nat} {f : Grid → Grid} : (s.modGrid uid f).memOk ↔ s.memOk := Iff.rfl

@[simp] theorem State.modCtx_memOk {id : BitVec 16} {f : Ctx → Ctx} : (s.modCtx id f).memOk ↔ s.memOk := Iff.rfl

@[simp] theorem State.modFrame_memOk {f : Nat} {g : Frame → Frame} : (s.modFrame f g).memOk ↔ s.memOk := Iff.rfl

@[simp] theorem State.modBay_memOk {n : Nat} {g : Bay → Bay} : (s.modBay n g).memOk ↔ s.memOk := Iff.rfl

@[simp] theorem State.modCore_memOk {n : Nat} {g : Core → Core} : (s.modCore n g).memOk ↔ s.memOk := Iff.rfl

@[simp] theorem State.modFn_memOk {n : Nat} {g : Fn → Fn} : (s.modFn n g).memOk ↔ s.memOk := Iff.rfl

@[simp] theorem State.modQueue_memOk {q : Nat} {g : Queue → Queue} : (s.modQueue q g).memOk ↔ s.memOk := Iff.rfl

@[simp] theorem State.free_memOk : s.free.memOk ↔ s.memOk := Iff.rfl

@[simp] theorem State.chargeAt_memOk {c : BitVec 16} {bay level cls n : Nat} : (s.chargeAt c bay level cls n).memOk ↔ s.memOk := Iff.rfl

@[simp] theorem State.charge_memOk {c : BitVec 16} {bay cls n : Nat} : (s.charge c bay cls n).memOk ↔ s.memOk := Iff.rfl

@[simp] theorem State.fillTlb_memOk {c : BitVec 16} {va : Nat} : (s.fillTlb c va).memOk ↔ s.memOk := by
  unfold State.fillTlb
  split <;> simp

@[simp] theorem State.modRing_memOk {k : Nat} {f : Ring → Ring} : (s.modRing k f).memOk ↔ s.memOk := Iff.rfl

@[simp] theorem State.sendSlot_memOk {src dst : Nat} {ordered : Bool} {load : SlotLoad} : (s.sendSlot src dst ordered load).memOk ↔ s.memOk := by
  simp [State.sendSlot]

@[simp] theorem State.request_memOk {r : OutReq} : (s.request r).memOk ↔ s.memOk := Iff.rfl

@[simp] theorem State.fetch_memOk (h : s.memOk) {reader : Nat} {c : BitVec 16} {va : Nat} {kind : FetchKind} {b : Option Board} :
    onSome State.memOk (s.fetch reader c va kind b) := by
  unfold State.fetch
  split <;> simp [h]

@[simp] theorem State.unfetch_memOk {reader : Nat} : (s.unfetch reader).memOk ↔ s.memOk := Iff.rfl

@[simp] theorem State.fetchAnswer_memOk {req : Nat} {x : LineResp} : (s.fetchAnswer req x).memOk ↔ s.memOk := Iff.rfl

@[simp] theorem State.sendWake_memOk {home : Nat} {w : Wake} : (s.sendWake home w).memOk ↔ s.memOk := by
  simp [State.sendWake]

@[simp] theorem State.tell_memOk {m agent plane : Nat} {msg : PeerMsg} : (s.tell m agent plane msg).memOk ↔ s.memOk := Iff.rfl

@[simp] theorem State.tellWake_memOk {frame m agent gate : Nat} {again : Bool} : (s.tellWake frame m agent gate again).memOk ↔ s.memOk := by
  unfold State.tellWake
  (repeat' split) <;> simp

@[simp] theorem State.wakeOne_memOk {home : Nat} {again : Bool} {w : Waiter} : (s.wakeOne home again w).memOk ↔ s.memOk := by
  unfold State.wakeOne
  split <;> simp

@[simp] theorem State.flushWakes_memOk : s.flushWakes.memOk ↔ s.memOk := by
  simp [State.flushWakes]

/-! ### Entries of the fault queues, counters and signals -/

@[simp] theorem State.engineTo_memOk (h : s.memOk) {fn : Nat} {c : BitVec 16} {cause detail count addr tpc : Nat} :
    (s.engineTo fn c cause detail count addr tpc).memOk := by
  simp [State.engineTo, h, State.faultEntry_memOk]

@[simp] theorem State.modWatch_memOk {f idx : Nat} {g : Watch → Watch} : (s.modWatch f idx g).memOk ↔ s.memOk := Iff.rfl

@[simp] theorem State.compareOwn_memOk (h : s.memOk) {old : Mem} {a n : Nat} : (s.compareOwn old a n).memOk := by
  simp +contextual [State.compareOwn, h, State.compare_memOk]

@[simp] theorem State.lookDeps_memOk : s.lookDeps.memOk ↔ s.memOk := Iff.rfl

theorem State.counterAdd_memOk {t : State} {c : BitVec 16} {va n detail : Nat} (h : s.memOk) (e : s.counterAdd c va n detail = .ok t) : t.memOk := by
  unfold State.counterAdd at e
  split at e
  · cases e
  · split at e
    · cases e
    · cases e
      exact State.writeLocal_memOk h _ _
  · split at e
    · cases e
      exact ⟨h.1, Mem.wf_write h.2 _ _⟩
    · cases e
  · split at e
    · cases e
    · cases e
      exact h

@[simp] theorem State.interrupt_memOk {fn : Nat} {vs : List Nat} : (s.interrupt fn vs).memOk ↔ s.memOk := by
  simp [State.interrupt]

@[simp] theorem State.signalVectors_memOk {c : BitVec 16} {va : Nat} : (s.signalVectors c va).memOk ↔ s.memOk := by
  simp [State.signalVectors]

@[simp] theorem State.signalAt_memOk {c : BitVec 16} {va n detail : Nat} (h : s.memOk) : (s.signalAt c va n detail).memOk := by
  unfold State.signalAt
  split
  · rename_i e
    simpa using State.counterAdd_memOk h e
  · exact State.engineEntry_memOk h _ _ _ _ _ _

@[simp] theorem State.signal_memOk (h : s.memOk) {c : BitVec 16} {va n detail : Nat} : (s.signal c va n detail).memOk := by
  simp [State.signal, h]

@[simp] theorem State.wakeAll_memOk {gate : Nat} : (s.wakeAll gate).memOk ↔ s.memOk := by
  simp [State.wakeAll]

@[simp] theorem State.gateArrive_memOk (h : s.memOk) {wr : Option Writer} {gate : Nat} : (s.gateArrive wr gate).1.memOk := by
  simp [State.gateArrive, h, State.writeLocal_memOk]

@[simp] theorem State.gateInit_memOk (h : s.memOk) {wr : Option Writer} {gate target : Nat} : (s.gateInit wr gate target).memOk := by
  simp [State.gateInit, h, State.writeLocal_memOk]

@[simp] theorem State.awaitPeer_memOk (h : s.memOk) {reader : Nat} {c : BitVec 16} {f : BFail} : onSome State.memOk (s.awaitPeer reader c f) := by
  simp [State.awaitPeer, h]

/-! ### Grids and graphs -/

@[simp] theorem State.modGraph_memOk {id : Nat} {f : GraphInst → GraphInst} : (s.modGraph id f).memOk ↔ s.memOk := Iff.rfl

@[simp] theorem State.settleGraph_memOk (h : s.memOk) {id : Nat} : (s.settleGraph id).memOk := by
  unfold State.settleGraph
  split <;> simp [h]

@[simp] theorem State.signalGrid_memOk {g : Grid} {retire : Bool} (h : s.memOk) : (s.signalGrid g retire).memOk := by
  unfold State.signalGrid
  extract_lets n d t u
  have ht : t.memOk := by
    unfold t
    (repeat' split) <;> simp [h]
  have hu : u.memOk := by simp [u, ht]
  split <;> simp [hu]

@[simp] theorem State.settleGrid_memOk (h : s.memOk) {uid : Nat} : (s.settleGrid uid).memOk := by
  unfold State.settleGrid
  split <;> simp [h]

@[simp] theorem State.makeRunnable_memOk (h : s.memOk) {uid : Nat} : (s.makeRunnable uid).memOk := by
  simp [State.makeRunnable, h]

@[simp] theorem State.addGrid_memOk (h : s.memOk) {c : BitVec 16} {b : Block} {k : Kernel} {o : Origin} {cap : Nat} {deps : List Dep} :
    (s.addGrid c b k o cap deps).memOk := by
  simp [State.addGrid, h]

/-! ### The end of a bundle, and traps -/

@[simp] theorem State.finish_memOk {b : Board} {lo : Nat} : (s.finish b lo).memOk ↔ s.memOk := by
  simp [State.finish]

@[simp] theorem State.land_memOk {b : Board} {e : PipeEntry} : (s.land b e).memOk ↔ s.memOk := by
  simp [State.land]

@[simp] theorem State.trapEntry_memOk (h : s.memOk) {b : Board} {f : Freeze} : (s.trapEntry b f).memOk := by
  simp [State.trapEntry, h, State.faultEntry_memOk]

@[simp] theorem State.deliver_memOk (h : s.memOk) {b : Board} {f : Freeze} : (s.deliver b f).memOk := by
  unfold State.deliver
  extract_lets c who own turned
  have hturned (e : BFail) : (turned e).memOk := by
    unfold turned
    split
    · simp [h]
    · simp [State.engineEntry_memOk, h]
  split
  · simp [h]
  · split
    · exact hturned _
    · split
      · exact hturned _
      · simp [h]

@[simp] theorem State.advanceTraps_memOk (h : s.memOk) : s.advanceTraps.memOk := by
  refine State.memOk_foldl h fun s b hs => ?_
  split
  · simp [hs]
  · exact hs

@[simp] theorem State.freeze_memOk (h : s.memOk) {b : Board} {t : Trap} {slotB : Bool} {tpc : BitVec 48} : (s.freeze b t slotB tpc).memOk := by
  simp [State.freeze, h, State.writeRecord_memOk, State.spill_memOk]

@[simp] theorem State.raise_memOk (h : s.memOk) {b : Board} {t : Trap} : (s.raise b t).memOk := by
  simp [State.raise, h]

/-! ### Results and paths of the slots -/

@[simp] theorem State.put_memOk {b : Board} : (s.put b).memOk ↔ s.memOk := Iff.rfl

@[simp] theorem State.vec_memOk {b : Board} {d : Opd} {lat : Nat} {f : Nat → Res} : (s.vec b d lat f).memOk ↔ s.memOk := Iff.rfl

@[simp] theorem State.vecW_memOk {b : Board} {d : Opd} {lat : Nat} {f : Nat → Word} : (s.vecW b d lat f).memOk ↔ s.memOk := Iff.rfl

@[simp] theorem State.mask_memOk {b : Board} {d : BitVec 3} {lat : Nat} {p : Nat → Bool} : (s.mask b d lat p).memOk ↔ s.memOk := Iff.rfl

@[simp] theorem State.uni_memOk {b : Board} {d : BitVec 9} {lat : Nat} {v flags : Word} : (s.uni b d lat v flags).memOk ↔ s.memOk := Iff.rfl

@[simp] theorem State.ctl_memOk {b : Board} {d : BitVec 9} {v : Word} : (s.ctl b d v).memOk ↔ s.memOk := Iff.rfl

@[simp] theorem State.ctlPair_memOk {b : Board} {n : Nat} {v : DWord} : (s.ctlPair b n v).memOk ↔ s.memOk := Iff.rfl

@[simp] theorem State.endWith_memOk {b : Board} : (s.endWith b).memOk ↔ s.memOk := Iff.rfl

@[simp] theorem State.jump_memOk {b : Board} {t : BitVec 48} : (s.jump b t).memOk ↔ s.memOk := Iff.rfl

@[simp] theorem State.fall_memOk {b : Board} : (s.fall b).memOk ↔ s.memOk := Iff.rfl

@[simp] theorem State.flow_memOk {b : Board} {f : Flow} : (s.flow b f).memOk ↔ s.memOk := Iff.rfl

@[simp] theorem State.popFlow_memOk {b : Board} {f : List StackEntry → PcSlot → Except Nat Flow} : (s.popFlow b f).memOk ↔ s.memOk := by
  unfold State.popFlow
  extract_lets e t
  have ht : t.memOk ↔ s.memOk := by
    unfold t
    split <;> rfl
  split
  · exact ht
  · exact ht

@[simp] theorem State.exitLanes_memOk {b : Board} : (s.exitLanes b).memOk ↔ s.memOk := by
  simp [State.exitLanes]

@[simp] theorem State.acquire_memOk {b : Board} : (s.acquire b).1.memOk ↔ s.memOk := Iff.rfl

/-! ### The memory path -/

@[simp] theorem State.fillLines_memOk {c : BitVec 16} {ls : List Line} : (s.fillLines c ls).memOk ↔ s.memOk := by
  simp [State.fillLines]

@[simp] theorem State.keepCopy_memOk {b : Board} {o : MemOp} {va : Nat} {t : Target} {part : Bool} {bytes : List Byte} :
    (s.keepCopy b o va t part bytes).memOk ↔ s.memOk := by
  simp [State.keepCopy]

@[simp] theorem State.updateCopy_memOk {b : Board} {t : Target} {w : List (Nat × Byte)} : (s.updateCopy b t w).memOk ↔ s.memOk := Iff.rfl

@[simp] theorem State.issueOp_memOk {b : Board} {i : Instr} {o : MemOp} : (s.issueOp b i o).memOk ↔ s.memOk := by
  simp [State.issueOp]

@[simp] theorem State.showCopies_memOk {b : Board} {pa : PathK} {ord : Order} {sc : Scope} : (s.showCopies b pa ord sc).memOk ↔ s.memOk := by
  simp [State.showCopies]

@[simp] theorem State.fence_memOk {b : Board} {i : Instr} {pa pb : PathK} {ord : Order} {sc : Scope} :
    (s.fence b i pa pb ord sc).memOk ↔ s.memOk := by
  simp [State.fence]

@[simp] theorem State.perform_memOk (h : s.memOk) {b : Board} {o : MemOp} {n : Nat} {l : Line} : onSome State.memOk (s.perform b o n l) := by
  unfold State.perform
  (repeat' split) <;> simp [h, State.writeTarget_memOk, State.putBoard_memOk]

@[simp] theorem State.loadLine_memOk (h : s.memOk) {b : Board} {o : MemOp} {n : Nat} {l : Line} {t : Target} {data : List Byte} :
    (s.loadLine b o n l t data).memOk := by
  simp [State.loadLine, h, State.putBoard_memOk]

@[simp] theorem State.lineReturn_memOk (h : s.memOk) {b : Board} {o : MemOp} {n : Nat} {l : Line} : onSome State.memOk (s.lineReturn b o n l) := by
  unfold State.lineReturn
  (repeat' split) <;> simp [h, State.putBoard_memOk]

@[simp] theorem State.sendLine_memOk (h : s.memOk) {b : Board} {x : ToSend} : (s.sendLine b x).memOk := by
  unfold State.sendLine
  split <;> simp [h, State.putBoard_memOk]

@[simp] theorem State.sendLines_memOk (h : s.memOk) {board fuel : Nat} : (s.sendLines board fuel).memOk := by
  induction fuel generalizing s with
  | zero => exact h
  | succ fuel ih =>
    unfold State.sendLines
    (repeat' split) <;> simp [h, ih]

@[simp] theorem State.lineAnswer_memOk (h : s.memOk) {b : Board} {o : MemOp} {n : Nat} {l : Line} {x : LineResp} :
    onSome State.memOk (s.lineAnswer b o n l x) := by
  unfold State.lineAnswer
  (repeat' split) <;> simp [h, State.putBoard_memOk]

@[simp] theorem State.dropWatch_memOk {f : Nat} {w : Watch} : (s.dropWatch f w).memOk ↔ s.memOk := Iff.rfl

@[simp] theorem State.bareReturn_memOk (h : s.memOk) {b : Board} {o : MemOp} : onSome State.memOk (s.bareReturn b o) := by
  unfold State.bareReturn
  (repeat' split) <;> simp [h, State.putBoard_memOk]

/-! ### Boards that retire, abort or resume -/

@[simp] theorem State.dropParked_memOk {b : Board} : (s.dropParked b).1.memOk ↔ s.memOk := Iff.rfl

@[simp] theorem State.dropWaits_memOk {id : Nat} : (s.dropWaits id).memOk ↔ s.memOk := Iff.rfl

@[simp] theorem State.retireBoard_memOk {id : Nat} : (s.retireBoard id).memOk ↔ s.memOk := by
  unfold State.retireBoard
  split <;> simp

@[simp] theorem State.abortEntry_memOk (h : s.memOk) {g : Grid} {origin : Nat} {b : Option (Board × Freeze)} : (s.abortEntry g origin b).memOk := by
  simp [State.abortEntry, h, State.faultEntry_memOk]

@[simp] theorem State.abortGrid_memOk (h : s.memOk) {uid origin : Nat} {b : Option (Board × Freeze)} : (s.abortGrid uid origin b).memOk := by
  unfold State.abortGrid
  split <;> simp [h]

@[simp] theorem State.reenter_memOk {path : Nat} {c : Cmd} : (s.reenter path c).memOk ↔ s.memOk := by
  simp [State.reenter]

@[simp] theorem State.resumeCmds_memOk {old : Board} {l : List Parked} {r : State × Board} : (s.resumeCmds old l r).1.memOk ↔ r.1.memOk := by
  induction l generalizing r with
  | nil => rfl
  | cons p t ih =>
    rw [State.resumeCmds, ih]
    dsimp only
    split
    · rfl
    · split
      · rfl
      · split
        · simp
        · rfl

@[simp] theorem State.resume_memOk (h : s.memOk) {b : Board} {origin : Nat} : (s.resume b origin).memOk := by
  simp [State.resume, h]

@[simp] theorem State.restore_memOk (h : s.memOk) {b : Board} {f : Freeze} {action origin : Nat} : (s.restore b f action origin).memOk := by
  simp [State.restore, h]

/-! ### Writes performed, and gates -/

@[simp] theorem State.pushLine_memOk (h : s.memOk) {board op n : Nat} : (s.pushLine board op n).memOk := by
  unfold State.pushLine
  (repeat' split) <;> simp [h]

@[simp] theorem execScratchpadWave_memOk (h : s.memOk) {board op : Nat} : outMemOk (execScratchpadWave board op s) := by
  simp only [execScratchpadWave, outMemOk_event]
  refine onSome_bind' fun b _ => onSome_bind' fun o _ => onSome_bind' fun x _ => ?_
  split
  · simp
  · split <;> simp [h, State.putBoard_memOk]

@[simp] theorem State.pushOp_memOk (h : s.memOk) {board : Nat} {o : MemOp} : (s.pushOp board o).memOk := by
  unfold State.pushOp
  split
  · split
    · exact execScratchpadWave_memOk h _ ‹_›
    · exact h
  · simp +contextual [h]

@[simp] theorem State.release_memOk (h : s.memOk) {board : Nat} : (s.release board).memOk := by
  unfold State.release
  split <;> simp +contextual [h]

@[simp] theorem State.releaseAt_memOk (h : s.memOk) {b : Board} {sc : Scope} : (s.releaseAt b sc).1.memOk := by
  simp [State.releaseAt, h]

@[simp] theorem State.setGate_memOk {b : Board} {k : GateKind} {n : Nat} {g : Gate} : (s.setGate b k n g).memOk ↔ s.memOk := by
  unfold State.setGate
  split <;> simp

@[simp] theorem State.endWaits_memOk {b : Board} {k : GateKind} {n : Nat} {p : Bool} {late : List Unreleased} :
    (s.endWaits b k n p late).memOk ↔ s.memOk := Iff.rfl

@[simp] theorem State.phaseEnds_memOk {b : Board} {k : GateKind} {n : Nat} {p : Bool} {late : List Unreleased} :
    (s.phaseEnds b k n p late).memOk ↔ s.memOk := Iff.rfl

@[simp] theorem State.settleGate_memOk {b : Board} {k : GateKind} {n fuel : Nat} : (s.settleGate b k n fuel).memOk ↔ s.memOk := by
  induction fuel generalizing s with
  | zero => simp [State.settleGate]
  | succ fuel ih =>
    unfold State.settleGate
    extract_lets g
    split <;> simp [ih]

@[simp] theorem State.settleFirst_memOk {b : Board} {n t : Nat} : (s.settleFirst b n t).memOk ↔ s.memOk := by
  simp [State.settleFirst]

@[simp] theorem State.hadTurn_memOk {b : Board} : (s.hadTurn b).memOk ↔ s.memOk := Iff.rfl

@[simp] theorem State.arrive_memOk {b : Board} {k : GateKind} {n : Nat} {after : List Nat} : (s.arrive b k n after).1.memOk ↔ s.memOk := by
  simp [State.arrive]

@[simp] theorem State.initGate_memOk {b : Board} {k : GateKind} {n t : Nat} : (s.initGate b k n t).memOk ↔ s.memOk := by
  unfold State.initGate
  extract_lets g
  split <;> simp

@[simp] theorem State.endRemote_memOk {b : Board} {g : RGate} : (s.endRemote b g).memOk ↔ s.memOk := by
  simp [State.endRemote]

@[simp] theorem State.readPhase_memOk {b : Board} {g : RGate} {gate : Nat} : (s.readPhase b g gate).memOk ↔ s.memOk := by
  simp [State.readPhase]

@[simp] theorem State.arriveRemote_memOk (h : s.memOk) {b : Board} {g : RGate} {gate : Nat} : (s.arriveRemote b g gate).memOk := by
  simp [State.arriveRemote, h]

@[simp] theorem State.gateRequest_memOk {b : Board} {g : RGate} {m a : Nat} {k : PeerKind} : (s.gateRequest b g m a k).memOk ↔ s.memOk := by
  simp [State.gateRequest]

@[simp] theorem State.startGate_memOk (h : s.memOk) {b : Board} {g : RGate} : (s.startGate b g).memOk := by
  unfold State.startGate
  (repeat' split) <;> simp [h]

@[simp] theorem State.barRemote_memOk (h : s.memOk) {b : Board} {i : Instr} {opr : Nat} {a : BitVec 9} : (s.barRemote b i opr a).memOk := by
  simp [State.barRemote, h]

@[simp] theorem State.awaitPhase_memOk {b : Board} {k : GateKind} {n : Nat} {p : Bool} : (s.awaitPhase b k n p).memOk ↔ s.memOk := by
  simp [State.awaitPhase]

@[simp] theorem State.barArrive_memOk (h : s.memOk) {b : Board} {k : GateKind} {n : Nat} {wait : Bool} : (s.barArrive b k n wait).memOk := by
  simp [State.barArrive, h]

@[simp] theorem State.rereadPhase_memOk (h : s.memOk) {b : Board} {g : RGate} : onSome State.memOk (s.rereadPhase b g) := by
  unfold State.rereadPhase
  split <;> simp [h]

@[simp] theorem State.gateAnswer_memOk (h : s.memOk) {b : Board} {g : RGate} {data : List Byte} : (s.gateAnswer b g data).memOk := by
  have hset (c : Board) : (s.setBoard c).memOk := by simp [h]
  dsimp only [State.gateAnswer]
  split
  · exact hset _
  · split
    · simp [hset]
    · split
      · simp [h]
      · split
        · simp [hset]
        · exact State.memOk_getD (onSome_bind fun _ _ => State.rereadPhase_memOk (hset _)) (hset _)
        · exact hset _

@[simp] theorem State.failGate_memOk (h : s.memOk) {b : Board} {g : RGate} {cause : BitVec 8} : (s.failGate b g cause).memOk := by
  simp [State.failGate, h, State.putBoard_memOk]

/-! ### Commands of the engines -/

@[simp] theorem State.mapCmds_memOk {g : List Cmd → List Cmd} : (s.mapCmds g).memOk ↔ s.memOk := Iff.rfl

@[simp] theorem State.modCmd_memOk {id : Nat} {f : Cmd → Cmd} : (s.modCmd id f).memOk ↔ s.memOk := Iff.rfl

@[simp] theorem State.enqueue_memOk {b : Board} {c : Cmd} {f : State → State} (hf : ∀ t, (f t).memOk ↔ t.memOk) :
    (s.enqueue b c f).memOk ↔ s.memOk := by
  simp [State.enqueue, hf]

@[simp] theorem State.pinAll_memOk {c : Cmd} {ps : List (Nat × Nat)} : (s.pinAll c ps).memOk ↔ s.memOk := Iff.rfl

@[simp] theorem State.ask_memOk {c : Cmd} {ordered : Bool} {rs : List (Nat × Nat × Nat × PeerKind)} : (s.ask c ordered rs).memOk ↔ s.memOk := by
  simp [State.ask]

@[simp] theorem State.askReads_memOk {c : Cmd} {ls : List Nat} : (s.askReads c ls).memOk ↔ s.memOk := by
  simp [State.askReads]

@[simp] theorem State.chargeWrite_memOk {id n : Nat} : (s.chargeWrite id n).memOk ↔ s.memOk := by
  unfold State.chargeWrite
  (repeat' split) <;> simp

@[simp] theorem State.cmdLine_memOk (h : s.memOk) {c : Cmd} {kind : BitVec 4} {l : Nat} {w : List (Nat × Byte)} :
    (s.cmdLine c kind l w).1.memOk := by
  unfold State.cmdLine
  split <;> simp [h, State.writeTarget_memOk]

@[simp] theorem State.cmdWrite_memOk (h : s.memOk) {c : Cmd} {kind : BitVec 4} {ordered : Bool} {w : List (Nat × Byte)} :
    (s.cmdWrite c kind ordered w).memOk := by
  unfold State.cmdWrite
  extract_lets ls r
  have hr : r.1.memOk := State.memOk_foldl_fst h fun r l hr => State.cmdLine_memOk hr
  simp [hr]

@[simp] theorem State.scrWrite_memOk {c : Cmd} {w : List (Nat × Byte)} : (s.scrWrite c w).memOk ↔ s.memOk := by
  unfold State.scrWrite
  split
  · rfl
  · dsimp only
    split <;> simp

@[simp] theorem State.engineArrive_memOk (h : s.memOk) {c : Cmd} {kind : BitVec 4} {n gate : Nat} : (s.engineArrive c kind n gate).memOk := by
  unfold State.engineArrive
  split <;> simp [h]

@[simp] theorem State.unscribe_memOk {id : Nat} : (s.unscribe id).memOk ↔ s.memOk := Iff.rfl

@[simp] theorem State.takeCmd_memOk {c : Cmd} : (s.takeCmd c).memOk ↔ s.memOk := Iff.rfl

@[simp] theorem State.endCmd_memOk (h : s.memOk) {c : Cmd} : (s.endCmd c).memOk := by
  unfold State.endCmd
  dsimp only
  split
  · exact State.putBoard_memOk (by simp [h]) _
  · simp [h]

@[simp] theorem State.failCmd_memOk (h : s.memOk) {c : Cmd} {cause addr prog : Nat} : (s.failCmd c cause addr prog).memOk := by
  unfold State.failCmd
  dsimp only
  split
  · simp [h]
  · exact State.putBoard_memOk (by simp [h]) _

@[simp] theorem State.inscribe_memOk {c : Cmd} : (s.inscribe c).memOk ↔ s.memOk := by
  simp [State.inscribe]

@[simp] theorem State.readList_memOk {c : Cmd} {at_ len : Nat} : (s.readList c at_ len).memOk ↔ s.memOk := by
  unfold State.readList
  (repeat' split) <;> simp

/-! ### The copy engine -/

@[simp] theorem State.judgeCopy_memOk {c : Cmd} : (s.judgeCopy c).memOk ↔ s.memOk := by
  unfold State.judgeCopy
  split <;> simp

@[simp] theorem State.startCopy_memOk {c : Cmd} : (s.startCopy c).memOk ↔ s.memOk := by
  unfold State.startCopy
  (repeat' split) <;> simp

@[simp] theorem State.beginCopy_memOk {id fuel : Nat} : (s.beginCopy id fuel).memOk ↔ s.memOk := by
  induction fuel generalizing s with
  | zero => rfl
  | succ fuel ih =>
    unfold State.beginCopy
    split <;> simp [ih]

@[simp] theorem State.writeCopy_memOk (h : s.memOk) {c : Cmd} : (s.writeCopy c).memOk := by
  unfold State.writeCopy
  (repeat' split) <;> simp [h]

@[simp] theorem State.advanceCopy_memOk (h : s.memOk) {id : Nat} : (s.advanceCopy id).memOk := by
  unfold State.advanceCopy
  dsimp only
  split <;> simp [h]

theorem State.readyCopy_memOk (h : s.memOk) {core cmd : Nat} : onSome (·.1.memOk) (s.readyCopy core cmd) := by
  refine onSome_bind' fun c _ => ?_
  split
  · simp
  · refine onSome_bind' fun c _ => ?_
    split <;> simp [h]

@[simp] theorem State.copyCmd_memOk {b : Board} {c : Cmd} : (s.copyCmd b c).memOk ↔ s.memOk := by
  simp [State.copyCmd]

/-! ### The matrix engine -/

@[simp] theorem State.putRow_memOk {c : Cmd} {t i : Nat} {f : Nat → Option Nat} : (s.putRow c t i f).memOk ↔ s.memOk := Iff.rfl

@[simp] theorem State.stepRow_memOk {c : Cmd} {p : Step} {t i : Nat} : (s.stepRow c p t i).memOk ↔ s.memOk := Iff.rfl

@[simp] theorem State.doRows_memOk (h : s.memOk) {c : Cmd} {n : Nat} : (s.doRows c n).memOk := by
  unfold State.doRows
  (repeat' split) <;> simp [h]

@[simp] theorem State.doWhole_memOk {c : Cmd} : (s.doWhole c).memOk ↔ s.memOk := by
  unfold State.doWhole
  (repeat' split) <;> simp

@[simp] theorem State.startMatrix_memOk {c : Cmd} : (s.startMatrix c).memOk ↔ s.memOk := by
  simp [State.startMatrix]

@[simp] theorem State.writeMatrix_memOk (h : s.memOk) {c : Cmd} {n : Nat} : (s.writeMatrix c n).memOk := by
  simp [State.writeMatrix, h]

theorem State.readyMatrix_memOk (h : s.memOk) {core : Nat} : onSome (·.1.memOk) (s.readyMatrix core) := by
  refine onSome_bind' fun c _ => onSome_bind' fun c _ => ?_
  split
  · simp
  · dsimp only
    split
    · refine onSome_bind' fun c _ => ?_
      split <;> simp [h]
    · simp [h]

@[simp] theorem State.advanceMatrix_memOk (h : s.memOk) {core : Nat} : (s.advanceMatrix core).memOk := by
  unfold State.advanceMatrix
  split
  · exact h
  · dsimp only
    split
    · split <;> simp [h]
    · simp [h]

theorem State.failMatrix_memOk (h : s.memOk) {core : Nat} : onSome (·.2.2.2.memOk) (s.failMatrix core) := by
  refine onSome_bind_of (State.readyMatrix_memOk h) fun r hr => onSome_bind' fun f _ => onSome_some.2 (State.failCmd_memOk ?_)
  split <;> simp [hr]

@[simp] theorem State.matrixCmd_memOk {b : Board} {c : Cmd} {busy : Nat} : (s.matrixCmd b c busy).memOk ↔ s.memOk := Iff.rfl

/-! ### The route engine -/

@[simp] theorem State.askPart_memOk {c : Cmd} {o n : Nat} {st : Reading} : (s.askPart c o n st).memOk ↔ s.memOk := by
  unfold State.askPart
  dsimp only
  split <;> simp

@[simp] theorem State.readTable_memOk {c : Cmd} : (s.readTable c).memOk ↔ s.memOk := by
  unfold State.readTable
  dsimp only
  split
  · simp
  · split <;> simp
  · split <;> simp
  · rfl

theorem State.hold_memOk {c : Cmd} {ls : List Nat} {r : State × Cmd} (e : s.hold c ls = some r) : r.1.memOk ↔ s.memOk := by
  unfold State.hold at e
  dsimp only at e
  split at e
  · cases e
    simp
  · cases e

@[simp] theorem State.acceptRoute_memOk {c : Cmd} : (s.acceptRoute c).memOk ↔ s.memOk := by
  unfold State.acceptRoute
  split
  · rfl
  · split
    · rfl
    · split
      · simp
      · split
        · rename_i e
          simpa using State.hold_memOk e
        · rfl
    · simp

@[simp] theorem State.writeRows_memOk (h : s.memOk) {c : Cmd} : (s.writeRows c).memOk := by
  simp [State.writeRows, h]

@[simp] theorem State.startRoute_memOk {c : Cmd} : (s.startRoute c).memOk ↔ s.memOk := by
  unfold State.startRoute
  split
  · rfl
  · split
    · simp
    · split
      · rfl
      · split
        · simp
        · dsimp only
          split
          · simp
          · split
            · simp
            · rename_i e
              simpa using State.hold_memOk e

@[simp] theorem State.combineAsks_memOk {c : Cmd} : (s.combineAsks c).memOk ↔ s.memOk := by
  unfold State.combineAsks
  (repeat' split) <;> simp

@[simp] theorem State.beginRoute_memOk {id fuel : Nat} : (s.beginRoute id fuel).memOk ↔ s.memOk := by
  induction fuel generalizing s with
  | zero => rfl
  | succ fuel ih =>
    unfold State.beginRoute
    split <;> simp [ih]

@[simp] theorem State.advanceRoute_memOk (h : s.memOk) {id : Nat} : (s.advanceRoute id).memOk := by
  unfold State.advanceRoute
  extract_lets t u
  have hu : u.memOk := by
    unfold u
    split <;> simp [t, h]
  split
  · exact hu
  · split
    · exact hu
    · split <;> simp [hu]

theorem State.routeCmd?_memOk (h : s.memOk) {frame cmd : Nat} : onSome (·.1.memOk) (s.routeCmd? frame cmd) := by
  refine onSome_bind' fun c _ => onSome_bind' fun c _ => ?_
  split <;> simp [h]

@[simp] theorem State.wakeRoute_memOk (h : s.memOk) {w : Wake} : onSome State.memOk (s.wakeRoute w) := by
  refine onSome_bind' fun c _ => ?_
  split <;> simp [h]

@[simp] theorem State.pollRoute_memOk (h : s.memOk) {id : Nat} : onSome State.memOk (s.pollRoute id) := by
  simp [State.pollRoute, h]

theorem State.routeFailure_memOk (h : s.memOk) {frame cmd : Nat} : onSome (·.1.memOk) (s.routeFailure frame cmd) := by
  refine onSome_bind' fun c _ => onSome_bind' fun c _ => ?_
  dsimp only
  split
  · exact onSome_bind' fun f _ => by simp [h]
  · split
    · exact onSome_bind' fun f _ => by simp [h]
    · simp

@[simp] theorem State.routeWrite_memOk (h : s.memOk) {c : Cmd} {w : List (Nat × Byte)} : (s.routeWrite c w).memOk := by
  simp [State.routeWrite, h]

@[simp] theorem State.finishRoute_memOk (h : s.memOk) {c : Cmd} : onSome State.memOk (s.finishRoute c) := by
  unfold State.finishRoute
  split <;> simp [h]

@[simp] theorem State.wakeBoard_memOk (h : s.memOk) {w : Wake} : onSome State.memOk (s.wakeBoard w) := by
  refine onSome_bind' fun b _ => ?_
  dsimp only
  split
  · simp [h]
  · split
    · simp
    · split <;> simp [h]

@[simp] theorem State.wakePasses_memOk (h : s.memOk) {w : Wake} : onSome State.memOk (s.wakePasses w) := by
  simp [State.wakePasses, h]

@[simp] theorem State.routeCmd_memOk {b : Board} {i : Instr} {u : BitVec 9} : (s.routeCmd b i u).memOk ↔ s.memOk := Iff.rfl

/-! ### Bents saved and brought back -/

@[simp] theorem State.capture_memOk (h : s.memOk) {b : Board} : (s.capture b).memOk := by
  simp [State.capture, h, State.writeRecord_memOk, State.spill_memOk]

@[simp] theorem State.captureBent_memOk (h : s.memOk) {x : Bent} : (s.captureBent x).memOk := by
  simp +contextual [State.captureBent, h]

@[simp] theorem State.liftAreas_memOk {x : Bent} : (s.liftAreas x).memOk ↔ s.memOk := Iff.rfl

@[simp] theorem State.mend_memOk {a n : Nat} : (s.mend a n).memOk ↔ s.memOk := Iff.rfl

@[simp] theorem State.dropArea_memOk (h : s.memOk) {b : Board} : (s.dropArea b).memOk := by
  unfold State.dropArea
  exact State.ownMem_memOk (by simp [h]) _ _ (Mem.wf_writeAll (Mem.wf_splice h.1 .nil) _)

/-- The image of a bent leaves memory canonical. -/
theorem Mem.wf_imageMem {m : Mem} (w : m.wf = true) (ps : List (Nat × Nat)) (l : List (Nat × Byte)) : (imageMem m ps l).wf = true :=
  Mem.wf_writeAll (List.foldlRecOn (motive := fun m : Mem => m.wf = true) ps _ w fun _ hm _ _ => Mem.wf_splice hm .nil) _

@[simp] theorem State.saveBent_memOk (h : s.memOk) {x : Bent} : (s.saveBent x).memOk := by
  unfold State.saveBent
  extract_lets bad t ps w m old u
  have hu : u.memOk := State.memOk_foldl ⟨Mem.wf_imageMem h.1 ps w, h.2⟩ fun s p hs => by simp [hs]
  simp [hu]

@[simp] theorem State.updateImage_memOk (h : s.memOk) {x : Bent} : (s.updateImage x).memOk := by
  simp [State.updateImage, h, State.writeLocal_memOk]

@[simp] theorem State.advanceImages_memOk (h : s.memOk) : s.advanceImages.memOk := by
  simp +contextual [State.advanceImages, h]

@[simp] theorem State.poke_memOk {x : Bent} {p : Nat × Byte} : (s.poke x p).memOk ↔ s.memOk := by
  simp [State.poke]

@[simp] theorem State.loadBent_memOk {x : Bent} : (s.loadBent x).memOk ↔ s.memOk := by
  simp [State.loadBent]

@[simp] theorem State.createBent_memOk {g : Grid} {group : Nat} {r : Option TrigRec} {p : Place} :
    (s.createBent g group r p).memOk ↔ s.memOk := Iff.rfl

@[simp] theorem State.enterBent_memOk {g : Grid} {r : Option TrigRec} {places : List Place} : (s.enterBent g r places).memOk ↔ s.memOk := by
  unfold State.enterBent
  (repeat' split) <;> simp

@[simp] theorem State.retireGate_memOk {b : Board} {n : Nat} : (s.retireGate b n).memOk ↔ s.memOk := by
  simp [State.retireGate]

@[simp] theorem State.retireBent_memOk (h : s.memOk) {x : Bent} : (s.retireBent x).memOk := by
  simp [State.retireBent, h]

@[simp] theorem State.removeBoard_memOk (h : s.memOk) {b : Board} : (s.removeBoard b).memOk := by
  unfold State.removeBoard
  dsimp only
  split
  · simp [h]
  · split <;> simp [h]

@[simp] theorem State.carryGates_memOk {group bay : Nat} : (s.carryGates group bay).memOk ↔ s.memOk := by
  unfold State.carryGates
  dsimp only
  split
  · rfl
  · split <;> simp

@[simp] theorem State.rewait_memOk {b : Board} : (s.rewait b).memOk ↔ s.memOk := by
  simp [State.rewait]

@[simp] theorem State.settleAt_memOk (h : s.memOk) {x : Bent} {p : Place} : (s.settleAt x p).memOk := by
  simp +contextual [State.settleAt, h]

@[simp] theorem State.comeBack_memOk (h : s.memOk) {xs : List Bent} {places : List Place} : (s.comeBack xs places).memOk := by
  unfold State.comeBack
  split <;> simp +contextual [h]

@[simp] theorem State.bringBack_memOk (h : s.memOk) {g : Grid} {xs : List Bent} {places : List Place} : (s.bringBack g xs places).memOk := by
  simp [State.bringBack, h]

/-! ### Queues and launches -/

@[simp] theorem State.unmapDrained_memOk : s.unmapDrained.memOk ↔ s.memOk := Iff.rfl

@[simp] theorem State.mapSlot_memOk {slot q : Nat} : (s.mapSlot slot q).memOk ↔ s.memOk := Iff.rfl

@[simp] theorem State.replaceSlot_memOk : s.replaceSlot.memOk ↔ s.memOk := by
  unfold State.replaceSlot
  (repeat' split) <;> simp

@[simp] theorem State.advanceHead_memOk {q : Nat} : (s.advanceHead q).memOk ↔ s.memOk := Iff.rfl

@[simp] theorem State.dropLaunch_memOk {id : Nat} : (s.dropLaunch id).memOk ↔ s.memOk := Iff.rfl

@[simp] theorem State.endLaunch_memOk (h : s.memOk) {r : LaunchReq} : (s.endLaunch r).memOk := by
  unfold State.endLaunch
  dsimp only
  split
  · simp [h]
  · split <;> simp [h, State.putBoard_memOk]

@[simp] theorem State.failLaunch_memOk (h : s.memOk) {r : LaunchReq} {f : BFail} : (s.failLaunch r f).memOk := by
  unfold State.failLaunch
  split <;> simp [h, State.putBoard_memOk]

@[simp] theorem State.failQueued_memOk (h : s.memOk) {q : Nat} {c : BitVec 16} {addr : Nat} {f : BFail} : (s.failQueued q c addr f).memOk := by
  simp [State.failQueued, h, State.engineEntry_memOk]

@[simp] theorem State.failAccept_memOk (h : s.memOk) {r : LaunchReq} {f : BFail} : (s.failAccept r f).memOk := by
  unfold State.failAccept
  split <;> simp [h, State.engineEntry_memOk]

@[simp] theorem State.waitLaunch_memOk (h : s.memOk) {r : LaunchReq} {ds : List Dep} : onSome State.memOk (s.waitLaunch r ds) := by
  simp [State.waitLaunch, h]

theorem State.devWriteLine_memOk {t : State} {c : BitVec 16} {va : Nat} {l : List Byte} (h : s.memOk) (e : s.devWriteLine c va l = .ok t) :
    t.memOk := by
  unfold State.devWriteLine at e
  split at e
  · cases e
  · cases e
    exact h
  · cases e
    exact State.writeTarget_memOk h _ _ _

/-- Memory stays canonical as far as the area is zeroed. -/
theorem State.zeroArea_memOk (h : s.memOk) {c : BitVec 16} {va n : Nat} :
    (∀ t, s.zeroArea c va n = .ok t → t.memOk) ∧ ∀ x, s.zeroArea c va n = .error x → x.1.memOk := by
  induction n generalizing s va with
  | zero => simp [State.zeroArea, h]
  | succ n ih =>
    unfold State.zeroArea
    split
    · simp [h]
    · rename_i e
      exact ih (State.devWriteLine_memOk h e)

theorem State.takeInst_memOk {reader : Nat} {c : BitVec 16} {va : Nat} {r : Nat × State} (h : s.memOk) (e : s.takeInst reader c va = .ok r) :
    r.2.memOk := by
  unfold State.takeInst at e
  split at e
  · cases e
  · split at e
    · cases e
    · rename_i e'
      cases e
      exact State.counterAdd_memOk h e'
  · split at e
    · cases e
    · rename_i e'
      cases e
      exact State.counterAdd_memOk h e'
  · split at e
    · cases e
    · cases e
      exact h

/-- Memory stays canonical whether the graph is opened or fails. -/
theorem State.openGraph_memOk (h : s.memOk) {r : LaunchReq} :
    (∀ x, s.openGraph r = .ok x → x.1.memOk) ∧ ∀ x, s.openGraph r = .error x → x.1.memOk := by
  unfold State.openGraph
  dsimp only
  iterate 7
    split
    · simp [h]
  rename_i j x etake
  have hx : x.memOk := State.takeInst_memOk h etake
  split
  · rename_i ezero
    simpa using (State.zeroArea_memOk hx).2 _ ezero
  · rename_i ezero
    simpa using (State.zeroArea_memOk hx).1 _ ezero

@[simp] theorem State.abortInstance_memOk (h : s.memOk) {id : Nat} : (s.abortInstance id).memOk := by
  simp [State.abortInstance, h]

/-- The state that an acceptance of a graph comes to. -/
def GraphTry.state : GraphTry → State
  | .fails s _ | .waits s _ _ | .done s => s

theorem State.tryGraph_memOk (h : s.memOk) {r : LaunchReq} : (s.tryGraph r).state.memOk := by
  unfold State.tryGraph
  split
  · rename_i e
    exact (State.openGraph_memOk h).2 _ e
  · rename_i y r e
    have hy : y.memOk := (State.openGraph_memOk h).1 _ e
    dsimp only
    split
    · exact hy
    · split
      · exact hy
      · exact hy

theorem State.launchFailure_memOk (h : s.memOk) {r : LaunchReq} : onSome (·.1.memOk) (s.launchFailure r) := by
  have hgraph := State.tryGraph_memOk h (r := r)
  unfold State.launchFailure
  split
  · simp
  · split
    · split
      · rename_i e
        rw [e] at hgraph
        split
        · simp
        · exact onSome_some.2 hgraph
      · simp
    · split
      · split <;> simp [h]
      · simp

@[simp] theorem State.advanceMoved_memOk (h : s.memOk) : s.advanceMoved.memOk := by
  simp +contextual [State.advanceMoved, h]

/-! ### The front and what boards owe -/

theorem State.present_memOk (h : s.memOk) {id : Nat} : onSome (·.1.memOk) (s.present id) := by
  refine onSome_bind' fun b _ => onSome_bind' fun isB _ => onSome_bind' fun p _ => ?_
  simp [h]

@[simp] theorem State.failBind_memOk {b : Board} {cause : Nat} : (s.failBind b cause).memOk ↔ s.memOk := Iff.rfl

@[simp] theorem State.parkBind_memOk {b : Board} {t : Target} {asked : Bool} : (s.parkBind b t asked).memOk ↔ s.memOk := Iff.rfl

@[simp] theorem State.postBind_memOk {b : Board} : (s.postBind b).memOk ↔ s.memOk := Iff.rfl

@[simp] theorem State.askBind_memOk (h : s.memOk) {b : Board} {t : Target} {kind : FetchKind} : (s.askBind b t kind).memOk := by
  simp [State.askBind, h]

@[simp] theorem State.claimBind_memOk (h : s.memOk) {b : Board} {t : Target} : (s.claimBind b t).memOk := by
  unfold State.claimBind
  split <;> simp [h, State.writeTarget_memOk]

@[simp] theorem State.claimed_memOk {b : Board} {t : Target} {x0 : LineResp} : (s.claimed b t x0).memOk ↔ s.memOk := by
  unfold State.claimed
  split <;> simp

@[simp] theorem State.bindOn_memOk (h : s.memOk) {b : Board} {t : Target} {e : List Byte} : (s.bindOn b t e).memOk := by
  unfold State.bindOn
  (repeat' split) <;> simp [h]

@[simp] theorem State.bindAnswered_memOk {b : Board} {isB : Bool} : (s.bindAnswered b isB).memOk ↔ s.memOk := by
  unfold State.bindAnswered
  split <;> simp

@[simp] theorem State.wakeBinds_memOk : s.wakeBinds.memOk ↔ s.memOk := by
  simp [State.wakeBinds]

@[simp] theorem State.submit_memOk (h : s.memOk) {b : Board} {i : Instr} {a : BitVec 9} {graph : Bool} : (s.submit b i a graph).memOk := by
  simp [State.submit, h]

@[simp] theorem State.markTriggered_memOk (h : s.memOk) {uid : Nat} : (s.markTriggered uid).memOk := by
  unfold State.markTriggered
  split <;> simp [h]

@[simp] theorem State.owe_memOk (h : s.memOk) {b : Board} {act : OwedAct} {now : State → State} (hnow : (now s).memOk) :
    (s.owe b act now).memOk := by
  simp [State.owe, h, hnow]

@[simp] theorem State.serveBoard_memOk (h : s.memOk) {b : Board} : (s.serveBoard b).memOk := by
  unfold State.serveBoard
  split <;> simp [h]

@[simp] theorem State.paid_memOk (h : s.memOk) {b : Board} {x0 : OwedAct} : (s.paid b x0).memOk := by
  unfold State.paid
  split <;> simp [h]

@[simp] theorem State.payOwed_memOk (h : s.memOk) {board fuel : Nat} : (s.payOwed board fuel).memOk := by
  induction fuel generalizing s with
  | zero => exact h
  | succ fuel ih =>
    unfold State.payOwed
    split
    · exact h
    · split
      · exact h
      · split
        · exact h
        · exact ih (State.paid_memOk (by simp [h]))

/-! ### Answers, and what goes on by itself -/

@[simp] theorem State.answer_memOk (h : s.memOk) {r : OutReq} {x : LineResp} : onSome State.memOk (s.answer r x) := by
  unfold State.answer
  dsimp only
  split
  · (repeat' split) <;> simp [h]
  · split
    · simp [h]
    · split <;> simp [h]
  · split
    · split <;> simp [h, State.engineEntry_memOk]
    · split <;> simp [h]

@[simp] theorem State.modReq_memOk {id : Nat} {f : OutReq → OutReq} : (s.modReq id f).memOk ↔ s.memOk := Iff.rfl

@[simp] theorem State.answerAt_memOk (h : s.memOk) {r : OutReq} {x : LineResp} : onSome State.memOk (s.answerAt r x) := by
  simp [State.answerAt, h]

@[simp] theorem State.spoil_memOk (h : s.memOk) {c : BitVec 16} {bent board : Nat} {cause : BitVec 8} {addr : BitVec 64} :
    onSome State.memOk (s.spoil c bent board cause addr) := by
  unfold State.spoil
  dsimp only
  split
  · simp
  · split
    · split <;> simp [h]
    · split <;> simp [h]
    · split <;> simp [h]
    · split <;> simp [h]

@[simp] theorem State.advanceCore_memOk (h : s.memOk) {core : Nat} : (s.advanceCore core).memOk := by
  unfold State.advanceCore
  refine State.advanceMatrix_memOk ?_
  split
  · exact h
  · exact State.memOk_foldl h fun _ _ hs => State.advanceCopy_memOk hs

@[simp] theorem State.advanceFrame_memOk (h : s.memOk) {f : Nat} : (s.advanceFrame f).memOk := by
  simp +contextual [State.advanceFrame, h]

@[simp] theorem State.advanceEngines_memOk (h : s.memOk) : s.advanceEngines.memOk :=
  State.memOk_foldl (State.memOk_foldl h fun _ _ hs => State.advanceCore_memOk hs) fun _ _ hs => State.advanceFrame_memOk hs

@[simp] theorem State.advanceWaits_memOk : s.advanceWaits.memOk ↔ s.memOk := by
  simp [State.advanceWaits]

@[simp] theorem State.advanceParked_memOk : s.advanceParked.memOk ↔ s.memOk := by
  simp [State.advanceParked]

@[simp] theorem State.pump_memOk (h : s.memOk) {r : OutReq} : (s.pump r).memOk := by
  unfold State.pump
  split
  · dsimp only
    (repeat' split) <;> simp [h]
  · exact h

@[simp] theorem State.dropFetches_memOk : s.dropFetches.memOk ↔ s.memOk := by
  simp [State.dropFetches]

@[simp] theorem State.pumpAll_memOk (h : s.memOk) : s.pumpAll.memOk := by
  refine State.memOk_foldl (by simp [h]) fun s r hs => ?_
  split <;> simp [hs]

@[simp] theorem State.settleWaits_memOk : s.settleWaits.memOk ↔ s.memOk := Iff.rfl

@[simp] theorem State.advanceBoards_memOk (h : s.memOk) : s.advanceBoards.memOk := by
  refine State.memOk_foldl (by simp [h]) fun s b hs => State.sendLines_memOk (State.memOk_foldl ?_ fun s g hs => ?_)
  · simp [hs]
  · split <;> simp [hs]

/-! ### Requests of peers and the rings -/

@[simp] theorem State.serve_memOk (h : s.memOk) {r : PeerReq} {a : Nat} : (s.serve r a).1.memOk := by
  unfold State.serve
  split <;> simp [h, State.writeLocal_memOk]

@[simp] theorem State.resolveReq_memOk (h : s.memOk) {r : PeerReq} : (s.resolveReq r).1.memOk := by
  unfold State.resolveReq
  (repeat' split) <;> simp [h]

@[simp] theorem State.performReq_memOk (h : s.memOk) {req : PeerReq} : (s.performReq req).1.memOk := by
  simp [State.performReq, h]

@[simp] theorem State.serveHere_memOk (h : s.memOk) {r : PeerReq} : (s.serveHere r).memOk := by
  simp [State.serveHere, h]

@[simp] theorem State.passIn_memOk (h : s.memOk) {x : InReq} : (s.passIn x).memOk := by
  simp [State.passIn, h]

@[simp] theorem State.passInAll_memOk (h : s.memOk) : s.passInAll.memOk := by
  simp +contextual [State.passInAll, h]

@[simp] theorem State.serveAway_memOk (h : s.memOk) {dst id : Nat} : (s.serveAway dst id).memOk := by
  unfold State.serveAway
  split <;> simp [h]

@[simp] theorem State.unload_memOk (h : s.memOk) {dst : Nat} {x0 : SlotLoad} : onSome State.memOk (s.unload dst x0) := by
  unfold State.unload
  (repeat' split) <;> simp [h]

@[simp] theorem State.retireRing_memOk {k : Nat} : (s.retireRing k).memOk ↔ s.memOk := Iff.rfl

@[simp] theorem State.abortAll_memOk (h : s.memOk) {origin : Nat} : (s.abortAll origin).memOk := by
  simp +contextual [State.abortAll, h]

@[simp] theorem State.resolveReqs_memOk (h : s.memOk) {rs : List OutReq} {all : Bool} : (s.resolveReqs rs all).memOk := by
  refine State.memOk_foldl h fun s r hs => ?_
  split
  · simp [hs]
  · split <;> simp [hs]

@[simp] theorem State.advance_memOk (h : s.memOk) : s.advance.memOk := by
  have hengines := State.advanceEngines_memOk (State.advanceBoards_memOk (State.advanceTraps_memOk h))
  have hreqs := State.passInAll_memOk (State.pumpAll_memOk hengines)
  simp [State.advance, hreqs]

/-! ### Ports and clocks -/

@[simp] theorem State.modPart_memOk {n : Nat} {f : Part → Part} : (s.modPart n f).memOk ↔ s.memOk := Iff.rfl

@[simp] theorem State.refuse_memOk {n : Nat} {one : Bool} {id : Nat} : (s.refuse n one id).memOk ↔ s.memOk := by
  simp [State.refuse]

@[simp] theorem State.nextIssue_memOk {fuel : Nat} : (State.nextIssue fuel s).1.memOk ↔ s.memOk := by
  induction fuel generalizing s with
  | zero => rfl
  | succ fuel ih =>
    unfold State.nextIssue
    split
    · rfl
    · split
      · rfl
      · simp [ih]

@[simp] theorem State.dueIssue_memOk : s.dueIssue.1.memOk ↔ s.memOk := by
  simp [State.dueIssue]

@[simp] theorem State.clearPort_memOk {n : Nat} {one : Bool} {id busy hold : Nat} : (s.clearPort n one id busy hold).memOk ↔ s.memOk := by
  simp [State.clearPort]

@[simp] theorem State.leavePort_memOk {n : Nat} {one : Bool} {id busy hold : Nat} : (s.leavePort n one id busy hold).memOk ↔ s.memOk := by
  simp [State.leavePort]

@[simp] theorem State.chargeBundle_memOk {b : Board} {is : List Instr} : (s.chargeBundle b is).memOk ↔ s.memOk := by
  unfold State.chargeBundle
  split <;> simp

@[simp] theorem State.endBundle_memOk {is : List Instr} {period : Nat} : (s.endBundle is period).memOk ↔ s.memOk := by
  unfold State.endBundle
  split
  · rfl
  · dsimp only
    split <;> simp

@[simp] theorem State.elapse_memOk {w : Nat} : (s.elapse w).memOk ↔ s.memOk := Iff.rfl

@[simp] theorem State.enterParts_memOk {bay : Nat} : (s.enterParts bay).memOk ↔ s.memOk := Iff.rfl

@[simp] theorem State.chargeStatic_memOk {bay : Nat} : (s.chargeStatic bay).memOk ↔ s.memOk := Iff.rfl

@[simp] theorem State.countCorrected_memOk {frame unit : Nat} : (s.countCorrected frame unit).memOk ↔ s.memOk := Iff.rfl

/-! ### Power -/

@[simp] theorem State.mapBays_memOk {f : Bay → Bay} : (s.mapBays f).memOk ↔ s.memOk := Iff.rfl

@[simp] theorem State.boundPace_memOk : s.boundPace.memOk ↔ s.memOk := Iff.rfl

@[simp] theorem State.applyCap_memOk {m : BitVec 128} : (s.applyCap m).1.memOk ↔ s.memOk := by
  simp [State.applyCap]

@[simp] theorem State.lowerLevels_memOk : s.lowerLevels.memOk ↔ s.memOk := by
  simp [State.lowerLevels]

@[simp] theorem State.raiseLevel_memOk : s.raiseLevel.memOk ↔ s.memOk := by
  unfold State.raiseLevel
  dsimp only
  split <;> simp

@[simp] theorem State.capStuck_memOk (h : s.memOk) {watts : Nat} : (s.capStuck watts).memOk := by
  simp [State.capStuck, h, State.deviceEntry_memOk]

@[simp] theorem State.modPace_memOk {n : Nat} {f : Pace → Pace} : (s.modPace n f).memOk ↔ s.memOk := Iff.rfl

@[simp] theorem State.closeWindow_memOk {p : Pace} : (s.closeWindow p).memOk ↔ s.memOk := Iff.rfl

/-! ### Functions, the host and resets -/

@[simp] theorem State.dropReqs_memOk {p : OutReq → Bool} : (s.dropReqs p).memOk ↔ s.memOk := Iff.rfl

@[simp] theorem State.abandon_memOk (h : s.memOk) {c : Cmd} : (s.abandon c).memOk := by
  unfold State.abandon
  split <;> simp [h]

@[simp] theorem State.endContext_memOk (h : s.memOk) {c : BitVec 16} : (s.endContext c).memOk := by
  simp +contextual [State.endContext, h]

@[simp] theorem State.mailDone_memOk {fn result : Nat} {out : List Byte} : (s.mailDone fn result out).memOk ↔ s.memOk := by
  simp [State.mailDone]

@[simp] theorem State.manage_memOk {off : Nat} {v : BitVec 64} : (s.manage off v).memOk ↔ s.memOk := by
  unfold State.manage
  (repeat' split) <;> simp

@[simp] theorem State.hostWrite_memOk (h : s.memOk) {fn k : Nat} {l : List Byte} : (s.hostWrite fn k l).memOk := by
  unfold State.hostWrite
  split <;> simp [h, State.writeLocal_memOk]

@[simp] theorem State.complete_memOk {fn off : Nat} {v : DWord} : (s.complete fn off v).memOk ↔ s.memOk := Iff.rfl

@[simp] theorem State.hostAtomic_memOk (h : s.memOk) {fn k : Nat} {op : AtomOp} {wd : Bool} {v cmp : DWord} :
    (s.hostAtomic fn k op wd v cmp).memOk := by
  unfold State.hostAtomic
  dsimp only
  split
  · exact h
  · split <;> simp [h, State.writeLocal_memOk]

@[simp] theorem State.setGrant_memOk {fn : Nat} {size : Bool} {v : Nat} : (s.setGrant fn size v).memOk ↔ s.memOk := Iff.rfl

@[simp] theorem State.setPace_memOk {g k : Nat} {v : DWord} : (s.setPace g k v).memOk ↔ s.memOk := Iff.rfl

@[simp] theorem State.barWrite_memOk (h : s.memOk) {fn off : Nat} {v : BitVec 64} {n : Nat} : (s.barWrite fn off v n).memOk := by
  unfold State.barWrite
  dsimp only
  (repeat' split) <;> simp [h]

@[simp] theorem State.clearFn_memOk (h : s.memOk) {fn : Nat} : (s.clearFn fn).1.memOk := by
  simp +contextual [State.clearFn, h]

@[simp] theorem State.resetAll_memOk (h : s.memOk) : s.resetAll.memOk := by
  unfold State.resetAll
  extract_lets r _ t
  have hr : r.1.memOk := State.memOk_foldl_fst h fun r _ hr => State.clearFn_memOk hr
  clear_value r
  have ht : t.memOk := hr
  exact State.memOk_foldl ht fun _ _ hs => State.deviceEntry_memOk hs _ _ _

@[simp] theorem State.reply_memOk {l : List Byte} : (s.reply l).memOk ↔ s.memOk := Iff.rfl

/-- The module gone dark has lost its own memory. -/
@[simp] theorem State.dark_memOk (h : s.memOk) : s.dark.memOk := ⟨rfl, h.2⟩

@[simp] theorem State.bringFrames_memOk {fails : List StepFail} {recs : List StepRec} {now late : List Nat} :
    (s.bringFrames fails recs now late).memOk ↔ s.memOk := by
  simp [State.bringFrames]

@[simp] theorem State.bringUp_memOk {fails : List StepFail} {start : Word} {recs : List StepRec} {late : List Nat} :
    (s.bringUp fails start recs late).memOk ↔ s.memOk := by
  simp [State.bringUp]

end

end Sys2Proof.Machine
end

