-- ==== Sys2Proof/Proofs/CanonicalSteps.lean ====
section
/-!
Every arm of `exec`, and every step, keeps the memory of the module and of the host in their canonical form.
-/
namespace Sys2Proof.Machine

section
variable {s : State}

/-! ### Steps of the device and its surroundings -/

theorem trapStep_memOk (h : s.memOk) {name : String} {cls : Nat} {slot : TrapSlot} {code : BitVec 32} {addr : BitVec 64} :
    outMemOk (trapStep name cls slot code addr s) := by
  simp only [trapStep, outMemOk_event]
  exact onSome_bind' fun b _ => onSome_bind' fun t _ => by simp [h]

@[simp] theorem execHomeWritePerformed_memOk (h : s.memOk) {board op line : Nat} : outMemOk (execHomeWritePerformed board op line s) := by
  simp only [execHomeWritePerformed, outMemOk_event]
  exact onSome_bind' fun _ _ => onSome_bind' fun _ _ => onSome_bind' fun _ _ => by simp [h]

@[simp] theorem execL1StorageTimeout_memOk (h : s.memOk) {board op : Nat} : outMemOk (execL1StorageTimeout board op s) := by
  simp only [execL1StorageTimeout, outMemOk_event]
  exact onSome_bind' fun _ _ => onSome_bind' fun _ _ => onSome_bind' fun _ _ => by simp [h, State.putBoard_memOk]

@[simp] theorem execRemoteGateArrival_memOk (h : s.memOk) {id : Nat} : outMemOk (execRemoteGateArrival id s) := by
  simp only [execRemoteGateArrival, outMemOk_event]
  refine onSome_bind' fun _ _ => ?_
  (repeat' split) <;> simp [h]

@[simp] theorem execCpbGateArrival_memOk (h : s.memOk) {core cmd dest : Nat} : outMemOk (execCpbGateArrival core cmd dest s) := by
  simp only [execCpbGateArrival, outMemOk_event]
  refine onSome_bind_of (State.readyCopy_memOk h) fun r hr => onSome_bind' fun g _ => ?_
  split <;> simp [hr]

@[simp] theorem execCopyCommandComplete_memOk (h : s.memOk) {core cmd : Nat} : outMemOk (execCopyCommandComplete core cmd s) := by
  simp only [execCopyCommandComplete, outMemOk_event]
  refine onSome_bind_of (State.readyCopy_memOk h) fun r hr => ?_
  split <;> simp [hr]

@[simp] theorem execMatrixCommandComplete_memOk (h : s.memOk) {core : Nat} : outMemOk (execMatrixCommandComplete core s) := by
  simp only [execMatrixCommandComplete, outMemOk_event]
  refine onSome_bind_of (State.readyMatrix_memOk h) fun r hr => ?_
  split
  · simp
  · refine onSome_some.2 (State.endCmd_memOk ?_)
    split <;> simp [hr]

@[simp] theorem execXchgWaitEnd_memOk (h : s.memOk) {frame cmd : Nat} : outMemOk (execXchgWaitEnd frame cmd s) := by
  simp only [execXchgWaitEnd, outMemOk_event]
  refine onSome_bind_of (State.routeCmd?_memOk h) fun r hr => ?_
  split <;> simp [hr]

@[simp] theorem execCombineGateWaitEnd_memOk (h : s.memOk) {frame cmd : Nat} : outMemOk (execCombineGateWaitEnd frame cmd s) := by
  simp only [execCombineGateWaitEnd, outMemOk_event]
  refine onSome_bind_of (State.routeCmd?_memOk h) fun r hr => ?_
  split <;> simp [hr]

@[simp] theorem execScatterArrival_memOk (h : s.memOk) {frame cmd dev : Nat} : outMemOk (execScatterArrival frame cmd dev s) := by
  simp only [execScatterArrival, outMemOk_event]
  refine onSome_bind_of (State.routeCmd?_memOk h) fun r hr => ?_
  split <;> simp [hr]

@[simp] theorem execRouteCommandComplete_memOk (h : s.memOk) {frame cmd : Nat} : outMemOk (execRouteCommandComplete frame cmd s) := by
  simp only [execRouteCommandComplete, outMemOk_event]
  refine onSome_bind_of (State.routeCmd?_memOk h) fun r hr => ?_
  split
  · simp
  · exact onSome_bind_of (State.finishRoute_memOk hr) fun t ht => by simp [ht]

@[simp] theorem execGateWake_memOk (h : s.memOk) {wake : Wake} : outMemOk (execGateWake wake s) := by
  simp only [execGateWake, outMemOk_event]
  split
  · simp
  · refine onSome_orElse (State.wakePasses_memOk h) (onSome_orElse (State.wakeBoard_memOk h) (onSome_orElse (State.wakeRoute_memOk h) ?_))
    simp [h]

@[simp] theorem execGateWaiterPoll_memOk (h : s.memOk) {waiter : Nat} : outMemOk (execGateWaiterPoll waiter s) := by
  simp only [execGateWaiterPoll, outMemOk_event]
  refine onSome_orElse (onSome_bind' fun b _ => onSome_bind' fun g _ => ?_) (State.pollRoute_memOk h)
  simp [h]

@[simp] theorem execBentSwitchOut_memOk (h : s.memOk) {bent : Nat} : outMemOk (execBentSwitchOut bent s) := by
  simp only [execBentSwitchOut, outMemOk_event]
  exact onSome_bind' fun x _ => onSome_unless (onSome_some.2 (State.memOk_foldl h fun s y hs => by simp [hs]))

@[simp] theorem execBentRestore_memOk (h : s.memOk) {bent : Nat} {places : List Place} : outMemOk (execBentRestore bent places s) := by
  simp only [execBentRestore, outMemOk_event]
  refine onSome_bind' fun _ _ => ?_
  split <;> simp [h]

@[simp] theorem execForcedPreemption_memOk (h : s.memOk) {bent : Nat} : outMemOk (execForcedPreemption bent s) := by
  simp only [execForcedPreemption, outMemOk_event]
  refine onSome_bind' fun x _ => ?_
  split
  · exact onSome_some.2 (State.memOk_foldl h fun s y hs => by simp [hs])
  · simp

@[simp] theorem execThermalMigration_memOk (h : s.memOk) {bent : Nat} {places : List Place} : outMemOk (execThermalMigration bent places s) := by
  simp only [execThermalMigration, outMemOk_event]
  exact onSome_bind' fun x _ => onSome_bind' fun p _ => onSome_unless (onSome_some.2 (State.memOk_foldl h fun s q hs => by simp [hs]))

@[simp] theorem execMigrationAbandon_memOk (h : s.memOk) {bent : Nat} : outMemOk (execMigrationAbandon bent s) := by
  simp only [execMigrationAbandon, outMemOk_event]
  refine onSome_bind' fun x _ => onSome_bind' fun g _ => onSome_bind' fun ps _ => onSome_unless (onSome_some.2 ?_)
  refine State.memOk_of_ite (State.abortGrid_memOk (State.memOk_foldl ?_ fun s y hs => State.modBent_memOk.2 hs))
    (State.memOk_foldl ?_ fun s y hs => State.modBent_memOk.2 hs) <;> simp [h, State.engineEntry_memOk]

@[simp] theorem execLaunchAccept_memOk (h : s.memOk) {id : Nat} : outMemOk (execLaunchAccept id s) := by
  simp only [execLaunchAccept, outMemOk_event]
  refine onSome_bind' fun _ _ => ?_
  (repeat' split) <;> simp [h]

@[simp] theorem execQueueBlockAccept_memOk (h : s.memOk) {queue : Nat} : outMemOk (execQueueBlockAccept queue s) := by
  simp only [execQueueBlockAccept, outMemOk_event]
  (repeat' split) <;> simp [h]

@[simp] theorem execGraphInstanceAccept_memOk (h : s.memOk) {id : Nat} : outMemOk (execGraphInstanceAccept id s) := by
  simp only [execGraphInstanceAccept, outMemOk_event]
  refine onSome_bind' fun r _ => ?_
  have hgraph := State.tryGraph_memOk h (r := r)
  split
  · simp
  · split
    all_goals
      rename_i e
      simp only [e, GraphTry.state] at hgraph
      simp [hgraph]

@[simp] theorem execGraphNodeReady_memOk (h : s.memOk) {inst node : Nat} : outMemOk (execGraphNodeReady inst node s) := by
  simp only [execGraphNodeReady, outMemOk_event]
  refine onSome_bind' fun _ _ => onSome_bind' fun _ _ => ?_
  (repeat' split) <;> simp [h, State.engineEntry_memOk]

@[simp] theorem execDependenceWatchTimeout_memOk (h : s.memOk) {id : Nat} : outMemOk (execDependenceWatchTimeout id s) := by
  simp only [execDependenceWatchTimeout, outMemOk_event]
  refine onSome_bind' fun _ _ => ?_
  (repeat' split) <;> simp [h]

@[simp] theorem execWatchArmComplete_memOk (h : s.memOk) {board op : Nat} : outMemOk (execWatchArmComplete board op s) := by
  simp only [execWatchArmComplete, outMemOk_event]
  refine onSome_bind' fun _ _ => onSome_bind' fun _ _ => ?_
  (repeat' split) <;> simp [h, State.putBoard_memOk]

@[simp] theorem execHandlerStart_memOk (h : s.memOk) {frame entry : Nat} {place : Place} : outMemOk (execHandlerStart frame entry place s) := by
  simp only [execHandlerStart, outMemOk_event]
  refine onSome_bind' fun _ _ => onSome_bind' fun _ _ => ?_
  (repeat' split) <;> simp [h, State.engineEntry_memOk]

@[simp] theorem execPagingService_memOk (h : s.memOk) {board : Nat} : outMemOk (execPagingService board s) := by
  simp only [execPagingService, outMemOk_event]
  refine onSome_bind' fun b _ => onSome_bind' fun f _ => ?_
  split
  · simp
  · split
    · simp [h]
    · have hls (ls : List (Nat × DWord × Nat × Nat)) : (ls.foldl (fun s l => s.writeLocal none (bytesAt l.1 (leBytes 8 l.2.1.toNat))) s).memOk :=
        State.memOk_foldl h fun s l hs => State.writeLocal_memOk hs _ _
      refine onSome_some.2 (State.restore_memOk ?_)
      simp [State.writeLocal_memOk, hls]

@[simp] theorem execMachine_memOk (h : s.memOk) {slot : TrapSlot} {store lane : BitVec 8} {num : BitVec 16} :
    outMemOk (execMachine slot store lane num s) := by
  simp only [execMachine, outMemOk_event]
  refine onSome_bind' fun _ _ => ?_
  (repeat' split) <;> simp [h]

@[simp] theorem execBroken_memOk (h : s.memOk) {board : Nat} : outMemOk (execBroken board s) := by
  simp only [execBroken, outMemOk_event]
  refine onSome_bind_of (State.present_memOk h) fun r hr => onSome_bind' fun t _ => ?_
  simp [hr]

@[simp] theorem execOverrun_memOk (h : s.memOk) {board : Nat} : outMemOk (execOverrun board s) := by
  simp only [execOverrun, outMemOk_event]
  refine onSome_bind' fun _ _ => onSome_bind' fun _ _ => ?_
  split <;> simp [h]

@[simp] theorem execBundleFetch_memOk (h : s.memOk) {board : Nat} {isB : Bool} : outMemOk (execBundleFetch board isB s) := by
  simp only [execBundleFetch, outMemOk_event]
  refine onSome_bind' fun b _ => onSome_bind' fun p _ => ?_
  have hset (c : Board) : (s.setBoard c).memOk := by simp [h]
  split
  · simp
  · split
    · split
      · rename_i e
        have ht := State.present_memOk (hset _) _ e
        split
        · simp [ht, h]
        · exact onSome_some.2 (hset _)
      · exact onSome_some.2 (hset _)
    · split <;> simp [h]

@[simp] theorem execBindBundle_memOk (h : s.memOk) : outMemOk (execBindBundle s) := by
  simp only [execBindBundle, outMemOk_event]
  refine onSome_bind' fun _ _ => ?_
  (repeat' split) <;> simp [h]

@[simp] theorem execBindParkPoll_memOk (h : s.memOk) {board : Nat} {isB : Bool} : outMemOk (execBindParkPoll board isB s) := by
  simp only [execBindParkPoll, outMemOk_event]
  refine onSome_bind' fun b _ => onSome_bind' fun p _ => onSome_unless (onSome_of_ite (onSome_unless ?_) ?_)
  · exact onSome_bind_of (State.fetch_memOk h) fun t ht => by simp [ht]
  · simp [h]

/-- Several of the device's own writes by virtual address, those that fail left out. -/
theorem State.devWriteLines_memOk (h : s.memOk) {c : BitVec 16} {va : Nat} {ws : List (Nat × List Byte)} :
    (ws.foldl (fun s w => (s.devWriteLine c (va + w.1) w.2).toOption.getD s) s).memOk := by
  refine State.memOk_foldl h fun s w hs => ?_
  cases e : s.devWriteLine c (va + w.1) w.2 with
  | error x => exact hs
  | ok t => exact State.devWriteLine_memOk hs e

@[simp] theorem execBindRequestService_memOk (h : s.memOk) {frame idx : Nat} {res : BindResult} :
    outMemOk (execBindRequestService frame idx res s) := by
  simp only [execBindRequestService, outMemOk_event]
  refine onSome_bind' fun r _ => ?_
  split
  · refine onSome_bind' fun v _ => onSome_some.2 (State.devWriteLines_memOk ?_)
    split <;> simp [h]
  · refine onSome_of_ite (onSome_bind' fun v _ => onSome_some.2 (State.devWriteLines_memOk ?_)) (by simp)
    split <;> simp [h]

@[simp] theorem execSwitchPoint_memOk (h : s.memOk) : outMemOk (execSwitchPoint s) := by
  simp only [execSwitchPoint, outMemOk_event]
  refine onSome_bind' fun _ _ => ?_
  split <;> simp [h]

@[simp] theorem execMemoryLineReturn_memOk (h : s.memOk) {ref : LineRef} {resp : LineResp} : outMemOk (execMemoryLineReturn ref resp s) := by
  simp only [execMemoryLineReturn, outMemOk_event]
  split
  · refine onSome_bind' fun b _ => onSome_bind' fun o _ => ?_
    split
    · simp
    · split <;> simp [h]
  · refine onSome_bind' fun r _ => ?_
    simp [h]

@[simp] theorem execOperationFail_memOk (h : s.memOk) {ref : OpRef} {cause : BitVec 8} {addr : BitVec 64} :
    outMemOk (execOperationFail ref cause addr s) := by
  simp only [execOperationFail, outMemOk_event]
  split
  · refine onSome_bind' fun b _ => ?_
    split
    · split <;> simp [h]
    · refine onSome_bind' fun o _ => ?_
      split <;> simp [h, State.putBoard_memOk]
  · refine onSome_bind' fun c _ => ?_
    split
    · simp
    · split <;> simp [h]
  · refine onSome_bind' fun c _ => ?_
    split
    · rename_i e
      simp [State.failMatrix_memOk h _ e]
    · simp [h]
  · refine onSome_bind' fun c _ => ?_
    split
    · rename_i e
      simp [State.routeFailure_memOk h _ e]
    · simp [h]
  · refine onSome_bind' fun r _ => ?_
    split
    · rename_i e
      simp [State.launchFailure_memOk h _ e]
    · simp [h]

@[simp] theorem execDroopStretchEnd_memOk (h : s.memOk) {bay : Nat} : outMemOk (execDroopStretchEnd bay s) := by
  simp only [execDroopStretchEnd, outMemOk_event]
  split <;> simp [h]

@[simp] theorem execDroopWindowEnd_memOk (h : s.memOk) {bay : Nat} : outMemOk (execDroopWindowEnd bay s) := by
  simp only [execDroopWindowEnd, outMemOk_event]
  split <;> simp [h]

@[simp] theorem execBrownout_memOk (h : s.memOk) {bay mv : Nat} : outMemOk (execBrownout bay mv s) := by
  simp only [execBrownout, outMemOk_event]
  refine onSome_unless (onSome_some.2 (State.deviceEntry_memOk ?_ _ _ _))
  simp only [State.modBay_memOk, State.mapBoards_memOk]
  refine State.memOk_foldl (State.memOk_foldl ?_ fun s g hs => State.abortGrid_memOk hs) fun s c hs => State.abandon_memOk hs
  simp [h]

@[simp] theorem execCtxCreate_memOk (h : s.memOk) {fn : Nat} {ctxid : BitVec 16} : outMemOk (execCtxCreate fn ctxid s) := by
  simp only [execCtxCreate, outMemOk_event]
  have hdone (k : Nat) : onSome State.memOk (some (s.mailDone fn k [])) := by simp [h]
  refine onSome_unless (onSome_of_ite (hdone _) (onSome_of_ite (hdone _) ?_))
  split
  · exact hdone _
  · exact onSome_of_ite (hdone _) (onSome_unless (onSome_some.2 (State.mailDone_memOk.2 h)))

@[simp] theorem execCtxDestroy_memOk (h : s.memOk) {fn : Nat} : outMemOk (execCtxDestroy fn s) := by
  simp only [execCtxDestroy, outMemOk_event]
  (repeat' split) <;> simp [h]

@[simp] theorem execStepRead_memOk (h : s.memOk) {fn : Nat} : outMemOk (execStepRead fn s) := by
  simp only [execStepRead, outMemOk_event]
  (repeat' split) <;> simp [h]

@[simp] theorem execCtxMove_memOk (h : s.memOk) {fn : Nat} {target : Option (BitVec 64)} : outMemOk (execCtxMove fn target s) := by
  simp only [execCtxMove, outMemOk_event]
  (repeat' split) <;> simp [h]

@[simp] theorem execTlbInvalidateComplete_memOk (h : s.memOk) {fn : Nat} : outMemOk (execTlbInvalidateComplete fn s) := by
  simp only [execTlbInvalidateComplete, outMemOk_event]
  split <;> simp [h]

@[simp] theorem execEstWrite_memOk (h : s.memOk) {fn window : Nat} {value : BitVec 32} : outMemOk (execEstWrite fn window value s) := by
  simp only [execEstWrite, outMemOk_event]
  (repeat' split) <;> simp [h]

@[simp] theorem execRegisterWrite_memOk (h : s.memOk) {fn off : Nat} {op : HostOp} : outMemOk (execRegisterWrite fn off op s) := by
  simp only [execRegisterWrite, outMemOk_event]
  (repeat' split) <;> simp [h]

@[simp] theorem execFresume_memOk (h : s.memOk) {fn window : Nat} {value : BitVec 64} : outMemOk (execFresume fn window value s) := by
  simp only [execFresume, outMemOk_event]
  (repeat' split) <;> simp [h]

/-! ### The slots' instructions -/

/-- A slot instruction takes its trap, or does what it does to the board in focus. -/
theorem onBoard_memOk (h : s.memOk) {i : Instr} {k : Board → State} (hk : ∀ b, (k b).memOk) : outMemOk (onBoard s i k) := by
  intro t ht
  obtain ⟨b, -, ⟨r, -, rfl⟩ | ⟨-, rfl⟩⟩ := onBoard_next ht
  · exact State.raise_memOk h
  · exact hk _

@[simp] theorem execTrigger_memOk (h : s.memOk) : outMemOk (execTrigger s) :=
  onBoard_memOk h fun b => by
    have hr : ((s.releaseAt b .system).1.put (s.releaseAt b .system).2).memOk := by simp [h]
    exact State.owe_memOk hr (State.markTriggered_memOk hr)

@[simp] theorem execEret_memOk (h : s.memOk) : outMemOk (execEret s) :=
  onBoard_memOk h fun b => by
    have hr : ((s.put b).release b.id).memOk := by simp [h]
    exact State.owe_memOk (by simpa using hr) (State.serveBoard_memOk (by simpa using hr))

@[simp] theorem execGetsys_memOk (h : s.memOk) {y : BitVec 12} {d : BitVec 9} : outMemOk (execGetsys y d s) :=
  onBoard_memOk h fun b => by
    split
    · simpa using h
    · split <;> simpa using h
    · simpa using h

/-! ### Every arm -/

theorem exec_memOk (h : s.memOk) {i : Instr} : outMemOk (exec i s) := by
  cases i
  case mov | movi | sel | fadd | fsub | fmul | ffma | fmin | fmax | fabs | fneg | fcmp | fclass | frcp | frsq | fsqrt | fexp2 | flog2
    | fsin | fcos | ftanh | hadd2 | hsub2 | hmul2 | hfma2 | hmin2 | hmax2 | iadd | isub | imul | imad | imulh | imin | imax | icmp | and
    | or | xor | not | shl | shr | sar | popc | clz | bfe | bfi | brev | cvt | narrow | qscale | shflIdx | shflUp | shflDown | shflXor
    | bcast | rot | sort2 | scan | reduce | vote | hash | mand | mor | mxor | mandn | mnot | mmov | mlane | mbal | ld | st | ldu | stu
    | lds | sts | pref | atom | red | atoms | reds | atomu | redu | fence | fenceX | brset | brget | watchArm | watchDisarm | ldtr | cpa
    | cpb | cpr | mma | mmas | accClr | accLd | accSt | accRdv | accWrv | setmpc | cbtLd | routeCount | routeXchg | routePlace
    | routeScatter | routeCombine | routeStat | sadd | ssub | smul | smulh | sand | sor | sxor | sshl | sshr | ssar | smin | smax | sminu
    | smaxu | sslt | ssltu | saddImm | ssubImm | smulImm | smulhImm | sandImm | sorImm | sxorImm | sshlImm | sshrImm | ssarImm | sminImm
    | smaxImm | sminuImm | smaxuImm | ssltImm | ssltuImm | smovl | smovh | dadd | dsub | daddi | bra | brcNz | brcZ | brx | call | calli
    | ret | div | join | loop | exit | barAw | barArr | barWait | barInit | launch | launchG | yield | setix | setsys | time | tick
    | trap | nop =>
    dsimp only [exec]
    exact onBoard_memOk h fun b => by simp [h]
  case window | illegal | priv | budget | stack => exact trapStep_memOk h
  case bentCreate | boardRetire | notifyWrite | queueSlotFill | sliceBoundary | dependenceSatisfied | recordEligible | retire
    | fixedLatencyLanding | remoteRequest | ringSlotArrival | ringSlotResend | ringLinkFail | ringSecondLinkFail | ualinkPlaneDown
    | peerLost | peerAnsweringAgain | coreClockPeriod | engineCommandAccept | eccCorrection | correctionFreezeEnd | grantChange
    | clockSwitch | droopAlarm | thermalSample | capLeaseExpiry | powerMeasurement | paceWindowEnd | paceReport | ptmExchange
    | bayRestart | capSet | mailboxUnassignedCode | tlbInvalidate | qcfgWrite | fqcfgWrite | qownWrite | modsetWrite | drpthRead
    | fqlostRead | functionLevelReset | pfFunctionLevelReset | surpriseLinkLoss | linkLossTimeout | linkRetrain | sidebandStatus
    | sidebandCap | sidebandStepRead | logRead | funcReset | capseqClear | firmwareUpdate | frameHung | moduleReset | mainRailsOff
    | powerOn =>
    dsimp only [exec]
    simp [h, State.deviceEntry_memOk, execBentCreate, execBoardRetire, execNotifyWrite, execQueueSlotFill, execSliceBoundary,
      execDependenceSatisfied, execRecordEligible, execRetire, execFixedLatencyLanding, execRemoteRequest, execRingSlotArrival,
      execRingSlotResend, execRingLinkFail, execRingSecondLinkFail, execUalinkPlaneDown, execPeerLost, execPeerAnsweringAgain,
      execCoreClockPeriod, execEngineCommandAccept, execEccCorrection, execCorrectionFreezeEnd, execGrantChange, execClockSwitch,
      execDroopAlarm, execThermalSample, execCapLeaseExpiry, execPowerMeasurement, execPaceWindowEnd, execPaceReport,
      execPtmExchange, execBayRestart, execCapSet, execMailboxUnassignedCode, execTlbInvalidate, execQcfgWrite, execFqcfgWrite,
      execQownWrite, execModsetWrite, execDrpthRead, execFqlostRead, execFunctionLevelReset, execPfFunctionLevelReset,
      execSurpriseLinkLoss, execLinkLossTimeout, execLinkRetrain, execSidebandStatus, execSidebandCap, execSidebandStepRead,
      execLogRead, execFuncReset, execCapseqClear, execFirmwareUpdate, execFrameHung, execModuleReset, execMainRailsOff, execPowerOn]
  all_goals
    dsimp only [exec]
    simp [h]

/-! ### A step -/

/-- What is to be done next starts from a state with canonical memory. -/
def Todo.memOk : Todo → Prop
  | .event _ s => s.memOk
  | .bundle _ _ s => s.memOk
  | .idle s => s.memOk
  | .stop => True

theorem runSlots_memOk {is : List Instr} (h : s.memOk) : outMemOk (runSlots is s) := by
  induction is generalizing s with
  | nil => simpa [runSlots] using h
  | cons i is ih =>
    intro t ht
    rw [runSlots] at ht
    split at ht
    · next u hu => exact ih (exec_memOk h u hu) t ht
    · next hn => exact absurd ht (hn t)

theorem settled_memOk {o : Out} (h : outMemOk o) : outMemOk (settled o) := by
  intro t ht
  cases o with
  | next u =>
    obtain rfl : u.advance = t := by simpa [settled] using ht
    exact State.advance_memOk (h u rfl)
  | _ => simp [settled] at ht

theorem Todo.take_memOk {d : Todo} (h : d.memOk) : outMemOk d.take := by
  cases d with
  | event i s => exact settled_memOk (exec_memOk h)
  | bundle is period s =>
    intro t ht
    rw [Todo.take] at ht
    split at ht
    · next u hu =>
      obtain rfl : (u.endBundle is period).advance = t := by simpa using ht
      exact State.advance_memOk (State.endBundle_memOk.mpr (runSlots_memOk h u hu))
    · next hn => exact absurd ht (hn t)
  | idle s => exact outMemOk_next.mpr (State.advance_memOk h)
  | stop => simp [Todo.take, outMemOk]

theorem State.issueFrom_memOk (h : s.memOk) {n : Nat} {one : Bool} {id : Nat} : (s.issueFrom n one id).memOk := by
  have hp := State.present_memOk h (id := id)
  unfold State.issueFrom
  split
  · exact h
  · next t b e =>
    have ht : t.memOk := hp _ e
    split
    · simpa [Todo.memOk] using ht
    · generalize t.front b t.cur.pc = f
      cases f <;> simpa [Todo.memOk] using ht

theorem State.idleOn_memOk (h : s.memOk) : s.idleOn.memOk := by
  unfold State.idleOn
  split
  · trivial
  · exact State.elapse_memOk.mpr h

theorem State.choose_memOk (h : s.memOk) {l : List Item} : (s.choose l).memOk := by
  have hf : s.free.memOk := State.free_memOk.mpr h
  unfold State.choose
  split
  · exact State.idleOn_memOk h
  · exact State.issueFrom_memOk h
  · exact hf
  · exact State.elapse_memOk.mpr h
  · split
    · exact State.issueFrom_memOk hf
    · exact hf
    · exact State.free_memOk.mpr (State.elapse_memOk.mpr h)
    · exact hf

theorem State.whatMayCome_memOk (h : s.memOk) : s.whatMayCome.memOk := by
  have hd : s.dueIssue.1.memOk := State.dueIssue_memOk.mpr h
  unfold State.whatMayCome
  dsimp only
  split
  · exact hd
  · exact State.choose_memOk hd

theorem State.outside_memOk (h : s.memOk) : onSome Todo.memOk s.outside := by
  unfold State.outside
  split
  · exact onSome_none
  · refine onSome_unless (onSome_some.mpr ?_)
    split <;> exact h

theorem State.brokenTrap_memOk (h : s.memOk) : onSome Todo.memOk s.brokenTrap :=
  onSome_bind' fun _ _ => onSome_bind_of (State.present_memOk h) fun _ hr => onSome_bind' fun _ _ => onSome_some.mpr hr

theorem State.todo_memOk (h : s.memOk) : s.todo.memOk := by
  have ho := State.outside_memOk h
  have hb := State.brokenTrap_memOk h
  unfold State.todo
  split
  · next e => exact ho _ e
  · split
    · exact h
    · next e => exact hb _ e
    · split
      · exact h
      · exact State.whatMayCome_memOk h

end

/-- Settles O34: what comes next starts from a state with canonical memory, and each arm of `exec` and what goes on after it keep it so. -/
theorem stepsKeepMemoryCanonical : Obligations.StepsKeepMemoryCanonical := by
  unfold Obligations.StepsKeepMemoryCanonical
  intro s t h
  exact Todo.take_memOk (State.todo_memOk h) t

end Sys2Proof.Machine
end

