-- ==== Sys2Proof/Proofs/JudgedTraps.lean ====
section
/-!
An instruction of the slots is judged before it acts: where a condition of 22 holds of it, its trap is all that it does (21 R369, 22 R384).
-/
namespace Sys2Proof.Machine

/-- Every instruction of the slots acts through `onBoard`; a step of the device stands in no slot. -/
theorem exec_of_judge {s : State} {b : Board} {i : Instr} {t : Trap} (hi : slotNumOf i < 4) (hb : s.bd = some b) (hj : judge s b i = some t) :
    exec i s = .next (s.raise b t) := by
  cases i
  case bindBundle | switchPoint | fixedLatencyLanding | engineCommandAccept | memoryLineReturn | copyCommandComplete | cpbGateArrival
    | matrixCommandComplete | routeCommandComplete | xchgWaitEnd | combineGateWaitEnd | scatterArrival | operationFail
    | homeWritePerformed | recordEligible | handlerStart | watchArmComplete | remoteGateArrival | gateWake | gateWaiterPoll
    | ringSlotResend | queueSlotFill | queueBlockAccept | launchAccept | graphInstanceAccept | graphNodeReady | dependenceSatisfied
    | dependenceWatchTimeout | bentCreate | boardRetire | sliceBoundary | forcedPreemption | bentSwitchOut | bentRestore
    | thermalMigration | migrationAbandon | grantChange | clockSwitch | droopStretchEnd | droopWindowEnd | capLeaseExpiry | paceWindowEnd
    | correctionFreezeEnd | l1StorageTimeout | window | illegal | priv | budget | stack | machine | broken | retire | overrun
    | pagingService | tlbInvalidateComplete | pfFunctionLevelReset | surpriseLinkLoss | linkLossTimeout | linkRetrain | sidebandStatus
    | funcReset | moduleReset | capseqClear | firmwareUpdate | powerOn | coreClockPeriod | bundleFetch | scratchpadWave | bindParkPoll
    | bayRestart | mainRailsOff | remoteRequest | ringSlotArrival | ringLinkFail | ringSecondLinkFail | ualinkPlaneDown | peerLost
    | peerAnsweringAgain | notifyWrite | thermalSample | droopAlarm | brownout | powerMeasurement | paceReport | ptmExchange
    | eccCorrection | bindRequestService | fresume | ctxCreate | ctxDestroy | capSet | stepRead | ctxMove | tlbInvalidate | qcfgWrite
    | fqcfgWrite | qownWrite | modsetWrite | estWrite | drpthRead | fqlostRead | registerWrite | functionLevelReset | sidebandCap
    | sidebandStepRead | logRead | frameHung | mailboxUnassignedCode =>
    exact absurd hi (show ¬ 7 < 4 by decide)
  all_goals
    dsimp only [exec]
    exact onBoard_trap hb hj _

/-- Settles O39: the arm of each instruction of the slots raises the trap that is judged. -/
theorem judgedTrapsAreTaken : Obligations.JudgedTrapsAreTaken := by
  intro s b i t hi hb hj
  exact exec_of_judge hi hb hj

end Sys2Proof.Machine
end

