-- ==== Sys2Proof/Proofs/ResetValues.lean ====
section
/-!
The state at reset, part by part: frames, bays, functions and queues.
-/
namespace Sys2Proof.Machine

theorem reset_frame {k : Nat} (h : k < 8) : State.reset.frame k = Frame.fresh := List.getD_replicate _ h

theorem reset_bay {k : Nat} (h : k < 32) : State.reset.bay k = Bay.fresh := by
  rw [State.bay, reset_frame (show k / 4 < 8 by omega)]
  exact List.getD_replicate _ (show k % 4 < 4 by omega)

/-- Of the functions only the physical one has a grant; each is otherwise as nothing has written it. -/
theorem reset_fn (k : Nat) : State.reset.fn k = { grant := (State.reset.fn k).grant } := by
  cases k with
  | zero => rfl
  | succ k =>
    have hdefault : State.reset.fn (k + 1) = {} := by
      rw [← List.getElem?_getD_replicate_default_eq ({} : Fn) 31 k, ← List.getD_eq_getElem?_getD]
      rfl
    rw [hdefault]

theorem reset_queue (q : Nat) : State.reset.queue q = {} := rfl

/-- Settles O33: the fields of the state, and of its frames, bays, functions and queues, as they stand at reset. -/
theorem resetValues : Obligations.ResetValues := by
  refine ⟨⟨rfl, rfl⟩, rfl, rfl, rfl, rfl, rfl, rfl, rfl, rfl, rfl, rfl, fun k hk => ?bay, fun k hk => ?frame, fun k => ?fn, fun q => ?queue⟩
  case bay => simp [reset_bay hk, Bay.fresh]
  case frame => simp [reset_frame hk, Frame.fresh]
  case fn =>
    rw [reset_fn k]
    simp
  case queue => simp [reset_queue]

end Sys2Proof.Machine
end

