-- ==== Sys2Proof/Proofs/ModuleParts.lean ====
section
/-!
The parts of the module after one of them has changed: a queue, a frame, a bay (13 R276, 01 R13, R14). The part itself reads as changed, and every
other as before. And what else an entry of a fault queue leaves alone (21 R373, 26 R437).
-/
namespace Sys2Proof.Machine

/-! ### Association lists -/

theorem look_put {β : Type} (k j : Nat) (x d : β) (l : List (Nat × β)) : look j d (put k x l) = if k = j then x else look j d l := by
  induction l with
  | nil => simp [put, look]
  | cons p t ih =>
    obtain ⟨a, y⟩ := p
    by_cases ha : a = k
    · subst ha
      by_cases h : a = j <;> simp [put, look, h]
    · by_cases h : a = j
      · subst h
        simp [put, look, ha, Ne.symm ha]
      · simp [put, look, ha, h, ih]

/-! ### Queues, frames and bays -/

section
variable (s : State)

theorem State.queue_modQueue (q j : Nat) (g : Queue → Queue) : (s.modQueue q g).queue j = if q = j then g (s.queue q) else s.queue j :=
  look_put ..

@[simp] theorem State.queue_modQueue_self (q : Nat) (g : Queue → Queue) : (s.modQueue q g).queue q = g (s.queue q) := by
  rw [State.queue_modQueue, if_pos rfl]

theorem State.frame_modFrame {n k : Nat} (f : Frame → Frame) (h : n < s.frames.length) :
    (s.modFrame n f).frame k = if k = n then f (s.frame n) else s.frame k := by
  by_cases hk : k = n
  · subst hk
    simp [State.frame, modAt_eq_modify, List.getD_eq_getElem?_getD, h]
  · simp [State.frame, modAt_eq_modify, List.getD_eq_getElem?_getD, hk, Ne.symm hk]

/-- A bay that is there, changed, reads as changed; every other bay reads as before. -/
theorem State.bay_modBay {n k : Nat} (g : Bay → Bay) (hf : n / 4 < s.frames.length) (hb : n % 4 < (s.frame (n / 4)).bays.length) :
    (s.modBay n g).bay k = if k = n then g (s.bay n) else s.bay k := by
  unfold State.modBay
  rw [State.bay, State.frame_modFrame s _ hf]
  by_cases hframe : k / 4 = n / 4
  · rw [if_pos hframe]
    by_cases hk : k = n
    · subst hk
      simp [State.bay, modAt_eq_modify, List.getD_eq_getElem?_getD, hb]
    · have hplace : n % 4 ≠ k % 4 := by omega
      simp [State.bay, modAt_eq_modify, List.getD_eq_getElem?_getD, hk, hplace, hframe]
  · rw [if_neg hframe, if_neg (fun h => hframe (by rw [h])), State.bay]

theorem State.bay_modBay_self {n : Nat} (g : Bay → Bay) (hf : n / 4 < s.frames.length) (hb : n % 4 < (s.frame (n / 4)).bays.length) :
    (s.modBay n g).bay n = g (s.bay n) := by
  rw [State.bay_modBay s g hf hb, if_pos rfl]

end

/-! ### Entries of fault queues -/

section
variable (s : State)

@[simp] theorem State.faultEntry_queues (fn : Nat) (w : List Nat) : (s.faultEntry fn w).queues = s.queues := by
  unfold State.faultEntry
  dsimp only
  split <;> simp

@[simp] theorem State.engineTo_queues (fn : Nat) (c : BitVec 16) (cause detail count addr tpc : Nat) :
    (s.engineTo fn c cause detail count addr tpc).queues = s.queues := s.faultEntry_queues ..

end

/-! ### Steps -/

theorem event_some (name : String) {o : Option State} {t : State} (h : o = some t) : event name o = .next t := by
  rw [h]
  rfl

/-- A step that nothing bars comes about. -/
theorem event_unbarred (name : String) {barred : Bool} (t : State) (h : barred = false) :
    event name (if barred then none else some t) = .next t := by
  rw [h]
  rfl

end Sys2Proof.Machine
end

