-- ==== Sys2Proof/Proofs/MailboxSteps.lean ====
section
/-!
The commands of the mailbox and the invalidations of the TLBs, each as an equation where its condition holds (17 R352, R355, R356, 14 R298).
-/
namespace Sys2Proof.Machine

variable {s : State} {fn : Nat}

/-! ### What gives access -/

theorem State.hostAt_iff : s.hostAt fn = true ↔ s.rails = true ∧ s.linkUp = true ∧ fn < 32 := by
  simp [State.hostAt, and_assoc]

/-- The code of the mailbox command that a function has in flight. -/
def State.mailCode (s : State) (fn : Nat) : Option Nat := if (s.fn fn).mbBusy then some (fieldAt (s.fn fn).mbcmd 0 2) else none

theorem State.mailCode_eq_some {k : Nat} : s.mailCode fn = some k ↔ (s.fn fn).mbBusy = true ∧ s.operand fn 0 2 = k := by
  simp [State.mailCode, State.operand]

theorem State.mailbox_of_mailCode {k : Nat} (h : s.hostAt fn = true) (hk : s.mailCode fn = some k) : s.mailbox fn k = true := by
  obtain ⟨hrails, -, hfn⟩ := State.hostAt_iff.mp h
  obtain ⟨hbusy, hcode⟩ := State.mailCode_eq_some.mp hk
  simp [State.mailbox, hrails, hfn, hbusy, hcode]

/-! ### What the end of a command leaves alone -/

@[simp] theorem State.interrupt_ctxs (vs : List Nat) : (s.interrupt fn vs).ctxs = s.ctxs := by
  unfold State.interrupt
  split <;> rfl

@[simp] theorem State.mailDone_ctxs (result : Nat) (out : List Byte) : (s.mailDone fn result out).ctxs = s.ctxs := by
  simp [State.mailDone]

/-! ### The commands -/

/-- A context added at the end, of an identifier that no other has, is the one found by it. -/
theorem State.ctx?_of_added {t : State} {c : Ctx} (ht : t.ctxs = s.ctxs ++ [c]) (hnew : ∀ d ∈ s.ctxs, d.ctxid ≠ c.ctxid) :
    t.ctx? c.ctxid = some c := by
  have hold : s.ctxs.find? (·.ctxid == c.ctxid) = none := by simpa [List.find?_eq_none] using hnew
  simp [State.ctx?, ht, List.find?_append, hold]

/-- The context that a CTX.CREATE with these operands creates (17 R355). -/
def State.created (s : State) (fn w : Nat) (id : BitVec 16) : Ctx :=
  let o := s.operand fn
  { ctxid := id, fn := fn, window := w, root := BitVec.ofNat 64 (o 8 8), dsbase := BitVec.ofNat 64 (o 16 8)
    savebase := BitVec.ofNat 64 (o 24 8), savesz := BitVec.ofNat 64 (o 32 8), saveva := BitVec.ofNat 64 (o 48 8)
    podgrp := BitVec.ofNat 16 (o 40 2), reach := BitVec.ofNat 8 (if o 42 1 == 0 then 255 else o 42 1), frames := s.reached (o 42 1)
    features := featureWord, vmap := vmapOf (BitVec.ofNat 32 (o 44 4)), tabA := List.replicate 256 0, tabB := List.replicate 256 0 }

theorem execCtxCreate_eq {id : BitVec 16} {w : Nat} (hm : s.mailbox fn 1 = true) (hsync : s.synced = true) (hok : s.createOk fn = true)
    (hgrp : s.operand fn 40 2 = 0) (hw : s.freeWindow fn = some w) (hlen : s.ctxs.length < 256) (hid : id ≠ 0)
    (hnew : ∀ c ∈ s.ctxs, c.ctxid ≠ id) :
    execCtxCreate fn id s = .next (({ s with ctxs := s.ctxs ++ [s.created fn w id] } : State).mailDone fn 0
      (leBytes 2 id.toNat ++ leBytes 2 w ++ leBytes 4 0 ++ leBytes 8 featureWord.toNat)) := by
  have hfree : (BitVec.ofNat 16 (s.operand fn 40 2) != 0) = false := by rw [hgrp]; rfl
  have hnone : (id == 0 || s.ctxs.any (·.ctxid == id)) = false := by
    rw [beq_eq_false_iff_ne.mpr hid, Bool.false_or, List.any_eq_false]
    simpa using hnew
  simp only [execCtxCreate, event_next, hm, hsync, hok, hfree, hw, hnone, if_neg (Nat.not_le.mpr hlen), Bool.not_true, Bool.or_self,
    Bool.false_and, Bool.false_eq_true, if_false]
  rfl

theorem vmapOf_ofNat (n : Nat) : vmapOf (BitVec.ofNat 32 n) = BitVec.ofNat 32 (n % 65536) := by
  apply BitVec.eq_of_toNat_eq
  simp [vmapOf]

theorem execCtxDestroy_eq (hm : s.mailbox fn 2 = true) :
    execCtxDestroy fn s = .next (match s.ctxOfFn fn (BitVec.ofNat 16 (s.operand fn 8 2)) with
      | none => s.mailDone fn 0x10 []
      | some _ => (s.endContext (BitVec.ofNat 16 (s.operand fn 8 2))).mailDone fn 0 []) := by
  cases hc : s.ctxOfFn fn (BitVec.ofNat 16 (s.operand fn 8 2)) <;> simp [execCtxDestroy, event_next, hm, hc]

theorem execCapSet_eq (hm : s.mailbox fn 3 = true) :
    execCapSet fn s = .next (if fn = 0 then
      (s.applyCap (BitVec.ofNat 128 (s.operand fn 8 16))).1.mailDone fn (s.applyCap (BitVec.ofNat 128 (s.operand fn 8 16))).2 []
      else s.mailDone fn 0x13 []) := by
  unfold execCapSet
  by_cases hf : fn = 0
  · subst hf
    simp [event_next, hm]
  · simp [event_next, hm, hf]

theorem execStepRead_eq (hm : s.mailbox fn 4 = true) :
    execStepRead fn s = .next (match s.records[s.operand fn 8 4]? with
      | none => s.mailDone fn 0x10 []
      | some r => s.mailDone fn 0 r.bytes) := by
  cases hr : s.records[s.operand fn 8 4]? <;> simp [execStepRead, event_next, hm, hr]

/-- The moved context is of a pod group and its target is named: whether it moves is whether the target's features cover its own. -/
theorem execCtxMove_named {c : Ctx} {v : BitVec 64} (hm : s.mailbox fn 5 = true)
    (hc : s.ctxOfFn fn (BitVec.ofNat 16 (s.operand fn 8 2)) = some c) (hp : c.podgrp ≠ 0) (hmod : s.operand fn 10 2 < 1024)
    (hid : s.operand fn 12 2 ≠ 0) :
    execCtxMove fn (some v) s = .next (if covers c.features v then
      (s.modCtx (BitVec.ofNat 16 (s.operand fn 8 2)) fun c => { c with
        movedTo := some (BitVec.ofNat 10 (s.operand fn 10 2), BitVec.ofNat 16 (s.operand fn 12 2)) }).mailDone fn 0 []
      else s.mailDone fn 0x12 []) := by
  have hp' : c.podgrp ≠ 0#16 := hp
  cases hv : covers c.features v <;> simp [execCtxMove, event_next, hm, hc, hp', Nat.not_le.mpr hmod, hid, hv]

theorem execMailboxUnassignedCode_eq {k : Nat} (hm : s.mailbox fn k = true) (hop : s.operand fn 0 2 = k) (hk : k = 0 ∨ 5 < k) :
    execMailboxUnassignedCode fn s = .next (s.mailDone fn 0x10 []) := by
  have hout : ¬ (1 ≤ k ∧ k ≤ 5) := by omega
  simp [execMailboxUnassignedCode, event_next, hop, hm]
  omega

/-! ### Invalidations of the TLBs (14 R298) -/

theorem execTlbInvalidate_eq {v : BitVec 64} (h : s.hostAt fn = true) (hbusy : (s.fn fn).tibusy = none)
    (hc : s.ctxOfFn fn (v.extractLsb' 0 16) ≠ none) (hn : v.extractLsb' 16 32 ≠ 0) :
    execTlbInvalidate fn v s = .next (s.modFn fn fun f => { f with tiErr := false, tibusy := some {
      ctx := v.extractLsb' 0 16, base := f.tibase.toNat / 65536 % 2 ^ 32 * 65536, pages := (v.extractLsb' 16 32).toNat } }) := by
  have hgood : ((s.ctxOfFn fn (v.extractLsb' 0 16)).isNone || (v.extractLsb' 16 32).toNat == 0) = false := by
    rw [Option.isNone_eq_false_iff.mpr (Option.isSome_iff_ne_none.mpr hc), Bool.false_or, beq_eq_false_iff_ne]
    exact fun h0 => hn (BitVec.eq_of_toNat_eq h0)
  simp only [execTlbInvalidate, event_next, h, hbusy, hgood, bits, Nat.shiftRight_eq_div_pow]
  rfl

theorem execTlbInvalidateComplete_eq {t : Tlbinv} (ht : (s.fn fn).tibusy = some t)
    (hpins : ∀ f ∈ s.frames, ∀ p ∈ f.pins, t.meets p.ctx p.base p.size = false) :
    execTlbInvalidateComplete fn s
      = .next ({ s with tlb := s.tlb.filter fun e => !t.meets e.ctx e.base e.size }.modFn fn fun f => { f with tibusy := none }) := by
  have hnone : (s.frames.any fun f => f.pins.any fun p => t.meets p.ctx p.base p.size) = false := by simpa using hpins
  simp [execTlbInvalidateComplete, event_next, ht, hnone]

/-- Settles O58: each command of the mailbox completes with its result, and an invalidation runs while a page of its range is pinned. -/
theorem mailboxStepsComplete : Obligations.MailboxStepsComplete := by
  intro s fn id v h code
  have hmail : ∀ {k : Nat}, code = some k → s.mailbox fn k = true := fun hk => State.mailbox_of_mailCode h hk
  refine ⟨fun w hk hsync hok hgrp hw hlen hid hnew => ?create, fun hk => ?destroy, fun hk => ?cap, fun hk => ?step,
    fun c hk hc hp hmod hthere => ?move, fun k hk hout => ?unassigned, fun hbusy hc hn => ?invalidate, fun t ht hpins => ?complete⟩
  case create =>
    refine ⟨_, _, execCtxCreate_eq (hmail hk) hsync hok hgrp hw hlen hid hnew,
      State.ctx?_of_added (c := s.created fn w id) (State.mailDone_ctxs ..) hnew, rfl, rfl, rfl, rfl, rfl, ?_, rfl, vmapOf_ofNat _⟩
    exact congrArg (BitVec.ofNat 16) hgrp
  case destroy => exact execCtxDestroy_eq (hmail hk)
  case cap => exact execCapSet_eq (hmail hk)
  case step => exact execStepRead_eq (hmail hk)
  case move => exact execCtxMove_named (hmail hk) hc hp hmod hthere
  case unassigned => exact execMailboxUnassignedCode_eq (hmail hk) (State.mailCode_eq_some.mp hk).2 hout
  case invalidate => exact execTlbInvalidate_eq h hbusy hc hn
  case complete => exact execTlbInvalidateComplete_eq ht hpins

end Sys2Proof.Machine
end

