-- ==== Sys2Proof/Proofs/RegisterSteps.lean ====
section
/-!
Writes of the host's registers, AtomicOps on device memory, the reads that clear, and FRESUME, each as an equation where its condition holds
(13 R276, 16 R337, R343, 17 R354, R357, 21 R373, R380, R383, 26 R458).
-/
namespace Sys2Proof.Machine

variable {s : State} {fn q bay win off : Nat}

/-! ### Queues (13 R276, 17 R357) -/

theorem execQcfgWrite_enabled {v : BitVec 32} (h : s.hostAt fn = true) (hq : q < 1024) (ho : (s.queue q).owner = some fn)
    (he : (s.queue q).en = true) :
    execQcfgWrite fn q v s = .next (if v.getLsbD 8 then s
      else { s.modQueue q fun x => { x with en := false } with mapped := s.mapped.filter (·.2 != q) }) := by
  simp [execQcfgWrite, event_next, h, Nat.not_le.mpr hq, ho, he]

/-- A queue with the fields of a QCFG value. -/
def Queue.withFields (x : Queue) (v : BitVec 32) : Queue :=
  { x with ctx := v.extractLsb' 16 16, maxr := v.extractLsb' 5 3, size := v.extractLsb' 0 5 }

/-- A queue newly enabled: its ring is empty (13 R276). -/
def Queue.enabled (x : Queue) : Queue := { x with en := true, head := 0, tail := 0, notified := [] }

/-- A field of the QCFG value, or the base of the queue, keeps the queue from being enabled. -/
def State.barsEnable (s : State) (fn q : Nat) (v : BitVec 32) : Bool :=
  let size := v.extractLsb' 0 5
  size == 0 || 20 < size.toNat || (s.queue q).base.toNat % 64 != 0 || (s.ctxOfFn fn (v.extractLsb' 16 16)).isNone

theorem State.barsEnable_eq_false {v : BitVec 32} : s.barsEnable fn q v = false ↔
    1 ≤ (v.extractLsb' 0 5).toNat ∧ (v.extractLsb' 0 5).toNat ≤ 20 ∧ (s.queue q).base.toNat % 64 = 0
      ∧ (s.ctxOfFn fn (v.extractLsb' 16 16)).isSome = true := by
  have hsize : 1 ≤ (v.extractLsb' 0 5).toNat ↔ v.extractLsb' 0 5 ≠ 0 := by
    rw [Nat.one_le_iff_ne_zero, ne_eq, ne_eq, ← BitVec.toNat_inj]
    rfl
  rw [hsize]
  simp [State.barsEnable, and_assoc]

/-- The write of QCFG to a disabled queue: it takes the fields, and is enabled if EN is set and nothing keeps it from that. -/
theorem execQcfgWrite_disabled {v : BitVec 32} (h : s.hostAt fn = true) (hq : q < 1024) (ho : (s.queue q).owner = some fn)
    (he : (s.queue q).en = false) :
    execQcfgWrite fn q v s = .next (
      let t := s.modQueue q (·.withFields v)
      if v.getLsbD 8 = false then t
      else if s.barsEnable fn q v then t.engineTo fn (v.extractLsb' 16 16) 0x3A (q % 256) 1 (groupAt q) 0
      else { t with launches := t.launches.map fun r : LaunchReq => if r.queue == some q then { r with stale := true } else r }.modQueue q
        Queue.enabled) := by
  have hq' : decide (1024 ≤ q) = false := decide_eq_false (Nat.not_le.mpr hq)
  simp only [execQcfgWrite, event_next, h, hq', ho, he, bne_self_eq_false, Bool.not_true, Bool.or_self, Bool.false_eq_true, if_false]
  cases v.getLsbD 8
  case false => rfl
  case true =>
    cases hbar : s.barsEnable fn q v
    case false => exact if_neg (Bool.eq_false_iff.mp hbar)
    case true => exact if_pos hbar

/-- The queue after a write of QCFG while it was disabled. -/
theorem queue_of_qcfgWrite {v : BitVec 32} (h : s.hostAt fn = true) (hq : q < 1024) (ho : (s.queue q).owner = some fn)
    (he : (s.queue q).en = false) :
    ∃ t, execQcfgWrite fn q v s = .next t ∧ t.queue q =
      if v.getLsbD 8 = true ∧ s.barsEnable fn q v = false
      then ((s.queue q).withFields v).enabled else (s.queue q).withFields v := by
  refine ⟨_, execQcfgWrite_disabled h hq ho he, ?_⟩
  have hengine (t : State) (c : BitVec 16) (cause detail count addr tpc : Nat) : (t.engineTo fn c cause detail count addr tpc).queue q = t.queue q := by
    rw [State.queue, State.engineTo_queues, State.queue]
  have hfields : (s.modQueue q (·.withFields v)).queue q = (s.queue q).withFields v := State.queue_modQueue_self ..
  cases v.getLsbD 8
  case false => exact hfields
  case true =>
    cases s.barsEnable fn q v
    case false => exact (State.queue_modQueue_self _ _ Queue.enabled).trans (congrArg Queue.enabled hfields)
    case true => exact (hengine ..).trans hfields

theorem execQownWrite_virtual {v : BitVec 8} (h : s.hostAt fn = true) (hq : q < 1024) (hf : fn ≠ 0) : execQownWrite fn q v s = .next s := by
  simp [execQownWrite, event_next, h, Nat.not_le.mpr hq, hf]

theorem execQownWrite_physical {v : BitVec 8} (h : s.hostAt fn = true) (hq : q < 1024) (hf : fn = 0) :
    ∃ t, execQownWrite fn q v s = .next t ∧ (t.queue q).own = v &&& 0x9F := by
  subst hf
  refine ⟨_, by simp [execQownWrite, event_next, h, Nat.not_le.mpr hq]; rfl, ?_⟩
  simp

/-! ### Fault queues, MODSET and the energy counters (21 R373, 17 R357, 16 R343) -/

theorem execFqcfgWrite_eq {v : BitVec 32} (h : s.hostAt fn = true) :
    execFqcfgWrite fn v s = .next (s.modFn fn fun f =>
      if f.fqEn then { f with fqEn := v.getLsbD 8 }
      else { f with fqSize := v.extractLsb' 0 5, fqEn := v.getLsbD 8 && decide (4 ≤ (v.extractLsb' 0 5).toNat)
                      && decide ((v.extractLsb' 0 5).toNat ≤ 16) && (f.fqbase.toNat % 64 == 0) }) := by
  simp only [execFqcfgWrite, event_next, h, Bool.not_true, Bool.false_eq_true, if_false, Bool.and_assoc]

theorem execModsetWrite_eq {v : BitVec 32} (h : s.hostAt fn = true) :
    execModsetWrite fn v s = .next (if fn = 0 ∧ s.uaen = 0 then { s with modid := v.extractLsb' 0 10 } else s) := by
  simp only [execModsetWrite, event_next, h]
  by_cases hf : fn = 0
  · by_cases hu : s.uaen = 0#8 <;> simp [hf, hu]
  · simp [hf]

theorem execEstWrite_eq {v : BitVec 32} {c : Ctx} (h : s.hostAt fn = true) (hw : win < 256) (hc : s.ctxAt fn win = some c) :
    execEstWrite fn win v s = .next (s.modCtx c.ctxid fun c =>
      { c with
        est := c.est &&& ~~~(v.extractLsb' 0 2)
        edyn := if v.getLsbD 0 then 0 else c.edyn
        estat := if v.getLsbD 1 then 0 else c.estat }) := by
  simp [execEstWrite, event_next, h, Nat.not_le.mpr hw, hc]

/-! ### Reads that clear (16 R337, 21 R373) -/

/-- DRPTH of a bay reads as its fields, and as zero to a virtual function. -/
theorem State.barRead_drpth (hb : bay < 32) : s.barRead fn (0x1F8000 + 4 * bay) 4 = BitVec.ofNat 64 (if fn = 0 then
    (s.bay bay).drpMv.toNat + 65536 * (s.bay bay).drpCnt.toNat + 2 ^ 31 * (s.bay bay).drpEn.toNat else 0) := by
  have hsub : 0x1F8000 + 4 * bay - 0x1F8000 = 4 * bay := by omega
  have hmanaged : s.managed (4 * bay)
      = (s.bay bay).drpMv.toNat + 65536 * (s.bay bay).drpCnt.toNat + 2 ^ 31 * (s.bay bay).drpEn.toNat := by
    simp [State.managed, show 4 * bay < 0x80 by omega]
  rw [State.barRead, if_neg (by unfold bar4; omega), if_neg (by omega), if_neg (by omega), if_neg (by simp; omega), if_pos (by omega), hsub,
    hmanaged]
  simp only [beq_iff_eq]

theorem execDrpthRead_eq (h : s.hostAt fn = true) (hb : bay < 32) :
    let t := fun (v : Nat) => ({ s with completions := (fn, 0x1F8000 + 4 * bay, BitVec.ofNat 64 v) :: s.completions } : State)
    execDrpthRead fn bay s = .next (if fn = 0 then
      (t ((s.bay bay).drpMv.toNat + 65536 * (s.bay bay).drpCnt.toNat + 2 ^ 31 * (s.bay bay).drpEn.toNat)).modBay bay fun y =>
        { y with drpCnt := 0 } else t 0) := by
  simp only [execDrpthRead, event_next, h, State.barRead_drpth hb]
  by_cases hf : fn = 0 <;> simp [hf, hb, State.complete]

theorem State.barRead_fqlost : s.barRead fn 0x1F2014 4 = BitVec.ofNat 64 (s.fn fn).fqlost.toNat := by
  simp [State.barRead, bar4, Fn.read]

theorem execFqlostRead_eq (h : s.hostAt fn = true) :
    execFqlostRead fn s = .next (({ s with completions := (fn, 0x1F2014, BitVec.ofNat 64 (s.fn fn).fqlost.toNat) :: s.completions } : State).modFn
      fn fun f => { f with fqlost := 0 }) := by
  simp only [execFqlostRead, event_next, h, State.barRead_fqlost]
  rfl

/-! ### Other writes, AtomicOps and FRESUME (17 R350, 21 R380, R383) -/

theorem execRegisterWrite_write {n : Nat} {v : BitVec 64} (h : s.hostAt fn = true) :
    execRegisterWrite fn off (.write n v) s = .next (s.barWrite fn off v n) := by
  simp [execRegisterWrite, event_next, h]

/-- An AtomicOp through BAR4 is performed with its operation and operands. -/
theorem execRegisterWrite_atomic {wd : Bool} {v cmp : BitVec 64} (h : s.hostAt fn = true) (hlo : bar4 ≤ off) (hhi : off < grants) :
    execRegisterWrite fn off (.fetchAdd wd v) s = .next (s.hostAtomic fn (off - bar4) .add wd v 0)
    ∧ execRegisterWrite fn off (.swap wd v) s = .next (s.hostAtomic fn (off - bar4) .exch wd v 0)
    ∧ execRegisterWrite fn off (.cas wd v cmp) s = .next (s.hostAtomic fn (off - bar4) .cas wd v cmp) := by
  simp [execRegisterWrite, event_next, h, hlo, hhi]

/-- FRESUME of the freeze of the board that stands in the slot named: it counts while the FRID is still the freeze's and no ERET has it. -/
theorem execFresume_eq {v : BitVec 64} {c : Ctx} {b : Board} {f : Freeze} (h : s.hostAt fn = true) (hw : win < 256)
    (hc : s.ctxAt fn win = some c)
    (hb : s.allBoards.find? (fun b => b.env.ctx == c.ctxid && b.slotIdx == v.toNat % 2 ^ 14 && b.frozen.isSome) = some b)
    (hf : b.frozen = some f) :
    execFresume fn win v s = .next
      (if f.frid = v.extractLsb' 32 32 ∧ s.eretTaken b = false then s.restore b f (v.toNat >>> 16 % 2 ^ 8) 2 else s) := by
  simp only [execFresume, event_next, h, decide_eq_false (Nat.not_le.mpr hw), hc, bits, Nat.shiftRight_zero, hb, hf]
  by_cases hfrid : f.frid = v.extractLsb' 32 32 <;> cases s.eretTaken b <;> simp [hfrid]

/-- Settles O59: each write, read and FRESUME of the host by the registers that it names. -/
theorem registerStepsComplete : Obligations.RegisterStepsComplete := by
  intro s fn q bay win off n v v8 v64 cmp wd h
  refine ⟨fun hq ho he => ?enabled, fun hq ho he => ?disabled, ?fqcfg, fun hq hf => ?foreign, fun hq hf => ?own, ?modset,
    fun c hw hc => ?est, fun hb => ?drpth, ?fqlost, ?write, fun hlo hhi => ?atomic, fun c b f hw hc hb hf => ?fresume⟩
  case enabled => exact execQcfgWrite_enabled h hq ho he
  case disabled =>
    obtain ⟨t, ht, hqueue⟩ := queue_of_qcfgWrite (v := v) h hq ho he
    refine ⟨t, ht, ?_⟩
    rw [hqueue, ← State.barsEnable_eq_false]
    by_cases hen : v.getLsbD 8 = true ∧ s.barsEnable fn q v = false
    · rw [if_pos hen]
      exact ⟨rfl, rfl, rfl, iff_of_true rfl hen, fun _ => ⟨rfl, rfl⟩⟩
    · rw [if_neg hen]
      have hoff : ¬ ((s.queue q).withFields v).en = true := Bool.eq_false_iff.mp he
      exact ⟨rfl, rfl, rfl, iff_of_false hoff hen, fun hon => absurd hon hoff⟩
  case fqcfg => exact execFqcfgWrite_eq h
  case foreign => exact execQownWrite_virtual h hq hf
  case own => exact execQownWrite_physical h hq hf
  case modset => exact execModsetWrite_eq h
  case est => exact execEstWrite_eq h hw hc
  case drpth => exact execDrpthRead_eq h hb
  case fqlost => exact execFqlostRead_eq h
  case write => exact execRegisterWrite_write h
  case atomic => exact execRegisterWrite_atomic h hlo hhi
  case fresume => exact execFresume_eq h hw hc hb hf

end Sys2Proof.Machine
end

