-- ==== Sys2Proof/Proofs/ResetAndLinkSteps.lean ====
section
/-!
Resets, the host link, the sideband port and power: each step as an equation where its condition holds, and a start in which nothing fails
(17 R358 to R361, 26 R450, R453 to R457).
-/
namespace Sys2Proof.Machine

variable {s : State}

/-! ### Resets and the host link (26 R453 to R455) -/

theorem execFunctionLevelReset_eq {fn : Nat} (h : s.hostAt fn = true) (hfn : fn ≠ 0) :
    execFunctionLevelReset fn s = .next ((s.clearFn fn).1.deviceEntry 0x88 fn (s.clearFn fn).2) := by
  simp [execFunctionLevelReset, event_next, h, hfn]

theorem execPfFunctionLevelReset_eq (h : s.hostAt 0 = true) : execPfFunctionLevelReset s = .next s.resetAll := by
  simp [execPfFunctionLevelReset, event_next, h]

theorem execSurpriseLinkLoss_keeps (hr : s.rails = true) (hl : s.linkUp = true) :
    ∃ t, execSurpriseLinkLoss s = .next t ∧ t.linkUp = false ∧ t.linkLost = some s.now ∧ t.mem = s.mem :=
  ⟨_, event_unbarred _ _ (by rw [hr, hl]; rfl), rfl, rfl, rfl⟩

theorem execLinkLossTimeout_eq {t : Nat} (ht : s.linkLost = some t) (hup : s.linkUp = false) (hreset : s.linkReset = false)
    (h : t + 10000000 ≤ s.now) : execLinkLossTimeout s = .next { s.resetAll with linkReset := true } := by
  unfold execLinkLossTimeout
  rw [ht]
  exact event_unbarred _ _ (by rw [hup, hreset, decide_eq_false (Nat.not_lt.mpr h)]; rfl)

theorem execLinkRetrain_eq {t : Nat} (ht : s.linkLost = some t) (hup : s.linkUp = false) (hr : s.rails = true) (h : s.now < t + 10000000) :
    execLinkRetrain s = .next
      ({ s with linkUp := true, linkLost := none, linkReset := false }.deviceEntry 0x89 0 (min 65535 ((s.now - t) / 1000000))) := by
  unfold execLinkRetrain
  rw [ht]
  exact event_unbarred _ _ (by rw [hup, hr, decide_eq_false (Nat.not_le.mpr h)]; rfl)

/-! ### The sideband port (26 R450, R456) -/

theorem execSidebandStatus_length (s : State) :
    ∃ l, execSidebandStatus s = .next { s with sideband := l :: s.sideband } ∧ l.length = 3 + s.frames.length := by
  refine ⟨_, rfl, ?_⟩
  simp only [List.length_append, List.length_map, List.length_cons, List.length_nil]
  omega

theorem State.applyCap_code_lt (m : BitVec 128) : (s.applyCap m).2 < 256 := by
  unfold State.applyCap
  dsimp only
  split
  · exact (by decide : 2 < 256)
  · split
    · exact (by decide : 1 < 256)
    · exact (by decide : 0 < 256)

theorem execSidebandCap_reply (m : BitVec 128) (h : s.ctrl = true) :
    ∃ r k, execSidebandCap m s = .next { r with sideband := [k] :: r.sideband } ∧ (r, k.toNat) = s.applyCap m := by
  refine ⟨(s.applyCap m).1, BitVec.ofNat 8 (s.applyCap m).2, ?_, ?_⟩
  · exact event_unbarred _ _ (by rw [h]; rfl)
  · rw [BitVec.toNat_ofNat, Nat.mod_eq_of_lt (State.applyCap_code_lt m)]

theorem execSidebandStepRead_eq (idx : Nat) (h : s.ctrl = true) :
    execSidebandStepRead idx s = .next { s with sideband := ((s.records[idx]?).map StepRec.bytes).getD [] :: s.sideband } :=
  event_unbarred _ _ (by rw [h]; rfl)

theorem execLogRead_eq (idx : Nat) (h : s.ctrl = true) :
    execLogRead idx s = .next { s with sideband := (s.devLog[idx]?).getD [] :: s.sideband } :=
  event_unbarred _ _ (by rw [h]; rfl)

theorem execFuncReset_eq (h : s.ctrl = true) : execFuncReset s = .next ((if s.rails then s.resetAll else s).reply [0]) :=
  event_unbarred _ _ (by rw [h]; rfl)

theorem execCapseqClear_eq (h : s.ctrl = true) : execCapseqClear s = .next { s with capSeq := 0, sideband := [0] :: s.sideband } :=
  event_unbarred _ _ (by rw [h]; rfl)

theorem execFirmwareUpdate_eq (h : s.ctrl = true) :
    ∃ lo hi c d, execFirmwareUpdate s
      = .next { s.free.free with records := [], fwCtrl := c, fwCores := d, tmig := lo, tcap := hi } :=
  ⟨_, _, _, _, event_unbarred _ _ (by rw [h]; rfl)⟩

theorem execModuleReset_eq (h : s.ctrl = true) : execModuleReset s = .next (s.dark.reply [0]) :=
  event_unbarred _ _ (by rw [h]; rfl)

theorem execFrameHung_eq {f : Nat} (hr : s.rails = true) (hf : f < 8) (hin : (s.frame f).inService = true) (hh : (s.frame f).hung = false) :
    execFrameHung f s = .next ((s.modFrame f fun x => { x with hung := true }).deviceEntry 0x8A f 0) := by
  simp [execFrameHung, event_next, hr, Nat.not_le.mpr hf, hin, hh]

theorem execMainRailsOff_eq (hr : s.rails = true) : execMainRailsOff s = .next s.dark :=
  event_unbarred _ _ (by rw [hr]; rfl)

/-! ### Steps of a start that does not fail (17 R359, R361) -/

/-- Records of steps that passed by their primary method. -/
def allPassed (recs : List StepRec) : Prop := ∀ r ∈ recs, r.out = 0 ∧ r.meth = 0

theorem keepRecs_subset (n : Nat) (l : List StepRec) : keepRecs n l ⊆ l := by
  induction l generalizing n with
  | nil => simp [keepRecs]
  | cons r t ih =>
    unfold keepRecs
    split
    · exact List.cons_subset_cons r (ih n)
    · cases n with
      | zero => exact List.subset_cons_of_subset r (ih 0)
      | succ n => exact List.cons_subset_cons r (ih n)

theorem allPassed_addRec {fails : List StepFail} {r : StepRec} {recs : List StepRec} (h : allPassed recs) (hr : r.out = 0 ∧ r.meth = 0) :
    allPassed (addRec fails r recs) := by
  intro x hx
  rcases List.mem_cons.mp (keepRecs_subset _ _ hx) with rfl | hmem
  · exact hr
  · exact h x hmem

theorem methodOf_allPassed {recs : List StepRec} (h : allPassed recs) (step : Nat) (unit : BitVec 8) : methodOf recs step unit = some false := by
  unfold methodOf
  split
  case h_1 => rfl
  case h_2 r hr =>
    obtain ⟨hout, hmeth⟩ := h r (List.mem_of_find?_eq_some hr)
    simp [hout, hmeth]

/-- What a run of steps is when nothing fails: it passes, and by the primary method. -/
def StepRun.clean (r : StepRun) : Prop := allPassed r.recs ∧ r.passed = true ∧ r.alternate = false

theorem runMethod_nil (start : Word) (recs : List StepRec) (step : Nat) (unit : BitVec 8) (alt : Bool) :
    runMethod [] start recs step unit alt =
      { recs := addRec [] { start := start, step := BitVec.ofNat 8 step, unit := unit, out := 0, meth := bit alt, code := 0 } recs
        passed := true, alternate := alt } := rfl

theorem clean_runStep {recs : List StepRec} (h : allPassed recs) (start : Word) (step : Nat) (unit : BitVec 8) :
    (runStep [] start recs step unit).clean := by
  have hrun : runStep [] start recs step unit = runMethod [] start recs step unit false := by rw [runStep, methodOf_allPassed h]
  rw [hrun, runMethod_nil]
  dsimp only [StepRun.clean]
  exact ⟨allPassed_addRec h ⟨rfl, rfl⟩, rfl, rfl⟩

theorem clean_runUnits (start : Word) (step : Nat) (us : List (BitVec 8)) {recs : List StepRec} (h : allPassed recs) :
    (runUnits [] start step recs us).clean := by
  induction us generalizing recs with
  | nil => exact ⟨h, rfl, rfl⟩
  | cons u t ih =>
    obtain ⟨hrecs, hpass, halt⟩ := clean_runStep h start step u
    obtain ⟨hrecs', hpass', halt'⟩ := ih hrecs
    refine ⟨hrecs', ?_, ?_⟩
    · simp [runUnits, hpass, hpass']
    · simp [runUnits, halt, halt']

theorem runFrame_passes {recs : List StepRec} (h : allPassed recs) (start : Word) (f : Nat) :
    allPassed (runFrame [] start recs f).1 ∧ (runFrame [] start recs f).2 = (true, []) := by
  obtain ⟨ha, hpa, -⟩ := clean_runStep h start 2 (BitVec.ofNat 8 (16 * f + 0))
  obtain ⟨hb, hpb, -⟩ := clean_runUnits start 3 [BitVec.ofNat 8 (16 * f + 0), BitVec.ofNat 8 (16 * f + 1)] ha
  obtain ⟨hc, hpc, hac⟩ := clean_runStep hb start 4 (BitVec.ofNat 8 (16 * f + 0))
  obtain ⟨hd, hpd, had⟩ := clean_runStep hc start 4 (BitVec.ofNat 8 (16 * f + 1))
  simp only [runFrame, hpa, hpb, hpc, hpd, hac, had]
  exact ⟨hd, rfl⟩

theorem runFrames_passes (start : Word) (fs : List Nat) {recs : List StepRec} (h : allPassed recs) :
    allPassed (runFrames [] start recs fs).1 ∧ (runFrames [] start recs fs).2 = (fs, []) := by
  induction fs generalizing recs with
  | nil => exact ⟨h, rfl⟩
  | cons f t ih =>
    obtain ⟨hrecs, hrun⟩ := runFrame_passes h start f
    obtain ⟨hrecs', hrun'⟩ := ih hrecs
    refine ⟨hrecs', ?_⟩
    simp [runFrames, hrun, hrun']

theorem runHost_passes {recs : List StepRec} (h : allPassed recs) (start : Word) {now : List Nat} (h0 : now.contains 0 = true) :
    allPassed (runHost [] start recs now).1 ∧ (runHost [] start recs now).2 = true := by
  obtain ⟨hrecs, hpass, -⟩ := clean_runStep h start 5 0
  rw [runHost, if_pos h0]
  exact ⟨hrecs, hpass⟩

theorem runStations_planes (start : Word) (fs : List Nat) {recs : List StepRec} (h : allPassed recs) :
    (runStations [] start recs fs).2 = (fs.map (2 ^ ·)).sum := by
  induction fs generalizing recs with
  | nil => rfl
  | cons f t ih =>
    obtain ⟨hrecs, hpass, halt⟩ := clean_runStep h start 6 (BitVec.ofNat 8 (16 * f))
    simp [runStations, hpass, halt, ih hrecs, Nat.add_comm]

theorem State.startFails_nil (h : ∀ r ∈ s.rings, r.link = none) : s.startFails [] = [] := by
  rw [State.startFails, List.nil_append, List.filterMap_eq_nil_iff]
  intro k hk
  have hlt : k < s.rings.length := List.mem_range.mp hk
  rw [List.getD_eq_getElem _ _ hlt, h _ (List.getElem_mem hlt)]
  rfl

/-! ### Power on (17 R359, R360, 26 R457) -/

section
variable (fails : List StepFail) (recs : List StepRec) (now late : List Nat)

/-- What bringing frames into service leaves alone. -/
def State.powered (s : State) : Bool × Bool × Nat × Word := (s.rails, s.ctrl, s.time, s.starts)

theorem State.bringFrames_powered : (s.bringFrames fails recs now late).powered = s.powered :=
  foldl_keeps (P := State.powered) (f := State.retireRing) (fun _ _ => rfl) _ s

theorem State.bringFrames_linkUp : (s.bringFrames fails recs now late).linkUp =
    (s.linkUp || (runHost fails s.starts (runFrames fails s.starts recs now).1 now).2
      && (runFrames fails s.starts recs now).2.1.contains 0) :=
  congrArg (· || _) (foldl_keeps (P := State.linkUp) (f := State.retireRing) (fun _ _ => rfl) _ s)

theorem State.bringFrames_planes : (s.bringFrames fails recs now []).planes =
    BitVec.ofNat 8 (runStations fails s.starts (runHost fails s.starts (runFrames fails s.starts recs now).1 now).1 (List.range 8)).2 := rfl

theorem State.bringFrames_inService {k : Nat} (hk : k < 8) (hnow : now.contains k = true) :
    ((s.bringFrames fails recs now late).frame k).inService =
      ((runFrames fails s.starts recs now).2.1.contains k
        && (k != 0 || (runHost fails s.starts (runFrames fails s.starts recs now).1 now).2)) := by
  unfold State.bringFrames State.frame tab
  dsimp only
  rw [List.getD_eq_getElem _ _ (by simpa using hk), List.getElem_map, List.getElem_range, hnow]
  rfl

theorem State.bringFrames_late : (s.bringFrames fails recs now late).late = late := rfl

/-- The module when the rails are up in a start, before its frames are brought into service. -/
def State.railsOn (s : State) (start : Word) : State := { s with starts := start, rails := true, down := false, time := 0, farDown := [] }

theorem State.bringUp_starts (start : Word) : (s.bringUp fails start recs late).starts = start := by
  unfold State.bringUp
  dsimp only
  split
  · rfl
  · exact congrArg (·.2.2.2) (State.bringFrames_powered fails _ _ ((List.range 8).filter late.contains))

end

theorem execPowerOn_late {fails : List StepFail} {late : List Nat} (h : s.late ≠ []) (hf : ∃ f ∈ s.late, f ∉ late) :
    ∃ t, execPowerOn { fails, late } s = .next t ∧ t.late = s.late.filter late.contains := by
  obtain ⟨f, hmem, hnot⟩ := hf
  have hnow : (s.late.filter fun f => !late.contains f).isEmpty = false := by
    rw [List.isEmpty_eq_false_iff_exists_mem]
    exact ⟨f, List.mem_filter.mpr ⟨hmem, by simpa using hnot⟩⟩
  refine ⟨s.bringFrames (s.startFails fails) s.records (s.late.filter fun f => !late.contains f) (s.late.filter late.contains), ?_,
    State.bringFrames_late ..⟩
  unfold execPowerOn
  dsimp only
  rw [if_pos (by simpa using h)]
  exact event_unbarred _ _ hnow

/-- All frames brought into service at once, none late and none failing. -/
theorem State.bringFrames_all {recs : List StepRec} (h : allPassed recs) :
    (s.bringFrames [] recs (List.range 8) []).linkUp = true ∧ (s.bringFrames [] recs (List.range 8) []).planes = 255
      ∧ ∀ k, k < 8 → ((s.bringFrames [] recs (List.range 8) []).frame k).inService = true := by
  obtain ⟨hrecs, hframes⟩ := runFrames_passes s.starts (List.range 8) h
  obtain ⟨hrecs', hhost⟩ := runHost_passes hrecs s.starts (now := List.range 8) (by decide)
  have hplanes := runStations_planes s.starts (List.range 8) hrecs'
  refine ⟨?_, ?_, fun k hk => ?_⟩
  · rw [State.bringFrames_linkUp, hframes, hhost]
    simp
  · rw [State.bringFrames_planes, hplanes]
    rfl
  · rw [State.bringFrames_inService _ _ _ _ hk (by simpa using hk), hframes, hhost]
    simp [hk]

/-- A start without a failure: rails and link are up, every plane is up, TIME is 0, every frame is in service. -/
theorem State.bringUp_all {recs : List StepRec} (h : allPassed recs) (start : Word) :
    let t := s.bringUp [] start recs []
    t.rails = true ∧ t.ctrl = s.ctrl ∧ t.linkUp = true ∧ t.planes = 255 ∧ t.time = 0 ∧ ∀ k, k < 8 → (t.frame k).inService = true := by
  obtain ⟨hrecs, hpass, -⟩ := clean_runStep h start 1 0
  have hup : s.bringUp [] start recs [] =
      (s.railsOn start).bringFrames [] (runStep [] start recs 1 0).recs (List.range 8) [] := by
    have hnow : ((List.range 8).filter fun f => !([] : List Nat).contains f) = List.range 8 := rfl
    have hlate : (List.range 8).filter ([] : List Nat).contains = [] := rfl
    unfold State.bringUp
    dsimp only
    rw [if_neg (by rw [hpass]; decide), hnow, hlate, State.railsOn]
  have hkeeps := State.bringFrames_powered (s := s.railsOn start) [] (runStep [] start recs 1 0).recs (List.range 8) []
  obtain ⟨hlink, hplanes, hframes⟩ := State.bringFrames_all (s := s.railsOn start) hrecs
  dsimp only
  rw [hup]
  exact ⟨congrArg (·.1) hkeeps, congrArg (·.2.1) hkeeps, hlink, hplanes, congrArg (·.2.2.1) hkeeps, hframes⟩

/-- Step 0 of a start: the primary image of the controller, or the backup image when it fails (17 R359). -/
def controllerRun (fails : List StepFail) (start : Word) (recs : List StepRec) : StepRun :=
  let r := runStep fails start recs 0 0
  if r.passed || r.alternate then r else runMethod fails start r.recs 0 0 true

/-- The module that a start by these failures leaves. -/
def State.started (s : State) (fails : List StepFail) : State :=
  let recs := s.records.filter fun r => !r.held
  let r := controllerRun fails (s.starts + 1) recs
  if s.ctrl then s.bringUp fails (s.starts + 1) recs []
  else if r.passed then { s with ctrl := true }.bringUp fails (s.starts + 1) r.recs []
  else { s with records := r.recs, starts := s.starts + 1, down := true }

theorem execPowerOn_eq (fails : List StepFail) (hr : s.rails = false) (hl : s.late = []) :
    execPowerOn { fails } s = .next (s.started (s.startFails fails)) := by
  unfold execPowerOn State.started
  dsimp only
  rw [if_neg (by simp [hl]), if_neg (by simp [hr])]
  cases s.ctrl
  case true => rfl
  case false =>
    rw [if_neg Bool.false_ne_true, if_neg Bool.false_ne_true]
    by_cases hp : (controllerRun (s.startFails fails) (s.starts + 1) (s.records.filter fun r => !r.held)).passed = true
    · rw [if_pos hp]
      exact congrArg (event "POWER_ON") (if_pos hp)
    · rw [if_neg hp]
      exact congrArg (event "POWER_ON") (if_neg hp)

theorem State.started_starts (fails : List StepFail) : (s.started fails).starts = s.starts + 1 := by
  unfold State.started
  dsimp only
  split
  · exact State.bringUp_starts ..
  · split
    · exact State.bringUp_starts ..
    · rfl

theorem State.started_all (hrecs : s.records = []) :
    let t := s.started []
    t.rails = true ∧ t.ctrl = true ∧ t.linkUp = true ∧ t.planes = 255 ∧ t.time = 0 ∧ ∀ k, k < 8 → (t.frame k).inService = true := by
  have hempty : allPassed (s.records.filter fun r => !r.held) := by simp [hrecs, allPassed]
  dsimp only
  unfold State.started
  dsimp only
  split
  case isTrue hc =>
    obtain ⟨hrails, hctrl, hrest⟩ := State.bringUp_all (s := s) hempty (s.starts + 1)
    exact ⟨hrails, hctrl.trans hc, hrest⟩
  case isFalse =>
    obtain ⟨hrec, hpass, -⟩ := clean_runStep hempty (s.starts + 1) 0 0
    have hrun : controllerRun [] (s.starts + 1) (s.records.filter fun r => !r.held)
        = runStep [] (s.starts + 1) (s.records.filter fun r => !r.held) 0 0 := if_pos (by rw [hpass]; rfl)
    rw [hrun, if_pos hpass]
    exact State.bringUp_all (s := { s with ctrl := true }) hrec (s.starts + 1)

/-- Settles O60: each step is the equation above; a start in which nothing fails passes every step by its primary method. -/
theorem resetLinkAndSidebandStepsComplete : Obligations.ResetLinkAndSidebandStepsComplete := by
  unfold Obligations.ResetLinkAndSidebandStepsComplete
  intro s fn idx f m fails
  refine ⟨fun h hfn => ?flr, fun h => ?pf, fun hr hl => ?loss, fun t ht hup hreset => ⟨fun h => ?timeout, fun hr h => ?retrain⟩, ?status,
    fun hc => ⟨?cap, ?step, ?log, ?func, ?capseq, ?firmware, ?reset⟩, fun hr hf hin hh => ?hung, fun hr => ?rails, fun late h hf => ?late,
    fun hr hl => ?on⟩
  case flr => exact execFunctionLevelReset_eq h hfn
  case pf => exact execPfFunctionLevelReset_eq h
  case loss => exact execSurpriseLinkLoss_keeps hr hl
  case timeout => exact execLinkLossTimeout_eq ht hup hreset h
  case retrain => exact execLinkRetrain_eq ht hup hr h
  case status => exact execSidebandStatus_length s
  case cap => exact execSidebandCap_reply m hc
  case step => exact execSidebandStepRead_eq idx hc
  case log => exact execLogRead_eq idx hc
  case func => exact execFuncReset_eq hc
  case capseq => exact execCapseqClear_eq hc
  case firmware => exact execFirmwareUpdate_eq hc
  case reset => exact ⟨_, execModuleReset_eq hc, rfl, rfl, rfl, rfl, rfl, rfl⟩
  case hung => exact execFrameHung_eq hr hf hin hh
  case rails => exact ⟨_, execMainRailsOff_eq hr, rfl, rfl, rfl, rfl⟩
  case late => exact execPowerOn_late h hf
  case on =>
    refine ⟨_, execPowerOn_eq fails hr hl, State.started_starts _, fun hfails hrecs hlinks => ?_⟩
    rw [hfails, State.startFails_nil hlinks]
    exact State.started_all hrecs

end Sys2Proof.Machine
end

