-- ==== Sys2Proof/Proofs/WorkEntrySteps.lean ====
section
/-!
How work enters: notify writes and the mapper, acceptance of launches, queued blocks, graphs and their nodes, and dependences, each step as an
equation where its condition holds (13 R276 to R287, 25 R421 to R426, 26 R458).
-/
namespace Sys2Proof.Machine

variable {s : State} {id queue : Nat} {r : LaunchReq}

/-! ### Queues and the mapper (13 R276 to R278, R287) -/

theorem execNotifyWrite_enabled {fn : Nat} {v : BitVec 32} (hl : s.linkUp = true) (hq : queue < 1024) (hf : fn < 32)
    (ho : (s.queue queue).owner = some fn) (hv : (v - (s.queue queue).head).toNat ≤ 2 ^ (s.queue queue).size.toNat)
    (he : (s.queue queue).en = true) :
    execNotifyWrite fn queue v s = .next ({ s with nextUid := s.nextUid + 1 }.modQueue queue fun q =>
      { q with tail := v, notified := if v = q.head then [] else q.notified ++ [(v, s.nextUid)] }) := by
  simp only [execNotifyWrite, hl, ho, he, decide_eq_false (Nat.not_le.mpr hq), decide_eq_false (Nat.not_le.mpr hf), if_neg (Nat.not_lt.mpr hv),
    bne_self_eq_false, Bool.not_true, Bool.or_self, Bool.false_eq_true, if_false, beq_iff_eq]
  rfl

theorem execNotifyWrite_disabled {fn : Nat} {v : BitVec 32} (hl : s.linkUp = true) (hq : queue < 1024) (hf : fn < 32)
    (ho : (s.queue queue).owner = some fn) (hv : (v - (s.queue queue).head).toNat ≤ 2 ^ (s.queue queue).size.toNat)
    (he : (s.queue queue).en = false) : execNotifyWrite fn queue v s = .next s := by
  simp only [execNotifyWrite, hl, ho, he, decide_eq_false (Nat.not_le.mpr hq), decide_eq_false (Nat.not_le.mpr hf), if_neg (Nat.not_lt.mpr hv),
    bne_self_eq_false, Bool.not_true, Bool.or_self, Bool.false_eq_true, if_false, Bool.not_false, if_true]
  rfl

theorem execQueueSlotFill_eq {slot : Nat} {w : Nat × Queue} (hw : s.bestWaiting = some w) (hs : slot < 32) (hfree : s.slotQueue slot = none) :
    execQueueSlotFill slot s = .next (s.mapSlot slot w.1) := by
  unfold execQueueSlotFill
  rw [hw]
  exact event_unbarred _ _ (by simp [hfree, hs])

theorem execSliceBoundary_eq {bay : Nat} (hb : bay < 32) (hnew : (s.bay bay).slice < s.now / 200000) :
    ∃ t, execSliceBoundary bay s = .next t ∧ (bay ≠ 0 → t = s.modBay bay fun y => { y with slice := s.now / 200000 }) := by
  refine ⟨_, event_unbarred _ _ ?_, fun h => ?_⟩
  · rw [decide_eq_false (Nat.not_le.mpr hb), decide_eq_false (Nat.not_le.mpr hnew)]
    rfl
  · exact if_neg (by simpa using h)

/-! ### Launches (09 R203, 13 R279, 25 R425) -/

theorem execLaunchAccept_enters {l : List Byte} {b : Block} {k : Kernel} {ds : List Dep} (hr : s.launches.find? (·.id == id) = some r)
    (hready : s.launchReady r = true) (hg : r.graph = false) (htry : s.tryLaunch r = .ok (l, b, k, ds)) (hfit : s.restFits r ds = true) :
    execLaunchAccept id s = .next ((s.addGrid r.ctx b k (s.originOf r) r.cap ds).endLaunch r) := by
  simp [execLaunchAccept, event_next, hr, hready, hg, htry, hfit]

theorem State.waitLaunch_begins {ds : List Dep} (h : r.waiting = none) :
    s.waitLaunch r ds = some { s with launches := s.launches.map fun x =>
      if x.id = r.id then { r with waiting := some s.now, taken := (s.fitting r ds).map fun d => homeFrame d.addr } else x } := by
  simp [State.waitLaunch, h]

theorem execLaunchAccept_waits {l : List Byte} {b : Block} {k : Kernel} {ds : List Dep} (hr : s.launches.find? (·.id == id) = some r)
    (hready : s.launchReady r = true) (hg : r.graph = false) (htry : s.tryLaunch r = .ok (l, b, k, ds)) (hfit : s.restFits r ds = false)
    (hw : r.waiting = none) :
    execLaunchAccept id s = .next { s with launches := s.launches.map fun x =>
      if x.id = r.id then
        { r with bytes := l, waiting := some s.now, taken := (s.fitting { r with bytes := l } ds).map fun d => homeFrame d.addr }
      else x } := by
  unfold execLaunchAccept
  rw [hr]
  refine event_some _ ((if_neg ?_).trans ?_)
  · rw [hg, hready]
    decide
  · rw [htry]
    exact (if_neg (Bool.eq_false_iff.mp hfit)).trans (State.waitLaunch_begins (r := { r with bytes := l }) hw)

theorem execGraphInstanceAccept_eq {t : State} (hr : s.launches.find? (·.id == id) = some r) (hready : s.launchReady r = true)
    (hg : r.graph = true) (htry : s.tryGraph r = .done t) : execGraphInstanceAccept id s = .next (t.endLaunch r) := by
  simp [execGraphInstanceAccept, event_next, hr, hready, hg, htry]

theorem execDependenceWatchTimeout_eq {t : Nat} {l : List Byte} {b : Block} {k : Kernel} {ds : List Dep}
    (hr : s.launches.find? (·.id == id) = some r) (hw : r.waiting = some t) (ht : t + 1000000 ≤ s.now) (hg : r.graph = false)
    (htry : s.tryLaunch r = .ok (l, b, k, ds)) (hfit : s.restFits r ds = false) :
    execDependenceWatchTimeout id s = .next (s.failAccept r { cause := 0x35, detail := (s.fitting r ds).length }) := by
  unfold execDependenceWatchTimeout
  rw [hr, Option.bind_eq_bind, Option.bind_some, hw, Option.bind_eq_bind, Option.bind_some]
  refine event_some _ ((if_neg (Nat.not_lt.mpr ht)).trans ((if_neg (Bool.eq_false_iff.mp hg)).trans ?_))
  rw [htry]
  exact if_neg (Bool.eq_false_iff.mp hfit)

/-! ### Queued blocks (13 R279) -/

theorem execQueueBlockAccept_enters (hp : (s.queue queue).pending = true) (hl : s.linkUp = true)
    (hc : (s.ctx? (s.queue queue).ctx).any (fun c => (s.queue queue).owner == some c.fn) = true) (hm : s.mapped.any (·.2 == queue) = true)
    (hs : ∀ r ∈ s.launches, r.queue = some queue → r.stale = true) {l : List Byte} {b : Block} {k : Kernel} {ds : List Dep}
    (hread : (s.asReader (queueReader queue)).block (s.queue queue).ctx
      ((s.queue queue).base.toNat + 64 * ((s.queue queue).head.toNat % 2 ^ (s.queue queue).size.toNat)) 64 = .ok l)
    (hver : fieldAt l 13 1 ≠ 0) (htry : (s.asReader (queueReader queue)).tryBlock (s.queue queue).ctx .queue l = .ok (b, k, ds))
    (hfit : s.depsFit ds = true) :
    execQueueBlockAccept queue s = .next
      ((s.addGrid (s.queue queue).ctx b k (.queue (s.ctxOf (s.queue queue).ctx).fn queue) (s.queue queue).maxr.toNat ds).advanceHead queue) := by
  have hfresh : (s.launches.any fun r => r.queue == some queue && !r.stale) = false := by
    rw [List.any_eq_false]
    intro r hr
    simpa using hs r hr
  simp only [execQueueBlockAccept, hp, hl, hc, hm, hfresh, hread, htry, hfit, Bool.not_true, Bool.or_self, Bool.false_eq_true, if_false, if_true,
    beq_eq_false_iff_ne.mpr hver]
  rfl

/-! ### Dependences and nodes (13 R284, R286) -/

theorem execDependenceSatisfied_eq {g : Grid} (hg : s.grid? id = some g) (hr : g.runnable = false) (ha : g.aborted = false)
    (hd : g.deps.all (·.met) = true) : execDependenceSatisfied id s = .next (s.makeRunnable id) := by
  unfold execDependenceSatisfied
  rw [hg]
  exact event_unbarred _ _ (by rw [hr, ha, hd]; rfl)

theorem execGraphNodeReady_enters {x : GraphInst} {n : Node} {node : Nat} {l : List Byte} {b : Block} {k : Kernel} (hx : s.graph? id = some x)
    (hn : x.nodes[node]? = some n) (ha : x.aborted = false) (hr : n.read = false) (hd : n.deps.all (·.met) = true)
    (hread : (s.asReader (nodeReader id node)).block x.ctx (x.nodesAt + 64 * node) 64 = .ok l)
    (hjudge : (s.asReader (nodeReader id node)).judgeBlock x.ctx .node l = .ok (b, k)) :
    execGraphNodeReady id node s = .next (((s.unfetch (nodeReader id node)).modGraph id fun y =>
        { y with nodes := modAt node (fun n => { n with read := true, grid := some s.nextUid }) y.nodes }).addGrid
      x.ctx (nodeBlock x.area b) k (.node id node) x.rank []) := by
  simp only [execGraphNodeReady, hx, hn, ha, hr, hd, hread, hjudge, Option.bind_eq_bind, Option.bind_some, Bool.not_true, Bool.or_self,
    Bool.false_eq_true, if_false]
  rfl

/-- Settles O53: each step is the equation above. -/
theorem workEntryStepsComplete : Obligations.WorkEntryStepsComplete := by
  unfold Obligations.WorkEntryStepsComplete
  intro s fn queue slot bay id v r
  refine ⟨fun hl hq hf ho hv => ⟨fun he => ?enabled, fun he => ?disabled⟩, fun w hw hs hfree => ?slot, fun hb hnew => ?slice,
    fun hr hready => ⟨fun hg l b k ds htry => ⟨fun hfit => ?enters, fun hfit hw => ?waits⟩, fun hg t htry => ?graph⟩,
    fun hp hl hc hm hs => ?block, fun g hg hrun ha hd => ?dependence, fun x n node l b k hx hn ha hread hd hl hjudge => ?node,
    fun t l b k ds hr hw ht hg htry hfit => ?timeout⟩
  case enabled => exact execNotifyWrite_enabled hl hq hf ho hv he
  case disabled => exact execNotifyWrite_disabled hl hq hf ho hv he
  case slot => exact execQueueSlotFill_eq hw hs hfree
  case slice => exact execSliceBoundary_eq hb hnew
  case enters => exact execLaunchAccept_enters hr hready hg htry hfit
  case waits => exact execLaunchAccept_waits hr hready hg htry hfit hw
  case graph => exact execGraphInstanceAccept_eq hr hready hg htry
  case block => exact fun l b k ds hread hver htry hfit => execQueueBlockAccept_enters hp hl hc hm hs hread hver htry hfit
  case dependence => exact execDependenceSatisfied_eq hg hrun ha hd
  case node => exact execGraphNodeReady_enters hx hn ha hread hd hl hjudge
  case timeout => exact execDependenceWatchTimeout_eq hr hw ht hg htry hfit

end Sys2Proof.Machine
end

