-- ==== Sys2Proof/Proofs/WatchSteps.lean ====
section
/-!
Armings that enter their watch, records that become eligible, handlers that start, and the paging service, each step as an equation where its
condition holds (12 R266, R267, R270, 23 R413).
-/
namespace Sys2Proof.Machine

variable {s : State}

/-! ### What a fill and a completion leave of a board -/

/-- A board's number, environment and freeze. -/
def Board.seat (b : Board) : Nat × Env × Option Freeze := (b.id, b.env, b.frozen)

@[simp] theorem Board.putWords_seat (b : Board) (n : Nat) (ws : List Word) : (b.putWords n ws).seat = b.seat := by
  induction ws generalizing b n with
  | nil => rfl
  | cons w t ih => exact ih ..

@[simp] theorem Board.fill_seat (b : Board) (d : FillDest) (lane : Nat) (ws : List Word) : (b.fill d lane ws).seat = b.seat := by
  cases d with
  | none => rfl
  | s n => exact b.putWords_seat n ws
  | v n => exact List.foldlRecOn (motive := fun c : Board => c.seat = b.seat) _ _ rfl fun c hc k _ => hc

@[simp] theorem Board.complete_seat (b : Board) (o : MemOp) : (b.complete o).seat = b.seat := by
  unfold Board.complete
  cases o.peg with
  | none => rfl
  | some p => rfl

/-! ### Armings (12 R270) -/

/-- A board that is neither frozen nor leaving has no record to bring up to date. -/
theorem State.putBoard_of_running {b : Board} (hf : b.frozen = none) (hl : s.leaving b = false) : s.putBoard b = s.setBoard b := by
  have hl' : (s.setBoard b).leaving b = false := by rw [State.leaving, State.bent?, State.setBoard_bents]; exact hl
  unfold State.putBoard State.updateRecord
  rw [if_pos (by rw [hf, hl']; rfl)]

/-- The module once a watch has its entry in a frame's table: the entry's number and generation, and its pages pinned. -/
def State.withWatch (s : State) (c : BitVec 16) (f : Nat) (w : Watch) (pins : List (Nat × Nat)) : State :=
  (s.modFrame f fun x =>
    { x with
      watches := x.watches ++ [{ w with idx := s.freeSlot f, gen := (s.frame f).nextGen (s.freeSlot f) }]
      gens := Machine.put (s.freeSlot f) ((s.frame f).nextGen (s.freeSlot f)) x.gens
      pins := pins.foldl (fun l p => pin c p l) x.pins }).free

theorem State.withWatch_watches (c : BitVec 16) {f : Nat} (w : Watch) (pins : List (Nat × Nat)) (h : f < s.frames.length) :
    ((s.withWatch c f w pins).frame f).watches
      = (s.frame f).watches ++ [{ w with idx := s.freeSlot f, gen := (s.frame f).nextGen (s.freeSlot f) }] := by
  refine (congrArg Frame.watches (State.frame_modFrame s _ h)).trans ?_
  rw [if_pos rfl]

theorem execWatchArmComplete_eq {id op f : Nat} {b : Board} {o : MemOp} {x : BitVec 64} {w : Watch} {pins : List (Nat × Nat)}
    (hb : s.board? id = some b) (ho : b.op? op = some o) (hk : o.kind = .arm x) (hfail : o.fail = none) (hheld : b.fillHeld o = false)
    (hmay : b.mayPerform o [] = true) (hjudge : (s.asReader op).judgeArm b x.toNat = .ok (f, w, pins)) (hfit : s.pinsFit f b.env.ctx pins = true) :
    execWatchArmComplete id op s = .next (((s.unfetch op).withWatch b.env.ctx f w pins).putBoard
      ((b.fill o.dest 0 [handleOf f ((s.frame f).nextGen (s.freeSlot f)) (s.freeSlot f)]).complete o)) := by
  obtain rfl : o.id = op := by simpa using List.find?_some ho
  unfold execWatchArmComplete
  rw [hb, Option.bind_eq_bind, Option.bind_some, ho, Option.bind_eq_bind, Option.bind_some]
  refine event_some _ ?_
  rw [hk]
  refine (if_neg (by rw [hheld, hmay, hfail]; decide)).trans ?_
  rw [hjudge]
  have hfit' : (!(s.unfetch o.id).pinsFit f b.env.ctx pins) = false := congrArg (!·) hfit
  exact if_neg (Bool.eq_false_iff.mp hfit')

/-- An arming that is judged well: the board goes on with the handle, the watch stands at the end of its frame's table, memory is as before. -/
theorem State.armed_eq {id f : Nat} {b : Board} {d : FillDest} {o : MemOp} {ws : List Word} {t : State} {w : Watch} {c : BitVec 16}
    {pins : List (Nat × Nat)} (hb : s.board? id = some b) (hz : b.frozen = none) (hl : s.leaving b = false)
    (ht : t = (s.withWatch c f w pins).putBoard ((b.fill d 0 ws).complete o)) :
    t.mem = s.mem ∧ t.board? id = some ((b.fill d 0 ws).complete o)
      ∧ (f < s.frames.length → (t.frame f).watches
        = (s.frame f).watches ++ [{ w with idx := s.freeSlot f, gen := (s.frame f).nextGen (s.freeSlot f) }]) := by
  have hseat : ((b.fill d 0 ws).complete o).seat = b.seat := (Board.complete_seat _ o).trans (b.fill_seat d 0 ws)
  have hid : ((b.fill d 0 ws).complete o).id = id := (congrArg (·.1) hseat).trans (State.board?_id hb)
  have henv : ((b.fill d 0 ws).complete o).env = b.env := congrArg (·.2.1) hseat
  have hzen : ((b.fill d 0 ws).complete o).frozen = none := (congrArg (·.2.2) hseat).trans hz
  generalize (b.fill d 0 ws).complete o = e at ht hid henv hzen ⊢
  have hleave : (s.withWatch c f w pins).leaving e = false := by
    rw [State.leaving, henv]
    exact hl
  rw [State.putBoard_of_running hzen hleave] at ht
  subst ht
  refine ⟨?_, ?_, fun hf => ?_⟩
  · rw [State.setBoard_mem]
    rfl
  · subst hid
    exact State.board?_setBoard (b := b) hb
  · rw [State.frame, State.setBoard_frames]
    exact State.withWatch_watches c w pins hf

/-! ### Records and handlers (12 R266, R267, 25 R459) -/

theorem execRecordEligible_eq {f k : Nat} {w : Watch} {p : PendRec} (hw : (s.frame f).watches.find? (·.idx == k) = some w) (hp : w.pend = some p)
    (he : p.eligible = false) (ht : p.wtime + 64 * w.win ≤ s.now) :
    execRecordEligible f k s = .next ({ s with nextUid := s.nextUid + 1 }.modWatch f k fun w =>
      { w with pend := some { p with eligible := true, order := s.nextUid } }) := by
  unfold execRecordEligible
  rw [hw, Option.bind_eq_bind, Option.bind_some, hp, Option.bind_eq_bind, Option.bind_some]
  exact event_unbarred _ _ (by rw [he, decide_eq_false (Nat.not_lt.mpr ht)]; rfl)

theorem execHandlerStart_fails {f k : Nat} {w : Watch} {p : PendRec} {e : BFail} {place : Place}
    (hw : (s.frame f).watches.find? (·.idx == k) = some w) (hp : w.pend = some p) (hs : w.startable s.now = true)
    (hjudge : (s.asReader (watchReader f k)).judgeBlock w.ctx .handler w.blockBytes = .error e) (he : e.waits = false) :
    execHandlerStart f k place s = .next (((s.unfetch (watchReader f k)).modWatch f k fun w => { w with pend := none }).engineEntry w.ctx e.cause
      e.detail 1 (e.addr.getD w.hblk) (handleOf f w.gen w.idx).toNat) := by
  unfold execHandlerStart
  rw [hw, Option.bind_eq_bind, Option.bind_some, hp, Option.bind_eq_bind, Option.bind_some]
  refine event_some _ ((if_neg (by rw [hs]; decide)).trans ?_)
  dsimp only
  rw [hjudge]
  exact if_neg (Bool.eq_false_iff.mp he)

/-- The module once a record's handler grid has been created: the record is gone, and its start is counted. -/
def State.handling (s : State) (f k : Nat) (w : Watch) (p : PendRec) (blk : Block) (kn : Kernel) : State :=
  ((s.unfetch (watchReader f k)).modWatch f k fun w =>
    { w with pend := none, starts := s.now :: w.starts.filter fun t => s.now < t + 1024 }).addGrid w.ctx blk kn (.watch f k p.depth) w.cap []

theorem execHandlerStart_enters {f k : Nat} {w : Watch} {p : PendRec} {blk : Block} {kn : Kernel} {g : Grid} {place : Place}
    (hw : (s.frame f).watches.find? (·.idx == k) = some w) (hp : w.pend = some p) (hs : w.startable s.now = true)
    (hjudge : (s.asReader (watchReader f k)).judgeBlock w.ctx .handler w.blockBytes = .ok (blk, kn))
    (hadmit : s.mayAdmit (w.claim f) [place] = true) (hlax : s.laxAt [place] = false)
    (hg : (s.handling f k w p blk kn).grid? s.nextUid = some g) :
    execHandlerStart f k place s = .next ((s.handling f k w p blk kn).enterBent g (some ⟨recordWords f w p⟩) [place]) := by
  unfold execHandlerStart
  rw [hw, Option.bind_eq_bind, Option.bind_some, hp, Option.bind_eq_bind, Option.bind_some]
  refine event_some _ ((if_neg (by rw [hs]; decide)).trans ?_)
  dsimp only
  rw [hjudge]
  refine (if_neg (by rw [hadmit, hlax]; decide)).trans ?_
  exact (congrArg (Option.bind · _) hg).trans rfl

/-! ### Paging service (23 R413) -/

theorem execPagingService_delivers {id : Nat} {b : Board} {z : Freeze} (hb : s.board? id = some b) (hz : b.frozen = some z)
    (hheld : z.held = true) (hmap : (s.ctxOf b.env.ctx).pgmap = 0) :
    execPagingService id s = .next ((s.setBoard { b with frozen := some { z with held := false } }).deliver
      { b with frozen := some { z with held := false } } { z with held := false }) := by
  unfold execPagingService
  rw [hb, Option.bind_eq_bind, Option.bind_some, hz, Option.bind_eq_bind, Option.bind_some]
  refine event_some _ ((if_neg (by rw [hheld]; decide)).trans ?_)
  dsimp only
  rw [hmap]
  rfl

/-- The board once the service cores have taken up its trap. -/
def Board.unheld (b : Board) (z : Freeze) : Board := { b with frozen := some { z with held := false } }

/-- The module once the leaves are written and their range invalidated. -/
def State.pagedIn (s : State) (c : BitVec 16) (ls : List (Nat × DWord × Nat × Nat)) : State :=
  let t := ls.foldl (fun (s : State) l => s.writeLocal none (bytesAt l.1 (leBytes 8 l.2.1.toNat))) s
  { t with tlb := t.tlb.filter fun e => !(e.ctx == c && ls.any fun l => e.base < l.2.2.1 + l.2.2.2 && l.2.2.1 < e.base + e.size) }

/-- What the service writes to the board's record: no peg broken, ACTION 0, every DISP 0. -/
def State.servedBytes (s : State) (b : Board) : List (Nat × Byte) :=
  let a := s.recordAt b
  bytesAt (a + 0x68) (tab 8 fun k => BitVec.ofNat 8 (bits (s.mem.num (a + 0x68) 8) (8 * k) 7)) ++ [(a + 2, 0)]
    ++ (List.range (min b.parked.length 16)).map fun k => (a + 0x302 + 64 * k, 0)

theorem execPagingService_serves {id : Nat} {b : Board} {z : Freeze} {ls : List (Nat × DWord × Nat × Nat)} (hb : s.board? id = some b)
    (hz : b.frozen = some z) (hheld : z.held = true) (hmap : (s.ctxOf b.env.ctx).pgmap ≠ 0) (hls : s.leavesFor (b.unheld z) = some ls) :
    execPagingService id s = .next (((((s.pagedIn b.env.ctx ls).writeLocal none ((s.pagedIn b.env.ctx ls).servedBytes (b.unheld z))).modCtx
      b.env.ctx fun x => { x with pgcnt := x.pgcnt + 1 }).setBoard (b.unheld z)).restore (b.unheld z) { z with held := false } 0 0) := by
  unfold execPagingService
  rw [hb, Option.bind_eq_bind, Option.bind_some, hz, Option.bind_eq_bind, Option.bind_some]
  refine event_some _ ((if_neg (by rw [hheld]; decide)).trans ?_)
  have hfound : (if (s.ctxOf b.env.ctx).pgmap == 0 then none else s.leavesFor (b.unheld z)) = some ls := by
    rw [if_neg (by simpa using hmap), hls]
  dsimp only
  split
  case h_1 hnone => exact absurd (hnone.symm.trans hfound) nofun
  case h_2 ms hsome =>
    obtain rfl : ls = ms := Option.some.inj (hfound.symm.trans hsome)
    rfl

/-- Settles O55: each step is the equation above. -/
theorem watchStepsComplete : Obligations.WatchStepsComplete := by
  unfold Obligations.WatchStepsComplete
  intro s b id op f k
  refine ⟨fun o x fr w pins hb ho hk hfail hheld hmay hjudge hfit =>
      ⟨_, execWatchArmComplete_eq hb ho hk hfail hheld hmay hjudge hfit, fun hz hl => ?arm⟩,
    fun w p hw hp he ht => ?eligible, fun w p e place hw hp hs => ⟨fun hjudge he => ?fails, fun blk kn g hjudge hadmit hlax => ?enters⟩,
    fun fr hb hz hheld hmap => ?delivers, fun fr ls hb hz hheld hmap => ?serves⟩
  case arm => exact State.armed_eq (s := s.unfetch op) hb hz hl rfl
  case eligible => exact execRecordEligible_eq hw hp he ht
  case fails => exact execHandlerStart_fails hw hp hs hjudge he
  case enters => exact fun hg => execHandlerStart_enters hw hp hs hjudge hadmit hlax hg
  case delivers => exact execPagingService_delivers hb hz hheld hmap
  case serves => exact fun hls => execPagingService_serves hb hz hheld hmap hls

end Sys2Proof.Machine
end

