-- ==== Sys2Proof/Proofs/GateSteps.lean ====
section
/-!
Arrivals at remote gates, wakes and polls, each step as an equation where its condition holds (15 R321, R327, R328, 25 R432).
-/
namespace Sys2Proof.Machine

variable {s : State} {b : Board} {g : RGate} {w : Wake} {id a m : Nat}

/-! ### Arrivals (15 R327) -/

theorem execRemoteGateArrival_eq (hg : s.rgate? id = some (b, g)) (hp : g.parked = false) (hm : g.made = false) (ho : g.opr ≤ 1)
    (hst : g.stage = .start) (ha : b.performed g.after = true) (he : s.noEntry b.core = false) (hat : s.rgateAt b g = .ok (.loc a)) :
    execRemoteGateArrival id s = .next ((s.fillTlb b.env.ctx g.va.toNat).arriveRemote b g a) := by
  unfold execRemoteGateArrival
  rw [hg, Option.bind_eq_bind, Option.bind_some]
  refine event_some _ ((if_neg ?_).trans ?_)
  · rw [hp, hm, hst, ha, he, decide_eq_false (Nat.not_lt.mpr ho)]
    decide
  · rw [hat]

/-! ### PHASE read again (15 R328, 25 R432) -/

theorem State.rereadPhase_here (hat : s.rgateAt b g = .ok (.loc a)) :
    s.rereadPhase b g = some (if s.gatePhase a = g.phase then s.setBoard (b.modGate g.id fun g => { g with polled := s.now })
      else s.endRemote b g) := by
  simp [State.rereadPhase, hat]

/-- The operation with no wake noted. -/
def RGate.unwoken (g : RGate) : RGate := { g with woken := none }

theorem State.rereadPhase_peer (hr : g.req = none) (hat : s.rgateAt b g = .ok (.peer m a)) :
    s.rereadPhase b g = some (s.gateRequest (b.modGate g.id fun _ => g.unwoken) g.unwoken m a (.phaseRead g.phase b.id)) := by
  unfold State.rereadPhase
  rw [hat]
  exact if_neg (by rw [hr]; decide)

/-! ### Wakes (15 R321, R328, 17 R357) -/

/-- The module with a wake taken from those on their way. -/
def State.unwake (s : State) (w : Wake) : State := { s with wakes := s.wakes.erase w }

/-- The waiting operation of a board that a wake is for. -/
def State.wakeTarget (s : State) (b : Board) (w : Wake) : Option RGate :=
  b.rgates.find? fun x => !x.parked && x.opr != 1 && x.opr != 3 && s.gateIs b x w

/-- A wake that stands at this frame goes on by no ring. -/
theorem State.wakePasses_of_mem (h : w ∈ s.wakes) : s.wakePasses w = none := by
  have hin : s.wakes.contains w = true := List.contains_iff_mem.mpr h
  unfold State.wakePasses
  cases w.peer with
  | none => rfl
  | some m =>
    cases s.waiterFrame w.board with
    | none => rfl
    | some f => exact if_pos (by rw [hin]; rfl)

theorem State.wakeComes_of_mem (h : w ∈ s.wakes) : s.wakeComes w = true := by
  rw [State.wakeComes, List.contains_iff_mem.mpr h]
  rfl

theorem execGateWake_board {t : State} (hc : s.wakeComes w = true) (hp : s.wakePasses w = none) (ht : s.wakeBoard w = some t) :
    execGateWake w s = .next t := by
  unfold execGateWake
  refine event_some _ ((if_neg (by rw [hc]; decide)).trans ?_)
  rw [hp, ht]
  rfl

theorem execGateWake_route {t : State} (hc : s.wakeComes w = true) (hp : s.wakePasses w = none) (hb : s.wakeBoard w = none)
    (ht : s.wakeRoute w = some t) : execGateWake w s = .next t := by
  unfold execGateWake
  refine event_some _ ((if_neg (by rw [hc]; decide)).trans ?_)
  rw [hp, hb, ht]
  rfl

/-- The station of the ordered traffic from a module to this one. -/
def State.wakeStation (s : State) (m : Nat) : Nat := (s.planesFrom m s.modid.toNat).headD (s.modid.toNat % 8)

theorem execGateWake_passes (hb : s.board? w.board = some b) (hw : w ∉ s.wakes) (hm : w.peer = some m) (hc : s.wakeComes w = true)
    (hp : b.core / 16 ≠ s.wakeStation m) : execGateWake w s = .next (s.sendSlot (s.wakeStation m) (b.core / 16) true (.wake w)) := by
  have hpass : s.wakePasses w = some (s.sendSlot (s.wakeStation m) (b.core / 16) true (.wake w)) := by
    simpa [State.wakePasses, State.waiterFrame, hb, hm, hw, State.wakeStation] using hp
  unfold execGateWake
  refine event_some _ ((if_neg (by rw [hc]; decide)).trans ?_)
  rw [hpass]
  rfl

/-- What a wake does at the operation that waits for it. -/
def State.wakeAt (s : State) (here : Bool) (b : Board) (g : RGate) (w : Wake) : Option State :=
  match g.stage with
  | .start => if g.req.isSome then some (s.setBoard (b.modGate g.id fun g => { g with woken := some w.again })) else if here then some s else none
  | .wait false => if here then some s else none
  | .wait true => if w.again then s.rereadPhase b g else some (s.endRemote b g)

section
variable {here : Bool}

theorem State.wakeAt_over (hst : g.stage = .wait true) (hag : w.again = false) : s.wakeAt here b g w = some (s.endRemote b g) := by
  rw [State.wakeAt, hst, hag]
  rfl

theorem State.wakeAt_again (hst : g.stage = .wait true) (hag : w.again = true) : s.wakeAt here b g w = s.rereadPhase b g := by
  rw [State.wakeAt, hst, hag]
  rfl

theorem State.wakeAt_unheld (hst : g.stage = .wait false) (hh : here = true) : s.wakeAt here b g w = some s := by
  rw [State.wakeAt, hst, hh]
  rfl

theorem State.wakeAt_asking (hst : g.stage = .start) (hr : g.req ≠ none) :
    s.wakeAt here b g w = some (s.setBoard (b.modGate g.id fun g => { g with woken := some w.again })) := by
  rw [State.wakeAt, hst]
  exact if_pos (Option.isSome_iff_ne_none.mpr hr)

end

theorem State.wakeBoard_dropped (hb : s.board? w.board = some b) (hw : w ∈ s.wakes) (hown : (s.unwake w).wakeTarget b w = none) :
    s.wakeBoard w = some (s.unwake w) := by
  unfold State.wakeBoard
  rw [hb, Option.bind_eq_bind, Option.bind_some, List.contains_iff_mem.mpr hw]
  dsimp only
  split
  case h_1 => rfl
  case h_2 x hx => exact absurd (hown.symm.trans hx) nofun

theorem State.wakeBoard_met (hb : s.board? w.board = some b) (hw : w ∈ s.wakes ∨ w.peer ≠ none)
    (hown : (s.unwake w).wakeTarget b w = some g) : s.wakeBoard w = (s.unwake w).wakeAt (s.wakes.contains w) b g w := by
  have hcomes : (!s.wakes.contains w && w.peer.isNone) = false := by
    rcases hw with hw | hw
    · rw [List.contains_iff_mem.mpr hw]
      rfl
    · rw [Option.isNone_eq_false_iff.mpr (Option.isSome_iff_ne_none.mpr hw), Bool.and_false]
  unfold State.wakeBoard
  rw [hb, Option.bind_eq_bind, Option.bind_some]
  dsimp only
  split
  case h_1 hx => exact absurd (hown.symm.trans hx) nofun
  case h_2 x hx =>
    obtain rfl : g = x := Option.some.inj (hown.symm.trans hx)
    exact if_neg (Bool.eq_false_iff.mp hcomes)

/-! ### Wakes and polls of a COMBINE (15 R328, 25 R432) -/

theorem State.wakeBoard_of_none (hb : s.board? w.board = none) : s.wakeBoard w = none := by
  rw [State.wakeBoard, hb]
  rfl

theorem State.wakeRoute_eq {c : Cmd} (hc : (s.unwake w).routeCmds.find? (·.id == w.board) = some c)
    (hat : (s.unwake w).cmdAt c c.cgate .r = .ok (.peer m w.gate)) (hp : w.peer = some m) (hwait : c.waiting = true)
    (hwr : c.written = true) (hf : c.failed = false) :
    s.wakeRoute w = some (if w.again = true ∧ c.out = 0 then (s.unwake w).modCmd w.board fun c => { c with written := false, woken := none }
      else (s.unwake w).modCmd w.board fun c => { c with woken := some w.again }) := by
  unfold State.wakeRoute
  refine (congrArg (Option.bind · _) hc).trans ?_
  rw [Option.bind_some]
  split
  case h_1 n a hn =>
    obtain ⟨rfl, rfl⟩ : m = n ∧ w.gate = a := by simpa using hat.symm.trans hn
    refine (if_neg (by rw [hp, hwait, hwr, hf]; simp)).trans ?_
    split
    case isTrue h => exact congrArg some (if_pos (by simpa using h)).symm
    case isFalse h => exact congrArg some (if_neg (by simpa using h)).symm
  case h_2 hnone => exact absurd hat (hnone m w.gate)

theorem execGateWaiterPoll_board (hb : s.board? id = some b) (hg : b.waiting? = some g) (hs : g.stage = .wait false) {t : State}
    (ht : s.rereadPhase b g = some t) : execGateWaiterPoll id s = .next t := by
  refine event_some _ ?_
  rw [hb, Option.bind_eq_bind, Option.bind_some, hg, Option.bind_eq_bind, Option.bind_some, hs, ht]
  rfl

theorem execGateWaiterPoll_combine {c : Cmd} {p : Bool × Bool} (hb : s.board? id = none) (hc : s.routeCmds.find? (·.id == id) = some c)
    (hp : s.peerPhase c = some p) (hdue : p.2 = false ∨ c.woken = some true) :
    execGateWaiterPoll id s = .next (s.modCmd id fun c => { c with written := false, woken := none }) := by
  have hpoll : (p.2 && c.woken != some true) = false := by
    rcases hdue with h | h <;> simp [h]
  refine event_some _ ?_
  rw [hb, State.pollRoute, hc, Option.bind_eq_bind, Option.bind_none, Option.bind_eq_bind, Option.bind_some, hp]
  exact if_neg (Bool.eq_false_iff.mp hpoll)

/-- Settles O50: each step is the equation above; what a wake does depends on how far the operation it is for has come. -/
theorem gateStepsComplete : Obligations.GateStepsComplete := by
  unfold Obligations.GateStepsComplete
  intro s b g w id a
  refine ⟨fun hg hp hm ho hst ha he hat => ?arrival, fun hb hw => ⟨fun hown hmem => ?dropped, fun hown => ?met⟩,
    fun m hb hw hm hc hp => ?passes, fun hb hg hst => ⟨fun hat => ?pollHere, fun m hr hat => ?pollPeer⟩,
    fun c m hb hp hcomes hc hat hpeer hwait hwr hf => ?combine, fun c p hb hc hp hdue => ?pollCombine⟩
  case arrival => exact execRemoteGateArrival_eq hg hp hm ho hst ha he hat
  case dropped =>
    exact execGateWake_board (State.wakeComes_of_mem hmem) (State.wakePasses_of_mem hmem) (State.wakeBoard_dropped hb hmem hown)
  case met =>
    have hcomes : s.wakeComes w = true := hw.elim State.wakeComes_of_mem fun h => h.2.2
    have hpass : s.wakePasses w = none := hw.elim State.wakePasses_of_mem fun h => h.2.1
    have hmet : s.wakeBoard w = (s.unwake w).wakeAt (s.wakes.contains w) b g w :=
      State.wakeBoard_met hb (hw.imp_right fun h => h.1) hown
    refine ⟨fun hst hag => ?_, fun hst hag hat => ?_, fun m hst hag hr hat => ?_, fun hst hmem => ?_, fun hst hr => ?_⟩
    · exact execGateWake_board hcomes hpass (hmet.trans (State.wakeAt_over hst hag))
    · exact execGateWake_board hcomes hpass ((hmet.trans (State.wakeAt_again hst hag)).trans (State.rereadPhase_here hat))
    · exact execGateWake_board hcomes hpass ((hmet.trans (State.wakeAt_again hst hag)).trans (State.rereadPhase_peer hr hat))
    · exact execGateWake_board hcomes hpass (hmet.trans (State.wakeAt_unheld hst (List.contains_iff_mem.mpr hmem)))
    · exact execGateWake_board hcomes hpass (hmet.trans (State.wakeAt_asking hst hr))
  case passes => exact execGateWake_passes hb hw hm hc hp
  case pollHere => exact execGateWaiterPoll_board hb hg hst (State.rereadPhase_here hat)
  case pollPeer => exact execGateWaiterPoll_board hb hg hst (State.rereadPhase_peer hr hat)
  case combine => exact execGateWake_route hcomes hp (State.wakeBoard_of_none hb) (State.wakeRoute_eq hc hat hpeer hwait hwr hf)
  case pollCombine => exact execGateWaiterPoll_combine hb hc hp hdue

end Sys2Proof.Machine
end

