-- ==== Sys2Proof/Proofs/Marks.lean ====
section
/-!
SUPPORT. The planes that are up, the bays that are stopped and the grids that are aborted: writes to memory, entries of fault queues, signals, commands
that end and boards that retire leave all of them as they were.
-/
namespace Sys2Proof.Machine

/-- Which bays of a frame are stopped. -/
def Frame.stops (f : Frame) : List Bool := f.bays.map (·.stopped)

/-- A grid's number, and whether it is aborted. -/
def Grid.fate (g : Grid) : Nat × Bool := (g.uid, g.aborted)

/-- The planes that are up here, the bays that are stopped, the grids that are aborted. -/
def State.marks (s : State) : BitVec 8 × List (List Bool) × List (Nat × Bool) := (s.planes, s.frames.map Frame.stops, s.grids.map Grid.fate)

theorem map_modAt_of_keeps {α β : Type} {p : α → β} {f : α → α} (n : Nat) (l : List α) (h : ∀ x, p (f x) = p x) :
    (modAt n f l).map p = l.map p := by
  induction l generalizing n with
  | nil => simp [modAt]
  | cons x t ih => cases n <;> simp [modAt, h, ih]

/-! ### Parts of the module -/

section
variable (s : State)

theorem State.marks_modFrame (n : Nat) {f : Frame → Frame} (h : ∀ x, (f x).stops = x.stops) : (s.modFrame n f).marks = s.marks :=
  congrArg (fun l => (s.planes, l, s.grids.map Grid.fate)) (map_modAt_of_keeps n s.frames h)

theorem State.marks_mapFrames {f : Frame → Frame} (h : ∀ x, (f x).stops = x.stops) : ({ s with frames := s.frames.map f } : State).marks = s.marks := by
  refine congrArg (fun l => (s.planes, l, s.grids.map Grid.fate)) ?_
  rw [List.map_map]
  exact List.map_congr_left fun x _ => h x

theorem State.marks_modBay (n : Nat) {f : Bay → Bay} (h : ∀ y, (f y).stopped = y.stopped) : (s.modBay n f).marks = s.marks :=
  s.marks_modFrame _ fun _ => map_modAt_of_keeps _ _ h

theorem State.marks_mapGrids {f : Grid → Grid} (h : ∀ g, (f g).fate = g.fate) : ({ s with grids := s.grids.map f } : State).marks = s.marks := by
  refine congrArg (fun l => (s.planes, s.frames.map Frame.stops, l)) ?_
  rw [List.map_map]
  exact List.map_congr_left fun x _ => h x

theorem State.marks_modGrid (uid : Nat) {f : Grid → Grid} (h : ∀ g, (f g).fate = g.fate) : (s.modGrid uid f).marks = s.marks :=
  s.marks_mapGrids fun g => by split <;> simp [h]

@[simp] theorem State.setBoard_marks (b : Board) : (s.setBoard b).marks = s.marks := by simp [State.marks]

/-- The commands of the engines change; the bays stand as they did. -/
@[simp] theorem State.mapCmds_marks (g : List Cmd → List Cmd) : (s.mapCmds g).marks = s.marks :=
  s.marks_mapFrames fun x => by simp [Frame.stops, Function.comp_def]

@[simp] theorem State.modCmd_marks (id : Nat) (f : Cmd → Cmd) : (s.modCmd id f).marks = s.marks := s.mapCmds_marks _

/-! ### Entries and interrupts (21 R373) -/

@[simp] theorem State.faultEntry_marks (fn : Nat) (w : List Nat) : (s.faultEntry fn w).marks = s.marks := by
  unfold State.faultEntry
  dsimp only
  split <;> rfl

@[simp] theorem State.engineEntry_marks (c : BitVec 16) (cause detail count addr tpc : Nat) :
    (s.engineEntry c cause detail count addr tpc).marks = s.marks := s.faultEntry_marks _ _

@[simp] theorem State.interrupt_marks (fn : Nat) (vs : List Nat) : (s.interrupt fn vs).marks = s.marks := by
  unfold State.interrupt
  split <;> rfl

/-! ### Watches and writes at home (10 R224, 12 R261) -/

theorem State.modWatch_marks (f idx : Nat) (g : Watch → Watch) : (s.modWatch f idx g).marks = s.marks := s.marks_modFrame _ fun _ => rfl

theorem State.change_marks (f : Nat) (w : Watch) (i : Nat) (wr : Writer) : (s.change f w i wr).marks = s.marks := by
  unfold State.change
  dsimp only
  split
  · split
    · exact State.modWatch_marks ..
    · exact (State.engineEntry_marks ..).trans (State.modWatch_marks ..)
  · exact State.modWatch_marks ..

theorem State.compare_marks (wr : Writer) (pa : Nat) (old new : List Byte) : (s.compare wr pa old new).marks = s.marks := by
  unfold State.compare
  split
  · rfl
  · refine foldl_keeps (P := State.marks) (fun s w => ?_) _ _
    split
    · refine foldl_keeps (P := State.marks) (fun s i => ?_) _ _
      split
      · exact State.change_marks ..
      · rfl
    · rfl

theorem State.compareOwn_marks (old : Mem) (a n : Nat) : (s.compareOwn old a n).marks = s.marks := by
  unfold State.compareOwn
  split
  · exact foldl_keeps (P := State.marks) (fun _ _ => State.compare_marks ..) _ _
  · rfl

theorem State.lookDeps_marks : s.lookDeps.marks = s.marks := by
  refine s.marks_mapGrids fun g => ?_
  split <;> rfl

theorem State.ownMem_marks (a n : Nat) (m : Mem) : (s.ownMem a n m).marks = s.marks := (State.lookDeps_marks _).trans (State.compareOwn_marks ..)

@[simp] theorem State.putBoard_marks (b : Board) : (s.putBoard b).marks = s.marks := by
  unfold State.putBoard State.updateRecord
  split
  · exact s.setBoard_marks b
  · exact (State.ownMem_marks ..).trans (s.setBoard_marks b)

theorem State.writeLine_marks (wr : Option Writer) (l : Nat) (w : List (Nat × Byte)) : (s.writeLine wr l w).marks = s.marks := by
  unfold State.writeLine
  extract_lets old t u
  have hu : u.marks = s.marks := by
    obtain ⟨es, e⟩ := s.noteEdits_eq wr l w
    unfold u t
    rw [e]
    rfl
  cases wr with
  | some wr => exact (State.compare_marks ..).trans hu
  | none =>
    dsimp only
    split
    · exact (State.compare_marks ..).trans hu
    · exact hu

@[simp] theorem State.writeLocal_marks (wr : Option Writer) (w : List (Nat × Byte)) : (s.writeLocal wr w).marks = s.marks :=
  (State.lookDeps_marks _).trans (foldl_keeps (P := State.marks) (fun _ _ => State.writeLine_marks ..) _ _)

theorem State.writeTarget_marks (wr : Option Writer) (t : Target) (w : List (Nat × Byte)) : (s.writeTarget wr t w).marks = s.marks := by
  unfold State.writeTarget
  split
  · exact State.writeLocal_marks ..
  · split <;> rfl
  · rfl

/-! ### Signals (13 R282, R286) -/

theorem State.counterAdd_marks {t : State} {c : BitVec 16} {va n detail : Nat} (h : s.counterAdd c va n detail = .ok t) : t.marks = s.marks := by
  unfold State.counterAdd at h
  split at h
  · cases h
  · split at h
    · cases h
    · cases h
      exact State.writeLocal_marks ..
  · split at h
    · cases h
      rfl
    · cases h
  · split at h
    · cases h
    · cases h
      rfl

theorem State.signalAt_marks (c : BitVec 16) (va n detail : Nat) : (s.signalAt c va n detail).marks = s.marks := by
  unfold State.signalAt
  split
  · rename_i h
    exact (State.interrupt_marks ..).trans (s.counterAdd_marks h)
  · exact State.engineEntry_marks ..

theorem State.signal_marks (c : BitVec 16) (va n detail : Nat) : (s.signal c va n detail).marks = s.marks := by
  unfold State.signal
  split
  · rfl
  · exact State.signalAt_marks ..

theorem State.settleGraph_marks (id : Nat) : (s.settleGraph id).marks = s.marks := by
  unfold State.settleGraph
  split
  · rfl
  · rename_i x _
    extract_lets rel ret t
    have ht : t.marks = s.marks := by
      unfold t
      split
      · exact s.signal_marks ..
      · rfl
    split
    · exact (t.signal_marks ..).trans ht
    · exact ht

theorem State.signalGrid_marks (g : Grid) (retire : Bool) : (s.signalGrid g retire).marks = s.marks := by
  unfold State.signalGrid
  extract_lets n d t u
  have ht : t.marks = s.marks := by
    unfold t
    split
    · split
      · exact State.signalAt_marks ..
      · rfl
    · rfl
  have hu : u.marks = s.marks := by
    refine Eq.trans ?_ ht
    unfold u
    split
    · exact State.signalAt_marks ..
    · exact State.signal_marks ..
  split
  · exact (State.settleGraph_marks ..).trans hu
  · exact hu

end

end Sys2Proof.Machine
end

