-- ==== Sys2Proof/Proofs/FabricSteps.lean ====
section
/-!
The edges to the frames and the pod: requests of peers, slots of the rings, links and planes that fail, peers that are lost and answer again, each step
as an equation where its condition holds (15 R313, R314, R319, R321, 23 R412, 26 R438 to R445).
-/
namespace Sys2Proof.Machine

variable {s : State}

/-! ### Requests of peers (15 R319, 23 R412) -/

section
variable {r : PeerReq}

/-- What the requester is told. -/
def State.tells (s : State) (r : PeerReq) (a : LineResp) : State := { s with toPeers := ⟨r.mod, r.agent, r.plane, .answer a⟩ :: s.toPeers }

theorem State.performReq_unordered (h : r.ordered = false) : s.performReq r = s.resolveReq r := by
  unfold State.performReq
  simp only [h, Bool.false_and, Bool.false_eq_true, if_false]
  split <;> rfl

theorem State.performReq_barred (h : r.ordered = true) (hb : (r.mod, r.agent) ∈ s.barredAgents) (hr : r.replay = false) :
    s.performReq r = (s, .stopped) :=
  if_pos (by rw [h, hr, List.contains_iff_mem.mpr hb]; rfl)

/-- Nothing bars a request: it is a replay, or no fault of its agent stands before it. -/
def State.unbarred (s : State) (r : PeerReq) : Prop := (r.mod, r.agent) ∉ s.barredAgents ∨ r.replay = true

theorem State.performReq_passes (h : s.unbarred r) : (r.ordered && s.barredAgents.contains (r.mod, r.agent) && !r.replay) = false := by
  rcases h with h | h
  · rw [Bool.eq_false_iff.mpr fun hc => h (List.contains_iff_mem.mp hc), Bool.and_false, Bool.false_and]
  · rw [h, Bool.not_true, Bool.and_false]

/-- An ordered request that is performed: memory is as its performance leaves it, the answer is its answer. -/
theorem State.performReq_performed (h : s.unbarred r) : (s.performReq r).2 = (s.resolveReq r).2 ∧ (s.performReq r).1.mem = (s.resolveReq r).1.mem := by
  unfold State.performReq
  rw [if_neg (Bool.eq_false_iff.mp (State.performReq_passes h))]
  exact ⟨rfl, rfl⟩

theorem State.performReq_ok {d : List Byte} (h : s.unbarred r) (hq : (s.resolveReq r).2 = .ok d) :
    s.performReq r = ({ (s.resolveReq r).1 with barredAgents := if r.ordered && r.replay
      then (s.resolveReq r).1.barredAgents.filter (· != (r.mod, r.agent)) else (s.resolveReq r).1.barredAgents }, (s.resolveReq r).2) := by
  unfold State.performReq
  rw [if_neg (Bool.eq_false_iff.mp (State.performReq_passes h))]
  dsimp only
  rw [hq]

/-- A fault bars its agent. -/
theorem State.performReq_fault {c : BitVec 8} (h : s.unbarred r) (ho : r.ordered = true) (hq : (s.resolveReq r).2 = .fault c) :
    (r.mod, r.agent) ∈ (s.performReq r).1.barredAgents := by
  unfold State.performReq
  rw [if_neg (Bool.eq_false_iff.mp (State.performReq_passes h))]
  dsimp only
  rw [hq, ho]
  exact List.mem_cons_self

theorem execRemoteRequest_here (hw : wellPlaced r = true) (hp : r.plane < 8) (hu : s.usable.getLsbD r.plane = true) (hh : s.homeOf r = r.plane)
    (hq : ∀ y ∈ s.inReqs, (y.req.mod, y.req.agent) ≠ (r.mod, r.agent)) :
    execRemoteRequest r s = .next ((s.performReq r).1.tells r (s.performReq r).2) := by
  have hfree : s.inReqs.all (fun y => y.req.mod != r.mod || y.req.agent != r.agent) = true := by
    rw [List.all_eq_true]
    intro y hy
    have hkey := hq y hy
    rw [ne_eq, Prod.mk.injEq, not_and_or] at hkey
    simpa using hkey
  refine event_some _ ((if_neg ?_).trans (if_pos ?_))
  · rw [hw, hu, decide_eq_false (Nat.not_le.mpr hp)]
    decide
  · rw [hh, hfree, beq_self_eq_true]
    rfl

theorem execRemoteRequest_onward (hw : wellPlaced r = true) (hp : r.plane < 8) (hu : s.usable.getLsbD r.plane = true)
    (h : s.homeOf r ≠ r.plane ∨ ∃ y ∈ s.inReqs, (y.req.mod, y.req.agent) = (r.mod, r.agent)) :
    execRemoteRequest r s = .next { s with inReqs := s.inReqs ++ [{ id := s.nextUid, req := r }], nextUid := s.nextUid + 1 } := by
  refine event_some _ ((if_neg ?_).trans (if_neg ?_))
  · rw [hw, hu, decide_eq_false (Nat.not_le.mpr hp)]
    decide
  · rcases h with hh | ⟨y, hy, hkey⟩
    · simp [hh]
    · intro hboth
      have hall : s.inReqs.all (fun y => y.req.mod != r.mod || y.req.agent != r.agent) = true := (Bool.and_eq_true_iff.mp hboth).2
      have hother := List.all_eq_true.mp hall y hy
      obtain ⟨hmod, hagent⟩ := Prod.mk.inj hkey
      simp [hmod, hagent] at hother

end

/-! ### Package rings (15 R313, R314) -/

section
variable {k src dst : Nat} {x : RingSlot} {full : Bool}

/-- The destination takes a slot: it is an answer or there is room, and its turn has come. -/
def Ring.takes (r : Ring) (src dst : Nat) (x : RingSlot) (full : Bool) : Prop :=
  (isAnswer x.load = true ∨ full = false) ∧ (x.seq = none ∨ x.seq = some (r.next src dst))

theorem Ring.accepts_iff (r : Ring) : r.accepts src dst x full = true ↔ r.takes src dst x full := by
  unfold Ring.accepts Ring.takes
  cases x.seq <;> simp

theorem Ring.modSlot_eq (r : Ring) (new : RingSlot) :
    r.modSlot src dst x new = { r with retry := r.retry.map fun y => if y = (src, dst, x) then (src, dst, new) else y } := by
  simp [Ring.modSlot]

theorem execRingSlotArrival_taken (hup : (s.ring k).up = true) (hin : (src, dst, x) ∈ (s.ring k).retry) (hr : x.refusals < 2)
    (ht : (s.ring k).takes src dst x full) {t : State} (hu : (s.modRing k fun q => q.accept src dst x).unload dst x.load = some t) :
    execRingSlotArrival k src dst x full false s = .next t := by
  refine event_some _ ((if_neg ?_).trans ((if_neg Bool.false_ne_true).trans ((if_pos (Ring.accepts_iff _ |>.mpr ht)).trans hu)))
  rw [hup, List.contains_iff_mem.mpr hin, decide_eq_false (Nat.not_le.mpr hr)]
  decide

theorem execRingSlotArrival_refused (hup : (s.ring k).up = true) (hin : (src, dst, x) ∈ (s.ring k).retry) (hr : x.refusals < 2)
    (ht : ¬ (s.ring k).takes src dst x full) :
    execRingSlotArrival k src dst x full false s = .next (s.modRing k fun q =>
      { q with retry := q.retry.map fun y => if y = (src, dst, x) then (src, dst, { x with refusals := x.refusals + 1 }) else y }) := by
  refine event_some _ ((if_neg ?_).trans ((if_neg Bool.false_ne_true).trans ((if_neg (mt (Ring.accepts_iff _).mp ht)).trans ?_)))
  · rw [hup, List.contains_iff_mem.mpr hin, decide_eq_false (Nat.not_le.mpr hr)]
    decide
  · exact congrArg (fun f => some (s.modRing k f)) (funext fun q => q.modSlot_eq _)

theorem execRingSlotResend_eq (hup : (s.ring k).up = true) (hin : (src, dst, x) ∈ (s.ring k).retry) (hr : 2 ≤ x.refusals) :
    execRingSlotResend k src dst x s = .next (s.modRing k fun q =>
      { q with retry := q.retry.map fun y => if y = (src, dst, x) then (src, dst, { x with refusals := 0 }) else y }) := by
  refine event_some _ ((if_pos ?_).trans ?_)
  · rw [hup, List.contains_iff_mem.mpr hin, decide_eq_true hr]
    rfl
  · exact congrArg (fun f => some (s.modRing k f)) (funext fun q => q.modSlot_eq _)

end

/-! ### Links that fail (26 R439, R440) -/

section
variable {k dst : Nat}

theorem length_putIn {α : Type} (le : α → α → Bool) (x : α) (l : List α) : (putIn le x l).length = l.length + 1 := by
  induction l with
  | nil => rfl
  | cons y t ih => by_cases h : le x y <;> simp [putIn, h, ih]

theorem length_inOrder {α : Type} (le : α → α → Bool) (l : List α) : (inOrder le l).length = l.length := by
  induction l with
  | nil => rfl
  | cons x t ih => simp [inOrder, length_putIn, ih]

/-- Slots that a ring takes over: it stays up, and its senders hold as many more. -/
theorem Ring.adopt_retry (r : Ring) (held : List (Nat × Nat × RingSlot)) :
    (r.adopt held).up = r.up ∧ (r.adopt held).retry.length = r.retry.length + held.length := by
  unfold Ring.adopt
  dsimp only
  rw [← length_inOrder (fun a b => decide ((a.2.2.seq.map (· + 1)).getD 0 ≤ (b.2.2.seq.map (· + 1)).getD 0)) held]
  generalize inOrder _ held = l
  induction l generalizing r with
  | nil => exact ⟨rfl, rfl⟩
  | cons x t ih =>
    obtain ⟨hup, hlen⟩ := ih (r.place x.1 x.2.1 x.2.2.seq.isSome x.2.2.load)
    refine ⟨hup, ?_⟩
    rw [List.foldl_cons, hlen]
    simp [Ring.place]
    omega

theorem State.ring_modRing {j : Nat} (f : Ring → Ring) (h : k < s.rings.length) : (s.modRing k f).ring j = if j = k then f (s.ring k) else s.ring j := by
  by_cases hj : j = k
  · subst hj
    simp [State.ring, State.modRing, modAt_eq_modify, List.getD_eq_getElem?_getD, h]
  · simp [State.ring, State.modRing, modAt_eq_modify, List.getD_eq_getElem?_getD, hj, Ne.symm hj]

/-- A ring retired by a failed link. -/
def State.linkFailed (s : State) (k dst : Nat) : State := (s.retireRing k).modRing k fun r => { r with link := some dst }

theorem State.linkFailed_rings (hk : k < 2) (hlen : s.rings.length = 2) (hup : (s.ring (1 - k)).up = true) :
    ((s.linkFailed k dst).ring k).up = false ∧ ((s.linkFailed k dst).ring k).retry = [] ∧ ((s.linkFailed k dst).ring (1 - k)).up = true
      ∧ ((s.linkFailed k dst).ring (1 - k)).retry.length = (s.ring (1 - k)).retry.length + (s.ring k).retry.length := by
  have hne : k ≠ 1 - k := by omega
  have hlt : k < s.rings.length := by omega
  have hlt' : 1 - k < (s.modRing k fun r => { r with up := false, retry := [] }).rings.length := by
    simp [State.modRing, modAt_eq_modify]
    omega
  have hlt'' : k < (s.retireRing k).rings.length := by
    simp [State.retireRing, State.modRing, modAt_eq_modify]
    omega
  obtain ⟨hadoptUp, hadoptLen⟩ := (s.ring (1 - k)).adopt_retry (s.ring k).retry
  unfold State.linkFailed
  rw [State.ring_modRing _ hlt'', State.ring_modRing _ hlt'', if_pos rfl, if_neg hne.symm, State.retireRing]
  dsimp only
  rw [State.ring_modRing _ hlt', State.ring_modRing _ hlt', if_neg hne, if_pos rfl, State.ring_modRing _ hlt, State.ring_modRing _ hlt, if_pos rfl,
    if_neg hne.symm]
  exact ⟨rfl, rfl, hadoptUp.trans hup, hadoptLen⟩

theorem State.linkFails_of (hup : (s.ring k).up = true) (hn : 64 ≤ (s.ring k).refusals dst (s.now / 1000000)) : s.linkFails k dst = true := by
  rw [State.linkFails, hup, decide_eq_true hn]
  rfl

theorem execRingLinkFail_eq (hk : k < 2) (hd : dst < 8) (hf : s.linkFails k dst = true) (hup : (s.ring (1 - k)).up = true) :
    execRingLinkFail k dst s
      = .next ((s.linkFailed k dst).deviceEntry 0x80 (16 * k + dst) ((s.ring k).refusals dst (s.now / 1000000))) := by
  refine event_unbarred _ _ ?_
  rw [hf, hup, decide_eq_false (Nat.not_le.mpr hk), decide_eq_false (Nat.not_le.mpr hd)]
  rfl

theorem execRingSecondLinkFail_eq (hk : k < 2) (hd : dst < 8) (hf : s.linkFails k dst = true) (hdown : (s.ring (1 - k)).up = false) :
    ∃ u : State, u.halted = true ∧ execRingSecondLinkFail k dst s = .next ((u.deviceEntry 0x81 (16 * k + dst) 0).abortAll 5) := by
  refine ⟨_, ?_, event_unbarred _ _ ?_⟩
  rotate_left
  · rw [hf, hdown, decide_eq_false (Nat.not_le.mpr hk), decide_eq_false (Nat.not_le.mpr hd)]
    rfl
  · rfl

end

/-! ### Planes and lost peers (26 R441 to R445) -/

section

theorem State.failGate_marks (b : Board) (g : RGate) (cause : BitVec 8) : (s.failGate b g cause).marks = s.marks := by
  unfold State.failGate
  extract_lets
  refine (State.putBoard_marks ..).trans ?_
  split <;> rfl

/-- The state that a fault as an answer leaves, whatever asked. -/
theorem State.answer_fault_marks (r : OutReq) (c : BitVec 8) : ((s.answer r (.fault c)).getD s).marks = s.marks := by
  unfold State.answer
  extract_lets t
  split
  next op n _ =>
    cases t.board? r.board with
    | none => rfl
    | some b =>
      dsimp only
      cases b.op? op with
      | none => rfl
      | some o =>
        dsimp only
        cases o.lines[n]? with
        | none => rfl
        | some l =>
          dsimp only
          split
          · rw [State.lineAnswer_fault]
            exact t.putBoard_marks _
          · rfl
  next id _ _ =>
    cases t.cmd? id with
    | none => rfl
    | some c => exact t.modCmd_marks ..
  next =>
    cases t.allBoards.findSome? fun b => (b.rgates.find? (·.req == some r.id)).map fun g => (b, g) with
    | none =>
      cases r.note with
      | none => rfl
      | some p => exact State.engineEntry_marks ..
    | some p => exact State.failGate_marks ..

theorem State.resolveReqs_marks (rs : List OutReq) (all : Bool) : (s.resolveReqs rs all).marks = s.marks := by
  refine foldl_keeps (P := State.marks) (fun s r => ?_) rs s
  split
  · exact State.answer_fault_marks ..
  · split
    · exact State.answer_fault_marks ..
    · rfl

/-- The module with a plane down. -/
def State.planeOff (s : State) (p : Nat) : State := { s with planes := s.planes &&& ~~~(BitVec.ofNat 8 (2 ^ p)) }

theorem execUalinkPlaneDown_here {p : Nat} (hp : p < 8) (hup : s.planes.getLsbD p = true) :
    ∃ u : State, execUalinkPlaneDown p s = .next (u.deviceEntry 0x82 p 0) ∧ u.planes = s.planes &&& ~~~(BitVec.ofNat 8 (2 ^ p)) := by
  refine ⟨(s.planeOff p).resolveReqs (s.outReqs.filter fun r => r.plane == p) false, ?_, ?_⟩
  · exact event_some _ ((if_neg (Nat.not_le.mpr hp)).trans (if_neg (by rw [hup]; decide)))
  · exact congrArg (·.1) (State.resolveReqs_marks (s := s.planeOff p) _ _)

theorem execUalinkPlaneDown_far {p m : Nat} (hp : p < 8) (hm : m < 1024) (hnew : (m, p) ∉ s.farDown) :
    execUalinkPlaneDown (8 + 8 * m + p) s = .next { s with farDown := (m, p) :: s.farDown } := by
  have hmod : (8 + 8 * m + p) / 8 - 1 = m := by omega
  have hplane : (8 + 8 * m + p) % 8 = p := by omega
  have hfar : 8 ≤ 8 + 8 * m + p := by omega
  unfold execUalinkPlaneDown
  rw [if_pos hfar, hmod, hplane]
  refine event_some _ (if_neg ?_)
  simp [hnew, hm]

/-- A module is lost now: no plane reaches it, or it has been silent. -/
theorem State.losesPeer_of {m : Nat} (hnew : m ∉ s.lost)
    (h : (∀ p, p < 8 → s.planes.getLsbD p = false ∨ (m, p) ∈ s.farDown)
      ∨ (look m 0 s.heard + 1000000 ≤ s.now ∧ ∃ r ∈ s.outReqs, r.mod = m ∧ r.at_ ≠ .back ∧ r.since + 1000000 ≤ s.now)) :
    s.losesPeer m = true := by
  rw [State.losesPeer, Bool.and_eq_true, Bool.or_eq_true]
  refine ⟨by simpa using hnew, ?_⟩
  rcases h with hdown | ⟨hheard, r, hr, hmod, hat, hsince⟩
  · left
    rw [List.all_eq_true]
    intro p hp
    rcases hdown p (List.mem_range.mp hp) with h | h <;> simp [h]
  · right
    rw [State.silent, Bool.and_eq_true, List.any_eq_true]
    exact ⟨decide_eq_true hheard, r, hr, by simp [hmod, hat, hsince]⟩

theorem execPeerLost_eq {m : Nat} (h : s.losesPeer m = true) :
    ∃ u : State, execPeerLost m s = .next (u.deviceEntry 0x83 0 m) ∧ m ∈ u.lost ∧ ∀ f ∈ u.frames, ∀ w ∈ f.waiters, w.peer ≠ some m := by
  refine ⟨_, event_unbarred _ _ (by rw [h]; rfl), List.mem_cons_self, fun f hf w hw => ?_⟩
  obtain ⟨f, -, rfl⟩ := List.mem_map.mp hf
  simpa using (List.mem_filter.mp hw).2

theorem execPeerAnsweringAgain_eq {m : Nat} (h : m ∈ s.lost) :
    execPeerAnsweringAgain m s = .next ({ s with lost := s.lost.filter (· != m) }.deviceEntry 0x84 0 m) :=
  event_some _ (if_pos (List.contains_iff_mem.mpr h))

end

/-- Settles O52: each step is the equation above; a plane that goes down stays as set, since no answer of a fault changes the planes. -/
theorem fabricStepsComplete : Obligations.FabricStepsComplete := by
  unfold Obligations.FabricStepsComplete
  intro s r k src dst p m x full
  refine ⟨fun hw hp hu => ⟨fun hh hq => ⟨fun ho => ?unordered, fun ho hb hr => ?barred, fun ho hb hr => ⟨fun d hd => ?ok, fun c hc => ?fault⟩,
      fun ho hr d hd => ?replay⟩, fun h => ?onward⟩,
    fun hup hin => ⟨fun hr ht t hu => ?taken, fun hr ht => ?refused, fun hr => ?resent⟩,
    fun hk hd hup hn => ⟨fun hother => ?link, fun hother => ?second⟩, fun hp hup => ?plane, fun hp hm hnew => ?far, fun hnew h => ?lost,
    fun h => ?again⟩
  case unordered => rw [exec_remoteRequest, execRemoteRequest_here hw hp hu hh hq, State.performReq_unordered ho]; rfl
  case barred => rw [exec_remoteRequest, execRemoteRequest_here hw hp hu hh hq, State.performReq_barred ho hb hr]; rfl
  case ok =>
    rw [exec_remoteRequest, execRemoteRequest_here hw hp hu hh hq, State.performReq_ok (.inl hb) hd, ho, hr]
    rfl
  case fault =>
    obtain ⟨hans, hmem⟩ := State.performReq_performed (s := s) (.inl hb)
    refine ⟨(s.performReq r).1, ?_, State.performReq_fault (.inl hb) ho hc, hmem⟩
    rw [exec_remoteRequest, execRemoteRequest_here hw hp hu hh hq, hans]
    rfl
  case replay =>
    obtain ⟨hans, hmem⟩ := State.performReq_performed (s := s) (.inr hr)
    refine ⟨(s.performReq r).1, ?_, ?_, hmem⟩
    · rw [exec_remoteRequest, execRemoteRequest_here hw hp hu hh hq, hans]
      rfl
    · rw [State.performReq_ok (.inr hr) hd, ho, hr]
      simp
  case onward => exact execRemoteRequest_onward hw hp hu h
  case taken => exact execRingSlotArrival_taken hup hin hr ht hu
  case refused => exact execRingSlotArrival_refused hup hin hr ht
  case resent => exact execRingSlotResend_eq hup hin hr
  case link =>
    exact ⟨_, execRingLinkFail_eq hk hd (State.linkFails_of hup hn) hother, fun hlen => State.linkFailed_rings hk hlen hother⟩
  case second => exact execRingSecondLinkFail_eq hk hd (State.linkFails_of hup hn) hother
  case plane => exact execUalinkPlaneDown_here hp hup
  case far => exact execUalinkPlaneDown_far hp hm hnew
  case lost => exact execPeerLost_eq (State.losesPeer_of hnew h)
  case again => exact execPeerAnsweringAgain_eq h

end Sys2Proof.Machine
end

