-- ==== Sys2Proof/Proofs/AbortedGrids.lean ====
section
/-!
SUPPORT. Aborting grids, and ending the commands of a bay: which bays are stopped stays as it was, a grid that is aborted stays so, and the grid named
is aborted or gone afterwards (21 R379, 26 R449).
-/
namespace Sys2Proof.Machine

/-! ### Commands that end (26 R449, R453) -/

section
variable (s : State)

theorem State.request_marks (r : OutReq) : (s.request r).marks = s.marks := rfl

theorem State.ask_marks (c : Cmd) (ordered : Bool) (rs : List (Nat × Nat × Nat × PeerKind)) : (s.ask c ordered rs).marks = s.marks :=
  (State.modCmd_marks ..).trans (foldl_keeps (P := State.marks) (fun _ _ => State.request_marks ..) _ _)

theorem State.chargeWrite_marks (id n : Nat) : (s.chargeWrite id n).marks = s.marks := by
  unfold State.chargeWrite
  split
  · rfl
  · extract_lets k t
    have ht : t.marks = s.marks := s.modCmd_marks ..
    split <;> exact ht

theorem State.scrWrite_marks (c : Cmd) (w : List (Nat × Byte)) : (s.scrWrite c w).marks = s.marks := by
  unfold State.scrWrite
  split
  · rfl
  · extract_lets as bad late good t
    have ht : t.marks = s.marks := State.chargeWrite_marks ..
    split
    · exact ht
    · exact (State.modCmd_marks ..).trans ht

theorem State.cmdLine_marks (c : Cmd) (kind : BitVec 4) (l : Nat) (w : List (Nat × Byte)) : (s.cmdLine c kind l w).1.marks = s.marks := by
  unfold State.cmdLine
  extract_lets w'
  split
  · rfl
  · extract_lets bad
    split
    · exact State.modCmd_marks ..
    · exact (State.chargeWrite_marks ..).trans ((State.modCmd_marks ..).trans (State.writeTarget_marks ..))
  · exact State.modCmd_marks ..

theorem State.cmdWrite_marks (c : Cmd) (kind : BitVec 4) (ordered : Bool) (w : List (Nat × Byte)) : (s.cmdWrite c kind ordered w).marks = s.marks := by
  unfold State.cmdWrite
  extract_lets ls r
  refine (State.ask_marks ..).trans ?_
  exact List.foldlRecOn (motive := fun r : State × List (Nat × Nat × Nat × PeerKind) => r.1.marks = s.marks) _ _ rfl
    fun r hr l _ => (State.cmdLine_marks ..).trans hr

theorem State.putRow_marks (c : Cmd) (t i : Nat) (f : Nat → Option Nat) : (s.putRow c t i f).marks = s.marks := rfl

theorem State.stepRow_marks (c : Cmd) (p : Step) (t i : Nat) : (s.stepRow c p t i).marks = s.marks := by
  unfold State.stepRow
  extract_lets
  exact State.putRow_marks ..

theorem State.doRows_marks (c : Cmd) (n : Nat) : (s.doRows c n).marks = s.marks := by
  unfold State.doRows
  extract_lets t rows
  split
  · split
    · exact State.scrWrite_marks ..
    · exact State.cmdWrite_marks ..
  · exact foldl_keeps (P := State.marks) (fun _ _ => State.putRow_marks ..) _ _
  · split
    · exact foldl_keeps (P := State.marks) (fun _ _ => State.stepRow_marks ..) _ _
    · rfl

theorem State.unscribe_marks (id : Nat) : (s.unscribe id).marks = s.marks :=
  s.marks_mapFrames fun x => by simp [Frame.stops, Function.comp_def]

theorem State.unpinAll_marks (c : Cmd) : (s.unpinAll c).marks = s.marks := s.marks_modFrame _ fun _ => rfl

theorem State.takeCmd_marks (c : Cmd) : (s.takeCmd c).marks = s.marks :=
  (State.unpinAll_marks ..).trans ((State.unscribe_marks ..).trans (s.mapCmds_marks _))

theorem State.dropReqs_free_marks (p : OutReq → Bool) : (s.dropReqs p).free.marks = s.marks := rfl

theorem State.abandon_marks (c : Cmd) : (s.abandon c).marks = s.marks := by
  unfold State.abandon
  dsimp only
  refine (State.takeCmd_marks ..).trans ((State.dropReqs_free_marks ..).trans ?_)
  split
  case h_1 | h_2 | h_3 =>
    split
    · rfl
    · split
      · exact State.scrWrite_marks ..
      · exact State.cmdWrite_marks ..
  case h_4 | h_5 | h_6 | h_7 =>
    split
    · rfl
    · exact State.doRows_marks ..
  case h_8 => rfl

end

/-! ### Boards that retire, grids that end (21 R379) -/

section
variable (s : State)

theorem State.dropWaits_marks (id : Nat) : (s.dropWaits id).marks = s.marks := s.marks_mapFrames fun _ => rfl

theorem State.retireBoard_marks (id : Nat) : (s.retireBoard id).marks = s.marks := by
  unfold State.retireBoard
  split
  · rfl
  · exact (State.setBoard_marks ..).trans (State.dropWaits_marks ..)

theorem State.abortEntry_marks (g : Grid) (origin : Nat) (b : Option (Board × Freeze)) : (s.abortEntry g origin b).marks = s.marks :=
  State.faultEntry_marks ..

/-- A grid is aborted, or gone. -/
def State.aborts (s : State) (uid : Nat) : Prop := ∀ g, s.grid? uid = some g → g.aborted = true

variable {s}

theorem State.grid?_fate (uid : Nat) : (s.grids.map Grid.fate).find? (·.1 == uid) = (s.grid? uid).map Grid.fate :=
  List.find?_map ..

/-- The marks tell which grids are aborted. -/
theorem State.aborts_iff_fate {uid : Nat} : s.aborts uid ↔ ∀ p, (s.grids.map Grid.fate).find? (·.1 == uid) = some p → p.2 = true := by
  rw [State.grid?_fate]
  simp [State.aborts, Grid.fate]

theorem State.aborts_of_marks {t : State} {uid : Nat} (h : t.marks = s.marks) (hs : s.aborts uid) : t.aborts uid := by
  have hgrids : t.grids.map Grid.fate = s.grids.map Grid.fate := congrArg (·.2.2) h
  rw [State.aborts_iff_fate, hgrids]
  exact State.aborts_iff_fate.mp hs

/-- What a bay shows of being stopped. -/
def State.stops (s : State) : List (List Bool) := s.frames.map Frame.stops

theorem State.stops_of_marks {t : State} (h : t.marks = s.marks) : t.stops = s.stops := congrArg (·.2.1) h

/-- A step on grids that stops no bay and brings no aborted grid back. -/
def State.spares (s t : State) : Prop := t.stops = s.stops ∧ ∀ uid, s.aborts uid → t.aborts uid

theorem State.spares_of_marks {t : State} (h : t.marks = s.marks) : s.spares t := ⟨State.stops_of_marks h, fun _ => State.aborts_of_marks h⟩

theorem State.spares.trans {t u : State} (h : s.spares t) (h' : t.spares u) : s.spares u :=
  ⟨h'.1.trans h.1, fun uid hs => h'.2 uid (h.2 uid hs)⟩

theorem State.aborts_filter {uid gone : Nat} (h : s.aborts uid) : ({ s with grids := s.grids.filter (·.uid != gone) } : State).aborts uid := by
  intro g hg
  have hg' : (s.grids.filter (·.uid != gone)).find? (·.uid == uid) = some g := hg
  have huid : g.uid = uid := by simpa using List.find?_some hg'
  have hkept : (g.uid != gone) = true := (List.mem_filter.mp (List.mem_of_find?_eq_some hg')).2
  have hother : (fun x : Grid => decide ((x.uid != gone) = true ∧ (x.uid == uid) = true)) = fun x => x.uid == uid := by
    funext x
    by_cases hx : x.uid = uid
    · simpa [hx] using huid ▸ bne_iff_ne.mp hkept
    · simp [hx]
  rw [List.find?_filter, hother] at hg'
  exact h g hg'

theorem State.settleGrid_spares (uid : Nat) : s.spares (s.settleGrid uid) := by
  unfold State.settleGrid
  split
  · exact State.spares_of_marks rfl
  · rename_i g _
    extract_lets all rel ret t
    have ht : t.marks = s.marks := by
      unfold t
      split
      · exact (State.marks_modGrid _ _ (f := fun g => { g with released := true }) fun _ => rfl).trans (s.signalGrid_marks ..)
      · rfl
    split
    · have hsig : (t.signalGrid g true).marks = s.marks := (t.signalGrid_marks ..).trans ht
      exact ⟨State.stops_of_marks (t := t.signalGrid g true) hsig, fun v hv => State.aborts_filter (State.aborts_of_marks hsig hv)⟩
    · exact State.spares_of_marks ht

theorem State.grid?_modGrid {uid : Nat} {f : Grid → Grid} (hf : ∀ g, (f g).uid = g.uid) (v : Nat) :
    (s.modGrid uid f).grid? v = (s.grid? v).map fun g => if g.uid == uid then f g else g := by
  refine List.find?_map.trans ?_
  have hsame : ((·.uid == v) ∘ fun g : Grid => if g.uid == uid then f g else g) = (·.uid == v) := by
    funext g
    by_cases hg : g.uid = uid <;> simp [hg, hf]
  rw [hsame]
  rfl

theorem State.modGrid_aborted (uid v : Nat) (h : v = uid ∨ s.aborts v) : (s.modGrid uid fun g => { g with aborted := true }).aborts v := by
  intro g hg
  rw [State.grid?_modGrid (f := fun g => { g with aborted := true }) (fun _ => rfl), Option.map_eq_some_iff] at hg
  obtain ⟨x, hx, rfl⟩ := hg
  split
  case isTrue => rfl
  case isFalse hne =>
    have hv : x.uid = v := by simpa using List.find?_some hx
    rcases h with rfl | h
    · exact absurd (beq_iff_eq.mpr hv) hne
    · exact h x hx

theorem State.abortGrid_spares (uid origin : Nat) (b : Option (Board × Freeze)) :
    s.spares (s.abortGrid uid origin b) ∧ (s.abortGrid uid origin b).aborts uid := by
  unfold State.abortGrid
  split
  case h_1 hnone => exact ⟨State.spares_of_marks rfl, fun g hg => absurd (hnone.symm.trans hg) nofun⟩
  case h_2 g hg =>
    split
    case isTrue ha =>
      refine ⟨State.spares_of_marks rfl, fun x hx => ?_⟩
      obtain rfl : g = x := Option.some.inj (hg.symm.trans hx)
      exact ha
    case isFalse =>
      extract_lets t u
      have hu : u.marks = s.marks := (foldl_keeps (P := State.marks) (fun _ _ => State.retireBoard_marks ..) _ _).trans (State.abortEntry_marks ..)
      obtain ⟨hstops, haborts⟩ := State.settleGrid_spares (s := u.modGrid uid fun g => { g with aborted := true }) uid
      refine ⟨⟨?_, fun v hv => ?_⟩, ?_⟩
      · exact hstops.trans (State.stops_of_marks (t := u) hu)
      · exact haborts v (State.modGrid_aborted uid v (.inr (State.aborts_of_marks hu hv)))
      · exact haborts uid (State.modGrid_aborted uid uid (.inl rfl))

/-- Grids aborted one after the other: all of them are aborted or gone. -/
theorem State.abortGrids_spares (origin : Nat) (b : Option (Board × Freeze)) (us : List Nat) :
    s.spares (us.foldl (fun s g => s.abortGrid g origin b) s) ∧ ∀ u ∈ us, (us.foldl (fun s g => s.abortGrid g origin b) s).aborts u := by
  induction us generalizing s with
  | nil => exact ⟨State.spares_of_marks rfl, nofun⟩
  | cons u t ih =>
    obtain ⟨hspares, hu⟩ := s.abortGrid_spares u origin b
    obtain ⟨hrest, hall⟩ := ih (s := s.abortGrid u origin b)
    refine ⟨hspares.trans hrest, fun v hv => ?_⟩
    rcases List.mem_cons.mp hv with rfl | hv
    · exact hrest.2 v hu
    · exact hall v hv

/-! ### A bay that is stopped -/

theorem State.stopped_eq (k : Nat) : (s.bay k).stopped = (s.stops.getD (k / 4) []).getD (k % 4) false := by
  have hframe : s.stops.getD (k / 4) [] = (s.frame (k / 4)).stops := List.getD_map s.frames {} Frame.stops
  rw [hframe]
  exact (List.getD_map (s.frame (k / 4)).bays {} (·.stopped)).symm

/-- A bay that stands in its frame, stopped there, is stopped after every step that stops no other. -/
theorem State.stopped_of_stops {t : State} {k : Nat} (h : t.stops = s.stops) : (t.bay k).stopped = (s.bay k).stopped := by
  rw [State.stopped_eq, State.stopped_eq, h]

end

end Sys2Proof.Machine
end

