-- ==== Sys2Proof/Proofs/PowerSteps.lean ====
section
/-!
Grants, rails, alarms, readings, caps, pacing windows, time exchanges and brownouts, each step as an equation where its condition holds
(16 R333, R337 to R340, R344 to R349, 26 R449 to R451).
-/
namespace Sys2Proof.Machine

variable {s : State} {bay : Nat}

/-! ### Grants and droop (16 R333, R337, R338) -/

theorem execGrantChange_eq (hr : s.runs bay = true) (hg : (s.bay bay).granted ≠ s.limit bay) (hq : s.bayQuiet bay = true) :
    execGrantChange bay s = .next (s.free.modBay bay fun y =>
      { y with granted := s.limit bay, running := min y.running (s.limit bay), rail := s.presentRail bay, railAt := s.wall }) :=
  event_unbarred _ _ (by rw [hr, hq, beq_eq_false_iff_ne.mpr hg]; rfl)

theorem execClockSwitch_eq (hr : s.runs bay = true) (hup : (s.bay bay).running < (s.bay bay).granted) (hg : (s.bay bay).granted = s.limit bay)
    (hq : s.bayQuiet bay = true)
    (hrail : targetOf (s.bay bay).granted ≤ (s.bay bay).rail + ramp (s.bay bay).railAt (s.bay bay).nextEdge) :
    execClockSwitch bay s = .next (s.modBay bay fun y =>
      { y with running := y.granted, rail := max y.rail (targetOf (s.bay bay).granted), railAt := s.wall }) := by
  refine event_unbarred _ _ ?_
  rw [hr, hq, decide_eq_false (Nat.not_le.mpr hup), decide_eq_false (Nat.not_lt.mpr hrail), hg, bne_self_eq_false]
  rfl

/-- An alarm begins a response unless one is in its stretch. -/
theorem alarmed_eq (o : Option Droop) : (∀ d, o = some d → d.stretch = 0) ∧ alarmed o = some { stretch := 7, window := 0 }
    ∨ ¬ (∀ d, o = some d → d.stretch = 0) ∧ alarmed o = o := by
  cases o with
  | none => exact .inl ⟨nofun, rfl⟩
  | some d =>
    by_cases h : d.stretch = 0
    · left
      simp [alarmed, h]
    · right
      simp [alarmed, h]

theorem Bay.responds_eq (y : Bay) : (if y.drpEn = true then alarmed y.droop else y.droop)
    = if y.drpEn = true ∧ ∀ d, y.droop = some d → d.stretch = 0 then some { stretch := 7, window := 0 } else y.droop := by
  rcases alarmed_eq y.droop with ⟨h, ha⟩ | ⟨h, ha⟩
  · rw [ha]
    exact if_congr (by rw [and_iff_left h]) rfl rfl
  · rw [ha, ite_self, if_neg fun hboth => h hboth.2]

theorem execDroopAlarm_eq {mv : Nat} (hr : s.runs bay = true) :
    execDroopAlarm bay mv s = .next (
      if targetOf (s.bay bay).running ≤ 1000 * (mv + (s.bay bay).drpMv.toNat) then s
      else s.modBay bay fun y => { y with
        drpCnt := if y.drpCnt == 255#8 then 255 else y.drpCnt + 1
        droop := if y.drpEn then alarmed y.droop else y.droop }) := by
  refine event_some _ ((if_neg (by rw [hr]; decide)).trans ?_)
  exact (apply_ite some _ _ _).symm

/-! ### Temperature and caps (16 R344, R346, R347) -/

theorem execThermalSample_eq {temp : Nat} (hb : bay < 32) (hr : s.rails = true) :
    execThermalSample bay temp s = .next (s.modBay bay fun y => y.sampled s.tmig s.tcap temp).boundPace :=
  event_unbarred _ _ (by rw [hr, decide_eq_false (Nat.not_le.mpr hb)]; rfl)

theorem execCapLeaseExpiry_eq {t : Nat} (ht : s.capEnd = some t) (h : t ≤ s.wall) :
    execCapLeaseExpiry s = .next ({ s with cap := s.safecap.toNat, capEnd := none }.deviceEntry 0x87 0 (s.safecap.toNat / 4)) := by
  unfold execCapLeaseExpiry
  rw [ht]
  exact event_some _ (if_neg (Nat.not_lt.mpr h))

/-- Power at most at the cap and above 95 % of it: no level changes, and the cap is attained. -/
theorem execPowerMeasurement_within {watts : Nat} (hr : s.rails = true) (hcap : watts ≤ s.cap) (hlow : 95 * s.cap < 100 * watts) :
    execPowerMeasurement watts s = .next { s.boundPace with power := watts, overCap := 0, capEvent := none } := by
  refine event_some _ ((if_neg (by rw [hr]; decide)).trans ?_)
  have hover : ¬ s.cap < watts := Nat.not_lt.mpr hcap
  dsimp only
  rw [if_neg hover, if_neg (Nat.not_le.mpr hlow), State.capStuck, if_pos]
  · rfl
  · rw [State.unattainable, decide_eq_false]
    · rfl
    · exact hover

/-! ### Time and restarts (16 R339, 26 R449) -/

theorem execPtmExchange_keeps {master : Nat} (hl : s.linkUp = true) : ∃ t, execPtmExchange master s = .next t ∧ t.synced = true
    ∧ (s.synced = false → s.time < 6552 * master → t.now = master ∧ t.timeErr = 0)
    ∧ (s.synced = true → t.time = s.time ∧ t.timeErr = 6552 * (master : Int) - s.time) := by
  unfold execPtmExchange
  rw [if_neg (by rw [hl]; decide)]
  split
  case isTrue h =>
    obtain ⟨hfirst, -⟩ := Bool.and_eq_true_iff.mp h
    refine ⟨_, rfl, rfl, fun _ _ => ⟨Nat.mul_div_cancel_left master (by decide), rfl⟩, fun hs => ?_⟩
    rw [hs] at hfirst
    cases hfirst
  case isFalse h =>
    refine ⟨_, rfl, rfl, fun hs ht => absurd ?_ h, fun _ => ⟨rfl, ?_⟩⟩
    · rw [hs, decide_eq_true ht]
      rfl
    · push_cast
      rfl

theorem execBayRestart_eq (hb : bay < 32) (hs : (s.bay bay).stopped = true) (hw : (s.bay bay).heldFrom + 6552000000 ≤ s.wall) :
    execBayRestart bay s = .next (s.modBay bay fun y =>
      { y with stopped := false, granted := 0, running := 0, rail := 600000, railAt := s.wall, nextEdge := s.wall }) :=
  event_unbarred _ _ (by rw [hs, decide_eq_false (Nat.not_le.mpr hb), decide_eq_false (Nat.not_lt.mpr hw)]; rfl)

/-! ### Pacing (16 R348, R349) -/

section
variable {group : Nat} {p : Pace}

@[simp] theorem Bay.setPace_pace (now l : Nat) (y : Bay) : (y.setPace now l).pace = min l y.paceTop := by
  unfold Bay.setPace
  dsimp only
  split
  case isTrue h => exact (beq_iff_eq.mp h).symm
  case isFalse => rfl

@[simp] theorem Bay.setPace_paceTop (now l : Nat) (y : Bay) : (y.setPace now l).paceTop = y.paceTop := by
  unfold Bay.setPace
  dsimp only
  split <;> rfl

/-- A level that is new is held for 2 ms. -/
theorem Bay.setPace_hold (now l : Nat) (y : Bay) (h : (y.setPace now l).pace ≠ y.pace) : (y.setPace now l).paceHold = now + 2000000 := by
  rw [Bay.setPace_pace] at h
  unfold Bay.setPace
  dsimp only
  rw [if_neg (by simpa using h)]

theorem State.paced_near (s : State) (p : Pace) (level : Nat) : s.paced p level ≤ level + 1 ∧ level ≤ s.paced p level + 1 := by
  unfold State.paced
  dsimp only
  split
  · omega
  · split <;> omega

theorem State.bay_mapBays (f : Bay → Bay) {k : Nat} (hf : k / 4 < s.frames.length) (hb : k % 4 < (s.frame (k / 4)).bays.length) :
    (s.mapBays f).bay k = f (s.bay k) := by
  have hframe : (s.mapBays f).frame (k / 4) = { s.frame (k / 4) with bays := (s.frame (k / 4)).bays.map f } := by
    simp [State.frame, State.mapBays, List.getD_eq_getElem?_getD, hf]
  rw [State.bay, hframe, State.bay]
  simp [List.getD_eq_getElem?_getD, hb]

/-- The slack of a window, of 65,536. -/
def Pace.slackOf (p : Pace) : Nat := min 65536 (p.waited * 65536 / 6552000000)

/-- A group at the end of its window. -/
def Pace.closed (p : Pace) (now : Nat) : Pace :=
  { p with waited := 0, window := now / 1000000, slacks := (p.slackOf :: p.slacks).take 5 }

theorem State.closeWindow_find (hp : s.paces.find? (·.num == group) = some p) :
    (s.closeWindow p).paces.find? (·.num == group) = some (p.closed s.now) := by
  have hnum : p.num = group := by simpa using List.find?_some hp
  have hsame : ((·.num == group) ∘ fun x : Pace => if x.num == p.num then p.closed s.now else x) = (·.num == group) := by
    funext x
    by_cases hx : x.num = p.num
    · simp [hx, Pace.closed]
    · simp [hx]
  refine List.find?_map.trans ?_
  refine (congrArg (fun q => (s.paces.find? q).map _) hsame).trans ?_
  rw [hp, Option.map_some, beq_self_eq_true, if_pos rfl]
  rfl

/-- A bay at the end of a window. -/
def State.repaced (s : State) (p : Pace) (y : Bay) : Bay :=
  y.setPace s.now (if s.now < y.paceHold then y.pace else (s.closeWindow p).paced (p.closed s.now) y.pace)

theorem execPaceWindowEnd_eq (hp : s.paces.find? (·.num == group) = some p) (hw : s.now / 1000000 ≠ p.window) :
    execPaceWindowEnd group s = .next ((s.closeWindow p).mapBays (s.repaced p)) := by
  unfold execPaceWindowEnd
  rw [hp, Option.bind_eq_bind, Option.bind_some]
  refine event_some _ ((if_neg (by simpa using hw)).trans ?_)
  exact (congrArg (Option.bind · _) (State.closeWindow_find hp)).trans rfl

/-- A bay in its time of rest keeps its level, as far as the other limits let it; otherwise the level changes by one at most, and is held. -/
theorem State.repaced_pace (p : Pace) (y : Bay) :
    (s.now < y.paceHold → (s.repaced p y).pace = min y.pace y.paceTop)
      ∧ (y.paceHold ≤ s.now → y.pace ≤ y.paceTop → (s.repaced p y).pace ≤ y.pace + 1 ∧ y.pace ≤ (s.repaced p y).pace + 1)
      ∧ ((s.repaced p y).pace ≠ y.pace → (s.repaced p y).paceHold = s.now + 2000000) := by
  refine ⟨fun h => ?_, fun h htop => ?_, Bay.setPace_hold _ _ _⟩
  · rw [State.repaced, Bay.setPace_pace, if_pos h]
  · rw [State.repaced, Bay.setPace_pace, if_neg (Nat.not_lt.mpr h)]
    have hnear := (s.closeWindow p).paced_near (p.closed s.now) y.pace
    omega

theorem State.mapBays_repaced_bounded (t : State) (p : Pace) : ∀ f ∈ (t.mapBays (s.repaced p)).frames, ∀ y ∈ f.bays, y.pace ≤ y.paceTop := by
  intro f hf y hy
  obtain ⟨f, -, rfl⟩ := List.mem_map.mp hf
  obtain ⟨y, -, rfl⟩ := List.mem_map.mp hy
  rw [State.repaced, Bay.setPace_pace, Bay.setPace_paceTop]
  exact Nat.min_le_right ..

theorem execPaceReport_eq {mod window slack : Nat} (hp : s.paces.find? (·.num == group) = some p) (hm : s.planesFrom mod 0 ≠ []) :
    execPaceReport group mod window slack s
      = .next (s.modPace group fun p => { p with reports := ((mod, window, slack) :: p.reports).take 8192 }) := by
  unfold execPaceReport
  cases h : s.planesFrom mod 0 with
  | nil => exact absurd h hm
  | cons x t => rw [hp]; rfl

end

/-! ### Brownouts (26 R449) -/

/-- The bents that stand in a bay. -/
def State.bentsIn (s : State) (bay : Nat) : List Bent := s.bents.filter fun x => !x.away && x.bay == bay

/-- A bay of which the rail has dropped. -/
def Bay.browned (y : Bay) (mv wall rise : Nat) : Bay :=
  { y with stopped := true, droop := none, granted := 0, running := 0, rail := 1000 * mv, railAt := wall, heldFrom := wall + rise }

/-- The module with the bay stopped. -/
def State.railLost (s : State) (bay mv : Nat) : State :=
  s.free.modBay bay fun y => y.browned mv s.wall (6552 * ((600000 - 1000 * mv + 9) / 10) + Config.choose s.freeCtr (2 ^ 40))

/-- The grids of the bay's bents aborted. -/
def State.railAborted (s : State) (bay mv : Nat) : State :=
  (((s.bentsIn bay).map (·.grid)).eraseDups).foldl (fun s g => s.abortGrid g 4 none) (s.railLost bay mv)

/-- A bay whose cores have lost what was under way in them. -/
def Bay.coresLost (y : Bay) : Bay := { y with cores := y.cores.map fun c => { c with freeze := 0, parts := List.replicate 12 {} } }

/-- The module after a brownout, before its entry: commands of the bay have ended, its boards and cores have lost what they had under way. -/
def State.brownedOut (s : State) (bay mv : Nat) : State :=
  let ids := ((s.railLost bay mv).allBoards.filter fun b => b.core / 4 == bay && (s.railLost bay mv).resident b).map (·.id)
  let s := s.railAborted bay mv
  let s := (s.allCmds.filter fun c => c.core / 4 == bay && cmdPath c.instr != 4).foldl State.abandon s
  let s := s.mapBoards fun b => if ids.contains b.id then s.loseBoard b else b
  s.modBay bay Bay.coresLost

theorem execBrownout_eq {mv : Nat} (hr : s.runs bay = true) (hm : mv < 570) :
    execBrownout bay mv s = .next ((s.brownedOut bay mv).deviceEntry 0x85 (bay / 4 * 16 + bay % 4) (s.bentsIn bay).length) :=
  event_unbarred _ _ (by rw [hr, decide_eq_false (Nat.not_le.mpr hm)]; rfl)

/-- After the grids are aborted nothing of a brownout changes what stands of bays and grids. -/
theorem State.brownedOut_marks (mv : Nat) : (s.brownedOut bay mv).marks = (s.railAborted bay mv).marks := by
  unfold State.brownedOut
  extract_lets ids t u v
  refine (State.marks_modBay v bay (f := Bay.coresLost) fun _ => rfl).trans ?_
  exact foldl_keeps (P := State.marks) State.abandon_marks _ _

theorem State.brownedOut_stopped (mv : Nat) (hf : bay / 4 < s.frames.length) (hb : bay % 4 < (s.frame (bay / 4)).bays.length) :
    ((s.brownedOut bay mv).bay bay).stopped = true := by
  have haborts := ((s.railLost bay mv).abortGrids_spares 4 none (((s.bentsIn bay).map (·.grid)).eraseDups)).1.1
  have hstops : (s.brownedOut bay mv).stops = (s.railLost bay mv).stops := (State.stops_of_marks (s.brownedOut_marks mv)).trans haborts
  rw [State.stopped_of_stops hstops]
  exact congrArg Bay.stopped (State.bay_modBay_self s.free _ hf hb)

theorem State.brownedOut_aborts (mv : Nat) {x : Bent} (hx : x ∈ s.bents) (ha : x.away = false) (hb : x.bay = bay) :
    (s.brownedOut bay mv).aborts x.grid := by
  have hin : x.grid ∈ ((s.bentsIn bay).map (·.grid)).eraseDups := by
    rw [List.mem_eraseDups, List.mem_map]
    exact ⟨x, List.mem_filter.mpr ⟨hx, by simp [ha, hb]⟩, rfl⟩
  exact State.aborts_of_marks (s.brownedOut_marks mv) (((s.railLost bay mv).abortGrids_spares 4 none _).2 x.grid hin)

/-- Settles O57: each step is the equation above; in a brownout every grid is aborted in its turn, and nothing after that changes which grids are
aborted or which bays stand. -/
theorem powerStepsComplete : Obligations.PowerStepsComplete := by
  unfold Obligations.PowerStepsComplete
  intro s bay mv temp watts group mod window slack master
  refine ⟨fun hr hg hq => ⟨_, execGrantChange_eq hr hg hq⟩, fun hr hup hg hq hrail => execClockSwitch_eq hr hup hg hq hrail, fun hr => ?droop,
    fun hb hr => execThermalSample_eq hb hr, fun t ht h => execCapLeaseExpiry_eq ht h,
    fun hr hcap hlow => execPowerMeasurement_within hr hcap hlow, fun p hp => ⟨fun hw => ?window, fun hm => execPaceReport_eq hp hm⟩,
    fun hl => execPtmExchange_keeps hl, fun hr hm => ?brownout, fun hb hs hw => execBayRestart_eq hb hs hw⟩
  case droop =>
    refine (execDroopAlarm_eq hr).trans (congrArg Host.Outcome.next (if_congr Iff.rfl rfl (congrArg (s.modBay bay) (funext fun y => ?_))))
    simp only [Bay.responds_eq, beq_iff_eq]
    rfl
  case window =>
    refine ⟨_, p.closed s.now, execPaceWindowEnd_eq hp hw, State.closeWindow_find hp, ⟨rfl, ?_⟩, State.mapBays_repaced_bounded _ p, fun hf hb => ?_⟩
    · rw [← show p.num = group by simpa using List.find?_some hp]
      rfl
    · have hbay : ((s.closeWindow p).mapBays (s.repaced p)).bay bay = s.repaced p (s.bay bay) := State.bay_mapBays (s := s.closeWindow p) _ hf hb
      dsimp only
      rw [hbay]
      exact State.repaced_pace p _
  case brownout =>
    exact ⟨s.brownedOut bay mv, execBrownout_eq hr hm, fun hf hb => State.brownedOut_stopped mv hf hb,
      fun x hx ha hb => State.brownedOut_aborts mv hx ha hb⟩

end Sys2Proof.Machine
end

