-- ==== Sys2Proof/Proofs/SlotFields.lean ====
section
/-!
SUPPORT. Fields of a slot: what reading an operand field accepts is exactly the encoding of an operand that the field's use takes.
-/
namespace Sys2Proof

/-! ### Reading that may refuse -/

theorem bind_ok_iff {ε α β : Type} {x : Except ε α} {f : α → Except ε β} {r : β} :
    (x >>= f) = .ok r ↔ ∃ a, x = .ok a ∧ f a = .ok r := by
  cases x <;> simp [bind, Except.bind]

@[simp] theorem pure_ok {α : Type} {a b : α} : (pure a : Except Prob α) = .ok b ↔ a = b := by simp [pure, Except.pure]

@[simp] theorem need_ok {c : Bool} {reason fpos value : Nat} {u : Unit} : need c reason fpos value = .ok u ↔ c = true := by
  cases c <;> simp [need, bad]

@[simp] theorem bad_ne_ok {α : Type} {reason fpos value : Nat} {a : α} : bad reason fpos value = .ok a ↔ False := by
  simp [bad]

@[simp] theorem zeroF_ok {n pos : Nat} {x : BitVec n} {u : Unit} : zeroF pos x = .ok u ↔ x = 0#n := by
  simp [zeroF]

/-! ### Bits -/

/-- A concatenation as a number. -/
theorem toNat_append_add {v w : Nat} (x : BitVec v) (y : BitVec w) : (x ++ y).toNat = x.toNat * 2 ^ w + y.toNat := by
  rw [BitVec.toNat_append, ← Nat.shiftLeft_add_eq_or_of_lt y.isLt, Nat.shiftLeft_eq]

/-- Adjacent fields are one field. -/
theorem extractLsb'_append {w s1 s2 l1 l2 : Nat} {x : BitVec w} (h : s2 = s1 + l1) :
    x.extractLsb' s2 l2 ++ x.extractLsb' s1 l1 = x.extractLsb' s1 (l2 + l1) := BitVec.extractLsb'_append_extractLsb'_eq_extractLsb' h

/-- A field within the low part of a concatenation. -/
theorem extractLsb'_append_lo {v w s l : Nat} {x : BitVec v} {y : BitVec w} (h : s + l ≤ w) : (x ++ y).extractLsb' s l = y.extractLsb' s l :=
  BitVec.extractLsb'_append_eq_of_add_le h

/-- A field within the high part of a concatenation. -/
theorem extractLsb'_append_hi {v w s l : Nat} {x : BitVec v} {y : BitVec w} (h : w ≤ s) : (x ++ y).extractLsb' s l = x.extractLsb' (s - w) l :=
  BitVec.extractLsb'_append_eq_of_le h

/-! ### Operand fields (05 R92) -/

theorem FUse.ok_off {o : Opd} : FUse.off.ok o = true ↔ o = .nil := by cases o <;> simp [FUse.ok]

theorem FUse.ok_mask {o : Opd} : FUse.mask.ok o = true ↔ Opd.m o.mask = o := by cases o <;> simp [FUse.ok, Opd.mask]

theorem FUse.ok_uni {o : Opd} : FUse.uni.ok o = true ↔ Opd.s o.uni = o := by cases o <;> simp [FUse.ok, Opd.uni]

/-- Every operand's bits read as the operand. -/
theorem Opd.dec_enc (o : Opd) : Opd.dec o.enc = some o := by
  cases o with
  | v i n =>
    have hkind : (Opd.v i n).enc.extractLsb' 9 2 = 0#2 ∧ (Opd.v i n).enc.extractLsb' 7 2 = 0#2 := by
      constructor <;> refine BitVec.eq_of_toNat_eq ?_ <;>
        simp only [Opd.enc, BitVec.extractLsb'_toNat, toNat_append_add, Nat.shiftRight_eq_div_pow, BitVec.toNat_ofBool, BitVec.toNat_ofNat] <;>
        have := n.isLt <;> cases i <;> simp <;> omega
    have hflag : (Opd.v i n).enc.getLsbD 6 = i := by
      have := n.isLt
      simp only [Opd.enc, BitVec.getLsbD, Nat.testBit_eq_decide_div_mod_eq, toNat_append_add, BitVec.toNat_ofBool, BitVec.toNat_ofNat]
      cases i <;> simp <;> omega
    have hn : (Opd.v i n).enc.setWidth 6 = n := by
      refine BitVec.eq_of_toNat_eq ?_
      simp only [Opd.enc, BitVec.toNat_setWidth, toNat_append_add]
      have := n.isLt
      omega
    simp only [Opd.dec, hkind, hflag, hn]
    rfl
  | s n =>
    have hkind : (Opd.s n).enc.extractLsb' 9 2 = 1#2 := by
      refine BitVec.eq_of_toNat_eq ?_
      simp only [Opd.enc, BitVec.extractLsb'_toNat, toNat_append_add, Nat.shiftRight_eq_div_pow, BitVec.toNat_ofNat]
      have := n.isLt
      omega
    have hn : (Opd.s n).enc.setWidth 9 = n := by
      refine BitVec.eq_of_toNat_eq ?_
      simp only [Opd.enc, BitVec.toNat_setWidth, toNat_append_add]
      have := n.isLt
      omega
    simp [Opd.dec, hkind, hn]
  | nil => rfl
  | dv k => revert k; decide
  | dc k => revert k; decide
  | m n => revert n; decide
  | imm i =>
    have hkind : (Opd.imm i).enc.extractLsb' 9 2 = 3#2 := by
      refine BitVec.eq_of_toNat_eq ?_
      simp only [Opd.enc, BitVec.extractLsb'_toNat, toNat_append_add, Nat.shiftRight_eq_div_pow, BitVec.toNat_ofNat]
      have := i.isLt
      omega
    have hn : (Opd.imm i).enc.setWidth 9 = i := by
      refine BitVec.eq_of_toNat_eq ?_
      simp only [Opd.enc, BitVec.toNat_setWidth, toNat_append_add]
      have := i.isLt
      omega
    simp [Opd.dec, hkind, hn]

/-- The bits of an operand that reads are the operand's. -/
theorem Opd.enc_of_dec {x : BitVec 11} {o : Opd} (h : Opd.dec x = some o) : o.enc = x := by
  have hx := x.isLt
  refine BitVec.eq_of_toNat_eq ?_
  unfold Opd.dec at h
  dsimp only at h
  split at h
  next hk =>
    simp only [BitVec.extractLsb'_toNat, Nat.shiftRight_eq_div_pow] at hk
    split at h
    · rename_i hz
      cases h
      have hz' := congrArg BitVec.toNat (eq_of_beq hz)
      have hbit : (BitVec.ofBool (x.getLsbD 6)).toNat = x.toNat / 64 % 2 := by
        rw [BitVec.toNat_ofBool, BitVec.getLsbD, Nat.testBit_eq_decide_div_mod_eq]
        rcases Nat.mod_two_eq_zero_or_one (x.toNat / 64) with e | e <;> simp [e]
      simp only [BitVec.extractLsb'_toNat, Nat.shiftRight_eq_div_pow, BitVec.toNat_ofNat] at hz'
      simp only [Opd.enc, toNat_append_add, BitVec.toNat_setWidth, hbit, BitVec.toNat_ofNat]
      omega
    · cases h
  next hk =>
    simp only [BitVec.extractLsb'_toNat, Nat.shiftRight_eq_div_pow] at hk
    cases h
    simp only [Opd.enc, toNat_append_add, BitVec.toNat_setWidth, BitVec.toNat_ofNat]
    omega
  next hk =>
    simp only [BitVec.extractLsb'_toNat, Nat.shiftRight_eq_div_pow] at hk
    simp only [beq_iff_eq, ← BitVec.toNat_inj, BitVec.ult, decide_eq_true_eq, BitVec.toNat_setWidth, BitVec.toNat_ofNat] at h
    repeat' split at h
    all_goals cases h
    all_goals
      simp only [Opd.enc, BitVec.toNat_add, BitVec.toNat_sub, BitVec.toNat_setWidth, BitVec.toNat_ofNat]
      omega
  next hk0 hk1 hk2 =>
    cases h
    have hk : ∀ n, (x.extractLsb' 9 2).toNat = n → n ≠ 0 ∧ n ≠ 1 ∧ n ≠ 2 := by grind
    have hk := hk _ rfl
    simp only [BitVec.extractLsb'_toNat, Nat.shiftRight_eq_div_pow] at hk
    simp only [Opd.enc, toNat_append_add, BitVec.toNat_setWidth, BitVec.toNat_ofNat]
    omega

/-- An operand field reads as `o` exactly where its use takes `o` and it holds the bits of `o`. -/
theorem operand_ok {u : FUse} {pos : Nat} {x : BitVec 11} {o : Opd} : operand u pos x = .ok o ↔ u.ok o = true ∧ u.enc o = x := by
  unfold operand FUse.enc
  by_cases hu : u = .off
  · subst hu
    simp only [beq_self_eq_true, if_true, bind_ok_iff, need_ok, beq_iff_eq, exists_const, FUse.ok_off]
    constructor
    · rintro ⟨rfl, h⟩
      cases h
      exact ⟨rfl, rfl⟩
    · rintro ⟨rfl, rfl⟩
      exact ⟨rfl, rfl⟩
  · have : (u == FUse.off) = false := by simpa using hu
    simp only [this, Bool.false_eq_true, if_false]
    split
    · rename_i hd
      simp only [bad_ne_ok, false_iff, not_and]
      rintro - rfl
      simp [Opd.dec_enc] at hd
    · rename_i p hd
      have hp := Opd.enc_of_dec hd
      constructor
      · intro h
        split at h
        · cases h
          exact ⟨‹_›, hp⟩
        · simp at h
      · rintro ⟨h1, rfl⟩
        rw [Opd.dec_enc] at hd
        cases hd
        simp [h1]

end Sys2Proof
end

