-- ==== Sys2Proof/Proofs/VectorCodec.lean ====
section
/-!
SUPPORT. The vector slot: a slot's fields read as operands exactly where they are the fields of operands that the form admits, and the map and the
encoder's table agree row by row (05 R95, R96).
-/
namespace Sys2Proof

theorem V3.ofWord_word (r : V3) : V3.ofWord r.word = r := by
  obtain ⟨op, d, a, b, c, rm, sat, fa, fb, top⟩ := r
  simp only [V3.ofWord, V3.word, V3.mk.injEq]
  refine ⟨?_, ?_, ?_, ?_, ?_, ?_, ?_, ?_, ?_, ?_⟩ <;>
    simp (disch := decide) only [extractLsb'_append_lo, extractLsb'_append_hi, BitVec.extractLsb'_eq_self, Nat.reduceSub]

theorem V3.word_ofWord (w : DWord) : (V3.ofWord w).word = w := by
  simp (disch := decide) only [V3.ofWord, V3.word, extractLsb'_append]
  exact BitVec.extractLsb'_eq_self

/-- The operands that a form of the vector slot admits (06 R113, 22 R387). -/
def VShape.admits (s : VShape) (x : VArgs) : Prop :=
  s.d.ok x.d = true ∧ s.a.ok x.a = true ∧ s.b.ok x.b = true ∧ s.c.ok x.c = true ∧ (s.rm = true ∨ x.rm = .rn) ∧ (s.sat = true ∨ x.sat = false)
  ∧ (match s.fa with | none => x.fa = 0#4 | some f => f x.fa x.fb = true)
  ∧ (match s.fb with | none => x.fb = 0#4 | some f => f (BitVec.ofBool x.sat) x.fa x.fb = true)

theorem RMode.dec_eq {x : BitVec 2} {m : RMode} : RMode.dec x = m ↔ m.enc = x := by revert x; cases m <;> decide
theorem RMode.enc_eq_zero {m : RMode} : m.enc = 0#2 ↔ m = .rn := by cases m <;> decide

theorem beq_one_eq {x : BitVec 1} {p : Bool} : (x == 1#1) = p ↔ BitVec.ofBool p = x := by revert x p; decide
theorem ofBool_eq_zero {p : Bool} : BitVec.ofBool p = 0#1 ↔ p = false := by cases p <;> decide

/-- A slot's fields read as `x` exactly where the form admits `x` and the fields are those of `x`. -/
theorem V3.args_ok {r : V3} {s : VShape} {x : VArgs} : r.args s = .ok x ↔ s.admits x ∧ x.fields r.op.toNat s = r := by
  obtain ⟨op, d, a, b, c, rm, sat, fa, fb, top⟩ := r
  obtain ⟨xd, xa, xb, xc, xrm, xsat, xfa, xfb⟩ := x
  obtain ⟨sd, sa, sb, sc, srm, ssat, sfa, sfb⟩ := s
  cases sfa <;> cases sfb <;>
    simp only [V3.args, bind_ok_iff, operand_ok, need_ok, pure_ok, VShape.admits, VArgs.fields, V3.mk.injEq, VArgs.mk.injEq, BitVec.ofNat_toNat,
      BitVec.setWidth_eq, true_and, Bool.or_eq_true, beq_iff_eq, exists_const, RMode.dec_eq, beq_one_eq]
  all_goals
    refine ⟨?_, ?_⟩
    · rintro ⟨_, ⟨hd, rfl⟩, _, ⟨ha, rfl⟩, _, ⟨hb, rfl⟩, _, ⟨hc, rfl⟩, hrm, hsat, hfa, hfb, rfl, rfl, rfl, rfl, rfl, rfl, rfl, rfl, rfl⟩
      rw [RMode.enc_eq_zero] at hrm
      rw [ofBool_eq_zero] at hsat
      exact ⟨⟨hd, ha, hb, hc, hrm, hsat, hfa, hfb⟩, rfl, rfl, rfl, rfl, rfl, rfl, rfl, rfl, rfl⟩
    · rintro ⟨⟨hd, ha, hb, hc, hrm, hsat, hfa, hfb⟩, rfl, rfl, rfl, rfl, rfl, rfl, rfl, rfl, rfl⟩
      rw [← RMode.enc_eq_zero] at hrm
      rw [← ofBool_eq_zero] at hsat
      exact ⟨_, ⟨hd, rfl⟩, _, ⟨ha, rfl⟩, _, ⟨hb, rfl⟩, _, ⟨hc, rfl⟩, hrm, hsat, hfa, hfb, rfl, rfl, rfl, rfl, rfl, rfl, rfl, rfl, rfl⟩

end Sys2Proof
end
section
namespace Sys2Proof
/-! ### The map and the table -/

@[simp] theorem Fmt.enc_dec_packed {x : BitVec 4} (h : x = 1#4 ∨ x = 2#4) :
    ((Fmt.dec x).getD .f16).enc = x ∧ ((Fmt.dec x).getD .f16).packed = true := by revert x; decide
@[simp] theorem Fmt.enc_dec_narrow {x : BitVec 4} (h : (x = 3#4 ∨ x = 4#4) ∨ x = 5#4) :
    ((Fmt.dec x).getD .e4m3).enc = x ∧ ((Fmt.dec x).getD .e4m3).narrow = true := by revert x; decide
@[simp] theorem Cond.enc_dec {x : BitVec 4} (h : x.ult 8#4 = true) : ((Cond.dec x).getD .eq).enc = x := by revert x; decide
@[simp] theorem Cond.enc_dec_int {x : BitVec 4} (h : x.ult 6#4 = true) :
    ((Cond.dec x).getD .eq).enc = x ∧ ((Cond.dec x).getD .eq).int = true := by revert x; decide
@[simp] theorem ScanOp.enc_dec {x : BitVec 4} (h : x.ult 11#4 = true) : ((ScanOp.dec x).getD .iadd).enc = x := by revert x; decide
@[simp] theorem VoteOp.enc_dec {x : BitVec 4} (h : x.ult 8#4 = true) : ((VoteOp.dec x).getD .any).enc = x := by revert x; decide
@[simp] theorem signCode_beq {x : BitVec 4} (h : x.ult 2#4 = true) : signCode (x == 1#4) = x := by revert x; decide
theorem Fmt.enc_dec_cvt {x y : BitVec 4} (h : (x.ult 8#4 = true ∧ (¬y = 9#4 ∨ x = 0#4)) ∧ (y.ult 8#4 = true ∨ y = 9#4)) :
    ((Fmt.dec x).getD .f32).cvt ((Fmt.dec y).getD .f32) = true ∧ ((Fmt.dec x).getD .f32).enc = x ∧ ((Fmt.dec y).getD .f32).enc = y := by
  revert x y; decide
theorem SortKey.enc_dec {x : BitVec 4} (h : x.ult 6#4 = true) :
    (0#1 ++ ((Option.map (fun k : SortKey × Bool => k.1) (SortKey.dec x)).getD .u32).enc ++ BitVec.ofBool x[0] : BitVec 4) = x := by revert x; decide
theorem signCode_sat {q : Bool} {x : BitVec 4} (h : x = 0#4 ∨ BitVec.ofBool q = 1#1 ∧ x = 1#4) :
    signCode (x == 1#4) = x ∧ (q = true ∨ ¬x = 1#4) := by revert q x; decide

/-- A row of the map gives a well-formed instruction, and the table gives its row back. -/
theorem vecEnc_of_vecMap {op : Nat} {s : VShape} {k : VArgs → Instr} {x : VArgs} (h : vecMap op = some (s, k)) (hx : s.admits x) :
    (k x).wf = true ∧ vecEnc (k x) = some (op, x) := by
  obtain ⟨d, a, b, c, rm, sat, fa, fb⟩ := x
  unfold vecMap at h
  split at h
  case h_69 => cases h
  all_goals
    cases h
    simp [VShape.admits, vDA, vDAB, vDABC, fbSign, faPacked, faNarrow, faCvt, fbCvt, FUse.ok_off, FUse.ok_mask, FUse.ok_uni] at hx
    simp [vecEnc, Instr.wf, hx, signCode_sat (q := sat) (x := fb), Fmt.enc_dec_cvt (x := fa) (y := fb), SortKey.enc_dec (x := fa)]

theorem Fmt.dec_enc (f : Fmt) : Fmt.dec f.enc = some f := by cases f <;> rfl
theorem Cond.dec_enc (c : Cond) : Cond.dec c.enc = some c := by cases c <;> rfl
theorem ScanOp.dec_enc (o : ScanOp) : ScanOp.dec o.enc = some o := by cases o <;> rfl
theorem VoteOp.dec_enc (o : VoteOp) : VoteOp.dec o.enc = some o := by
  cases o with
  | bal q => revert q; decide
  | _ => rfl
theorem SortKey.dec_enc (k : SortKey) (p : Bool) : SortKey.dec (0#1 ++ k.enc ++ BitVec.ofBool p) = some (k, p) := by revert p; cases k <;> decide

@[simp] theorem FUse.off_ok_nil : FUse.off.ok .nil = true := rfl
@[simp] theorem FUse.mask_ok_m (n : BitVec 3) : FUse.mask.ok (.m n) = true := rfl
@[simp] theorem FUse.uni_ok_s (n : BitVec 9) : FUse.uni.ok (.s n) = true := rfl

@[simp] theorem Fmt.enc_packed {f : Fmt} : (f.enc = 1#4 ∨ f.enc = 2#4) ↔ f.packed = true := by cases f <;> decide
@[simp] theorem Fmt.enc_narrow {f : Fmt} : ((f.enc = 3#4 ∨ f.enc = 4#4) ∨ f.enc = 5#4) ↔ f.narrow = true := by cases f <;> decide
@[simp] theorem Fmt.enc_cvt {t f : Fmt} :
    ((t.enc.ult 8#4 = true ∧ (¬f.enc = 9#4 ∨ t.enc = 0#4)) ∧ (f.enc.ult 8#4 = true ∨ f.enc = 9#4)) ↔ t.cvt f = true := by
  cases t <;> cases f <;> decide
@[simp] theorem Cond.enc_ult (c : Cond) : c.enc.ult 8#4 = true := by cases c <;> decide
@[simp] theorem Cond.enc_int (c : Cond) : c.enc.ult 6#4 = c.int := by cases c <;> decide
@[simp] theorem ScanOp.enc_ult (o : ScanOp) : o.enc.ult 11#4 = true := by cases o <;> decide
@[simp] theorem VoteOp.enc_ult (o : VoteOp) : o.enc.ult 8#4 = true := by
  cases o with
  | bal q => revert q; decide
  | _ => rfl
@[simp] theorem SortKey.enc_ult (k : SortKey) (p : Bool) : (0#1 ++ k.enc ++ BitVec.ofBool p : BitVec 4).ult 6#4 = true := by
  cases p <;> cases k <;> decide
@[simp] theorem SortKey.enc_low (k : SortKey) (p : Bool) : (0#1 ++ k.enc ++ BitVec.ofBool p : BitVec 4)[0] = p := by
  cases p <;> cases k <;> decide
@[simp] theorem signCode_ult (u : Bool) : (signCode u).ult 2#4 = true := by cases u <;> decide
@[simp] theorem signCode_beq_one (u : Bool) : (signCode u == 1#4) = u := by cases u <;> decide
@[simp] theorem signCode_of_sat {q u : Bool} : (signCode u = 0#4 ∨ BitVec.ofBool q = 1#1 ∧ u = true) ↔ (q = true ∨ u = false) := by
  cases u <;> cases q <;> decide

theorem vecEnc_lt {i : Instr} {op : Nat} {x : VArgs} (h : vecEnc i = some (op, x)) : op < 128 ∧ op ≠ 2 := by
  unfold vecEnc at h
  split at h <;> cases h <;> decide

/-- A row of the table is a row of the map, whose form admits the operands of a well-formed instruction. -/
theorem vecMap_of_vecEnc {i : Instr} {op : Nat} {x : VArgs} (h : vecEnc i = some (op, x)) (hw : i.wf = true) :
    ∃ s k, vecMap op = some (s, k) ∧ s.admits x ∧ k x = i := by
  unfold vecEnc at h
  split at h
  case h_69 => cases h
  all_goals
    cases h
    simp [Instr.wf] at hw
    refine ⟨_, _, rfl, ?_, ?_⟩
    · simp [VShape.admits, vDA, vDAB, vDABC, fbSign, faPacked, faNarrow, faCvt, fbCvt, hw]
    · simp [Fmt.dec_enc, Cond.dec_enc, ScanOp.dec_enc, VoteOp.dec_enc, SortKey.dec_enc, Opd.mask, Opd.uni]

/-- MOVI's word, the one form of its own (05 R95): its fields. -/
theorem movi_fields (d : Opd) (imm : BitVec 32) (w : DWord) (h : w = 0#3 ++ imm ++ 0#11 ++ d.enc ++ 2#7) :
    (V3.ofWord w).op = 2#7 ∧ (V3.ofWord w).d = d.enc ∧ (V3.ofWord w).a = 0#11 ∧ w.extractLsb' 61 3 = 0#3 ∧ w.extractLsb' 29 32 = imm := by
  subst h
  have hd := d.enc.isLt
  have hi := imm.isLt
  refine ⟨?_, ?_, ?_, ?_, ?_⟩ <;>
    (refine BitVec.eq_of_toNat_eq ?_
     simp only [V3.ofWord, BitVec.extractLsb'_toNat, toNat_append_add, Nat.shiftRight_eq_div_pow, BitVec.toNat_ofNat]
     omega)

theorem movi_word {w : DWord} (ho : (V3.ofWord w).op = 2#7) (ha : (V3.ofWord w).a = 0#11) (ht : w.extractLsb' 61 3 = 0#3) :
    (0#3 ++ w.extractLsb' 29 32 ++ 0#11 ++ (V3.ofWord w).d ++ 2#7 : DWord) = w := by
  rw [← ho, ← ha, ← ht]
  refine BitVec.eq_of_toNat_eq ?_
  simp only [V3.ofWord, BitVec.extractLsb'_toNat, toNat_append_add, Nat.shiftRight_eq_div_pow]
  omega

/-- The vector slot reads back what it writes. -/
theorem decodeVec_encodeVec {i : Instr} {w : DWord} (h : encodeVec i = some w) (hw : i.wf = true) : decodeVec w = .ok i := by
  unfold encodeVec at h
  split at h
  next d imm =>
    cases h
    obtain ⟨ho, hd, ha, ht, hi⟩ := movi_fields d imm _ rfl
    simp only [decodeVec, ho, beq_self_eq_true, if_true, bind_ok_iff, operand_ok, need_ok, pure_ok, hd, ha, ht, hi, exists_const, true_and]
    exact ⟨d, ⟨by simpa [Instr.wf] using hw, rfl⟩, rfl⟩
  next =>
    split at h
    next op x he =>
      obtain ⟨s, k, hm, hx, rfl⟩ := vecMap_of_vecEnc he hw
      obtain ⟨hop, h2⟩ := vecEnc_lt he
      rw [hm] at h
      cases h
      have hr : (x.fields op s).op.toNat = op := by simp [VArgs.fields, Nat.mod_eq_of_lt hop]
      have h2 : ((x.fields op s).op == 2#7) = false := by
        rw [beq_eq_false_iff_ne]
        intro e
        exact h2 (by rw [← hr, e]; rfl)
      simp only [decodeVec, V3.ofWord_word, h2, Bool.false_eq_true, if_false, hr, hm, bind_ok_iff, V3.args_ok, pure_ok]
      exact ⟨x, ⟨hx, rfl⟩, rfl⟩
    next => cases h

/-- What the vector slot reads is well-formed, and the word is its word. -/
theorem encodeVec_of_decodeVec {i : Instr} {w : DWord} (h : decodeVec w = .ok i) : i.wf = true ∧ encodeVec i = some w := by
  unfold decodeVec at h
  dsimp only at h
  split at h
  next ho =>
    simp only [bind_ok_iff, operand_ok, need_ok, pure_ok, beq_iff_eq, exists_const] at h ho
    obtain ⟨d, ⟨hok, hd⟩, ha, ht, rfl⟩ := h
    refine ⟨hok, ?_⟩
    have hd : d.enc = (V3.ofWord w).d := hd
    simp only [encodeVec, hd, movi_word ho ha ht]
  next =>
    split at h
    next => simp at h
    next s k hm =>
      simp only [bind_ok_iff, V3.args_ok, pure_ok] at h
      obtain ⟨x, ⟨hx, hr⟩, rfl⟩ := h
      obtain ⟨hw, he⟩ := vecEnc_of_vecMap hm hx
      refine ⟨hw, ?_⟩
      unfold encodeVec
      split
      next hk => rw [hk] at he; cases he
      next => rw [he]; simp only [hm, Option.map_some, hr, V3.word_ofWord]
end Sys2Proof
end

