-- ==== Sys2Proof/Proofs/CopyMatrixCodec.lean ====
section
/-!
SUPPORT. The copy/matrix slot, in the same way (05 R100, R101).
-/
namespace Sys2Proof

/-! ### Peg fields (05 R94) -/

theorem encPeg_none : encPeg none = 0#4 := rfl

/-- A peg field reads as `p` exactly where it holds the bits of `p`, and an operation with a register destination has a peg. -/
theorem pegField_ok {req : Bool} {pos : Nat} {x : BitVec 4} {p : Option (BitVec 3)} :
    pegField req pos x = .ok p ↔ encPeg p = x ∧ (req = true → p.isSome = true) := by
  unfold pegField
  split
  · rename_i h
    have e : encPeg (some (x.setWidth 3)) = x := by revert x; decide
    rw [pure_ok]
    constructor
    · rintro rfl
      exact ⟨e, fun _ => rfl⟩
    · rintro ⟨rfl, -⟩
      cases p with
      | none => simp [encPeg] at h
      | some q => revert q; decide
  · rename_i h
    split
    · rename_i h0
      rw [beq_iff_eq] at h0
      subst h0
      cases p with
      | none => cases req <;> simp [encPeg]
      | some q => cases req <;> simp [encPeg] <;> revert q <;> decide
    · rename_i h0
      rw [bad_ne_ok, false_iff]
      rintro ⟨rfl, -⟩
      cases p with
      | none => exact h0 rfl
      | some q => exact h (by revert q; decide)

/-! ### The fields of the slot -/

theorem XF.ofWord_word (r : XF) : XF.ofWord r.word = r := by
  obtain ⟨op, f, u, t, peg, sub, g, br, fl⟩ := r
  simp only [XF.ofWord, XF.word, XF.mk.injEq]
  refine ⟨?_, ?_, ?_, ?_, ?_, ?_, ?_, ?_, ?_⟩ <;>
    simp (disch := decide) only [extractLsb'_append_lo, extractLsb'_append_hi, BitVec.extractLsb'_eq_self, Nat.reduceSub]

theorem XF.word_ofWord (w : DWord) : (XF.ofWord w).word = w := by
  simp (disch := decide) only [XF.ofWord, XF.word, extractLsb'_append]
  exact BitVec.extractLsb'_eq_self

@[simp] theorem needCode_ok {n c pos : Nat} {x : BitVec n} {u : Unit} : needCode c pos x = .ok u ↔ c = 0 := by simp [needCode]

/-- The operands that a form of the copy/matrix slot admits (22 R389). -/
def XShape.admits (s : XShape) (x : XArgs) : Prop :=
  s.f.ok x.f = true ∧ (if s.u then x.u.toNat % 2 = 0 else x.u = 0#9) ∧ (s.t = true ∨ x.t = 0#5)
  ∧ (if s.peg then s.req = true → x.peg.isSome = true else x.peg = none)
  ∧ (match s.sub with | none => x.sub = 0#4 | some k => k x.sub = 0) ∧ s.g.ok x.g = true ∧ (s.br = true ∨ x.br = 0#5)
  ∧ (match s.fl with | none => x.fl = 0#8 | some k => k x.fl = 0)

theorem zeroF_unless_ok {n pos : Nat} {x : BitVec n} {c : Bool} {α : Type} {k : Except Prob α} {r : α} :
    (if (!c) = true then (zeroF pos x >>= fun _ => k) else k) = .ok r ↔ (c = true ∨ x = 0#n) ∧ k = .ok r := by
  cases c <;> simp [bind_ok_iff]

theorem even_or_zeroF_ok {pos : Nat} {x : BitVec 9} {c : Bool} {α : Type} {k : Except Prob α} {r : α} :
    (if c = true then (need (x.toNat % 2 == 0) 8 pos x.toNat >>= fun _ => k) else (zeroF pos x >>= fun _ => k)) = .ok r
      ↔ (if c = true then x.toNat % 2 = 0 else x = 0#9) ∧ k = .ok r := by
  cases c <;> simp [bind_ok_iff]

theorem peg_or_zeroF_ok {pos : Nat} {x : BitVec 4} {c req : Bool} {α : Type} {k : Option (BitVec 3) → Except Prob α} {r : α} :
    (if c = true then (pegField req pos x >>= fun p => k p) else (zeroF pos x >>= fun _ => pure none >>= fun p => k p)) = .ok r
      ↔ ∃ p, ((if c = true then req = true → p.isSome = true else p = none) ∧ encPeg p = x) ∧ k p = .ok r := by
  cases c
  · simp only [Bool.false_eq_true, if_false, bind_ok_iff, zeroF_ok, pure_ok, exists_const]
    constructor
    · rintro ⟨rfl, p, rfl, h⟩
      exact ⟨_, ⟨rfl, rfl⟩, h⟩
    · rintro ⟨p, ⟨rfl, rfl⟩, h⟩
      exact ⟨rfl, _, rfl, h⟩
  · simp only [if_true, bind_ok_iff, pegField_ok, and_comm]

/-- A slot's fields read as `x` exactly where the form admits `x` and the fields are those of `x`. -/
theorem XF.args_ok {r : XF} {s : XShape} {x : XArgs} : r.args s = .ok x ↔ s.admits x ∧ x.fields r.op.toNat s = r := by
  obtain ⟨op, f, u, t, peg, sub, g, br, fl⟩ := r
  obtain ⟨xf, xu, xt, xpeg, xsub, xg, xbr, xfl⟩ := x
  obtain ⟨sf, su, st, speg, sreq, ssub, sg, sbr, sfl⟩ := s
  cases ssub <;> cases sfl <;>
    simp only [XF.args, bind_ok_iff, operand_ok, zeroF_unless_ok, even_or_zeroF_ok, peg_or_zeroF_ok, pure_ok, zeroF_ok, needCode_ok, XShape.admits, XArgs.fields, XF.mk.injEq, XArgs.mk.injEq,
      BitVec.ofNat_toNat, BitVec.setWidth_eq, true_and, exists_const]
  all_goals
    refine ⟨?_, ?_⟩
    · rintro ⟨_, ⟨hf, rfl⟩, hu, ht, _, ⟨hp, rfl⟩, hs, _, ⟨hg, rfl⟩, hb, hl, rfl, rfl, rfl, rfl, rfl, rfl, rfl, rfl⟩
      exact ⟨⟨hf, hu, ht, hp, hs, hg, hb, hl⟩, rfl, rfl, rfl, rfl, rfl, rfl, rfl, rfl⟩
    · rintro ⟨⟨hf, hu, ht, hp, hs, hg, hb, hl⟩, rfl, rfl, rfl, rfl, rfl, rfl, rfl, rfl⟩
      exact ⟨_, ⟨hf, rfl⟩, hu, ht, _, ⟨hp, rfl⟩, hs, _, ⟨hg, rfl⟩, hb, hl, rfl, rfl, rfl, rfl, rfl, rfl, rfl, rfl⟩

/-! ### The map and the table -/

@[simp] theorem CpaWidth.enc_dec {x : BitVec 4} (h : x.ult 3#4 = true) : ((CpaWidth.dec x).getD .w4).enc = x := by revert x; decide
@[simp] theorem CpaWidth.enc_ult (w : CpaWidth) : w.enc.ult 3#4 = true := by cases w <;> decide
theorem CpaWidth.dec_enc (w : CpaWidth) : CpaWidth.dec w.enc = some w := by cases w <;> rfl
@[simp] theorem StatSel.enc_dec {x : BitVec 4} (h : x.ult 10#4 = true) : ((StatSel.dec x).getD .lkept).enc = x := by revert x; decide
@[simp] theorem StatSel.enc_ult (w : StatSel) : w.enc.ult 10#4 = true := by cases w <;> decide
theorem StatSel.dec_enc (w : StatSel) : StatSel.dec w.enc = some w := by cases w <;> rfl
@[simp] theorem Fmt.enc_dec_cpr {x : BitVec 4} (h : Option.any Fmt.cpr (Fmt.dec x) = true) :
    ((Fmt.dec x).getD .f32).enc = x ∧ ((Fmt.dec x).getD .f32).cpr = true := by revert x; decide
/-- CPB's SUB holds the number of dimensions, 1 to 3 (08 R169). -/
theorem cpb_sub {x : BitVec 4} (h0 : ¬x = 0#4) (h : x.ult 4#4 = true) : ¬x.setWidth 2 = 0#2 ∧ (x.setWidth 2).setWidth 4 = x := by
  revert x; decide
theorem cpb_sub_of {n : BitVec 2} (h : ¬n = 0#2) : ¬n.setWidth 4 = 0#4 ∧ (n.setWidth 4).ult 4#4 = true := by revert n; decide
/-- CPB's flags are five bits, MC and SPD not together (08 R169). -/
theorem cpb_flags {x : BitVec 8} (h : flCpb x = 0) : (x[3] = false ∨ x[1] = false) ∧ (x.setWidth 5).setWidth 8 = x := by revert x; decide
theorem cpb_flags_of {x : BitVec 5} (h : x[3] = false ∨ x[1] = false) : flCpb (x.setWidth 8) = 0 := by revert x; decide
theorem cpr_flags {x : BitVec 8} (h : x[7] = false) : (x.setWidth 7).setWidth 8 = x := by revert x; decide

theorem cmxEnc_of_cmxMap {op : Nat} {s : XShape} {k : XArgs → Instr} {x : XArgs} (h : cmxMap op = some (s, k)) (hx : s.admits x) :
    (k x).wf = true ∧ cmxEnc (k x) = some (op, x) := by
  obtain ⟨f, u, t, peg, sub, g, br, fl⟩ := x
  unfold cmxMap at h
  split at h
  case h_19 => cases h
  all_goals
    cases h
    simp [XShape.admits, FUse.ok_off, FUse.ok_uni, code02] at hx
    simp [cmxEnc, Instr.wf, hx, cpb_sub (x := sub), cpb_flags (x := fl), cpr_flags (x := fl)]

theorem cmxEnc_lt {i : Instr} {op : Nat} {x : XArgs} (h : cmxEnc i = some (op, x)) : op < 128 := by
  unfold cmxEnc at h
  split at h <;> cases h <;> decide

theorem cmxMap_of_cmxEnc {i : Instr} {op : Nat} {x : XArgs} (h : cmxEnc i = some (op, x)) (hw : i.wf = true) :
    ∃ s k, cmxMap op = some (s, k) ∧ s.admits x ∧ k x = i := by
  unfold cmxEnc at h
  split at h
  case h_19 => cases h
  all_goals
    cases h
    simp [Instr.wf] at hw
    refine ⟨_, _, rfl, ?_, ?_⟩
    · simp [XShape.admits, code02, hw, cpb_sub_of, cpb_flags_of, Fmt.dec_enc]
    · simp [Fmt.dec_enc, CpaWidth.dec_enc, StatSel.dec_enc, Opd.uni]

/-- The copy/matrix slot reads back what it writes. -/
theorem decodeCmx_encodeCmx {i : Instr} {w : DWord} (h : encodeCmx i = some w) (hw : i.wf = true) : decodeCmx w = .ok i := by
  unfold encodeCmx at h
  split at h
  next op x he =>
    obtain ⟨s, k, hm, hx, rfl⟩ := cmxMap_of_cmxEnc he hw
    rw [hm] at h
    cases h
    have hr : (x.fields op s).op.toNat = op := by simp [XArgs.fields, Nat.mod_eq_of_lt (cmxEnc_lt he)]
    simp only [decodeCmx, XF.ofWord_word, hr, hm, bind_ok_iff, XF.args_ok, pure_ok]
    exact ⟨x, ⟨hx, rfl⟩, rfl⟩
  next => cases h

/-- What the copy/matrix slot reads is well-formed, and the word is its word. -/
theorem encodeCmx_of_decodeCmx {i : Instr} {w : DWord} (h : decodeCmx w = .ok i) : i.wf = true ∧ encodeCmx i = some w := by
  unfold decodeCmx at h
  dsimp only at h
  split at h
  next => simp at h
  next s k hm =>
    simp only [bind_ok_iff, XF.args_ok, pure_ok] at h
    obtain ⟨x, ⟨hx, hr⟩, rfl⟩ := h
    obtain ⟨hw, he⟩ := cmxEnc_of_cmxMap hm hx
    refine ⟨hw, ?_⟩
    simp only [encodeCmx, he, hm, Option.map_some, hr, XF.word_ofWord]
end Sys2Proof
end

