-- ==== Sys2Proof/Proofs/MemoryCodec.lean ====
section
/-!
SUPPORT. The memory slot: each field reader accepts exactly the encodings of what it gives, and each form reads what the encoder writes (05 R97 to R99).
-/
namespace Sys2Proof

/-! ### Field readers -/

theorem Width.enc_of_dec {x : BitVec 4} {w : Width} (h : Width.dec x = some w) : w.enc = x := by revert x; cases w <;> decide
@[simp] theorem Width.dec_enc (w : Width) : Width.dec w.enc = some w := by cases w <;> rfl
theorem Scope.enc_of_dec {x : BitVec 4} {s : Scope} (h : Scope.dec x = some s) : s.enc = x := by revert x; cases s <;> decide
@[simp] theorem Scope.dec_enc (s : Scope) : Scope.dec s.enc = some s := by cases s <;> rfl
theorem AtomOp.enc_of_dec {x : BitVec 4} {o : AtomOp} (h : AtomOp.dec x = some o) : o.enc = x := by revert x; cases o <;> decide
@[simp] theorem AtomOp.dec_enc (o : AtomOp) : AtomOp.dec o.enc = some o := by cases o <;> rfl
theorem Order.enc_of_dec {x : BitVec 4} {o : Order} (h : Order.dec x = some o) : o.enc = x := by revert x; cases o <;> decide
@[simp] theorem Order.dec_enc (o : Order) : Order.dec o.enc = some o := by cases o <;> rfl
theorem PathK.enc_dec (x : BitVec 2) : (PathK.dec x).enc = x := by revert x; decide
theorem PathK.dec_enc (p : PathK) : PathK.dec p.enc = p := by cases p <;> rfl

theorem widthField_ok {store : Bool} {x : BitVec 4} {w : Width} :
    widthField store x = .ok w ↔ w.enc = x ∧ (store = true → w.store = true) := by
  unfold widthField
  split
  · rename_i v hv
    cases Width.enc_of_dec hv
    split
    · rename_i hs
      simp only [bad_ne_ok, false_iff]
      rintro ⟨e, hw⟩
      have e : w = v := by simpa using congrArg Width.dec e
      subst e
      simp_all
    · rename_i hs
      rw [pure_ok]
      constructor
      · rintro rfl
        exact ⟨rfl, by simpa using hs⟩
      · rintro ⟨e, -⟩
        simpa using (congrArg Width.dec e).symm
  · rename_i hv
    simp only [bad_ne_ok, false_iff]
    rintro ⟨rfl, -⟩
    simp at hv

theorem atomField_ok {red wd : Bool} {x : BitVec 4} {o : AtomOp} :
    atomField red wd x = .ok o ↔ o.enc = x ∧ (wd = true → o.wide = true) ∧ (red = true → o ≠ .cas) := by
  unfold atomField
  split
  · rename_i v hv
    cases AtomOp.enc_of_dec hv
    split
    · rename_i hs
      simp only [bad_ne_ok, false_iff]
      rintro ⟨e, hw, hr⟩
      have e : o = v := by simpa using congrArg AtomOp.dec e
      subst e
      cases wd <;> cases red <;> simp_all
    · rename_i hs
      rw [pure_ok]
      constructor
      · rintro rfl
        exact ⟨rfl, by simpa using hs⟩
      · rintro ⟨e, -⟩
        simpa using (congrArg AtomOp.dec e).symm
  · rename_i hv
    simp only [bad_ne_ok, false_iff]
    rintro ⟨rfl, -⟩
    simp at hv

theorem scField_ok {x : BitVec 4} {sc : Option Scope} : scField x = .ok sc ↔ encSc sc = x := by
  unfold scField
  split
  · rename_i h
    rw [beq_iff_eq] at h
    subst h
    cases sc with
    | none => simp [encSc]
    | some s => cases s <;> simp [encSc, Scope.enc]
  · rename_i h
    split
    · rename_i s hs
      cases Scope.enc_of_dec hs
      rw [pure_ok]
      constructor
      · rintro rfl
        rfl
      · cases sc with
        | none => exact fun e => absurd (beq_iff_eq.mpr e.symm) h
        | some t => exact fun e => by simpa [encSc] using (congrArg Scope.dec e).symm
    · rename_i hs
      simp only [bad_ne_ok, false_iff]
      rintro rfl
      cases sc with
      | none => exact h rfl
      | some s => simp [encSc] at hs

theorem scExact_ok {top x : BitVec 4} {sc : Scope} : scExact top x = .ok sc ↔ sc.enc = x ∧ sc.enc.ule top = true := by
  unfold scExact
  split
  · rename_i s hs
    cases Scope.enc_of_dec hs
    have he : sc.enc = s.enc ↔ s = sc := ⟨fun e => by simpa using (congrArg Scope.dec e).symm, fun e => by rw [e]⟩
    split
    · rename_i ht
      rw [pure_ok, he]
      exact ⟨fun e => ⟨e, e ▸ ht⟩, fun e => e.1⟩
    · rename_i ht
      rw [bad_ne_ok, he, false_iff]
      rintro ⟨rfl, h⟩
      exact ht h
  · rename_i hs
    simp only [bad_ne_ok, false_iff]
    rintro ⟨rfl, -⟩
    simp at hs

theorem scUnused_ok {x : BitVec 4} {u : Unit} : scUnused x = .ok u ↔ x = 0#4 := by
  simp only [scUnused, bind_ok_iff, need_ok, zeroF_ok, exists_const]
  revert x; decide

theorem atomData_ok {use wide : FUse} {wd : Bool} {pos : Nat} {x : BitVec 11} {o : Opd} :
    atomData use wide wd pos x = .ok o ↔
      ((if wd then wide else use).ok o = true ∧ (wd = true → o.aligned 2 = true)) ∧ (if wd then wide else use).enc o = x := by
  simp only [atomData, bind_ok_iff, operand_ok, need_ok, pure_ok, exists_const]
  constructor
  · rintro ⟨a, ⟨h1, h2⟩, h3, rfl⟩
    exact ⟨⟨h1, by simpa [← Bool.not_eq_true, ← imp_iff_not_or] using h3⟩, h2⟩
  · rintro ⟨⟨h1, h3⟩, h2⟩
    exact ⟨o, ⟨h1, h2⟩, by simpa [← Bool.not_eq_true, ← imp_iff_not_or] using h3, rfl⟩

theorem imageField_ok {pos k : Nat} {x : BitVec 11} {n : BitVec 9} : imageField pos k x = .ok n ↔ n.toNat % k = 0 ∧ (Opd.s n).enc = x := by
  simp only [imageField, bind_ok_iff, operand_ok, need_ok, pure_ok, exists_const, FUse.ok_uni]
  constructor
  · rintro ⟨o, ⟨h1, h2⟩, h3, rfl⟩
    rw [← h1] at h2 h3
    exact ⟨by simpa [Opd.aligned, Opd.num] using h3, h2⟩
  · rintro ⟨h3, h2⟩
    exact ⟨.s n, ⟨rfl, h2⟩, by simpa [Opd.aligned, Opd.num] using h3, rfl⟩

theorem dataField_ok {use : Width → FUse} {w : Width} {x : BitVec 11} {o : Opd} :
    dataField use w.enc x = .ok o ↔ ((use w).ok o = true ∧ o.aligned w.regs = true) ∧ (use w).enc o = x := by
  simp only [dataField, bind_ok_iff, operand_ok, need_ok, pure_ok, exists_const, Width.dec_enc, Option.getD_some]
  constructor
  · rintro ⟨a, ⟨h1, h2⟩, h3, rfl⟩
    exact ⟨⟨h1, h3⟩, h2⟩
  · rintro ⟨⟨h1, h3⟩, h2⟩
    exact ⟨o, ⟨h1, h2⟩, h3, rfl⟩

/-! ### The fields of the slot -/

theorem MF.ofWord_word (r : MF) : MF.ofWord r.word = r := by
  obtain ⟨op, d, br, x, peg, sub, sc, a, wd, off⟩ := r
  simp only [MF.ofWord, MF.word, MF.mk.injEq]
  refine ⟨?_, ?_, ?_, ?_, ?_, ?_, ?_, ?_, ?_, ?_⟩ <;>
    simp (disch := decide) only [extractLsb'_append_lo, extractLsb'_append_hi, BitVec.extractLsb'_eq_self, Nat.reduceSub]

theorem MF.word_ofWord (w : DWord) : (MF.ofWord w).word = w := by
  simp (disch := decide) only [MF.ofWord, MF.word, extractLsb'_append]
  exact BitVec.extractLsb'_eq_self

theorem MF.mk18_off18 (r : MF) : MF.mk18 r.op.toNat r.d r.br r.x r.peg r.sub r.sc r.off18 = r := by
  obtain ⟨op, d, br, x, peg, sub, sc, a, wd, off⟩ := r
  simp only [MF.mk18, MF.off18, MF.mk.injEq, BitVec.ofNat_toNat, BitVec.setWidth_eq, true_and]
  have ha := a.isLt
  have hw := wd.isLt
  have hoff := off.isLt
  refine ⟨?_, ?_, ?_⟩ <;>
    (refine BitVec.eq_of_toNat_eq ?_
     simp only [BitVec.extractLsb'_toNat, toNat_append_add, Nat.shiftRight_eq_div_pow]
     omega)

theorem MF.off18_mk18 (op : Nat) (d : BitVec 11) (br : BitVec 5) (x : BitVec 11) (peg sub sc : BitVec 4) (off : BitVec 18) :
    (MF.mk18 op d br x peg sub sc off).off18 = off := by
  refine BitVec.eq_of_toNat_eq ?_
  simp only [MF.mk18, MF.off18, BitVec.extractLsb'_toNat, toNat_append_add, Nat.shiftRight_eq_div_pow]
  omega

end Sys2Proof
end
section
namespace Sys2Proof

/-! ### The forms -/

/-- What a load or store reads as: operands its form takes, which the fields encode. -/
theorem decLdSt_ok {r : MF} {store : Bool} {use : Width → FUse} {xu : FUse} {k : Opd → Opd → Option (BitVec 3) → Width → Option Scope → Instr}
    {i : Instr} : decLdSt r store use xu k = .ok i ↔ ∃ d x p w sc,
      ((use w).ok d = true ∧ d.aligned w.regs = true ∧ xu.ok x = true ∧ (store = false → p.isSome = true) ∧ (store = true → w.store = true))
      ∧ ((use w).enc d = r.d ∧ xu.enc x = r.x ∧ encPeg p = r.peg ∧ w.enc = r.sub ∧ encSc sc = r.sc) ∧ k d x p w sc = i := by
  simp only [decLdSt, bind_ok_iff, operand_ok, pegField_ok, widthField_ok, scField_ok, pure_ok]
  constructor
  · rintro ⟨d, hd, x, ⟨hx, hxe⟩, p, ⟨hp, hpr⟩, w, ⟨hw, hws⟩, sc, hsc, rfl⟩
    rw [← hw, dataField_ok] at hd
    obtain ⟨⟨hd, hda⟩, hde⟩ := hd
    exact ⟨d, x, p, w, sc, ⟨hd, hda, hx, by simpa using hpr, hws⟩, ⟨hde, hxe, hp, hw, hsc⟩, rfl⟩
  · rintro ⟨d, x, p, w, sc, ⟨hd, hda, hx, hpr, hws⟩, ⟨hde, hxe, hp, hw, hsc⟩, rfl⟩
    refine ⟨d, ?_, x, ⟨hx, hxe⟩, p, ⟨hp, by simpa using hpr⟩, w, ⟨hw, hws⟩, sc, hsc, rfl⟩
    rw [← hw, dataField_ok]
    exact ⟨⟨hd, hda⟩, hde⟩

/-- What a scratchpad load or store reads as. -/
theorem decLdsSts_ok {r : MF} {store : Bool} {use : Width → FUse} {k : Opd → Opd → Option (BitVec 3) → Width → Instr} {i : Instr} :
    decLdsSts r store use k = .ok i ↔ ∃ d x p w,
      ((use w).ok d = true ∧ d.aligned w.regs = true ∧ FUse.src.ok x = true ∧ (store = false → p.isSome = true) ∧ (store = true → w.store = true))
      ∧ ((use w).enc d = r.d ∧ 0#5 = r.br ∧ FUse.src.enc x = r.x ∧ encPeg p = r.peg ∧ w.enc = r.sub ∧ 0#4 = r.sc) ∧ k d x p w = i := by
  simp only [decLdsSts, bind_ok_iff, operand_ok, pegField_ok, widthField_ok, zeroF_ok, pure_ok, exists_const]
  constructor
  · rintro ⟨d, hd, hb, x, ⟨hx, hxe⟩, p, ⟨hp, hpr⟩, w, ⟨hw, hws⟩, hsc, rfl⟩
    rw [← hw, dataField_ok] at hd
    obtain ⟨⟨hd, hda⟩, hde⟩ := hd
    exact ⟨d, x, p, w, ⟨hd, hda, hx, by simpa using hpr, hws⟩, ⟨hde, hb.symm, hxe, hp, hw, hsc.symm⟩, rfl⟩
  · rintro ⟨d, x, p, w, ⟨hd, hda, hx, hpr, hws⟩, ⟨hde, hb, hxe, hp, hw, hsc⟩, rfl⟩
    refine ⟨d, ?_, hb.symm, x, ⟨hx, hxe⟩, p, ⟨hp, by simpa using hpr⟩, w, ⟨hw, hws⟩, hsc.symm, rfl⟩
    rw [← hw, dataField_ok]
    exact ⟨⟨hd, hda⟩, hde⟩

/-- The destination of an atomic: none in the reduction forms. -/
def atomDest (red uf : Bool) : FUse := if red then .off else if uf then .uni else .vreg

/-- The data operand of an atomic by form and width (07 R152). -/
def atomOpd (uf wd : Bool) : FUse := if wd then (if uf then .uni else .vs) else if uf then .ukind else .src

section
variable {α : Type} {r : α}

theorem atomDest_bind {red uf wd : Bool} {x : BitVec 11} {k : Opd → Except Prob α} :
    (if red = true then (operand .off 7 x >>= k) else if uf = true then (atomData .uni .uni wd 7 x >>= k) else (atomData .vreg .vreg wd 7 x >>= k))
      = .ok r ↔ ∃ d, (((atomDest red uf).ok d = true ∧ (red = false → wd = true → d.aligned 2 = true)) ∧ (atomDest red uf).enc d = x) ∧ k d = .ok r := by
  cases red <;> cases uf <;> simp [bind_ok_iff, operand_ok, atomData_ok, atomDest]

theorem atomOpd_bind {uf wd : Bool} {x : BitVec 11} {k : Opd → Except Prob α} :
    (if uf = true then (atomData .ukind .uni wd 46 x >>= k) else (atomData .src .vs wd 46 x >>= k)) = .ok r
      ↔ ∃ a, (((atomOpd uf wd).ok a = true ∧ (wd = true → a.aligned 2 = true)) ∧ (atomOpd uf wd).enc a = x) ∧ k a = .ok r := by
  cases uf <;> cases wd <;> simp [bind_ok_iff, atomData_ok, atomOpd]

theorem atomRecord_bind {scr : Bool} {x : BitVec 5} {k : Except Prob α} :
    (if scr = true then (zeroF 18 x >>= fun _ => k) else k) = .ok r ↔ (scr = true → x = 0#5) ∧ k = .ok r := by
  cases scr <;> simp [bind_ok_iff]

theorem atomScope_bind {scr : Bool} {x : BitVec 4} {k : Option Scope → Except Prob α} :
    (if scr = true then (scExact 2#4 x >>= fun s => pure (some s) >>= k) else (scField x >>= k)) = .ok r
      ↔ ∃ sc, ((scr = true → ∃ t, sc = some t ∧ t.enc.ule 2#4 = true) ∧ encSc sc = x) ∧ k sc = .ok r := by
  cases scr
  · simp [bind_ok_iff, scField_ok]
  · simp only [if_true, bind_ok_iff, scExact_ok, pure_ok, true_implies]
    constructor
    · rintro ⟨t, ⟨he, ht⟩, _, rfl, hk⟩
      exact ⟨some t, ⟨⟨t, rfl, ht⟩, he⟩, hk⟩
    · rintro ⟨_, ⟨⟨t, rfl, ht⟩, he⟩, hk⟩
      exact ⟨t, ⟨he, ht⟩, _, rfl, hk⟩

end

/-- The operands that an atomic's form admits. -/
def atomAdmits (red scr uf wd : Bool) (d a x : Opd) (p : Option (BitVec 3)) (o : AtomOp) (sc : Option Scope) : Prop :=
  ((atomDest red uf).ok d = true ∧ (red = false → wd = true → d.aligned 2 = true))
  ∧ ((atomOpd uf wd).ok a = true ∧ (wd = true → a.aligned 2 = true)) ∧ (if uf then FUse.ukind else .src).ok x = true
  ∧ ((!red) = true → p.isSome = true) ∧ ((wd = true → o.wide = true) ∧ (red = true → o ≠ .cas))
  ∧ (scr = true → ∃ t, sc = some t ∧ t.enc.ule 2#4 = true)

/-- What an atomic reads as. -/
theorem decAtom_ok {r : MF} {red scr uf : Bool} {k : Opd → Opd → Opd → Option (BitVec 3) → AtomOp → Option Scope → Instr} {i : Instr} :
    decAtom r red scr uf k = .ok i ↔ ∃ d a x p o sc, atomAdmits red scr uf (r.wd == 1#1) d a x p o sc
      ∧ ((atomDest red uf).enc d = r.d ∧ (scr = true → r.br = 0#5) ∧ (if uf then FUse.ukind else .src).enc x = r.x ∧ encPeg p = r.peg ∧ o.enc = r.sub
        ∧ encSc sc = r.sc ∧ (atomOpd uf (r.wd == 1#1)).enc a = r.a) ∧ k d a x p o sc = i := by
  simp only [decAtom, atomDest_bind, atomRecord_bind, atomScope_bind, atomOpd_bind, bind_ok_iff, operand_ok, pegField_ok, atomField_ok, pure_ok]
  constructor
  · rintro ⟨d, ⟨hd, hde⟩, hb, x, ⟨hx, hxe⟩, p, ⟨hpe, hp⟩, o, ⟨hoe, ho⟩, sc, ⟨hsc, hsce⟩, a, ⟨ha, hae⟩, rfl⟩
    exact ⟨d, a, x, p, o, sc, ⟨hd, ha, hx, hp, ho, hsc⟩, ⟨hde, hb, hxe, hpe, hoe, hsce, hae⟩, rfl⟩
  · rintro ⟨d, a, x, p, o, sc, ⟨hd, ha, hx, hp, ho, hsc⟩, ⟨hde, hb, hxe, hpe, hoe, hsce, hae⟩, rfl⟩
    exact ⟨d, ⟨hd, hde⟩, hb, x, ⟨hx, hxe⟩, p, ⟨hpe, hp⟩, o, ⟨hoe, ho⟩, sc, ⟨hsc, hsce⟩, a, ⟨ha, hae⟩, rfl⟩
end Sys2Proof
end
section
namespace Sys2Proof

theorem Scope.enc_ule (s : Scope) : s.enc.ule 9#4 = true := by cases s <;> decide

/-- What a fence reads as. -/
theorem decFence_ok {w : DWord} {cross : Bool} {i : Instr} : decFence w (MF.ofWord w) cross = .ok i ↔ ∃ ord sc,
    (cross = true ∨ w.extractLsb' 7 2 = 0#2) ∧ (cross = true ∨ w.extractLsb' 9 2 = 0#2) ∧ w.extractLsb' 11 27 = 0#27
    ∧ Order.enc ord = w.extractLsb' 38 4 ∧ Scope.enc sc = w.extractLsb' 42 4 ∧ w.extractLsb' 46 18 = 0#18
    ∧ (if cross then Instr.fenceX (PathK.dec (w.extractLsb' 7 2)) (PathK.dec (w.extractLsb' 9 2)) ord sc else .fence ord sc) = i := by
  rcases ho : Order.dec (w.extractLsb' 38 4) with _ | o
  · simp only [decFence, zeroF_unless_ok, MF.ofWord, ho, bind_ok_iff, bad_ne_ok, zeroF_ok, exists_const, false_and, and_false, false_iff]
    rintro ⟨ord, sc, -, -, -, hord, -⟩
    rw [← hord] at ho
    simp at ho
  · simp only [decFence, zeroF_unless_ok, MF.ofWord, ho, bind_ok_iff, scExact_ok, Scope.enc_ule, zeroF_ok, pure_ok, exists_const, and_true]
    constructor
    · rintro ⟨ha, hb, hz, _, rfl, sc, hsc, ht, rfl⟩
      exact ⟨o, sc, ha, hb, hz, Order.enc_of_dec ho, hsc, ht, rfl⟩
    · rintro ⟨ord, sc, ha, hb, hz, hord, hsc, ht, rfl⟩
      rw [← hord, Order.dec_enc] at ho
      cases ho
      exact ⟨ha, hb, hz, _, rfl, sc, hsc, ht, rfl⟩

theorem encFence_fields (op : Nat) (pa pb : BitVec 2) (ord : Order) (sc : Scope) :
    (encFence op pa pb ord sc).extractLsb' 0 7 = BitVec.ofNat 7 op ∧ (encFence op pa pb ord sc).extractLsb' 7 2 = pa
    ∧ (encFence op pa pb ord sc).extractLsb' 9 2 = pb ∧ (encFence op pa pb ord sc).extractLsb' 11 27 = 0#27
    ∧ (encFence op pa pb ord sc).extractLsb' 38 4 = ord.enc ∧ (encFence op pa pb ord sc).extractLsb' 42 4 = sc.enc
    ∧ (encFence op pa pb ord sc).extractLsb' 46 18 = 0#18 := by
  unfold encFence
  refine ⟨?_, ?_, ?_, ?_, ?_, ?_, ?_⟩ <;>
    simp (disch := decide) only [extractLsb'_append_lo, extractLsb'_append_hi, BitVec.extractLsb'_eq_self, Nat.reduceSub]

theorem encFence_eq {w : DWord} {op : Nat} {ord : Order} {sc : Scope} (ho : (w.extractLsb' 0 7).toNat = op) (hz : w.extractLsb' 11 27 = 0#27)
    (hord : ord.enc = w.extractLsb' 38 4) (hsc : sc.enc = w.extractLsb' 42 4) (ht : w.extractLsb' 46 18 = 0#18) :
    encFence op (w.extractLsb' 7 2) (w.extractLsb' 9 2) ord sc = w := by
  simp (disch := decide) only [encFence, hord, hsc, ← hz, ← ht, ← ho, BitVec.ofNat_toNat, BitVec.setWidth_eq, extractLsb'_append]
  exact BitVec.extractLsb'_eq_self

theorem FUse.enc_eq {u : FUse} (o : Opd) (hu : u ≠ .off) : u.enc o = o.enc := by
  unfold FUse.enc
  split
  · exact absurd (beq_iff_eq.mp ‹_›) hu
  · rfl

theorem Width.dataUse_ne_off (w : Width) : w.dataUse ≠ .off := by cases w <;> decide
theorem Width.udataUse_ne_off (w : Width) : w.udataUse ≠ .off := by cases w <;> decide
theorem atomOpd_ne_off (uf wd : Bool) : atomOpd uf wd ≠ .off := by cases uf <;> cases wd <;> decide

section
variable {w : DWord} {op : Nat} {d x : BitVec 11} {br : BitVec 5} {peg sub sc : BitVec 4} {off : BitVec 18}

/-- The word of the M form whose fields are those of `w` is `w`. -/
theorem MF.mk18_word_eq (ho : (MF.ofWord w).op.toNat = op) (hd : d = (MF.ofWord w).d) (hb : br = (MF.ofWord w).br) (hx : x = (MF.ofWord w).x)
    (hp : peg = (MF.ofWord w).peg) (hs : sub = (MF.ofWord w).sub) (hsc : sc = (MF.ofWord w).sc) (hoff : off = (MF.ofWord w).off18) :
    (MF.mk18 op d br x peg sub sc off).word = w := by
  rw [← ho, hd, hb, hx, hp, hs, hsc, hoff, MF.mk18_off18, MF.word_ofWord]

/-- The word of an atomic whose fields are those of `w` is `w`. -/
theorem encAtom_eq {a x : Opd} {p : Option (BitVec 3)} {o : AtomOp} {wd : Bool} (ho : (MF.ofWord w).op.toNat = op) (hd : d = (MF.ofWord w).d)
    (hb : br = (MF.ofWord w).br) (hx : x.enc = (MF.ofWord w).x) (hp : encPeg p = (MF.ofWord w).peg) (hs : o.enc = (MF.ofWord w).sub)
    (hsc : sc = (MF.ofWord w).sc) (ha : a.enc = (MF.ofWord w).a) (hw : ((MF.ofWord w).wd == 1#1) = wd) :
    encAtom op d br x p o sc a wd (MF.ofWord w).off = w := by
  rw [beq_one_eq] at hw
  rw [encAtom, ← ho, hd, hb, hx, hp, hs, hsc, ha, hw]
  simp only [BitVec.ofNat_toNat, BitVec.setWidth_eq]
  exact MF.word_ofWord w

end

section
variable {d a x : Opd} {br : BitVec 5} {off : BitVec 6} {p : Option (BitVec 3)} {o : AtomOp} {wd : Bool}

theorem wfAtom_src : wfAtom o wd a .src = true ↔
    ((atomOpd false wd).ok a = true ∧ (wd = true → a.aligned 2 = true)) ∧ (wd = true → o.wide = true) := by
  cases wd <;> simp [wfAtom, atomOpd, and_comm]

theorem wfAtom_ukind : wfAtom o wd a .ukind = true ↔
    ((atomOpd true wd).ok a = true ∧ (wd = true → a.aligned 2 = true)) ∧ (wd = true → o.wide = true) := by
  cases wd <;> simp [wfAtom, atomOpd, and_comm]

theorem Scope.enc_ule_bent (s : Scope) : s.enc.ule 2#4 = s.scratch := by cases s <;> rfl

/-! An atomic is well-formed exactly where its form admits its operands. -/

theorem wf_atom {sc : Option Scope} : (Instr.atom d a br x off p o sc wd).wf = true ↔ atomAdmits false false false wd d a x p o sc := by
  simp only [Instr.wf, atomAdmits, Bool.and_eq_true, wfAtom_src]
  cases wd <;> simp [atomDest] <;> grind
theorem wf_red {sc : Option Scope} : (Instr.red a br x off p o sc wd).wf = true ↔ atomAdmits true false false wd .nil a x p o sc := by
  simp only [Instr.wf, atomAdmits, Bool.and_eq_true, wfAtom_src]
  cases wd <;> simp [atomDest] <;> grind
theorem wf_atoms {sc : Scope} : (Instr.atoms d a x off p o sc wd).wf = true ↔ atomAdmits false true false wd d a x p o (some sc) := by
  simp only [Instr.wf, atomAdmits, Bool.and_eq_true, wfAtom_src]
  cases wd <;> simp [atomDest, Scope.enc_ule_bent] <;> grind
theorem wf_reds {sc : Scope} : (Instr.reds a x off p o sc wd).wf = true ↔ atomAdmits true true false wd .nil a x p o (some sc) := by
  simp only [Instr.wf, atomAdmits, Bool.and_eq_true, wfAtom_src]
  cases wd <;> simp [atomDest, Scope.enc_ule_bent] <;> grind
theorem wf_atomu {d : BitVec 9} {sc : Option Scope} :
    (Instr.atomu d a br x off p o sc wd).wf = true ↔ atomAdmits false false true wd (.s d) a x p o sc := by
  simp only [Instr.wf, atomAdmits, Bool.and_eq_true, wfAtom_ukind]
  cases wd <;> simp [atomDest, Opd.aligned, Opd.num] <;> grind
theorem wf_redu {sc : Option Scope} : (Instr.redu a br x off p o sc wd).wf = true ↔ atomAdmits true false true wd .nil a x p o sc := by
  simp only [Instr.wf, atomAdmits, Bool.and_eq_true, wfAtom_ukind]
  cases wd <;> simp [atomDest] <;> grind

end

/-- What the memory slot reads is well-formed, and the word is its word. -/
theorem encodeMem_of_decodeMem {i : Instr} {w : DWord} (h : decodeMem w = .ok i) : i.wf = true ∧ encodeMem i = some w := by
  unfold decodeMem at h
  dsimp only at h
  split at h
  next hop =>
    obtain ⟨d, x, p, wd, sc, ⟨hd, hda, hx, hpr, -⟩, ⟨hde, hxe, hp, hw, hsc⟩, rfl⟩ := decLdSt_ok.mp h
    exact ⟨by simp [Instr.wf, *], congrArg some (MF.mk18_word_eq hop hde rfl hxe hp hw hsc rfl)⟩
  next hop =>
    obtain ⟨d, x, p, wd, sc, ⟨hd, hda, hx, -, hws⟩, ⟨hde, hxe, hp, hw, hsc⟩, rfl⟩ := decLdSt_ok.mp h
    rw [FUse.enc_eq d wd.dataUse_ne_off] at hde
    exact ⟨by simp [Instr.wf, *], congrArg some (MF.mk18_word_eq hop hde rfl hxe hp hw hsc rfl)⟩
  next hop =>
    obtain ⟨d, x, p, wd, sc, ⟨hd, hda, hx, hpr, -⟩, ⟨hde, hxe, hp, hw, hsc⟩, rfl⟩ := decLdSt_ok.mp h
    rw [FUse.ok_uni] at hd
    rw [← hd] at hda hde
    have hda : (Opd.uni d).toNat % wd.regs = 0 := by simpa [Opd.aligned, Opd.num] using hda
    exact ⟨by simp [Instr.wf, *], congrArg some (MF.mk18_word_eq hop hde rfl hxe hp hw hsc rfl)⟩
  next hop =>
    obtain ⟨d, x, p, wd, sc, ⟨hd, hda, hx, -, hws⟩, ⟨hde, hxe, hp, hw, hsc⟩, rfl⟩ := decLdSt_ok.mp h
    rw [FUse.enc_eq d wd.udataUse_ne_off] at hde
    exact ⟨by simp [Instr.wf, *], congrArg some (MF.mk18_word_eq hop hde rfl hxe hp hw hsc rfl)⟩
  next hop =>
    obtain ⟨d, x, p, wd, ⟨hd, hda, hx, hpr, -⟩, ⟨hde, hb, hxe, hp, hw, hsc⟩, rfl⟩ := decLdsSts_ok.mp h
    exact ⟨by simp [Instr.wf, *], congrArg some (MF.mk18_word_eq hop hde hb hxe hp hw hsc rfl)⟩
  next hop =>
    obtain ⟨d, x, p, wd, ⟨hd, hda, hx, -, hws⟩, ⟨hde, hb, hxe, hp, hw, hsc⟩, rfl⟩ := decLdsSts_ok.mp h
    rw [FUse.enc_eq d wd.dataUse_ne_off] at hde
    exact ⟨by simp [Instr.wf, *], congrArg some (MF.mk18_word_eq hop hde hb hxe hp hw hsc rfl)⟩
  next hop =>
    simp only [bind_ok_iff, zeroF_ok, operand_ok, need_ok, scUnused_ok, pure_ok, exists_const] at h
    obtain ⟨hd, x, ⟨hx, hxe⟩, hp, hs, hsc, rfl⟩ := h
    exact ⟨hx, congrArg some (MF.mk18_word_eq hop hd.symm rfl hxe hp.symm (signCode_beq hs) hsc.symm rfl)⟩
  next hop =>
    obtain ⟨d, a, x, p, o, sc, hx, ⟨hde, -, hxe, hpe, hoe, hsce, hae⟩, rfl⟩ := decAtom_ok.mp h
    rw [FUse.enc_eq a (atomOpd_ne_off _ _)] at hae
    exact ⟨wf_atom.mpr hx, congrArg some (encAtom_eq hop hde rfl hxe hpe hoe hsce hae rfl)⟩
  next hop =>
    obtain ⟨d, a, x, p, o, sc, hx, ⟨hde, -, hxe, hpe, hoe, hsce, hae⟩, rfl⟩ := decAtom_ok.mp h
    obtain rfl := FUse.ok_off.mp hx.1.1
    rw [FUse.enc_eq a (atomOpd_ne_off _ _)] at hae
    exact ⟨wf_red.mpr hx, congrArg some (encAtom_eq hop hde rfl hxe hpe hoe hsce hae rfl)⟩
  next hop =>
    obtain ⟨d, a, x, p, o, sc, hx, ⟨hde, hb, hxe, hpe, hoe, hsce, hae⟩, rfl⟩ := decAtom_ok.mp h
    obtain ⟨-, -, -, -, -, hsc⟩ := id hx
    obtain ⟨t, rfl, -⟩ := hsc rfl
    rw [FUse.enc_eq a (atomOpd_ne_off _ _)] at hae
    exact ⟨wf_atoms.mpr hx, congrArg some (encAtom_eq hop hde (hb rfl).symm hxe hpe hoe hsce hae rfl)⟩
  next hop =>
    obtain ⟨d, a, x, p, o, sc, hx, ⟨hde, hb, hxe, hpe, hoe, hsce, hae⟩, rfl⟩ := decAtom_ok.mp h
    obtain rfl := FUse.ok_off.mp hx.1.1
    obtain ⟨-, -, -, -, -, hsc⟩ := id hx
    obtain ⟨t, rfl, -⟩ := hsc rfl
    rw [FUse.enc_eq a (atomOpd_ne_off _ _)] at hae
    exact ⟨wf_reds.mpr hx, congrArg some (encAtom_eq hop hde (hb rfl).symm hxe hpe hoe hsce hae rfl)⟩
  next hop =>
    obtain ⟨d, a, x, p, o, sc, hx, ⟨hde, -, hxe, hpe, hoe, hsce, hae⟩, rfl⟩ := decAtom_ok.mp h
    have hu := FUse.ok_uni.mp hx.1.1
    rw [← hu] at hx hde
    rw [FUse.enc_eq a (atomOpd_ne_off _ _)] at hae
    exact ⟨wf_atomu.mpr hx, congrArg some (encAtom_eq hop hde rfl hxe hpe hoe hsce hae rfl)⟩
  next hop =>
    obtain ⟨d, a, x, p, o, sc, hx, ⟨hde, -, hxe, hpe, hoe, hsce, hae⟩, rfl⟩ := decAtom_ok.mp h
    obtain rfl := FUse.ok_off.mp hx.1.1
    rw [FUse.enc_eq a (atomOpd_ne_off _ _)] at hae
    exact ⟨wf_redu.mpr hx, congrArg some (encAtom_eq hop hde rfl hxe hpe hoe hsce hae rfl)⟩
  next hop =>
    obtain ⟨ord, sc, ha, hb, hz, hord, hsc, ht, rfl⟩ := decFence_ok.mp h
    simp only [Bool.false_eq_true, false_or] at ha hb
    have he := encFence_eq hop hz hord hsc ht
    rw [ha, hb] at he
    exact ⟨rfl, congrArg some he⟩
  next hop =>
    obtain ⟨ord, sc, -, -, hz, hord, hsc, ht, rfl⟩ := decFence_ok.mp h
    refine ⟨rfl, congrArg some ?_⟩
    rw [PathK.enc_dec, PathK.enc_dec]
    exact encFence_eq hop hz hord hsc ht
  next hop =>
    simp only [bind_ok_iff, zeroF_ok, imageField_ok, scUnused_ok, pure_ok, exists_const] at h
    obtain ⟨hd, x, ⟨hx, hxe⟩, hp, hs, hsc, hoff, rfl⟩ := h
    exact ⟨by simp [Instr.wf, hx], congrArg some (MF.mk18_word_eq hop hd.symm rfl hxe hp.symm hs.symm hsc.symm hoff.symm)⟩
  next hop =>
    simp only [bind_ok_iff, zeroF_ok, imageField_ok, scUnused_ok, pure_ok, exists_const] at h
    obtain ⟨d, ⟨hd, hde⟩, hx, hp, hs, hsc, hoff, rfl⟩ := h
    exact ⟨by simp [Instr.wf, hd], congrArg some (MF.mk18_word_eq hop hde rfl hx.symm hp.symm hs.symm hsc.symm hoff.symm)⟩
  next hop =>
    simp only [bind_ok_iff, zeroF_ok, imageField_ok, pegField_ok, scUnused_ok, pure_ok, exists_const] at h
    obtain ⟨d, ⟨hd, hde⟩, hb, x, ⟨hx, hxe⟩, p, ⟨hp, hpr⟩, hs, hsc, hoff, rfl⟩ := h
    exact ⟨by simp [Instr.wf, hx, hpr trivial], congrArg some (MF.mk18_word_eq hop hde hb.symm hxe hp hs.symm hsc.symm hoff.symm)⟩
  next hop =>
    simp only [bind_ok_iff, zeroF_ok, imageField_ok, pegField_ok, scUnused_ok, pure_ok, exists_const] at h
    obtain ⟨hd, hb, x, ⟨hx, hxe⟩, p, ⟨hp, -⟩, hs, hsc, hoff, rfl⟩ := h
    exact ⟨rfl, congrArg some (MF.mk18_word_eq hop hd.symm hb.symm hxe hp hs.symm hsc.symm hoff.symm)⟩
  next hop =>
    simp only [bind_ok_iff, zeroF_ok, imageField_ok, pegField_ok, scUnused_ok, pure_ok, exists_const] at h
    obtain ⟨d, ⟨hd, hde⟩, hb, hx, p, ⟨hp, hpr⟩, hs, hsc, hoff, rfl⟩ := h
    exact ⟨by simp [Instr.wf, hd, hpr trivial], congrArg some (MF.mk18_word_eq hop hde hb.symm hx.symm hp hs.symm hsc.symm hoff.symm)⟩
  next => exact (bad_ne_ok.mp h).elim

/-- An atomic whose operands its form admits reads back from its fields. -/
theorem decAtom_encAtom {op : BitVec 7} {red scr uf wd : Bool} {d a x : Opd} {p : Option (BitVec 3)} {o : AtomOp} {sc : Option Scope} {br : BitVec 5}
    {off : BitVec 6} {k : Bool → Opd → Opd → Opd → Option (BitVec 3) → AtomOp → Option Scope → Instr}
    (hx : atomAdmits red scr uf wd d a x p o sc) (hb : scr = true → br = 0#5) :
    decAtom ⟨op, (atomDest red uf).enc d, br, x.enc, encPeg p, o.enc, encSc sc, a.enc, BitVec.ofBool wd, off⟩ red scr uf
      (k (BitVec.ofBool wd == 1#1)) = .ok (k wd d a x p o sc) := by
  have hwd : (BitVec.ofBool wd == 1#1) = wd := beq_one_eq.mpr rfl
  rw [hwd]
  refine decAtom_ok.mpr ⟨d, a, x, p, o, sc, ?_, ⟨rfl, hb, FUse.enc_eq x (by cases uf <;> decide), rfl, rfl, rfl, FUse.enc_eq a (atomOpd_ne_off _ _)⟩, rfl⟩
  dsimp only
  rwa [hwd]

/-- The memory slot reads back what it writes. -/
theorem decodeMem_encodeMem {i : Instr} {w : DWord} (h : encodeMem i = some w) (hw : i.wf = true) : decodeMem w = .ok i := by
  unfold encodeMem at h
  split at h
  next d br x off p wd sc =>
    cases h
    simp only [Instr.wf, Bool.and_eq_true] at hw
    obtain ⟨⟨⟨hd, hda⟩, hx⟩, hp⟩ := hw
    rw [decodeMem, MF.ofWord_word, MF.off18_mk18]
    exact decLdSt_ok.mpr ⟨d, x, p, wd, sc, ⟨hd, hda, hx, fun _ => hp, nofun⟩, ⟨rfl, rfl, rfl, rfl, rfl⟩, rfl⟩
  next d br x off p wd sc =>
    cases h
    simp only [Instr.wf, Bool.and_eq_true] at hw
    obtain ⟨⟨⟨hs, hd⟩, hda⟩, hx⟩ := hw
    rw [decodeMem, MF.ofWord_word, MF.off18_mk18]
    exact decLdSt_ok.mpr ⟨d, x, p, wd, sc, ⟨hd, hda, hx, nofun, fun _ => hs⟩, ⟨FUse.enc_eq d wd.dataUse_ne_off, rfl, rfl, rfl, rfl⟩, rfl⟩
  next d br x off p wd sc =>
    cases h
    simp only [Instr.wf, Bool.and_eq_true, beq_iff_eq] at hw
    obtain ⟨⟨hda, hx⟩, hp⟩ := hw
    rw [decodeMem, MF.ofWord_word, MF.off18_mk18]
    exact decLdSt_ok.mpr ⟨.s d, x, p, wd, sc, ⟨rfl, beq_iff_eq.mpr hda, hx, fun _ => hp, nofun⟩, ⟨rfl, rfl, rfl, rfl, rfl⟩, rfl⟩
  next d br x off p wd sc =>
    cases h
    simp only [Instr.wf, Bool.and_eq_true] at hw
    obtain ⟨⟨⟨hs, hd⟩, hda⟩, hx⟩ := hw
    rw [decodeMem, MF.ofWord_word, MF.off18_mk18]
    exact decLdSt_ok.mpr ⟨d, x, p, wd, sc, ⟨hd, hda, hx, nofun, fun _ => hs⟩, ⟨FUse.enc_eq d wd.udataUse_ne_off, rfl, rfl, rfl, rfl⟩, rfl⟩
  next d x off p wd =>
    cases h
    simp only [Instr.wf, Bool.and_eq_true] at hw
    obtain ⟨⟨⟨hd, hda⟩, hx⟩, hp⟩ := hw
    rw [decodeMem, MF.ofWord_word, MF.off18_mk18]
    exact decLdsSts_ok.mpr ⟨d, x, p, wd, ⟨hd, hda, hx, fun _ => hp, nofun⟩, ⟨rfl, rfl, rfl, rfl, rfl, rfl⟩, rfl⟩
  next d x off p wd =>
    cases h
    simp only [Instr.wf, Bool.and_eq_true] at hw
    obtain ⟨⟨⟨hs, hd⟩, hda⟩, hx⟩ := hw
    rw [decodeMem, MF.ofWord_word, MF.off18_mk18]
    exact decLdsSts_ok.mpr ⟨d, x, p, wd, ⟨hd, hda, hx, nofun, fun _ => hs⟩, ⟨FUse.enc_eq d wd.dataUse_ne_off, rfl, rfl, rfl, rfl, rfl⟩, rfl⟩
  next br x off l2 =>
    cases h
    rw [decodeMem, MF.ofWord_word, MF.off18_mk18]
    simp only [MF.mk18, BitVec.reduceToNat, bind_ok_iff, zeroF_ok, operand_ok, need_ok, scUnused_ok, pure_ok, signCode_ult, signCode_beq_one, exists_const, true_and]
    exact ⟨x, ⟨hw, rfl⟩, rfl⟩
  next d a br x off p o sc wd =>
    cases h
    rw [decodeMem, encAtom, MF.ofWord_word]
    simp only [BitVec.reduceToNat]
    exact decAtom_encAtom (red := false) (scr := false) (uf := false) (d := d) (sc := sc)
      (k := fun wd d a x p o sc => .atom d a br x off p o sc wd) (wf_atom.mp hw) nofun
  next a br x off p o sc wd =>
    cases h
    rw [decodeMem, encAtom, MF.ofWord_word]
    simp only [BitVec.reduceToNat]
    exact decAtom_encAtom (red := true) (scr := false) (uf := false) (d := .nil) (sc := sc)
      (k := fun wd _ a x p o sc => .red a br x off p o sc wd) (wf_red.mp hw) nofun
  next d a x off p o sc wd =>
    cases h
    rw [decodeMem, encAtom, MF.ofWord_word]
    simp only [BitVec.reduceToNat]
    exact decAtom_encAtom (red := false) (scr := true) (uf := false) (d := d) (sc := some sc)
      (k := fun wd d a x p o sc => .atoms d a x off p o (sc.getD .bent) wd) (wf_atoms.mp hw) (fun _ => rfl)
  next a x off p o sc wd =>
    cases h
    rw [decodeMem, encAtom, MF.ofWord_word]
    simp only [BitVec.reduceToNat]
    exact decAtom_encAtom (red := true) (scr := true) (uf := false) (d := .nil) (sc := some sc)
      (k := fun wd _ a x p o sc => .reds a x off p o (sc.getD .bent) wd) (wf_reds.mp hw) (fun _ => rfl)
  next d a br x off p o sc wd =>
    cases h
    rw [decodeMem, encAtom, MF.ofWord_word]
    simp only [BitVec.reduceToNat]
    exact decAtom_encAtom (red := false) (scr := false) (uf := true) (d := .s d) (sc := sc)
      (k := fun wd d a x p o sc => .atomu d.uni a br x off p o sc wd) (wf_atomu.mp hw) nofun
  next a br x off p o sc wd =>
    cases h
    rw [decodeMem, encAtom, MF.ofWord_word]
    simp only [BitVec.reduceToNat]
    exact decAtom_encAtom (red := true) (scr := false) (uf := true) (d := .nil) (sc := sc)
      (k := fun wd _ a x p o sc => .redu a br x off p o sc wd) (wf_redu.mp hw) nofun
  next ord sc =>
    cases h
    obtain ⟨ho, ha, hb, hz, hord, hsc, ht⟩ := encFence_fields 0x10 0#2 0#2 ord sc
    have hop : (MF.ofWord (encFence 0x10 0#2 0#2 ord sc)).op.toNat = 0x10 := congrArg BitVec.toNat ho
    simp only [decodeMem, hop]
    exact decFence_ok.mpr ⟨ord, sc, .inr ha, .inr hb, hz, hord.symm, hsc.symm, ht, rfl⟩
  next pa pb ord sc =>
    cases h
    obtain ⟨ho, ha, hb, hz, hord, hsc, ht⟩ := encFence_fields 0x11 pa.enc pb.enc ord sc
    have hop : (MF.ofWord (encFence 0x11 pa.enc pb.enc ord sc)).op.toNat = 0x11 := congrArg BitVec.toNat ho
    simp only [decodeMem, hop]
    exact decFence_ok.mpr ⟨ord, sc, .inl rfl, .inl rfl, hz, hord.symm, hsc.symm, ht, by rw [ha, hb, PathK.dec_enc, PathK.dec_enc]; rfl⟩
  next br x =>
    cases h
    rw [decodeMem, MF.ofWord_word, MF.off18_mk18]
    simp only [MF.mk18, BitVec.reduceToNat, bind_ok_iff, zeroF_ok, imageField_ok, scUnused_ok, pure_ok, exists_const, true_and]
    exact ⟨x, ⟨by simpa [Instr.wf] using hw, rfl⟩, rfl⟩
  next br d =>
    cases h
    rw [decodeMem, MF.ofWord_word, MF.off18_mk18]
    simp only [MF.mk18, BitVec.reduceToNat, bind_ok_iff, zeroF_ok, imageField_ok, scUnused_ok, pure_ok, exists_const, true_and]
    exact ⟨d, ⟨by simpa [Instr.wf] using hw, rfl⟩, rfl⟩
  next d x p =>
    cases h
    simp only [Instr.wf, Bool.and_eq_true, beq_iff_eq] at hw
    rw [decodeMem, MF.ofWord_word, MF.off18_mk18]
    simp only [MF.mk18, BitVec.reduceToNat, bind_ok_iff, zeroF_ok, imageField_ok, pegField_ok, scUnused_ok, pure_ok, exists_const, true_and]
    exact ⟨d, ⟨Nat.mod_one _, rfl⟩, x, ⟨hw.1, rfl⟩, p, ⟨rfl, fun _ => hw.2⟩, rfl⟩
  next x p =>
    cases h
    rw [decodeMem, MF.ofWord_word, MF.off18_mk18]
    simp only [MF.mk18, BitVec.reduceToNat, bind_ok_iff, zeroF_ok, imageField_ok, pegField_ok, scUnused_ok, pure_ok, exists_const, true_and]
    exact ⟨x, ⟨Nat.mod_one _, rfl⟩, p, ⟨rfl, nofun⟩, rfl⟩
  next d p =>
    cases h
    simp only [Instr.wf, Bool.and_eq_true, beq_iff_eq] at hw
    rw [decodeMem, MF.ofWord_word, MF.off18_mk18]
    simp only [MF.mk18, BitVec.reduceToNat, bind_ok_iff, zeroF_ok, imageField_ok, pegField_ok, scUnused_ok, pure_ok, exists_const, true_and]
    exact ⟨d, ⟨hw.1, rfl⟩, p, ⟨rfl, fun _ => hw.2⟩, rfl⟩
  next => cases h
end Sys2Proof
end

