-- ==== Sys2Proof/Proofs/ControlCodec.lean ====
section
/-!
SUPPORT. The control slot: the word of each form is the word that has its fields, and what each code reads (05 R102 to R104).
-/
namespace Sys2Proof

/-- A bit is a field of one bit. -/
theorem extractLsb'_one {n k : Nat} (w : BitVec n) : w.extractLsb' k 1 = BitVec.ofBool (w.getLsbD k) := by
  ext i hi
  obtain rfl : i = 0 := by omega
  simp

theorem topBit (w : Word) : w.getLsbD 31 = (w.extractLsb' 31 1 == 1#1) := by
  rw [extractLsb'_one]
  cases w.getLsbD 31 <;> rfl

/-! ### The words of the forms -/

theorem encReg_eq_iff {fn : Nat} {d a b : BitVec 9} {w : Word} : encReg fn d a b = w ↔
    w.extractLsb' 31 1 = 1#1 ∧ w.extractLsb' 27 4 = BitVec.ofNat 4 fn ∧ w.extractLsb' 18 9 = d ∧ w.extractLsb' 9 9 = a ∧ w.extractLsb' 0 9 = b := by
  constructor
  · rintro rfl
    simp (disch := decide) only [encReg, extractLsb'_append_lo, extractLsb'_append_hi, BitVec.extractLsb'_eq_self, Nat.reduceSub, and_self]
  · rintro ⟨ht, hf, rfl, rfl, rfl⟩
    simp (disch := decide) only [encReg, ← ht, ← hf, extractLsb'_append]
    exact BitVec.extractLsb'_eq_self

theorem encImm_eq_iff {fn : Nat} {d a : BitVec 9} {i : BitVec 7} {w : Word} : encImm fn d a i = w ↔
    w.extractLsb' 31 1 = 0#1 ∧ w.extractLsb' 0 6 = BitVec.ofNat 6 (16 + fn) ∧ w.extractLsb' 6 9 = d ∧ w.extractLsb' 15 9 = a ∧
      w.extractLsb' 24 7 = i := by
  constructor
  · rintro rfl
    simp (disch := decide) only [encImm, extractLsb'_append_lo, extractLsb'_append_hi, BitVec.extractLsb'_eq_self, Nat.reduceSub, and_self]
  · rintro ⟨ht, hf, rfl, rfl, rfl⟩
    simp (disch := decide) only [encImm, ← ht, ← hf, extractLsb'_append]
    exact BitVec.extractLsb'_eq_self

theorem encC16_eq_iff {op : Nat} {s : BitVec 9} {off : BitVec 16} {w : Word} : encC16 op s off = w ↔
    w.extractLsb' 31 1 = 0#1 ∧ w.extractLsb' 0 6 = BitVec.ofNat 6 op ∧ w.extractLsb' 6 9 = s ∧ w.extractLsb' 15 16 = off := by
  constructor
  · rintro rfl
    simp (disch := decide) only [encC16, extractLsb'_append_lo, extractLsb'_append_hi, BitVec.extractLsb'_eq_self, Nat.reduceSub, and_self]
  · rintro ⟨ht, ho, rfl, rfl⟩
    simp (disch := decide) only [encC16, ← ht, ← ho, extractLsb'_append]
    exact BitVec.extractLsb'_eq_self

theorem encC25_eq_iff {op : Nat} {off : BitVec 25} {w : Word} : encC25 op off = w ↔
    w.extractLsb' 31 1 = 0#1 ∧ w.extractLsb' 0 6 = BitVec.ofNat 6 op ∧ w.extractLsb' 6 25 = off := by
  constructor
  · rintro rfl
    simp (disch := decide) only [encC25, extractLsb'_append_lo, extractLsb'_append_hi, BitVec.extractLsb'_eq_self, Nat.reduceSub, and_self]
  · rintro ⟨ht, ho, rfl⟩
    simp (disch := decide) only [encC25, ← ht, ← ho, extractLsb'_append]
    exact BitVec.extractLsb'_eq_self

theorem encPair_eq_iff {op : Nat} {d a b : BitVec 8} {w : Word} : encPair op d a b = w ↔
    w.extractLsb' 31 1 = 0#1 ∧ w.extractLsb' 0 6 = BitVec.ofNat 6 op ∧ w.extractLsb' 30 1 = 0#1 ∧ w.extractLsb' 6 8 = d ∧
      w.extractLsb' 14 8 = a ∧ w.extractLsb' 22 8 = b := by
  have hz : 0#2 = 0#1 ++ 0#1 := rfl
  constructor
  · rintro rfl
    simp (disch := decide) only [encPair, hz, extractLsb'_append_lo, extractLsb'_append_hi, BitVec.extractLsb'_eq_self, Nat.reduceSub, and_self]
  · rintro ⟨ht, ho, hz1, rfl, rfl, rfl⟩
    rw [encPair, hz]
    nth_rw 1 [← ht]
    rw [← hz1, ← ho]
    simp (disch := decide) only [extractLsb'_append]
    exact BitVec.extractLsb'_eq_self

/-- The word of a form whose fields `x` are followed by bits that are zero. -/
theorem shortWord_eq_iff {k n : Nat} {x : BitVec n} {c : BitVec 6} {w : BitVec (1 + k + n + 6)} : 0#(1 + k) ++ x ++ c = w ↔
    w.extractLsb' (6 + n + k) 1 = 0#1 ∧ w.extractLsb' 0 6 = c ∧ w.extractLsb' (6 + n) k = 0#k ∧ w.extractLsb' 6 n = x := by
  have hz : 0#(1 + k) = 0#1 ++ 0#k := by simp
  rw [hz]
  constructor
  · rintro rfl
    refine ⟨?_, ?_, ?_, ?_⟩
    · rw [extractLsb'_append_hi (by omega), extractLsb'_append_hi (by omega), extractLsb'_append_hi (by omega), show 6 + n + k - 6 - n - k = 0 by omega]
      exact BitVec.extractLsb'_eq_self
    · rw [extractLsb'_append_lo (by omega)]
      exact BitVec.extractLsb'_eq_self
    · rw [extractLsb'_append_hi (by omega), extractLsb'_append_hi (by omega), extractLsb'_append_lo (by omega), show 6 + n - 6 - n = 0 by omega]
      exact BitVec.extractLsb'_eq_self
    · rw [extractLsb'_append_hi (by omega), extractLsb'_append_lo (by omega)]
      exact BitVec.extractLsb'_eq_self
  · rintro ⟨ht, hc, hm, hx⟩
    rw [← ht, ← hc, ← hm, ← hx, extractLsb'_append (by omega), extractLsb'_append (by omega), extractLsb'_append (by omega)]
    exact BitVec.extractLsb'_eq_self

/-- A field holds a concatenation exactly where its parts hold the two halves. -/
theorem extractLsb'_eq_append_iff {v m n s : Nat} {w : BitVec v} {x : BitVec m} {y : BitVec n} :
    w.extractLsb' s (m + n) = x ++ y ↔ w.extractLsb' (s + n) m = x ∧ w.extractLsb' s n = y := by
  rw [← extractLsb'_append (x := w) (s1 := s) (s2 := s + n) rfl]
  constructor
  · intro h
    have hlo := congrArg (BitVec.extractLsb' 0 n) h
    have hhi := congrArg (BitVec.extractLsb' n m) h
    rw [extractLsb'_append_lo (by omega), extractLsb'_append_lo (by omega), BitVec.extractLsb'_eq_self, BitVec.extractLsb'_eq_self] at hlo
    rw [extractLsb'_append_hi (by omega), extractLsb'_append_hi (by omega), Nat.sub_self, BitVec.extractLsb'_eq_self, BitVec.extractLsb'_eq_self] at hhi
    exact ⟨hhi, hlo⟩
  · rintro ⟨rfl, rfl⟩
    rfl

/-- The word of DADDI (05 R103). -/
theorem daddiWord_eq_iff {d a : BitVec 8} {n : BitVec 9} {c : BitVec 6} {w : Word} : 0#1 ++ n ++ a ++ d ++ c = w ↔
    w.extractLsb' 31 1 = 0#1 ∧ w.extractLsb' 0 6 = c ∧ w.extractLsb' 6 8 = d ∧ w.extractLsb' 14 8 = a ∧ w.extractLsb' 22 9 = n := by
  constructor
  · rintro rfl
    simp (disch := decide) only [extractLsb'_append_lo, extractLsb'_append_hi, BitVec.extractLsb'_eq_self, Nat.reduceSub, and_self]
  · rintro ⟨ht, rfl, rfl, rfl, rfl⟩
    simp (disch := decide) only [← ht, extractLsb'_append]
    exact BitVec.extractLsb'_eq_self

/-- The word of DIV (05 R103). -/
theorem divWord_eq_iff {mk : BitVec 3} {ng : Bool} {t : BitVec 10} {j : BitVec 11} {c : BitVec 6} {w : Word} :
    0#1 ++ j ++ t ++ BitVec.ofBool ng ++ mk ++ c = w ↔
    w.extractLsb' 31 1 = 0#1 ∧ w.extractLsb' 0 6 = c ∧ w.extractLsb' 6 3 = mk ∧ w.getLsbD 9 = ng ∧ w.extractLsb' 10 10 = t ∧
      w.extractLsb' 20 11 = j := by
  have hng : w.getLsbD 9 = ng ↔ w.extractLsb' 9 1 = BitVec.ofBool ng := by
    rw [extractLsb'_one]
    cases w.getLsbD 9 <;> cases ng <;> decide
  rw [hng]
  constructor
  · rintro rfl
    simp (disch := decide) only [extractLsb'_append_lo, extractLsb'_append_hi, BitVec.extractLsb'_eq_self, Nat.reduceSub, and_self]
  · rintro ⟨ht, rfl, rfl, hn, rfl, rfl⟩
    simp (disch := decide) only [← ht, ← hn, extractLsb'_append]
    exact BitVec.extractLsb'_eq_self

/-- The word of LAUNCH (05 R103 form CA). -/
theorem launchWord_eq_iff {p : BitVec 4} {a : BitVec 9} {c : BitVec 6} {w : Word} : 0#13 ++ p ++ a ++ c = w ↔
    w.extractLsb' 31 1 = 0#1 ∧ w.extractLsb' 0 6 = c ∧ w.extractLsb' 19 12 = 0#12 ∧ w.extractLsb' 15 4 = p ∧ w.extractLsb' 6 9 = a := by
  rw [show 0#13 = 0#1 ++ 0#12 from rfl]
  constructor
  · rintro rfl
    simp (disch := decide) only [extractLsb'_append_lo, extractLsb'_append_hi, BitVec.extractLsb'_eq_self, Nat.reduceSub, and_self]
  · rintro ⟨ht, rfl, hz, rfl, rfl⟩
    simp (disch := decide) only [← ht, ← hz, extractLsb'_append]
    exact BitVec.extractLsb'_eq_self

/-- The word of SETIX (05 R103). -/
theorem setixWord_eq_iff {v : BitVec 4} {x : BitVec 2} {c : BitVec 6} {w : Word} : 0#20 ++ v ++ x ++ c = w ↔
    w.extractLsb' 31 1 = 0#1 ∧ w.extractLsb' 0 6 = c ∧ w.extractLsb' 12 19 = 0#19 ∧ w.extractLsb' 8 4 = v ∧ w.extractLsb' 6 2 = x := by
  rw [show 0#20 = 0#1 ++ 0#19 from rfl]
  constructor
  · rintro rfl
    simp (disch := decide) only [extractLsb'_append_lo, extractLsb'_append_hi, BitVec.extractLsb'_eq_self, Nat.reduceSub, and_self]
  · rintro ⟨ht, rfl, hz, rfl, rfl⟩
    simp (disch := decide) only [← ht, ← hz, extractLsb'_append]
    exact BitVec.extractLsb'_eq_self

/-- The word of GETSYS and SETSYS (05 R103 form CS). -/
theorem sysWord_eq_iff {y : BitVec 12} {d : BitVec 9} {c : BitVec 6} {w : Word} : 0#5 ++ y ++ d ++ c = w ↔
    w.extractLsb' 31 1 = 0#1 ∧ w.extractLsb' 0 6 = c ∧ w.extractLsb' 27 4 = 0#4 ∧ w.extractLsb' 15 12 = y ∧ w.extractLsb' 6 9 = d := by
  rw [show 0#5 = 0#1 ++ 0#4 from rfl]
  constructor
  · rintro rfl
    simp (disch := decide) only [extractLsb'_append_lo, extractLsb'_append_hi, BitVec.extractLsb'_eq_self, Nat.reduceSub, and_self]
  · rintro ⟨ht, rfl, hz, rfl, rfl⟩
    simp (disch := decide) only [← ht, ← hz, extractLsb'_append]
    exact BitVec.extractLsb'_eq_self

theorem zero16_iff {w : Word} : w.extractLsb' 15 16 = 0#16 ↔ w.extractLsb' 27 4 = 0#4 ∧ w.extractLsb' 15 12 = 0#12 :=
  extractLsb'_eq_append_iff (m := 4) (n := 12) (x := 0#4) (y := 0#12)

/-- The bits of a gate's kind (09 R201). -/
def GateKind.code : GateKind → BitVec 2
  | .bent => 0#2
  | .bay => 1#2
  | .remote => 2#2

theorem encBar_eq_iff {opr : BitVec 2} {k : GateKind} {g : BitVec 6} {a : BitVec 9} {w : Word} : encBar opr k g a = w ↔
    w.extractLsb' 31 1 = 0#1 ∧ w.extractLsb' 0 6 = 0x0C#6 ∧ w.extractLsb' 25 6 = 0#6 ∧ w.extractLsb' 16 9 = a ∧ w.extractLsb' 14 2 = opr ∧
      w.extractLsb' 12 2 = k.code ∧ w.extractLsb' 6 6 = g := by
  have henc : encBar opr k g a = 0#(1 + 6) ++ (a ++ opr ++ k.code ++ g) ++ 0x0C#6 := by
    cases k <;> simp only [encBar, GateKind.code, BitVec.append_assoc'] <;> rfl
  rw [henc]
  refine (shortWord_eq_iff (k := 6) (n := 9 + 2 + 2 + 6)).trans ?_
  simp only [extractLsb'_eq_append_iff, and_assoc]

/-- BAR of the two bits of its operation (09 R201). -/
def barOf (opr : BitVec 2) (k : GateKind) (g : BitVec 6) (a : BitVec 9) : Instr :=
  match opr.toNat with
  | 0 => .barAw k g a
  | 1 => .barArr k g a
  | 2 => .barWait k g a
  | _ => .barInit k g a

theorem GateKind.exists {p : GateKind → Prop} : (∃ k, p k) ↔ p .bent ∨ p .bay ∨ p .remote := by
  constructor
  · rintro ⟨k, hk⟩
    cases k
    · exact .inl hk
    · exact .inr (.inl hk)
    · exact .inr (.inr hk)
  · rintro (h | h | h) <;> exact ⟨_, h⟩

theorem decBar_ok {w : Word} {i : Instr} : decBar w = .ok i ↔ ∃ k, w.extractLsb' 12 2 = k.code ∧ w.extractLsb' 25 6 = 0#6 ∧
    wfBar k (w.extractLsb' 6 6) (w.extractLsb' 16 9) ((w.extractLsb' 14 2).getLsbD 1) = true ∧
      barOf (w.extractLsb' 14 2) k (w.extractLsb' 6 6) (w.extractLsb' 16 9) = i := by
  have hkinds : ∀ x : BitVec 2, x = 0#2 ∨ x = 1#2 ∨ x = 2#2 ∨ x = 3#2 := by decide
  simp only [decBar, bind_ok_iff, need_ok, zeroF_ok, pure_ok, exists_const, barOf]
  rcases hkinds (w.extractLsb' 12 2) with hk | hk | hk | hk
  · simp [hk, GateKind.exists, GateKind.code, wfBar]
    tauto
  · simp [hk, GateKind.exists, GateKind.code, wfBar]
    tauto
  · simp [hk, GateKind.exists, GateKind.code, wfBar]
    tauto
  · simp [hk, GateKind.exists, GateKind.code, wfBar]

theorem decSys_ok {w : Word} {set : Bool} {i : Instr} : decSys w set = .ok i ↔ ∃ r, SysReg.ofNum (w.extractLsb' 15 12) = some r ∧
    (set = true → r.rw = true) ∧ r.fieldOk (w.extractLsb' 6 9) = true ∧ w.extractLsb' 27 4 = 0#4 ∧
      (if set then Instr.setsys (w.extractLsb' 15 12) (w.extractLsb' 6 9) else .getsys (w.extractLsb' 15 12) (w.extractLsb' 6 9)) = i := by
  unfold decSys
  dsimp only
  split
  next h => simp [h]
  next r h =>
    simp only [bind_ok_iff, need_ok, zeroF_ok, pure_ok, exists_const, h, Option.some.injEq, exists_eq_left', SysReg.fieldOk]
    cases r <;> cases set <;> simp [SysReg.rw, SysReg.pair]

theorem pairField_ok {pos : Nat} {d : BitVec 9} {u : Unit} : pairField pos d = .ok u ↔ d.toNat % 2 = 0 := by
  simp [pairField]

theorem decTime_ok {w : Word} {k : BitVec 9 → Instr} {i : Instr} : decTime w k = .ok i ↔
    (w.extractLsb' 6 9).toNat % 2 = 0 ∧ w.extractLsb' 15 12 = 0#12 ∧ w.extractLsb' 27 4 = 0#4 ∧ k (w.extractLsb' 6 9) = i := by
  simp only [decTime, bind_ok_iff, pairField_ok, zeroF_ok, pure_ok, exists_const]

theorem decLaunch_ok {w : Word} {k : BitVec 9 → Option (BitVec 3) → Instr} {i : Instr} : decLaunch w k = .ok i ↔
    ∃ p, encPeg p = w.extractLsb' 15 4 ∧ (w.extractLsb' 6 9).toNat % 2 = 0 ∧ w.extractLsb' 19 12 = 0#12 ∧ k (w.extractLsb' 6 9) p = i := by
  simp only [decLaunch, bind_ok_iff, pairField_ok, pegField_ok, zeroF_ok, pure_ok, exists_const]
  grind

theorem decNone_ok {w : Word} {i j : Instr} : decNone w j = .ok i ↔ w.extractLsb' 6 25 = 0#25 ∧ j = i := by
  simp only [decNone, bind_ok_iff, zeroF_ok, pure_ok, exists_const]

theorem decPair_ok {w : Word} {k : BitVec 8 → BitVec 8 → BitVec 8 → Instr} {i : Instr} : decPair w k = .ok i ↔
    w.extractLsb' 30 1 = 0#1 ∧ k (w.extractLsb' 6 8) (w.extractLsb' 14 8) (w.extractLsb' 22 8) = i := by
  simp only [decPair, bind_ok_iff, zeroF_ok, pure_ok, exists_const]

/-! ### From the instruction to its word and back -/

theorem decodeCtl_encReg {fn : Nat} {d a b : BitVec 9} {i : Instr} (hi : uniReg (BitVec.ofNat 4 fn).toNat d a b = i) :
    decodeCtl (encReg fn d a b) = .ok i := by
  obtain ⟨ht, hf, hd, ha, hb⟩ := encReg_eq_iff.mp (Eq.refl (encReg fn d a b))
  rw [decodeCtl, topBit, ht, hf, hd, ha, hb, hi]
  rfl

theorem decodeCtl_encImm {fn : Nat} {d a : BitVec 9} {n : BitVec 7} {i : Instr} (hfn : (BitVec.ofNat 6 (16 + fn)).toNat / 16 = 1)
    (hi : uniImm ((BitVec.ofNat 6 (16 + fn)).toNat % 16) d a n = i) : decodeCtl (encImm fn d a n) = .ok i := by
  obtain ⟨ht, ho, hd, ha, hn⟩ := encImm_eq_iff.mp (Eq.refl (encImm fn d a n))
  rw [decodeCtl, topBit, ht, ho, hd, ha, hn]
  dsimp only
  rw [hfn, hi]
  rfl

theorem decodeCtl_encBar {opr : BitVec 2} {k : GateKind} {g : BitVec 6} {a : BitVec 9} (hw : wfBar k g a (opr.getLsbD 1) = true) :
    decodeCtl (encBar opr k g a) = .ok (barOf opr k g a) := by
  obtain ⟨ht, ho, hz, ha, hopr, hk, hg⟩ := encBar_eq_iff.mp (Eq.refl (encBar opr k g a))
  rw [decodeCtl, topBit, ht, ho]
  exact decBar_ok.mpr ⟨k, hk, hz, by rw [ha, hopr, hg]; exact ⟨hw, rfl⟩⟩

/-- The control slot reads back what it writes. -/
theorem decodeCtl_encodeCtl {i : Instr} {w : Word} (h : encodeCtl i = some w) (hw : i.wf = true) : decodeCtl w = .ok i := by
  cases i <;> cases h
  case sadd | ssub | smul | smulh | sand | sor | sxor | sshl | sshr | ssar | smin | smax | sminu | smaxu | sslt | ssltu =>
    exact decodeCtl_encReg rfl
  case saddImm | ssubImm | smulImm | smulhImm | sandImm | sorImm | sxorImm | sshlImm | sshrImm | ssarImm | sminImm | smaxImm | sminuImm | smaxuImm |
      ssltImm | ssltuImm =>
    exact decodeCtl_encImm rfl rfl
  case ret | join | exit | trigger | eret | nop => rfl
  case bra off | call off | yield off =>
    obtain ⟨ht, ho, hx⟩ := encC25_eq_iff.mp (Eq.refl (encC25 _ off))
    rw [decodeCtl, topBit, ht, ho, hx]
    rfl
  case brcNz s off | brcZ s off | loop s off | smovl s off | smovh s off =>
    obtain ⟨ht, ho, hs, hx⟩ := encC16_eq_iff.mp (Eq.refl (encC16 _ s off))
    rw [decodeCtl, topBit, ht, ho, hs, hx]
    rfl
  case dadd d a b | dsub d a b =>
    obtain ⟨ht, ho, hz, hd, ha, hb⟩ := encPair_eq_iff.mp (Eq.refl (encPair _ d a b))
    rw [decodeCtl, topBit, ht, ho]
    exact decPair_ok.mpr ⟨hz, by rw [hd, ha, hb]⟩
  case brx a =>
    obtain ⟨ht, ho, hz, hd, ha, hb⟩ := encPair_eq_iff.mp (Eq.refl (encPair _ 0#8 a 0#8))
    rw [decodeCtl, topBit, ht, ho, hz, hd, ha, hb]
    rfl
  case daddi d a n =>
    obtain ⟨ht, ho, hd, ha, hn⟩ := daddiWord_eq_iff.mp (Eq.refl (0#1 ++ n ++ a ++ d ++ 0x2D#6))
    rw [decodeCtl, topBit, ht, ho, hd, ha, hn]
    rfl
  case calli f =>
    obtain ⟨ht, ho, hz, hf⟩ := (shortWord_eq_iff (k := 14)).mp (Eq.refl (0#15 ++ f.enc ++ 0x06#6))
    rw [decodeCtl, topBit, ht, ho]
    exact bind_ok_iff.mpr ⟨f, operand_ok.mpr ⟨hw, hf.symm⟩, bind_ok_iff.mpr ⟨(), zeroF_ok.mpr hz, rfl⟩⟩
  case div mk ng t j =>
    obtain ⟨ht, ho, hm, hn, htg, hj⟩ := divWord_eq_iff.mp (Eq.refl (0#1 ++ j ++ t ++ BitVec.ofBool ng ++ mk ++ 0x08#6))
    rw [decodeCtl, topBit, ht, ho, hm, hn, htg, hj]
    rfl
  case barAw k g a => exact decodeCtl_encBar (opr := 0#2) hw
  case barArr k g a => exact decodeCtl_encBar (opr := 1#2) hw
  case barWait k g a => exact decodeCtl_encBar (opr := 2#2) hw
  case barInit k g a => exact decodeCtl_encBar (opr := 3#2) hw
  case launch a p | launchG a p =>
    obtain ⟨ht, ho, hz, hp, ha⟩ := launchWord_eq_iff.mp (Eq.refl (0#13 ++ encPeg p ++ a ++ _))
    rw [decodeCtl, topBit, ht, ho]
    exact decLaunch_ok.mpr ⟨p, hp.symm, by rw [ha]; exact eq_of_beq hw, hz, by rw [ha]⟩
  case setix x v =>
    obtain ⟨ht, ho, hz, hv, hx⟩ := setixWord_eq_iff.mp (Eq.refl (0#20 ++ v ++ x ++ 0x21#6))
    rw [decodeCtl, topBit, ht, ho, hz, hv, hx]
    rfl
  case getsys y d =>
    obtain ⟨ht, ho, hz, hy, hd⟩ := sysWord_eq_iff.mp (Eq.refl (0#5 ++ y ++ d ++ 0x22#6))
    obtain ⟨r, hr, hf⟩ := (Option.any_eq_true _ _).mp hw
    rw [decodeCtl, topBit, ht, ho]
    exact decSys_ok.mpr ⟨r, by rw [hy, hr], nofun, by rw [hd, hf], hz, by rw [hy, hd]; rfl⟩
  case setsys y d =>
    obtain ⟨ht, ho, hz, hy, hd⟩ := sysWord_eq_iff.mp (Eq.refl (0#5 ++ y ++ d ++ 0x23#6))
    obtain ⟨r, hr, hf⟩ := (Option.any_eq_true _ _).mp hw
    obtain ⟨hrw, hfield⟩ := Bool.and_eq_true_iff.mp hf
    rw [decodeCtl, topBit, ht, ho]
    exact decSys_ok.mpr ⟨r, by rw [hy, hr], fun _ => hrw, by rw [hd, hfield], hz, by rw [hy, hd]; rfl⟩
  case time d | tick d =>
    obtain ⟨ht, ho, hz, hd⟩ := (shortWord_eq_iff (k := 16)).mp (Eq.refl (0#17 ++ d ++ _))
    rw [decodeCtl, topBit, ht, ho]
    exact decTime_ok.mpr ⟨by rw [hd]; exact eq_of_beq hw, (zero16_iff.mp hz).2, (zero16_iff.mp hz).1, by rw [hd]⟩
  case trap c =>
    obtain ⟨ht, ho, hz, hc⟩ := (shortWord_eq_iff (k := 9)).mp (Eq.refl (0#10 ++ c ++ 0x26#6))
    rw [decodeCtl, topBit, ht, ho, hz, hc]
    rfl

theorem encodeCtl_uniReg {fn : Nat} {d a b : BitVec 9} (hfn : fn < 16) :
    (uniReg fn d a b).wf = true ∧ encodeCtl (uniReg fn d a b) = some (encReg fn d a b) := by
  interval_cases fn <;> exact ⟨rfl, rfl⟩

theorem encodeCtl_uniImm {fn : Nat} {d a : BitVec 9} {n : BitVec 7} (hfn : fn < 16) :
    (uniImm fn d a n).wf = true ∧ encodeCtl (uniImm fn d a n) = some (encImm fn d a n) := by
  interval_cases fn <;> exact ⟨rfl, rfl⟩

theorem immCode_eq {w : Word} (hk : (w.extractLsb' 0 6).toNat / 16 = 1) :
    w.extractLsb' 0 6 = BitVec.ofNat 6 (16 + (w.extractLsb' 0 6).toNat % 16) := by
  refine BitVec.eq_of_toNat_eq ?_
  rw [BitVec.toNat_ofNat]
  have := (w.extractLsb' 0 6).isLt
  omega

theorem encodeCtl_barOf {opr : BitVec 2} {k : GateKind} {g : BitVec 6} {a : BitVec 9} (hw : wfBar k g a (opr.getLsbD 1) = true) :
    (barOf opr k g a).wf = true ∧ encodeCtl (barOf opr k g a) = some (encBar opr k g a) := by
  have hcases : ∀ x : BitVec 2, x = 0#2 ∨ x = 1#2 ∨ x = 2#2 ∨ x = 3#2 := by decide
  rcases hcases opr with rfl | rfl | rfl | rfl <;> exact ⟨hw, rfl⟩

theorem eq_ofNat_of_toNat {n k : Nat} {x : BitVec n} (h : x.toNat = k) : x = BitVec.ofNat n k := by
  rw [← h, BitVec.ofNat_toNat, BitVec.setWidth_eq]

/-- The word of a form with no field (05 R103 form CN). -/
theorem bareWord_eq {w : Word} {c : BitVec 6} (ht : w.extractLsb' 31 1 = 0#1) (hc : w.extractLsb' 0 6 = c) (hz : w.extractLsb' 6 25 = 0#25) :
    0#1 ++ 0#25 ++ c = w :=
  (shortWord_eq_iff (k := 0) (n := 25)).mpr ⟨ht, hc, Subsingleton.elim _ _, hz⟩

/-- A word of the control slot that reads as an instruction is that instruction's. -/
theorem encodeCtl_of_decodeCtl {w : Word} {i : Instr} (h : decodeCtl w = .ok i) : i.wf = true ∧ encodeCtl i = some w := by
  rw [decodeCtl, topBit] at h
  split at h
  next ht =>
    cases h
    have hf : BitVec.ofNat 4 (w.extractLsb' 27 4).toNat = w.extractLsb' 27 4 := (eq_ofNat_of_toNat rfl).symm
    rw [(encodeCtl_uniReg (w.extractLsb' 27 4).isLt).2, encReg_eq_iff.mpr ⟨eq_of_beq ht, hf.symm, rfl, rfl, rfl⟩]
    exact ⟨(encodeCtl_uniReg (w.extractLsb' 27 4).isLt).1, rfl⟩
  next ht =>
    have hbits : ∀ x : BitVec 1, ¬ (x == 1#1) = true → x = 0#1 := by decide
    replace ht := hbits _ ht
    dsimp only at h
    split at h
    next hc =>
      cases h
      have hfn := Nat.mod_lt (w.extractLsb' 0 6).toNat (y := 16) (by decide)
      rw [(encodeCtl_uniImm hfn).2, encImm_eq_iff.mpr ⟨ht, immCode_eq (eq_of_beq hc), rfl, rfl, rfl⟩]
      exact ⟨(encodeCtl_uniImm hfn).1, rfl⟩
    next hc =>
      clear hc
      split at h
      case h_30 => cases h
      all_goals
        rename_i hc
        replace hc := eq_ofNat_of_toNat hc
      case h_1 | h_5 | h_16 =>
        cases h
        exact ⟨rfl, congrArg some (encC25_eq_iff.mpr ⟨ht, hc, rfl⟩)⟩
      case h_2 | h_3 | h_10 | h_25 | h_26 =>
        cases h
        exact ⟨rfl, congrArg some (encC16_eq_iff.mpr ⟨ht, hc, rfl, rfl⟩)⟩
      case h_4 =>
        simp only [bind_ok_iff, zeroF_ok, pure_ok, exists_const] at h
        obtain ⟨hd, hb, hz, rfl⟩ := h
        exact ⟨rfl, congrArg some (encPair_eq_iff.mpr ⟨ht, hc, hz, hd, rfl, hb⟩)⟩
      case h_6 =>
        simp only [bind_ok_iff, operand_ok, zeroF_ok, pure_ok, exists_const] at h
        obtain ⟨f, ⟨hf, he⟩, hz, rfl⟩ := h
        exact ⟨hf, congrArg some ((shortWord_eq_iff (k := 14) (n := 11)).mpr ⟨ht, hc, hz, he.symm⟩)⟩
      case h_7 | h_9 | h_11 | h_15 | h_23 | h_24 =>
        obtain ⟨hz, rfl⟩ := decNone_ok.mp h
        exact ⟨rfl, congrArg some (bareWord_eq ht hc hz)⟩
      case h_8 =>
        cases h
        exact ⟨rfl, congrArg some (divWord_eq_iff.mpr ⟨ht, hc, rfl, rfl, rfl, rfl⟩)⟩
      case h_12 =>
        obtain ⟨k, hk, hz, hw, rfl⟩ := decBar_ok.mp h
        rw [(encodeCtl_barOf hw).2, encBar_eq_iff.mpr ⟨ht, hc, hz, rfl, rfl, hk, rfl⟩]
        exact ⟨(encodeCtl_barOf hw).1, rfl⟩
      case h_13 | h_14 =>
        obtain ⟨p, hp, ha, hz, rfl⟩ := decLaunch_ok.mp h
        exact ⟨beq_iff_eq.mpr ha, congrArg some (launchWord_eq_iff.mpr ⟨ht, hc, hz, hp.symm, rfl⟩)⟩
      case h_17 =>
        simp only [bind_ok_iff, zeroF_ok, pure_ok, exists_const] at h
        obtain ⟨hz, rfl⟩ := h
        exact ⟨rfl, congrArg some (setixWord_eq_iff.mpr ⟨ht, hc, hz, rfl, rfl⟩)⟩
      case h_18 =>
        obtain ⟨r, hr, _, hf, hz, rfl⟩ := decSys_ok.mp h
        exact ⟨(Option.any_eq_true _ _).mpr ⟨r, hr, hf⟩, congrArg some (sysWord_eq_iff.mpr ⟨ht, hc, hz, rfl, rfl⟩)⟩
      case h_19 =>
        obtain ⟨r, hr, hrw, hf, hz, rfl⟩ := decSys_ok.mp h
        exact ⟨(Option.any_eq_true _ _).mpr ⟨r, hr, by rw [hrw rfl, hf]; rfl⟩, congrArg some (sysWord_eq_iff.mpr ⟨ht, hc, hz, rfl, rfl⟩)⟩
      case h_20 | h_21 =>
        obtain ⟨hd, hy, hz, rfl⟩ := decTime_ok.mp h
        exact ⟨beq_iff_eq.mpr hd, congrArg some ((shortWord_eq_iff (k := 16) (n := 9)).mpr ⟨ht, hc, zero16_iff.mpr ⟨hz, hy⟩, rfl⟩)⟩
      case h_22 =>
        simp only [bind_ok_iff, zeroF_ok, pure_ok, exists_const] at h
        obtain ⟨hz, rfl⟩ := h
        exact ⟨rfl, congrArg some ((shortWord_eq_iff (k := 9) (n := 16)).mpr ⟨ht, hc, hz, rfl⟩)⟩
      case h_27 | h_28 =>
        obtain ⟨hz, rfl⟩ := decPair_ok.mp h
        exact ⟨rfl, congrArg some (encPair_eq_iff.mpr ⟨ht, hc, hz, rfl, rfl, rfl⟩)⟩
      case h_29 =>
        cases h
        exact ⟨rfl, congrArg some (daddiWord_eq_iff.mpr ⟨ht, hc, rfl, rfl, rfl⟩)⟩
end Sys2Proof
end

