-- ==== Sys2Proof/Proofs/Encodings.lean ====
section
/-!
SUPPORT. The four slots share no instruction, so that one word of one slot is an instruction's (05 R88).
-/
namespace Sys2Proof

theorem encodeVec_of_encodeMem {i : Instr} {w : DWord} (h : encodeMem i = some w) : encodeVec i = none := by
  cases i <;> (try cases h) <;> rfl

theorem encodeVec_of_encodeCmx {i : Instr} {w : DWord} (h : encodeCmx i = some w) : encodeVec i = none := by
  cases i <;> (try cases h) <;> rfl

theorem encodeMem_of_encodeCmx {i : Instr} {w : DWord} (h : encodeCmx i = some w) : encodeMem i = none := by
  cases i <;> (try cases h) <;> rfl

theorem others_of_encodeCtl {i : Instr} {w : Word} (h : encodeCtl i = some w) : encodeVec i = none ∧ encodeMem i = none ∧ encodeCmx i = none := by
  cases i <;> cases h <;> exact ⟨rfl, rfl, rfl⟩

/-- Settles O28: each slot reads back what it writes, and the slot of an instruction is the one that has its row. -/
theorem decodeOfEncode : Obligations.DecodeOfEncode := by
  unfold Obligations.DecodeOfEncode
  intro i hw hslot
  have hsome : encode i ≠ none := by
    intro hn
    rw [Machine.slotNumOf, hn] at hslot
    exact absurd hslot (by decide)
  unfold encode at hsome ⊢
  cases hv : encodeVec i with
  | some w => exact ⟨.vec w, rfl, decodeVec_encodeVec hv hw⟩
  | none =>
    cases hm : encodeMem i with
    | some w => exact ⟨.mem w, rfl, decodeMem_encodeMem hm hw⟩
    | none =>
      cases hx : encodeCmx i with
      | some w => exact ⟨.cmx w, rfl, decodeCmx_encodeCmx hx hw⟩
      | none =>
        cases hc : encodeCtl i with
        | some w => exact ⟨.ctl w, rfl, decodeCtl_encodeCtl hc hw⟩
        | none => simp [hv, hm, hx, hc] at hsome

/-- Settles O29: in each slot, what reads is the word of the instruction it reads as, and no other slot has that instruction. -/
theorem encodeOfDecode : Obligations.EncodeOfDecode := by
  unfold Obligations.EncodeOfDecode
  intro w i h
  cases w with
  | vec w =>
    obtain ⟨hw, he⟩ := encodeVec_of_decodeVec h
    exact ⟨hw, by rw [encode, he]⟩
  | mem w =>
    obtain ⟨hw, he⟩ := encodeMem_of_decodeMem h
    exact ⟨hw, by rw [encode, encodeVec_of_encodeMem he, he]⟩
  | cmx w =>
    obtain ⟨hw, he⟩ := encodeCmx_of_decodeCmx h
    exact ⟨hw, by rw [encode, encodeVec_of_encodeCmx he, encodeMem_of_encodeCmx he, he]⟩
  | ctl w =>
    obtain ⟨hw, he⟩ := encodeCtl_of_decodeCtl h
    obtain ⟨hv, hm, hx⟩ := others_of_encodeCtl he
    exact ⟨hw, by rw [encode, hv, hm, hx, he]; rfl⟩

/-- Settles O30: each word is read, field by field, by evaluating the decoder. -/
theorem wordsDecode : Obligations.WordsDecode := by
  unfold Obligations.WordsDecode
  decide

end Sys2Proof
end

