-- ==== Sys2Proof/Proofs/OperandsAndResults.lean ====
section
/-!
SUPPORT. Sources and results in flight: what an operand is worth, and where in the pipeline a result goes (05 R92, R93, 03 R47, R52).
-/
namespace Sys2Proof.Machine

/-- Settles O36: each kind of operand has its row in `Board.laneVal`. -/
theorem operandsHaveTheirValues : Obligations.OperandsHaveTheirValues := by
  unfold Obligations.OperandsHaveTheirValues
  intro s b n u i k l
  refine ⟨rfl, rfl, rfl, rfl, rfl, rfl, BitVec.toInt_signExtend_of_le (by decide), rfl, fun o ho => ?_⟩
  cases o with
  | imm j => exact absurd rfl (ho j)
  | _ => rfl

/-! ### The tick of a landing (03 R52) -/

section
variable (hit : PipeEntry → Bool)

/-- The tick after the latest of the entries that `hit` picks, and `a` at least. -/
def tickAfter (l : List PipeEntry) (a : Nat) : Nat := l.foldl (fun a f => if hit f then max a (f.rem + 1) else a) a

variable {hit}

theorem tickAfter_of_none {l : List PipeEntry} {a : Nat} (h : ∀ f ∈ l, hit f = false) : tickAfter hit l a = a := by
  induction l generalizing a with
  | nil => rfl
  | cons f l ih =>
    rw [tickAfter, List.foldl_cons, h f List.mem_cons_self]
    exact ih fun g hg => h g (List.mem_cons_of_mem f hg)

theorem le_tickAfter {l : List PipeEntry} {a : Nat} : a ≤ tickAfter hit l a := by
  induction l generalizing a with
  | nil => exact le_rfl
  | cons f l ih =>
    refine le_trans (b := if hit f then max a (f.rem + 1) else a) ?_ ih
    split
    · exact le_max_left ..
    · exact le_rfl

theorem lt_tickAfter {l : List PipeEntry} {a : Nat} {f : PipeEntry} (hf : f ∈ l) (hh : hit f = true) : f.rem < tickAfter hit l a := by
  induction l generalizing a with
  | nil => cases hf
  | cons g l ih =>
    rcases List.mem_cons.mp hf with rfl | hf
    · refine lt_of_lt_of_le (b := if hit f then max a (f.rem + 1) else a) ?_ le_tickAfter
      rw [if_pos hh]
      exact Nat.le_max_right a (f.rem + 1)
    · exact ih hf

/-- The tick is `a`, or the one after an entry that `hit` picks. -/
theorem tickAfter_attained {l : List PipeEntry} {a : Nat} : tickAfter hit l a = a ∨ ∃ g ∈ l, hit g = true ∧ tickAfter hit l a = g.rem + 1 := by
  induction l generalizing a with
  | nil => exact .inl rfl
  | cons f l ih =>
    rw [tickAfter, List.foldl_cons]
    rcases ih (a := if hit f then max a (f.rem + 1) else a) with h | ⟨g, hg, hh, he⟩
    · rw [tickAfter] at h
      rw [h]
      split
      next hf =>
        rcases max_choice a (f.rem + 1) with hm | hm
        · exact .inl hm
        · exact .inr ⟨f, List.mem_cons_self, hf, hm⟩
      · exact .inl rfl
    · exact .inr ⟨g, List.mem_cons_of_mem f hg, hh, he⟩

end

/-- An earlier result of the location of `e` that is to land when `e` would, or later (03 R52). -/
def PipeEntry.blocks (e f : PipeEntry) : Bool := f.meets e && e.rem ≤ f.rem

theorem Board.emit_eq (b : Board) (e : PipeEntry) :
    b.emit e = { b with pipe := b.pipe ++ [{ e with rem := tickAfter e.blocks b.pipe e.rem, late := tickAfter e.blocks b.pipe e.rem - e.rem }] } := rfl

/-- Settles O37: a result lands at the tick after those that block it. -/
theorem resultsLandInOrder : Obligations.ResultsLandInOrder := by
  unfold Obligations.ResultsLandInOrder
  intro b e
  have hblocks : ∀ f : PipeEntry, e.blocks f = true ↔ f.meets e = true ∧ e.rem ≤ f.rem := by simp [PipeEntry.blocks]
  refine ⟨fun hfree => ?_, fun f hf hm hle => ?_, rfl⟩
  · have hnone : ∀ f ∈ b.pipe, e.blocks f = false := by
      intro f hf
      by_contra hb
      obtain ⟨hm, hle⟩ := (hblocks f).mp (by simpa using hb)
      exact absurd hle (not_le.mpr (hfree f hf hm))
    rw [Board.emit_eq, tickAfter_of_none hnone, Nat.sub_self]
  · have hlt : f.rem < tickAfter e.blocks b.pipe e.rem := lt_tickAfter hf ((hblocks f).mpr ⟨hm, hle⟩)
    refine ⟨_, hlt, fun g hg hgm => ?_, ?_, rfl⟩
    · rcases lt_or_ge g.rem e.rem with h | h
      · exact lt_of_lt_of_le h le_tickAfter
      · exact lt_tickAfter hg ((hblocks g).mpr ⟨hgm, h⟩)
    · rcases tickAfter_attained (hit := e.blocks) (l := b.pipe) (a := e.rem) with h | ⟨g, hg, hb, he⟩
      · omega
      · exact ⟨g, hg, ((hblocks g).mp hb).1, he⟩

/-- Settles O23: each register's row in `State.sysVal`, the context's through the context that is found. -/
theorem systemRegisterValues : Obligations.SystemRegisterValues := by
  unfold Obligations.SystemRegisterValues
  intro s b c hc
  have hctx : s.ctxOf b.env.ctx = c := by rw [State.ctxOf, hc]; rfl
  simp only [State.sysVal, hctx, true_and, and_true]
  cases c.chkWindow <;> cases b.priv <;> exact ⟨rfl, rfl⟩

end Sys2Proof.Machine
end

