-- ==== Sys2Proof/Proofs/StackFlows.lean ====
section
/-!
SUPPORT. Flows of paths (02 R29 to R33): a board after a flow, by its stack and its two paths, and what DIV and JOIN make of them.
-/
namespace Sys2Proof.Machine

/-- The path of the other slot after a flow, where it was `o` before. -/
def Flow.other (f : Flow) (o : Option Path) : Option Path :=
  match f.o with
  | none => o
  | some p => p.map (·.1)

section
variable {s : State} {b : Board} {i : Instr}

theorem State.otherPath_noted : s.otherPath (s.noted b i) = (b.slotOf (!s.cur.slotB)).path := s.slotPath_noted b i _

theorem State.flow_other (c : Board) (f : Flow) :
    (((s.ended c).flow s.cur.slotB f).slotOf (!s.cur.slotB)).path = f.other (c.slotOf (!s.cur.slotB)).path := by
  rw [Board.flow_path_other, State.ended_path_other]
  rfl

/-- An instruction whose meaning is a flow of the noted board turns to what the flow makes of the stack and of the two paths. -/
theorem turns_of_flow {k : Board → State} {f : Flow} {P : State → Board → Prop} (h : exec i s = onBoard s i k)
    (hk : k (s.noted b i) = s.flow (s.noted b i) f)
    (hP : ∀ t c, c.stack = f.stack → (c.slotOf s.cur.slotB).path = f.x.map (·.1) →
      (c.slotOf (!s.cur.slotB)).path = f.other (b.slotOf (!s.cur.slotB)).path → P t c) :
    turns s b i P :=
  turns_of_endWith h hk (hP _ _ (Board.flow_stack ..) (Board.flow_path ..) (by rw [State.flow_other, State.slotPath_noted]))

end

/-! ### DIV (02 R30) -/

theorem and_not_and {n : Nat} (x y : BitVec n) : x &&& ~~~(x &&& y) = x &&& ~~~y := by
  ext k hk
  simp only [BitVec.getElem_and, BitVec.getElem_not]
  cases x[k] <;> simp

section
variable {stk : List StackEntry} {o : Option Path} {pc t j : BitVec 48} {m c : Mask}

theorem divFlow_none (h : m &&& c = 0) : divFlow stk o pc m (m &&& c) t j =
    { stack := joinEntry j m false :: stk, x := some (⟨pc + 1, m⟩, .copy), same := stk.length } := by
  simp [divFlow, h]

theorem divFlow_all (h : m &&& c ≠ 0) (hn : m &&& ~~~c = 0) : divFlow stk o pc m (m &&& c) t j =
    { stack := joinEntry j m false :: stk, x := some (⟨t, m⟩, .copy), same := stk.length } := by
  unfold divFlow
  dsimp only
  rw [and_not_and, if_neg (by simpa using h), if_pos (by simpa using hn)]

theorem divFlow_some (h : m &&& c ≠ 0) (hn : m &&& ~~~c ≠ 0) : divFlow stk o pc m (m &&& c) t j =
    { stack := pushJoin stk (joinEntry j m true) o, x := some (⟨pc + 1, m &&& ~~~c⟩, .copy)
      o := some (some (⟨t, m &&& c⟩, .copy)), stacked := lanesOfPath o, same := stk.length } := by
  unfold divFlow
  dsimp only
  rw [and_not_and, if_neg (by simpa using h), if_neg (by simpa using hn)]

end

/-- Settles O16: the three cases of DIV's flow. -/
theorem divSplitsLanes : Obligations.DivSplitsLanes := by
  intro s b mk ng toff joff cond yes no T J other
  refine turns_of_flow (exec_div s) rfl fun t c hstack hx ho => ?_
  rw [State.mreg_noted, State.otherPath_noted, State.stack_noted] at hstack hx ho
  refine ⟨fun hyes => ?none, fun hyes hno => ?all, fun hyes hno => ?some⟩
  case none =>
    rw [divFlow_none hyes] at hstack hx ho
    exact ⟨hstack, hx, ho⟩
  case all =>
    rw [divFlow_all hyes hno] at hstack hx ho
    exact ⟨hstack, hx, ho⟩
  case some =>
    rw [divFlow_some hyes hno] at hstack hx ho
    exact ⟨hstack.trans (pushJoin_eq ..), hx, ho⟩

/-! ### Pops (02 R31, R32, 22 R394) -/

/-- An instruction that is clear meets no STACK trap. -/
theorem stackKind_of_clear {s : State} {b : Board} {i : Instr} (h : s.clear b i) : s.stackKind b i = none := by
  have hj := h.2
  simp only [judge, Option.orElse_eq_none, Option.map_eq_none_iff] at hj
  obtain ⟨_, _, _, _, hstack, _⟩ := hj
  exact hstack

/-- What answers a flow and not the KIND of a trap. -/
theorem ok_of_match_none {x : Except Nat Flow} (h : (match x with | .error k => some k | .ok _ => none) = none) : ∃ f, x = .ok f := by
  cases x with
  | error k => cases h
  | ok f => exact ⟨f, rfl⟩

section
variable {s : State} {b : Board} {i : Instr}

@[simp] theorem State.spilled_noted : (s.noted b i).spilled = b.spilled := by rw [State.noted_eq]

/-- A board that holds its whole stack pops what it holds. -/
theorem State.poppable_whole (h : b.spilled = 0) (l : List StackEntry) : s.poppable b l = l := by
  induction l with
  | nil => rfl
  | cons e t ih => simp [State.poppable, h, ih]

theorem State.stackOf_whole (h : b.spilled = 0) : s.stackOf b = b.stack := State.poppable_whole h _

theorem State.stackOf_noted (h : b.spilled = 0) : s.stackOf (s.noted b i) = b.stack := by
  rw [State.stackOf_whole (by simpa using h), State.stack_noted]

/-- A flow that pops from a board that holds its whole stack, where it can be taken. -/
theorem State.popFlow_ok {c : Board} {f : List StackEntry → PcSlot → Except Nat Flow} {fl : Flow} (h : c.spilled = 0)
    (hf : f c.stack ((s.ended c).slotOf s.cur.slotB) = .ok fl) : s.popFlow c f = s.flow c fl := by
  unfold State.popFlow
  simp only [State.stackOf_whole h, hf, h]
  rfl

end

/-- An instruction whose meaning is a pop, on a board that holds its whole stack: it turns to what the flow `F` makes of the stack and of the two paths,
where the pop answers that flow whatever slot it is for. -/
theorem turns_of_popFlow {s : State} {b : Board} {i : Instr} {P : State → Board → Prop} (g : Option Path → List StackEntry → PcSlot → Except Nat Flow)
    (h : exec i s = onBoard s i fun b => s.popFlow b (g (s.otherPath b))) (hw : b.spilled = 0) (F : PcSlot → Flow)
    (hF : s.clear b i → ∀ y, g (b.slotOf (!s.cur.slotB)).path b.stack y = .ok (F y))
    (hP : ∀ y t c, c.stack = (F y).stack → (c.slotOf s.cur.slotB).path = (F y).x.map (·.1) →
      (c.slotOf (!s.cur.slotB)).path = (F y).other (b.slotOf (!s.cur.slotB)).path → P t c) : turns s b i P := by
  intro hc
  refine turns_of_flow h (State.popFlow_ok (by simpa using hw) ?_) (hP ((s.ended (s.noted b i)).slotOf s.cur.slotB)) hc
  rw [State.stack_noted, State.otherPath_noted]
  exact hF hc _

/-- The flow of a JOIN entry `e` that has all its lanes, over the entries `t`: a PATH entry beneath it takes an empty other slot (02 R31). -/
def StackEntry.completion (e : StackEntry) (t : List StackEntry) (o : Option Path) : Flow :=
  { stack := (popOther t o.isNone).1, x := some e.resume, o := (popOther t o.isNone).2, same := (popOther t o.isNone).1.length }

section
variable {e : StackEntry} {t : List StackEntry} {o : Option Path}

theorem StackEntry.completion_path : (e.completion t o).x.map (·.1) = some ⟨e.pc + 1, e.mask⟩ := rfl

/-- The other slot is taken, or the entry beneath is no PATH entry: nothing more comes off the stack. -/
theorem StackEntry.completion_stays (h : o.isSome = true ∨ t.head?.map (·.kind) ≠ some kindPath) :
    (e.completion t o).stack = t ∧ (e.completion t o).other o = o := by
  have hpop : popOther t o.isNone = (t, none) := by
    cases t with
    | nil => rfl
    | cons p u =>
      rw [popOther, if_neg]
      rcases h with h | h
      · simp [Option.isNone_eq_false_iff.mpr h]
      · simpa using fun _ => h
  simp only [StackEntry.completion, Flow.other, hpop, and_self]

/-- The other slot is empty, and the PATH entry beneath goes into it. -/
theorem StackEntry.completion_pops {p : StackEntry} (h : p.kind = kindPath) :
    (e.completion (p :: t) none).stack = t ∧ (e.completion (p :: t) none).other none = some ⟨p.pc, p.mask⟩ := by
  have hpop : popOther (p :: t) true = (t, some (some (p.path, .popped))) := by
    rw [popOther, if_pos (by simp [h])]
  simp only [StackEntry.completion, Flow.other, Option.isNone_none, hpop, true_and]
  rfl

/-- What a completion leaves of the stack and in the other slot. -/
theorem StackEntry.completion_at {stk : List StackEntry} {p' : Option Path} (hstack : stk = (e.completion t o).stack) (ho : p' = (e.completion t o).other o) :
    ((o.isSome = true ∨ t.head?.map (·.kind) ≠ some kindPath) → stk = t ∧ p' = o)
      ∧ ∀ p u, o = none → t = p :: u → p.kind = kindPath → stk = u ∧ p' = some ⟨p.pc, p.mask⟩ := by
  refine ⟨fun hstay => ?stays, fun p u hnone ht hkind => ?pops⟩
  case stays =>
    obtain ⟨h1, h2⟩ := StackEntry.completion_stays (e := e) hstay
    exact ⟨hstack.trans h1, ho.trans h2⟩
  case pops =>
    subst hnone ht
    obtain ⟨h1, h2⟩ := StackEntry.completion_pops (e := e) (t := u) hkind
    exact ⟨hstack.trans h1, ho.trans h2⟩

end

/-! ### JOIN (02 R31) -/

/-- The flow of a JOIN that is taken at the entry `e` over `t`: its lanes arrive, and the entry completes where they were its last. -/
def StackEntry.joined (e : StackEntry) (t : List StackEntry) (o : Option Path) (m : Mask) (x : PcSlot) : Flow :=
  if e.arrived ||| m = e.mask then (e.arrive m x).completion t o else { stack := e.arrive m x :: t, x := none, same := t.length }

theorem joinFlow_ok {e : StackEntry} {t : List StackEntry} {o : Option Path} {j : BitVec 48} {m : Mask} {x : PcSlot} {f : Flow}
    (h : joinFlow (e :: t) o j m x = .ok f) (y : PcSlot) : joinFlow (e :: t) o j m y = .ok (e.joined t o m y) := by
  have hlast (z : PcSlot) : ((e.arrive m z).arrived == (e.arrive m z).mask) = decide (e.arrived ||| m = e.mask) := rfl
  unfold joinFlow at h ⊢
  dsimp only at h ⊢
  rw [hlast] at h ⊢
  split at h
  · cases h
  · rename_i hodd
    split at h
    · cases h
    · rename_i hkind
      rw [if_neg hodd, if_neg hkind, StackEntry.joined]
      by_cases hc : e.arrived ||| m = e.mask
      · rw [if_pos (by simpa using hc)] at h ⊢
        split at h
        · cases h
        · rename_i hhead
          rw [if_neg hhead, if_pos hc]
          rfl
      · rw [if_neg (by simpa using hc), if_neg hc]

/-- JOIN in the bundle in issue. -/
def State.joinPop (s : State) (o : Option Path) (stk : List StackEntry) (x : PcSlot) : Except Nat Flow := joinFlow stk o s.cur.pc s.cur.mask x

/-- A JOIN that is clear on a board that holds its whole stack can be taken. -/
theorem joinFlow_clear {s : State} {b : Board} {e : StackEntry} {rest : List StackEntry} (hb : b.stack = e :: rest) (hw : b.spilled = 0)
    (hc : s.clear b .join) (y : PcSlot) : s.joinPop (b.slotOf (!s.cur.slotB)).path b.stack y =
      .ok (e.joined rest (b.slotOf (!s.cur.slotB)).path s.cur.mask y) := by
  obtain ⟨f, hf⟩ := ok_of_match_none (stackKind_of_clear hc)
  rw [State.stackOf_whole hw, hb] at hf
  rw [State.joinPop, hb]
  exact joinFlow_ok hf y

/-- Settles O17: the two cases of JOIN's flow. -/
theorem joinReconverges : Obligations.JoinReconverges := by
  intro s b e rest hb hw other
  refine ⟨fun hmore => turns_of_popFlow s.joinPop (exec_join s) hw _ (joinFlow_clear hb hw) fun y t c hstack hx _ => ?arrives,
    fun hlast => turns_of_popFlow s.joinPop (exec_join s) hw _ (joinFlow_clear hb hw) fun y t c hstack hx ho => ?completes⟩
  case arrives =>
    rw [StackEntry.joined, if_neg hmore] at hstack hx
    rw [hstack, hb]
    exact ⟨hx, rfl, rfl, rfl⟩
  case completes =>
    rw [StackEntry.joined, if_pos hlast] at hstack hx ho
    exact ⟨hx, StackEntry.completion_at hstack ho⟩

end Sys2Proof.Machine
end

