-- ==== Sys2Proof/Proofs/CallsAndExits.lean ====
section
/-!
SUPPORT. CALLI, RET and EXIT (09 R198, R199, 02 R32): the groups of a call, the arrival at the highest JOIN entry, and what settles at the top.
-/
namespace Sys2Proof.Machine

/-! ### The groups of a call (09 R198) -/

section
variable {t : Nat → BitVec 48}

theorem groupsOf_target {ls : List Nat} {l : Nat} (h : l ∈ ls) : ∃ g ∈ groupsOf t ls, g.1 = t l := by
  induction ls with
  | nil => cases h
  | cons a r ih =>
    by_cases he : t l = t a
    · exact ⟨_, List.mem_cons_self, he.symm⟩
    · rcases List.mem_cons.mp h with rfl | h
      · exact absurd rfl he
      · obtain ⟨g, hg, hgt⟩ := ih h
        exact ⟨g, List.mem_cons_of_mem _ (List.mem_filter.mpr ⟨hg, by simpa [hgt] using he⟩), hgt⟩

/-- The lanes of a group are those of its target. -/
theorem groupsOf_lanes {ls : List Nat} {g : BitVec 48 × Mask} (h : g ∈ groupsOf t ls) {l : Nat} (hl : l < 128) :
    g.2.getLsbD l = true ↔ l ∈ ls ∧ t l = g.1 := by
  induction ls with
  | nil => cases h
  | cons a r ih =>
    rcases List.mem_cons.mp h with rfl | h
    · simp [maskOf_bit _ _ hl]
    · obtain ⟨hg, hne⟩ := List.mem_filter.mp h
      have hne : g.1 ≠ t a := by simpa using hne
      rw [ih hg, List.mem_cons]
      constructor
      · rintro ⟨hr, ht⟩
        exact ⟨.inr hr, ht⟩
      · rintro ⟨rfl | hr, ht⟩
        · exact absurd ht.symm hne
        · exact ⟨hr, ht⟩

/-- Of two groups the earlier one has the lower lowest lane. -/
def groupBefore (g h : BitVec 48 × Mask) : Prop := g.1 ≠ h.1 ∧ ∃ l, g.2.getLsbD l = true ∧ ∀ k, k ≤ l → h.2.getLsbD k = false

theorem groupsOf_ordered {ls : List Nat} (hs : ls.Pairwise (· < ·)) (hb : ∀ l ∈ ls, l < 128) : (groupsOf t ls).Pairwise groupBefore := by
  induction ls with
  | nil => exact .nil
  | cons a r ih =>
    obtain ⟨hlow, hr⟩ := List.pairwise_cons.mp hs
    have hbr : ∀ l ∈ r, l < 128 := fun l hl => hb l (List.mem_cons_of_mem a hl)
    have ha : a < 128 := hb a List.mem_cons_self
    refine List.pairwise_cons.mpr ⟨fun h hh => ?_, (ih hr hbr).filter _⟩
    obtain ⟨hh, hne⟩ := List.mem_filter.mp hh
    refine ⟨fun heq => by simp [← heq] at hne, a, by simp [maskOf_bit _ _ ha], fun k hk => ?_⟩
    have hk128 : k < 128 := lt_of_le_of_lt hk ha
    by_contra hbit
    obtain ⟨hkr, -⟩ := (groupsOf_lanes hh hk128).mp (by simpa using hbit)
    exact absurd (hlow k hkr) (not_lt.mpr hk)

end

section
variable (s : State) (b : Board) (f : Opd)

theorem State.calliGroups_noted (i : Instr) : s.calliGroups (s.noted b i) f = s.calliGroups b f := by
  have ht : (s.noted b i).calliTarget f = b.calliTarget f := funext fun l => by simp [Board.calliTarget]
  rw [State.calliGroups, ht, State.calliGroups]

theorem State.calliGroups_target {l : Nat} (hl : l < 128) (hm : s.cur.mask.getLsbD l = true) :
    ∃ g ∈ s.calliGroups b f, g.1 = b.calliTarget f l := groupsOf_target (mem_lanesIn.mpr ⟨hl, hm⟩)

theorem State.calliGroups_lanes {g : BitVec 48 × Mask} (hg : g ∈ s.calliGroups b f) {l : Nat} (hl : l < 128) :
    g.2.getLsbD l = true ↔ s.cur.mask.getLsbD l = true ∧ b.calliTarget f l = g.1 := by
  rw [groupsOf_lanes hg hl, mem_lanesIn]
  tauto

theorem State.calliGroups_ordered : (s.calliGroups b f).Pairwise groupBefore :=
  groupsOf_ordered (lanesIn_ascending _) fun _ hl => (mem_lanesIn.mp hl).1

end

theorem calliFlow_other {stk : List StackEntry} {o : Option Path} {pc : BitVec 48} {m : Mask} {gs : List (BitVec 48 × Mask)} :
    (calliFlow stk o pc m gs).other o = gs[1]?.map fun g => ⟨g.1, g.2⟩ := by
  unfold calliFlow Flow.other
  dsimp only
  cases gs[1]? with
  | some g => rfl
  | none => cases o <;> rfl

/-- A call through a register turns to its flow. -/
theorem turns_of_calli {s : State} {b : Board} {f : Opd} {P : State → Board → Prop}
    (hP : ∀ t c, let gs := s.calliGroups b f
      let other := (b.slotOf (!s.cur.slotB)).path
      c.stack = ((gs.drop 2).map fun g => Path.entry ⟨g.1, g.2⟩)
          ++ joinEntry s.cur.pc s.cur.mask (other.isSome || decide (2 ≤ gs.length)) :: ((other.map Path.entry).toList ++ b.stack) →
      (c.slotOf s.cur.slotB).path = gs.head?.map (fun g => ⟨g.1, g.2⟩) →
      (c.slotOf (!s.cur.slotB)).path = gs[1]?.map (fun g => ⟨g.1, g.2⟩) → P t c) : turns s b (.calli f) P := by
  refine turns_of_flow (exec_calli s) rfl fun t c hstack hx ho => ?_
  rw [State.calliGroups_noted, State.otherPath_noted] at hstack hx ho
  refine hP t c ?_ (hx.trans ?_) (ho.trans calliFlow_other)
  · rw [hstack, calliFlow, pushJoin_eq, State.stack_noted]
  · exact Option.map_map _ _ _

/-! ### RET (09 R199) -/

theorem kindPath_ne_kindJoin : (kindPath == kindJoin) = false := by decide

section
variable {above rest : List StackEntry} {e : StackEntry} {o : Option Path} {m : Mask}

/-- Lanes arrive at the first JOIN entry, past the PATH entries above it. -/
theorem arriveHighest_past (ha : ∀ p ∈ above, p.kind = kindPath) (he : e.kind = kindJoin) (x : PcSlot) :
    arriveHighest m x (above ++ e :: rest) = some (above ++ e.arrive m x :: rest, rest.length) := by
  induction above with
  | nil => simp [arriveHighest, he]
  | cons p ps ih =>
    have hp : p.kind = kindPath := ha p List.mem_cons_self
    rw [List.cons_append, arriveHighest, ih fun q hq => ha q (List.mem_cons_of_mem p hq), hp, kindPath_ne_kindJoin]
    rfl

/-- A PATH entry above is popped. -/
theorem retFlow_pops {p : StackEntry} {ps : List StackEntry} (ha : ∀ q ∈ p :: ps, q.kind = kindPath) (he : e.kind = kindJoin) (x : PcSlot) :
    retFlow (p :: ps ++ e :: rest) o m x =
      .ok { stack := ps ++ e.arrive m x :: rest, x := some (p.path, .popped), same := rest.length } := by
  have hp : p.kind = kindPath := ha p List.mem_cons_self
  rw [retFlow, arriveHighest_past ha he]
  simp [hp]

/-- At the top the lanes arrive as at a JOIN. -/
theorem retFlow_joins (he : e.kind = kindJoin) {x : PcSlot} {f : Flow} (h : retFlow (e :: rest) o m x = .ok f) (y : PcSlot) :
    retFlow (e :: rest) o m y = .ok (e.joined rest o m y) := by
  have harrive (z : PcSlot) : arriveHighest m z (e :: rest) = some (e.arrive m z :: rest, rest.length) :=
    arriveHighest_past (above := []) nofun he z
  have hkind (z : PcSlot) : ((e.arrive m z).kind == kindPath) = false := by rw [show (e.arrive m z).kind = kindJoin from he]; rfl
  have hlast (z : PcSlot) : ((e.arrive m z).arrived == (e.arrive m z).mask) = decide (e.arrived ||| m = e.mask) := rfl
  simp only [retFlow, harrive, hkind, hlast, StackEntry.joined, Bool.false_eq_true, if_false] at h ⊢
  by_cases hc : e.arrived ||| m = e.mask
  · simp only [hc, decide_true, if_true] at h ⊢
    split at h
    · cases h
    · rename_i hhead
      rw [if_neg hhead]
      rfl
  · simp [hc]

end

/-- RET in the bundle in issue. -/
def State.retPop (s : State) (o : Option Path) (stk : List StackEntry) (x : PcSlot) : Except Nat Flow := retFlow stk o s.cur.mask x

theorem retPop_clear {s : State} {b : Board} {e : StackEntry} {rest : List StackEntry} (hb : b.stack = e :: rest) (he : e.kind = kindJoin)
    (hw : b.spilled = 0) (hc : s.clear b .ret) (y : PcSlot) : s.retPop (b.slotOf (!s.cur.slotB)).path b.stack y =
      .ok (e.joined rest (b.slotOf (!s.cur.slotB)).path s.cur.mask y) := by
  obtain ⟨f, hf⟩ := ok_of_match_none (stackKind_of_clear hc)
  rw [State.stackOf_whole hw, hb] at hf
  rw [State.retPop, hb]
  exact retFlow_joins he hf y

/-! ### EXIT (02 R32) -/

section
variable {n : Nat} {f g : Flow} {e : StackEntry} {t : List StackEntry} {free : Bool}

theorem settle_nil (h : f.stack = []) : settle n f free = .ok f := by
  cases n with
  | zero => rfl
  | succ n => simp only [settle, h]

/-- An entry left empty goes. -/
theorem settle_empty (h : f.stack = e :: t) (hk : e.kind = kindJoin) (hm : e.mask = 0) :
    settle (n + 1) f free = settle n { f with stack := t } free := by
  simp only [settle, h, hk, hm, beq_self_eq_true, Bool.and_self, if_true]

/-- An entry that stays: it is no JOIN entry, or one that is neither empty nor complete, or the slot is taken. -/
theorem settle_stays (h : f.stack = e :: t) (hk : e.kind ≠ kindJoin ∨ e.mask ≠ 0 ∧ (f.x ≠ none ∨ e.arrived ≠ e.mask)) :
    settle (n + 1) f free = .ok f := by
  simp only [settle, h]
  rw [if_neg (by simp; tauto), if_neg (by simp; tauto)]

/-- An entry that completes while the slot is empty resumes in it. -/
theorem settle_completes (h : f.stack = e :: t) (hk : e.kind = kindJoin) (hm : e.mask ≠ 0) (hx : f.x = none) (ha : e.arrived = e.mask) :
    settle (n + 1) f free = if oddHead t free = true then .error 5 else
      settle n { f with stack := (popOther t free).1, x := some e.resume, o := if (popOther t free).2.isSome then (popOther t free).2 else f.o }
        (free && (popOther t free).2.isNone) := by
  simp only [settle, h, hk, hx, ha]
  rw [if_neg (by simpa using hm), if_pos (by simp)]

end

theorem popOther_suffix (t : List StackEntry) (free : Bool) : (popOther t free).1 <:+ t := by
  cases t with
  | nil => exact List.suffix_rfl
  | cons e t =>
    rw [popOther]
    split
    · exact List.suffix_cons e t
    · exact List.suffix_rfl

/-- What settles is the end of the stack it began with. -/
theorem settle_suffix {n : Nat} {f g : Flow} {free : Bool} (h : settle n f free = .ok g) : g.stack <:+ f.stack := by
  induction n generalizing f free with
  | zero =>
    cases h
    exact List.suffix_rfl
  | succ n ih =>
    cases hs : f.stack with
    | nil =>
      rw [settle_nil hs] at h
      cases h
      rw [hs]
    | cons e t =>
      by_cases hempty : e.kind = kindJoin ∧ e.mask = 0
      · rw [settle_empty hs hempty.1 hempty.2] at h
        exact (ih h).trans (List.suffix_cons e t)
      · by_cases hdone : e.kind = kindJoin ∧ f.x = none ∧ e.arrived = e.mask
        · rw [settle_completes hs hdone.1 (fun hm => hempty ⟨hdone.1, hm⟩) hdone.2.1 hdone.2.2] at h
          split at h
          · cases h
          · exact ((ih h).trans (popOther_suffix t free)).trans (List.suffix_cons e t)
        · rw [settle_stays hs (by tauto)] at h
          cases h
          rw [hs]

/-- Once the slot is taken, settling changes the stack alone. -/
theorem settle_taken {n : Nat} {f g : Flow} {free : Bool} (hx : f.x ≠ none) (h : settle n f free = .ok g) : g.x = f.x ∧ g.o = f.o := by
  induction n generalizing f free with
  | zero =>
    cases h
    exact ⟨rfl, rfl⟩
  | succ n ih =>
    cases hs : f.stack with
    | nil =>
      rw [settle_nil hs] at h
      cases h
      exact ⟨rfl, rfl⟩
    | cons e t =>
      by_cases hempty : e.kind = kindJoin ∧ e.mask = 0
      · rw [settle_empty hs hempty.1 hempty.2] at h
        exact ih (f := { f with stack := t }) hx h
      · rw [settle_stays hs (by tauto)] at h
        cases h
        exact ⟨rfl, rfl⟩


section
variable {stk : List StackEntry} {o : Option Path} {m : Mask} {g : Flow} {e : StackEntry} {t : List StackEntry}

/-- EXIT in two steps: what remains settles, and then a PATH entry at the top of it takes the slot where that is still empty (02 R32). -/
theorem exitFlow_cases (h : exitFlow stk o m = .ok g) : ∃ f, settle ((dropLanes m stk).length + 1) { stack := dropLanes m stk, x := none } o.isNone = .ok f ∧
    ((∃ e t, f.x = none ∧ f.stack = e :: t ∧ e.kind = kindPath ∧ g = { f with stack := t, x := some (e.path, .popped) })
      ∨ ((f.x = none → ∀ e t, f.stack = e :: t → e.kind ≠ kindPath) ∧ g = f)) := by
  unfold exitFlow at h
  dsimp only at h
  split at h
  · cases h
  · rename_i f hf
    refine ⟨f, hf, ?_⟩
    split at h
    · rename_i e t hx hs
      split at h
      · cases h
      · split at h
        · rename_i hk
          cases h
          exact .inl ⟨e, t, hx, hs, by simpa using hk, rfl⟩
        · rename_i hk
          cases h
          refine .inr ⟨fun _ e' t' he => ?_, rfl⟩
          cases hs.symm.trans he
          simpa using hk
    · rename_i hno
      cases h
      exact .inr ⟨fun hx e t hs => absurd hs (hno e t hx), rfl⟩

theorem exitFlow_suffix (h : exitFlow stk o m = .ok g) : g.stack <:+ dropLanes m stk := by
  obtain ⟨f, hf, ⟨e, t, -, hs, -, rfl⟩ | ⟨-, rfl⟩⟩ := exitFlow_cases h
  · exact (List.suffix_cons e t).trans (hs ▸ settle_suffix hf)
  · exact settle_suffix hf

theorem exitFlow_nil (hl : dropLanes m stk = []) (h : exitFlow stk o m = .ok g) : g = { stack := [], x := none } := by
  obtain ⟨f, hf, hg⟩ := exitFlow_cases h
  rw [hl, settle_nil rfl] at hf
  cases hf
  rcases hg with ⟨e, t, -, hs, -⟩ | ⟨-, rfl⟩
  · cases hs
  · rfl

/-- A PATH entry at the top takes the slot. -/
theorem exitFlow_path (hl : dropLanes m stk = e :: t) (hk : e.kind = kindPath) (h : exitFlow stk o m = .ok g) :
    g = { stack := t, x := some (e.path, .popped) } := by
  obtain ⟨f, hf, hg⟩ := exitFlow_cases h
  rw [hl, settle_stays rfl (.inl (by rw [hk]; decide))] at hf
  cases hf
  rcases hg with ⟨e', t', -, hs, -, rfl⟩ | ⟨hno, -⟩
  · cases hs
    rfl
  · exact absurd hk (hno rfl e t rfl)

/-- A JOIN entry at the top that still waits for lanes stays. -/
theorem exitFlow_waits (hl : dropLanes m stk = e :: t) (hk : e.kind = kindJoin) (hm : e.mask ≠ 0) (ha : e.arrived ≠ e.mask)
    (h : exitFlow stk o m = .ok g) : g = { stack := e :: t, x := none } := by
  obtain ⟨f, hf, hg⟩ := exitFlow_cases h
  rw [hl, settle_stays rfl (.inr ⟨hm, .inr ha⟩)] at hf
  cases hf
  rcases hg with ⟨e', t', -, hs, hk', -⟩ | ⟨-, rfl⟩
  · cases hs
    exact absurd (hk.symm.trans hk') (by decide)
  · rfl

/-- A JOIN entry at the top that has all its lanes resumes. -/
theorem exitFlow_completes (hl : dropLanes m stk = e :: t) (hk : e.kind = kindJoin) (hm : e.mask ≠ 0) (ha : e.arrived = e.mask)
    (h : exitFlow stk o m = .ok g) : g.stack <:+ (popOther t o.isNone).1 ∧ g.x = some e.resume ∧ g.o = (popOther t o.isNone).2 := by
  obtain ⟨f, hf, hg⟩ := exitFlow_cases h
  rw [hl, settle_completes rfl hk hm rfl ha] at hf
  split at hf
  · cases hf
  · have hsuffix := settle_suffix hf
    obtain ⟨hx, ho⟩ := settle_taken (Option.some_ne_none _) hf
    have ho' : f.o = (popOther t o.isNone).2 := by
      rw [ho]
      cases (popOther t o.isNone).2 <;> rfl
    rcases hg with ⟨e', t', hno, -⟩ | ⟨-, rfl⟩
    · rw [hx] at hno
      cases hno
    · exact ⟨hsuffix, hx, ho'⟩

/-- An entry left empty goes. -/
theorem exitFlow_empty (hl : dropLanes m stk = e :: t) (hk : e.kind = kindJoin) (hm : e.mask = 0) (h : exitFlow stk o m = .ok g) : g.stack <:+ t := by
  obtain ⟨f, hf, hg⟩ := exitFlow_cases h
  rw [hl, settle_empty rfl hk hm] at hf
  have hsuffix := settle_suffix hf
  rcases hg with ⟨e', t', -, hs, -, rfl⟩ | ⟨-, rfl⟩
  · exact (List.suffix_cons e' t').trans (hs ▸ hsuffix)
  · exact hsuffix

end

/-! ### What the end of a bundle and a flow leave alone -/

/-- Two boards differ at most in what the end of a bundle and a flow of paths move: the stack, the slots, the latches, clocks and windows, and the
results in flight. -/
def Board.sameButTurn (b c : Board) : Prop :=
  c = { b with
    stack := c.stack, spilled := c.spilled, slotA := c.slotA, slotB := c.slotB, dv := c.dv, laneClk := c.laneClk, vwins := c.vwins
    pending := c.pending, pipe := c.pipe, bad := c.bad, gapRem := c.gapRem, turnB := c.turnB }

section
variable {b c d : Board}

theorem Board.sameButTurn_refl (b : Board) : b.sameButTurn b := rfl

theorem Board.sameButTurn_trans (h : b.sameButTurn c) (k : c.sameButTurn d) : b.sameButTurn d := by
  unfold Board.sameButTurn at *
  rw [k, h]

theorem Board.sameButTurn_of_flight (h : b.sameButFlight c) : b.sameButTurn c := by
  unfold Board.sameButFlight at h
  rw [h]
  rfl

theorem Board.sameButTurn_setSlot (b : Board) (isB : Bool) (x : PcSlot) : b.sameButTurn (b.setSlot isB x) := by cases isB <;> rfl

theorem Board.sameButTurn_flow (b : Board) (isB : Bool) (f : Flow) : b.sameButTurn (b.flow isB f) := by
  rcases f with ⟨stk, _ | ⟨p, form⟩, _ | _ | ⟨q, form'⟩, stacked, same⟩ <;> cases isB <;> rfl

theorem Board.sameButTurn_finish (b : Board) (c : Cur) (eff : Nat) : b.sameButTurn (b.finish c eff) :=
  Board.sameButTurn_trans (Board.sameButTurn_setSlot b c.slotB _) rfl

theorem State.sameButTurn_ended (s : State) (b : Board) : b.sameButTurn (s.ended b) := by
  unfold State.ended
  split
  · exact Board.sameButTurn_refl b
  · exact Board.sameButTurn_finish ..

theorem State.sameButTurn_noted (s : State) (b : Board) (i : Instr) : b.sameButTurn (s.noted b i) :=
  Board.sameButTurn_of_flight (s.sameButFlight_noted b i)

theorem Board.sameButTurn_lanesLeft (h : b.sameButTurn c) : c.lanesLeft = b.lanesLeft := by rw [h]

/-- A pop leaves a board that the flow it took has turned, or the ended board. -/
theorem State.popFlow_bd (s : State) (b : Board) (f : List StackEntry → PcSlot → Except Nat Flow) :
    ∃ c, (s.popFlow b f).bd = some c ∧ b.sameButTurn c := by
  have hflow (fl : Flow) : b.sameButTurn ((s.ended b).flow s.cur.slotB fl) :=
    Board.sameButTurn_trans (s.sameButTurn_ended b) (Board.sameButTurn_flow ..)
  unfold State.popFlow
  dsimp only
  cases f (s.stackOf b) ((s.ended b).slotOf s.cur.slotB) with
  | ok fl => exact ⟨_, by split <;> rfl, hflow fl⟩
  | error k => exact ⟨_, by split <;> rfl, s.sameButTurn_ended b⟩

end

theorem State.popFlow_mask (s : State) (b : Board) (f : List StackEntry → PcSlot → Except Nat Flow) : (s.popFlow b f).cur.mask = s.cur.mask := by
  unfold State.popFlow
  dsimp only
  cases f (s.stackOf b) ((s.ended b).slotOf s.cur.slotB) <;> split <;> rfl

/-! ### The instructions -/

theorem State.exitLanes_eq (s : State) (b : Board) : s.exitLanes b =
    { s.popFlow b (fun stk _ => exitFlow stk (s.otherPath b) s.cur.mask) with
      bd := (s.popFlow b fun stk _ => exitFlow stk (s.otherPath b) s.cur.mask).bd.map fun c => { c with lanesLeft := c.lanesLeft &&& ~~~s.cur.mask } } := by
  rw [State.exitLanes, State.popFlow_mask]

/-- An EXIT that is clear on a board that holds its whole stack turns to its flow. -/
theorem turns_of_exit {s : State} {b : Board} {P : State → Board → Prop} (hw : b.spilled = 0)
    (hP : ∀ f t c, exitFlow b.stack (b.slotOf (!s.cur.slotB)).path s.cur.mask = .ok f → c.stack = f.stack →
      (c.slotOf s.cur.slotB).path = f.x.map (·.1) → (c.slotOf (!s.cur.slotB)).path = f.other (b.slotOf (!s.cur.slotB)).path → P t c) :
    turns s b .exit P := by
  intro hc
  obtain ⟨f, hf⟩ := ok_of_match_none (stackKind_of_clear hc)
  rw [State.stackOf_whole hw] at hf
  have hpop : s.popFlow (s.noted b .exit) (fun stk _ => exitFlow stk (s.otherPath (s.noted b .exit)) s.cur.mask) = s.flow (s.noted b .exit) f :=
    State.popFlow_ok (by simpa using hw) (by rw [State.stack_noted, State.otherPath_noted]; exact hf)
  refine turns_of_endWith (c := { (s.ended (s.noted b .exit)).flow s.cur.slotB f with
    lanesLeft := ((s.ended (s.noted b .exit)).flow s.cur.slotB f).lanesLeft &&& ~~~s.cur.mask }) (exec_exit s) ?_
    (hP f _ _ hf (Board.flow_stack _ _ _) (Board.flow_path _ _ _) ?_) hc
  · rw [State.exitLanes, hpop]
    rfl
  · exact (State.flow_other _ f).trans (by rw [State.slotPath_noted])

theorem left_eq_dropLanes (m : Mask) (stk : List StackEntry) :
    ((stk.map fun e =>
      if e.kind = kindJoin then { e with mask := e.mask &&& ~~~m, arrived := e.arrived &&& ~~~m }
      else if e.kind = kindPath then { e with mask := e.mask &&& ~~~m } else e).filter fun e => e.kind != kindPath || e.mask != 0)
    = dropLanes m stk := by
  simp only [dropLanes, beq_iff_eq]

/-- Settles O19: the flows of CALLI, RET and EXIT. -/
theorem stackInstructionsComplete : Obligations.StackInstructionsComplete := by
  intro s b f m other at_ at'
  refine ⟨?calli, fun hw above e rest hb hpaths hjoin => ⟨fun p ps hp => ?pops, fun hnil hmore => ?arrives, fun hnil hlast => ?completes⟩,
    ?ret, ?join, fun hc => ?exit, fun hw => ?settles, ?exitFlow⟩
  case calli =>
    exact turns_of_calli fun t c hstack hx ho => ⟨s.calliGroups b f, fun l hl hm => s.calliGroups_target b f hl hm,
      fun g hg l hl => s.calliGroups_lanes b f hg hl, s.calliGroups_ordered b f, hstack, hx, ho⟩
  case pops =>
    subst hp
    refine turns_of_popFlow s.retPop (exec_ret s) hw _ (fun _ y => (congrArg (fun l => s.retPop other l y) hb).trans (retFlow_pops hpaths hjoin y)) fun y t c hstack hx ho => ?_
    refine ⟨hx, ho, ?_⟩
    rw [hstack]
    refine ⟨by simp; omega, List.take_left, by simp, ?_⟩
    rw [List.getElem?_append_right le_rfl, Nat.sub_self]
    rfl
  case arrives =>
    subst hnil
    refine turns_of_popFlow s.retPop (exec_ret s) hw _ (retPop_clear hb hjoin hw) fun y t c hstack hx ho => ?_
    rw [StackEntry.joined, if_neg hmore] at hstack hx ho
    rw [hstack, hb]
    exact ⟨hx, ho, rfl, rfl, rfl⟩
  case completes =>
    subst hnil
    refine turns_of_popFlow s.retPop (exec_ret s) hw _ (retPop_clear hb hjoin hw) fun y t c hstack hx ho => ?_
    rw [StackEntry.joined, if_pos hlast] at hstack hx ho
    exact ⟨hx, StackEntry.completion_at hstack ho⟩
  case ret => exact completes_of_onBoard (exec_ret s) (by rw [State.otherPath_noted]; rfl)
  case join => exact completes_of_onBoard (exec_join s) (by rw [State.otherPath_noted]; rfl)
  case exit =>
    obtain ⟨c, hbd, hturn⟩ := s.popFlow_bd (s.noted b .exit) fun stk _ => exitFlow stk (s.otherPath (s.noted b .exit)) s.cur.mask
    refine ⟨_, { c with lanesLeft := c.lanesLeft &&& ~~~s.cur.mask }, (exec_exit s).trans (onBoard_clear hc _), ?_, ?_⟩
    · rw [State.exitLanes_eq, hbd]
      rfl
    · rw [Board.sameButTurn_lanesLeft (Board.sameButTurn_trans (s.sameButTurn_noted b .exit) hturn)]
  case settles =>
    rw [left_eq_dropLanes]
    intro left
    refine turns_of_exit hw fun f t c hf hstack hx ho => ⟨hstack ▸ exitFlow_suffix hf, fun hnil => ?nil, fun e u hl => ⟨fun hk => ?path,
      fun hk hm ha => ?waits, fun hk hm ha => ?resumes, fun hk hm => hstack ▸ exitFlow_empty hl hk hm hf⟩⟩
    case nil =>
      rw [exitFlow_nil hnil hf] at hx ho
      exact ⟨hx, ho⟩
    case path =>
      rw [exitFlow_path hl hk hf] at hstack hx ho
      exact ⟨hstack, hx, ho⟩
    case waits =>
      rw [exitFlow_waits hl hk hm ha hf] at hstack hx ho
      exact ⟨hstack.trans hl.symm, hx, ho⟩
    case resumes =>
      obtain ⟨hsuffix, hfx, hfo⟩ := exitFlow_completes hl hk hm ha hf
      have hother : f.other (b.slotOf (!s.cur.slotB)).path = (e.completion u (b.slotOf (!s.cur.slotB)).path).other (b.slotOf (!s.cur.slotB)).path := by
        rw [Flow.other, hfo]
        rfl
      obtain ⟨hstays, hpops⟩ := StackEntry.completion_at (e := e) rfl (ho.trans hother)
      rw [hfx] at hx
      rw [hstack]
      exact ⟨hsuffix.trans (popOther_suffix ..), hx, fun h => (hstays h).2, fun p v hnone ht hp => ⟨(hpops p v hnone ht hp).1 ▸ hsuffix, (hpops p v hnone ht hp).2⟩⟩
  case exitFlow => exact completes_of_onBoard (exec_exit s) (by rw [State.exitLanes_eq, State.otherPath_noted]; rfl)

end Sys2Proof.Machine
end

