-- ==== Sys2Proof/Proofs/ResultFrames.lean ====
section
/-!
SUPPORT. What an instruction leaves alone (03 R48, 06 R112, 09 R190): an instruction whose effect is a result writes the pipeline of its board and no more.
-/
namespace Sys2Proof.Machine

/-- The meaning of the instruction replaces the board in focus, which differs in its results in flight alone. -/
def State.resultOnly (s : State) (i : Instr) : Prop :=
  ∃ f : Board → Board, exec i s = onBoard s i (fun b => s.put (f b)) ∧ ∀ b : Board, b.sameButFlight (f b)

section
variable {s : State} {i : Instr}

theorem Board.sameButFlight_narrowed (b : Board) (ws : List LaneWin) (e : PipeEntry) : b.sameButFlight ({ b with vwins := ws }.emit e) :=
  Board.sameButFlight_trans (b := { b with vwins := ws }) rfl (Board.sameButFlight_emit _ _)

theorem resultOnly_emit {e : Board → PipeEntry} (h : exec i s = onBoard s i fun b => s.put (b.emit (e b))) : s.resultOnly i :=
  ⟨_, h, fun _ => Board.sameButFlight_emit ..⟩

theorem resultOnly_outV {d : Opd} {lat : Nat} {vals : Board → Lanes} {fl : Board → BitVec 32}
    (h : exec i s = onBoard s i fun b => s.put (b.outV s.cur.slotB s.cur.mask d lat (vals b) (fl b))) : s.resultOnly i :=
  ⟨_, h, fun _ => Board.sameButFlight_outV ..⟩

theorem resultOnly_outM {d : BitVec 3} {lat : Nat} {v : Board → Mask} {fl : Board → BitVec 32}
    (h : exec i s = onBoard s i fun b => s.put (b.outM s.cur.slotB s.cur.mask d lat (v b) (fl b))) : s.resultOnly i :=
  ⟨_, h, fun _ => Board.sameButFlight_outM ..⟩

theorem resultOnly_outX {d : Dest} {v : Board → BitVec 128} (h : exec i s = onBoard s i fun b => s.put (b.outX s.cur.slotB d (v b))) :
    s.resultOnly i := ⟨_, h, fun _ => Board.sameButFlight_outX ..⟩

theorem resultOnly_outC {d : Dest} {v : Board → BitVec 64} (h : exec i s = onBoard s i fun b => s.put (b.outC s.cur.slotB d (v b))) :
    s.resultOnly i := ⟨_, h, fun _ => Board.sameButFlight_outC ..⟩

theorem resultOnly_narrow {ws : Board → List LaneWin} {e : Board → PipeEntry}
    (h : exec i s = onBoard s i fun b => s.put ({ b with vwins := ws b }.emit (e b))) : s.resultOnly i :=
  ⟨_, h, fun _ => Board.sameButFlight_narrowed ..⟩

theorem resultOnly_getsys (y : BitVec 12) (d : BitVec 9) : s.resultOnly (.getsys y d) := by
  unfold State.resultOnly
  rw [exec_getsys]
  unfold execGetsys
  cases h : SysReg.ofNum y with
  | none => exact ⟨_, rfl, Board.sameButFlight_refl⟩
  | some r =>
    cases r <;> refine ⟨_, rfl, fun _ => ?_⟩
    case laneid => exact Board.sameButFlight_emit ..
    all_goals exact Board.sameButFlight_outC ..

theorem resultOnly_of_givesResult (h : givesResult i = true) : s.resultOnly i := by
  cases i
  case nop => exact ⟨_, exec_nop s, Board.sameButFlight_refl⟩
  case getsys y d => exact resultOnly_getsys y d
  case narrow => exact resultOnly_narrow (exec_narrow s)
  case mov => exact resultOnly_outV (exec_mov s)
  case movi => exact resultOnly_outV (exec_movi s)
  case sel => exact resultOnly_outV (exec_sel s)
  case fadd => exact resultOnly_outV (exec_fadd s)
  case fsub => exact resultOnly_outV (exec_fsub s)
  case fmul => exact resultOnly_outV (exec_fmul s)
  case ffma => exact resultOnly_outV (exec_ffma s)
  case fmin => exact resultOnly_outV (exec_fmin s)
  case fmax => exact resultOnly_outV (exec_fmax s)
  case fabs => exact resultOnly_outV (exec_fabs s)
  case fneg => exact resultOnly_outV (exec_fneg s)
  case fclass => exact resultOnly_outV (exec_fclass s)
  case frcp => exact resultOnly_outV (exec_frcp s)
  case frsq => exact resultOnly_outV (exec_frsq s)
  case fsqrt => exact resultOnly_outV (exec_fsqrt s)
  case fexp2 => exact resultOnly_outV (exec_fexp2 s)
  case flog2 => exact resultOnly_outV (exec_flog2 s)
  case fsin => exact resultOnly_outV (exec_fsin s)
  case fcos => exact resultOnly_outV (exec_fcos s)
  case ftanh => exact resultOnly_outV (exec_ftanh s)
  case hadd2 => exact resultOnly_outV (exec_hadd2 s)
  case hsub2 => exact resultOnly_outV (exec_hsub2 s)
  case hmul2 => exact resultOnly_outV (exec_hmul2 s)
  case hfma2 => exact resultOnly_outV (exec_hfma2 s)
  case hmin2 => exact resultOnly_outV (exec_hmin2 s)
  case hmax2 => exact resultOnly_outV (exec_hmax2 s)
  case iadd => exact resultOnly_outV (exec_iadd s)
  case isub => exact resultOnly_outV (exec_isub s)
  case imul => exact resultOnly_outV (exec_imul s)
  case imad => exact resultOnly_outV (exec_imad s)
  case imulh => exact resultOnly_outV (exec_imulh s)
  case imin => exact resultOnly_outV (exec_imin s)
  case imax => exact resultOnly_outV (exec_imax s)
  case and => exact resultOnly_outV (exec_and s)
  case or => exact resultOnly_outV (exec_or s)
  case xor => exact resultOnly_outV (exec_xor s)
  case not => exact resultOnly_outV (exec_not s)
  case shl => exact resultOnly_outV (exec_shl s)
  case shr => exact resultOnly_outV (exec_shr s)
  case sar => exact resultOnly_outV (exec_sar s)
  case popc => exact resultOnly_outV (exec_popc s)
  case clz => exact resultOnly_outV (exec_clz s)
  case bfe => exact resultOnly_outV (exec_bfe s)
  case bfi => exact resultOnly_outV (exec_bfi s)
  case brev => exact resultOnly_outV (exec_brev s)
  case cvt => exact resultOnly_outV (exec_cvt s)
  case shflIdx => exact resultOnly_outV (exec_shflIdx s)
  case shflUp => exact resultOnly_outV (exec_shflUp s)
  case shflDown => exact resultOnly_outV (exec_shflDown s)
  case shflXor => exact resultOnly_outV (exec_shflXor s)
  case bcast => exact resultOnly_outV (exec_bcast s)
  case rot => exact resultOnly_outV (exec_rot s)
  case sort2 => exact resultOnly_outV (exec_sort2 s)
  case scan => exact resultOnly_outV (exec_scan s)
  case reduce => exact resultOnly_outV (exec_reduce s)
  case hash => exact resultOnly_outV (exec_hash s)
  case fcmp => exact resultOnly_outM (exec_fcmp s)
  case icmp => exact resultOnly_outM (exec_icmp s)
  case mand => exact resultOnly_outM (exec_mand s)
  case mor => exact resultOnly_outM (exec_mor s)
  case mxor => exact resultOnly_outM (exec_mxor s)
  case mandn => exact resultOnly_outM (exec_mandn s)
  case mnot => exact resultOnly_outM (exec_mnot s)
  case mmov => exact resultOnly_outM (exec_mmov s)
  case mlane => exact resultOnly_outM (exec_mlane s)
  case mbal => exact resultOnly_outM (exec_mbal s)
  case qscale => exact resultOnly_emit (exec_qscale s)
  case vote => exact resultOnly_emit (exec_vote s)
  case setmpc => exact resultOnly_emit (exec_setmpc s)
  case brset => exact resultOnly_outX (exec_brset s)
  case brget => exact resultOnly_outX (exec_brget s)
  case setsys => exact resultOnly_outX (exec_setsys s)
  case sadd => exact resultOnly_outC (exec_sadd s)
  case ssub => exact resultOnly_outC (exec_ssub s)
  case smul => exact resultOnly_outC (exec_smul s)
  case smulh => exact resultOnly_outC (exec_smulh s)
  case sand => exact resultOnly_outC (exec_sand s)
  case sor => exact resultOnly_outC (exec_sor s)
  case sxor => exact resultOnly_outC (exec_sxor s)
  case sshl => exact resultOnly_outC (exec_sshl s)
  case sshr => exact resultOnly_outC (exec_sshr s)
  case ssar => exact resultOnly_outC (exec_ssar s)
  case smin => exact resultOnly_outC (exec_smin s)
  case smax => exact resultOnly_outC (exec_smax s)
  case sminu => exact resultOnly_outC (exec_sminu s)
  case smaxu => exact resultOnly_outC (exec_smaxu s)
  case sslt => exact resultOnly_outC (exec_sslt s)
  case ssltu => exact resultOnly_outC (exec_ssltu s)
  case saddImm => exact resultOnly_outC (exec_saddImm s)
  case ssubImm => exact resultOnly_outC (exec_ssubImm s)
  case smulImm => exact resultOnly_outC (exec_smulImm s)
  case smulhImm => exact resultOnly_outC (exec_smulhImm s)
  case sandImm => exact resultOnly_outC (exec_sandImm s)
  case sorImm => exact resultOnly_outC (exec_sorImm s)
  case sxorImm => exact resultOnly_outC (exec_sxorImm s)
  case sshlImm => exact resultOnly_outC (exec_sshlImm s)
  case sshrImm => exact resultOnly_outC (exec_sshrImm s)
  case ssarImm => exact resultOnly_outC (exec_ssarImm s)
  case sminImm => exact resultOnly_outC (exec_sminImm s)
  case smaxImm => exact resultOnly_outC (exec_smaxImm s)
  case sminuImm => exact resultOnly_outC (exec_sminuImm s)
  case smaxuImm => exact resultOnly_outC (exec_smaxuImm s)
  case ssltImm => exact resultOnly_outC (exec_ssltImm s)
  case ssltuImm => exact resultOnly_outC (exec_ssltuImm s)
  case smovl => exact resultOnly_outC (exec_smovl s)
  case smovh => exact resultOnly_outC (exec_smovh s)
  case dadd => exact resultOnly_outC (exec_dadd s)
  case dsub => exact resultOnly_outC (exec_dsub s)
  case daddi => exact resultOnly_outC (exec_daddi s)
  case time => exact resultOnly_outC (exec_time s)
  case tick => exact resultOnly_outC (exec_tick s)
  all_goals cases h

theorem flightOnly_of_resultOnly {b : Board} {t : State} (hr : s.resultOnly i) (hc : s.clear b i) (h : exec i s = .next t) : s.flightOnly b t := by
  obtain ⟨f, hexec, hf⟩ := hr
  rw [hexec, onBoard_clear hc] at h
  cases h
  exact ⟨_, rfl, Board.sameButFlight_trans (s.sameButFlight_noted b i) (hf _)⟩

end

theorem Board.sameButFlight_rest {b c : Board} (h : b.sameButFlight c) : c.pegs = b.pegs ∧ c.lanesLeft = b.lanesLeft := by
  unfold Board.sameButFlight at h
  rw [h]
  exact ⟨rfl, rfl⟩

/-- Settles O44: the board in focus is replaced by one that differs in its results in flight alone. -/
theorem resultInstructionsFrame : Obligations.ResultInstructionsFrame := by
  intro s t b i hg hc h
  have hflight := flightOnly_of_resultOnly (resultOnly_of_givesResult hg) hc h
  refine ⟨hflight, ?_⟩
  obtain ⟨c, rfl, hbc⟩ := hflight
  refine ⟨fun _ => rfl, fun _ => rfl, rfl, rfl, fun d hd => ?_⟩
  cases hd
  obtain ⟨hv, hs, hm, hb, hix, hdv, hmpc, -, -, -, -, -, hpath, hstack, -, hA, hB, -⟩ := Board.sameButFlight_reads hbc
  obtain ⟨hpegs, hlanes⟩ := Board.sameButFlight_rest hbc
  exact ⟨hv, hs, hm, hb, hmpc, hdv, hix, hpegs, hpath, hstack, hlanes, hA, hB⟩
end Sys2Proof.Machine
end

