-- ==== Sys2Proof/Proofs/IssueFrames.lean ====
section
/-!
SUPPORT. What an instruction of the slots leaves alone at issue: memory, the other boards, bents, grids, queues and functions, and the registers of its own
board (07 R143, 08 R164), whose stack stays within its 64 entries (02 R33).
-/
namespace Sys2Proof.Machine

/-- The registers of a board, its number and its clock. -/
def Board.held (b : Board) : Nat × List Lanes × List Word × List Mask × List BufRec × List (BitVec 4) × BitVec 64 :=
  (b.id, b.v, b.s, b.m, b.b, b.ix, b.tick)

/-- Registers and mpc are as before, and the stack stays within its 64 entries. -/
def Board.calm (b c : Board) : Prop := c.held = b.held ∧ c.mpc = b.mpc ∧ (b.stack.length ≤ 64 → c.stack.length ≤ 64)

/-- What an instruction of the slots does not reach at issue. -/
def State.beyond (s : State) : Mem × Mem × List Board × List Grid × List (Nat × Queue) × List Fn × Nat :=
  (s.mem, s.hostMem, s.boards, s.grids, s.queues, s.fns, s.time)

/-- The same, with the board in focus and the bents. -/
def State.face (s : State) : Option Board × List Bent × (Mem × Mem × List Board × List Grid × List (Nat × Queue) × List Fn × Nat) :=
  (s.bd, s.bents, s.beyond)

/-- A step from `s`, with board `b` in focus, has left what lies beyond and the bents as they were, and `b` calm. -/
def State.calm (s : State) (b : Board) (t : State) : Prop := ∃ c, t.face = (some c, s.bents, s.beyond) ∧ b.calm c

section
variable {s t u : State} {b c d : Board} {i : Instr}

theorem Board.calm_refl (b : Board) : b.calm b := ⟨rfl, rfl, fun h => h⟩

theorem Board.calm_trans (h : b.calm c) (k : c.calm d) : b.calm d := by
  obtain ⟨hheld, hmpc, hstack⟩ := h
  obtain ⟨kheld, kmpc, kstack⟩ := k
  exact ⟨kheld.trans hheld, kmpc.trans hmpc, kstack ∘ hstack⟩

theorem Board.calm_of_flight (h : b.sameButFlight c) : b.calm c := by
  unfold Board.sameButFlight at h
  rw [h]
  exact ⟨rfl, rfl, fun h => h⟩

theorem Board.calm_of_turn (h : b.sameButTurn c) (hs : b.stack.length ≤ 64 → c.stack.length ≤ 64) : b.calm c := by
  unfold Board.sameButTurn at h
  refine ⟨?_, ?_, hs⟩ <;> rw [h]
  rfl

theorem State.calm_noted (s : State) (b : Board) (i : Instr) : b.calm (s.noted b i) := Board.calm_of_flight (s.sameButFlight_noted b i)

/-- A step that leaves the face of a calm state is calm. -/
theorem State.calm_of_face (h : t.face = u.face) (k : s.calm b u) : s.calm b t := by
  obtain ⟨c, hc, hb⟩ := k
  exact ⟨c, h.trans hc, hb⟩

theorem State.calm_of_noted (h : s.calm (s.noted b i) t) : s.calm b t := by
  obtain ⟨c, hc, hb⟩ := h
  exact ⟨c, hc, Board.calm_trans (s.calm_noted b i) hb⟩

theorem State.calm_put (h : b.calm c) : s.calm b (s.put c) := ⟨c, rfl, h⟩

theorem State.calm_endWith (h : b.calm c) : s.calm b (s.endWith c) := ⟨c, rfl, h⟩

/-! ### The helpers of the slots -/

theorem State.charge_face (id : BitVec 16) (bay cls n : Nat) : (s.charge id bay cls n).face = s.face := rfl

theorem State.fillTlb_face (id : BitVec 16) (va : Nat) : (s.fillTlb id va).face = s.face := by
  unfold State.fillTlb
  split
  · rfl
  · dsimp only
    split <;> rfl

theorem State.fillLines_face (id : BitVec 16) (ls : List Line) : (s.fillLines id ls).face = s.face := by
  unfold State.fillLines
  split
  · rfl
  · exact foldl_keeps (P := State.face) (fun t (l : Line) => t.fillTlb_face id l.va) ls s

theorem State.inscribe_face (c : Cmd) : (s.inscribe c).face = s.face :=
  foldl_keeps (P := State.face) (fun t k => show (t.modCore k _).face = t.face from rfl) _ (s.unscribe c.id)

theorem Board.calm_entered (b : Board) (p : Option (BitVec 3)) (o : MemOp) : b.calm (b.entered p o) := by
  rw [Board.entered_eq]
  exact ⟨rfl, rfl, fun h => h⟩

theorem State.calm_issueOp (s : State) (b : Board) (i : Instr) (o : MemOp) : s.calm b (s.issueOp b i o) := by
  rw [State.issueOp_eq, State.requested]
  exact State.calm_of_face ((State.charge_face ..).trans (State.fillLines_face ..)) ⟨_, rfl, b.calm_entered _ _⟩

theorem State.calm_enqueue (b : Board) (c : Cmd) {f : State → State} (hf : ∀ t, (f t).face = t.face) : s.calm b (s.enqueue b c f) := by
  refine State.calm_of_face (hf _) ⟨_, rfl, ?_⟩
  unfold Board.incPeg
  cases c.peg <;> exact ⟨rfl, rfl, fun h => h⟩

theorem State.calm_copyCmd (b : Board) (c : Cmd) : s.calm b (s.copyCmd b c) := State.calm_enqueue b c fun _ => State.inscribe_face c

theorem State.calm_matrixCmd (b : Board) (c : Cmd) (busy : Nat) : s.calm b (s.matrixCmd b c busy) :=
  State.calm_enqueue (s := s.charge c.ctx (c.core / 4) c.energyClass 1) b { c with busy := busy } fun _ => rfl

theorem State.calm_routeCmd (b : Board) (i : Instr) (u : BitVec 9) : s.calm b (s.routeCmd b i u) := State.calm_enqueue b _ fun _ => rfl

end

/-! ### Fences (07 R156, R157) -/

/-- The state in which a fence stands in the path: an acquire has discarded the copies, and what the copy engine has written may have been shown. -/
def State.fenced (s : State) (b : Board) (pa pb : PathK) (ord : Order) (sc : Scope) : State :=
  if sc == .lane then s
  else
    let r := if acquires ord && pb == .board then s.acquire b else (s, b)
    if (pa == .copy || pa == .board) && pb == .matrix then r.1.showCopies b pa ord sc else r.1

section
variable (s : State) (b : Board) (i : Instr) (pa pb : PathK) (ord : Order) (sc : Scope)

theorem State.acquire_calm : (s.acquire b).1.face = s.face ∧ b.calm (s.acquire b).2 := ⟨rfl, rfl, rfl, fun h => h⟩

theorem State.calm_fence : (s.fenced b pa pb ord sc).calm b (s.fence b i pa pb ord sc) := by
  unfold State.fence State.fenced
  split
  · exact State.calm_put b.calm_refl
  · have hacq : b.calm (if acquires ord && pb == .board then s.acquire b else (s, b)).2 := by
      split
      · exact (s.acquire_calm b).2
      · exact b.calm_refl
    generalize (if acquires ord && pb == .board then s.acquire b else (s, b)) = r at hacq ⊢
    dsimp only
    have hcopy : b.calm (if acquires ord && pa == .copy && pb == .board then { r.2 with copyAcqs := r.2.copyAcqs + 1 } else r.2) := by
      split
      · exact Board.calm_trans hacq ⟨rfl, rfl, fun h => h⟩
      · exact hacq
    generalize (if acquires ord && pa == .copy && pb == .board then { r.2 with copyAcqs := r.2.copyAcqs + 1 } else r.2) = c at hcopy ⊢
    generalize (if (pa == .copy || pa == .board) && pb == .matrix then r.1.showCopies b pa ord sc else r.1) = v
    split
    · exact State.calm_put hcopy
    · split
      · exact State.calm_put (Board.calm_trans hcopy ⟨rfl, rfl, fun h => h⟩)
      · split
        · exact State.calm_put hcopy
        · obtain ⟨d, hd, hcd⟩ := v.free.calm_issueOp c i { opOf (.fence pa pb ord) .glob sc false .none {} with lax := !v.orders c ord sc }
          exact ⟨d, hd, Board.calm_trans hcopy hcd⟩

/-- A bent without what its matrix engine has still to see. -/
def Bent.blind (x : Bent) : Bent := { x with unseen := [] }

theorem State.modBent_blind (n : Nat) (f : Bent → Bent) (hf : ∀ x, (f x).blind = x.blind) : (s.modBent n f).bents.map Bent.blind = s.bents.map Bent.blind := by
  simp only [State.modBent, List.map_map]
  refine List.map_congr_left fun x _ => ?_
  dsimp only [Function.comp_apply]
  split
  · exact hf x
  · rfl

theorem State.showCopies_beyond : (s.showCopies b pa ord sc).beyond = s.beyond := by
  unfold State.showCopies
  split <;> rfl

theorem State.showCopies_blind : (s.showCopies b pa ord sc).bents.map Bent.blind = s.bents.map Bent.blind := by
  unfold State.showCopies
  split
  · exact s.modBent_blind _ _ fun _ => rfl
  · rfl

theorem State.fenced_beyond : (s.fenced b pa pb ord sc).beyond = s.beyond := by
  have hacq : (if acquires ord && pb == .board then s.acquire b else (s, b)).1.beyond = s.beyond := by split <;> rfl
  unfold State.fenced
  split
  · rfl
  · dsimp only
    split
    · exact (State.showCopies_beyond ..).trans hacq
    · exact hacq

theorem State.fenced_blind : (s.fenced b pa pb ord sc).bents.map Bent.blind = s.bents.map Bent.blind := by
  have hacq : (if acquires ord && pb == .board then s.acquire b else (s, b)).1.bents = s.bents := by split <;> rfl
  unfold State.fenced
  split
  · rfl
  · dsimp only
    split
    · exact (State.showCopies_blind ..).trans (congrArg _ hacq)
    · exact congrArg _ hacq

theorem State.fenced_bents (h : pb ≠ .matrix) : (s.fenced b pa pb ord sc).bents = s.bents := by
  have hm : (pb == PathK.matrix) = false := by simpa using h
  have hacq : (if acquires ord && pb == .board then s.acquire b else (s, b)).1.bents = s.bents := by split <;> rfl
  unfold State.fenced
  rw [hm, Bool.and_false]
  split
  · rfl
  · exact hacq

/-- A fence of the board's own path, or towards the copy engine, shows the matrix engine nothing. -/
theorem State.calm_fence_board (h : pb ≠ .matrix) (i : Instr) : s.calm b (s.fence b i pa pb ord sc) := by
  obtain ⟨c, hface, hcalm⟩ := s.calm_fence b i pa pb ord sc
  rw [State.fenced_bents (h := h), State.fenced_beyond] at hface
  exact ⟨c, hface, hcalm⟩

end

/-! ### The control slot (02 R29 to R33) -/

section
variable {s : State} {b c : Board} {i : Instr}

theorem State.ended_stack : (s.ended b).stack = b.stack := by
  unfold State.ended
  split
  · rfl
  · exact Board.setSlot_stack ..

theorem State.calm_ended : b.calm (s.ended b) := Board.calm_of_turn (s.sameButTurn_ended b) fun h => State.ended_stack.symm ▸ h

theorem Board.calm_setSlot (isB : Bool) (x : PcSlot) : b.calm (b.setSlot isB x) :=
  Board.calm_of_turn (Board.sameButTurn_setSlot ..) fun h => (Board.setSlot_stack ..).symm ▸ h

theorem State.calm_jump (t : BitVec 48) : s.calm b (s.jump b t) :=
  State.calm_endWith (Board.calm_trans State.calm_ended (Board.calm_setSlot ..))

theorem State.calm_fall : s.calm b (s.fall b) := State.calm_endWith State.calm_ended

theorem State.calm_branch (p : Prop) [Decidable p] (t : BitVec 48) : s.calm b (if p then s.jump b t else s.fall b) := by
  split
  · exact State.calm_jump t
  · exact State.calm_fall

theorem State.calm_trans_board {t : State} (h : b.calm c) (k : s.calm c t) : s.calm b t := by
  obtain ⟨d, hd, hcd⟩ := k
  exact ⟨d, hd, Board.calm_trans h hcd⟩

theorem Board.calm_flow {f : Flow} (isB : Bool) (h : b.stack.length ≤ 64 → f.stack.length ≤ 64) : b.calm (b.flow isB f) :=
  Board.calm_of_turn (Board.sameButTurn_flow ..) fun hb => (Board.flow_stack ..).symm ▸ h hb

theorem State.calm_flow {f : Flow} (h : b.stack.length ≤ 64 → f.stack.length ≤ 64) : s.calm b (s.flow b f) :=
  State.calm_endWith (Board.calm_trans State.calm_ended (Board.calm_flow _ (State.ended_stack.symm ▸ h)))

/-- Pops take no entry that is not there. -/
theorem State.poppable_length (l : List StackEntry) : (s.poppable b l).length = l.length := by
  induction l with
  | nil => rfl
  | cons e t ih => rw [State.poppable, List.length_cons, List.length_cons, ih]

theorem State.stackOf_length : (s.stackOf b).length = b.stack.length := State.poppable_length _

theorem State.calm_popFlow {f : List StackEntry → PcSlot → Except Nat Flow} (h : ∀ stk x g, f stk x = .ok g → g.stack.length ≤ stk.length) :
    s.calm b (s.popFlow b f) := by
  have htaken : s.calm b (match f (s.stackOf b) ((s.ended b).slotOf s.cur.slotB) with
      | .ok fl => s.endWith ((s.ended b).flow s.cur.slotB fl)
      | .error _ => s.endWith (s.ended b)) := by
    cases hf : f (s.stackOf b) ((s.ended b).slotOf s.cur.slotB) with
    | error k => exact State.calm_fall
    | ok g =>
      have hlen : g.stack.length ≤ b.stack.length := (h _ _ _ hf).trans_eq State.stackOf_length
      exact State.calm_flow fun hb => hlen.trans hb
  unfold State.popFlow
  dsimp only
  split
  · exact htaken
  · exact State.calm_of_face rfl htaken

/-! ### How long a stack becomes -/

theorem popOther_length (t : List StackEntry) (free : Bool) : (popOther t free).1.length ≤ t.length := (popOther_suffix t free).length_le

theorem joinFlow_length {stk : List StackEntry} {o : Option Path} {j : BitVec 48} {m : Mask} {x : PcSlot} {g : Flow}
    (h : joinFlow stk o j m x = .ok g) : g.stack.length ≤ stk.length := by
  cases stk with
  | nil => cases h
  | cons e t =>
    obtain rfl : e.joined t o m x = g := by simpa using (joinFlow_ok h x).symm.trans h
    unfold StackEntry.joined
    split
    · exact (popOther_length t _).trans (Nat.le_succ _)
    · exact le_rfl

theorem arriveHighest_length {m : Mask} {x : PcSlot} {stk : List StackEntry} {r : List StackEntry × Nat} (h : arriveHighest m x stk = some r) :
    r.1.length = stk.length := by
  induction stk generalizing r with
  | nil => cases h
  | cons e t ih =>
    rw [arriveHighest] at h
    split at h
    · cases h
      rfl
    · split at h
      · obtain ⟨q, hq, rfl⟩ := Option.map_eq_some_iff.mp h
        simp [ih hq]
      · cases h

theorem retFlow_length {stk : List StackEntry} {o : Option Path} {m : Mask} {x : PcSlot} {g : Flow} (h : retFlow stk o m x = .ok g) :
    g.stack.length ≤ stk.length := by
  unfold retFlow at h
  split at h
  · split at h <;> cases h
  · rename_i l n hl
    rw [← arriveHighest_length hl]
    split at h
    · cases h
    · rename_i e t
      split at h
      · cases h
        exact Nat.le_succ _
      · split at h
        · split at h
          · cases h
          · cases h
            exact (popOther_length t _).trans (Nat.le_succ _)
        · cases h
          exact le_rfl

theorem exitFlow_length {stk : List StackEntry} {o : Option Path} {m : Mask} {g : Flow} (h : exitFlow stk o m = .ok g) :
    g.stack.length ≤ stk.length :=
  calc g.stack.length ≤ (dropLanes m stk).length := (exitFlow_suffix h).length_le
    _ ≤ stk.length := (List.length_filter_le ..).trans_eq (List.length_map ..)

/-- An instruction that pushes has room for what it pushes (22 R394). -/
theorem room_of_none {n : Nat} (h : (if 64 < n then some 1 else none : Option Nat) = none) : n ≤ 64 := by
  split at h
  · cases h
  · omega

theorem pushJoin_length (stk : List StackEntry) (e : StackEntry) (o : Option Path) :
    (pushJoin stk e o).length = stk.length + pushes 0 o.isSome := by
  cases o <;> simp [pushJoin, pushes]

theorem divFlow_length {stk : List StackEntry} {o : Option Path} {pc t j : BitVec 48} {m c : Mask} :
    (divFlow stk o pc m (m &&& c) t j).stack.length ≤ stk.length + pushes 0 (o.isSome && m &&& c != 0 && m &&& ~~~c != 0) := by
  by_cases hyes : m &&& c = 0
  · rw [divFlow_none hyes]
    simp [pushes]
  · by_cases hno : m &&& ~~~c = 0
    · rw [divFlow_all hyes hno]
      simp [pushes]
    · rw [divFlow_some hyes hno, pushJoin_length, bne_iff_ne.mpr hyes, bne_iff_ne.mpr hno, Bool.and_true, Bool.and_true]

theorem calliFlow_length {stk : List StackEntry} {o : Option Path} {pc : BitVec 48} {m : Mask} {gs : List (BitVec 48 × Mask)} :
    (calliFlow stk o pc m gs).stack.length = stk.length + pushes gs.length o.isSome := by
  simp only [calliFlow, List.length_append, pushJoin_length, List.length_map, List.length_drop, pushes]
  omega


/-! ### The instructions of the control slot -/

theorem calm_of_onBoard {t : State} {k : Board → State} (h : exec i s = onBoard s i k) (hc : s.clear b i) (e : exec i s = .next t)
    (hk : s.calm (s.noted b i) (k (s.noted b i))) : s.calm b t := by
  rw [h, onBoard_clear hc] at e
  cases e
  exact State.calm_of_noted hk

theorem calm_div {mk : BitVec 3} {ng : Bool} {t : BitVec 10} {j : BitVec 11} {u : State} (hc : s.clear b (.div mk ng t j))
    (e : exec (.div mk ng t j) s = .next u) : s.calm b u := by
  refine calm_of_onBoard (exec_div s) hc e (State.calm_flow fun _ => ?_)
  rw [State.mreg_noted, State.otherPath_noted, State.stack_noted]
  exact divFlow_length.trans (room_of_none (stackKind_of_clear hc))

theorem calm_call {off : BitVec 25} {u : State} (hc : s.clear b (.call off)) (e : exec (.call off) s = .next u) : s.calm b u := by
  refine calm_of_onBoard (exec_call s) hc e (State.calm_flow fun _ => ?_)
  rw [State.otherPath_noted, State.stack_noted]
  exact (pushJoin_length ..).trans_le (room_of_none (stackKind_of_clear hc))

theorem calm_calli {f : Opd} {u : State} (hc : s.clear b (.calli f)) (e : exec (.calli f) s = .next u) : s.calm b u := by
  refine calm_of_onBoard (exec_calli s) hc e (State.calm_flow fun _ => ?_)
  rw [State.otherPath_noted, State.stack_noted, State.calliGroups_noted]
  exact calliFlow_length.trans_le (room_of_none (stackKind_of_clear hc))

theorem calm_loop {r : BitVec 9} {off : BitVec 16} {u : State} (hc : s.clear b (.loop r off)) (e : exec (.loop r off) s = .next u) : s.calm b u := by
  refine calm_of_onBoard (exec_loop s) hc e ?_
  dsimp only
  split
  · exact State.calm_trans_board (Board.calm_of_flight (Board.sameButFlight_outC ..)) (State.calm_jump _)
  · exact State.calm_trans_board (Board.calm_of_flight (Board.sameButFlight_outC ..)) State.calm_fall

theorem calm_exitLanes : s.calm b (s.exitLanes b) := by
  obtain ⟨c, hface, hheld, hmpc, hstack⟩ := State.calm_popFlow (s := s) (b := b) (f := fun stk _ => exitFlow stk (s.otherPath b) s.cur.mask)
    fun _ _ _ h => exitFlow_length h
  obtain ⟨hbd, hrest⟩ := Prod.ext_iff.mp hface
  rw [State.exitLanes_eq]
  exact ⟨{ c with lanesLeft := c.lanesLeft &&& ~~~s.cur.mask }, Prod.ext_iff.mpr ⟨congrArg (Option.map _) hbd, hrest⟩, hheld, hmpc, hstack⟩

theorem calm_of_flightOnly {t : State} (h : s.flightOnly b t) : s.calm b t := by
  obtain ⟨c, rfl, hbc⟩ := h
  exact ⟨c, rfl, Board.calm_of_flight hbc⟩

/-- A step of the device has no slot. -/
theorem slot_of_device (h : slotNumOf i < 4) : slotNumOf i ≠ 7 := by omega

/-- Every other instruction of the slots, MMAS and FENCE.X apart, is calm. -/
theorem calm_of_slot {t : State} (hslot : slotNumOf i < 4) (ha : actsAtOnce i = false) (hmmas : ∀ f u a p, i ≠ .mmas f u a p)
    (hfence : ∀ pa pb ord sc, i ≠ .fenceX pa pb ord sc) (hr : givesResult i = false) (hc : s.clear b i) (e : exec i s = .next t) : s.calm b t := by
  cases i
  case mmas => exact (hmmas _ _ _ _ rfl).elim
  case fenceX => exact (hfence _ _ _ _ rfl).elim
  case ld => exact calm_of_onBoard (exec_ld s) hc e (State.calm_issueOp ..)
  case st => exact calm_of_onBoard (exec_st s) hc e (State.calm_issueOp ..)
  case ldu => exact calm_of_onBoard (exec_ldu s) hc e (State.calm_issueOp ..)
  case stu => exact calm_of_onBoard (exec_stu s) hc e (State.calm_issueOp ..)
  case lds => exact calm_of_onBoard (exec_lds s) hc e (State.calm_issueOp ..)
  case sts => exact calm_of_onBoard (exec_sts s) hc e (State.calm_issueOp ..)
  case atom => exact calm_of_onBoard (exec_atom s) hc e (State.calm_issueOp ..)
  case red => exact calm_of_onBoard (exec_red s) hc e (State.calm_issueOp ..)
  case atoms => exact calm_of_onBoard (exec_atoms s) hc e (State.calm_issueOp ..)
  case reds => exact calm_of_onBoard (exec_reds s) hc e (State.calm_issueOp ..)
  case atomu => exact calm_of_onBoard (exec_atomu s) hc e (State.calm_issueOp ..)
  case redu => exact calm_of_onBoard (exec_redu s) hc e (State.calm_issueOp ..)
  case watchArm => exact calm_of_onBoard (exec_watchArm s) hc e (State.calm_issueOp ..)
  case watchDisarm => exact calm_of_onBoard (exec_watchDisarm s) hc e (State.calm_issueOp ..)
  case ldtr => exact calm_of_onBoard (exec_ldtr s) hc e (State.calm_issueOp ..)
  case pref => exact calm_of_onBoard (exec_pref s) hc e (State.calm_of_face (State.charge_face ..) (State.calm_put (Board.calm_refl _)))
  case fence => exact calm_of_onBoard (exec_fence s) hc e (State.calm_fence_board (h := (nofun : PathK.board ≠ .matrix)) ..)
  case cpa => exact calm_of_onBoard (exec_cpa s) hc e (State.calm_copyCmd ..)
  case cpb => exact calm_of_onBoard (exec_cpb s) hc e (State.calm_copyCmd ..)
  case cpr => exact calm_of_onBoard (exec_cpr s) hc e (State.calm_copyCmd ..)
  case mma => exact calm_of_onBoard (exec_mma s) hc e (State.calm_matrixCmd ..)
  case accClr => exact calm_of_onBoard (exec_accClr s) hc e (State.calm_matrixCmd ..)
  case accLd => exact calm_of_onBoard (exec_accLd s) hc e (State.calm_matrixCmd ..)
  case accSt => exact calm_of_onBoard (exec_accSt s) hc e (State.calm_matrixCmd ..)
  case accRdv => exact calm_of_onBoard (exec_accRdv s) hc e (State.calm_matrixCmd ..)
  case accWrv => exact calm_of_onBoard (exec_accWrv s) hc e (State.calm_matrixCmd ..)
  case cbtLd => exact calm_of_onBoard (exec_cbtLd s) hc e (State.calm_matrixCmd ..)
  case routeCount => exact calm_of_onBoard (exec_routeCount s) hc e (State.calm_routeCmd ..)
  case routeXchg => exact calm_of_onBoard (exec_routeXchg s) hc e (State.calm_routeCmd ..)
  case routePlace => exact calm_of_onBoard (exec_routePlace s) hc e (State.calm_routeCmd ..)
  case routeScatter => exact calm_of_onBoard (exec_routeScatter s) hc e (State.calm_routeCmd ..)
  case routeCombine => exact calm_of_onBoard (exec_routeCombine s) hc e (State.calm_routeCmd ..)
  case routeStat => exact calm_of_onBoard (exec_routeStat s) hc e (State.calm_routeCmd ..)
  case bra => exact calm_of_onBoard (exec_bra s) hc e (State.calm_jump _)
  case brx => exact calm_of_onBoard (exec_brx s) hc e (State.calm_jump _)
  case brcNz => exact calm_of_onBoard (exec_brcNz s) hc e (State.calm_branch _ _)
  case brcZ => exact calm_of_onBoard (exec_brcZ s) hc e (State.calm_branch _ _)
  case loop => exact calm_loop hc e
  case call => exact calm_call hc e
  case calli => exact calm_calli hc e
  case div => exact calm_div hc e
  case ret => exact calm_of_onBoard (exec_ret s) hc e (State.calm_popFlow fun _ _ _ h => retFlow_length h)
  case join => exact calm_of_onBoard (exec_join s) hc e (State.calm_popFlow fun _ _ _ h => joinFlow_length h)
  case exit => exact calm_of_onBoard (exec_exit s) hc e calm_exitLanes
  case setix => exact calm_of_onBoard (exec_setix s) hc e (State.calm_put ⟨rfl, rfl, fun h => h⟩)
  case yield => exact calm_of_onBoard (exec_yield s) hc e (State.calm_put ⟨rfl, rfl, fun h => h⟩)
  all_goals try (cases hr)
  all_goals try (cases ha)
  all_goals exact absurd rfl (slot_of_device hslot)

end

/-! ### The frame (07 R143, 08 R164) -/

/-- What the frame says of a step in which the board `b` in focus becomes `c`. -/
def State.framed (s : State) (b : Board) (i : Instr) (t : State) (c : Board) : Prop :=
  t.bd = some c ∧ t.beyond = s.beyond ∧ t.bents.map Bent.blind = s.bents.map Bent.blind
  ∧ ((∀ pa pb ord sc, i ≠ .fenceX pa pb ord sc) → t.bents = s.bents)
  ∧ c.held = b.held ∧ (b.stack.length ≤ 64 → c.stack.length ≤ 64) ∧ ((∀ f u a p, i ≠ .mmas f u a p) → c.mpc = b.mpc)

section
variable {s t : State} {b c : Board} {i : Instr}

theorem framed_of_calm (h : s.calm b t) : ∃ c, s.framed b i t c := by
  obtain ⟨c, hface, hheld, hmpc, hstack⟩ := h
  obtain ⟨hbd, hrest⟩ := Prod.ext_iff.mp hface
  obtain ⟨hbents, hbeyond⟩ := Prod.ext_iff.mp hrest
  exact ⟨c, hbd, hbeyond, congrArg _ hbents, fun _ => hbents, hheld, hstack, fun _ => hmpc⟩

/-- A matrix command of a board whose mpc has moved, as MMAS makes it (08 R180). -/
theorem framed_matrixCmd {f : Opd} {u : BitVec 9} {a : BitVec 5} {p : Option (BitVec 3)} (mpc : DWord) (cmd : Cmd) :
    ∃ c, s.framed b (.mmas f u a p) (s.matrixCmd { s.noted b (.mmas f u a p) with mpc := mpc } cmd 16) c := by
  obtain ⟨hheld, -, hstack⟩ := s.calm_noted b (.mmas f u a p)
  obtain ⟨c, hface, kheld, -, kstack⟩ := State.calm_matrixCmd (s := s) { s.noted b (.mmas f u a p) with mpc := mpc } cmd 16
  obtain ⟨hbd, hrest⟩ := Prod.ext_iff.mp hface
  obtain ⟨hbents, hbeyond⟩ := Prod.ext_iff.mp hrest
  exact ⟨c, hbd, hbeyond, congrArg _ hbents, fun _ => hbents, kheld.trans hheld, fun h => kstack (hstack h), fun h => (h _ _ _ _ rfl).elim⟩

theorem framed_mmas {f : Opd} {u : BitVec 9} {a : BitVec 5} {p : Option (BitVec 3)} (hc : s.clear b (.mmas f u a p))
    (e : exec (.mmas f u a p) s = .next t) : ∃ c, s.framed b (.mmas f u a p) t c := by
  rw [exec_mmas, execMmas, onBoard_clear hc] at e
  cases e
  exact framed_matrixCmd _ _

/-- FENCE.X may show the matrix engine what copies have written (07 R157). -/
theorem framed_fenceX {pa pb : PathK} {ord : Order} {sc : Scope} (hc : s.clear b (.fenceX pa pb ord sc))
    (e : exec (.fenceX pa pb ord sc) s = .next t) : ∃ c, s.framed b (.fenceX pa pb ord sc) t c := by
  rw [exec_fenceX, execFenceX, onBoard_clear hc] at e
  cases e
  obtain ⟨c, hface, hcalm⟩ := s.calm_fence (s.noted b (.fenceX pa pb ord sc)) (.fenceX pa pb ord sc) pa pb ord sc
  obtain ⟨hheld, hmpc, hstack⟩ := Board.calm_trans (s.calm_noted b (.fenceX pa pb ord sc)) hcalm
  obtain ⟨hbd, hrest⟩ := Prod.ext_iff.mp hface
  obtain ⟨hbents, hbeyond⟩ := Prod.ext_iff.mp hrest
  exact ⟨c, hbd, hbeyond.trans (State.fenced_beyond ..), (congrArg _ hbents).trans (State.fenced_blind ..),
    fun h => (h _ _ _ _ rfl).elim, hheld, hstack, fun _ => hmpc⟩

theorem framed_of_slot (hslot : slotNumOf i < 4) (ha : actsAtOnce i = false) (hc : s.clear b i) (e : exec i s = .next t) : ∃ c, s.framed b i t c := by
  by_cases hmmas : ∃ f u a p, i = .mmas f u a p
  · obtain ⟨f, u, a, p, rfl⟩ := hmmas
    exact framed_mmas hc e
  · by_cases hfence : ∃ pa pb ord sc, i = .fenceX pa pb ord sc
    · obtain ⟨pa, pb, ord, sc, rfl⟩ := hfence
      exact framed_fenceX hc e
    · refine framed_of_calm ?_
      cases hr : givesResult i with
      | true => exact calm_of_flightOnly (flightOnly_of_resultOnly (resultOnly_of_givesResult hr) hc e)
      | false => exact calm_of_slot hslot ha (fun f u a p h => hmmas ⟨f, u, a, p, h⟩) (fun pa pb ord sc h => hfence ⟨pa, pb, ord, sc, h⟩) hr hc e

end

/-- Settles O45: what the meaning of each instruction makes of the board in focus, and that it reaches no further. -/
theorem slotInstructionsFrame : Obligations.SlotInstructionsFrame := by
  intro s t b i hslot ha hc e
  obtain ⟨c, hbd, hbeyond, hblind, hbents, hheld, hstack, hmpc⟩ := framed_of_slot hslot ha hc e
  simp only [State.beyond, Prod.mk.injEq] at hbeyond
  simp only [Board.held, Prod.mk.injEq] at hheld
  obtain ⟨hmem, hhost, hboards, hgrids, hqueues, hfns, htime⟩ := hbeyond
  obtain ⟨hid, hv, hs, hm, hb, hix, htick⟩ := hheld
  exact ⟨fun _ => by rw [hmem], fun _ => by rw [hhost], hboards, hgrids, hqueues, hfns, htime, hblind, hbents,
    c, hbd, hid, hv, hs, hm, hb, hix, htick, hstack, hmpc⟩

end Sys2Proof.Machine
end

