-- ==== Sys2Proof/Proofs/BarInstructions.lean ====
section
/-!
The BAR instructions at their issue tick (09 R201, R202): what a gate's arrival and a gate's wait come to.
-/
namespace Sys2Proof.Machine

section
variable (s : State) (b : Board) (k : GateKind) (n : Nat)

/-- The arrivals that ended a phase of a gate, as far as their releases are still to be performed: what a wait on that phase acquires behind. -/
def State.lateOf : List Unreleased := ((s.gateOf b k n).late.filter (·.ended)).filter s.unreleased

/-- The fence that holds up the later accesses of a board whose wait has ended, behind the releases `late` (10 R230). -/
def acquireFence (uid : Nat) (late : List Unreleased) : MemOp :=
  { id := uid, insn := 0, kind := .fence .board .board .acq, space := .glob, scope := .system, peg := none, foreign := late }

/-- A wait that ends leaves a fence in the path of its board exactly where releases of other boards are left. -/
theorem Board.endWait_eq (uid : Nat) (late : List Unreleased) : b.endWait uid late =
    { b with
      gateWait := none, epoch := b.epoch + 1, copyAcqs := b.copyAcqs + 1
      path := b.path ++ if late.filter (·.board != b.id) = [] then [] else [acquireFence uid (late.filter (·.board != b.id))] } := by
  unfold Board.endWait
  dsimp only
  cases late.filter (·.board != b.id) with
  | nil => simp
  | cons a l => simp [acquireFence]

/-- A wait on the phase in which the gate stands, or at a bay gate without a target, waits; another ends. -/
theorem State.awaitPhase_eq (p : Bool) : s.awaitPhase b k n p =
    if (s.gateOf b k n).phase = p ∨ (k = .bay ∧ (s.gateOf b k n).target = none) then
      s.modBoard b.id fun x => { x with gateWait := some { kind := k, num := n, phase := p } }
    else ({ s with nextUid := s.nextUid + 1 } : State).modBoard b.id fun x => x.endWait s.nextUid (s.lateOf b k n) := by
  unfold State.awaitPhase
  by_cases h : (s.gateOf b k n).phase = p ∨ (k = .bay ∧ (s.gateOf b k n).target = none)
  · rw [if_pos h, if_neg]
    rcases h with h | ⟨hk, ht⟩
    · simp [h]
    · simp [hk, hk ▸ ht]
  · rw [if_neg h, if_pos]
    · rfl
    · simpa [or_iff_not_imp_left, Option.isSome_iff_ne_none] using h

theorem gateScope_eq : gateScope k = if k = .bay then .bay else .bent := by cases k <;> rfl

/-- What a release at the issue tick leaves: nothing more where no write is open, and a fence at its scope where one is. -/
theorem State.releaseAt_eq (sc : Scope) : s.releaseAt b sc =
    let t := ({ s with bd := some b } : State).release b.id
    let d := t.bd.getD b
    if d.openWrites = [] then (t, d)
    else ({ t with nextUid := t.nextUid + 1 }, { d with path := d.path ++ [
      { id := t.nextUid, insn := 0, kind := .fence .board .board .rel, space := .glob, scope := sc, peg := none }] }) := by
  simp only [State.releaseAt, State.put, List.isEmpty_iff]

end

section
variable {k : GateKind} (g : BitVec 6) (a : BitVec 9) (s : State)

/-- A BAR on a remote gate enters its operation. -/
theorem execBar_remote :
    exec (.barAw .remote g a) s = onBoard s (.barAw .remote g a) (fun b => s.barRemote b (.barAw .remote g a) 0 a)
    ∧ exec (.barArr .remote g a) s = onBoard s (.barArr .remote g a) (fun b => s.barRemote b (.barArr .remote g a) 1 a)
    ∧ exec (.barWait .remote g a) s = onBoard s (.barWait .remote g a) (fun b => s.barRemote b (.barWait .remote g a) 2 a)
    ∧ exec (.barInit .remote g a) s = onBoard s (.barInit .remote g a) (fun b => s.barRemote b (.barInit .remote g a) 3 a) := by
  simp only [exec_barAw, exec_barArr, exec_barWait, exec_barInit, execBarAw, execBarArr, execBarWait, execBarInit, beq_self_eq_true, if_true, and_self]

/-- A BAR on a gate of the bent or the bay arrives, waits, or sets the gate's target. -/
theorem execBar_near (hk : k ≠ .remote) :
    exec (.barArr k g a) s = onBoard s (.barArr k g a) (fun b => s.barArrive b k g.toNat false)
    ∧ exec (.barAw k g a) s = onBoard s (.barAw k g a) (fun b => s.barArrive b k g.toNat true)
    ∧ exec (.barWait k g a) s = onBoard s (.barWait k g a) (fun b => (s.put b).awaitPhase b k g.toNat ((b.sreg a.toNat).getLsbD 0))
    ∧ exec (.barInit k g a) s = onBoard s (.barInit k g a) (fun b => (s.put b).initGate b k g.toNat (b.sreg a.toNat).toNat) := by
  simp only [exec_barAw, exec_barArr, exec_barWait, exec_barInit, execBarAw, execBarArr, execBarWait, execBarInit, beq_iff_eq, hk, if_false, and_self]

end

/-- Settles O20: a remote gate's operation is entered whole; at a gate of the bent or the bay an arrival is the release, the count and the phase in
dc1, and a wait is `State.awaitPhase`. -/
theorem gateInstructionsComplete : Obligations.GateInstructionsComplete := by
  intro s b k g a sc rel counted awaits
  have hrel : ∀ c, s.releaseAt c (gateScope k) = rel c := fun c => by rw [gateScope_eq]
  have hwait : ∀ t d p, State.awaitPhase t d k g.toNat p = awaits t d p := fun t d p => by
    rw [State.awaitPhase_eq]
    simp only [awaits, Board.endWait_eq]
    rfl
  have harr : ∀ c w, s.barArrive c k g.toNat w = if w then awaits (counted c).1 (rel c).2 (counted c).2 else (counted c).1 := fun c w => by
    rw [State.barArrive, hrel, ← hwait]
    rfl
  refine ⟨fun hk => ?remote, fun hk => ?near, State.releaseAt_eq s b sc⟩
  case remote =>
    subst hk
    obtain ⟨haw, harr, hwait, hinit⟩ := execBar_remote g a s
    exact ⟨completes_of_onBoard haw rfl, completes_of_onBoard harr rfl, completes_of_onBoard hwait rfl, completes_of_onBoard hinit rfl⟩
  case near =>
    obtain ⟨h₁, h₂, h₃, h₄⟩ := execBar_near g a s hk
    exact ⟨completes_of_onBoard h₁ (harr _ false), completes_of_onBoard h₂ (harr _ true),
      completes_of_onBoard h₃ (by rw [hwait, State.sreg_noted]; rfl), completes_of_onBoard h₄ (by rw [State.sreg_noted]; rfl)⟩

end Sys2Proof.Machine
end

