-- ==== Sys2Proof/Proofs/BundleSteps.lean ====
section
/-!
A step of the module taken apart: the event or the bundle that comes next, the slots of the bundle, and its end (02 R29, 03 R45, R54, R55).
-/
namespace Sys2Proof.Machine

/-! ### The end of a bundle -/

/-- Two boards differ at most in what a yield point and the board's turn to leave set. -/
def Board.sameButYield (b c : Board) : Prop := c = { b with leaves := c.leaves, run := c.run, parkedY := c.parkedY }

section
variable (s : State) (b : Board) (stated : Bool) (period : Nat) (is : List Instr)

theorem State.yieldPoint_sameButYield : b.sameButYield (s.yieldPoint b stated period) := by
  unfold State.yieldPoint
  dsimp only
  generalize hr : (if stated then b else _) = x
  have hx : b.sameButYield x := by
    rw [← hr]
    split <;> rfl
  refine iteInduction (motive := b.sameButYield) (fun _ => hx) fun _ => ?_
  rw [Board.sameButYield, hx]

@[simp] theorem State.chargeBundle_bd : (s.chargeBundle b is).bd = s.bd := by
  unfold State.chargeBundle
  dsimp only
  split <;> split <;> rfl

@[simp] theorem State.chargeBundle_cur : (s.chargeBundle b is).cur = s.cur := by
  unfold State.chargeBundle
  dsimp only
  split <;> split <;> rfl

@[simp] theorem State.chargeBundle_mem : (s.chargeBundle b is).mem = s.mem := by
  unfold State.chargeBundle
  dsimp only
  split <;> split <;> rfl

/-- The board at the end of its bundle, before its yield point: ended, unless an instruction has ended it. -/
def State.closed : Board := if s.cur.done then b else b.finish s.cur (max s.cur.gap 1)

theorem State.finish_bd : (s.finish b 1).bd = some (s.closed b) := by
  unfold State.finish State.closed
  split <;> rfl

theorem State.finish_mem : (s.finish b 1).mem = s.mem := by
  unfold State.finish
  split <;> rfl

theorem State.finish_done : (s.finish b 1).cur.done = true := by
  unfold State.finish
  split
  · assumption
  · rfl

/-- Ending a bundle leaves registers, pegs, stack and lanes of its board as they are. -/
theorem State.closed_keeps : let c := s.closed b
    c.v = b.v ∧ c.s = b.s ∧ c.m = b.m ∧ c.b = b.b ∧ c.mpc = b.mpc ∧ c.ix = b.ix ∧ c.pegs = b.pegs ∧ c.stack = b.stack
      ∧ c.lanesLeft = b.lanesLeft := by
  unfold State.closed Board.finish Board.setSlot
  split
  · exact ⟨rfl, rfl, rfl, rfl, rfl, rfl, rfl, rfl, rfl⟩
  · cases s.cur.slotB <;> exact ⟨rfl, rfl, rfl, rfl, rfl, rfl, rfl, rfl, rfl⟩

/-- The end of a bundle closes its board, and leaves memory as it is. -/
theorem State.endBundle_closed {s : State} {b : Board} (h : s.bd = some b) : ∃ d, (s.endBundle is period).bd = some d
    ∧ (s.endBundle is period).cur.done = true ∧ (s.endBundle is period).mem = s.mem ∧ (s.closed b).sameButYield d := by
  unfold State.endBundle
  simp only [h, State.chargeBundle_bd, State.finish_bd]
  split
  · refine ⟨_, rfl, ?_, ?_, ?_⟩
    · exact (congrArg Cur.done (State.chargeBundle_cur ..)).trans (s.finish_done b)
    · exact (State.chargeBundle_mem ..).trans (s.finish_mem b)
    · rw [Board.sameButYield, State.yieldPoint_sameButYield]
      rfl
  · refine ⟨_, rfl, ?_, ?_, rfl⟩
    · exact (congrArg Cur.done (State.chargeBundle_cur ..)).trans (s.finish_done b)
    · exact (State.chargeBundle_mem ..).trans (s.finish_mem b)

end

section
variable (b : Board) (c : Cur) (eff : Nat)

/-- The first latch of a lane is empty after its bundle. -/
theorem Board.finish_dv_first {l : Nat} (h : l < 128) :
    laneAt ((b.finish c eff).dv.getD 0 []) l = if c.mask.getLsbD l then 0 else laneAt (b.dv.getD 0 []) l := laneAt_mergeLanes _ _ _ l h

/-- A later latch of a lane takes the one before it in its bundle. -/
theorem Board.finish_dv_next {l k : Nat} (h : l < 128) (hk : k < 3) : laneAt ((b.finish c eff).dv.getD (k + 1) []) l
    = if c.mask.getLsbD l then laneAt (b.dv.getD k []) l else laneAt (b.dv.getD (k + 1) []) l := by
  obtain rfl | rfl | rfl : k = 0 ∨ k = 1 ∨ k = 2 := by omega
  all_goals exact laneAt_mergeLanes _ _ _ l h

/-- The slot of an ended bundle: its path at P + 1, its latches shifted, its clock moved by the gap. -/
theorem Board.finish_slot : let x := (b.finish c eff).slotOf c.slotB
    x.path = some ⟨c.pc + 1, c.mask⟩ ∧ x.dc1 = 0 ∧ x.dc2 = (b.slotOf c.slotB).dc1
      ∧ x.clk = (b.slotOf c.slotB).clk + BitVec.ofNat 32 c.gap := by
  cases h : c.slotB <;> simp only [Board.finish, h] <;> exact ⟨rfl, rfl, rfl, rfl⟩

theorem Board.finish_slot_other : (b.finish c eff).slotOf (!c.slotB) = b.slotOf (!c.slotB) := by
  cases h : c.slotB <;> simp only [Board.finish, h] <;> rfl

end

/-! ### The slots of a bundle -/

/-- The slots of a bundle one after the other: an instruction that has a next state is followed by the rest. -/
theorem runSlots_next {i : Instr} {is : List Instr} {s v : State} (h : exec i s = .next v) : runSlots (i :: is) s = runSlots is v := by
  rw [runSlots, h]

/-- An instruction that gives no next state is the last of its bundle. -/
theorem runSlots_last {i : Instr} {is : List Instr} {s : State} (h : ∀ v, exec i s ≠ .next v) : runSlots (i :: is) s = exec i s := by
  rw [runSlots]
  split
  · next v hv => exact absurd hv (h v)
  · rfl

theorem runSlots_single (i : Instr) (s : State) : runSlots [i] s = exec i s := by
  by_cases h : ∃ v, exec i s = .next v
  · obtain ⟨v, hv⟩ := h
    rw [runSlots_next hv, hv]
    rfl
  · exact runSlots_last (not_exists.1 h)

/-! ### What comes next -/

section
variable {s p t u : State} {n id : Nat} {one : Bool} {b : Board}

/-- An event that comes next is the step. -/
theorem step_of_event {i : Instr} (hs : s.todo = .event i p) (h : exec i p = .next u) : step s = .next u.advance := by
  rw [step, hs, Todo.take, h]
  rfl

/-- A bundle that comes next is its slots and its end. -/
theorem step_of_bundle {is : List Instr} {period : Nat} (hs : s.todo = .bundle is period p) (h : runSlots is p = .next u) :
    step s = .next (u.endBundle is period).advance := by
  rw [step, hs, Todo.take, h]

/-- A port's bundle that meets a trap is the step of that trap. -/
theorem State.issueFrom_trap {f : Trap} (hp : p.present id = some (t, b)) (hf : t.frontTrap b = some f) :
    p.issueFrom n one id = .event (trapInstr id f) (t.clearPort n one id 0 0) := by simp only [State.issueFrom, hp, hf]

/-- A port's bundle that meets none is the instructions of its slots. -/
theorem State.issueFrom_bundle {w : BitVec 256} (hp : p.present id = some (t, b)) (hf : t.frontTrap b = none)
    (hw : t.front b t.cur.pc = .bundle w) :
    let x := b.start (w.extractLsb' 5 8)
    let t' : State := { t with bd := some x }
    let vec := (slotsOf w).find? fun i => slotNumOf i == 0
    p.issueFrom n one id = .bundle (t'.bundleSteps x (slotsOf w)) (periodOf (p.bay (n / 48)).running)
      (t'.leavePort n one id (if (decodeBundle w).vec.isSome then (vec.map occupancy).getD 0 else 0) (x.bankHold (slotsOf w))) := by
  simp only [State.issueFrom, hp, hf, hw]
  cases (decodeBundle w).vec.isSome <;> simp

end

/-- Settles O35: the step by what comes next, the bundle by its slots in order, and its end by the board that it closes. -/
theorem stepRunsDecodedBundle : Obligations.StepRunsDecodedBundle := by
  intro s p t u n id one b
  refine ⟨fun i hs h => step_of_event hs h, fun hs hp => ⟨fun f hf h => ?trap, fun w hf hw => ?bundle⟩,
    fun x => ⟨rfl, fun i is => ⟨fun v h => runSlots_next h, fun h => runSlots_last h⟩⟩, fun is period hb => ?ends⟩
  case trap => exact step_of_event (hs.trans (State.issueFrom_trap hp hf)) h
  case bundle =>
    refine ⟨fun h => step_of_bundle (hs.trans (State.issueFrom_bundle hp hf hw)) h, fun i hi => ?_⟩
    rw [hi, runSlots_single]
  case ends =>
    obtain ⟨d, hd, hdone, hmem, hyield⟩ := State.endBundle_closed period is hb
    obtain ⟨hv, hs, hm, hbuf, hmpc, hix, hpegs, hstack, hlanes⟩ := u.closed_keeps b
    rw [Board.sameButYield] at hyield
    refine ⟨d, hd, hdone, hmem, ?_⟩
    rw [hyield]
    refine ⟨hv, hs, hm, hbuf, hmpc, hix, hpegs, hstack, hlanes, fun hopen => ?_⟩
    obtain ⟨hpath, hdc1, hdc2, hclk⟩ := Board.finish_slot b u.cur (max u.cur.gap 1)
    rw [State.closed, if_neg (Bool.not_eq_true _ ▸ hopen)]
    exact ⟨hpath, hdc1, hdc2, hclk, Board.finish_slot_other b u.cur (max u.cur.gap 1), rfl, rfl,
      fun l hl => Board.finish_dv_first b u.cur (max u.cur.gap 1) hl,
      fun l k hl hk => Board.finish_dv_next b u.cur (max u.cur.gap 1) hl hk⟩

end Sys2Proof.Machine
end

