-- ==== Sys2Proof/Proofs/SteadyWrites.lean ====
section
/-!
What a write at home leaves alone beside the boards: the bundle in issue, the contexts and the bents, whatever watches it sets off (10 R224, 12 R261).
-/
namespace Sys2Proof.Machine

/-- The bundle in issue, the contexts and the bents. -/
def State.steady (s : State) : Cur × List Ctx × List Bent := (s.cur, s.ctxs, s.bents)

section
variable (s : State)

theorem State.engineEntry_steady (c : BitVec 16) (cause detail count addr tpc : Nat) :
    (s.engineEntry c cause detail count addr tpc).steady = s.steady := by
  obtain ⟨-, -, -, hctxs, -, hcur, hbents, -⟩ := s.engineEntry_keeps c cause detail count addr tpc
  exact Prod.ext hcur (Prod.ext hctxs hbents)

theorem State.change_steady (f : Nat) (w : Watch) (i : Nat) (wr : Writer) : (s.change f w i wr).steady = s.steady := by
  unfold State.change
  dsimp only
  split
  · split
    · rfl
    · exact State.engineEntry_steady ..
  · rfl

theorem State.compare_steady (wr : Writer) (pa : Nat) (old new : List Byte) : (s.compare wr pa old new).steady = s.steady := by
  unfold State.compare
  split
  · rfl
  · refine foldl_keeps (P := State.steady) (fun s w => ?_) _ _
    split
    · refine foldl_keeps (P := State.steady) (fun s i => ?_) _ _
      split
      · exact State.change_steady ..
      · rfl
    · rfl

theorem State.ownMem_steady (a n : Nat) (m : Mem) : (s.ownMem a n m).steady = s.steady := by
  unfold State.ownMem State.compareOwn
  split
  · exact foldl_keeps (P := State.steady) (fun _ _ => State.compare_steady ..) _ { s with mem := m }
  · rfl

theorem State.writeLine_steady (wr : Option Writer) (l : Nat) (w : List (Nat × Byte)) : (s.writeLine wr l w).steady = s.steady := by
  unfold State.writeLine
  extract_lets old t u
  have hu : u.steady = s.steady := by
    obtain ⟨es, e⟩ := s.noteEdits_eq wr l w
    simp only [u, t, e]
    rfl
  cases wr with
  | some wr => exact (State.compare_steady ..).trans hu
  | none =>
    dsimp only
    split
    · exact (State.compare_steady ..).trans hu
    · exact hu

theorem State.writeLocal_steady (wr : Option Writer) (w : List (Nat × Byte)) : (s.writeLocal wr w).steady = s.steady :=
  foldl_keeps (P := State.steady) (fun _ _ => State.writeLine_steady ..) _ _

theorem State.writeLocal_cur (wr : Option Writer) (w : List (Nat × Byte)) : (s.writeLocal wr w).cur = s.cur :=
  congrArg Prod.fst (s.writeLocal_steady wr w)

end

end Sys2Proof.Machine
end

