-- ==== Sys2Proof/Proofs/FrontSteps.lean ====
section
/-!
The steps at the front of the pipeline: fetches, bind bundles with their entry here or at a peer, parked slots, bind services and switch points (03 R43,
14 R308, R309, 15 R319, 16 R335, 25 R433).
-/
namespace Sys2Proof.Machine

/-! ### A fetch (03 R43) -/

section
variable (s : State)

theorem State.board?_of_face {t : State} (h : t.face = s.face) (id : Nat) : t.board? id = s.board? id := by
  simp only [State.face, State.beyond, Prod.mk.injEq] at h
  obtain ⟨hbd, -, -, -, hboards, -⟩ := h
  rw [State.board?, State.board?, hbd, hboards]

theorem State.fillTlb_mem (c : BitVec 16) (va : Nat) : (s.fillTlb c va).mem = s.mem :=
  congrArg (fun f => f.2.2.1) (s.fillTlb_face c va)

/-- A fetch that reaches its bundle ends the hold on its slot; the TLBs may take the leaf. -/
theorem execBundleFetch_ends {b : Board} {id : Nat} {isB : Bool} {p : Path} (hb : s.board? id = some b) (hp : (b.slotOf isB).path = some p)
    (hf : (b.slotOf isB).fetching = true) (hfront : s.front b p.pc ≠ .unfetched) :
    let r := s.setBoard (b.setSlot isB { b.slotOf isB with fetching := false })
    execBundleFetch id isB s = .next r ∨ ∃ va, execBundleFetch id isB s = .next (r.fillTlb b.env.ctx va) := by
  intro r
  have hstep : execBundleFetch id isB s = .next (match s.translate b.env.ctx (32 * p.pc.toNat % 2 ^ 64) .x with
      | .ok _ => r.fillTlb b.env.ctx (32 * p.pc.toNat)
      | .error _ => r) := by
    refine event_next.2 (Option.bind_eq_some_iff.2 ⟨b, hb, Option.bind_eq_some_iff.2 ⟨p, hp, ?_⟩⟩)
    simp only [hf, Bool.not_true, Bool.false_eq_true, if_false]
    cases h : s.front b p.pc with
    | unfetched => exact absurd h hfront
    | outside => rfl
    | bind => rfl
    | bundle w => rfl
  rw [hstep]
  split
  · exact .inr ⟨_, rfl⟩
  · exact .inl rfl

end

/-! ### A bind bundle (14 R308, 15 R319) -/

section
variable {s : State} {b : Board}

/-- A reader that has asked no peer has nothing to take back. -/
theorem State.unfetch_of_unasked {r : Nat} (h : ∀ f ∈ s.fetches, f.reader ≠ r) : s.unfetch r = s := by
  have hall : s.fetches.filter (·.reader != r) = s.fetches := List.filter_eq_self.2 fun f hf => bne_iff_ne.2 (h f hf)
  rw [State.unfetch, hall]

/-- A reader that has asked no peer has read nothing there. -/
theorem State.fetched_of_unasked {r : Nat} (h : ∀ f ∈ s.fetches, f.reader ≠ r) (m a : Nat) : (s.asReader r).fetched m a .line = .error waitRead := by
  have hnone : s.fetches.filter (·.reader == r) = [] := List.filter_eq_nil_iff.2 fun f hf => by simpa using h f hf
  simp only [State.fetched, State.asReader, hnone, List.find?_nil]
  rfl

theorem fieldAt_read (m : Mem) {a n o k : Nat} (h : o + k ≤ n) : fieldAt (m.read a n) o k = m.num (a + o) k := by
  have hbytes : ((m.read a n).drop o).take k = m.read (a + o) k := by
    refine List.ext_getElem? fun j => ?_
    by_cases hj : j < k
    · have hn : o + j < n := by omega
      simp [Mem.read, tab, hj, hn, Nat.add_assoc]
    · simp [Mem.read, tab, hj]
  rw [fieldAt, hbytes, Mem.num]

/-- What a bind bundle that has asked no peer does: it acquires, and goes on with its entry, here or at a peer. -/
theorem execBindBundle_reads {t : Target} (hb : s.bd = some b) (hf : b.frozen = none) (hd : s.cur.done = false)
    (hfront : s.front b s.cur.pc = .bind) (htrap : s.frontTrap b = none) (hat : s.bindAt b .r = .ok t)
    (hask : ∀ f ∈ s.fetches, f.reader ≠ bindReader b.id s.cur.slotB) :
    execBindBundle s = match (s.acquire b).1.bindEntry (s.acquire b).2 t with
      | .ok e => .next ((s.acquire b).1.bindOn (s.acquire b).2 t e)
      | .error k => .next (if waitRead ≤ k then (s.acquire b).1.askBind (s.acquire b).2 t .line else (s.acquire b).1.failBind (s.acquire b).2 k) := by
  have hun : (s.acquire b).1.unfetch (bindReader (s.acquire b).2.id (s.acquire b).1.cur.slotB) = (s.acquire b).1 := State.unfetch_of_unasked hask
  have hno : (s.acquire b).1.claimAnswer (s.acquire b).2 = none := by
    have hnone : (s.acquire b).1.fetches.find? (fun f => f.reader == bindReader (s.acquire b).2.id (s.acquire b).1.cur.slotB && f.kind == .claim) = none :=
      List.find?_eq_none.2 fun f hmem => by simp [show f.reader ≠ bindReader (s.acquire b).2.id (s.acquire b).1.cur.slotB from hask f hmem]
    rw [State.claimAnswer, hnone]
    rfl
  have hat' : (s.acquire b).1.bindAt (s.acquire b).2 .r = .ok t := hat
  have hready : ¬ (s.cur.done || b.frozen.isSome || s.front b s.cur.pc != .bind || (s.frontTrap b).isSome) = true := by
    simp [hd, hf, hfront, htrap]
  unfold execBindBundle
  simp only [hb, Option.bind_eq_bind, Option.bind_some, if_neg hready]
  rw [hun, hat', hno]
  cases h : (s.acquire b).1.bindEntry (s.acquire b).2 t <;> simp only [h] <;> rfl

/-- A bind entry here is read with the bundle, and the bundle goes on with it. -/
theorem execBindBundle_local {a : Nat} (hb : s.bd = some b) (hf : b.frozen = none) (hd : s.cur.done = false)
    (hfront : s.front b s.cur.pc = .bind) (htrap : s.frontTrap b = none) (hat : s.translate b.env.ctx (32 * s.cur.pc.toNat) .r = .ok (.loc a))
    (hbad : s.badAt a = false) (hask : ∀ f ∈ s.fetches, f.reader ≠ bindReader b.id s.cur.slotB) :
    exec .bindBundle s = .next ((s.acquire b).1.bindOn (s.acquire b).2 (.loc a) (s.mem.read a 32)) := by
  have hat' : s.bindAt b .r = .ok (.loc a) := by rw [State.bindAt, hat]
  have hentry : (s.acquire b).1.bindEntry (s.acquire b).2 (.loc a) = .ok (s.mem.read a 32) := if_neg (Bool.not_eq_true _ ▸ hbad)
  have h := execBindBundle_reads hb hf hd hfront htrap hat' hask
  rw [hentry] at h
  exact h

/-- A bind entry at a peer is asked for. -/
theorem execBindBundle_peer {m a : Nat} (hb : s.bd = some b) (hf : b.frozen = none) (hd : s.cur.done = false)
    (hfront : s.front b s.cur.pc = .bind) (htrap : s.frontTrap b = none) (hat : s.bindAt b .r = .ok (.peer m a))
    (hask : ∀ f ∈ s.fetches, f.reader ≠ bindReader b.id s.cur.slotB) :
    exec .bindBundle s = .next ((s.acquire b).1.askBind (s.acquire b).2 (.peer m a) .line) := by
  have hentry : (s.acquire b).1.bindEntry (s.acquire b).2 (.peer m a) = .error waitRead :=
    congrArg (Except.map _) (State.fetched_of_unasked (s := (s.acquire b).1) hask m (a - a % 128))
  have h := execBindBundle_reads hb hf hd hfront htrap hat hask
  rw [hentry] at h
  exact h

/-- The claim of an entry here: STATE written, the request posted to the frame, and the slot parked. -/
theorem State.claimBind_local (a : Nat) : s.claimBind b (.loc a) =
    ((s.writeLocal (some (s.writerOf b)) [(a, 1)]).modFrame (b.core / 16) fun f =>
      { f with binds := f.binds ++ [(b.env.ctx, 32 * s.cur.pc.toNat)] }).parkBind b (.loc a) false := by
  have hcur : (s.writeLocal (some (s.writerOf b)) [(a, 1)]).cur = s.cur := s.writeLocal_cur ..
  simp only [State.claimBind, State.writeTarget, State.postBind, List.map_cons, List.map_nil, Nat.add_zero, hcur]

/-- What a bind bundle does with its entry here follows STATE: BOUND, CLAIMED and UNBOUND. -/
theorem State.bindOn_local (m : Mem) (a : Nat) :
    (m.num a 1 % 4 = 2 → s.bindOn b (.loc a) (m.read a 32) = s.jump (b.start 0) (BitVec.ofNat 48 (m.num (a + 8) 6)))
    ∧ (m.num a 1 % 4 = 1 → s.bindOn b (.loc a) (m.read a 32) = s.parkBind b (.loc a) false)
    ∧ (m.num a 1 % 4 = 0 → s.bindAt b .rw = .ok (.loc a) → s.bindOn b (.loc a) (m.read a 32) = s.claimBind b (.loc a)) := by
  have hstate : fieldAt (m.read a 32) 0 1 = m.num a 1 := fieldAt_read m (by decide)
  have htarget : fieldAt (m.read a 32) 8 6 = m.num (a + 8) 6 := fieldAt_read m (by decide)
  unfold State.bindOn
  rw [hstate, htarget]
  exact ⟨fun h => by rw [h]; rfl, fun h => by rw [h]; rfl, fun h hrw => by rw [h, hrw]; rfl⟩

end

/-! ### Slots that are parked on an entry (25 R433) -/

section
variable {s : State} {b : Board} {id : Nat} {isB : Bool} {p : BindPark} {a : Nat} (hb : s.board? id = some b)
  (hp : (b.slotOf isB).park = some p) (hw : p.watch = none) (hask : p.asked = false)
  (hat : s.translate b.env.ctx p.entry.toNat .r = .ok (.loc a))
include hb hp hw hask hat

/-- A slot without a watch entry polls its entry here: it goes on when STATE is no longer CLAIMED, or notes the microsecond. -/
theorem execBindParkPoll_local : execBindParkPoll id isB s = event "BIND_PARK_POLL"
    (if s.mem.num a 1 % 4 ≠ 1 then some (s.setBoard (b.unpark isB))
     else if p.since + 1000 ≤ s.now then some (s.setBoard (b.setSlot isB { b.slotOf isB with park := some { p with since := s.now } }))
     else none) := by
  have hclaimed : s.stillClaimed b.env.ctx p.entry.toNat = (s.mem.num a 1 % 4 == 1) := by rw [State.stillClaimed, hat]
  have hdue : s.pollDue p = decide (p.since + 1000 ≤ s.now) := by simp [State.pollDue, hw, hask]
  unfold execBindParkPoll
  simp only [hb, Option.bind_eq_bind, Option.bind_some]
  rw [hp]
  simp only [Option.bind_some, hw, hask, hat, hclaimed, hdue, Option.isSome_none, Bool.or_false, Bool.false_eq_true, if_false,
    Bool.not_eq_true', beq_eq_false_iff_ne, decide_eq_true_eq]

end

/-! ### Services and switch points (14 R309, 16 R335) -/

section
variable {s : State}

/-- A service request that finds its callee writes the entry: the branch, VBUD, then STATE. -/
theorem execBindRequestService_found {f k : Nat} {c : BitVec 16} {entry : Nat} (t : BitVec 48) (v : BitVec 8)
    (h : (s.frame f).binds[k]? = some (c, entry)) :
    execBindRequestService f k (.found t v) s = .next (
      [(8, leBytes 8 t.toNat), (20, [v]), (0, [2])].foldl (fun s w => (s.devWriteLine c (entry + w.1) w.2).toOption.getD s)
        (s.modFrame f fun x => { x with binds := x.binds.eraseIdx k })) := by
  unfold execBindRequestService
  rw [event_next]
  simp [h]

/-- A switch point ends its bundle, and goes on at the target in the new variant. -/
theorem execSwitchPoint_switches {b : Board} {v : BitVec 2} {t : BitVec 48} (hb : s.bd = some b) (hf : b.frozen = none) (hd : s.cur.done = false)
    (hw : s.switchOf b = some (v, t)) :
    let e := b.finish s.cur (max s.cur.gap 1)
    execSwitchPoint s = .next { s with
      bd := some { e.setSlot s.cur.slotB { e.slotOf s.cur.slotB with path := some ⟨t, s.cur.mask⟩ } with variant := v }
      cur := { s.cur with done := true } } := by
  intro e
  have hfin : s.finish b 1 = { s with bd := some e, cur := { s.cur with done := true } } := if_neg (by simp [hd])
  unfold execSwitchPoint
  rw [event_next]
  simp [hb, hf, hd, hw, hfin]

end

/-- Settles O48: a fetch by the slot that it leaves, a bind bundle by where its entry lies and by STATE, a poll by STATE and by the microsecond, a
service by the entry that it writes, and a switch point by the slot that it moves. -/
theorem frontStepsComplete : Obligations.FrontStepsComplete := by
  intro s b id
  refine ⟨fun isB p hb hp hf hfront => ?fetch, fun a hb hf hd hfront htrap hat hbad hask => ?here,
    fun m a hb hf hd hfront htrap hat hask => execBindBundle_peer hb hf hd hfront htrap hat hask,
    fun isB p a hb hp hw hask hat h => ?unparks, fun isB p a hb hp hw hask hat h hdue => ?polls,
    fun f k c entry t v h => execBindRequestService_found t v h, fun v t hb hf hd hw => ?switches⟩
  case fetch =>
    have hid : (b.setSlot isB { b.slotOf isB with fetching := false }).id = id := (Board.setSlot_id ..).trans (State.board?_id hb)
    have hset := State.board?_setBoard (c := b.setSlot isB { b.slotOf isB with fetching := false }) (hid.symm ▸ hb)
    rw [hid] at hset
    obtain h | ⟨va, h⟩ := execBundleFetch_ends s hb hp hf hfront
    · exact ⟨_, h, hset, State.setBoard_mem ..⟩
    · exact ⟨_, h, (State.board?_of_face _ (State.fillTlb_face ..) id).trans hset, (State.fillTlb_mem ..).trans (State.setBoard_mem ..)⟩
  case here =>
    have h := execBindBundle_local hb hf hd hfront htrap hat hbad hask
    obtain ⟨hbound, hclaimed, hunbound⟩ := State.bindOn_local (s := (s.acquire b).1) (b := (s.acquire b).2) s.mem a
    refine ⟨fun hs => by rw [h, hbound hs], fun hs => by rw [h, hclaimed hs], fun hs hrw => ?_⟩
    · have hrw' : (s.acquire b).1.bindAt (s.acquire b).2 .rw = .ok (.loc a) := by
        change s.bindAt b .rw = _
        rw [State.bindAt, hrw]
      rw [h, hunbound hs hrw', State.claimBind_local]
      rfl
  case unparks =>
    exact (execBindParkPoll_local hb hp hw hask hat).trans (by rw [if_pos h]; rfl)
  case polls =>
    exact (execBindParkPoll_local hb hp hw hask hat).trans (by rw [if_neg (not_not.2 h), if_pos hdue]; rfl)
  case switches =>
    refine ⟨_, _, execSwitchPoint_switches hb hf hd hw, rfl, rfl, ?_, rfl, rfl⟩
    cases s.cur.slotB <;> rfl

end Sys2Proof.Machine
end

