-- ==== Sys2Proof/Proofs/Landings.lean ====
section
/-!
A result that lands (03 R48, R52, R55, 22 R402): its registers, the latch entries at which it stands, and FSTAT of its context; and what it leaves alone.
-/
namespace Sys2Proof.Machine

/-! ### Places of a list -/

section
variable {α : Type} (l : List α) (f : α → α) (d : α) {n : Nat}

theorem getD_modAt_ne {j : Nat} (h : j ≠ n) : (modAt n f l).getD j d = l.getD j d := by
  simp [modAt_eq_modify, List.getD_eq_getElem?_getD, h.symm]

theorem getD_modAt_self (h : n < l.length) : (modAt n f l).getD n d = f (l.getD n d) := by
  simp [modAt_eq_modify, List.getD_eq_getElem?_getD, h]

theorem length_modAt : (modAt n f l).length = l.length := by rw [modAt_eq_modify, List.length_modify]

end

/-! ### The registers (03 R48) -/

/-- The registers of a board that a result can land in. -/
def Board.regs (b : Board) : List Lanes × List Word × List Mask × List BufRec × DWord := (b.v, b.s, b.m, b.b, b.mpc)

section
variable (b : Board) (e : PipeEntry) {n u : Nat}

/-- Words written to uniform registers from `n` on. -/
def wordsAt (n : Nat) (s : List Word) : List Word → List Word
  | [] => s
  | w :: t => wordsAt (n + 1) (modAt n (fun _ => w) s) t

theorem Board.putWords_regs (n : Nat) (ws : List Word) : (b.putWords n ws).regs = (b.v, wordsAt n b.s ws, b.m, b.b, b.mpc) := by
  induction ws generalizing b n with
  | nil => rfl
  | cons w t ih => exact ih (b.putS n w) (n + 1)

/-- A word of a register outside those written is as before; of those written it is the one written. -/
theorem wordsAt_getD (n : Nat) (s ws : List Word) (j : Nat) : ((j < n ∨ n + ws.length ≤ j) → (wordsAt n s ws).getD j 0 = s.getD j 0)
    ∧ (n + ws.length ≤ s.length → n ≤ j → j < n + ws.length → (wordsAt n s ws).getD j 0 = ws.getD (j - n) 0) := by
  induction ws generalizing n s with
  | nil => exact ⟨fun _ => rfl, fun _ h h' => absurd h' (by simpa using h)⟩
  | cons w t ih =>
    obtain ⟨hout, hin⟩ := ih (n + 1) (modAt n (fun _ => w) s)
    have hhead : j ≠ n → (modAt n (fun _ => w) s).getD j 0 = s.getD j 0 := getD_modAt_ne s _ 0
    simp only [List.length_cons] at hout hin ⊢
    refine ⟨fun h => ?_, fun hl hlo hhi => ?_⟩
    · rw [wordsAt, hout (by omega), hhead (by omega)]
    · obtain rfl | hne := Nat.eq_or_lt_of_le hlo
      · rw [wordsAt, hout (by omega), getD_modAt_self s _ 0 (by omega), Nat.sub_self]
        rfl
      · rw [wordsAt, hin (by rw [length_modAt]; omega) (by omega) (by omega), show j - n = j - (n + 1) + 1 by omega]
        rfl

end

/-- What a result writes to the registers, by its destinations. -/
def PipeEntry.written (e : PipeEntry) (b : Board) : List Lanes × List Word × List Mask × List BufRec × DWord :=
  let s2 (s : List Word) : List Word := match e.dest2 with
    | some u => modAt u (fun _ => e.sval.setWidth 32) s
    | none => s
  match e.dest with
  | .none | .sys _ => (b.v, s2 b.s, b.m, b.b, b.mpc)
  | .v n => (modAt n (mergeLanes e.lanes e.vals) b.v, s2 b.s, b.m, b.b, b.mpc)
  | .m n => (b.v, s2 b.s, modAt n (fun old => (old &&& ~~~e.lanes) ||| (e.sval &&& e.lanes)) b.m, b.b, b.mpc)
  | .s n => (b.v, s2 (modAt n (fun _ => e.sval.setWidth 32) b.s), b.m, b.b, b.mpc)
  | .pair n => (b.v, s2 (wordsAt n b.s [e.sval.setWidth 32, (e.sval >>> 32).setWidth 32]), b.m, b.b, b.mpc)
  | .b n => (b.v, s2 b.s, b.m, modAt n (fun _ => ⟨e.sval, wellFormedRecord e.sval⟩) b.b, b.mpc)
  | .quad n => (b.v, s2 (wordsAt n b.s [e.sval.setWidth 32, (e.sval >>> 32).setWidth 32, (e.sval >>> 64).setWidth 32, (e.sval >>> 96).setWidth 32]), b.m, b.b, b.mpc)
  | .mpc => (b.v, s2 b.s, b.m, b.b, e.sval.setWidth 64)

theorem Board.landReg_regs (b : Board) (e : PipeEntry) : (b.landReg e).regs = e.written b := by
  unfold Board.landReg PipeEntry.written
  cases e.dest2 <;> cases e.dest <;> rfl

/-! ### The latch entries (03 R55, R56) -/

/-- The latch entries of the lanes with a result in those at which it stands. -/
def landDv (vals : Lanes) (l : List (Mask × Nat)) (dv : List Lanes) : List Lanes :=
  l.foldl (fun dv p => if p.2 == 0 then dv else modAt (p.2 - 1) (mergeLanes p.1 vals) dv) dv

/-- A latch entry of a lane takes the result where it stands there, and is as before elsewhere. -/
theorem laneAt_landDv (vals : Lanes) (l : List (Mask × Nat)) (dv : List Lanes) {k j : Nat} (hk : k < 128) (hj : j < dv.length) :
    laneAt ((landDv vals l dv).getD j []) k =
      if ∃ p ∈ l, p.2 = j + 1 ∧ p.1.getLsbD k = true then laneAt vals k else laneAt (dv.getD j []) k := by
  induction l generalizing dv with
  | nil => simp [landDv]
  | cons p t ih =>
    rw [landDv, List.foldl_cons, ← landDv]
    by_cases h0 : p.2 = 0
    · rw [if_pos (beq_iff_eq.2 h0), ih dv hj]
      simp [h0]
    · rw [if_neg (by simpa using h0), ih _ (by rw [length_modAt]; exact hj)]
      by_cases hp : p.2 = j + 1
      · rw [show p.2 - 1 = j by omega, getD_modAt_self _ _ _ hj, laneAt_mergeLanes _ _ _ _ hk]
        by_cases hm : p.1.getLsbD k = true <;> simp [hp, hm]
      · rw [getD_modAt_ne _ _ _ (by omega)]
        simp [hp]

/-- One latch entry of a slot takes a result. -/
def Board.latchDc (v : Word) (b : Board) (p : Bool × Nat) : Board :=
  let x := b.slotOf p.1
  if p.2 == 1 then b.setSlot p.1 { x with dc1 := v } else if p.2 == 2 then b.setSlot p.1 { x with dc2 := v } else b

section
variable (v : Word) (b : Board)

/-- One entry of one slot has taken the result; its path, and the other slot, are as before. -/
theorem Board.latchDc_slotOf (p : Bool × Nat) (isB : Bool) : (Board.latchDc v b p).slotOf isB =
    { b.slotOf isB with
      dc1 := if p = (isB, 1) then v else (b.slotOf isB).dc1
      dc2 := if p = (isB, 2) then v else (b.slotOf isB).dc2 } := by
  obtain ⟨x, n⟩ := p
  have hsame (y : PcSlot) : (b.setSlot x y).slotOf isB = if x = isB then y else b.slotOf isB := by cases x <;> cases isB <;> rfl
  unfold Board.latchDc
  by_cases h1 : n = 1
  · subst h1
    by_cases hx : x = isB <;> simp [hsame, hx]
  · by_cases h2 : n = 2
    · subst h2
      by_cases hx : x = isB <;> simp [hsame, hx]
    · simp [h1, h2]

/-- Latch entries of slots that take a result. -/
theorem Board.latchDc_all (l : List (Bool × Nat)) (isB : Bool) : (l.foldl (Board.latchDc v) b).slotOf isB =
    { b.slotOf isB with
      dc1 := if (isB, 1) ∈ l then v else (b.slotOf isB).dc1
      dc2 := if (isB, 2) ∈ l then v else (b.slotOf isB).dc2 } := by
  induction l generalizing b with
  | nil => rfl
  | cons p t ih =>
    rw [List.foldl_cons, ih, Board.latchDc_slotOf]
    by_cases h1 : (isB, 1) ∈ t <;> by_cases h2 : (isB, 2) ∈ t <;> simp [h1, h2, eq_comm]

end

/-- Two boards differ at most in their slots. -/
def Board.sameButSlots (b c : Board) : Prop := c = { b with slotA := c.slotA, slotB := c.slotB }

theorem Board.latchDc_sameButSlots (v : Word) (b : Board) (l : List (Bool × Nat)) : b.sameButSlots (l.foldl (Board.latchDc v) b) := by
  induction l generalizing b with
  | nil => rfl
  | cons p t ih =>
    have hone : b.sameButSlots (Board.latchDc v b p) := by
      unfold Board.latchDc
      dsimp only
      split
      · cases p.1 <;> rfl
      · split
        · cases p.1 <;> rfl
        · rfl
    rw [List.foldl_cons, Board.sameButSlots, ih, hone]

/-- Two boards differ at most in their latch entries, and in which locations are in error. -/
def Board.sameButLatch (b c : Board) : Prop := c = { b with dv := c.dv, slotA := c.slotA, slotB := c.slotB, bad := c.bad }

/-- A slot whose latch entries take a result, where it stands at them and its latch entry has not landed yet. -/
def PipeEntry.latching (e : PipeEntry) (isB : Bool) (x : PcSlot) : PcSlot :=
  { x with
    dc1 := if e.latched = false ∧ (isB, 1) ∈ e.dc then e.sval.setWidth 32 else x.dc1
    dc2 := if e.latched = false ∧ (isB, 2) ∈ e.dc then e.sval.setWidth 32 else x.dc2 }

section
variable (b : Board) (e : PipeEntry)

/-- The latch entries of the lanes land by `landDv`, those of the slots one by one. -/
theorem Board.landLatch_eq (h : e.latched = false) :
    b.landLatch e = e.dc.foldl (Board.latchDc (e.sval.setWidth 32)) { b.heal e with dv := landDv e.vals e.dv b.dv } := by
  have hdv (l : List (Mask × Nat)) (c : Board) : l.foldl (fun b p =>
      if p.2 == 0 then b else { b with dv := modAt (p.2 - 1) (fun old => mergeLanes p.1 e.vals old) b.dv }) c
      = { c with dv := landDv e.vals l c.dv } := by
    induction l generalizing c with
    | nil => rfl
    | cons p t ih =>
      by_cases h0 : (p.2 == 0) = true
      · rw [List.foldl_cons, if_pos h0, ih, landDv, landDv, List.foldl_cons, if_pos h0]
      · rw [List.foldl_cons, if_neg h0, ih, landDv, landDv, List.foldl_cons, if_neg h0]
  unfold Board.landLatch
  rw [if_neg (by simp [h])]
  dsimp only
  rw [hdv]
  rfl

theorem Board.landLatch_sameButLatch : b.sameButLatch (b.landLatch e) := by
  by_cases h : e.latched = true
  · rw [Board.landLatch, if_pos h]
    rfl
  · rw [Board.landLatch_eq b e (Bool.not_eq_true _ ▸ h), Board.sameButLatch, Board.latchDc_sameButSlots]
    rfl

/-- The latch entries of the lanes after a landing. -/
theorem Board.landLatch_dv {k j : Nat} (hk : k < 128) (hj : j < b.dv.length) : laneAt ((b.landLatch e).dv.getD j []) k =
    if e.latched = false ∧ ∃ p ∈ e.dv, p.2 = j + 1 ∧ p.1.getLsbD k = true then laneAt e.vals k else laneAt (b.dv.getD j []) k := by
  by_cases h : e.latched = true
  · rw [Board.landLatch, if_pos h]
    simp [h]
  · have h' : e.latched = false := Bool.not_eq_true _ ▸ h
    have hdv : (b.landLatch e).dv = landDv e.vals e.dv b.dv := by rw [Board.landLatch_eq b e h', Board.latchDc_sameButSlots]
    rw [hdv, laneAt_landDv _ _ _ hk hj]
    simp [h']

/-- The slots after a landing: their latch entries alone have moved. -/
theorem Board.landLatch_slotOf (isB : Bool) : (b.landLatch e).slotOf isB = e.latching isB (b.slotOf isB) := by
  by_cases h : e.latched = true
  · rw [Board.landLatch, if_pos h]
    simp [PipeEntry.latching, h]
  · have h' : e.latched = false := Bool.not_eq_true _ ▸ h
    rw [Board.landLatch_eq b e h', Board.latchDc_all]
    simp only [PipeEntry.latching, h', true_and]
    cases isB <;> rfl

end

/-! ### A landing of the board -/

/-- A board with a result landed in its registers and latch entries. -/
def Board.landed (b : Board) (e : PipeEntry) : Board := ((b.landReg e).landLatch e).taint e

/-- Two boards differ at most in their registers, and in which locations are in error. -/
def Board.sameButRegs (b c : Board) : Prop := c = { b with v := c.v, s := c.s, m := c.m, b := c.b, mpc := c.mpc, bad := c.bad }

section
variable (b : Board) (e : PipeEntry)

theorem Board.landReg_sameButRegs : b.sameButRegs (b.landReg e) := by
  unfold Board.landReg
  cases e.dest2 <;> cases e.dest <;> rfl

theorem Board.taint_eq : b.taint e = { b with bad := (b.taint e).bad } := by
  unfold Board.taint
  split <;> rfl

theorem Board.landed_eq : b.landed e = { (b.landReg e).landLatch e with bad := (b.landed e).bad } := Board.taint_eq _ e

theorem Board.landed_regs : (b.landed e).regs = e.written b := by
  have hlatch : ((b.landReg e).landLatch e).regs = (b.landReg e).regs := by rw [Board.regs, Board.landLatch_sameButLatch]; rfl
  rw [Board.landed_eq]
  exact hlatch.trans (b.landReg_regs e)

theorem Board.landed_slotOf (isB : Bool) : (b.landed e).slotOf isB = e.latching isB (b.slotOf isB) := by
  have hreg : (b.landReg e).slotOf isB = b.slotOf isB := by rw [b.landReg_sameButRegs e]; rfl
  rw [← hreg, ← Board.landLatch_slotOf, Board.landed_eq]
  rfl

theorem Board.landed_dv {k j : Nat} (hk : k < 128) (hj : j < b.dv.length) : laneAt ((b.landed e).dv.getD j []) k =
    if e.latched = false ∧ ∃ p ∈ e.dv, p.2 = j + 1 ∧ p.1.getLsbD k = true then laneAt e.vals k else laneAt (b.dv.getD j []) k := by
  have hreg : (b.landReg e).dv = b.dv := by rw [b.landReg_sameButRegs e]
  rw [Board.landed_eq, ← hreg]
  exact Board.landLatch_dv _ e hk (hreg.symm ▸ hj)

end

/-- Two boards differ at most in what a landing writes: registers, latch entries, the pipeline, and which locations are in error. -/
def Board.sameButLanding (b c : Board) : Prop :=
  c = { b with
    v := c.v, s := c.s, m := c.m, b := c.b, mpc := c.mpc, dv := c.dv, slotA := c.slotA, slotB := c.slotB, pipe := c.pipe, bad := c.bad }

section
variable (b : Board) (e : PipeEntry) (pipe : List PipeEntry)

theorem Board.landed_sameButLanding : b.sameButLanding (Board.landed { b with pipe := pipe } e) := by
  rw [Board.landed_eq, Board.landLatch_sameButLatch, Board.landReg_sameButRegs]
  rfl

theorem Board.landLatch_sameButLanding : b.sameButLanding (Board.landLatch { b with pipe := pipe } e) := by
  rw [Board.landLatch_sameButLatch]
  rfl

theorem Board.landed_pipe : (b.landed e).pipe = b.pipe := by
  rw [Board.landed_eq, Board.landLatch_sameButLatch, Board.landReg_sameButRegs]

theorem Board.landLatch_pipe : (b.landLatch e).pipe = b.pipe := by rw [Board.landLatch_sameButLatch]

end

/-! ### A landing of the module -/

section
variable {s : State} {b c : Board} {id : Nat}

/-- A board put in its place leaves every other board as it was. -/
theorem State.board?_setBoard_other {j : Nat} (h : j ≠ c.id) : (s.setBoard c).board? j = s.board? j := by
  have hcj : (c.id == j) = false := beq_eq_false_iff_ne.2 h.symm
  have hlist (l : List Board) : (l.map fun y => if y.id == c.id then c else y).find? (·.id == j) = l.find? (·.id == j) := by
    induction l with
    | nil => rfl
    | cons y t ih =>
      rw [List.map_cons, List.find?_cons, List.find?_cons, ih]
      by_cases hy : y.id = c.id
      · simp [hy, hcj]
      · simp [hy]
  unfold State.setBoard State.board?
  cases hbd : s.bd with
  | none => simp only [hlist]
  | some x =>
    dsimp only
    by_cases hx : x.id = c.id
    · simp [hx, h.symm]
    · rw [if_neg (by simpa using hx)]
      simp only [hlist]

/-- A context changed, under its own number, is the one that is found. -/
theorem State.ctx?_modCtx {k : BitVec 16} {x : Ctx} {f : Ctx → Ctx} (hf : ∀ y, (f y).ctxid = y.ctxid) (h : s.ctx? k = some x) :
    (s.modCtx k f).ctx? k = some (f x) := by
  unfold State.ctx? State.modCtx at *
  dsimp only
  generalize s.ctxs = l at h ⊢
  induction l with
  | nil => simp at h
  | cons y t ih =>
    rw [List.map_cons, List.find?_cons]
    rw [List.find?_cons] at h
    cases hk : y.ctxid == k with
    | true =>
      obtain rfl : y = x := by simpa [hk] using h
      rw [if_pos rfl, hf, hk]
    | false =>
      rw [hk] at h
      simpa only [hk, Bool.false_eq_true, if_false] using ih h

end

/-- FSTAT and the other system registers of a context after a landing (09 R208, 22 R402). -/
def Ctx.landed (c : Ctx) (e : PipeEntry) : Ctx :=
  let c := match e.dest with
    | .sys true => { c with fstat := e.sval.setWidth 7 }
    | .sys false => { c with chkWindow := e.sval.getLsbD 0 }
    | _ => c
  { c with fstat := c.fstat ||| e.flags.setWidth 7 }

theorem Ctx.landed_ctxid (c : Ctx) (e : PipeEntry) : (c.landed e).ctxid = c.ctxid := by
  unfold Ctx.landed
  split <;> rfl

/-- What a landing keeps of the module where board `b` has become `x`. -/
def landingKeeps (s : State) (id : Nat) (b : Board) (t : State) (x : Board) : Prop :=
  t.mem = s.mem ∧ t.hostMem = s.hostMem ∧ (∀ j, j ≠ id → t.board? j = s.board? j)
    ∧ x.pegs = b.pegs ∧ x.stack = b.stack ∧ x.path = b.path ∧ x.slotA.path = b.slotA.path ∧ x.slotB.path = b.slotB.path
    ∧ x.ix = b.ix ∧ x.tick = b.tick

/-- The board as a landing has left it, put in its place. -/
theorem State.setBoard_landing {s : State} {b x : Board} {id : Nat} (hb : s.board? id = some b) (hx : b.sameButLanding x)
    (hslot : ∀ isB, (x.slotOf isB).path = (b.slotOf isB).path) :
    (s.setBoard x).board? id = some x ∧ landingKeeps s id b (s.setBoard x) x := by
  unfold Board.sameButLanding at hx
  have hid : x.id = id := (congrArg Board.id hx).trans (show b.id = id from State.board?_id hb)
  have h := State.board?_setBoard (s := s) (c := x) (hid.symm ▸ hb)
  rw [hid] at h
  refine ⟨h, State.setBoard_mem .., State.setBoard_hostMem .., fun j hj => State.board?_setBoard_other (hid.symm ▸ hj), ?_⟩
  refine ⟨?_, ?_, ?_, hslot false, hslot true, ?_, ?_⟩ <;> rw [hx]

/-! ### The two steps -/

section
variable {s : State} {id k : Nat} {b : Board} {e : PipeEntry} (hb : s.board? id = some b) (he : b.pipe[k]? = some e) (hs : s.stands b = false)
include hb he hs

/-- A result whose tick has come lands. -/
theorem exec_landing (h : e.rem = 0) : exec (.fixedLatencyLanding id k) s =
    .next ((s.setBoard (Board.landed { b with pipe := b.pipe.eraseIdx k } e)).modCtx b.env.ctx fun c => c.landed e) := by
  refine event_next.2 (Option.bind_eq_some_iff.2 ⟨b, hb, Option.bind_eq_some_iff.2 ⟨e, he, ?_⟩⟩)
  rw [hs, if_neg Bool.false_ne_true, if_pos (beq_iff_eq.2 h)]
  rfl

/-- A latch entry whose register lands later lands alone. -/
theorem exec_latching (h : e.rem ≠ 0) (hlate : e.rem = e.late) : exec (.fixedLatencyLanding id k) s =
    .next (s.setBoard (Board.landLatch { b with pipe := modAt k (fun e => { e with late := 0, latched := true }) b.pipe } e)) := by
  have hnow : e.latchNow = true := by simp [PipeEntry.latchNow, ← hlate, h]
  refine event_next.2 (Option.bind_eq_some_iff.2 ⟨b, hb, Option.bind_eq_some_iff.2 ⟨e, he, ?_⟩⟩)
  rw [hs, if_neg Bool.false_ne_true, if_neg (by simpa using h), if_pos hnow]

end

/-! ### What each kind of result leaves in the registers -/

/-- A word of a wide result. -/
theorem landedWord (v : BitVec 128) (k : Nat) : (v >>> k).setWidth 32 = v.extractLsb' k 32 := by
  ext i hi
  simp

/-- A vector register after a landing in some of its lanes. -/
theorem vreg_landed {b x : Board} {n : Nat} {m : Mask} {vals : Lanes} (hv : x.v = modAt n (mergeLanes m vals) b.v) :
    (∀ j, j ≠ n → x.vreg j = b.vreg j)
    ∧ (n < b.v.length → ∀ l, l < 128 → laneAt (x.vreg n) l = if m.getLsbD l then laneAt vals l else laneAt (b.vreg n) l) := by
  refine ⟨fun j hj => ?_, fun hn l hl => ?_⟩
  · rw [Board.vreg, hv, getD_modAt_ne _ _ _ hj, Board.vreg]
  · rw [Board.vreg, hv, getD_modAt_self _ _ _ hn, laneAt_mergeLanes _ _ _ _ hl, Board.vreg]

/-- A uniform register after a landing. -/
theorem sreg_landed {b x : Board} {n : Nat} {w : Word} (hs : x.s = modAt n (fun _ => w) b.s) :
    (∀ j, j ≠ n → x.sreg j = b.sreg j) ∧ (n < b.s.length → x.sreg n = w) := by
  refine ⟨fun j hj => ?_, fun hn => ?_⟩
  · rw [Board.sreg, hs, getD_modAt_ne _ _ _ hj, Board.sreg]
  · rw [Board.sreg, hs, getD_modAt_self _ _ _ hn]

/-- Uniform registers after a landing of several words. -/
theorem sregs_landed {b x : Board} {n : Nat} {ws : List Word} (hs : x.s = wordsAt n b.s ws) :
    (∀ j, (j < n ∨ n + ws.length ≤ j) → x.sreg j = b.sreg j)
    ∧ (n + ws.length ≤ b.s.length → ∀ j, j < ws.length → x.sreg (n + j) = ws.getD j 0) := by
  refine ⟨fun j hj => ?_, fun hn j hj => ?_⟩
  · rw [Board.sreg, hs, (wordsAt_getD n b.s ws j).1 hj, Board.sreg]
  · rw [Board.sreg, hs, (wordsAt_getD n b.s ws (n + j)).2 hn (by omega) (by omega), Nat.add_sub_cancel_left]

section
variable {b x : Board} {e : PipeEntry} {n : Nat} (h : x.regs = e.written b)
include h

theorem landed_v (hd : e.dest = .v n) (h2 : e.dest2 = none) :
    x.s = b.s ∧ x.m = b.m ∧ x.b = b.b ∧ x.mpc = b.mpc ∧ (∀ j, j ≠ n → x.vreg j = b.vreg j)
    ∧ (n < b.v.length → ∀ l, l < 128 → laneAt (x.vreg n) l = if e.lanes.getLsbD l then laneAt e.vals l else laneAt (b.vreg n) l) := by
  simp only [Board.regs, PipeEntry.written, hd, h2, Prod.mk.injEq] at h
  obtain ⟨hv, hs, hm, hb, hmpc⟩ := h
  exact ⟨hs, hm, hb, hmpc, vreg_landed hv⟩

theorem landed_v_s {u : Nat} (hd : e.dest = .v n) (h2 : e.dest2 = some u) :
    x.m = b.m ∧ x.b = b.b ∧ x.mpc = b.mpc ∧ (∀ j, j ≠ n → x.vreg j = b.vreg j) ∧ (∀ j, j ≠ u → x.sreg j = b.sreg j)
    ∧ (u < b.s.length → x.sreg u = e.sval.setWidth 32)
    ∧ (n < b.v.length → ∀ l, l < 128 → laneAt (x.vreg n) l = if e.lanes.getLsbD l then laneAt e.vals l else laneAt (b.vreg n) l) := by
  simp only [Board.regs, PipeEntry.written, hd, h2, Prod.mk.injEq] at h
  obtain ⟨hv, hs, hm, hb, hmpc⟩ := h
  obtain ⟨hother, hin⟩ := vreg_landed hv
  obtain ⟨hsother, hsin⟩ := sreg_landed hs
  exact ⟨hm, hb, hmpc, hother, hsother, hsin, hin⟩

theorem landed_s (hd : e.dest = .s n) (h2 : e.dest2 = none) :
    x.v = b.v ∧ x.m = b.m ∧ x.b = b.b ∧ x.mpc = b.mpc ∧ (∀ j, j ≠ n → x.sreg j = b.sreg j)
    ∧ (n < b.s.length → x.sreg n = e.sval.setWidth 32) := by
  simp only [Board.regs, PipeEntry.written, hd, h2, Prod.mk.injEq] at h
  obtain ⟨hv, hs, hm, hb, hmpc⟩ := h
  exact ⟨hv, hm, hb, hmpc, sreg_landed hs⟩

theorem landed_pair (hd : e.dest = .pair n) (h2 : e.dest2 = none) :
    x.v = b.v ∧ x.m = b.m ∧ x.b = b.b ∧ x.mpc = b.mpc ∧ (∀ j, j ≠ n → j ≠ n + 1 → x.sreg j = b.sreg j)
    ∧ (n + 1 < b.s.length → x.sreg n = e.sval.extractLsb' 0 32 ∧ x.sreg (n + 1) = e.sval.extractLsb' 32 32) := by
  simp only [Board.regs, PipeEntry.written, hd, h2, Prod.mk.injEq] at h
  obtain ⟨hv, hs, hm, hb, hmpc⟩ := h
  obtain ⟨hout, hin⟩ := sregs_landed hs
  refine ⟨hv, hm, hb, hmpc, fun j h1 h2 => hout j (by simp only [List.length_cons, List.length_nil]; omega), fun hn => ⟨?_, ?_⟩⟩
  · exact (hin hn 0 (by simp)).trans (landedWord e.sval 0)
  · exact (hin hn 1 (by simp)).trans (landedWord e.sval 32)

theorem landed_quad (hd : e.dest = .quad n) (h2 : e.dest2 = none) :
    x.v = b.v ∧ x.m = b.m ∧ x.b = b.b ∧ x.mpc = b.mpc ∧ (∀ j, j < n ∨ n + 3 < j → x.sreg j = b.sreg j)
    ∧ (n + 3 < b.s.length → ∀ j, j < 4 → x.sreg (n + j) = e.sval.extractLsb' (32 * j) 32) := by
  simp only [Board.regs, PipeEntry.written, hd, h2, Prod.mk.injEq] at h
  obtain ⟨hv, hs, hm, hb, hmpc⟩ := h
  obtain ⟨hout, hin⟩ := sregs_landed hs
  refine ⟨hv, hm, hb, hmpc, fun j hj => hout j (by simp only [List.length_cons, List.length_nil]; omega), fun hn j hj => ?_⟩
  rw [hin hn j hj, ← landedWord]
  obtain rfl | rfl | rfl | rfl : j = 0 ∨ j = 1 ∨ j = 2 ∨ j = 3 := by omega
  all_goals rfl

theorem landed_b (hd : e.dest = .b n) (h2 : e.dest2 = none) :
    x.v = b.v ∧ x.s = b.s ∧ x.m = b.m ∧ x.mpc = b.mpc ∧ (∀ j, j ≠ n → x.brec j = b.brec j)
    ∧ (n < b.b.length → x.brec n = ⟨e.sval, wellFormedRecord e.sval⟩) := by
  simp only [Board.regs, PipeEntry.written, hd, h2, Prod.mk.injEq] at h
  obtain ⟨hv, hs, hm, hb, hmpc⟩ := h
  refine ⟨hv, hs, hm, hmpc, fun j hj => ?_, fun hn => ?_⟩
  · rw [Board.brec, hb, getD_modAt_ne _ _ _ hj, Board.brec]
  · rw [Board.brec, hb, getD_modAt_self _ _ _ hn]

theorem landed_m (hd : e.dest = .m n) (h2 : e.dest2 = none) :
    x.v = b.v ∧ x.s = b.s ∧ x.b = b.b ∧ x.mpc = b.mpc ∧ (∀ j, j ≠ n → x.mreg j = b.mreg j)
    ∧ (n < b.m.length → ∀ l, l < 128 → (x.mreg n).getLsbD l = if e.lanes.getLsbD l then e.sval.getLsbD l else (b.mreg n).getLsbD l) := by
  simp only [Board.regs, PipeEntry.written, hd, h2, Prod.mk.injEq] at h
  obtain ⟨hv, hs, hm, hb, hmpc⟩ := h
  refine ⟨hv, hs, hb, hmpc, fun j hj => ?_, fun hn l hl => ?_⟩
  · rw [Board.mreg, hm, getD_modAt_ne _ _ _ hj, Board.mreg]
  · rw [Board.mreg, hm, getD_modAt_self _ _ _ hn, Board.mreg]
    simp only [BitVec.getLsbD_or, BitVec.getLsbD_and, BitVec.getLsbD_not, hl, decide_true, Bool.true_and]
    cases e.lanes.getLsbD l <;> simp

theorem landed_mpc (hd : e.dest = .mpc) (h2 : e.dest2 = none) :
    x.mpc = e.sval.setWidth 64 ∧ x.v = b.v ∧ x.s = b.s ∧ x.m = b.m ∧ x.b = b.b := by
  simp only [Board.regs, PipeEntry.written, hd, h2, Prod.mk.injEq] at h
  obtain ⟨hv, hs, hm, hb, hmpc⟩ := h
  exact ⟨hmpc, hv, hs, hm, hb⟩

theorem landed_none (hd : e.dest = .none ∨ ∃ f, e.dest = .sys f) (h2 : e.dest2 = none) :
    x.v = b.v ∧ x.s = b.s ∧ x.m = b.m ∧ x.b = b.b ∧ x.mpc = b.mpc := by
  have hw : e.written b = b.regs := by
    obtain hd | ⟨f, hd⟩ := hd <;> simp only [PipeEntry.written, hd, h2, Board.regs]
  simpa only [hw, Board.regs, Prod.mk.injEq] using h

end

/-- FSTAT and WINDOW of the context after a landing, by the destination. -/
theorem Ctx.landed_cases (c : Ctx) (e : PipeEntry) :
    ((∀ f, e.dest ≠ .sys f) → c.landed e = { c with fstat := c.fstat ||| e.flags.setWidth 7 })
    ∧ (e.dest = .sys true → c.landed e = { c with fstat := e.sval.setWidth 7 ||| e.flags.setWidth 7 })
    ∧ (e.dest = .sys false → c.landed e = { c with chkWindow := e.sval.getLsbD 0, fstat := c.fstat ||| e.flags.setWidth 7 }) := by
  refine ⟨fun h => ?_, fun h => by rw [Ctx.landed, h], fun h => by rw [Ctx.landed, h]⟩
  unfold Ctx.landed
  split
  · exact absurd ‹_› (h true)
  · exact absurd ‹_› (h false)
  · rfl

/-- Settles O38: the landing of the board by what it writes to registers and latch entries, that of the context by its destination; the latch entry
alone where its register lands later. -/
theorem landingsWriteTheirRegister : Obligations.LandingsWriteTheirRegister := by
  intro s id k b e c hb he hs hc keeps latches
  have hlatches {x : Board} (hdv : ∀ l j, l < 128 → j < b.dv.length → laneAt (x.dv.getD j []) l =
        if e.latched = false ∧ ∃ p ∈ e.dv, p.2 = j + 1 ∧ p.1.getLsbD l = true then laneAt e.vals l else laneAt (b.dv.getD j []) l)
      (hslot : ∀ isB, x.slotOf isB = e.latching isB (b.slotOf isB)) : latches x :=
    ⟨fun l j hl hj h4 => hdv l j hl (h4 ▸ hj), fun isB => by rw [hslot]; exact ⟨rfl, rfl⟩⟩
  refine ⟨fun h0 => ?lands, fun h0 hlate => ?latch⟩
  case lands =>
    let x := Board.landed { b with pipe := b.pipe.eraseIdx k } e
    have hslot (isB : Bool) : x.slotOf isB = e.latching isB (b.slotOf isB) :=
      (Board.landed_slotOf _ e isB).trans (by cases isB <;> rfl)
    have hpath (isB : Bool) : (x.slotOf isB).path = (b.slotOf isB).path := by rw [hslot]; rfl
    have hregs : x.regs = e.written b := Board.landed_regs _ e
    obtain ⟨hx, hkeeps⟩ := State.setBoard_landing hb (Board.landed_sameButLanding b e (b.pipe.eraseIdx k)) hpath
    have hctx : (s.setBoard x).ctx? b.env.ctx = some c := (congrArg (List.find? _) (s.setBoard_ctxs x)).trans hc
    obtain ⟨hflags, hfstat, hwindow⟩ := c.landed_cases e
    exact ⟨_, x, c.landed e, exec_landing hb he hs h0, hx, State.ctx?_modCtx (fun y => y.landed_ctxid e) hctx, Board.landed_pipe _ e, hkeeps,
      hlatches (fun l j hl hj => Board.landed_dv _ e hl hj) hslot, fun n => landed_v hregs, fun n u => landed_v_s hregs, fun n => landed_s hregs,
      fun n => landed_pair hregs, fun n => landed_quad hregs, fun n => landed_b hregs, fun n => landed_m hregs, landed_mpc hregs,
      landed_none hregs, hflags, hfstat, hwindow⟩
  case latch =>
    let pipe := modAt k (fun e => { e with late := 0, latched := true }) b.pipe
    let x := Board.landLatch { b with pipe := pipe } e
    have hslot (isB : Bool) : x.slotOf isB = e.latching isB (b.slotOf isB) :=
      (Board.landLatch_slotOf _ e isB).trans (by cases isB <;> rfl)
    have hpath (isB : Bool) : (x.slotOf isB).path = (b.slotOf isB).path := by rw [hslot]; rfl
    obtain ⟨hx, hkeeps⟩ := State.setBoard_landing hb (Board.landLatch_sameButLanding b e pipe) hpath
    have hpipe : x.pipe[k]? = some { e with late := 0, latched := true } := by
      rw [show x.pipe = pipe from Board.landLatch_pipe _ e, show pipe = _ from modAt_eq_modify .., List.getElem?_modify, he]
      simp
    have hregs : x = _ := Board.landLatch_sameButLatch { b with pipe := pipe } e
    refine ⟨_, x, exec_latching hb he hs h0 hlate, hx, hpipe, hkeeps, hlatches (fun l j hl hj => Board.landLatch_dv _ e hl hj) hslot,
      s.setBoard_ctxs x, ?_⟩
    rw [hregs]
    exact ⟨rfl, rfl, rfl, rfl, rfl⟩

end Sys2Proof.Machine
end

