-- ==== Sys2Proof/Proofs/StrayHandlerGrid.lean ====
section
/-!
A trap whose delivery writes over its own record (21 R372, R375, 13 R282, R284). Where a grid already has the number that the handler's grid is about to
take, it becomes runnable with it; one of zero extent then signals its completion counter at once, and the counter may lie in the record.
-/
namespace Sys2Proof.Machine

/-- One page of 1 GiB, a trap handler's block at 0x50000, and the code object that it names. -/
def handlerMem : Mem :=
  ((probeTables.write 0x1FFC6 [1]).write 0x1FFC8 (leBytes 8 0x30000)).write 0x50000 (leBytes 8 0x1000 ++ leBytes 8 (1 + 2 ^ 40 + 8 * 2 ^ 48))

/-- A context whose traps go to that handler; its records stand at 0x400000. -/
def handlerCtx : Ctx :=
  { ctxid := 1, fn := 0, window := 0, root := BitVec.ofNat 64 probeRoot, savebase := 0x400000, saveva := 0x400000, traphb := 0x50000, frames := [0], reach := 1 }

/-- A grid of zero extent with the module's next number, whose completion counter is word 1 of the record. -/
def strayGrid : Grid := { uid := 4, gridid := 2, ctx := 1, origin := .board 0, block := { code := 0x1000, extent := 0, boards := 1, bud := 8, sbud := 0, acc := 0, scr := 0, comp := 0x400008 } }

/-- The board that traps. -/
def strayBoard : Board := { id := 3, env := { ctx := 1, grid := 1, bent := 2, place := 1, acc := 16, scr := 1024, cbud := 8, codebase := 0x1000, nbun := 0x10000, gridid := 1 } }

def strayState : State := { State.reset with ctxs := [handlerCtx], grids := [strayGrid], bd := some strayBoard, mem := handlerMem, nextUid := 4 }

/-- The record's FRID reads one more than the freeze has taken: the stray grid's release has been added to it. -/
theorem strayState_frid : (strayState.raise strayBoard { cls := 3, slot := 0, code := 1 }).mem.num 0x400008 4 = 2 := by decide +kernel

/-- Refutes O40: a grid that has the handler's number before it is entered signals a counter in the record, and FRID there is not the one taken. -/
theorem not_trapsFreezeTheBoard : ¬ Obligations.TrapsFreezeTheBoard := by
  intro h
  obtain ⟨f, d, -, -, -, -, -, -, -, -, -, -, -, -, -, -, -, -, hfrid, -⟩ := h strayState strayBoard handlerCtx { cls := 3, slot := 0, code := 1 }
    ⟨by decide, rfl⟩ rfl rfl (by decide) (by decide)
  have hread : (strayState.raise strayBoard { cls := 3, slot := 0, code := 1 }).mem.num 0x400008 4 = 1 := hfrid
  rw [strayState_frid] at hread
  exact absurd hread (by decide)

end Sys2Proof.Machine
end

