-- ==== Sys2Proof/Proofs/BentSteps.lean ====
section
/-!
The steps of bents and of boards that retire (02 R24, R36, 13 R289 to R291, 16 R345, 25 R436): each comes about where its conditions hold.
-/
namespace Sys2Proof.Machine

theorem any_false_of_forall {α : Type} {l : List α} {p : α → Bool} (h : ∀ x ∈ l, p x = false) : l.any p = false :=
  List.any_eq_false.2 fun x hx => by simp [h x hx]

section
variable {s : State} {x : Bent} {g : Grid} {id : Nat} {ps : List Place}

theorem execBentCreate_enters (hg : s.grid? id = some g) (ha : s.mayAdmit g ps = true) (hl : s.laxAt ps = false) :
    execBentCreate id ps s = .next (s.enterBent g none ps) := by
  simp [execBentCreate, event_next, hg, ha, hl]

theorem execBoardRetire_removes {b : Board} (hb : s.board? id = some b) (hr : s.retires b = true) (hl : s.lateFor b = false) :
    execBoardRetire id s = .next ((s.hadTurn b).removeBoard b) := by
  simp [execBoardRetire, event_next, hb, hr, hl]

variable (hx : s.bent? id = some x)
include hx

/-- A bent leaves with its group when all that is left of it is parked or forced, and its images fit. -/
theorem execBentSwitchOut_saves (ha : x.away = false) (hm : x.moving = none) (hp : ∀ y ∈ s.groupBents x, y.forced = true ∨ s.allParked y = true)
    (hf : ∀ y ∈ s.groupBents x, s.trapFrozen y = false) (hb : ∀ y ∈ s.groupBents x, s.saveBlocked y false = false)
    (hfit : (if x.forced then s.imagesFit (s.groupBents x) else s.imagesReserve (s.groupBents x)) = true) :
    let own := ((s.grid? x.grid).map fun g => s.waitsIn g x.bay).getD false
    execBentSwitchOut id s = .next ((s.groupBents x).foldl (fun s y =>
      ((if y.forced then s else s.captureBent y).saveBent y).modBent y.uid fun y => { y with madeWay := own }) s) := by
  have hall : (s.groupBents x).all (fun y => y.forced || s.allParked y) = true := List.all_eq_true.2 fun y hy => by simpa using hp y hy
  refine event_next.2 (Option.bind_eq_some_iff.2 ⟨x, hx, ?_⟩)
  simp only [ha, hm, hall, hfit, any_false_of_forall hf, any_false_of_forall hb, Option.isSome_none, Bool.not_true, Bool.or_self,
    Bool.false_eq_true, if_false]
  rfl

/-- A bent that migrates ends on its target. -/
theorem execBentRestore_moves (hg : s.grid? x.grid = some g) (hw : ∀ y ∈ s.groupBents x, s.writesOpen y = false)
    (hm : ∀ y ∈ s.groupBents x, y.moving ≠ none ∧ s.saveBlocked y true = false) (ha : x.away = false)
    (hps : (s.groupBents x).map (·.moving) = ps.map some) (hl : s.laxAt ps = false)
    (hr : (s.lifted (s.groupBents x)).mayReturn (s.groupBents x) ps = true) :
    execBentRestore id ps s = .next (s.bringBack g (s.groupBents x) ps) := by
  have hready : (s.groupBents x).any (fun y => y.moving.isNone || s.saveBlocked y true) = false := any_false_of_forall fun y hy => by
    obtain ⟨hmove, hblock⟩ := hm y hy
    simp [hblock, Option.isSome_iff_ne_none.2 hmove]
  refine event_next.2 (Option.bind_eq_some_iff.2 ⟨x, hx, Option.bind_eq_some_iff.2 ⟨g, hg, ?_⟩⟩)
  simp [any_false_of_forall hw, hl, ha, hready, hps, hr]

/-- A bent that is away comes back where it may enter and what comes first has entered. -/
theorem execBentRestore_returns {p : Place} {t : List Place} (hg : s.grid? x.grid = some g) (hw : ∀ y ∈ s.groupBents x, s.writesOpen y = false)
    (ha : x.away = true) (hps : ps = p :: t) (hl : s.laxAt ps = false) (hr : s.mayReturn (s.groupBents x) ps = true)
    (hfirst : s.firstIn g (p.core / 4) = true) (hy : s.yields x g (p.core / 4) = false)
    (hgates : x.group = 0 ∨ s.bayGatesFree (p.core / 4) x.group = true) :
    execBentRestore id ps s = .next (if s.imageBad g.ctx then s.free.abortGrid g.uid 3 none else s.free.bringBack g (s.groupBents x) ps) := by
  have hgroup : (x.group == 0 || s.bayGatesFree (p.core / 4) x.group) = true := by simpa using hgates
  refine event_next.2 (Option.bind_eq_some_iff.2 ⟨x, hx, Option.bind_eq_some_iff.2 ⟨g, hg, ?_⟩⟩)
  subst hps
  simp only [any_false_of_forall hw, hl, ha, List.headD_cons, hr, hfirst, hy, hgroup, Bool.or_self, Bool.not_false, Bool.and_self,
    Bool.false_eq_true, if_false, if_true]
  split <;> rfl

/-- The bent that is forced before every other of its bay freezes. -/
theorem execForcedPreemption_forces (hf : s.forceable x = true)
    (hfirst : ∀ y ∈ s.bents, y.bay = x.bay → s.forceable y = true → y.uid ≠ x.uid → s.forcedBefore y x = false) :
    execForcedPreemption id s = .next ((s.groupBents x).foldl (fun s y => (s.captureBent y).modBent y.uid fun y => { y with forced := true }) s) := by
  have hall : s.bents.all (fun y => y.uid == x.uid || y.bay != x.bay || !s.forceable y || !s.forcedBefore y x) = true := by
    refine List.all_eq_true.2 fun y hy => ?_
    by_cases huid : y.uid = x.uid
    · simp [huid]
    · by_cases hbay : y.bay = x.bay
      · cases hforce : s.forceable y with
        | false => simp
        | true => simp [hfirst y hy hbay hforce huid]
      · simp [hbay]
  refine event_next.2 (Option.bind_eq_some_iff.2 ⟨x, hx, ?_⟩)
  rw [hf, hall]
  rfl

/-- A bent of a bay too warm begins to move to a cooler one. -/
theorem execThermalMigration_begins {p : Place} {t : List Place} (hps : ps = p :: t) (ha : x.away = false)
    (hs : ∀ y ∈ s.groupBents x, y.forced = false ∧ y.noMove ≤ s.now ∧ s.trapFrozen y = false)
    (hone : ∀ y ∈ s.bents, y.bay = x.bay → y.moving = none) (hbay : p.core / 4 ≠ x.bay) (hwarm : s.tooWarm x.bay (p.core / 4) = true)
    (hr : s.mayReturn (s.groupBents x) ps = true) (hgroup : x.group = 0) :
    execThermalMigration id ps s = .next (((s.groupBents x).zip ps).foldl (fun s q => (s.captureBent q.1).modBent q.1.uid fun y =>
      { y with moving := some q.2 }) s) := by
  have hstay : (s.groupBents x).any (fun y => y.forced || s.now < y.noMove || s.trapFrozen y) = false := any_false_of_forall fun y hy => by
    obtain ⟨hforced, hno, hfrozen⟩ := hs y hy
    simp [hforced, hno, hfrozen]
  have hfree : s.bents.any (fun y => y.moving.isSome && y.bay == x.bay) = false := any_false_of_forall fun y hy => by
    by_cases hy' : y.bay = x.bay
    · simp [hone y hy hy']
    · simp [hy']
  subst hps
  refine event_next.2 (Option.bind_eq_some_iff.2 ⟨x, hx, Option.bind_eq_some_iff.2 ⟨p, rfl, ?_⟩⟩)
  simp [ha, hstay, hbay, hfree, hwarm, hr, hgroup]

end

/-! ### A migration that is abandoned (25 R436) -/

/-- A bent that does not move, and will not begin to within 10 ms. -/
def Bent.settledAt (now : Nat) (x : Bent) : Bent := { x with moving := none, noMove := now + 10000000, lastAbandon := some (now / 1000000) }

/-- Bents settled one after the other: each whose number has come is settled in its place. -/
theorem settledAt_all (now : Nat) (xs : List Bent) {s : State} {done : List Nat}
    (h : ∀ y ∈ s.bents, y.uid ∈ done → y.moving = none ∧ y.noMove = now + 10000000) :
    ∀ y ∈ (xs.foldl (fun s y => s.modBent y.uid (Bent.settledAt now)) s).bents, y.uid ∈ xs.map (·.uid) ++ done →
      y.moving = none ∧ y.noMove = now + 10000000 := by
  induction xs generalizing s done with
  | nil => exact h
  | cons x t ih =>
    have hone : ∀ y ∈ (s.modBent x.uid (Bent.settledAt now)).bents, y.uid ∈ x.uid :: done → y.moving = none ∧ y.noMove = now + 10000000 := by
      intro y hy hmem
      obtain ⟨z, hz, rfl⟩ := List.mem_map.1 hy
      by_cases hu : z.uid = x.uid
      · rw [if_pos (beq_iff_eq.2 hu)]
        exact ⟨rfl, rfl⟩
      · rw [if_neg (by simpa using hu)] at hmem ⊢
        exact h z hz ((List.mem_cons.1 hmem).resolve_left hu)
    intro y hy hmem
    exact ih hone y hy (by simpa [or_left_comm, or_assoc] using hmem)

/-- A fault queue entry moves the host's memory and the functions alone. -/
theorem State.faultEntry_eq (s : State) (fn : Nat) (w : List Nat) :
    s.faultEntry fn w = { s with hostMem := (s.faultEntry fn w).hostMem, fns := (s.faultEntry fn w).fns } := by
  unfold State.faultEntry
  dsimp only
  split <;> rfl

/-- Whether what a bent takes with it has an error does not turn on a fault queue entry. -/
theorem State.stateBad_engineEntry (s : State) (c : BitVec 16) (cause detail count addr tpc : Nat) (x : Bent) :
    (s.engineEntry c cause detail count addr tpc).stateBad x = s.stateBad x := by
  unfold State.engineEntry State.engineTo
  rw [State.faultEntry_eq]
  rfl

/-- The state in which a migration is abandoned: its tenant is told, once in each ms. -/
def State.abandoned (s : State) (x : Bent) (g : Grid) : State :=
  if x.lastAbandon == some (s.now / 1000000) then s else s.engineEntry g.ctx 0x60 (x.bay / 4 * 16 + x.bay % 4) 1 0 0

theorem State.stateBad_abandoned (s : State) (x y : Bent) (g : Grid) : (s.abandoned x g).stateBad y = s.stateBad y := by
  unfold State.abandoned
  split
  · rfl
  · exact State.stateBad_engineEntry ..

/-- An abandoned migration settles its bents where they stand, unless their state has an error. -/
theorem execMigrationAbandon_settles {s : State} {x : Bent} {g : Grid} {id : Nat} {ps : List Place} (hx : s.bent? id = some x)
    (hg : s.grid? x.grid = some g) (hps : (s.groupBents x).mapM (·.moving) = some ps)
    (hr : (s.lifted (s.groupBents x)).mayReturn (s.groupBents x) ps = false) :
    let now := s.now
    let t := (s.groupBents x).foldl (fun s y => s.modBent y.uid (Bent.settledAt now)) (s.abandoned x g)
    execMigrationAbandon id s = .next (if (s.groupBents x).any s.stateBad then t.abortGrid g.uid 3 none else t) := by
  intro now t
  have hbad : (s.groupBents x).any (s.abandoned x g).stateBad = (s.groupBents x).any s.stateBad :=
    congrArg (List.any _) (funext fun y => s.stateBad_abandoned x y g)
  refine event_next.2 (Option.bind_eq_some_iff.2 ⟨x, hx, Option.bind_eq_some_iff.2 ⟨g, hg, Option.bind_eq_some_iff.2 ⟨ps, hps, ?_⟩⟩⟩)
  rw [hr, ← hbad]
  rfl

/-- Settles O54: each step by the conditions under which it comes about; an abandoned migration by the bents that it settles. -/
theorem bentStepsComplete : Obligations.BentStepsComplete := by
  intro s x g b id ps
  refine ⟨execBentCreate_enters, execBoardRetire_removes, fun hx => ⟨execBentSwitchOut_saves hx, ?moves, ?returns, execForcedPreemption_forces hx,
    fun p t hps ha hs hone hbay hwarm hr hgroup => execThermalMigration_begins hx hps ha hs hone hbay hwarm hr hgroup, ?abandons⟩⟩
  case moves => exact fun g hg hw hm ha hps hl hr => execBentRestore_moves hx hg hw hm ha hps hl hr
  case returns =>
    intro p t hg hw ha hps hl hr hfirst hy hgates
    refine (execBentRestore_returns hx hg hw ha hps hl hr hfirst hy hgates).trans (congrArg Host.Outcome.next ?_)
    by_cases hi : s.imageBad g.ctx = true
    · rw [if_pos hi, if_pos (.inl hi)]
    · rw [if_neg hi, State.bringBack]
      simp only [hi, Bool.false_eq_true, false_or]
  case abandons =>
    intro hg hps hr
    refine ⟨_, execMigrationAbandon_settles hx hg hps hr, fun hgood y hy hmem => ?_⟩
    rw [hgood] at hy
    exact settledAt_all s.now (s.groupBents x) (done := []) (by simp) y hy (by simpa using hmem)

end Sys2Proof.Machine
end
